-- ==== Sys2Proof/Word.lean ====
section
/-! DEFINITION. The words of the DU5 and their plainest arithmetic: bytes, 64-bit general registers (R205),
64-byte blocks (R71), 256-byte vector registers (R117). -/

namespace Sys2Proof

/-- One byte of any space. -/
abbrev Byte := BitVec 8
/-- A general register, a virtual address, a control register (R205, R162). -/
abbrev Word := BitVec 64
/-- A 64-byte block, byte k in bits 8k+7 to 8k (R4, R71). -/
abbrev Blk := BitVec 512
/-- A vector register, byte k in bits 8k+7 to 8k (R117). -/
abbrev VReg := BitVec 2048
/-- An accumulator element (R90). -/
abbrev Acc48 := BitVec 48

end Sys2Proof
end

