-- ==== Sys2Proof/Machine/Bits.lean ====
section
/-! DEFINITION. Bit fields, sign extension and byte order: how a word is cut into fields and put together from them
(most significant field first), and how bytes make numbers (little-endian, R4). -/

namespace Sys2Proof.Machine

/-- The fields of `x` of the given widths, the first one the most significant. -/
def splitN : List Nat → Nat → List Nat
  | [], _ => []
  | w :: ws, x => x / 2 ^ ws.sum % 2 ^ w :: splitN ws x

/-- The word with the given fields. -/
def joinN : List Nat → List Nat → Nat
  | _ :: ws, v :: vs => v * 2 ^ ws.sum + joinN ws vs
  | _, _ => 0

/-- Bits hi to lo of a number. -/
def bits (x hi lo : Nat) : Nat := x / 2 ^ lo % 2 ^ (hi - lo + 1)

/-- Bit k of a number. -/
def bit (x k : Nat) : Bool := x / 2 ^ k % 2 == 1

/-- The number a field of `w` bits holds in two's complement. -/
def sx (w x : Nat) : Int :=
  if x % 2 ^ w < 2 ^ (w - 1) then ((x % 2 ^ w : Nat) : Int) else ((x % 2 ^ w : Nat) : Int) - (2 ^ w : Nat)

/-- A number modulo 2^64 as a word. -/
def wordOfInt (x : Int) : Word := BitVec.ofInt 64 x

/-- The number little-endian bytes make. -/
def leNat : List Byte → Nat
  | [] => 0
  | b :: r => b.toNat + 256 * leNat r

/-- `n` little-endian bytes of a number. -/
def leBytes : Nat → Nat → List Byte
  | 0, _ => []
  | n + 1, x => BitVec.ofNat 8 x :: leBytes n (x / 256)

/-- The number big-endian bytes make. -/
def beNat (l : List Byte) : Nat := l.foldl (fun a b => 256 * a + b.toNat) 0

/-- `n` big-endian bytes of a number. -/
def beBytes (n x : Nat) : List Byte := (leBytes n x).reverse

/-- `n` bytes of a list from position `o`, with zeros beyond its end. -/
def sliceBytes (l : List Byte) (o n : Nat) : List Byte :=
  let r := (l.drop o).take n
  r ++ List.replicate (n - r.length) 0

/-- The little-endian field of `n` bytes at offset `o` of a record. -/
def fieldLe (l : List Byte) (o n : Nat) : Nat := leNat (sliceBytes l o n)

/-- A record with the little-endian field of `n` bytes at offset `o` set. -/
def setFieldLe (l : List Byte) (o n x : Nat) : List Byte := l.take o ++ leBytes n x ++ l.drop (o + n)

/-- A 64-byte block from its bytes. -/
def blkOfBytes (l : List Byte) : Blk := BitVec.ofNat 512 (leNat l)

/-- The bytes of a block. -/
def blkBytes (b : Blk) : List Byte := leBytes 64 b.toNat

/-- A number below `n` that is not in use, sought upward from `u` and around; the fuel is one more than the numbers in use. -/
def pickFree (n : Nat) (used : List Nat) : Nat → Nat → Option Nat
  | 0, _ => none
  | f + 1, u => if used.contains (u % n) then pickFree n used f (u + 1) else some (u % n)

/-- Rounding up of a quotient. -/
def ceilDiv (a b : Nat) : Nat := (a + b - 1) / b

end Sys2Proof.Machine
end

