-- ==== Sys2Proof/Syntax.lean ====
section
/-! DEFINITION. The instruction set as syntax: one constructor of `Instr` for each row of spec/opcode_table.json.
SC, LD/ST and CM words carry the operand fields of their entries; the rows that are steps of the device carry what
the step acts on. Constructors hold fields, never raw encodings. -/

namespace Sys2Proof

/-- The four code sections and their sequencers, in the order of their codes in a code-scan record (R49, R62). -/
inductive Section where
  | sc | ld | cm | st
  deriving DecidableEq, Repr

/-- One sequencer of one stream slot of one core (R31); `core` is the identifier of Table 1.2. -/
structure SeqId where
  core : Nat
  slot : Nat
  sec : Section
  deriving DecidableEq, Repr

/-- The sync marks of an LD, ST or CM word (Table 3.3). -/
structure Sync where
  pbp : Bool
  pbn : Bool
  pap : Bool
  pan : Bool
  deriving DecidableEq, Repr

/-- The ordering class and scope fields of a word (Table 3.2). -/
structure Cs where
  cls : BitVec 4
  scope : BitVec 3
  deriving DecidableEq, Repr

/-- Form T, the copy words (Table 10.4): shape register, G register, scratchpad register, tag, and the watch register
of the barrier to credit (BEN and BK) when there is one. -/
structure FormT where
  y : Sync
  cs : Cs
  h : BitVec 4
  ag : BitVec 4
  as' : BitVec 4
  tag : BitVec 6
  bar : Option (BitVec 2)
  deriving DecidableEq, Repr

/-- Form K, the KV commands of the ST section (Table 11.3). -/
structure FormK where
  y : Sync
  cs : Cs
  ad : BitVec 4
  tag : BitVec 6
  rq : BitVec 4
  ns : Bool
  deriving DecidableEq, Repr

/-- A scratchpad operand in the CM offset form OFF, XE, XR (R95). -/
structure CmOff where
  off : BitVec 22
  xe : Bool
  xr : BitVec 5
  deriving DecidableEq, Repr

/-- MMA and MMAZ (Table 5.9). Fields ending in M1 hold the value less one. -/
structure FormMma where
  y : Sync
  cs : Cs
  acc : BitVec 2
  caM1 : BitVec 4
  cbM1 : BitVec 4
  kgM1 : BitVec 4
  asrc : Bool
  astrM1 : BitVec 6
  a : CmOff
  boff : BitVec 17
  bstrM1 : BitVec 6
  deriving DecidableEq, Repr

/-- MHROT in its o16 and o64 forms (R109); `ord64` selects o64. -/
structure FormMhrot where
  y : Sync
  cs : Cs
  acc : BitVec 2
  caM1 : BitVec 4
  ord64 : Bool
  dg : BitVec 3
  koff : BitVec 2
  asrc : Bool
  astrM1 : BitVec 6
  a : CmOff
  deriving DecidableEq, Repr

/-- MDRAIN (R112). -/
structure FormMdrain where
  y : Sync
  cs : Cs
  acc : BitVec 2
  fmt : BitVec 8
  rnd : BitVec 3
  dist : BitVec 4
  lay : BitVec 2
  clr : Bool
  dstrM1 : BitVec 6
  d : CmOff
  deriving DecidableEq, Repr

/-- MBYP (R112). -/
structure FormMbyp where
  y : Sync
  acc : BitVec 2
  fmt : BitVec 8
  rnd : BitVec 3
  dist : BitVec 4
  clr : Bool
  deriving DecidableEq, Repr

/-- MPEER (R114); `bar` is BOFF when BEN is 1. -/
structure FormMpeer where
  y : Sync
  cs : Cs
  acc : BitVec 2
  tier : BitVec 2
  d : CmOff
  bar : Option (BitVec 22)
  deriving DecidableEq, Repr

/-- MACCLD (R115). -/
structure FormMaccld where
  y : Sync
  cs : Cs
  acc : BitVec 2
  add : Bool
  kind : BitVec 2
  sstrM1 : BitVec 6
  s : CmOff
  deriving DecidableEq, Repr

/-- Form V, the element-wise vector words (Table 6.2). -/
structure FormV where
  y : Sync
  vd : BitVec 5
  va : BitVec 5
  vb : BitVec 5
  vc : BitVec 5
  ty : BitVec 4
  bi : Bool
  mq : BitVec 3
  me : Bool
  mz : Bool
  rnd : BitVec 3
  sat : Bool
  sub : BitVec 3
  md : BitVec 3
  dk : Bool
  gs : BitVec 4
  imm : BitVec 32
  deriving DecidableEq, Repr

/-- Form C, VCVT (Table 6.6), KIND apart: the constructor names it. -/
structure FormC where
  y : Sync
  vd : BitVec 5
  va : BitVec 5
  fs : BitVec 8
  fd : BitVec 8
  rnd : BitVec 3
  dist : BitVec 4
  mq : BitVec 3
  me : Bool
  mz : Bool
  ps : BitVec 3
  pd : BitVec 3
  ss : BitVec 2
  ds : BitVec 2
  nb : BitVec 2
  se : BitVec 8
  de : BitVec 8
  deriving DecidableEq, Repr

/-- Form M, the scratchpad words of CM (Table 6.7). -/
structure FormM where
  y : Sync
  cs : Cs
  vd : BitVec 5
  vb : BitVec 5
  vc : BitVec 5
  ty : BitVec 4
  mq : BitVec 3
  me : Bool
  mz : Bool
  a : CmOff
  lenM1 : BitVec 8
  sc : Bool
  md : BitVec 3
  dk : Bool
  be : Bool
  deriving DecidableEq, Repr

/-- The spare parts and units that hardware events name (Tables 22.1, 22.5). -/
inductive UnitId where
  | column (stack col : Nat)
  | hbm (i : Nat)
  | attnHbm (i : Nat)
  | flash (i : Nat)
  | cxlPort (i : Nat)
  | chiplet
  | ualink (i : Nat)
  | ether (i : Nat)
  | hostLink
  deriving DecidableEq, Repr

/-- What an access from outside the device does at an address: the accesses of a host agent (R422) and of another DU5
over UALink (R424). -/
inductive ExtAccess where
  | read (size : Nat)
  | write (data : List Byte)
  | atomic (op : BitVec 4) (size8 : Bool) (x y : Word)
  deriving DecidableEq, Repr

/-- The places a host access may name (R422). -/
inductive HostPlace where
  | bar0 (off : Nat)
  | bar2 (off : Nat)
  | hdm (pa : Nat)
  deriving DecidableEq, Repr

/-- The stores the patrol scrubber reads (R416): HBM and the CXL tier by PA / 64, attention-side HBM, the last-level cache, a pane of a core's
casement, and a core's shutter store. -/
inductive PatrolPlace where
  | mem | attn | cache
  | pane (core : Nat) (second : Bool)
  | shutter (core : Nat)
  deriving DecidableEq, Repr

/-- A place that the patrol scrubber visits: a store, and a block of it. -/
structure PatrolAt where
  store : PatrolPlace
  blk : Nat
  deriving DecidableEq, Repr

/-- What a spare of an HBM stack takes the place of (Table 22.1). -/
inductive HbmPlace where
  | row (n : Nat)
  | channel (n : Nat)
  deriving DecidableEq, Repr

/-- A stage-2 leaf, by the PA of an entry that holds it, and the micro-contexts whose private pages its frame holds, one for each 4 KiB from the
first on; the last stands for the rest (R392, log 21). -/
structure OwnedLeaf where
  leaf : Nat
  owners : List Nat
  deriving DecidableEq, Repr

/-- A weight segment as a peer names it: its hash, and its scope with the key of the scope (R399, R410). -/
structure SegmentName where
  hash : BitVec 256
  scope : Nat
  key : Nat
  deriving DecidableEq, Repr

/-- A change of a throttle level: up, or down on what firmware reads of the tier's sensors (R419). -/
inductive ThrottleMove where
  | up
  | down (reads : List (Nat × BitVec 16))
  deriving DecidableEq, Repr

/-- What a temperature sensor of a tier reports (R419). -/
inductive SensorEvent where
  | warmUp | warmDown | trip
  deriving DecidableEq, Repr

/-- The instructions and device steps of the opcode table, one constructor a row. -/
inductive Instr where
  -- SC integer, predicate and move words (R206 to R208)
  | add (d a b : BitVec 5)
  | addi (d a : BitVec 5) (i : BitVec 15)
  | sub (d a b : BitVec 5)
  | mul (d a b : BitVec 5)
  | mulh (d a b : BitVec 5) (sg : BitVec 2)
  | div (d a b : BitVec 5) (u : Bool)
  | rem (d a b : BitVec 5) (u : Bool)
  | and (d a b : BitVec 5)
  | or (d a b : BitVec 5)
  | xor (d a b : BitVec 5)
  | andn (d a b : BitVec 5)
  | shl (d a b : BitVec 5)
  | shlImm (d a : BitVec 5) (sh : BitVec 6)
  | shr (d a b : BitVec 5)
  | shrImm (d a : BitVec 5) (sh : BitVec 6)
  | sar (d a b : BitVec 5)
  | sarImm (d a : BitVec 5) (sh : BitVec 6)
  | rol (d a b : BitVec 5)
  | rolImm (d a : BitVec 5) (sh : BitVec 6)
  | fshl (d a b c : BitVec 5)
  | fshlImm (d a b : BitVec 5) (sh : BitVec 6)
  | fshr (d a b c : BitVec 5)
  | fshrImm (d a b : BitVec 5) (sh : BitVec 6)
  | clz (d a : BitVec 5)
  | ctz (d a : BitVec 5)
  | popc (d a : BitVec 5)
  | min (d a b : BitVec 5)
  | max (d a b : BitVec 5)
  | minu (d a b : BitVec 5)
  | maxu (d a b : BitVec 5)
  | sext (d a : BitVec 5) (n : BitVec 6)
  | zext (d a : BitVec 5) (n : BitVec 6)
  | lui (d : BitVec 5) (i : BitVec 20)
  | mov (d a : BitVec 5)
  | movFromPred (d : BitVec 5) (k : BitVec 3)
  | movToPred (p : BitVec 3) (a : BitVec 5)
  | sel (d a b : BitVec 5) (neg : Bool) (k : BitVec 3)
  | cmp (p : BitVec 3) (a b : BitVec 5) (cc : BitVec 4)
  | addx (d a b : BitVec 5) (sh : BitVec 3)
  | madd (d a b c : BitVec 5)
  -- SC control transfer and SYNC (R209 to R211)
  | br (off : BitVec 21)
  | brc (p : BitVec 3) (neg : Bool) (off : BitVec 21)
  | call (off : BitVec 21)
  | ret (a : BitVec 5)
  | loop (k : BitVec 2) (off : BitVec 21)
  | sync (a b c d : BitVec 2)
  -- SC memory words (R213 to R223); `ord` of SLD is acquire and of SST release
  | sld (d a b : BitVec 5) (cs : Cs) (sz : BitVec 2) (ord : Bool)
  | sst (d a b : BitVec 5) (cs : Cs) (sz : BitVec 2) (ord : Bool)
  | amo (d a : BitVec 5) (sz8 : Bool) (op : BitVec 4) (cs : Cs) (ord : BitVec 2)
  | red (d a : BitVec 5) (sz8 : Bool) (op : BitVec 4) (cs : Cs) (ord : BitVec 2)
  | fence (scope : BitVec 3) (mask : BitVec 16)
  | pbInit (d a b : BitVec 5) (cs : Cs)
  | pbArrive (d a b : BitVec 5) (cs : Cs) (we : Bool) (k : BitVec 2)
  | pbExpect (a b : BitVec 5) (cs : Cs)
  | pbTest (d a : BitVec 5) (cs : Cs)
  | wanyTm (p : BitVec 3) (k : BitVec 3)
  | wanyReg (p : BitVec 3) (a : BitVec 5)
  | wallTm (p : BitVec 3) (k : BitVec 3)
  | wallReg (p : BitVec 3) (a : BitVec 5)
  | ffrdyTm (d : BitVec 5) (k : BitVec 3)
  | ffrdyReg (d a : BitVec 5)
  | tensorDef (d a : BitVec 5)
  | tensorUndef (d b : BitVec 5)
  -- SC system words (R226 to R232, R362 to R370)
  | trap (a : BitVec 5) (i : BitVec 15)
  | tfence
  | eret
  | crd (d : BitVec 5) (i : BitVec 15)
  | cwr (a : BitVec 5) (i : BitVec 15)
  | tlbi (d a b : BitVec 5) (rng mxe : Bool) (st : BitVec 2)
  | mxbind (d a b : BitVec 5)
  | mxsaveCopy (d a b : BitVec 5)
  | mxsaveFree (d a b : BitVec 5)
  | mxsaveReset (d a b : BitVec 5)
  | mxsaveCkpt (d a b : BitVec 5)
  | mxsaveKill (d a b : BitVec 5)
  | mxsaveDrain (d a b : BitVec 5)
  | keyldLoad (d a b : BitVec 5)
  | keyldUnload (d a b : BitVec 5)
  | scrubCore (d a : BitVec 5)
  | scrubTenant (d a : BitVec 5)
  | setest (a : BitVec 5)
  | yield
  | halt
  | perfrd (d a : BitVec 5) (i : BitVec 15)
  | launch (d a : BitVec 5)
  | hintPf (a : BitVec 5) (i : BitVec 15)
  | hintBl (l : BitVec 3) (off : BitVec 21)
  | hint0 (v : BitVec 25)
  | hint1 (v : BitVec 25)
  | hint2 (v : BitVec 25)
  | hint3 (v : BitVec 25)
  | hint4 (v : BitVec 25)
  | hint5 (v : BitVec 25)
  -- LD and ST words (R59, R236, R245 to R255, R272, R400); `cm` of NOP tells the 128-bit word
  | nop (cm : Bool) (y : Sync)
  | shape (y : Sync) (hd idx : BitVec 4)
  | shapeMem (y : Sync) (cs : Cs) (hd a : BitVec 4)
  | adda (y : Sync) (d a t : BitVec 4) (te : Bool) (sh : BitVec 3) (imm : BitVec 29)
  | movaImm (y : Sync) (d : BitVec 4) (sh : BitVec 3) (imm : BitVec 36)
  | movaGpos (y : Sync) (d : BitVec 4) (k : BitVec 3)
  | movaSp (y : Sync) (cs : Cs) (d : BitVec 4) (off : BitVec 22)
  | movaReg (y : Sync) (d a : BitVec 4)
  | loopa (y : Sync) (k : BitVec 2) (ar : BitVec 4) (ae : Bool) (step : BitVec 16) (off : BitVec 21)
  | pref (y : Sync) (cs : Cs) (h ag : BitVec 4)
  | prefTensor (y : Sync) (cs : Cs) (h ag : BitVec 4)
  | tload (w : FormT)
  | tloadx (w : FormT)
  | gather (w : FormT) (ai : BitVec 4)
  | cfill (w : FormT)
  | cfillPeer (w : FormT) (pt : BitVec 2)
  | pktTake (y : Sync) (d : BitVec 4)
  | kvRes (w : FormK) (bar : Option (BitVec 2))
  | tstore (w : FormT)
  | scatter (w : FormT) (ai : BitVec 4)
  | redm (w : FormT) (op : BitVec 4)
  | pktEmit (y : Sync) (cs : Cs) (a q l : BitVec 4) (tag : BitVec 6) (fin : Bool) (ar : BitVec 4)
  | kvQry (w : FormK)
  | kvQryResume (w : FormK)
  | kvAppend (w : FormK)
  | kvSplice (w : FormK) (ag : BitVec 4)
  | kvDrop (w : FormK)
  | kvDropAll (w : FormK)
  | kvCommit (w : FormK)
  | kvIxlook (w : FormK)
  | kvIxins (w : FormK)
  | kvRepairOpen (w : FormK)
  | kvRepairCmp (w : FormK)
  | kvRepairApply (w : FormK)
  | kvRepairAbort (w : FormK)
  | kvPagein (w : FormK)
  | install (y : Sync) (cs : Cs) (ad : BitVec 4) (tag : BitVec 6)
  | installQuery (y : Sync) (cs : Cs) (ad : BitVec 4) (tag : BitVec 6)
  | installRelease (y : Sync) (cs : Cs) (ad : BitVec 4) (tag : BitVec 6)
  -- CM matrix words (R106 to R116)
  | mlease (y : Sync)
  | mrel (y : Sync)
  | mma (w : FormMma)
  | mmaz (w : FormMma)
  | mhrot (w : FormMhrot)
  | mhrotS256 (y : Sync)
  | swing (y : Sync) (count : BitVec 24)
  | mdrain (w : FormMdrain)
  | mbyp (w : FormMbyp)
  | mpeer (w : FormMpeer)
  | maccld (w : FormMaccld)
  | mclr (y : Sync) (mask : BitVec 4) (byp : Bool)
  -- CM vector words (R126 to R142)
  | vadd (w : FormV)
  | vsub (w : FormV)
  | vmul (w : FormV)
  | vmulHi (w : FormV)
  | vfma (w : FormV)
  | vmin (w : FormV)
  | vmax (w : FormV)
  | vand (w : FormV)
  | vor (w : FormV)
  | vxor (w : FormV)
  | vnot (w : FormV)
  | vandMask (w : FormV)
  | vorMask (w : FormV)
  | vxorMask (w : FormV)
  | vnotMask (w : FormV)
  | vshl (w : FormV)
  | vshr (w : FormV)
  | vsar (w : FormV)
  | vfshl (w : FormV)
  | vfshr (w : FormV)
  | vclz (w : FormV)
  | vpopc (w : FormV)
  | vcmp (w : FormV)
  | vsel (w : FormV)
  | vmov (w : FormV)
  | vmovFromMask (w : FormV)
  | vmovToMask (w : FormV)
  | vbcast (w : FormV)
  | vperm (w : FormV)
  | vcompress (w : FormV)
  | vexpand (w : FormV)
  | vred (w : FormV)
  | vgred (w : FormV)
  | vscan (w : FormV)
  | vexp2 (w : FormV)
  | vlog2 (w : FormV)
  | vrcp (w : FormV)
  | vrsq (w : FormV)
  | vcvtRaw (w : FormC)
  | vcvtToDesc (w : FormC)
  | vcvtFromDesc (w : FormC)
  | vcvtDescDesc (w : FormC)
  | vpack (w : FormV)
  | vunpack (w : FormV)
  | vld (w : FormM)
  | vst (w : FormM)
  | vldu (w : FormM)
  | vstu (w : FormM)
  | vgath (w : FormM)
  | vscat (w : FormM)
  | vbtest (w : FormM)
  -- Steps of the streams and their core (R37 to R43, R98, R101, R102, R111, R114, R317)
  | blockAdmission (q : SeqId)
  | blockInstanceEnd (q : SeqId)
  | blockEndPushSettlement (core slot queue : Nat)
  | pushAfterToken (core slot queue : Nat)
  | leaseTermLimit (core : Nat)
  | leaseIdleRelease (core : Nat)
  | leaseHoldExpiry (core : Nat)
  | leaveGrant (q : SeqId)
  | leaveRequestAging (q : SeqId)
  | streamWaitEscape (q : SeqId)
  | teamSwap (mx : Nat)
  | swappedTeamReturn (mx : Nat)
  | copyUnitPerformed (id n : Nat)
  | copyCompletion (id : Nat)
  | mpeerDelivery (id : Nat)
  | swingExchange (core slot : Nat)
  | swingTimeout (core slot : Nat)
  | casementRefreshWindow (core pane : Nat)
  | signStoreRegeneration (core : Nat)
  -- Steps of memory (R19, R51, R165, R170, R171, R193 to R199, R256 to R260)
  | codeScan (seg : Nat)
  | translationWalk (core mx : Nat) (va : Word)
  | llcFill (mx tid : Nat) (pa : Nat)
  | llcWriteback (blk : Nat)
  | homeAccess (id : Nat)
  | atomicAtHome (id : Nat)
  | routerMerge (id into : Nat)
  | mergeEntryForward (id : Nat)
  | barrierUpdate (ids : List Nat)
  | scalarResultDelivery (id : Nat)
  | ioAccess (id : Nat)
  | doorbell (id : Nat)
  | rcfgWrite (id : Nat)
  | registerWrite (id : Nat)
  | btCopyCompletion (id : Nat)
  | pktEmitCompletion (id : Nat)
  -- Steps of the attention chiplet (R269 to R289)
  | kvArenaPerform (id : Nat)
  | pageStateMerge (id page : Nat)
  | pageInComplete (arena slot page : Nat) (ok : Bool)
  | sharedBlockFree (arena blk : Nat)
  -- Steps of ingress, dispatcher, isolation and housekeeping (R300 to R358)
  | requestMessage (port : Nat) (flow : BitVec 320) (msg : List Byte)
  | dispatchDecision
  | binding (mx : Nat)
  | edfRelease (mx : Nat)
  | overrun (mx : Nat)
  | coldStartFill (mx : Nat)
  | residencyReport
  | keySlotEmpty (slot : Nat)
  | scrubComplete (id : Nat)
  | retiringLineWriteback (blk : Nat)
  | sharedCounterSample
  | shutterTableActivation (egress : Nat)
  | hkEventDelivery
  -- Management commands of the system control aperture (Table 19.7)
  | segreg
  | segwd
  | seghash
  | arset
  | ardel
  | pgout
  | docreg
  | docdel
  | ixevict
  | pgempty
  | flowset
  | flowdel
  | partset
  | shtset
  | slotrd
  | ppause
  | presume
  | pexport
  | pimport
  | vkset
  | quote
  | cmddone
  -- Steps of saves, tiers, flash, spares and links (R385 to R425)
  | saveReport (mx : Nat)
  | saveDrainComplete (mx : Nat)
  | restoreImageLoaded (mx : Nat)
  /-- Each leaf with the micro-contexts whose private pages its frame holds (R333, log 21). -/
  | tierExchange (part : Nat) (a b : OwnedLeaf)
  | tierExchangeCommit
  | installSourceReadDone (id : Nat)
  | installCommit (id : Nat)
  | flashRefresh (stack blk : Nat)
  | wearLevelMove (stack : Nat)
  | stagingFill (ext : Nat)
  | flashRefetch (ext : Nat) (peer : Option (List Byte))
  | mcheck (kind unit : Nat) (detail : BitVec 32) (core : Option Nat)
  | spareColumnActivation (stack col : Nat)
  | hbmRemap (stack : Nat) (place : HbmPlace)
  | linkLaneSwap (link lane : Nat)
  | patrolScrub (p : PatrolAt)
  | firmwareRestart
  | unitReady (u : UnitId)
  | sensorThresholdCrossing (tier sensor : Nat) (temp : BitVec 16) (ev : SensorEvent)
  | throttleStep (tier : Nat) (move : ThrottleMove)
  | thermalRecord (tier sensor : Nat) (temp : BitVec 16)
  | hostAccess (p : HostPlace) (x : ExtAccess)
  | mbin (data : Word)
  | mcsumRead
  | ualinkAccess (pa : Nat) (x : ExtAccess)
  | cxlExpanderDown (port : Nat)
  | deviceReset
  | peerExtentRequest (seg : SegmentName) (ext : Nat)
  | remoteLaunchArrival (tenant part : Nat) (desc data : List Byte)
  | portOrPathDown (port : Nat) (down : Bool)
  deriving DecidableEq, Repr

end Sys2Proof
end

