-- ==== Sys2Proof/WellFormed.lean ====
section
/-! DEFINITION. Which instructions the DU5 has: the static limits of each entry (reason 0x0E of Table 3.10) and the fields
an entry does not use (reason 0x02). What depends on where a word stands (queues, targets, block ends, privilege) is the
scanner's and stands in Machine/Scan.lean. -/

namespace Sys2Proof

/-- Width of an element of raw type code `t` in bits (Table 4.5); 0 for codes 13 to 15. -/
def typeBits (t : Nat) : Nat :=
  match t with
  | 0 | 4 | 8 | 9 => 8
  | 1 | 5 | 10 | 11 => 16
  | 2 | 6 | 12 => 32
  | 3 | 7 => 64
  | _ => 0

/-- Class I types (R118). -/
def isIntType (t : Nat) : Bool := decide (t ≤ 7)
/-- Class F types (R118). -/
def isFloatType (t : Nat) : Bool := decide (10 ≤ t ∧ t ≤ 12)
/-- Signed integer types (Table 6.1). -/
def isSignedType (t : Nat) : Bool := decide (t ≤ 3)

/-- Elements in a block of format code F (Table 4.1), for the codes a conversion accepts; 0 for other codes. -/
def descElems (f : Nat) : Nat :=
  match f with
  | 0x01 => 128 | 0x02 => 64 | 0x03 => 32 | 0x10 => 124 | 0x11 => 62 | 0x12 => 15 | 0x18 => 62 | 0x19 => 62 | 0x1A => 31
  | 0x1B => 15 | _ => 0

/-- The TSB format codes. -/
def isTsb (f : Nat) : Bool := decide (1 ≤ f ∧ f ≤ 3)

/-- Blocks per row of Table 5.10. -/
def rowBlocks (f : Nat) : Nat :=
  match f with
  | 0x01 | 0x02 | 0x10 => 1
  | 0x03 | 0x11 | 0x18 | 0x19 => 2
  | 0x1A => 3
  | _ => 5

/-- RND codes 0 to 4 (Table 4.6). -/
def rndOk (r : BitVec 3) : Bool := decide (r.toNat ≤ 4)

/-- A control-register number assigned in Table 9.6 or Table 19.1. -/
def ctrlAssigned (n : Nat) : Bool :=
  decide (n = 0 ∨ (0x08 ≤ n ∧ n ≤ 0x13) ∨ (0x18 ≤ n ∧ n ≤ 0x1B) ∨ (0x20 ≤ n ∧ n ≤ 0x27) ∨ (0x30 ≤ n ∧ n ≤ 0x34)
    ∨ n = 0x38 ∨ n = 0x39 ∨ (0x40 ≤ n ∧ n ≤ 0x42) ∨ n = 0x60 ∨ (0x400 ≤ n ∧ n ≤ 0x405) ∨ n = 0x410 ∨ n = 0x411)

/-- An assigned control register with a writable field. -/
def ctrlWritable (n : Nat) : Bool :=
  decide (n = 0 ∨ (0x08 ≤ n ∧ n ≤ 0x13) ∨ (0x18 ≤ n ∧ n ≤ 0x1B) ∨ (0x30 ≤ n ∧ n ≤ 0x34) ∨ n = 0x60
    ∨ n = 0x400 ∨ n = 0x401 ∨ n = 0x404 ∨ n = 0x405)

/-- A PERFRD counter number of Table 19.6. -/
def perfAssigned (n : Nat) : Bool := decide (n ≤ 8 ∨ (0x100 ≤ n ∧ n ≤ 0x109))

/-- Operand fields in use in a form V word; a field not in use must be zero (R120). -/
structure VUse where
  vd : Bool := true
  va : Bool := true
  vb : Bool := false
  vc : Bool := false
  ty : Bool := true
  bi : Bool := false
  mask : Bool := true
  mz : Bool := true
  rnd : Bool := false
  sat : Bool := false
  sub : Bool := false
  md : Bool := false
  gs : Bool := false

/-- Fields not in use are zero. BI selects between the immediate and a register, so IMM is in use exactly when BI is 1. DESIGN CHOICE (log 66): in a word
that takes a mask MK is in use with ME = 0 too, and any value of it is accepted; R119 says only that MZ must be zero then. -/
def FormV.unusedZero (w : FormV) (u : VUse) : Bool :=
  (u.vd || w.vd == 0) && (u.va || w.va == 0) && (u.vb || w.vb == 0) && (u.vc || w.vc == 0) && (u.ty || w.ty == 0)
    && (u.bi || !w.bi) && (u.mask || (w.mq == 0 && !w.me)) && (u.mz || !w.mz) && (u.rnd || w.rnd == 0)
    && (u.sat || !w.sat) && (u.sub || w.sub == 0) && (u.md || w.md == 0) && (u.gs || w.gs == 0) && (w.bi || w.imm == 0)

/-- R121: the immediate fits the element type. DESIGN CHOICE (log 66): for the FP8 types (codes 8 and 9), which R121 does not name, IMM[31:8] is zero. -/
def FormV.immOk (w : FormV) : Bool :=
  let t := w.ty.toNat
  if !w.bi then true
  else match typeBits t with
    | 8 => w.imm == (if isSignedType t then (w.imm.setWidth 8).signExtend 32 else (w.imm.setWidth 8).setWidth 32)
    | 16 => w.imm == (if isSignedType t then (w.imm.setWidth 16).signExtend 32 else (w.imm.setWidth 16).setWidth 32)
    | _ => true

/-- Types I and F, a rounding mode where a float result is rounded, masking under R119. -/
def FormV.common (w : FormV) : Bool := w.immOk && rndOk w.rnd && (w.me || !w.mz)

def FormV.tyI (w : FormV) : Bool := isIntType w.ty.toNat
def FormV.tyF (w : FormV) : Bool := isFloatType w.ty.toNat
def FormV.tyIF (w : FormV) : Bool := w.tyI || w.tyF
def FormV.tyAny (w : FormV) : Bool := decide (w.ty.toNat ≤ 12)
def FormV.width (w : FormV) : Nat := typeBits w.ty.toNat

/-- Fields of a form of two operands. DESIGN CHOICE (log 60): SAT = 1 is accepted with a class F type too, where it has no effect; R124 speaks of
integer operations. -/
def FormV.useBin (w : FormV) : VUse := { vb := !w.bi, bi := true, rnd := w.tyF, sat := true }
def FormV.useMask (vb : Bool) : VUse :=
  { vd := false, vb := vb, ty := false, mask := false, mz := false, md := true }

/-- Operand bits that an entry does not use are zero (reason 0x02). DESIGN CHOICE (log 49): of LOOPA with AE = 0 the fields AR and STEP are such
bits; R253 does not say that they are reserved then. DESIGN CHOICE (log 66): in form M the index register XR with XE = 0, and MK with ME = 0, are none of
them: any value is accepted (R143). DESIGN CHOICE (log 60): VBCAST with BI = 0 is accepted and takes IMM all the same; R130 only says that fkas sets BI. -/
def Instr.unusedZero : Instr → Bool
  | .vadd w | .vsub w => w.unusedZero w.useBin && !w.dk
  | .vmul w | .vmulHi w => w.unusedZero { w.useBin with sub := true } && !w.dk
  | .vfma w => w.unusedZero { w.useBin with vc := true } && !w.dk
  | .vmin w | .vmax w => w.unusedZero { w.useBin with rnd := false, sat := false } && !w.dk
  | .vand w | .vor w | .vxor w | .vshl w | .vshr w | .vsar w =>
    w.unusedZero { w.useBin with rnd := false, sat := false } && !w.dk
  | .vnot w | .vclz w | .vpopc w => w.unusedZero {} && !w.dk
  | .vandMask w | .vorMask w | .vxorMask w => w.unusedZero (FormV.useMask true)
  | .vnotMask w => w.unusedZero (FormV.useMask false)
  | .vfshl w | .vfshr w => w.unusedZero { vb := true, vc := !w.bi, bi := true } && !w.dk
  | .vcmp w => w.unusedZero { vd := !w.dk, vb := !w.bi, bi := true, sub := true, md := w.dk }
  | .vsel w => w.unusedZero { vb := !w.bi, vc := !w.dk, bi := true, mask := w.dk, mz := false } && !w.me
  | .vmov w => w.unusedZero { va := !w.bi, bi := true, sub := true } && !w.dk
  | .vmovFromMask w => w.unusedZero { va := false, ty := false, mask := true, mz := false, sub := true } && !w.me && !w.dk
  | .vmovToMask w =>
    w.unusedZero { vd := false, ty := false, mask := false, mz := false, sub := true, md := true } && !w.dk
  | .vbcast w => ({ w with imm := 0 } : FormV).unusedZero { bi := true } && !w.dk
  | .vperm w => w.unusedZero { vb := true } && !w.dk
  | .vcompress w | .vexpand w => w.unusedZero {} && !w.dk
  | .vred w => w.unusedZero { sub := true, rnd := w.tyF && w.sub == 0, mz := false } && !w.dk
  | .vgred w | .vscan w => w.unusedZero { sub := true, rnd := w.tyF && w.sub == 0, mz := false, gs := true } && !w.dk
  | .vexp2 w | .vlog2 w | .vrcp w | .vrsq w => w.unusedZero { rnd := w.tyF } && !w.dk
  | .vpack w => w.unusedZero { vb := true, mask := false, mz := false, sat := true } && !w.dk
  | .vunpack w => w.unusedZero { gs := true } && !w.dk
  | .vcvtRaw w => w.dist == 0 && w.ss == 0 && w.ds == 0 && w.nb == 0 && w.se == 0 && w.de == 0
  | .vcvtToDesc w =>
    w.mq == 0 && !w.me && !w.mz && w.ps == 0 && w.pd == 0 && w.ss == 0 && w.de == 0
  | .vcvtFromDesc w =>
    w.dist == 0 && w.mq == 0 && !w.me && !w.mz && w.ps == 0 && w.pd == 0 && w.ds == 0 && w.se == 0
  | .vcvtDescDesc w => w.mq == 0 && !w.me && !w.mz && w.ps == 0 && w.pd == 0 && w.se == 0 && w.de == 0
  | .vld w | .vldu w => w.vb == 0 && w.vc == 0 && w.ty == 0 && !w.sc && w.md == 0 && !w.dk && !w.be
  | .vst w => w.vb == 0 && w.vc == 0 && w.ty == 0 && !w.sc && w.md == 0 && !w.dk && !w.be && !w.mz
  | .vstu w => w.vb == 0 && (w.be || w.vc == 0) && w.ty == 0 && !w.sc && w.md == 0 && !w.dk && !w.mz
  | .vgath w => w.vc == 0 && w.lenM1 == 0 && w.md == 0 && !w.dk && !w.be
  | .vscat w => w.vc == 0 && w.lenM1 == 0 && w.md == 0 && !w.dk && !w.be && !w.mz
  | .vbtest w => w.vc == 0 && w.ty == 0 && w.lenM1 == 0 && !w.sc && !w.be && (if w.dk then w.vd == 0 else w.md == 0)
  | .mma w | .mmaz w =>
    !w.asrc || (w.a.off == 0 && !w.a.xe && w.a.xr == 0 && w.astrM1 == 0 && w.cs.cls == 0 && w.cs.scope == 0)
  | .mhrot w =>
    !w.asrc || (w.a.off == 0 && !w.a.xe && w.a.xr == 0 && w.astrM1 == 0 && w.cs.cls == 0 && w.cs.scope == 0)
  | .kvRes w _ => !w.ns
  | .loopa _ _ ar ae step _ => ae || (ar == 0 && step == 0)
  | .adda _ _ _ t te sh _ => te || (t == 0 && sh == 0)
  | .cfill w | .cfillPeer w _ => w.bar == none
  | .pbArrive _ _ _ _ we k => we || k == 0
  | _ => true

/-- R143: form M scopes. -/
def localScope (s : BitVec 3) : Bool := decide (s.toNat ≤ 2)

/-- R95: OFF[5:0] is zero. -/
def CmOff.aligned (a : CmOff) : Bool := decide (a.off.toNat % 64 = 0)

/-- MDRAIN and MBYP limits of R112 on FMT, RND and DIST. -/
def drainFmtOk (fmt : BitVec 8) (rnd : BitVec 3) (dist : BitVec 4) : Bool :=
  decide (descElems fmt.toNat ≠ 0) && rndOk rnd && (isTsb fmt.toNat == (dist != 0))

/-- Formats of the mx layout (R112). -/
def isMxFmt (fmt : BitVec 8) : Bool := isTsb fmt.toNat || fmt == 0x10 || fmt == 0x11

/-- The static limits of each entry (reason 0x0E). DESIGN CHOICE (log 49): GS[3:1] of VSCAN and VUNPACK not zero, and MZ = 1 with ME = 0, break a
limit, reason 0x0E; the entries name no reason. DESIGN CHOICE (log 60): the same of SAT = 1 on VMUL.hi, which R124 does not accept. -/
def Instr.limitsOk : Instr → Bool
  | .mulh _ _ _ sg => sg != 3
  | .addx _ _ _ sh => sh != 7
  | .cmp _ _ _ cc => decide (cc.toNat ≤ 5)
  | .amo d _ sz8 op _ _ => decide (op.toNat ≤ 10) && !(op == 8 && sz8) && !(op == 10 && d.getLsbD 0)
  | .red _ _ sz8 op _ ord => decide (op.toNat ≤ 8) && !(op == 8 && sz8) && (ord == 0 || ord == 2)
  | .crd _ i => ctrlAssigned i.toNat
  | .cwr _ i => ctrlWritable i.toNat
  | .tlbi _ _ _ _ _ st => st != 0
  | .perfrd _ _ i => perfAssigned i.toNat
  | .movaSp _ cs _ off => decide (off.toNat % 8 = 0) && localScope cs.scope
  | .redm _ op => decide (op.toNat ≤ 8)
  | .kvRes w _ => localScope w.cs.scope
  | .kvQry w | .kvQryResume w | .kvAppend w | .kvSplice w _ | .kvDrop w | .kvDropAll w | .kvCommit w | .kvIxlook w
  | .kvIxins w | .kvRepairOpen w | .kvRepairCmp w | .kvRepairApply w | .kvRepairAbort w | .kvPagein w =>
    !w.ns || w.rq == 0
  | .mma w | .mmaz w => (!w.asrc || decide (w.kgM1.toNat ≤ 1)) && w.a.aligned
  | .mhrot w => decide (w.dg.toNat ≤ 4) && w.a.aligned
  | .swing _ c => decide (c.toNat % 64 = 0 ∧ c.toNat ≤ 8388608)
  | .mdrain w =>
    w.d.aligned &&
      (match w.lay.toNat with
       | 0 => drainFmtOk w.fmt w.rnd w.dist && isMxFmt w.fmt && decide (rowBlocks w.fmt.toNat ≤ w.dstrM1.toNat + 1)
       | 1 => drainFmtOk w.fmt w.rnd w.dist && decide (rowBlocks w.fmt.toNat ≤ w.dstrM1.toNat + 1)
       | 2 => w.fmt == 0 && w.rnd == 0 && w.dist == 0 && w.dstrM1 == 0
       | _ => false)
  | .mbyp w => drainFmtOk w.fmt w.rnd w.dist && isMxFmt w.fmt
  | .mpeer w => w.cs.scope == 2 && w.d.aligned &&
      (match w.bar with | none => true | some b => decide (b.toNat % 16 = 0))
  | .maccld w => w.kind != 3 && w.s.aligned && (w.kind != 0 || w.sstrM1 == 0)
  | .vadd w | .vsub w | .vfma w | .vmin w | .vmax w => w.tyIF && w.common
  | .vmul w => w.tyIF && w.common && w.sub == 0
  | .vmulHi w => w.tyI && w.common && w.sub == 1 && !w.sat
  | .vand w | .vor w | .vxor w | .vnot w | .vshl w | .vshr w | .vsar w | .vfshl w | .vfshr w | .vclz w | .vpopc w
  | .vperm w => w.tyI && w.common
  | .vandMask w | .vorMask w | .vxorMask w | .vnotMask w => w.dk && decide (w.va.toNat ≤ 7 ∧ w.vb.toNat ≤ 7)
  | .vcmp w => w.tyIF && w.common && w.sub != 7 && (w.sub != 6 || w.tyF) && (!w.dk || decide (32 ≤ w.width))
  | .vsel w => w.tyAny && w.immOk
  | .vmov w => w.tyAny && w.common && w.sub == 0
  | .vmovFromMask w => w.sub == 1
  | .vmovToMask w => w.sub == 2
  | .vbcast w => w.tyAny && (w.me || !w.mz) && decide (w.imm.toNat < 2048 / w.width)
  | .vcompress w | .vexpand w => w.tyAny && decide (32 ≤ w.width) && w.me
  | .vred w => w.tyIF && w.common && decide (w.sub.toNat ≤ 5) && (decide (w.sub.toNat ≤ 2) || w.tyI)
  | .vgred w => w.tyIF && w.common && decide (w.sub.toNat ≤ 5) && (decide (w.sub.toNat ≤ 2) || w.tyI)
      && decide (1 ≤ w.gs.toNat ∧ 2 ^ w.gs.toNat ≤ 2048 / w.width)
  | .vscan w => w.tyIF && w.common && decide (w.sub.toNat ≤ 5) && (decide (w.sub.toNat ≤ 2) || w.tyI)
      && decide (w.gs.toNat ≤ 1)
  | .vexp2 w | .vlog2 w | .vrcp w | .vrsq w => w.tyF && w.common
  | .vpack w => w.tyI && decide (16 ≤ w.width)
  | .vunpack w => w.tyI && decide (16 ≤ w.width) && (w.me || !w.mz) && decide (w.gs.toNat ≤ 1)
  | .vcvtRaw w =>
    let fs := w.fs.toNat; let fd := w.fd.toNat
    let n := 2048 / Nat.max (typeBits fs) (typeBits fd)
    decide (fs ≤ 12 ∧ fd ≤ 12) && rndOk w.rnd && (w.me || !w.mz)
      && decide (w.ps.toNat < 2048 / (typeBits fs * n) ∧ w.pd.toNat < 2048 / (typeBits fd * n))
  | .vcvtToDesc w =>
    let fs := w.fs.toNat; let fd := w.fd.toNat
    decide (fs ≤ 12 ∧ descElems fd ≠ 0) && rndOk w.rnd && (isTsb fd == (w.dist != 0))
      && decide (w.ds.toNat + w.nb.toNat ≤ 3
          ∧ w.se.toNat + (w.nb.toNat + 1) * descElems fd ≤ 4 * 2048 / typeBits fs)
  | .vcvtFromDesc w =>
    let fs := w.fs.toNat; let fd := w.fd.toNat
    decide (descElems fs ≠ 0 ∧ fd ≤ 12) && rndOk w.rnd
      && decide (w.de.toNat + (w.nb.toNat + 1) * descElems fs ≤ 4 * 2048 / typeBits fd)
  | .vcvtDescDesc w =>
    let fs := w.fs.toNat; let fd := w.fd.toNat
    decide (descElems fs ≠ 0 ∧ descElems fd ≠ 0) && rndOk w.rnd && (isTsb fd == (w.dist != 0))
      && decide (((w.nb.toNat + 1) * descElems fs + descElems fd - 1) / descElems fd + w.ds.toNat ≤ 4)
  | .vld w => localScope w.cs.scope && (w.me || !w.mz) && w.a.aligned && decide ((w.lenM1.toNat + 1) % 64 = 0)
  | .vst w => localScope w.cs.scope && w.a.aligned && decide ((w.lenM1.toNat + 1) % 64 = 0)
  | .vldu w => localScope w.cs.scope && (w.me || !w.mz)
  | .vstu w => localScope w.cs.scope
  | .vgath w => localScope w.cs.scope && (w.me || !w.mz) && decide (w.ty.toNat ≤ 12)
  | .vscat w => localScope w.cs.scope && decide (w.ty.toNat ≤ 12)
  | .vbtest w => localScope w.cs.scope && (w.me || !w.mz)
  | _ => true

/-- A word the DU5 has: its unused fields are zero and its operands are inside the static limits. -/
def Instr.wellFormed (i : Instr) : Bool := i.unusedZero && i.limitsOk

/-- Instructions of level S (R355); CRD and CWR by the register they name. -/
def Instr.privileged : Instr → Bool
  | .eret | .tlbi .. | .mxbind .. | .mxsaveCopy .. | .mxsaveFree .. | .mxsaveReset .. | .mxsaveCkpt .. | .mxsaveKill ..
  | .mxsaveDrain .. | .keyldLoad .. | .keyldUnload .. | .scrubCore .. | .scrubTenant .. => true
  | .crd _ i => decide (0x400 ≤ i.toNat)
  | .cwr _ i => decide (0x60 ≤ i.toNat)
  | _ => false

/-- Words the housekeeping processor does not have (R356). -/
def Instr.streamOnly : Instr → Bool
  | .sync .. | .tfence | .yield | .launch .. | .wanyTm .. | .wanyReg .. | .wallTm .. | .wallReg .. | .ffrdyTm ..
  | .ffrdyReg .. => true
  | _ => false

/-- Transfer words (R60). -/
def Instr.transfer : Instr → Bool
  | .br .. | .brc .. | .call .. | .ret .. | .loop .. | .eret | .loopa .. => true
  | _ => false

/-- Block-final words (R60). -/
def Instr.blockFinal : Instr → Bool
  | .yield | .halt => true
  | i => i.transfer

/-- Matrix commands, opcodes 0x10 to 0x18 (R102). -/
def Instr.matrix : Instr → Bool
  | .mma .. | .mmaz .. | .mhrot .. | .mhrotS256 .. | .swing .. | .mdrain .. | .mbyp .. | .mpeer .. | .maccld ..
  | .mclr .. => true
  | _ => false

end Sys2Proof
end

