-- ==== Sys2Proof/Decode.lean ====
section
/-! DEFINITION. The words of the four sections (ch. 03, and the encoding tables of chapters 05, 06, 09, 10, 11, 19, 21):
the decoder, total on any word, and the encoder. A word is a number; fields are cut most significant first. -/

namespace Sys2Proof

open Sys2Proof.Machine

/-- What a word reads as: a reserved opcode (reason 0x01), or an opcode of the section with whether every bit the entry
leaves unassigned is zero (reason 0x02) and the instruction its function fields name, if they are encodings
(reason 0x0E). -/
inductive Parsed where
  | reserved
  | word (clean : Bool) (i : Option Instr)
  deriving DecidableEq, Repr

/-- An instruction of its field values. -/
def Parsed.ok (clean : Bool) (i : Instr) : Parsed := .word clean (some i)

/-- A one-bit field. -/
def flag (n : Nat) : Bool := n != 0

/-! SC words (Tables 3.6, 3.7, 9.2 to 9.4, 19.3), from bits 24:0. -/

/-- Three registers and a zero FN. -/
def parse3 (c : BitVec 5 → BitVec 5 → BitVec 5 → Instr) (r : Nat) : Parsed :=
  match splitN [5, 5, 5, 10] r with
  | [d, a, b, f] => .ok (f == 0) (c (.ofNat 5 d) (.ofNat 5 a) (.ofNat 5 b))
  | _ => .reserved

/-- Two registers, S2 and FN zero. -/
def parse2 (c : BitVec 5 → BitVec 5 → Instr) (r : Nat) : Parsed :=
  match splitN [5, 5, 15] r with
  | [d, a, f] => .ok (f == 0) (c (.ofNat 5 d) (.ofNat 5 a))
  | _ => .reserved

/-- The register and immediate kinds of a shift. -/
def parseShift (c : BitVec 5 → BitVec 5 → BitVec 5 → Instr) (ci : BitVec 5 → BitVec 5 → BitVec 6 → Instr) (r : Nat) : Parsed :=
  match splitN [5, 5, 5, 1, 3, 6] r with
  | [d, a, b, 0, z, s] => .ok (z == 0 && s == 0) (c (.ofNat 5 d) (.ofNat 5 a) (.ofNat 5 b))
  | [d, a, b, _, z, s] => .ok (b == 0 && z == 0) (ci (.ofNat 5 d) (.ofNat 5 a) (.ofNat 6 s))
  | _ => .reserved

/-- The register and immediate kinds of a funnel shift. -/
def parseFunnel (c : BitVec 5 → BitVec 5 → BitVec 5 → BitVec 5 → Instr)
    (ci : BitVec 5 → BitVec 5 → BitVec 5 → BitVec 6 → Instr) (r : Nat) : Parsed :=
  match splitN [5, 5, 5, 1, 3, 6] r with
  | [d, a, b, 0, z, s] => .ok (z == 0 && decide (s < 32)) (c (.ofNat 5 d) (.ofNat 5 a) (.ofNat 5 b) (.ofNat 5 s))
  | [d, a, b, _, z, s] => .ok (z == 0) (ci (.ofNat 5 d) (.ofNat 5 a) (.ofNat 5 b) (.ofNat 6 s))
  | _ => .reserved

/-- D, S1 and a six-bit width. -/
def parseExt (c : BitVec 5 → BitVec 5 → BitVec 6 → Instr) (r : Nat) : Parsed :=
  match splitN [5, 5, 9, 6] r with
  | [d, a, z, n] => .ok (z == 0) (c (.ofNat 5 d) (.ofNat 5 a) (.ofNat 6 n))
  | _ => .reserved

/-- DIV and REM. -/
def parseDiv (c : BitVec 5 → BitVec 5 → BitVec 5 → Bool → Instr) (r : Nat) : Parsed :=
  match splitN [5, 5, 5, 9, 1] r with
  | [d, a, b, z, u] => .ok (z == 0) (c (.ofNat 5 d) (.ofNat 5 a) (.ofNat 5 b) (flag u))
  | _ => .reserved

/-- MOV by its kind (R208). -/
def parseMov (r : Nat) : Parsed :=
  match splitN [5, 5, 5, 8, 2] r with
  | [d, a, b, z, 0] => .ok (b == 0 && z == 0) (.mov (.ofNat 5 d) (.ofNat 5 a))
  | [d, a, b, z, 1] => .ok (b == 0 && z == 0 && decide (a < 8)) (.movFromPred (.ofNat 5 d) (.ofNat 3 a))
  | [d, a, b, z, 2] => .ok (b == 0 && z == 0 && decide (d < 8)) (.movToPred (.ofNat 3 d) (.ofNat 5 a))
  | [_, _, b, z, _] => .word (b == 0 && z == 0) none
  | _ => .reserved

/-- Class and scope fields. -/
def csOf (c s : Nat) : Cs := { cls := .ofNat 4 c, scope := .ofNat 3 s }

/-- SLD and SST (Table 9.3). -/
def parseMem (c : BitVec 5 → BitVec 5 → BitVec 5 → Cs → BitVec 2 → Bool → Instr) (r : Nat) : Parsed :=
  match splitN [5, 5, 5, 4, 3, 2, 1] r with
  | [d, a, b, k, s, z, o] => .ok true (c (.ofNat 5 d) (.ofNat 5 a) (.ofNat 5 b) (csOf k s) (.ofNat 2 z) (flag o))
  | _ => .reserved

/-- AMO and RED (R215). -/
def parseAtomic (c : BitVec 5 → BitVec 5 → Bool → BitVec 4 → Cs → BitVec 2 → Instr) (r : Nat) : Parsed :=
  match splitN [5, 5, 1, 4, 4, 3, 2, 1] r with
  | [d, a, z, op, k, s, o, x] => .ok (x == 0) (c (.ofNat 5 d) (.ofNat 5 a) (flag z) (.ofNat 4 op) (csOf k s) (.ofNat 2 o))
  | _ => .reserved

/-- WANY and WALL (R224). -/
def parseTagP (ct : BitVec 3 → BitVec 3 → Instr) (cr : BitVec 3 → BitVec 5 → Instr) (r : Nat) : Parsed :=
  match splitN [2, 3, 5, 5, 6, 1, 3] r with
  | [x, p, a, b, z, 0, k] => .ok (x == 0 && a == 0 && b == 0 && z == 0) (ct (.ofNat 3 p) (.ofNat 3 k))
  | [x, p, a, b, z, _, k] => .ok (x == 0 && b == 0 && z == 0 && k == 0) (cr (.ofNat 3 p) (.ofNat 5 a))
  | _ => .reserved

/-- MXSAVE modes (Table 19.5). -/
def parseMxsave (r : Nat) : Parsed :=
  match splitN [5, 5, 5, 7, 3] r with
  | [d, a, b, z, m] =>
    .word (z == 0)
      (match m with
       | 0 => some (.mxsaveCopy (.ofNat 5 d) (.ofNat 5 a) (.ofNat 5 b))
       | 1 => some (.mxsaveFree (.ofNat 5 d) (.ofNat 5 a) (.ofNat 5 b))
       | 2 => some (.mxsaveReset (.ofNat 5 d) (.ofNat 5 a) (.ofNat 5 b))
       | 3 => some (.mxsaveCkpt (.ofNat 5 d) (.ofNat 5 a) (.ofNat 5 b))
       | 4 => some (.mxsaveKill (.ofNat 5 d) (.ofNat 5 a) (.ofNat 5 b))
       | 5 => some (.mxsaveDrain (.ofNat 5 d) (.ofNat 5 a) (.ofNat 5 b))
       | _ => none)
  | _ => .reserved


/-- SC opcodes 0x00 to 0x0F. -/
def parseSc0 (op r : Nat) : Parsed :=
  match op with
  | 0x01 => parse3 Instr.add r
  | 0x02 => match splitN [5, 5, 15] r with
    | [d, a, i] => .ok true (.addi (.ofNat 5 d) (.ofNat 5 a) (.ofNat 15 i))
    | _ => .reserved
  | 0x03 => parse3 Instr.sub r
  | 0x04 => parse3 Instr.mul r
  | 0x05 => match splitN [5, 5, 5, 8, 2] r with
    | [d, a, b, z, s] => .ok (z == 0) (.mulh (.ofNat 5 d) (.ofNat 5 a) (.ofNat 5 b) (.ofNat 2 s))
    | _ => .reserved
  | 0x06 => parseDiv Instr.div r
  | 0x07 => parseDiv Instr.rem r
  | 0x08 => parse3 Instr.and r
  | 0x09 => parse3 Instr.or r
  | 0x0A => parse3 Instr.xor r
  | 0x0B => parse3 Instr.andn r
  | 0x0C => parseShift Instr.shl Instr.shlImm r
  | 0x0D => parseShift Instr.shr Instr.shrImm r
  | 0x0E => parseShift Instr.sar Instr.sarImm r
  | 0x0F => parseShift Instr.rol Instr.rolImm r
  | _ => .reserved


/-- SC opcodes 0x10 to 0x1F. -/
def parseSc1 (op r : Nat) : Parsed :=
  match op with
  | 0x10 => parseFunnel Instr.fshl Instr.fshlImm r
  | 0x11 => parseFunnel Instr.fshr Instr.fshrImm r
  | 0x12 => parse2 Instr.clz r
  | 0x13 => parse2 Instr.ctz r
  | 0x14 => parse2 Instr.popc r
  | 0x15 => parse3 Instr.min r
  | 0x16 => parse3 Instr.max r
  | 0x17 => parse3 Instr.minu r
  | 0x18 => parse3 Instr.maxu r
  | 0x19 => parseExt Instr.sext r
  | 0x1A => parseExt Instr.zext r
  | 0x1B => match splitN [5, 20] r with
    | [d, i] => .ok true (.lui (.ofNat 5 d) (.ofNat 20 i))
    | _ => .reserved
  | 0x1C => parseMov r
  | 0x1D => match splitN [5, 5, 5, 6, 1, 3] r with
    | [d, a, b, z, n, k] => .ok (z == 0) (.sel (.ofNat 5 d) (.ofNat 5 a) (.ofNat 5 b) (flag n) (.ofNat 3 k))
    | _ => .reserved
  | 0x1E => match splitN [2, 3, 5, 5, 6, 4] r with
    | [x, p, a, b, z, c] => .ok (x == 0 && z == 0) (.cmp (.ofNat 3 p) (.ofNat 5 a) (.ofNat 5 b) (.ofNat 4 c))
    | _ => .reserved
  | 0x1F => match splitN [5, 5, 5, 7, 3] r with
    | [d, a, b, z, s] => .ok (z == 0) (.addx (.ofNat 5 d) (.ofNat 5 a) (.ofNat 5 b) (.ofNat 3 s))
    | _ => .reserved
  | _ => .reserved


/-- SC opcodes 0x20 to 0x2F. -/
def parseSc2 (op r : Nat) : Parsed :=
  match op with
  | 0x20 => match splitN [5, 5, 5, 5, 5] r with
    | [d, a, b, z, c] => .ok (z == 0) (.madd (.ofNat 5 d) (.ofNat 5 a) (.ofNat 5 b) (.ofNat 5 c))
    | _ => .reserved
  | 0x28 => match splitN [4, 21] r with
    | [z, o] => .ok (z == 0) (.br (.ofNat 21 o))
    | _ => .reserved
  | 0x29 => match splitN [3, 1, 21] r with
    | [p, n, o] => .ok true (.brc (.ofNat 3 p) (flag n) (.ofNat 21 o))
    | _ => .reserved
  | 0x2A => match splitN [4, 21] r with
    | [z, o] => .ok (z == 0) (.call (.ofNat 21 o))
    | _ => .reserved
  | 0x2B => match splitN [5, 5, 15] r with
    | [z, a, y] => .ok (z == 0 && y == 0) (.ret (.ofNat 5 a))
    | _ => .reserved
  | 0x2C => match splitN [2, 2, 21] r with
    | [k, z, o] => .ok (z == 0) (.loop (.ofNat 2 k) (.ofNat 21 o))
    | _ => .reserved
  | 0x2D => match splitN [17, 2, 2, 2, 2] r with
    | [z, d, c, b, a] => .ok (z == 0) (.sync (.ofNat 2 a) (.ofNat 2 b) (.ofNat 2 c) (.ofNat 2 d))
    | _ => .reserved
  | _ => .reserved


/-- SC opcodes 0x30 to 0x3F. -/
def parseSc3 (op r : Nat) : Parsed :=
  match op with
  | 0x30 => parseMem Instr.sld r
  | 0x31 => parseMem Instr.sst r
  | 0x32 => parseAtomic Instr.amo r
  | 0x33 => parseAtomic Instr.red r
  | 0x34 => match splitN [3, 6, 16] r with
    | [s, z, m] => .ok (z == 0) (.fence (.ofNat 3 s) (.ofNat 16 m))
    | _ => .reserved
  | 0x35 => match splitN [5, 5, 5, 4, 3, 3] r with
    | [d, a, b, k, s, z] => .ok (z == 0) (.pbInit (.ofNat 5 d) (.ofNat 5 a) (.ofNat 5 b) (csOf k s))
    | _ => .reserved
  | 0x36 => match splitN [5, 5, 5, 4, 3, 1, 2] r with
    | [d, a, b, k, s, w, q] => .ok true (.pbArrive (.ofNat 5 d) (.ofNat 5 a) (.ofNat 5 b) (csOf k s) (flag w) (.ofNat 2 q))
    | _ => .reserved
  | 0x37 => match splitN [5, 5, 5, 4, 3, 3] r with
    | [d, a, b, k, s, z] => .ok (d == 0 && z == 0) (.pbExpect (.ofNat 5 a) (.ofNat 5 b) (csOf k s))
    | _ => .reserved
  | 0x38 => match splitN [5, 5, 5, 4, 3, 3] r with
    | [d, a, b, k, s, z] => .ok (b == 0 && z == 0) (.pbTest (.ofNat 5 d) (.ofNat 5 a) (csOf k s))
    | _ => .reserved
  | 0x39 => parseTagP Instr.wanyTm Instr.wanyReg r
  | 0x3A => parseTagP Instr.wallTm Instr.wallReg r
  | 0x3B => match splitN [5, 5, 5, 6, 1, 3] r with
    | [d, a, b, z, 0, k] => .ok (a == 0 && b == 0 && z == 0) (.ffrdyTm (.ofNat 5 d) (.ofNat 3 k))
    | [d, a, b, z, _, k] => .ok (b == 0 && z == 0 && k == 0) (.ffrdyReg (.ofNat 5 d) (.ofNat 5 a))
    | _ => .reserved
  | 0x3C => match splitN [5, 5, 5, 9, 1] r with
    | [d, a, b, z, 0] => .ok (b == 0 && z == 0) (.tensorDef (.ofNat 5 d) (.ofNat 5 a))
    | [d, a, b, z, _] => .ok (a == 0 && z == 0) (.tensorUndef (.ofNat 5 d) (.ofNat 5 b))
    | _ => .reserved
  | _ => .reserved


/-- SC opcodes 0x40 to 0x4F. -/
def parseSc4 (op r : Nat) : Parsed :=
  match op with
  | 0x40 => match splitN [5, 5, 15] r with
    | [z, a, i] => .ok (z == 0) (.trap (.ofNat 5 a) (.ofNat 15 i))
    | _ => .reserved
  | 0x41 => .ok (r == 0) .tfence
  | 0x42 => .ok (r == 0) .eret
  | 0x43 => match splitN [5, 5, 15] r with
    | [d, z, i] => .ok (z == 0) (.crd (.ofNat 5 d) (.ofNat 15 i))
    | _ => .reserved
  | 0x44 => match splitN [5, 5, 15] r with
    | [z, a, i] => .ok (z == 0) (.cwr (.ofNat 5 a) (.ofNat 15 i))
    | _ => .reserved
  | 0x45 => match splitN [5, 5, 5, 6, 1, 1, 2] r with
    | [d, a, b, z, n, m, t] => .ok (z == 0) (.tlbi (.ofNat 5 d) (.ofNat 5 a) (.ofNat 5 b) (flag n) (flag m) (.ofNat 2 t))
    | _ => .reserved
  | 0x46 => parse3 Instr.mxbind r
  | 0x47 => parseMxsave r
  | 0x48 => match splitN [5, 5, 5, 9, 1] r with
    | [d, a, b, z, 0] => .ok (z == 0) (.keyldLoad (.ofNat 5 d) (.ofNat 5 a) (.ofNat 5 b))
    | [d, a, b, z, _] => .ok (z == 0) (.keyldUnload (.ofNat 5 d) (.ofNat 5 a) (.ofNat 5 b))
    | _ => .reserved
  | 0x49 => match splitN [5, 5, 14, 1] r with
    | [d, a, z, 0] => .ok (z == 0) (.scrubCore (.ofNat 5 d) (.ofNat 5 a))
    | [d, a, z, _] => .ok (z == 0) (.scrubTenant (.ofNat 5 d) (.ofNat 5 a))
    | _ => .reserved
  | 0x4A => match splitN [5, 5, 15] r with
    | [z, a, y] => .ok (z == 0 && y == 0) (.setest (.ofNat 5 a))
    | _ => .reserved
  | 0x4B => .ok (r == 0) .yield
  | 0x4C => .ok (r == 0) .halt
  | 0x4D => match splitN [5, 5, 15] r with
    | [d, a, i] => .ok true (.perfrd (.ofNat 5 d) (.ofNat 5 a) (.ofNat 15 i))
    | _ => .reserved
  | 0x4E => parse2 Instr.launch r
  | _ => .reserved


/-- SC opcodes 0x70 to 0x7F. -/
def parseSc7 (op r : Nat) : Parsed :=
  match op with
  | 0x78 => match splitN [5, 5, 15] r with
    | [z, a, i] => .ok (z == 0) (.hintPf (.ofNat 5 a) (.ofNat 15 i))
    | _ => .reserved
  | 0x79 => match splitN [3, 1, 21] r with
    | [l, z, o] => .ok (z == 0) (.hintBl (.ofNat 3 l) (.ofNat 21 o))
    | _ => .reserved
  | 0x7A => .ok true (.hint0 (.ofNat 25 r))
  | 0x7B => .ok true (.hint1 (.ofNat 25 r))
  | 0x7C => .ok true (.hint2 (.ofNat 25 r))
  | 0x7D => .ok true (.hint3 (.ofNat 25 r))
  | 0x7E => .ok true (.hint4 (.ofNat 25 r))
  | 0x7F => .ok true (.hint5 (.ofNat 25 r))
  | _ => .reserved


/-- An SC word (R56). -/
def parseSc (w : Nat) : Parsed :=
  match splitN [7, 25] w with
  | [op, r] =>
    match op / 16 with
    | 0 => parseSc0 op r
    | 1 => parseSc1 op r
    | 2 => parseSc2 op r
    | 3 => parseSc3 op r
    | 4 => parseSc4 op r
    | 7 => parseSc7 op r
    | _ => .reserved
  | _ => .reserved

/-! LD and ST words (Tables 3.2, 3.8, 10.4, 11.3), from bits 44:0. -/

/-- SYNC marks (Table 3.3). -/
def syncOf (n : Nat) : Sync := { pbp := bit n 3, pbn := bit n 2, pap := bit n 1, pan := bit n 0 }

/-- BEN and BK: the watch register of a barrier to credit; none where BEN = 0 and BK is not zero. -/
def barOf (ben bk : Nat) : Option (Option (BitVec 2)) :=
  if ben = 1 then some (some (.ofNat 2 bk)) else if bk = 0 then some none else none

/-- Form T words that use H, AG, AS, TAG, BEN and BK, and further fields given by `f` of AI, OPC, PT, PF and PX. -/
def parseT (y c s r : Nat) (clean : Nat → Nat → Nat → Nat → Nat → Bool) (f : FormT → Nat → Nat → Nat → Nat → Option Instr) :
    Parsed :=
  match splitN [4, 4, 4, 6, 1, 2, 4, 4, 2, 1, 1, 12] r with
  | [h, ag, as', t, ben, bk, ai, opc, pt, pf, px, z] =>
    .word (z == 0 && clean ai opc pt pf px)
      (match barOf ben bk with
       | some bar => f { y := syncOf y, cs := csOf c s, h := .ofNat 4 h, ag := .ofNat 4 ag, as' := .ofNat 4 as',
                         tag := .ofNat 6 t, bar := bar } ai opc pt pf
       | none => none)
  | _ => .reserved

/-- Form K words; AG is in use for KV.SPLICE alone. -/
def parseK (y c s r : Nat) (useAg : Bool) (f : FormK → BitVec 4 → Instr) : Parsed :=
  match splitN [4, 4, 6, 4, 1, 2, 24] r with
  | [ad, ag, t, rq, ns, q, z] =>
    .ok (z == 0 && q == 0 && (useAg || ag == 0))
      (f { y := syncOf y, cs := csOf c s, ad := .ofNat 4 ad, tag := .ofNat 6 t, rq := .ofNat 4 rq, ns := flag ns } (.ofNat 4 ag))
  | _ => .reserved

/-- MOVA by its kind (R252). -/
def parseMova (y c s r : Nat) : Parsed :=
  match splitN [4, 2, 39] r with
  | [d, 0, q] =>
    match splitN [3, 36] q with
    | [sh, i] => .ok (c == 0 && s == 0) (.movaImm (syncOf y) (.ofNat 4 d) (.ofNat 3 sh) (.ofNat 36 i))
    | _ => .reserved
  | [d, 1, q] =>
    match splitN [36, 3] q with
    | [z, k] => .ok (c == 0 && s == 0 && z == 0) (.movaGpos (syncOf y) (.ofNat 4 d) (.ofNat 3 k))
    | _ => .reserved
  | [d, 2, q] =>
    match splitN [17, 22] q with
    | [z, o] => .ok (z == 0) (.movaSp (syncOf y) (csOf c s) (.ofNat 4 d) (.ofNat 22 o))
    | _ => .reserved
  | [d, _, q] =>
    match splitN [4, 35] q with
    | [a, z] => .ok (c == 0 && s == 0 && z == 0) (.movaReg (syncOf y) (.ofNat 4 d) (.ofNat 4 a))
    | _ => .reserved
  | _ => .reserved

/-- The words that LD and ST share (opcodes 0x01 to 0x05). -/
def parseLdSt (op y c s r : Nat) : Parsed :=
  match op with
  | 0x01 => .ok (c == 0 && s == 0 && r == 0) (.nop false (syncOf y))
  | 0x02 =>
    match splitN [4, 1, 4, 4, 32] r with
    | [hd, 0, a, i, z] => .ok (c == 0 && s == 0 && a == 0 && z == 0) (.shape (syncOf y) (.ofNat 4 hd) (.ofNat 4 i))
    | [hd, _, a, i, z] => .ok (i == 0 && z == 0) (.shapeMem (syncOf y) (csOf c s) (.ofNat 4 hd) (.ofNat 4 a))
    | _ => .reserved
  | 0x03 =>
    match splitN [4, 4, 4, 1, 3, 29] r with
    | [d, a, t, te, sh, i] =>
      .ok (c == 0 && s == 0) (.adda (syncOf y) (.ofNat 4 d) (.ofNat 4 a) (.ofNat 4 t) (flag te) (.ofNat 3 sh) (.ofNat 29 i))
    | _ => .reserved
  | 0x04 => parseMova y c s r
  | 0x05 =>
    match splitN [2, 4, 1, 16, 1, 21] r with
    | [k, ar, ae, st, z, o] =>
      .ok (c == 0 && s == 0 && z == 0)
        (.loopa (syncOf y) (.ofNat 2 k) (.ofNat 4 ar) (flag ae) (.ofNat 16 st) (.ofNat 21 o))
    | _ => .reserved
  | _ => .reserved

/-- The words of LD alone. -/
def parseLd (op y c s r : Nat) : Parsed :=
  match op with
  | 0x06 =>
    match splitN [4, 4, 4, 6, 1, 2, 4, 4, 2, 1, 1, 12] r with
    | [h, ag, z1, z2, z3, z4, z5, z6, z7, z8, px, z] =>
      .ok (z1 == 0 && z2 == 0 && z3 == 0 && z4 == 0 && z5 == 0 && z6 == 0 && z7 == 0 && z8 == 0 && z == 0)
        (if px = 0 then .pref (syncOf y) (csOf c s) (.ofNat 4 h) (.ofNat 4 ag)
         else .prefTensor (syncOf y) (csOf c s) (.ofNat 4 h) (.ofNat 4 ag))
    | _ => .reserved
  | 0x10 => parseT y c s r (fun ai opc pt pf px => ai == 0 && opc == 0 && pt == 0 && pf == 0 && px == 0)
      (fun w _ _ _ _ => some (.tload w))
  | 0x11 => parseT y c s r (fun ai opc pt pf px => ai == 0 && opc == 0 && pt == 0 && pf == 0 && px == 0)
      (fun w _ _ _ _ => some (.tloadx w))
  | 0x12 => parseT y c s r (fun _ opc pt pf px => opc == 0 && pt == 0 && pf == 0 && px == 0)
      (fun w ai _ _ _ => some (.gather w (.ofNat 4 ai)))
  | 0x13 => parseT y c s r (fun ai opc pt pf px => ai == 0 && opc == 0 && px == 0 && (pf == 1 || pt == 0) && r / 2 ^ 24 % 8 == 0)
      (fun w _ _ pt pf => some (if pf = 1 then .cfillPeer w (.ofNat 2 pt) else .cfill w))
  | 0x18 =>
    match splitN [4, 41] r with
    | [d, z] => .ok (c == 0 && s == 0 && z == 0) (.pktTake (syncOf y) (.ofNat 4 d))
    | _ => .reserved
  | 0x19 =>
    match splitN [4, 4, 6, 4, 1, 2, 24] r with
    | [ad, ag, t, rq, ben, bk, z] =>
      .word (z == 0 && ag == 0)
        (match barOf ben bk with
         | some bar => some (.kvRes { y := syncOf y, cs := csOf c s, ad := .ofNat 4 ad, tag := .ofNat 6 t, rq := .ofNat 4 rq,
                                      ns := false } bar)
         | none => none)
    | _ => .reserved
  | _ => parseLdSt op y c s r

/-- The words of ST alone. -/
def parseSt (op y c s r : Nat) : Parsed :=
  match op with
  | 0x20 => parseT y c s r (fun ai opc pt pf px => ai == 0 && opc == 0 && pt == 0 && pf == 0 && px == 0)
      (fun w _ _ _ _ => some (.tstore w))
  | 0x21 => parseT y c s r (fun _ opc pt pf px => opc == 0 && pt == 0 && pf == 0 && px == 0)
      (fun w ai _ _ _ => some (.scatter w (.ofNat 4 ai)))
  | 0x22 => parseT y c s r (fun ai _ pt pf px => ai == 0 && pt == 0 && pf == 0 && px == 0)
      (fun w _ opc _ _ => some (.redm w (.ofNat 4 opc)))
  | 0x28 =>
    match splitN [4, 4, 4, 6, 1, 4, 22] r with
    | [a, q, l, t, f, ar, z] =>
      .ok (z == 0)
        (.pktEmit (syncOf y) (csOf c s) (.ofNat 4 a) (.ofNat 4 q) (.ofNat 4 l) (.ofNat 6 t) (flag f) (.ofNat 4 ar))
    | _ => .reserved
  | 0x30 => parseK y c s r false (fun w _ => .kvQry w)
  | 0x31 => parseK y c s r false (fun w _ => .kvAppend w)
  | 0x32 => parseK y c s r true (fun w ag => .kvSplice w ag)
  | 0x33 => parseK y c s r false (fun w _ => .kvDrop w)
  | 0x34 => parseK y c s r false (fun w _ => .kvCommit w)
  | 0x35 => parseK y c s r false (fun w _ => .kvIxlook w)
  | 0x36 => parseK y c s r false (fun w _ => .kvIxins w)
  | 0x37 => parseK y c s r false (fun w _ => .kvRepairOpen w)
  | 0x38 => parseK y c s r false (fun w _ => .kvPagein w)
  | 0x3C =>
    match splitN [4, 4, 6, 31] r with
    | [ad, z1, t, z] => .ok (z1 == 0 && z == 0) (.install (syncOf y) (csOf c s) (.ofNat 4 ad) (.ofNat 6 t))
    | _ => .reserved
  | _ => parseLdSt op y c s r

/-! CM words (Tables 3.2, 3.9, 5.9, 6.2, 6.6, 6.7), from bits 108:0. -/

/-- MMA and MMAZ. -/
def parseMma (y c s r : Nat) (f : FormMma → Instr) : Parsed :=
  match splitN [2, 4, 4, 4, 1, 6, 22, 1, 5, 17, 6, 37] r with
  | [acc, ca, cb, kg, asrc, astr, off, xe, xr, boff, bstr, z] =>
    .ok (z == 0)
      (f { y := syncOf y, cs := csOf c s, acc := .ofNat 2 acc, caM1 := .ofNat 4 ca, cbM1 := .ofNat 4 cb, kgM1 := .ofNat 4 kg,
           asrc := flag asrc, astrM1 := .ofNat 6 astr, a := { off := .ofNat 22 off, xe := flag xe, xr := .ofNat 5 xr },
           boff := .ofNat 17 boff, bstrM1 := .ofNat 6 bstr })
  | _ => .reserved

/-- MHROT (R109). -/
def parseMhrot (y c s r : Nat) : Parsed :=
  match splitN [2, 4, 2, 3, 2, 1, 1, 6, 22, 1, 5, 60] r with
  | [acc, ca, ord, dg, ko, z1, asrc, astr, off, xe, xr, z] =>
    match ord with
    | 2 => .ok (acc == 0 && ca == 0 && dg == 0 && ko == 0 && z1 == 0 && asrc == 0 && astr == 0 && off == 0 && xe == 0 && xr == 0
        && z == 0 && c == 0 && s == 0) (.mhrotS256 (syncOf y))
    | 3 => .word (z1 == 0 && z == 0) none
    | _ => .ok (z1 == 0 && z == 0)
        (.mhrot { y := syncOf y, cs := csOf c s, acc := .ofNat 2 acc, caM1 := .ofNat 4 ca, ord64 := ord == 1, dg := .ofNat 3 dg,
                  koff := .ofNat 2 ko, asrc := flag asrc, astrM1 := .ofNat 6 astr,
                  a := { off := .ofNat 22 off, xe := flag xe, xr := .ofNat 5 xr } })
  | _ => .reserved

/-- The matrix words and MLEASE, MREL and NOP. -/
def parseCmMat (op y c s r : Nat) : Parsed :=
  match op with
  | 0x01 => .ok (c == 0 && s == 0 && r == 0) (.nop true (syncOf y))
  | 0x08 => .ok (c == 0 && s == 0 && r == 0) (.mlease (syncOf y))
  | 0x09 => .ok (c == 0 && s == 0 && r == 0) (.mrel (syncOf y))
  | 0x10 => parseMma y c s r Instr.mma
  | 0x11 => parseMma y c s r Instr.mmaz
  | 0x12 => parseMhrot y c s r
  | 0x13 =>
    match splitN [24, 85] r with
    | [n, z] => .ok (c == 0 && s == 0 && z == 0) (.swing (syncOf y) (.ofNat 24 n))
    | _ => .reserved
  | 0x14 =>
    match splitN [2, 8, 3, 4, 2, 1, 6, 22, 1, 5, 55] r with
    | [acc, fmt, rnd, dist, lay, clr, dstr, off, xe, xr, z] =>
      .ok (z == 0)
        (.mdrain { y := syncOf y, cs := csOf c s, acc := .ofNat 2 acc, fmt := .ofNat 8 fmt, rnd := .ofNat 3 rnd,
                   dist := .ofNat 4 dist, lay := .ofNat 2 lay, clr := flag clr, dstrM1 := .ofNat 6 dstr,
                   d := { off := .ofNat 22 off, xe := flag xe, xr := .ofNat 5 xr } })
    | _ => .reserved
  | 0x15 =>
    match splitN [2, 8, 3, 4, 1, 91] r with
    | [acc, fmt, rnd, dist, clr, z] =>
      .ok (c == 0 && s == 0 && z == 0)
        (.mbyp { y := syncOf y, acc := .ofNat 2 acc, fmt := .ofNat 8 fmt, rnd := .ofNat 3 rnd, dist := .ofNat 4 dist,
                 clr := flag clr })
    | _ => .reserved
  | 0x16 =>
    match splitN [2, 2, 22, 1, 5, 22, 1, 54] r with
    | [acc, t, off, xe, xr, boff, ben, z] =>
      .ok (z == 0 && (ben == 1 || boff == 0))
        (.mpeer { y := syncOf y, cs := csOf c s, acc := .ofNat 2 acc, tier := .ofNat 2 t,
                  d := { off := .ofNat 22 off, xe := flag xe, xr := .ofNat 5 xr },
                  bar := if ben = 1 then some (.ofNat 22 boff) else none })
    | _ => .reserved
  | 0x17 =>
    match splitN [2, 1, 2, 6, 22, 1, 5, 70] r with
    | [acc, add, k, sstr, off, xe, xr, z] =>
      .ok (z == 0)
        (.maccld { y := syncOf y, cs := csOf c s, acc := .ofNat 2 acc, add := flag add, kind := .ofNat 2 k,
                   sstrM1 := .ofNat 6 sstr, s := { off := .ofNat 22 off, xe := flag xe, xr := .ofNat 5 xr } })
    | _ => .reserved
  | 0x18 =>
    match splitN [4, 1, 104] r with
    | [m, b, z] => .ok (c == 0 && s == 0 && z == 0) (.mclr (syncOf y) (.ofNat 4 m) (flag b))
    | _ => .reserved
  | _ => .reserved

/-- Form V (Table 6.2); these words make no memory access. -/
def parseV (y c s r : Nat) (f : FormV → Option Instr) : Parsed :=
  match splitN [5, 5, 5, 5, 4, 1, 3, 1, 1, 3, 1, 3, 3, 1, 4, 32, 32] r with
  | [vd, va, vb, vc, ty, bi, mq, me, mz, rnd, sat, sub, md, dk, gs, z, imm] =>
    .word (z == 0 && c == 0 && s == 0)
      (f { y := syncOf y, vd := .ofNat 5 vd, va := .ofNat 5 va, vb := .ofNat 5 vb, vc := .ofNat 5 vc, ty := .ofNat 4 ty,
           bi := flag bi, mq := .ofNat 3 mq, me := flag me, mz := flag mz, rnd := .ofNat 3 rnd, sat := flag sat,
           sub := .ofNat 3 sub, md := .ofNat 3 md, dk := flag dk, gs := .ofNat 4 gs, imm := .ofNat 32 imm })
  | _ => .reserved

/-- Form C (Table 6.6); KIND names the row. -/
def parseVcvt (y c s r : Nat) : Parsed :=
  match splitN [5, 5, 2, 8, 8, 3, 4, 3, 1, 1, 3, 3, 2, 2, 2, 8, 8, 41] r with
  | [vd, va, k, fs, fd, rnd, dist, mq, me, mz, ps, pd, ss, ds, nb, se, de, z] =>
    let w : FormC := { y := syncOf y, vd := .ofNat 5 vd, va := .ofNat 5 va, fs := .ofNat 8 fs, fd := .ofNat 8 fd,
                       rnd := .ofNat 3 rnd, dist := .ofNat 4 dist, mq := .ofNat 3 mq, me := flag me, mz := flag mz,
                       ps := .ofNat 3 ps, pd := .ofNat 3 pd, ss := .ofNat 2 ss, ds := .ofNat 2 ds, nb := .ofNat 2 nb,
                       se := .ofNat 8 se, de := .ofNat 8 de }
    .ok (z == 0 && c == 0 && s == 0)
      (match k with
       | 0 => .vcvtRaw w
       | 1 => .vcvtToDesc w
       | 2 => .vcvtFromDesc w
       | _ => .vcvtDescDesc w)
  | _ => .reserved

/-- Form M (Table 6.7). -/
def parseM (y c s r : Nat) (f : FormM → Instr) : Parsed :=
  match splitN [5, 5, 5, 4, 3, 1, 1, 22, 1, 5, 8, 1, 3, 1, 1, 43] r with
  | [vd, vb, vc, ty, mq, me, mz, off, xe, xr, len, sc, md, dk, be, z] =>
    .ok (z == 0)
      (f { y := syncOf y, cs := csOf c s, vd := .ofNat 5 vd, vb := .ofNat 5 vb, vc := .ofNat 5 vc, ty := .ofNat 4 ty,
           mq := .ofNat 3 mq, me := flag me, mz := flag mz, a := { off := .ofNat 22 off, xe := flag xe, xr := .ofNat 5 xr },
           lenM1 := .ofNat 8 len, sc := flag sc, md := .ofNat 3 md, dk := flag dk, be := flag be })
  | _ => .reserved


/-- The vector words, opcodes 0x20 to 0x41. -/
def parseCmVec (op y c s r : Nat) : Parsed :=
  match op with
  | 0x20 => parseV y c s r (fun w => some (.vadd w))
  | 0x21 => parseV y c s r (fun w => some (.vsub w))
  | 0x22 => parseV y c s r (fun w => some (if w.sub = 0 then .vmul w else .vmulHi w))
  | 0x23 => parseV y c s r (fun w => some (.vfma w))
  | 0x24 => parseV y c s r (fun w => some (.vmin w))
  | 0x25 => parseV y c s r (fun w => some (.vmax w))
  | 0x26 => parseV y c s r (fun w => some (if w.dk then .vandMask w else .vand w))
  | 0x27 => parseV y c s r (fun w => some (if w.dk then .vorMask w else .vor w))
  | 0x28 => parseV y c s r (fun w => some (if w.dk then .vxorMask w else .vxor w))
  | 0x29 => parseV y c s r (fun w => some (if w.dk then .vnotMask w else .vnot w))
  | 0x2A => parseV y c s r (fun w => some (.vshl w))
  | 0x2B => parseV y c s r (fun w => some (.vshr w))
  | 0x2C => parseV y c s r (fun w => some (.vsar w))
  | 0x2D => parseV y c s r (fun w => some (.vfshl w))
  | 0x2E => parseV y c s r (fun w => some (.vfshr w))
  | 0x2F => parseV y c s r (fun w => some (.vclz w))
  | 0x30 => parseV y c s r (fun w => some (.vpopc w))
  | 0x31 => parseV y c s r (fun w => some (.vcmp w))
  | 0x32 => parseV y c s r (fun w => some (.vsel w))
  | 0x33 =>
    (match parseV y c s r (fun w => if w.sub = 0 then some (.vmov w) else if w.sub = 1 then some (.vmovFromMask w)
        else if w.sub = 2 then some (.vmovToMask w) else none) with
     | .word clean none =>
       .word (clean && bits r 98 89 == 0 && bits r 78 75 == 0 && bits r 68 64 == 0) none
     | p => p)
  | 0x34 => parseV y c s r (fun w => some (.vbcast w))
  | 0x35 => parseV y c s r (fun w => some (.vperm w))
  | 0x36 => parseV y c s r (fun w => some (.vcompress w))
  | 0x37 => parseV y c s r (fun w => some (.vexpand w))
  | 0x38 => parseV y c s r (fun w => some (.vred w))
  | 0x39 => parseV y c s r (fun w => some (.vgred w))
  | 0x3A => parseV y c s r (fun w => some (.vscan w))
  | 0x3B => parseV y c s r (fun w => some (.vexp2 w))
  | 0x3C => parseV y c s r (fun w => some (.vlog2 w))
  | 0x3D => parseV y c s r (fun w => some (.vrcp w))
  | 0x3E => parseV y c s r (fun w => some (.vrsq w))
  | 0x40 => parseV y c s r (fun w => some (.vpack w))
  | 0x41 => parseV y c s r (fun w => some (.vunpack w))
  | 0x3F => parseVcvt y c s r
  | _ => .reserved


/-- The scratchpad words, opcodes 0x48 to 0x4E. -/
def parseCmMem (op y c s r : Nat) : Parsed :=
  match op with
  | 0x48 => parseM y c s r Instr.vld
  | 0x49 => parseM y c s r Instr.vst
  | 0x4A => parseM y c s r Instr.vldu
  | 0x4B => parseM y c s r Instr.vstu
  | 0x4C => parseM y c s r Instr.vgath
  | 0x4D => parseM y c s r Instr.vscat
  | 0x4E => parseM y c s r Instr.vbtest
  | _ => .reserved


/-- What a word of a section reads as. Opcode 0x00 is the header's and no instruction's. -/
def parseWord (sec : Section) (w : Nat) : Parsed :=
  match sec with
  | .sc => parseSc w
  | .ld =>
    match splitN [8, 4, 4, 3, 45] w with
    | [op, y, c, s, r] => parseLd op y c s r
    | _ => .reserved
  | .st =>
    match splitN [8, 4, 4, 3, 45] w with
    | [op, y, c, s, r] => parseSt op y c s r
    | _ => .reserved
  | .cm =>
    match splitN [8, 4, 4, 3, 109] w with
    | [op, y, c, s, r] => if op < 0x20 then parseCmMat op y c s r
      else if op < 0x48 then parseCmVec op y c s r else parseCmMem op y c s r
    | _ => .reserved

/-- The instruction a word of a section is, if it is one. -/
def decodeWord (sec : Section) (w : Nat) : Option Instr :=
  match parseWord sec w with
  | .word true (some i) => if i.wellFormed then some i else none
  | _ => none

/-- Word length of a section in bytes (Table 3.1). -/
def Section.wordBytes : Section → Nat
  | .sc => 4
  | .ld | .st => 8
  | .cm => 16

/-- Code of a section in records (R62). -/
def Section.code : Section → Nat
  | .sc => 0 | .ld => 1 | .cm => 2 | .st => 3

/-- The instruction the decoder reads from an instruction whose bits are `w`: 32 bits are an SC word, 64 an LD or an ST
word, 128 a CM word. The words stand in memory little-endian (R49), so bit 0 of `w` is the least significant bit. -/
def decodeTableWord (nbits w : Nat) : Option Instr :=
  match nbits with
  | 32 => decodeWord .sc (w % 2 ^ 32)
  | 64 =>
    match decodeWord .ld (w % 2 ^ 64) with
    | some i => some i
    | none => decodeWord .st (w % 2 ^ 64)
  | 128 => decodeWord .cm (w % 2 ^ 128)
  | _ => none

/-! Block headers (R54, Tables 3.4 and 3.5). -/

/-- Raw header fields of a section, with whether the reserved bits are zero; opcode 0x00 is checked by the caller. -/
structure RawHeader where
  clean : Bool
  len : Nat
  popp : Nat
  popn : Nat
  pushp : Nat
  pushn : Nat
  wmode : Nat
  wtm : Nat
  wbar : Nat
  leave : Nat
  tend : Bool
  repk : Nat
  repv : Nat
  lease : Bool
  mcnt : Nat
  deriving DecidableEq, Repr

/-- The fields of a header word of a section; none when its opcode is not 0x00. -/
def rawHeader (sec : Section) (w : Nat) : Option RawHeader :=
  match sec with
  | .sc =>
    match splitN [7, 6, 2, 2, 2, 2, 2, 3, 3, 2, 1] w with
    | [0, len, pp, pn, up, un, wm, wt, wb, lv, te] =>
      some { clean := true, len := len, popp := pp, popn := pn, pushp := up, pushn := un, wmode := wm, wtm := wt, wbar := wb,
             leave := lv, tend := flag te, repk := 0, repv := 0, lease := false, mcnt := 0 }
    | _ => none
  | .cm =>
    match splitN [8, 6, 4, 4, 4, 4, 2, 3, 3, 2, 1, 1, 8, 1, 6, 71] w with
    | [0, len, pp, pn, up, un, wm, wt, wb, lv, te, rk, rv, le, mc, z] =>
      some { clean := z == 0, len := len, popp := pp, popn := pn, pushp := up, pushn := un, wmode := wm, wtm := wt, wbar := wb,
             leave := lv, tend := flag te, repk := rk, repv := rv, lease := flag le, mcnt := mc }
    | _ => none
  | _ =>
    match splitN [8, 6, 4, 4, 4, 4, 2, 3, 3, 2, 1, 1, 8, 14] w with
    | [0, len, pp, pn, up, un, wm, wt, wb, lv, te, rk, rv, z] =>
      some { clean := z == 0, len := len, popp := pp, popn := pn, pushp := up, pushn := un, wmode := wm, wtm := wt, wbar := wb,
             leave := lv, tend := flag te, repk := rk, repv := rv, lease := false, mcnt := 0 }
    | _ => none

/-- Every field holds an encoding of Table 3.5 (reason 0x05 otherwise). -/
def RawHeader.encodingOk (h : RawHeader) : Bool :=
  h.wmode != 3 && (h.wmode != 0 || h.wtm == 0) && (h.wbar == 0 || decide (4 ≤ h.wbar)) && (h.repk == 0 || decide (h.repv < 4))


/-! The encoder. -/

/-- SC word of an opcode and the fields of bits 24:0. -/
def scBits (op : Nat) (ws vs : List Nat) : Option (Nat × Nat) := some (32, joinN [7, 25] [op, joinN ws vs])

/-- The SYNC field of marks. -/
def Sync.bits (y : Sync) : Nat := 8 * y.pbp.toNat + 4 * y.pbn.toNat + 2 * y.pap.toNat + y.pan.toNat

/-- LD or ST word. -/
def ldstBits (op : Nat) (y : Sync) (cs : Cs) (ws vs : List Nat) : Option (Nat × Nat) :=
  some (64, joinN [8, 4, 4, 3, 45] [op, y.bits, cs.cls.toNat, cs.scope.toNat, joinN ws vs])

/-- CM word. -/
def cmBits (op : Nat) (y : Sync) (cs : Cs) (ws vs : List Nat) : Option (Nat × Nat) :=
  some (128, joinN [8, 4, 4, 3, 109] [op, y.bits, cs.cls.toNat, cs.scope.toNat, joinN ws vs])

/-- The class and scope of a word that makes no access (R52). -/
def noCs : Cs := { cls := 0, scope := 0 }

/-- BEN. -/
def barBen {n : Nat} (b : Option (BitVec n)) : Nat := match b with | some _ => 1 | none => 0
/-- BK or BOFF. -/
def barSel {n : Nat} (b : Option (BitVec n)) : Nat := match b with | some k => k.toNat | none => 0

def formTBits (op : Nat) (w : FormT) (ai opc pt pf px : Nat) : Option (Nat × Nat) :=
  ldstBits op w.y w.cs [4, 4, 4, 6, 1, 2, 4, 4, 2, 1, 1, 12]
    [w.h.toNat, w.ag.toNat, w.as'.toNat, w.tag.toNat, barBen w.bar, barSel w.bar, ai, opc, pt, pf, px, 0]

def formKBits (op : Nat) (w : FormK) (ag : Nat) : Option (Nat × Nat) :=
  ldstBits op w.y w.cs [4, 4, 6, 4, 1, 2, 24] [w.ad.toNat, ag, w.tag.toNat, w.rq.toNat, w.ns.toNat, 0, 0]

def formVBits (op : Nat) (w : FormV) : Option (Nat × Nat) :=
  cmBits op w.y noCs [5, 5, 5, 5, 4, 1, 3, 1, 1, 3, 1, 3, 3, 1, 4, 32, 32]
    [w.vd.toNat, w.va.toNat, w.vb.toNat, w.vc.toNat, w.ty.toNat, w.bi.toNat, w.mq.toNat, w.me.toNat, w.mz.toNat, w.rnd.toNat,
     w.sat.toNat, w.sub.toNat, w.md.toNat, w.dk.toNat, w.gs.toNat, 0, w.imm.toNat]

def formCBits (k : Nat) (w : FormC) : Option (Nat × Nat) :=
  cmBits 0x3F w.y noCs [5, 5, 2, 8, 8, 3, 4, 3, 1, 1, 3, 3, 2, 2, 2, 8, 8, 41]
    [w.vd.toNat, w.va.toNat, k, w.fs.toNat, w.fd.toNat, w.rnd.toNat, w.dist.toNat, w.mq.toNat, w.me.toNat, w.mz.toNat,
     w.ps.toNat, w.pd.toNat, w.ss.toNat, w.ds.toNat, w.nb.toNat, w.se.toNat, w.de.toNat, 0]

def formMBits (op : Nat) (w : FormM) : Option (Nat × Nat) :=
  cmBits op w.y w.cs [5, 5, 5, 4, 3, 1, 1, 22, 1, 5, 8, 1, 3, 1, 1, 43]
    [w.vd.toNat, w.vb.toNat, w.vc.toNat, w.ty.toNat, w.mq.toNat, w.me.toNat, w.mz.toNat, w.a.off.toNat, w.a.xe.toNat,
     w.a.xr.toNat, w.lenM1.toNat, w.sc.toNat, w.md.toNat, w.dk.toNat, w.be.toNat, 0]

def formMmaBits (op : Nat) (w : FormMma) : Option (Nat × Nat) :=
  cmBits op w.y w.cs [2, 4, 4, 4, 1, 6, 22, 1, 5, 17, 6, 37]
    [w.acc.toNat, w.caM1.toNat, w.cbM1.toNat, w.kgM1.toNat, w.asrc.toNat, w.astrM1.toNat, w.a.off.toNat, w.a.xe.toNat,
     w.a.xr.toNat, w.boff.toNat, w.bstrM1.toNat, 0]

/-- Three registers, or two with S2 zero, and a ten-bit FN. -/
def scR (op : Nat) (d a b : BitVec 5) (fn : Nat) : Option (Nat × Nat) :=
  scBits op [5, 5, 5, 10] [d.toNat, a.toNat, b.toNat, fn]


/-- SC words of the encoder. -/
def encodeSc : Instr → Option (Nat × Nat)
  | .add d a b => scR 0x01 d a b 0
  | .sub d a b => scR 0x03 d a b 0
  | .mul d a b => scR 0x04 d a b 0
  | .and d a b => scR 0x08 d a b 0
  | .or d a b => scR 0x09 d a b 0
  | .xor d a b => scR 0x0A d a b 0
  | .andn d a b => scR 0x0B d a b 0
  | .min d a b => scR 0x15 d a b 0
  | .max d a b => scR 0x16 d a b 0
  | .minu d a b => scR 0x17 d a b 0
  | .maxu d a b => scR 0x18 d a b 0
  | .mxbind d a b => scR 0x46 d a b 0
  | .addi d a i => scBits 0x02 [5, 5, 15] [d.toNat, a.toNat, i.toNat]
  | .mulh d a b s => scBits 0x05 [5, 5, 5, 8, 2] [d.toNat, a.toNat, b.toNat, 0, s.toNat]
  | .div d a b u => scBits 0x06 [5, 5, 5, 9, 1] [d.toNat, a.toNat, b.toNat, 0, u.toNat]
  | .rem d a b u => scBits 0x07 [5, 5, 5, 9, 1] [d.toNat, a.toNat, b.toNat, 0, u.toNat]
  | .shl d a b => scBits 0x0C [5, 5, 5, 1, 3, 6] [d.toNat, a.toNat, b.toNat, 0, 0, 0]
  | .shlImm d a s => scBits 0x0C [5, 5, 5, 1, 3, 6] [d.toNat, a.toNat, 0, 1, 0, s.toNat]
  | .shr d a b => scBits 0x0D [5, 5, 5, 1, 3, 6] [d.toNat, a.toNat, b.toNat, 0, 0, 0]
  | .shrImm d a s => scBits 0x0D [5, 5, 5, 1, 3, 6] [d.toNat, a.toNat, 0, 1, 0, s.toNat]
  | .sar d a b => scBits 0x0E [5, 5, 5, 1, 3, 6] [d.toNat, a.toNat, b.toNat, 0, 0, 0]
  | .sarImm d a s => scBits 0x0E [5, 5, 5, 1, 3, 6] [d.toNat, a.toNat, 0, 1, 0, s.toNat]
  | .rol d a b => scBits 0x0F [5, 5, 5, 1, 3, 6] [d.toNat, a.toNat, b.toNat, 0, 0, 0]
  | .rolImm d a s => scBits 0x0F [5, 5, 5, 1, 3, 6] [d.toNat, a.toNat, 0, 1, 0, s.toNat]
  | .fshl d a b c => scBits 0x10 [5, 5, 5, 1, 3, 6] [d.toNat, a.toNat, b.toNat, 0, 0, c.toNat]
  | .fshlImm d a b s => scBits 0x10 [5, 5, 5, 1, 3, 6] [d.toNat, a.toNat, b.toNat, 1, 0, s.toNat]
  | .fshr d a b c => scBits 0x11 [5, 5, 5, 1, 3, 6] [d.toNat, a.toNat, b.toNat, 0, 0, c.toNat]
  | .fshrImm d a b s => scBits 0x11 [5, 5, 5, 1, 3, 6] [d.toNat, a.toNat, b.toNat, 1, 0, s.toNat]
  | .clz d a => scBits 0x12 [5, 5, 15] [d.toNat, a.toNat, 0]
  | .ctz d a => scBits 0x13 [5, 5, 15] [d.toNat, a.toNat, 0]
  | .popc d a => scBits 0x14 [5, 5, 15] [d.toNat, a.toNat, 0]
  | .launch d a => scBits 0x4E [5, 5, 15] [d.toNat, a.toNat, 0]
  | .sext d a n => scBits 0x19 [5, 5, 9, 6] [d.toNat, a.toNat, 0, n.toNat]
  | .zext d a n => scBits 0x1A [5, 5, 9, 6] [d.toNat, a.toNat, 0, n.toNat]
  | .lui d i => scBits 0x1B [5, 20] [d.toNat, i.toNat]
  | .mov d a => scBits 0x1C [5, 5, 5, 8, 2] [d.toNat, a.toNat, 0, 0, 0]
  | .movFromPred d k => scBits 0x1C [5, 5, 5, 8, 2] [d.toNat, k.toNat, 0, 0, 1]
  | .movToPred p a => scBits 0x1C [5, 5, 5, 8, 2] [p.toNat, a.toNat, 0, 0, 2]
  | .sel d a b n k => scBits 0x1D [5, 5, 5, 6, 1, 3] [d.toNat, a.toNat, b.toNat, 0, n.toNat, k.toNat]
  | .cmp p a b c => scBits 0x1E [2, 3, 5, 5, 6, 4] [0, p.toNat, a.toNat, b.toNat, 0, c.toNat]
  | .addx d a b s => scBits 0x1F [5, 5, 5, 7, 3] [d.toNat, a.toNat, b.toNat, 0, s.toNat]
  | .madd d a b c => scBits 0x20 [5, 5, 5, 5, 5] [d.toNat, a.toNat, b.toNat, 0, c.toNat]
  | .br o => scBits 0x28 [4, 21] [0, o.toNat]
  | .brc p n o => scBits 0x29 [3, 1, 21] [p.toNat, n.toNat, o.toNat]
  | .call o => scBits 0x2A [4, 21] [0, o.toNat]
  | .ret a => scBits 0x2B [5, 5, 15] [0, a.toNat, 0]
  | .loop k o => scBits 0x2C [2, 2, 21] [k.toNat, 0, o.toNat]
  | .sync a b c d => scBits 0x2D [17, 2, 2, 2, 2] [0, d.toNat, c.toNat, b.toNat, a.toNat]
  | .sld d a b cs z o => scBits 0x30 [5, 5, 5, 4, 3, 2, 1]
      [d.toNat, a.toNat, b.toNat, cs.cls.toNat, cs.scope.toNat, z.toNat, o.toNat]
  | .sst d a b cs z o => scBits 0x31 [5, 5, 5, 4, 3, 2, 1]
      [d.toNat, a.toNat, b.toNat, cs.cls.toNat, cs.scope.toNat, z.toNat, o.toNat]
  | .amo d a z op cs o => scBits 0x32 [5, 5, 1, 4, 4, 3, 2, 1]
      [d.toNat, a.toNat, z.toNat, op.toNat, cs.cls.toNat, cs.scope.toNat, o.toNat, 0]
  | .red d a z op cs o => scBits 0x33 [5, 5, 1, 4, 4, 3, 2, 1]
      [d.toNat, a.toNat, z.toNat, op.toNat, cs.cls.toNat, cs.scope.toNat, o.toNat, 0]
  | .fence s m => scBits 0x34 [3, 6, 16] [s.toNat, 0, m.toNat]
  | .pbInit d a b cs => scBits 0x35 [5, 5, 5, 4, 3, 3] [d.toNat, a.toNat, b.toNat, cs.cls.toNat, cs.scope.toNat, 0]
  | .pbArrive d a b cs w q => scBits 0x36 [5, 5, 5, 4, 3, 1, 2]
      [d.toNat, a.toNat, b.toNat, cs.cls.toNat, cs.scope.toNat, w.toNat, q.toNat]
  | .pbExpect a b cs => scBits 0x37 [5, 5, 5, 4, 3, 3] [0, a.toNat, b.toNat, cs.cls.toNat, cs.scope.toNat, 0]
  | .pbTest d a cs => scBits 0x38 [5, 5, 5, 4, 3, 3] [d.toNat, a.toNat, 0, cs.cls.toNat, cs.scope.toNat, 0]
  | .wanyTm p k => scBits 0x39 [2, 3, 5, 5, 6, 1, 3] [0, p.toNat, 0, 0, 0, 0, k.toNat]
  | .wanyReg p a => scBits 0x39 [2, 3, 5, 5, 6, 1, 3] [0, p.toNat, a.toNat, 0, 0, 1, 0]
  | .wallTm p k => scBits 0x3A [2, 3, 5, 5, 6, 1, 3] [0, p.toNat, 0, 0, 0, 0, k.toNat]
  | .wallReg p a => scBits 0x3A [2, 3, 5, 5, 6, 1, 3] [0, p.toNat, a.toNat, 0, 0, 1, 0]
  | .ffrdyTm d k => scBits 0x3B [5, 5, 5, 6, 1, 3] [d.toNat, 0, 0, 0, 0, k.toNat]
  | .ffrdyReg d a => scBits 0x3B [5, 5, 5, 6, 1, 3] [d.toNat, a.toNat, 0, 0, 1, 0]
  | .tensorDef d a => scBits 0x3C [5, 5, 5, 9, 1] [d.toNat, a.toNat, 0, 0, 0]
  | .tensorUndef d b => scBits 0x3C [5, 5, 5, 9, 1] [d.toNat, 0, b.toNat, 0, 1]
  | .trap a i => scBits 0x40 [5, 5, 15] [0, a.toNat, i.toNat]
  | .tfence => scBits 0x41 [25] [0]
  | .eret => scBits 0x42 [25] [0]
  | .yield => scBits 0x4B [25] [0]
  | .halt => scBits 0x4C [25] [0]
  | .crd d i => scBits 0x43 [5, 5, 15] [d.toNat, 0, i.toNat]
  | .cwr a i => scBits 0x44 [5, 5, 15] [0, a.toNat, i.toNat]
  | .tlbi d a b n m t => scBits 0x45 [5, 5, 5, 6, 1, 1, 2] [d.toNat, a.toNat, b.toNat, 0, n.toNat, m.toNat, t.toNat]
  | .mxsaveCopy d a b => scBits 0x47 [5, 5, 5, 7, 3] [d.toNat, a.toNat, b.toNat, 0, 0]
  | .mxsaveFree d a b => scBits 0x47 [5, 5, 5, 7, 3] [d.toNat, a.toNat, b.toNat, 0, 1]
  | .mxsaveReset d a b => scBits 0x47 [5, 5, 5, 7, 3] [d.toNat, a.toNat, b.toNat, 0, 2]
  | .mxsaveCkpt d a b => scBits 0x47 [5, 5, 5, 7, 3] [d.toNat, a.toNat, b.toNat, 0, 3]
  | .mxsaveKill d a b => scBits 0x47 [5, 5, 5, 7, 3] [d.toNat, a.toNat, b.toNat, 0, 4]
  | .mxsaveDrain d a b => scBits 0x47 [5, 5, 5, 7, 3] [d.toNat, a.toNat, b.toNat, 0, 5]
  | .keyldLoad d a b => scBits 0x48 [5, 5, 5, 9, 1] [d.toNat, a.toNat, b.toNat, 0, 0]
  | .keyldUnload d a b => scBits 0x48 [5, 5, 5, 9, 1] [d.toNat, a.toNat, b.toNat, 0, 1]
  | .scrubCore d a => scBits 0x49 [5, 5, 14, 1] [d.toNat, a.toNat, 0, 0]
  | .scrubTenant d a => scBits 0x49 [5, 5, 14, 1] [d.toNat, a.toNat, 0, 1]
  | .setest a => scBits 0x4A [5, 5, 15] [0, a.toNat, 0]
  | .perfrd d a i => scBits 0x4D [5, 5, 15] [d.toNat, a.toNat, i.toNat]
  | .hintPf a i => scBits 0x78 [5, 5, 15] [0, a.toNat, i.toNat]
  | .hintBl l o => scBits 0x79 [3, 1, 21] [l.toNat, 0, o.toNat]
  | .hint0 v => scBits 0x7A [25] [v.toNat]
  | .hint1 v => scBits 0x7B [25] [v.toNat]
  | .hint2 v => scBits 0x7C [25] [v.toNat]
  | .hint3 v => scBits 0x7D [25] [v.toNat]
  | .hint4 v => scBits 0x7E [25] [v.toNat]
  | .hint5 v => scBits 0x7F [25] [v.toNat]
  | _ => none


/-- LD and ST words of the encoder. -/
def encodeLdSt : Instr → Option (Nat × Nat)
  | .nop false y => ldstBits 0x01 y noCs [45] [0]
  | .shape y hd i => ldstBits 0x02 y noCs [4, 1, 4, 4, 32] [hd.toNat, 0, 0, i.toNat, 0]
  | .shapeMem y cs hd a => ldstBits 0x02 y cs [4, 1, 4, 4, 32] [hd.toNat, 1, a.toNat, 0, 0]
  | .adda y d a t te sh i => ldstBits 0x03 y noCs [4, 4, 4, 1, 3, 29] [d.toNat, a.toNat, t.toNat, te.toNat, sh.toNat, i.toNat]
  | .movaImm y d sh i => ldstBits 0x04 y noCs [4, 2, 39] [d.toNat, 0, joinN [3, 36] [sh.toNat, i.toNat]]
  | .movaGpos y d k => ldstBits 0x04 y noCs [4, 2, 39] [d.toNat, 1, joinN [36, 3] [0, k.toNat]]
  | .movaSp y cs d o => ldstBits 0x04 y cs [4, 2, 39] [d.toNat, 2, joinN [17, 22] [0, o.toNat]]
  | .movaReg y d a => ldstBits 0x04 y noCs [4, 2, 39] [d.toNat, 3, joinN [4, 35] [a.toNat, 0]]
  | .loopa y k ar ae st o => ldstBits 0x05 y noCs [2, 4, 1, 16, 1, 21] [k.toNat, ar.toNat, ae.toNat, st.toNat, 0, o.toNat]
  | .pref y cs h ag => ldstBits 0x06 y cs [4, 4, 4, 6, 1, 2, 4, 4, 2, 1, 1, 12] [h.toNat, ag.toNat, 0, 0, 0, 0, 0, 0, 0, 0, 0, 0]
  | .prefTensor y cs h ag => ldstBits 0x06 y cs [4, 4, 4, 6, 1, 2, 4, 4, 2, 1, 1, 12] [h.toNat, ag.toNat, 0, 0, 0, 0, 0, 0, 0, 0, 1, 0]
  | .tload w => formTBits 0x10 w 0 0 0 0 0
  | .tloadx w => formTBits 0x11 w 0 0 0 0 0
  | .gather w ai => formTBits 0x12 w ai.toNat 0 0 0 0
  | .cfill w => formTBits 0x13 w 0 0 0 0 0
  | .cfillPeer w pt => formTBits 0x13 w 0 0 pt.toNat 1 0
  | .pktTake y d => ldstBits 0x18 y noCs [4, 41] [d.toNat, 0]
  | .kvRes w bar => ldstBits 0x19 w.y w.cs [4, 4, 6, 4, 1, 2, 24]
      [w.ad.toNat, 0, w.tag.toNat, w.rq.toNat, barBen bar, barSel bar, 0]
  | .tstore w => formTBits 0x20 w 0 0 0 0 0
  | .scatter w ai => formTBits 0x21 w ai.toNat 0 0 0 0
  | .redm w op => formTBits 0x22 w 0 op.toNat 0 0 0
  | .pktEmit y cs a q l t f ar => ldstBits 0x28 y cs [4, 4, 4, 6, 1, 4, 22]
      [a.toNat, q.toNat, l.toNat, t.toNat, f.toNat, ar.toNat, 0]
  | .kvQry w => formKBits 0x30 w 0
  | .kvQryResume w => formKBits 0x30 w 0
  | .kvAppend w => formKBits 0x31 w 0
  | .kvDrop w => formKBits 0x33 w 0
  | .kvDropAll w => formKBits 0x33 w 0
  | .kvCommit w => formKBits 0x34 w 0
  | .kvIxlook w => formKBits 0x35 w 0
  | .kvIxins w => formKBits 0x36 w 0
  | .kvRepairOpen w => formKBits 0x37 w 0
  | .kvRepairCmp w => formKBits 0x37 w 0
  | .kvRepairApply w => formKBits 0x37 w 0
  | .kvRepairAbort w => formKBits 0x37 w 0
  | .kvPagein w => formKBits 0x38 w 0
  | .kvSplice w ag => formKBits 0x32 w ag.toNat
  | .install y cs ad t => ldstBits 0x3C y cs [4, 4, 6, 31] [ad.toNat, 0, t.toNat, 0]
  | .installQuery y cs ad t => ldstBits 0x3C y cs [4, 4, 6, 31] [ad.toNat, 0, t.toNat, 0]
  | .installRelease y cs ad t => ldstBits 0x3C y cs [4, 4, 6, 31] [ad.toNat, 0, t.toNat, 0]
  | _ => none


/-- Matrix words of the encoder. -/
def encodeCmMat : Instr → Option (Nat × Nat)
  | .nop true y => cmBits 0x01 y noCs [109] [0]
  | .mlease y => cmBits 0x08 y noCs [109] [0]
  | .mrel y => cmBits 0x09 y noCs [109] [0]
  | .mma w => formMmaBits 0x10 w
  | .mmaz w => formMmaBits 0x11 w
  | .mhrot w => cmBits 0x12 w.y w.cs [2, 4, 2, 3, 2, 1, 1, 6, 22, 1, 5, 60]
      [w.acc.toNat, w.caM1.toNat, w.ord64.toNat, w.dg.toNat, w.koff.toNat, 0, w.asrc.toNat, w.astrM1.toNat, w.a.off.toNat,
       w.a.xe.toNat, w.a.xr.toNat, 0]
  | .mhrotS256 y => cmBits 0x12 y noCs [2, 4, 2, 3, 2, 1, 1, 6, 22, 1, 5, 60] [0, 0, 2, 0, 0, 0, 0, 0, 0, 0, 0, 0]
  | .swing y n => cmBits 0x13 y noCs [24, 85] [n.toNat, 0]
  | .mdrain w => cmBits 0x14 w.y w.cs [2, 8, 3, 4, 2, 1, 6, 22, 1, 5, 55]
      [w.acc.toNat, w.fmt.toNat, w.rnd.toNat, w.dist.toNat, w.lay.toNat, w.clr.toNat, w.dstrM1.toNat, w.d.off.toNat,
       w.d.xe.toNat, w.d.xr.toNat, 0]
  | .mbyp w => cmBits 0x15 w.y noCs [2, 8, 3, 4, 1, 91]
      [w.acc.toNat, w.fmt.toNat, w.rnd.toNat, w.dist.toNat, w.clr.toNat, 0]
  | .mpeer w => cmBits 0x16 w.y w.cs [2, 2, 22, 1, 5, 22, 1, 54]
      [w.acc.toNat, w.tier.toNat, w.d.off.toNat, w.d.xe.toNat, w.d.xr.toNat, barSel w.bar, barBen w.bar, 0]
  | .maccld w => cmBits 0x17 w.y w.cs [2, 1, 2, 6, 22, 1, 5, 70]
      [w.acc.toNat, w.add.toNat, w.kind.toNat, w.sstrM1.toNat, w.s.off.toNat, w.s.xe.toNat, w.s.xr.toNat, 0]
  | .mclr y m b => cmBits 0x18 y noCs [4, 1, 104] [m.toNat, b.toNat, 0]
  | _ => none


/-- Vector words of the encoder. -/
def encodeCmVec : Instr → Option (Nat × Nat)
  | .vadd w => formVBits 0x20 w
  | .vsub w => formVBits 0x21 w
  | .vmul w => formVBits 0x22 w
  | .vmulHi w => formVBits 0x22 w
  | .vfma w => formVBits 0x23 w
  | .vmin w => formVBits 0x24 w
  | .vmax w => formVBits 0x25 w
  | .vand w => formVBits 0x26 w
  | .vor w => formVBits 0x27 w
  | .vxor w => formVBits 0x28 w
  | .vnot w => formVBits 0x29 w
  | .vandMask w => formVBits 0x26 w
  | .vorMask w => formVBits 0x27 w
  | .vxorMask w => formVBits 0x28 w
  | .vnotMask w => formVBits 0x29 w
  | .vshl w => formVBits 0x2A w
  | .vshr w => formVBits 0x2B w
  | .vsar w => formVBits 0x2C w
  | .vfshl w => formVBits 0x2D w
  | .vfshr w => formVBits 0x2E w
  | .vclz w => formVBits 0x2F w
  | .vpopc w => formVBits 0x30 w
  | .vcmp w => formVBits 0x31 w
  | .vsel w => formVBits 0x32 w
  | .vmov w => formVBits 0x33 w
  | .vmovFromMask w => formVBits 0x33 w
  | .vmovToMask w => formVBits 0x33 w
  | .vbcast w => formVBits 0x34 w
  | .vperm w => formVBits 0x35 w
  | .vcompress w => formVBits 0x36 w
  | .vexpand w => formVBits 0x37 w
  | .vred w => formVBits 0x38 w
  | .vgred w => formVBits 0x39 w
  | .vscan w => formVBits 0x3A w
  | .vexp2 w => formVBits 0x3B w
  | .vlog2 w => formVBits 0x3C w
  | .vrcp w => formVBits 0x3D w
  | .vrsq w => formVBits 0x3E w
  | .vpack w => formVBits 0x40 w
  | .vunpack w => formVBits 0x41 w
  | .vcvtRaw w => formCBits 0 w
  | .vcvtToDesc w => formCBits 1 w
  | .vcvtFromDesc w => formCBits 2 w
  | .vcvtDescDesc w => formCBits 3 w
  | .vld w => formMBits 0x48 w
  | .vst w => formMBits 0x49 w
  | .vldu w => formMBits 0x4A w
  | .vstu w => formMBits 0x4B w
  | .vgath w => formMBits 0x4C w
  | .vscat w => formMBits 0x4D w
  | .vbtest w => formMBits 0x4E w
  | _ => none


/-- The word of an instruction: its length in bits and its bits. Device steps have none. -/
def encode (i : Instr) : Option (Nat × Nat) :=
  match encodeSc i with
  | some w => some w
  | none =>
    match encodeLdSt i with
    | some w => some w
    | none =>
      match encodeCmMat i with
      | some w => some w
      | none => encodeCmVec i

/-- The row a shared word decodes to before its descriptor is read (R273, R279, R288, R296, R401). -/
def Instr.carrier : Instr → Instr
  | .kvQryResume w => .kvQry w
  | .kvDropAll w => .kvDrop w
  | .kvRepairCmp w | .kvRepairApply w | .kvRepairAbort w => .kvRepairOpen w
  | .installQuery y cs ad t | .installRelease y cs ad t => .install y cs ad t
  | i => i

end Sys2Proof
end

