-- ==== Sys2Proof/Machine/Maps.lean ====
section
/-! DEFINITION. Sparse maps as plain data: lists of (key, value) with strictly rising keys. `AMap.set` keeps a map
canonical (an entry equal to the default is removed), which is the form memory takes; `AMap.put` keeps every entry. -/

namespace Sys2Proof.Machine

/-- A sparse map from numbers: strictly rising keys. -/
abbrev AMap (β : Type) := List (Nat × β)

/-- The value at key `k`, `d` when it is not listed. -/
def AMap.get {β : Type} (d : β) (m : AMap β) (k : Nat) : β :=
  match m with
  | [] => d
  | (k', v) :: r => if k = k' then v else AMap.get d r k

/-- The value at key `k`, if listed. -/
def AMap.find {β : Type} (m : AMap β) (k : Nat) : Option β :=
  match m with
  | [] => none
  | (k', v) :: r => if k = k' then some v else AMap.find r k

/-- The map without key `k`. -/
def AMap.erase {β : Type} (m : AMap β) (k : Nat) : AMap β :=
  match m with
  | [] => []
  | (k', v) :: r => if k = k' then AMap.erase r k else (k', v) :: AMap.erase r k

/-- The map with `v` at key `k`. -/
def AMap.put {β : Type} (m : AMap β) (k : Nat) (v : β) : AMap β :=
  match m with
  | [] => [(k, v)]
  | (k', v') :: r =>
    if k < k' then (k, v) :: (k', v') :: r else if k = k' then (k, v) :: r else (k', v') :: AMap.put r k v

/-- The map with `v` at key `k`, in canonical form: no entry equal to the default `d`. -/
def AMap.set {β : Type} [DecidableEq β] (d : β) (m : AMap β) (k : Nat) (v : β) : AMap β :=
  if v = d then m.erase k else m.put k v

/-- Keys strictly rising from above `lo`. -/
def AMap.sortedFrom {β : Type} (lo : Nat) : AMap β → Bool
  | [] => true
  | (k, _) :: r => decide (lo ≤ k) && AMap.sortedFrom (k + 1) r

/-- The canonical form: keys strictly rising, no entry equal to the default. -/
def AMap.wf {β : Type} [DecidableEq β] (d : β) (m : AMap β) : Bool :=
  AMap.sortedFrom 0 m && m.all (fun e => decide (e.2 ≠ d))

/-- Memory of one space: bytes by address, unlisted bytes reading zero (log 1). -/
abbrev Memory := List Host.Cell

/-- One byte of memory. -/
def Memory.read (m : Memory) (a : Nat) : Byte := AMap.get (0 : Byte) m a

/-- Memory with one byte written. -/
def Memory.write (m : Memory) (a : Nat) (b : Byte) : Memory := AMap.set (0 : Byte) m a b

/-- The canonical form of memory. -/
def Memory.wf (m : Memory) : Bool := AMap.wf (0 : Byte) m

/-- `n` bytes from address `a` upward. -/
def Memory.readN (m : Memory) (a : Nat) : Nat → List Byte
  | 0 => []
  | n + 1 => Memory.read m a :: Memory.readN m (a + 1) n

/-- Bytes written from address `a` upward. -/
def Memory.writeN (m : Memory) (a : Nat) : List Byte → Memory
  | [] => m
  | b :: r => Memory.writeN (Memory.write m a b) (a + 1) r

end Sys2Proof.Machine
end

