-- ==== Sys2Proof/Machine/State.lean ====
section
/-! DEFINITION. The state of one DU5 as plain data: every piece of state the spec names, the reasons a step can stop,
and the state right after reset. Fields that are the model's own and not the spec's are `cur`, `agenda`, `fresh` and
`nextId` (logs 2 and 3). -/

namespace Sys2Proof.Machine

/-- Reasons the machine stops with a fault. -/
inductive Fault where
  /-- Raised by `step` on a device that is not booted and whose boot ROM refuses every firmware image (R425), with no move of
  the outside at hand: the spec gives the DU5 no behaviour without firmware. Safe: the model stops. -/
  | noFirmware
  deriving DecidableEq, Repr

/-- Reasons a step has no meaning. -/
inductive Refusal where
  /-- An instruction the model has no meaning for; raised by `exec`'s refused arms only. Safe. -/
  | notModelled (mnemonic : String)
  /-- A fetched word that is no instruction of its section; raised by `step`. The scanner keeps such words from ever
  being fetched and the spec gives them no behaviour (R51, R62). Safe. -/
  | illegalWord
  /-- An instruction met by an agent that does not have it: a stream word on the housekeeping processor, or an S word or
  the word of another section on a stream. The scanner refuses it (R356, R355, R61), so the spec gives it no behaviour.
  Safe. -/
  | wrongAgent
  deriving DecidableEq, Repr

/-- Who issues the next word: a sequencer of a stream slot, or the housekeeping processor. -/
inductive Agent where
  | seq (q : SeqId)
  | hk
  deriving DecidableEq, Repr

/-- One entry of the agenda: how many core cycles pass, and then whose move it is: an agent's next word, a step of the device (log 2), or a
notice that system software raises for a micro-context at a generation (R349, log 61). -/
inductive Move where
  | agent (a : Agent)
  | event (e : Instr)
  | notice (mx gen : Nat)
  deriving DecidableEq, Repr

structure Turn where
  cycles : Nat
  move : Move
  deriving DecidableEq, Repr

/-- How often a block runs (R36, Table 3.5). -/
inductive Rep where
  | times (n : Nat)
  | lc (k : Nat)
  deriving DecidableEq, Repr

/-- A block header's fields (Table 2.6). -/
structure Header where
  len : Nat
  popp : Nat
  popn : Nat
  pushp : Nat
  pushn : Nat
  wmode : Nat
  wtm : Nat
  wbar : Option Nat
  leave : Nat
  tend : Bool
  rep : Rep
  lease : Bool
  mcnt : Nat
  deriving DecidableEq, Repr

def Header.none : Header :=
  { len := 0, popp := 0, popn := 0, pushp := 0, pushn := 0, wmode := 0, wtm := 0, wbar := Option.none, leave := 0,
    tend := false, rep := .times 1, lease := false, mcnt := 0 }

/-- Where a sequencer of a stream stands (R32, R36, R37). -/
inductive Phase where
  /-- No team holds the slot. -/
  | unbound
  /-- Before a header: the block is not admitted yet. -/
  | waiting
  /-- In an admitted block instance. -/
  | running
  /-- Its TEND block is complete; it waits for the other three (R32). -/
  | ended
  deriving DecidableEq, Repr

/-- A shape register: the fields of Table 10.1 with LOADED (R234). -/
structure Shape where
  loaded : Bool
  gpitch : Nat
  spitch : Nat
  rowb : Nat
  rows : Nat
  fmt : BitVec 8
  deriving DecidableEq, Repr

def Shape.none : Shape := { loaded := false, gpitch := 0, spitch := 0, rowb := 0, rows := 0, fmt := 0 }

/-- One sequencer of a stream: program counter, block instance, remaining reservations (R36 to R39), the waits of its
next block (R38, R43, R317), and the registers LD and ST hold (R233). -/
structure Seqr where
  phase : Phase
  pc : Word
  hdrPc : Word
  hdr : Header
  /-- The header has been reached and its repeat count read (R36). -/
  reached : Bool
  /-- The LC registers as they stood when the sequencer arrived at a header that it could not read yet (R36). -/
  lcAt : Option (AMap (BitVec 32))
  /-- Words left in the running instance. -/
  left : Nat
  /-- Instances of the block still to run, the running one included. -/
  reps : Nat
  popP : Nat
  popN : Nat
  pushP : Nat
  pushN : Nat
  /-- Stopped at a held word, header or consuming point (R381). -/
  stopped : Bool
  /-- Cycle from which the next instance has been admissible (R43). -/
  since : Option Nat
  /-- Picked ahead of all others after 4,096 cycles (R43). -/
  escape : Bool
  /-- Cycle at which YIELD gave way (R230). -/
  yielded : Option Nat
  /-- Leave request posted at this cycle (R317). -/
  leaveAsked : Option Nat
  leaveAged : Bool
  /-- Leave class granted, held until the instance ends (R419). -/
  leaveHeld : Option Nat
  a : AMap Word
  h : AMap Shape
  deriving DecidableEq, Repr

def Seqr.reset : Seqr :=
  { phase := .unbound, pc := 0, hdrPc := 0, hdr := Header.none, reached := false, lcAt := none, left := 0, reps := 0, popP := 0,
    popN := 0, pushP := 0, pushN := 0, stopped := false, since := none, escape := false, yielded := none,
    leaveAsked := none, leaveAged := false, leaveHeld := none, a := [], h := [] }

/-- A token queue (R34). -/
structure TokQ where
  c : Nat
  pr : Nat
  ur : Nat
  deriving DecidableEq, Repr

def TokQ.reset : TokQ := { c := 0, pr := 0, ur := 0 }

/-- Tokens to be produced once the accesses made before them have been performed (R39, R189): queue, count, whether by a
block-end settlement or a push-after mark, the sequencer, and the operation number below which its scalar accesses and
peer images must be complete. -/
structure Push where
  queue : Nat
  n : Nat
  settle : Bool
  sec : Section
  before : Nat
  deriving DecidableEq, Repr

/-- A pending error of a tag (R241, R275): the fault record's code, reason, operand, coordinates and addresses, to be
raised at the stream's first consuming point. -/
structure PendErr where
  code : Nat
  reason : Nat
  opnd : Nat
  stglv : Nat
  coord0 : Nat
  coord1 : Nat
  space : Nat
  addr : Nat
  baddr : Option Nat
  deriving DecidableEq, Repr

/-- A result entry (R275). -/
inductive ResEntry where
  | free
  | posted
  | done (record : List Byte)
  deriving DecidableEq, Repr

/-- A SWING that waits for its conditions (R111): its SYNC marks, COUNT, and the cycle of its issue; the tokens its pop-before marks have
consumed from the two inbound queues (R53), and whether its team owns the casement by this SWING alone (R97). -/
structure SwingWait where
  y : Sync
  count : Nat
  start : Nat
  popP : Nat
  popN : Nat
  took : Bool
  deriving DecidableEq, Repr

/-- A scratchpad bank that a window or an access uses: its core, its number there, and the OWNGEN of its assignment (R155). -/
structure BankUse where
  core : Nat
  bank : Nat
  gen : Nat
  deriving DecidableEq, Repr

/-- The state of one stream slot (Table 2.4 and the per-stream control registers of Table 9.6). -/
structure Stream where
  mx : Option Nat
  tsidx : Nat
  tier : Nat
  coff : Nat
  /-- Number of the launch the stream belongs to: the model's own mark, by which what is on its way finds its stream. -/
  launch : Nat
  sc : Seqr
  ld : Seqr
  cm : Seqr
  st : Seqr
  g : AMap Word
  p : AMap Bool
  v : AMap VReg
  m : AMap Word
  /-- Element (i, j) of accumulator n at key 4096 n + 64 i + j. -/
  acc : AMap Acc48
  /-- A-bypass slots; an empty slot is the zero block, F = 0 (R100). -/
  byp : AMap Blk
  tq : AMap TokQ
  tm : AMap Word
  tagrdy : Word
  tagcnt : AMap Nat
  tagerr : AMap PendErr
  bw : AMap Word
  /-- The watch registers that a PB.ARRIVE is still to write (R221). -/
  bwOwed : List Nat
  lc : AMap (BitVec 32)
  gpos : AMap (BitVec 24)
  flags : BitVec 7
  flagEn : BitVec 7
  dph : BitVec 6
  dstep : BitVec 6
  hrseed : BitVec 32
  rpth : BitVec 32
  res : AMap ResEntry
  /-- Window banks in order, with the OWNGEN of their assignment (R153, R155). -/
  banks : List BankUse
  /-- The window is described (R154). -/
  desc : Bool
  /-- Tile-tasks taken so far: the running one has index `task - 1` (R28, R32). -/
  task : Nat
  halted : Bool
  held : Bool
  /-- DCLK of its latest fault (R394). -/
  heldAt : Nat
  /-- The stream is at a tile-task boundary and does not start another (R33, R314). -/
  atBoundary : Bool
  finished : Bool
  swing : Option SwingWait
  /-- Cycle since which an MMA waits for a refresh window (R98). -/
  refreshWait : Option Nat
  pushes : List Push
  deriving DecidableEq, Repr

def Stream.reset : Stream :=
  { mx := none, tsidx := 0, tier := 0, coff := 0, launch := 0, sc := Seqr.reset, ld := Seqr.reset, cm := Seqr.reset,
    st := Seqr.reset, g := [], p := [], v := [], m := [], acc := [], byp := [], tq := [], tm := [], tagrdy := 0,
    tagcnt := [], tagerr := [], bw := [], bwOwed := [], lc := [], gpos := [], flags := 0, flagEn := 0, dph := 0, dstep := 17,
    hrseed := 1, rpth := 0x3C000000, res := [], banks := [], desc := false, task := 0, halted := false, held := false, heldAt := 0,
    atBoundary := false, finished := false, swing := none, refreshWait := none, pushes := [] }

/-- The matrix lease of a core (R40, R38, R102, R106). -/
structure Lease where
  holder : Option Nat
  start : Nat
  count : Nat
  /-- Slots with a request that a LEASE block posted, which its conditions withdraw (R38). -/
  asks : List Nat
  /-- Slots with a request that MLEASE posted, which stands until it is granted or MREL withdraws it (R106). -/
  posted : List Nat
  /-- Granted, and no block of the holder has been admitted since. -/
  unused : Bool
  /-- Cycle since which the holder has had no block admitted. -/
  idleSince : Option Nat
  /-- Cycle since which the lease is held for a block that is not admissible (R38). -/
  holdSince : Option Nat
  last : Nat
  release : Bool
  deriving DecidableEq, Repr

def Lease.reset : Lease :=
  { holder := none, start := 0, count := 0, asks := [], posted := [], unused := false, idleSince := none, holdSince := none, last := 7,
    release := false }

/-- The casement of a core (R97 to R99, R340). -/
structure Casement where
  owner : Option Nat
  front : Bool
  valF : Bool
  valB : Bool
  fcnt : Nat
  pane0 : Memory
  pane1 : Memory
  priv0 : Bool
  priv1 : Bool
  /-- Blocks of each pane whose data is uncorrectable (R416). -/
  bad0 : List Nat
  bad1 : List Nat
  /-- Those of them that were uncorrectable already when a spare row took the place of theirs (R413). -/
  carried0 : List Nat
  carried1 : List Nat
  /-- Swings made so far: the model's own mark, by which a fill knows whether its pane is still the back pane (R249). -/
  swings : Nat
  deriving DecidableEq, Repr

def Casement.reset : Casement :=
  { owner := none, front := false, valF := false, valB := false, fcnt := 0, pane0 := [], pane1 := [], priv0 := false,
    priv1 := false, bad0 := [], bad1 := [], carried0 := [], carried1 := [], swings := 0 }

/-- A final translation, as the TLB caches it and as an access or copy holds it (R166, R238, R330): the page of the smaller size,
and the pages of its two contributions, the stage-1 page by VA and the stage-2 page by IPA, each with its size. -/
structure TlbEntry where
  part : Nat
  mx : Nat
  va : Nat
  size : Nat
  ipa : Nat
  pa : Nat
  rd : Bool
  w : Bool
  x : Bool
  desc : Bool
  enc : Bool
  page1 : Nat × Nat
  page2 : Nat × Nat
  /-- Physical ranges of it that a RELEASE has taken away since it was made: base and bytes (R406). -/
  gone : List (Nat × Nat) := []
  deriving DecidableEq, Repr

/-- An entry of a core's walk cache (R330): the table that a walk of a micro-context came to, from the entry at a level of a stage that
serves the addresses whose bits above the level's index and that index make up `tag`. -/
structure WalkEntry where
  part : Nat
  mx : Nat
  stage : Nat
  level : Nat
  tag : Nat
  table : Nat
  deriving DecidableEq, Repr

/-- A region of a core's shutter store (R15, R385): whose team it holds a share of, and its first unit and its size in units of 64 KiB. -/
structure ShutRegion where
  mx : Nat
  units : Nat
  base : Nat
  deriving DecidableEq, Repr

/-- A bank's owner tag (R155, Table 7.2). -/
structure BankTag where
  valid : Bool
  slot : Nat
  gen : BitVec 16
  deriving DecidableEq, Repr

def BankTag.reset : BankTag := { valid := false, slot := 0, gen := 0 }

/-- One core (R15). -/
structure Core where
  streams : AMap Stream
  /-- Byte o of bank b at address 65,536 b + o. -/
  sp : Memory
  tags : AMap BankTag
  /-- GRANTED sills: key 16 bank + sill, value the copy's number (R157). -/
  sills : AMap Nat
  cw : Casement
  /-- Rows of the casement's panes that spare rows have replaced: the pane, and the row (R413). -/
  rows : List (Bool × Nat)
  /-- Corrected errors met in rows of the panes: the pane, the row, and the device clock (R413, R416). -/
  rowErrs : List (Bool × Nat × Nat)
  /-- The same of the shutter store: rows replaced, and corrected errors with their rows and the device clock. -/
  shutRows : List Nat
  shutErrs : List (Nat × Nat)
  /-- Blocks of the shutter store whose data is uncorrectable (R416), and those that were so already when a spare row took the place of theirs. -/
  shutBad : List Nat
  shutCarried : List Nat
  /-- Blocks of the scratchpad, by address / 64, whose data is uncorrectable (R416). -/
  spBad : List Nat
  /-- Cycle of the core's reset; RT counts from it (R98). -/
  rt0 : Nat
  signSeed : BitVec 32
  signRegen : Option Nat
  lease : Lease
  tlb : List TlbEntry
  wcache : List WalkEntry
  /-- The shutter store, 4 MiB in all: its regions in use (R385). -/
  shutter : List ShutRegion
  wth : BitVec 32
  /-- Slots, banks, units of the shutter store and casement being scrubbed, not free yet (R338, R367). -/
  scrubSlots : List Nat
  scrubBanks : List Nat
  scrubShut : Nat
  scrubCw : Bool
  /-- Slot last picked by each sequencer, key the section's code (R43). -/
  rr : AMap Nat
  /-- Brick-array upsets still to be met by the next command's tries: a hardware event (R91). -/
  upset : Nat
  deriving DecidableEq, Repr

def Core.reset : Core :=
  { streams := [], sp := [], tags := [], sills := [], cw := Casement.reset, rows := [], rowErrs := [], shutRows := [], shutErrs := [], shutBad := [], shutCarried := [],
    spBad := [], rt0 := 0, signSeed := 1, signRegen := none,
    lease := Lease.reset, tlb := [], wcache := [], shutter := [], wth := 0xC350, scrubSlots := [], scrubBanks := [], scrubShut := 0,
    scrubCw := false, rr := [], upset := 0 }

/-- A tier's power governor (R317, R419). -/
structure Tier where
  level : Nat
  lastStep : Option Nat
  /-- Sensors that have crossed their warm threshold upward and have not been found 3 °C below it since. -/
  hot : List Nat
  /-- Upward crossings whose step the rule of 8,192 cycles has put off. -/
  due : Nat
  deriving DecidableEq, Repr

def Tier.reset : Tier := { level := 0, lastStep := none, hot := [], due := 0 }

/-- A mullion slot-table entry (Table 17.4). -/
structure MullSlot where
  valid : Bool
  tier : Nat
  mx : Nat
  deriving DecidableEq, Repr

def MullSlot.reset : MullSlot := { valid := false, tier := 0, mx := 0 }

/-- A stream of a team, wherever its state stands: its micro-context, tier, column offset in the tile group, team stream
index, and the number of its launch. -/
structure StreamRef where
  mx : Nat
  tier : Nat
  coff : Nat
  ts : Nat
  launch : Nat
  deriving DecidableEq, Repr

/-- A launch record as read and checked at binding (Table 2.2). -/
structure LaunchRec where
  rstrt : Bool
  ckpt : Bool
  drain : Bool
  tgcols : Nat
  nstrm : Nat
  spbanks : Nat
  codeSc : Word
  codeLd : Word
  codeCm : Word
  codeSt : Word
  /-- Level descriptors: COUNT and DOM, innermost first. -/
  levels : List (Nat × Nat)
  shapes : List Shape
  lorder : Word
  nlayers : Nat
  est0 : Nat
  deriving DecidableEq, Repr

/-- A declared tensor (Table 7.7). -/
structure Tensor where
  tid : Nat
  shape : Nat
  base : Word
  pitch : Nat
  rowb : Nat
  rows : Nat
  deriving DecidableEq, Repr

/-- A team bound to a tile group (R30): stack and first logical column, the outer level indices fixed at binding (R28),
and the layer-order list as the cold-start engine read it then (R318): the range of each entry, none where it is skipped. -/
structure Team where
  lr : LaunchRec
  stack : Nat
  col : Nat
  outer : List Nat
  layers : List (Option (Nat × Nat))
  deriving DecidableEq, Repr

/-- Micro-context states (Table 2.1), with the codes of MXST (Table 19.2). -/
inductive MxSt where
  | free | idle | ready | bound | swapped | saved | paused | faulted
  deriving DecidableEq, Repr

/-- Why a team is being stopped or saved (R314, R316, R46). -/
inductive EndKind where
  | ckpt | drain | kill | swap | terminal
  deriving DecidableEq, Repr

/-- A saved team (R386): each stream with its window bytes, whether the image is still in the shutter stores, whether
the save-area drain has ended, the generation at the report. -/
structure Image where
  kind : EndKind
  streams : List (Stream × Memory)
  inShutter : Bool
  drained : Bool
  gen : BitVec 32
  stamp : Nat
  /-- Casements a migration carries, with column offset and tier (R103). -/
  panes : List (Nat × Nat × Casement)
  /-- The team came with a migration and has no tile group here yet (log 58). -/
  homeless : Bool
  deriving DecidableEq, Repr

/-- The drain of a saved image from the shutter stores to its save area (R385 step 7): the header's fields of Table 20.4, and the
translations of the area that the save held at its report. -/
structure Drain where
  pages : List TlbEntry
  kind : EndKind
  gen : BitVec 32
  stamp : Nat
  bytes : Nat
  tgrp : Nat
  deriving DecidableEq, Repr

/-- A block-transfer channel (Table 10.6). -/
structure Chan where
  ttbl : Word
  rbase : Word
  wake : Bool
  logn : Nat
  rhead : BitVec 32
  rtail : BitVec 32
  wbar : Word
  ovf : BitVec 16
  inflt : Nat
  deriving DecidableEq, Repr

def Chan.reset : Chan :=
  { ttbl := 0, rbase := 0, wake := false, logn := 0, rhead := 0, rtail := 0, wbar := 0, ovf := 0, inflt := 0 }

/-- The running state of one row and head of a query (R284, R285): m, l and o as FP32 words; `none` is the empty
state. -/
structure RowState where
  m : BitVec 32
  l : BitVec 32
  o : List (BitVec 32)
  deriving DecidableEq, Repr

/-- One row of a query: the slot it reads, its position pq, the document start, and the number of rows and position
limit it was issued under (R282, R283). -/
structure QRow where
  slot : Nat
  pq : Int
  ds : Nat
  npos : Nat
  deriving DecidableEq, Repr

/-- The page kinds of a page vector (R267). -/
inductive PageKind where
  | loc
  | shared (blk : Nat)
  | tier (pa : Nat)
  | empty
  deriving DecidableEq, Repr

/-- A query's page: slot, page index, the kind and valid mask fixed at the query's place (R269), and the row and head
pairs, r × NH + (h − H0), whose page state is still to be merged. -/
structure QPage where
  slot : Nat
  page : Nat
  kind : PageKind
  mask : BitVec 256
  left : List Nat
  deriving DecidableEq, Repr

/-- A query in progress or kept in a resume record (R282 to R288). -/
structure Query where
  arena : Nat
  layer : Nat
  ord : Bool
  split : Bool
  out32 : Bool
  h0 : Nat
  nh : Nat
  mkind : Nat
  win : Nat
  rows : List QRow
  /-- Q rows, BF16 elements, in order r × NH + (h − H0). -/
  q : List (List (BitVec 16))
  pages : List QPage
  states : List (Option RowState)
  flags : BitVec 7
  tierMet : Nat
  deriving DecidableEq, Repr

/-- A resume record (R288): its generation and query; `used` while a resumed query continues it; the micro-context's generation at
the query's issue, for its PIN events (R349). -/
structure Resume where
  gen : BitVec 16
  q : Query
  used : Bool
  mgen : Nat
  deriving DecidableEq, Repr

/-- Where the reply to a ring entry goes (R255, R303): port, flow and session of the message, none for an entry of SRC 4 or 5. -/
structure Origin where
  port : Nat
  flow : BitVec 320
  sess : Nat
  deriving DecidableEq, Repr

/-- A micro-context: the record of Table 19.2 and what the DU5 keeps with it. -/
structure Mx where
  st : MxSt
  flg : BitVec 8
  part : Nat
  prio : Nat
  tenant : BitVec 16
  kslot : Nat
  gen : BitVec 32
  mslots : Nat
  rlog : Nat
  hometg : BitVec 16
  s1root : Word
  lrptr : Word
  rbase : Word
  head : Word
  /-- Reply origins by ring entry. -/
  origins : AMap Origin
  period : BitVec 32
  budget : BitVec 32
  rem : BitVec 32
  est : BitVec 32
  deadline : Word
  toff : Word
  evaddr : Word
  pegen : BitVec 16
  pebits : BitVec 6
  /-- The word was kept after a write that faulted at a binding: PEGEN follows the generation (R350 rule 5). The model's own mark. -/
  pekept : Bool
  perfaddr : Word
  sigptr : Word
  savea : Word
  /-- The translations of the save area that a save holds (R385 step 1). -/
  savePages : List TlbEntry
  drain : Option Drain
  cnt : AMap Word
  meas : BitVec 256
  /-- Cycles BOUND not yet charged to REM, below 64 (R310). -/
  remFrac : Nat
  t0 : Word
  lr : Option LaunchRec
  team : Option Team
  /-- Tile group held at the last release (R306). -/
  lastTg : Option (Nat × Nat)
  /-- Group the dispatcher has reserved (R307, R315). -/
  reserved : Option (Nat × Nat)
  notified : Bool
  ending : Option EndKind
  image : Option Image
  tensors : List Tensor
  resumes : AMap Resume
  resGen : BitVec 16
  chans : AMap Chan
  ctr : AMap Word
  prev : MxSt
  exported : Bool
  lastAdmit : Nat
  returnedAt : Option Nat
  /-- The next layer-order entry of the cold-start engine, and the number of the highest entry accessed, from 1; 0 for none (R318). -/
  coldNext : Nat
  coldHigh : Nat
  /-- Idle and busy cycle counts of R322, key 16 phase + 2 unit + kind. -/
  busy : AMap (BitVec 32)
  /-- Device clock at which the matrix array, and the vector unit, have performed what they were given (R322). -/
  matTo : Nat
  vecTo : Nat
  estSet : Bool
  /-- Shared counters as they stood at MXBIND, from which they count (R370). -/
  sharedBase : AMap Nat
  /-- REM has reached 0 while BOUND in this period, and the overrun trap of it has been raised (R311). -/
  ranOut : Bool
  overran : Bool
  /-- Frames write-locked under SIGCHK (R376). -/
  locks : List Nat
  deriving DecidableEq, Repr

def Mx.reset : Mx :=
  { st := .free, flg := 0, part := 0, prio := 0, tenant := 0, kslot := 0, gen := 0, mslots := 0, rlog := 0,
    hometg := 0, s1root := 0, lrptr := 0, rbase := 0, head := 0, origins := [], period := 0, budget := 0, rem := 0, est := 0,
    deadline := 0, toff := 0, evaddr := 0, pegen := 0, pebits := 0, pekept := false, perfaddr := 0, sigptr := 0, savea := 0, savePages := [], drain := none, cnt := [],
    meas := 0, remFrac := 0, t0 := 0, lr := none, team := none, lastTg := none, reserved := none, notified := false,
    ending := none, image := none, tensors := [], resumes := [], resGen := 0, chans := [], ctr := [], prev := .free,
    exported := false, lastAdmit := 0, returnedAt := none, coldNext := 0, coldHigh := 0, busy := [], matTo := 0, vecTo := 0, estSet := false,
    sharedBase := [], ranOut := false, overran := false, locks := [] }

/-- A partition record (Table 18.2). -/
structure Partition where
  active : Bool
  paused : Bool
  /-- A pause is under way: its teams are stopping (R353). -/
  pausing : Bool
  /-- Imported from another DU5 and not resumed yet (R349). -/
  imported : Bool
  s2root : Word
  cola : Word
  colb : Word
  waymask : BitVec 16
  dlog : Bool
  dbase : Word
  dlen : BitVec 32
  /-- Messages the source ingress holds during a migration pause (R353), and the messages dropped beyond 64. -/
  heldMsgs : List (List Byte)
  migDrops : Nat
  /-- The held messages go on to the target of an export. -/
  forwarding : Bool
  deriving DecidableEq, Repr

def Partition.reset : Partition :=
  { active := false, paused := false, pausing := false, imported := false, s2root := 0, cola := 0, colb := 0, waymask := 0, dlog := false, dbase := 0,
    dlen := 0, heldMsgs := [], migDrops := 0, forwarding := false }

/-- A key slot (Table 18.4) with its key material and the reply counts kept under it (R332, R423). -/
structure KeySlot where
  /-- 0 EMPTY, 1 LOADED, 2 RETIRING. -/
  st : Nat
  kgen : BitVec 16
  tenant : BitVec 16
  k1 : BitVec 128
  k2 : BitVec 128
  kg : BitVec 128
  /-- Reply count by SESS bits 30:0. -/
  ivs : AMap Nat
  deriving DecidableEq, Repr

def KeySlot.reset : KeySlot := { st := 0, kgen := 0, tenant := 0, k1 := 0, k2 := 0, kg := 0, ivs := [] }

/-- A code segment (R50, R51, R373): who may fetch it, where it lies, its scanned headers. -/
structure Segment where
  mx : Nat
  sec : Section
  level : Bool
  base : Word
  len : Nat
  /-- Physical frame of each 4 KiB of the segment in order. -/
  frames : List Nat
  /-- Virtual address of the page that holds each 4 KiB, as SEGREG translated it (R62). -/
  pageVas : List Nat
  /-- Executable: the scan has passed. -/
  ok : Bool
  hash : BitVec 256
  /-- Word indices of the segment's block headers (R60). -/
  headers : List Nat
  /-- PA for a code-scan record (R373). -/
  recPa : Nat
  /-- Frames that are private pages of the registering micro-context (R333). -/
  priv : List Nat
  /-- The first page whose frame belongs to another segment or is mapped writable (reason 0x11). -/
  badFrame : Option Nat
  /-- Micro-contexts that have fetched from it (R51). -/
  fetched : List Nat
  deriving DecidableEq, Repr

/-- Operations of a scalar request at its home. -/
inductive ReqOp where
  | load (sz : Nat)
  | store (sz : Nat) (data : Word)
  | atomic (op : BitVec 4) (sz : Nat) (x y : Word) (ret : Bool)
  | pbInit (expa expb : Nat) (bad : Bool)
  | pbArrive (n : Nat) (bad : Bool)
  | pbExpect (b : Nat) (bad : Bool)
  | pbTest
  | pbCredit (b : Nat)
  /-- An arrival that a unit of the device makes for a finished operation: a block transfer (R260), or with `st` an operation of ST (R405). -/
  | pbWake (n : Nat) (st : Bool)
  | fence (mask : BitVec 16)
  deriving DecidableEq, Repr

/-- A scalar access posted by an SC sequencer or the housekeeping processor (R203, R174 to R184): its ordering, its
place, and where its result goes. -/
structure Req where
  id : Nat
  /-- The stream that made it; none for the housekeeping processor, and for a credit. -/
  ref : Option StreamRef
  mx : Nat
  op : ReqOp
  va : Nat
  pa : Nat
  ipa : Nat
  enc : Bool
  /-- The translation it holds until it is performed (R331). -/
  page : Option TlbEntry
  io : Bool
  cls : BitVec 4
  scope : BitVec 3
  acq : BitVec 16
  rel : BitVec 16
  /-- The window of the issuing stream: banks with their owner tags at issue (R259). -/
  win : List BankUse
  dest : Option (BitVec 5)
  /-- PB.ARRIVE with WE: the watch register (R221). -/
  bw : Option (BitVec 2)
  performed : Bool
  result : Word
  err : Option PendErr
  /-- An element of a REDM: its copy and the unit of the copy (R248). -/
  unit : Option (Nat × Nat)
  /-- The numbers of the requests merged into this one by routers (R194). -/
  merged : List Nat
  /-- Merged into another request (waits for its acknowledgement). -/
  into : Option Nat
  /-- Its merge entry has been forwarded towards the home and takes no more requests (R196). -/
  fwd : Bool
  deriving DecidableEq, Repr

/-- What a copy moves (R187). -/
inductive CopyKind where
  | tload | tloadx | gather | cfill | cfillPeer | kvRes | tstore | scatter
  | redm (op : BitVec 4)
  | bt
  deriving DecidableEq, Repr

/-- A copy in flight (R237 to R243, R187), with the translations, owner tags and index list it took at issue. -/
structure Copy where
  id : Nat
  kind : CopyKind
  ref : StreamRef
  sec : Section
  cls : BitVec 4
  scope : BitVec 3
  tag : Nat
  bar : Option Word
  wordPc : Word
  rows : Nat
  rowb : Nat
  gpitch : Nat
  spitch : Nat
  gbase : Nat
  sbase : Nat
  idx : List Nat
  fmt : BitVec 8
  /-- TLOADX: bytes of the row and rows that exist in the tensor (R246). -/
  vcols : Nat
  vrows : Nat
  /-- Bytes credited to the barrier (R240), and the translation of a G barrier from step 6 of R237. -/
  bytes : Nat
  barPage : Option TlbEntry
  data : List Byte
  pages : List TlbEntry
  dpages : List TlbEntry
  gens : List BankUse
  /-- CFILL: the back pane at issue and the swings made by then; the source core of a peer fill (R249). -/
  pane : Bool
  swings : Nat
  peer : Nat
  kslot : Nat
  units : Nat
  done : List Nat
  /-- REDM: units whose elements are on their way to their homes. -/
  sent : List Nat
  /-- Units met by a changed owner tag (R242). -/
  stale : List Nat
  frozen : Bool
  err : Option PendErr
  /-- Block transfer (R259): channel, template index (of a TLOADX: its TID), multiplier, SP source and destination. -/
  chan : Nat
  tidx : Nat
  mult : Nat
  /-- Number of the doorbell's store, which the copy follows (R187). -/
  before : Nat
  spSrc : Bool
  spDst : Bool
  status : Nat
  fcode : Nat
  fva : Nat
  /-- The sills of a scratchpad destination have been granted (R259). -/
  granted : Bool
  /-- Where its sills were granted after its issue, the number that the next operation took then (R158, R239). -/
  grantNo : Nat := 0
  sflg : BitVec 7
  res : Nat
  deriving DecidableEq, Repr

/-- A peer image on the mullion bus (R114). -/
structure PeerImg where
  id : Nat
  ref : StreamRef
  dest : StreamRef
  cls : BitVec 4
  off : Nat
  img : List Byte
  bar : Option Nat
  gens : List BankUse
  /-- Bytes the bus has carried (R17). -/
  sent : Nat
  deriving DecidableEq, Repr

/-- A reply on its way (R255). -/
structure Emit where
  id : Nat
  ref : StreamRef
  cls : BitVec 4
  scope : BitVec 3
  tag : Nat
  fin : Bool
  entry : Nat
  n : Nat
  off : Nat
  gens : List BankUse
  statVa : Nat
  stat : TlbEntry
  deriving DecidableEq, Repr

/-- The KV descriptor (Table 11.4). -/
structure KvDesc where
  arena : Nat
  layer : Nat
  flags : BitVec 8
  slot : Nat
  nsqm1 : Nat
  pos : Nat
  count : Nat
  data : Nat
  aux : Nat
  mask : Word
  h0 : Nat
  nhm1 : Nat
  mkind : Nat
  subop : Nat
  win : Nat
  nq : Nat
  ltop : Nat
  deriving DecidableEq, Repr

/-- A KV command between issue and its completion (R269, R274, R275). -/
structure KvCmd where
  id : Nat
  ref : StreamRef
  op : Nat
  d : KvDesc
  tag : Nat
  rq : Nat
  ns : Bool
  cls : BitVec 4
  scope : BitVec 3
  /-- Sequence list: slot, rows, document start (R282). -/
  seqs : List (Nat × Nat × Nat)
  /-- Splice: image address, header fields and translations (R294). -/
  img : Nat
  nt : Nat
  pbase : Nat
  doch : Word
  pages : List TlbEntry
  thr : BitVec 32
  gens : List BankUse
  query : Option Query
  resume : Option Nat
  /-- Pages of a KV.PAGEIN still to come: slot and page. -/
  waiting : List (Nat × Nat)
  started : Bool
  /-- The repair record whose layers a CMP commits, by its OPEN (R298), and the flags of its comparison (R88). -/
  record : Nat
  cmpFlags : BitVec 7 := 0
  /-- Generation of the micro-context at issue (R349). -/
  mgen : Nat
  deriving DecidableEq, Repr

/-- A page of an arena slot (R267). -/
structure Page where
  kind : PageKind
  vmask : BitVec 256
  rgen : AMap (BitVec 8)
  pins : Nat
  pagingIn : Bool
  /-- A KV command has written the page since the copy path last moved it (R351). -/
  dirty : Bool
  deriving DecidableEq, Repr

def Page.reset : Page := { kind := .loc, vmask := 0, rgen := [], pins := 0, pagingIn := false, dirty := false }

/-- The provenance tag of a spliced position (R293). -/
structure Prov where
  doch : Word
  model : BitVec 32
  mver : BitVec 16
  lfirst : Nat
  llast : Nat
  pbase : Nat
  deriving DecidableEq, Repr

/-- A slot's open repair record (R296, R297). -/
structure Repair where
  /-- The OPEN that made the record: its operation number. -/
  opened : Nat
  pos : Nat
  count : Nat
  ltop : Nat
  next : Nat
  /-- Tokens with a non-finite element so far, and the largest deviation of each other token, m × 2^e (R297). -/
  nonfin : List Nat
  devs : AMap (Nat × Int)
  /-- The tokens selected at CMP of layer L. -/
  sel : List Nat
  /-- Fresh rows of the compared layers, kept for the commit. -/
  fresh : AMap (List Byte)
  committed : Nat
  deriving DecidableEq, Repr

/-- An arena (Table 11.1) with its slots. Page j of slot s at key 4,096 s + j; position p of slot s at key 2^20 s + p. -/
structure Arena where
  model : BitVec 32
  mver : BitVec 16
  nl : Nat
  kc : BitVec 8
  hk : Nat
  qg : Nat
  hd : Nat
  rope : Bool
  scl : BitVec 32
  ropeb : BitVec 32
  tenant : BitVec 16
  base : Nat
  sstr : Nat
  pstr : Nat
  maxpos : Nat
  nslot : Nat
  sbbase : Nat
  nsb : Nat
  pages : AMap Page
  npos : AMap Nat
  prov : AMap Prov
  repair : AMap Repair
  docs : List Word
  /-- Reference counts and total pins of shared blocks; a block with its `live` flag down is free (R270). -/
  sbref : AMap (Nat × Bool)
  users : List Nat
  /-- The bytes that the rounds of a migration have moved so far; none while there is no round (R351). -/
  moved : Option Memory := none
  deriving DecidableEq, Repr

/-- A prefix-index entry (R271), with the time of its last hit. -/
structure IxEntry where
  arena : Nat
  key : BitVec 128
  blk : Nat
  hit : Nat
  deriving DecidableEq, Repr

/-- A cached 64-byte block of the last-level cache (R170, R171): its line's tensor tag (0 for the frame tag) and
micro-context (0 for a device tensor), the way that holds the line, the cycle of the block's last use, its plaintext, dirty and
retiring bits, and the key slot it is enciphered under when private. -/
structure LlcBlk where
  mx : Nat
  tid : Nat
  /-- Tile coordinates of a tensor's line, tx + 2^32 ty. -/
  tile : Nat
  way : Nat
  used : Nat
  data : Blk
  dirty : Bool
  enc : Option Nat
  retiring : Bool
  /-- The tenant whose cache step has marked the line (R340). -/
  outgoing : BitVec 16
  deriving DecidableEq, Repr

/-- A committed weight segment (R399): its scope code, 0 TENANT, 1 PARTITION, 2 DEVICE, with the scope key, its length in 64 KiB units, its
accounts, its LOST 4 KiB blocks and the check value of each extent. -/
structure WSeg where
  scope : Nat
  key : Nat
  hash : BitVec 256
  fpa : Nat
  lenu : Nat
  refs : Nat
  segw : Nat
  segrfr : Nat
  lost : List Nat
  checks : AMap (BitVec 128)
  deriving DecidableEq, Repr

/-- An install in progress (R404). -/
structure Install where
  id : Nat
  ref : StreamRef
  cls : BitVec 4
  scope : BitVec 3
  tag : Nat
  iscope : Nat
  wake : Bool
  lenu : Nat
  src : Nat
  pages : List TlbEntry
  cr : Nat
  crPage : TlbEntry
  hash : BitVec 256
  share : Option Nat
  wsn : Nat
  fpa : Nat
  readDone : Bool
  /-- The source bytes as they were read and hashed. -/
  data : List Byte
  bytes : Nat
  relocated : Bool
  /-- The program pages its extents have been written to, by the keys of `fmap`, which they enter at the commit (R395). -/
  placed : AMap Nat
  /-- The issuer went to FAULTED (1) or became FREE (2) before the commit (R412). -/
  abort : Nat
  deriving DecidableEq, Repr

/-- A fault or event record queued for the housekeeping processor (R358, R379, R383). -/
structure HkEvent where
  code : Nat
  mx : Nat
  n : Nat
  deriving DecidableEq, Repr

/-- The housekeeping processor (R356, Table 19.1). -/
structure Hk where
  g : AMap Word
  p : AMap Bool
  phase : Phase
  pc : Word
  hdrPc : Word
  left : Nat
  csel : BitVec 16
  epc : Word
  ecauseMx : BitVec 14
  ecauseCode : BitVec 16
  erec : Word
  tvec : Word
  ten : Bool
  /-- Waiting in HALT until an event is queued (R369). -/
  halted : Bool
  deriving DecidableEq, Repr

def Hk.reset : Hk :=
  { g := [], p := [], phase := .waiting, pc := 0, hdrPc := 0, left := 0, csel := 0, epc := 0, ecauseMx := 0,
    ecauseCode := 0, erec := 0, tvec := 0, ten := false, halted := false }

/-- A system instruction of the housekeeping processor whose result is still to be delivered (R360, R365). -/
structure HkOp where
  mode : Nat
  mx : Nat
  pa : Nat
  dest : BitVec 5
  /-- The scrub it waits for, once its transition has been made and the record copied out. -/
  scrub : Option Nat
  /-- The transition was the one the mode asks for. -/
  ok : Bool
  deriving DecidableEq, Repr

/-- Resources of one release being scrubbed (R338, R339). -/
structure Scrub where
  id : Nat
  mx : Nat
  tenant : BitVec 16
  cores : List Nat
  slots : List (Nat × Nat)
  banks : List (Nat × Nat)
  /-- Units of the shutter store by core. -/
  shuts : List (Nat × Nat)
  cws : List Nat
  /-- Mullion slots of the release, by the keys of the slot tables. -/
  mull : List Nat
  cache : Bool
  start : Nat
  /-- A SCRUB instruction waits for it: destination register. -/
  dest : Option (BitVec 5)
  /-- SCRUB `.core`: panes are cleared whatever their PRIV bits (R367). -/
  allPanes : Bool
  deriving DecidableEq, Repr

/-- The system control aperture (R371). -/
structure Aperture where
  cmd : AMap Word
  /-- The words of the command that GO started. -/
  words : AMap Word
  busy : Bool
  result : Nat
  status : Nat
  /-- The command has run and CMDDONE is still to queue its event. -/
  ran : Bool
  deriving DecidableEq, Repr

def Aperture.reset : Aperture := { cmd := [], words := [], busy := false, result := 0, status := 0, ran := false }

/-- What a write of the device into a micro-context's memory is: the table of R322, an event for a bound micro-context (R350 rule 3), or the
pending-event word at a binding (R350 rule 5). -/
inductive DevKind where
  | phases
  | event
  | binding
  deriving DecidableEq, Repr

/-- Such a write on its way to its home. -/
structure DevWrite where
  mx : Nat
  va : Nat
  data : List Byte
  kind : DevKind
  deriving DecidableEq, Repr

/-- The exchange engine's operation (R392, R393). -/
structure Exchange where
  part : Nat
  leafA : Nat
  leafB : Nat
  frameA : Nat
  frameB : Nat
  size : Nat
  /-- The micro-contexts whose private pages the frames hold, for each 4 KiB; the last stands for the rest. -/
  ownerA : List Nat
  ownerB : List Nat
  deriving DecidableEq, Repr

/-- A thermal record (Table 22.4). -/
structure Thermal where
  dclk : Word
  sensor : BitVec 16
  temp : BitVec 16
  event : Nat
  level : Nat
  /-- MXIDX with bit 15 set, and GEN, of the micro-context bound on the core; 0 when none is. -/
  mxidx : BitVec 16
  gen : BitVec 32
  seq : Nat
  deriving DecidableEq, Repr

/-- One physical erase block of a flash stack (R395 to R397). -/
structure EraseBlk where
  erases : Nat
  reads : Nat
  bad : Bool
  /-- Program pages programmed since the last erase. -/
  next : Nat
  deriving DecidableEq, Repr

def EraseBlk.reset : EraseBlk := { erases := 0, reads := 0, bad := false, next := 0 }

/-- A miss that waits at a stack's walker pool (R166, R348). -/
structure Walk where
  stack : Nat
  core : Nat
  part : Nat
  mx : Nat
  va : Nat
  deriving DecidableEq, Repr

/-- What an exported partition's image carries (Table 18.11): its number, by which the DU5 knows its bytes, the device clock at the export
(R344), the columns needed, the micro-contexts with their teams as images, the frozen copies, the arenas with the bytes of their pages,
the stage-2 root and the way mask. -/
structure MigImage where
  num : Nat
  /-- The device clock and the link time base when it was formed. -/
  dclk : Nat
  ltb : Nat
  cols : Nat
  attn : Memory
  mxs : AMap Mx
  copies : List Copy
  /-- The records of held faults that travel with their resume points, with code and micro-context (R394). -/
  faults : List (Nat × Nat × List Byte)
  /-- Values lost to an uncorrectable error that no word has consumed yet (R214). -/
  lost : List Req
  arenas : AMap Arena
  s2root : Word
  waymask : BitVec 16
  deriving DecidableEq, Repr, Inhabited

/-- The state of one DU5. -/
structure State where
  /-- The agent whose word `exec` runs. The model's own field. -/
  cur : Agent
  /-- Which moves come next. The model's own field (log 2). -/
  agenda : List Turn
  /-- Hand-overs made so far by a device whose agenda says nothing. The model's own field (log 2). -/
  turn : Nat
  /-- Counter behind the free values. The model's own field (log 3). -/
  fresh : Nat
  /-- Number of the next pending operation. The model's own field (log 2). -/
  nextId : Nat
  /-- DCLK: core cycles since device reset (Table 19.1). -/
  dclk : Word
  /-- Link time base in nanoseconds (R345). -/
  ltb : Word
  booted : Bool
  /-- The firmware image in the reserved area of flash stack 0, and SM3 of the image that runs (R425, R377). -/
  fwImage : List Byte
  fwHash : BitVec 256
  mem : Memory
  attn : Memory
  /-- Physical blocks, by PA / 64, whose stored data is uncorrectable (R416). -/
  badBlks : List Nat
  /-- Blocks of attention-side HBM, by address / 64, whose stored data is uncorrectable (R416). -/
  attnBad : List Nat
  /-- Places that hold a correctable error, each with its store (`patrolCode`, `spCode`, `wordCode`), and the corrected errors counted by store
  (R416). -/
  weak : List (Nat × Nat)
  corrected : AMap Nat
  llc : AMap LlcBlk
  /-- Cached blocks of the flash region, and blocks of staged extents, by PA / 64, whose copy there is uncorrectable (R408); `badBlks` holds
  those whose flash read is. -/
  llcBad : List Nat
  stageBad : List Nat
  /-- Extents of the flash region in the staging cache, least recently used last (R398). -/
  staging : List Nat
  /-- Extents of it that the cold-start engine has filled ahead of use: the micro-context, and the entry of its layer-order list. -/
  ahead : AMap (Nat × Nat)
  /-- The quotas of the staging cache in GiB as firmware has divided it, by partition; 16 is the pool of DEVICE segments (R398). -/
  quotas : AMap Nat
  /-- Misses at the walker pools, oldest first. -/
  walks : List Walk
  /-- The partition served last by each resource that partitions share in turns (R348). -/
  turns : AMap Nat
  /-- Tensors of installed weight segments, declared for every micro-context (R169). -/
  devTensors : List Tensor
  cores : AMap Core
  tiers : AMap Tier
  /-- Mullion slot tables: key 16 (64 stack + column) + slot. -/
  mull : AMap MullSlot
  /-- The last slot of each mullion bus, key 64 stack + column, that carried bytes: its number since reset, and the 64-byte units it carried
  (R17). -/
  mullUsed : AMap (Nat × Nat)
  /-- Spares map: key 64 stack + logical column, value 8 x + y; an unlisted column is at the log 8 position. -/
  colmap : AMap Nat
  /-- Logical columns without a column, key 64 stack + column (R414). -/
  lostCols : List Nat
  retiring : List Nat
  /-- Physical columns, 128 stack + position, that are retired or hold a defective core (R13, R414). -/
  badCols : List Nat
  sparesUsed : AMap Nat
  /-- Rows and channels of compute-side HBM that spares have replaced, with their stack (R413). -/
  hbmMap : List (Nat × HbmPlace)
  mxs : AMap Mx
  parts : AMap Partition
  keys : AMap KeySlot
  segs : AMap Segment
  flows : AMap (List (BitVec 320 × Nat))
  vkeys : AMap (BitVec 512)
  arenas : AMap Arena
  index : List IxEntry
  reqs : List Req
  copies : List Copy
  peers : List PeerImg
  emits : List Emit
  kvs : List KvCmd
  installs : List Install
  scrubs : List Scrub
  hkOps : List HkOp
  hk : Hk
  events : List HkEvent
  eventCount : Nat
  records : Memory
  aperture : Aperture
  wsegs : AMap WSeg
  devw : Nat
  /-- The peer DU5s of the scale-up domain that firmware has configured, at most 16 (R410). -/
  peerDus : List Nat
  /-- Erase blocks: key 65,536 stack + block. -/
  erase : AMap EraseBlk
  /-- The translation layer's map (R395): program page, 1,024 block + page, of extent e in stack k at key 4 e + k. -/
  fmap : AMap Nat
  flashSpare : Nat
  /-- Program failures, and read-back mismatches, still to be met by the next programming: hardware events (R403, R404). -/
  progFail : Nat
  verifyFail : Nat
  lostRecords : Nat
  shutPend : AMap (List (BitVec 32) × Nat)
  shut : AMap (List (BitVec 32))
  exchange : Option Exchange
  /-- Writes of event words and phase tables whose homes have not served them yet (R322, R350), oldest first. -/
  devWrites : List DevWrite
  ready : List UnitId
  cxlPop : Nat
  portDown : List Nat
  cxlDown : List Nat
  mcsum : Word
  mccnt : AMap Nat
  drops : AMap Nat
  foreign : Nat
  links : AMap Word
  mbout : Word
  mbuf : Memory
  thermals : List Thermal
  /-- The ring of thermal records that firmware has configured (R420): its address, and its number of records. -/
  thermalRing : Option (Nat × Nat)
  /-- Messages sent from the Ethernet ports: port and bytes, newest first. -/
  sent : List (Nat × List Byte)
  /-- Residency reports sent, newest first: the node address and the record (R321). -/
  residency : List (Nat × List Byte)
  /-- Samples of shared counters: current values and the samples of R343. -/
  shared : AMap Nat
  samples : List (AMap Nat)
  /-- Images exported by this DU5 (Table 19.7), newest first. -/
  exports : List MigImage
  deriving DecidableEq, Repr

/-- The DU5 right after device reset: registers at the values their tables give, nothing bound, no unit ready. Values the
spec does not state are named in logs 1, 7, 8, 9 and 16. -/
def State.reset : State :=
  { cur := .hk, agenda := [], turn := 0, fresh := 0, nextId := 0, dclk := 0, ltb := 0, booted := false, fwImage := [], fwHash := 0, mem := [], attn := [],
    badBlks := [], attnBad := [], weak := [], corrected := [], llc := [], llcBad := [], stageBad := [], staging := [], ahead := [], quotas := [], walks := [], turns := [], devTensors := [], cores := [], tiers := [], mull := [], mullUsed := [],
    colmap := [], lostCols := [],
    retiring := [], badCols := [], sparesUsed := [], hbmMap := [], mxs := [], parts := [], keys := [], segs := [], flows := [], vkeys := [],
    arenas := [], index := [], reqs := [], copies := [], peers := [], emits := [], kvs := [], installs := [],
    scrubs := [], hkOps := [], hk := Hk.reset, events := [], eventCount := 0, records := [],
    aperture := Aperture.reset, wsegs := [], devw := 0, peerDus := [], erase := [], fmap := [], flashSpare := 4768, progFail := 0, verifyFail := 0, lostRecords := 0,
    shutPend := [], shut := [], exchange := none, devWrites := [], ready := [], cxlPop := 0, portDown := [],
    cxlDown := [], mcsum := 0, mccnt := [], drops := [], foreign := 0, links := [], mbout := 0, mbuf := [],
    thermals := [], thermalRing := none, sent := [], residency := [], shared := [], samples := [], exports := [] }

end Sys2Proof.Machine
end

