-- ==== Sys2Proof/Config.lean ====
section
/-! DEFINITION. What one DU5 fixes and the spec leaves open: constants without a body, so that nothing can be proved of
their values (log 3). The counter of the model, `State.fresh`, gives a new free value each time. -/

namespace Sys2Proof.Config

/-- The n-th free 64-bit value: ORIGIN of a ring entry (Table 17.2). -/
opaque freeValue : Nat → Word
/-- Byte `i` of the n-th object whose layout only a DU5 knows: save images (R384), header bytes 0x040 to 0xFFF of a save area,
export images (Table 19.7). -/
opaque imageByte : Nat → Nat → Byte
/-- What a counter of bank conflicts or of queue or link occupancy (0x107 to 0x109 of Table 19.6) stands at, by its number and the value of DCLK. -/
opaque occupancy : Nat → Nat → Nat → Word
/-- Length of an export image (Table 19.7). -/
opaque migLength : Nat → Nat
/-- What an image written by another DU5 carries (Table 19.7). -/
opaque foreignImage : List Byte → Machine.MigImage
/-- The device secret, from which the keys of R425 step 4 are derived. -/
opaque deviceSecret : BitVec 256
/-- The n-th nonce of an SM2 signature (R377). -/
opaque signNonce : Nat → BitVec 256
/-- What is fused in the part (R425): SM3 of the Rannel public key, and the anti-rollback counter. -/
opaque fusedKeyHash : BitVec 256
opaque fusedVersion : Nat
/-- The fields of a firmware image, whose layout the spec does not give: the public key x then y, the signature r then s, the version, and the bytes
that are signed (R425). -/
opaque fwKey : List Byte → BitVec 512
opaque fwSignature : List Byte → BitVec 512
opaque fwVersion : List Byte → Nat
opaque fwBody : List Byte → List Byte
/-- Entry block headers of the firmware (R425). -/
opaque firmwareEntry : Word
/-- The identity certificate page (R425). -/
opaque certByte : Nat → Byte
/-- The LINKS words of the health page (Table 22.5). -/
opaque linkWord : Nat → Word
/-- The CXL port firmware assigned to a physical address (R168), modulo 4. -/
opaque cxlPortOf : Nat → Nat
/-- A UALink device number is reachable in the scale-up domain (R232). -/
opaque reachable : Nat → Bool
/-- The populated bytes of the CXL tier that attached expanders give (R167). -/
opaque cxlPopulated : Nat

/-- The row of a pane, or of a shutter store, that holds a block (R413). -/
opaque eramRow : Nat → Nat
/-- The cores that fail their self-test at the n-th boot (R413). -/
opaque failedCores : Nat → List Nat

/-- The set of a slice that the hash of a line's tag gives (R171), modulo 2,048: micro-context, tensor, and tile or frame. -/
opaque lineSet : Nat → Nat → Nat → Nat
/-- The quota of the staging cache, in whole GiB, that firmware gave a partition; 16 is the pool of DEVICE segments (R398). -/
opaque stagingQuota : Nat → Nat
/-- The node addresses of the rack schedulers that firmware configured (R321). -/
opaque rackNodes : List Nat
/-- The Ethernet port, modulo 4, over which a node address is reached. -/
opaque nodePort : Nat → Nat
/-- The UALink port, modulo 18, over which a device of the scale-up domain is reached (R232). -/
opaque ualinkPort : Nat → Nat

/-- The ring of thermal records that firmware configured in system memory (R420): its address / 64, modulo the places where its 2 MiB at most lie
in compute-side HBM; and n - 4 for its 2^n records, modulo 13. -/
opaque thermalBase : Nat
opaque thermalLog : Nat

/-- The peer DU5s that firmware configured as sources of extents (R410). -/
opaque peerDus : List Nat
/-- Device number in the scale-up domain (Table 17.7). -/
opaque deviceNumber : Nat
/-- The range of compute-side HBM that firmware opened for the host (R422): its first page, and its length in bytes. -/
opaque hdmPage : Nat
opaque hdmLength : Nat
/-- The warm threshold of a sensor, in units of 1/16 °C (R419). -/
opaque warmAt : Nat → BitVec 16

end Sys2Proof.Config
end

