-- ==== Sys2Proof/Machine/Crypto.lean ====
section
/-! DEFINITION. The ciphers and hashes the spec names: SM4, SM4-XTS (R333), SM4-GCM (R332, R423), SM3 and SM2 (R375 to R377)
and CRC-32C (R374). The spec gives them by name alone; the algorithms are those of the standards it names (log 10). Numbers
stand for byte strings big-endian unless a name says little-endian. -/

namespace Sys2Proof.Machine

/-! SM4 -/

/-- The S-box, 256 bytes, first entry most significant. -/
def sm4Box : Nat :=
  0xd690e9fecce13db716b614c228fb2c052b679a762abe04c3aa441326498606999c4250f491ef987a33540b43edcfac62e4b31ca9c908e89580df94fa758f3fa64707a7fcf37317ba83593c19e6854fa8686b81b27164da8bf8eb0f4b70569d351e240e5e6358d1a225227c3b01217887d40046579fd327524c3602e7a0c4c89eeabf8ad240c738b5a3f7f2cef96115a1e0ae5da49b341a55ad933230f58cb1e31df6e22e8266ca60c02923ab0d534e6fd5db3745defd8e2f03ff6a726d6c5b518d1baf92bbddbc7f11d95c411f105ad80ac13188a5cd7bbd2d74d012b8e5b4b08969974a0c96777e65b9f109c56ec68418f07dec3adc4d2079ee5f3ed7cb3948

def sm4Sub (x : Nat) : Nat := sm4Box / 2 ^ (8 * (255 - x % 256)) % 256

def rotl32 (x k : Nat) : Nat := (x * 2 ^ k) % 2 ^ 32 + x / 2 ^ (32 - k)

/-- The S-box on the four bytes of a word. -/
def sm4Tau (x : Nat) : Nat :=
  sm4Sub (x / 2 ^ 24) * 2 ^ 24 + sm4Sub (x / 2 ^ 16) * 2 ^ 16 + sm4Sub (x / 2 ^ 8) * 2 ^ 8 + sm4Sub x

def sm4L (b : Nat) : Nat := b ^^^ rotl32 b 2 ^^^ rotl32 b 10 ^^^ rotl32 b 18 ^^^ rotl32 b 24
def sm4LKey (b : Nat) : Nat := b ^^^ rotl32 b 13 ^^^ rotl32 b 23

/-- Round constant i: bytes (4i + j) × 7 mod 256. -/
def sm4Ck (i : Nat) : Nat :=
  (28 * i % 256) * 2 ^ 24 + ((28 * i + 7) % 256) * 2 ^ 16 + ((28 * i + 14) % 256) * 2 ^ 8 + (28 * i + 21) % 256

/-- Round keys from round i on, of the key-schedule words k0 to k3. -/
def sm4Keys : Nat → Nat → Nat → Nat → Nat → Nat → List Nat
  | 0, _, _, _, _, _ => []
  | n + 1, i, k0, k1, k2, k3 =>
    let k := k0 ^^^ sm4LKey (sm4Tau (k1 ^^^ k2 ^^^ k3 ^^^ sm4Ck i))
    k :: sm4Keys n (i + 1) k1 k2 k3 k

/-- The 32 round keys of a key. -/
def sm4Schedule (key : Nat) : List Nat :=
  sm4Keys 32 0 (key / 2 ^ 96 % 2 ^ 32 ^^^ 0xA3B1BAC6) (key / 2 ^ 64 % 2 ^ 32 ^^^ 0x56AA3350)
    (key / 2 ^ 32 % 2 ^ 32 ^^^ 0x677D9197) (key % 2 ^ 32 ^^^ 0xB27022DC)

def sm4Rounds : List Nat → Nat → Nat → Nat → Nat → Nat
  | [], x0, x1, x2, x3 => x3 * 2 ^ 96 + x2 * 2 ^ 64 + x1 * 2 ^ 32 + x0
  | k :: ks, x0, x1, x2, x3 => sm4Rounds ks x1 x2 x3 (x0 ^^^ sm4L (sm4Tau (x1 ^^^ x2 ^^^ x3 ^^^ k)))

def sm4Run (ks : List Nat) (x : Nat) : Nat :=
  sm4Rounds ks (x / 2 ^ 96 % 2 ^ 32) (x / 2 ^ 64 % 2 ^ 32) (x / 2 ^ 32 % 2 ^ 32) (x % 2 ^ 32)

def sm4Enc (key x : Nat) : Nat := sm4Run (sm4Schedule key) x
def sm4Dec (key x : Nat) : Nat := sm4Run (sm4Schedule key).reverse x

/-- The 16 bytes of a number reversed: a little-endian value as a block. -/
def rev16 (x : Nat) : Nat := beNat (leBytes 16 x)

/-! SM4-XTS on one 64-byte unit (R333), blocks as little-endian numbers. -/

/-- Multiplication by α, on the little-endian value of a tweak. -/
def xtsMul (t : Nat) : Nat := if t / 2 ^ 127 % 2 = 1 then (2 * t % 2 ^ 128) ^^^ 0x87 else 2 * t % 2 ^ 128

/-- The four 16-byte pieces from piece j on, each run through `f` between two additions of its tweak. -/
def xtsPieces (f : Nat → Nat) : Nat → Nat → Nat → Nat
  | 0, _, _ => 0
  | n + 1, t, x => (rev16 (f (rev16 (x % 2 ^ 128 ^^^ t))) ^^^ t) + 2 ^ 128 * xtsPieces f n (xtsMul t) (x / 2 ^ 128)

/-- The first tweak of the unit at address `a`: D = 1 for attention-side HBM. -/
def xtsTweak (k2 : Nat) (attn : Bool) (a : Nat) : Nat :=
  rev16 (sm4Enc k2 (rev16 ((if attn then 2 ^ 120 else 0) + a / 64)))

def xtsEnc (k1 k2 : Nat) (attn : Bool) (a : Nat) (b : Blk) : Blk :=
  let ks := sm4Schedule k1
  BitVec.ofNat 512 (xtsPieces (sm4Run ks) 4 (xtsTweak k2 attn a) b.toNat)

def xtsDec (k1 k2 : Nat) (attn : Bool) (a : Nat) (b : Blk) : Blk :=
  let ks := (sm4Schedule k1).reverse
  BitVec.ofNat 512 (xtsPieces (sm4Run ks) 4 (xtsTweak k2 attn a) b.toNat)

/-! SM4-GCM -/

/-- Product in GF(2^128) with the bit order of GCM: `n` steps over the bits of x from the most significant. -/
def ghashMul : Nat → Nat → Nat → Nat → Nat
  | 0, _, _, z => z
  | n + 1, x, v, z =>
    ghashMul n x (if v % 2 = 1 then v / 2 ^^^ 0xE1 * 2 ^ 120 else v / 2) (if x / 2 ^ n % 2 = 1 then z ^^^ v else z)

/-- 16-byte blocks of bytes, the last padded with zeros. -/
def blocks16 : Nat → List Byte → List Nat
  | 0, _ => []
  | n + 1, l => beNat (sliceBytes l 0 16) :: blocks16 n (l.drop 16)

def ghash (h : Nat) (aad ct : List Byte) : Nat :=
  let bs := blocks16 (ceilDiv aad.length 16) aad ++ blocks16 (ceilDiv ct.length 16) ct
    ++ [aad.length * 8 * 2 ^ 64 + ct.length * 8]
  bs.foldl (fun y b => ghashMul 128 (y ^^^ b) h 0) 0

/-- Counter-mode bytes: `n` blocks from counter block c. -/
def ctrBytes (ks : List Nat) : Nat → Nat → List Byte
  | 0, _ => []
  | n + 1, c => beBytes 16 (sm4Run ks c) ++ ctrBytes ks n (c / 2 ^ 32 * 2 ^ 32 + (c + 1) % 2 ^ 32)

def gcmCrypt (key iv : Nat) (l : List Byte) : List Byte :=
  List.zipWith (· ^^^ ·) l (ctrBytes (sm4Schedule key) (ceilDiv l.length 16) (iv * 2 ^ 32 + 2))

def gcmTag (key iv : Nat) (aad ct : List Byte) : Nat :=
  let ks := sm4Schedule key
  sm4Run ks (iv * 2 ^ 32 + 1) ^^^ ghash (sm4Run ks 0) aad ct

/-- Ciphertext and tag; the IV is 12 bytes. -/
def gcmSeal (key iv : Nat) (aad pt : List Byte) : List Byte × Nat :=
  let ct := gcmCrypt key iv pt
  (ct, gcmTag key iv aad ct)

/-- The plaintext, when the tag verifies. -/
def gcmOpen (key iv : Nat) (aad ct : List Byte) (tag : Nat) : Option (List Byte) :=
  if gcmTag key iv aad ct = tag then some (gcmCrypt key iv ct) else none

/-! SM3 -/

def sm3P0 (x : Nat) : Nat := x ^^^ rotl32 x 9 ^^^ rotl32 x 17
def sm3P1 (x : Nat) : Nat := x ^^^ rotl32 x 15 ^^^ rotl32 x 23

/-- Message expansion: `l` holds the words so far, newest first. -/
def sm3Expand : Nat → List Nat → List Nat
  | 0, l => l
  | n + 1, l =>
    let g := fun k => l.getD (k - 1) 0
    sm3Expand n ((sm3P1 (g 16 ^^^ g 9 ^^^ rotl32 (g 3) 15) ^^^ rotl32 (g 13) 7 ^^^ g 6) :: l)

structure Sm3 where
  a : Nat
  b : Nat
  c : Nat
  d : Nat
  e : Nat
  f : Nat
  g : Nat
  h : Nat

def sm3Round (j : Nat) (s : Sm3) (w w' : Nat) : Sm3 :=
  let t := if j < 16 then 0x79CC4519 else 0x7A879D8A
  let a12 := rotl32 s.a 12
  let ss1 := rotl32 ((a12 + s.e + rotl32 t (j % 32)) % 2 ^ 32) 7
  let ss2 := ss1 ^^^ a12
  let ff := if j < 16 then s.a ^^^ s.b ^^^ s.c else (s.a &&& s.b) ||| (s.a &&& s.c) ||| (s.b &&& s.c)
  let gg := if j < 16 then s.e ^^^ s.f ^^^ s.g else (s.e &&& s.f) ||| ((0xFFFFFFFF ^^^ s.e) &&& s.g)
  let tt1 := (ff + s.d + ss2 + (w ^^^ w')) % 2 ^ 32
  let tt2 := (gg + s.h + ss1 + w) % 2 ^ 32
  { a := tt1, b := s.a, c := rotl32 s.b 9, d := s.c, e := sm3P0 tt2, f := s.e, g := rotl32 s.f 19, h := s.g }

def sm3Rounds : Nat → Nat → Sm3 → List Nat → Sm3
  | 0, _, s, _ => s
  | n + 1, j, s, ws => sm3Rounds n (j + 1) (sm3Round j s (ws.getD 0 0) (ws.getD 4 0)) (ws.drop 1)

/-- Words of a 64-byte block. -/
def words32 : Nat → List Byte → List Nat
  | 0, _ => []
  | n + 1, l => beNat (sliceBytes l 0 4) :: words32 n (l.drop 4)

def sm3Block (v : Sm3) (blk : List Byte) : Sm3 :=
  let ws := (sm3Expand 52 (words32 16 blk).reverse).reverse
  let r := sm3Rounds 64 0 v ws
  { a := r.a ^^^ v.a, b := r.b ^^^ v.b, c := r.c ^^^ v.c, d := r.d ^^^ v.d, e := r.e ^^^ v.e, f := r.f ^^^ v.f,
    g := r.g ^^^ v.g, h := r.h ^^^ v.h }

def sm3Blocks : Nat → Sm3 → List Byte → Sm3
  | 0, v, _ => v
  | n + 1, v, l => sm3Blocks n (sm3Block v (sliceBytes l 0 64)) (l.drop 64)

/-- The SM3 hash of bytes as a big-endian number. -/
def sm3 (l : List Byte) : Nat :=
  let z := (119 - l.length % 64) % 64
  let m := l ++ 0x80 :: List.replicate z 0 ++ beBytes 8 (8 * l.length)
  let v := sm3Blocks (m.length / 64)
    { a := 0x7380166F, b := 0x4914B2B9, c := 0x172442D7, d := 0xDA8A0600, e := 0xA96F30BC, f := 0x163138AA,
      g := 0xE38DEE4D, h := 0xB0FB0E4E } m
  joinN [32, 32, 32, 32, 32, 32, 32, 32] [v.a, v.b, v.c, v.d, v.e, v.f, v.g, v.h]

/-- The hash as 32 bytes. -/
def sm3Bytes (l : List Byte) : List Byte := beBytes 32 (sm3 l)

/-! SM2 -/

def sm2P : Nat := 0xFFFFFFFEFFFFFFFFFFFFFFFFFFFFFFFFFFFFFFFF00000000FFFFFFFFFFFFFFFF
def sm2A : Nat := sm2P - 3
def sm2B : Nat := 0x28E9FA9E9D9F5E344D5A9E4BCF6509A7F39789F515AB8F92DDBCBD414D940E93
def sm2N : Nat := 0xFFFFFFFEFFFFFFFFFFFFFFFFFFFFFFFF7203DF6B21C6052B53BBF40939D54123
def sm2Gx : Nat := 0x32C4AE2C1F1981195F9904466A39C9948FE30BBFF2660BE1715A4589334C74C7
def sm2Gy : Nat := 0xBC3736A2F4F6779C59BDCEE36B692153D0A9877CC62A474002DF32E52139F0A0

/-- A point in Jacobian coordinates; z = 0 is the point at infinity. -/
structure Pt where
  x : Nat
  y : Nat
  z : Nat

def modSub (p a b : Nat) : Nat := (a + p - b % p) % p

/-- b^e mod p over the low `n` bits of e. -/
def powMod (p : Nat) : Nat → Nat → Nat → Nat
  | 0, _, _ => 1
  | n + 1, b, e => (if e % 2 = 1 then b else 1) * powMod p n (b * b % p) (e / 2) % p

def invMod (p a : Nat) : Nat := powMod p 256 (a % p) (p - 2)

def ptDouble (q : Pt) : Pt :=
  if q.z = 0 ∨ q.y = 0 then { x := 1, y := 1, z := 0 }
  else
    let p := sm2P
    let yy := q.y * q.y % p
    let s := 4 * q.x * yy % p
    let z2 := q.z * q.z % p
    let m := (3 * q.x * q.x + sm2A * (z2 * z2 % p)) % p
    let x := modSub p (m * m % p) (2 * s)
    { x := x, y := modSub p (m * modSub p s x % p) (8 * (yy * yy % p)), z := 2 * q.y * q.z % p }

def ptAdd (a b : Pt) : Pt :=
  if a.z = 0 then b
  else if b.z = 0 then a
  else
    let p := sm2P
    let z1 := a.z * a.z % p
    let z2 := b.z * b.z % p
    let u1 := a.x * z2 % p
    let u2 := b.x * z1 % p
    let s1 := a.y * (b.z * z2 % p) % p
    let s2 := b.y * (a.z * z1 % p) % p
    if u1 = u2 then (if s1 = s2 then ptDouble a else { x := 1, y := 1, z := 0 })
    else
      let h := modSub p u2 u1
      let r := modSub p s2 s1
      let h2 := h * h % p
      let h3 := h * h2 % p
      let v := u1 * h2 % p
      let x := modSub p (modSub p (r * r % p) h3) (2 * v)
      { x := x, y := modSub p (r * modSub p v x % p) (s1 * h3), z := h * (a.z * b.z % p) % p }

/-- k · q over the low `n` bits of k. -/
def ptMul : Nat → Nat → Pt → Pt
  | 0, _, _ => { x := 1, y := 1, z := 0 }
  | n + 1, k, q =>
    let r := ptMul n (k / 2) (ptDouble q)
    if k % 2 = 1 then ptAdd r q else r

/-- The affine x coordinate. -/
def ptX (q : Pt) : Nat := let i := invMod sm2P q.z; q.x * (i * i % sm2P) % sm2P
def ptY (q : Pt) : Nat := let i := invMod sm2P q.z; q.y * (i * i % sm2P * i % sm2P) % sm2P

def sm2G : Pt := { x := sm2Gx, y := sm2Gy, z := 1 }

/-- ZA of a public key under the default identifier of GB/T 35276. -/
def sm2Za (x y : Nat) : List Byte :=
  sm3Bytes ([0x00, 0x80] ++ [0x31, 0x32, 0x33, 0x34, 0x35, 0x36, 0x37, 0x38, 0x31, 0x32, 0x33, 0x34, 0x35, 0x36, 0x37, 0x38]
    ++ beBytes 32 sm2A ++ beBytes 32 sm2B ++ beBytes 32 sm2Gx ++ beBytes 32 sm2Gy ++ beBytes 32 x ++ beBytes 32 y)

def sm2Verify (x y : Nat) (msg : List Byte) (r s : Nat) : Bool :=
  let onCurve := decide (x < sm2P ∧ y < sm2P ∧ y * y % sm2P = (x * x % sm2P * x + sm2A * x + sm2B) % sm2P)
  let t := (r + s) % sm2N
  let e := sm3 (sm2Za x y ++ msg)
  let q := ptAdd (ptMul 256 s sm2G) (ptMul 256 t { x := x, y := y, z := 1 })
  onCurve && decide (1 ≤ r ∧ r < sm2N ∧ 1 ≤ s ∧ s < sm2N ∧ t ≠ 0 ∧ q.z ≠ 0 ∧ (e + ptX q) % sm2N = r)

/-- The signature under private key d with nonce k: r and s. -/
def sm2Sign (d k : Nat) (msg : List Byte) : Nat × Nat :=
  let pub := ptMul 256 d sm2G
  let e := sm3 (sm2Za (ptX pub) (ptY pub) ++ msg)
  let r := (e + ptX (ptMul 256 k sm2G)) % sm2N
  (r, invMod sm2N (1 + d) * modSub sm2N k (r * d) % sm2N)

/-- `n` blocks of 32 bytes of the key derivation function of GB/T 32918, from counter `i` on. -/
def kdfBlocks (z : List Byte) : Nat → Nat → List Byte
  | 0, _ => []
  | n + 1, i => sm3Bytes (z ++ beBytes 4 i) ++ kdfBlocks z n (i + 1)

/-- Bytes of the key derivation function of GB/T 32918 over `z`. -/
def kdf (z : List Byte) (len : Nat) : List Byte := (kdfBlocks z (ceilDiv len 32) 1).take len

/-! CRC-32C -/

def crcBits : Nat → Nat → Nat
  | 0, c => c
  | n + 1, c => crcBits n (if c % 2 = 1 then c / 2 ^^^ 0x82F63B78 else c / 2)

/-- CRC-32C of RFC 3720. -/
def crc32c (l : List Byte) : Nat :=
  (l.foldl (fun c b => crcBits 8 (c ^^^ b.toNat)) 0xFFFFFFFF) ^^^ 0xFFFFFFFF

end Sys2Proof.Machine
end

