-- ==== Sys2Proof/Machine/Mem.lean ====
section
/-! DEFINITION. Physical memory as one block at a time sees it: the regions of Table 7.6, the one copy of a block in its
home's cache slice or in storage (R170, R171), the encryption of private blocks (R333), and the refusal of writes to
locked frames (R51, R336, R376). -/

namespace Sys2Proof.Machine

/-! Keys of the part (R425 step 4) -/

/-- What the boot ROM derives from the device secret: 48 bytes, of which the first 32 give the identity key, reduced into 1 to n - 1 or so that no
private key is 0, and the last 16 the key-import key. The split is a DESIGN CHOICE (log 59). -/
def derivedKeys : List Byte := kdf (beBytes 32 Config.deviceSecret.toNat) 48
def identityKey : Nat := 1 + beNat (derivedKeys.take 32) % (sm2N - 2)
def keyImportKey : Nat := beNat (derivedKeys.drop 32)

/-! Maps of the device -/

def State.core (s : State) (c : Nat) : Core := AMap.get Core.reset s.cores c
def State.setCore (s : State) (c : Nat) (x : Core) : State := { s with cores := s.cores.put c x }
def State.stream (s : State) (c k : Nat) : Stream := AMap.get Stream.reset (s.core c).streams k
def State.setStream (s : State) (c k : Nat) (x : Stream) : State :=
  s.setCore c { s.core c with streams := (s.core c).streams.put k x }
def State.mx (s : State) (m : Nat) : Mx := AMap.get Mx.reset s.mxs m
def State.setMx (s : State) (m : Nat) (x : Mx) : State := { s with mxs := s.mxs.put m x }
def State.part (s : State) (p : Nat) : Partition := AMap.get Partition.reset s.parts p
def State.setPart (s : State) (p : Nat) (x : Partition) : State := { s with parts := s.parts.put p x }
def State.key (s : State) (k : Nat) : KeySlot := AMap.get KeySlot.reset s.keys k
def State.setKey (s : State) (k : Nat) (x : KeySlot) : State := { s with keys := s.keys.put k x }

/-- The partition of a tenant: that of its micro-contexts (R329); the system partition where it has none. -/
def State.tenantPart (s : State) (tenant : BitVec 16) : Nat :=
  (s.mxs.find? fun e => e.2.tenant == tenant && e.2.st != .free).elim 15 fun e => e.2.part

/-! Regions (Table 7.6) -/

/-- The end of the populated compute-side HBM. -/
def hbmEnd : Nat := 736000000000
def flashBase : Nat := 0x040000000000
def flashEnd : Nat := 0x080000000000
def cxlBase : Nat := 0x100000000000
def cxlEnd : Nat := 0x200000000000
def ioBase : Nat := 0xF00000000000
def ioEnd : Nat := 0x1000000000000

/-- Apertures of the system. -/
def apertureBase : Nat := 0xFFF000000000
def healthBase : Nat := 0xFFF000001000
def certBase : Nat := 0xFFF000002000
def recordBase : Nat := 0xFFF000010000
/-- The block-transfer pages: 0x4_0000 bytes for each of 16,384 micro-contexts (R256). -/
def btEnd : Nat := ioBase + 16384 * 0x40000

/-- Where an access is sent whose translation a RELEASE has taken away: no address of the DU5 (Table 7.6), and every block of it is uncorrectable
(R406). -/
def goneBase : Nat := 2 ^ 60

def isFlash (pa : Nat) : Bool := decide (flashBase ≤ pa ∧ pa < flashEnd)
def isCxl (pa : Nat) : Bool := decide (cxlBase ≤ pa ∧ pa < cxlEnd)
def isIo (pa : Nat) : Bool := decide (ioBase ≤ pa ∧ pa < ioEnd)

/-- The weight segment that holds a flash-region frame: its WSN and record. A segment's frames are populated when it has
references and no install still fills it (R399, R404). -/
def State.wsegAt (s : State) (pa : Nat) : Option (Nat × WSeg) :=
  s.wsegs.find? fun e => decide (e.2.fpa ≤ pa ∧ pa < e.2.fpa + 65536 * e.2.lenu)

/-- An address of the CXL tier is populated; while none of its ports is ready its length is not known yet, and an access to it waits
(R418). -/
def State.cxlHolds (s : State) (pa : Nat) : Bool :=
  isCxl pa && (decide (pa < cxlBase + s.cxlPop) || !(List.range 4).any fun k => s.ready.contains (.cxlPort k))

/-- An address that holds memory or an aperture; any other is a hole. -/
def State.populated (s : State) (pa : Nat) : Bool :=
  decide (pa < hbmEnd) || (isFlash pa && (s.wsegAt pa).isSome) || s.cxlHolds pa
    || decide (ioBase ≤ pa ∧ pa < btEnd) || decide (apertureBase ≤ pa ∧ pa < apertureBase + 0x3000)
    || decide (recordBase ≤ pa ∧ pa < recordBase + 0x10000)

/-- The unit an address is homed at (R168); the aperture region needs none. -/
def homeUnit (pa : Nat) : Option UnitId :=
  if pa < hbmEnd then some (.hbm (pa / 4096 % 10))
  else if isFlash pa then some (.flash (pa / 4096 % 4))
  else if isCxl pa then some (.cxlPort (Config.cxlPortOf pa % 4))
  else none

/-- The home slice of an address (R19): the ten controllers of compute-side HBM, the four flash stacks, and one CXL home agent for the two
ports of each base die (R168); ports 0 and 1 are on die A (log 36). -/
def homeOf (pa : Nat) : Nat :=
  if isFlash pa then 10 + pa / 4096 % 4 else if isCxl pa then 14 + Config.cxlPortOf pa % 4 / 2 else pa / 4096 % 10

/-- Two addresses of one home slice. -/
def sameHome (a b : Nat) : Bool := homeOf a == homeOf b

/-- The pages of system software that no translation maps for a guest: the system control aperture (R371) and the record store, which
the housekeeping processor reads (R383, R326). -/
def systemPage (pa : Nat) : Bool :=
  decide (apertureBase ≤ pa ∧ pa < apertureBase + 0x1000) || decide (recordBase ≤ pa ∧ pa < recordBase + 0x10000)

/-- The ring of thermal records, which no guest mapping reaches (R420). -/
def State.inThermalRing (s : State) (pa : Nat) : Bool :=
  match s.thermalRing with
  | some (a, n) => decide (a / 4096 ≤ pa / 4096 ∧ pa / 4096 * 4096 < a + 32 * n)
  | none => false

/-- An address that holds memory or an aperture for a guest: the pages of system software are holes to it (log 37). -/
def State.guestPopulated (s : State) (pa : Nat) : Bool := s.populated pa && !systemPage pa && !s.inThermalRing pa

/-- A frame of the flash region that is LOST in its segment (R409). -/
def State.flashLost (s : State) (pa : Nat) : Bool :=
  match s.wsegAt pa with
  | some (_, w) => w.lost.contains ((pa - w.fpa) / 4096)
  | none => true

/-! Flash, as a read of it meets it (R395, R397, R398) -/

/-- Bytes of a program page, of an extent (one page in each of the four stacks, R168), and the pages of an erase block. -/
def pageBytes : Nat := 16384
def extBytes : Nat := 65536
def pagesPerBlk : Nat := 1024

/-- The extent of a flash-region address. -/
def extOf (pa : Nat) : Nat := (pa - flashBase) / extBytes

def State.eraseBlk (s : State) (stack b : Nat) : EraseBlk := AMap.get EraseBlk.reset s.erase (65536 * stack + b)
def State.setEraseBlk (s : State) (stack b : Nat) (x : EraseBlk) : State := { s with erase := s.erase.put (65536 * stack + b) x }

/-- `n` reads of 4 KiB from the page of an extent in a stack count for its block. -/
def State.countPageReads (s : State) (ext stack n : Nat) : State :=
  match s.fmap.find (4 * ext + stack) with
  | some p => s.setEraseBlk stack (p / pagesPerBlk) { s.eraseBlk stack (p / pagesPerBlk) with reads := (s.eraseBlk stack (p / pagesPerBlk)).reads + n }
  | none => s

/-- Every stack that holds the extent is READY. -/
def State.flashUp (s : State) : Bool := (List.range 4).all fun k => s.ready.contains (.flash k)

/-- Extents the staging cache holds: 64 GB. -/
def stagingCapacity : Nat := 64000000000 / extBytes

/-- The segment that holds an extent. -/
def State.segOfExtent (s : State) (ext : Nat) : Option (Nat × WSeg) := s.wsegAt (flashBase + ext * extBytes)

/-- The share of the staging cache that an extent is filled into: the quota of a partition for a TENANT or PARTITION segment, or 16, the
pool of DEVICE segments (R398). A tenant belongs to one partition (R329). -/
def State.stageShare (s : State) (ext : Nat) : Nat :=
  match s.segOfExtent ext with
  | some (_, w) =>
    match w.scope with
    | 0 => (s.mxs.find? fun e => e.2.tenant.toNat == w.key && e.2.st != .free).elim 16 fun e => e.2.part
    | 1 => w.key
    | _ => 16
  | none => 16

/-- Extents of a share: whole GiB of 16,384 extents. -/
def State.shareExtents (s : State) (share : Nat) : Nat := min stagingCapacity (16384 * AMap.get 0 s.quotas share)

/-- An extent that the cold-start engine has filled ahead of use and not moved four entries past (R398). -/
def State.keptAhead (s : State) (ext : Nat) : Bool :=
  match s.ahead.find ext with
  | some (m, i) => decide ((s.mx m).coldNext ≤ i + 4)
  | none => false

/-- The staged extents of the share of an extent, itself left out. -/
def State.shareOf (s : State) (ext : Nat) : List Nat := s.staging.filter fun e => e != ext && s.stageShare e == s.stageShare ext

/-- The extent that leaves for a new one of a full share: the least recently used that is not kept (R398). -/
def State.stageVictim (s : State) (ext : Nat) : Option Nat := ((s.shareOf ext).filter fun e => !s.keptAhead e).getLast?

/-- An extent may enter the staging cache: its share, and the cache, have room, or an extent of the share can leave. -/
def State.stageRoom (s : State) (ext : Nat) : Bool :=
  (decide ((s.shareOf ext).length < s.shareExtents (s.stageShare ext)) && decide ((s.staging.filter (· != ext)).length < stagingCapacity))
    || (decide (0 < s.shareExtents (s.stageShare ext)) && (s.stageVictim ext).isSome)

/-- Whether accesses homed at the address go on (R418). A flash-region block goes on from the last-level cache, else from the staging
cache, which waits for the whole extent; an extent that cannot enter the cache is read from flash where its stacks are READY (log 59). An
uncorrectable error, at the first of these that holds the block, waits for the refill of R408 or for a peer (R409), until a block without one
is LOST. -/
def State.homeReady (s : State) (pa : Nat) : Bool :=
  if isFlash pa then
    s.flashLost pa || (
      if (s.llc.find (pa / 64)).isSome then !s.llcBad.contains (pa / 64)
      else if s.staging.contains (extOf pa) then !s.stageBad.contains (pa / 64)
      else !s.stageRoom (extOf pa) && s.flashUp && !s.badBlks.contains (pa / 64))
  else
    match homeUnit pa with
    | some u => s.ready.contains u
    | none => true

/-- Every home of a range goes on; homes alternate by 4 KiB outside the flash region. -/
def State.paUp (s : State) (pa n : Nat) : Bool :=
  if isFlash pa then (List.range ((pa + n + 63) / 64 - pa / 64)).all fun i => s.homeReady (64 * (pa / 64 + i))
  else (List.range ((pa + n + 4095) / 4096 - pa / 4096)).all fun i => s.homeReady (4096 * (pa / 4096 + i))

/-! Blocks -/

/-- A block whose data is uncorrectable when read: marked by a hardware event, homed at a CXL port whose expander is down (R424), or, in
the flash region, LOST in its weight segment or left by it (R406, R409), also where the range has been installed anew since. -/
def State.badBlk (s : State) (b : Nat) : Bool :=
  if goneBase ≤ 64 * b then true
  else if isFlash (64 * b) then s.flashLost (64 * b)
  else s.badBlks.contains b || (isCxl (64 * b) && s.cxlDown.contains (Config.cxlPortOf (64 * b) % 4))

/-- The stored block, deciphered under the key slot for a private page. -/
def State.storedBlk (s : State) (b : Nat) (enc : Option Nat) : Blk :=
  let raw := blkOfBytes (s.mem.readN (64 * b) 64)
  match enc with
  | none => raw
  | some k => xtsDec (s.key k).k1.toNat (s.key k).k2.toNat false (64 * b) raw

/-- The block as every access sees it: the cached copy, else the stored one (R171). -/
def State.readBlk (s : State) (b : Nat) (enc : Option Nat) : Blk :=
  match s.llc.find b with
  | some l => l.data
  | none => s.storedBlk b enc

/-- The stored block replaced. -/
def State.storeBlk (s : State) (b : Nat) (enc : Option Nat) (x : Blk) : State :=
  let y := match enc with
    | none => x
    | some k => xtsEnc (s.key k).k1.toNat (s.key k).k2.toNat false (64 * b) x
  { s with mem := s.mem.writeN (64 * b) (blkBytes y) }

/-- A block written: in the cached copy, which becomes dirty and is enciphered under the key of the write's page when it leaves (R333), else in
storage. -/
def State.writeBlk (s : State) (b : Nat) (enc : Option Nat) (x : Blk) : State :=
  match s.llc.find b with
  | some l => { s with llc := s.llc.put b { l with data := x, dirty := true, enc := enc } }
  | none => s.storeBlk b enc x

/-! Lines of the last-level cache (R170, R171, R328, R340) -/

/-- Where `shared` holds shared counter `k` of a micro-context. -/
def sharedKey (m k : Nat) : Nat := 1024 * m + k

/-- `n` more events of a shared counter (Table 19.6) of the micro-context they belong to (R370); those of no micro-context are counted nowhere. -/
def State.countShared (s : State) (m : Option Nat) (k n : Nat) : State :=
  { s with shared := match m with | some x => s.shared.put (sharedKey x k) (AMap.get 0 s.shared (sharedKey x k) + n) | none => s.shared }

/-- What tells the lines of the slices apart: the home, and the tag of R170. -/
structure LineTag where
  home : Nat
  mx : Nat
  tid : Nat
  /-- Frame number for tensor 0, else the tile coordinates. -/
  tile : Nat
  deriving DecidableEq, Repr

/-- The line of a cached block. -/
def LlcBlk.line (l : LlcBlk) (b : Nat) : LineTag :=
  { home := homeOf (64 * b), mx := l.mx, tid := l.tid, tile := if l.tid = 0 then b / 64 else l.tile }

/-- The micro-context that a line names; a line of tensor 0, or of a device tensor, names none. -/
def LlcBlk.owner (l : LlcBlk) : Option Nat := if l.tid = 0 || l.tid ≥ 0xF0000 then none else some l.mx

/-- The line of tensor 0 that holds a physical address's frame. -/
def frameLine (pa : Nat) : LineTag := { home := homeOf pa, mx := 0, tid := 0, tile := pa / 4096 }

/-- The set of a line in its slice: 2,048 sets of 16 ways. -/
def LineTag.set (t : LineTag) : Nat := Config.lineSet t.mx t.tid t.tile % 2048

/-- The cached blocks in a way of the set of a line. -/
def State.wayBlks (s : State) (t : LineTag) (w : Nat) : AMap LlcBlk :=
  s.llc.filter fun e => e.2.way == w && (e.2.line e.1).home == t.home && (e.2.line e.1).set == t.set

/-- The way a fill of a line takes: that of the line itself, else a free one, else the least recently used; only ways of the mask
(R328), and none that holds a retiring line (R340). -/
def State.fillWay (s : State) (t : LineTag) (mask : BitVec 16) : Option Nat :=
  match s.llc.find? fun e => e.2.line e.1 == t && !e.2.retiring with
  | some e => some e.2.way
  | none =>
    let last := fun (w : Nat) => (s.wayBlks t w).foldl (fun n e => max n (e.2.used + 1)) 0
    let ws := (List.range 16).filter fun w => mask.getLsbD w && !(s.wayBlks t w).any fun e => e.2.retiring
    ws.foldl (fun best w => match best with
      | none => some w
      | some v => if last w < last v then some w else some v) none

/-- Cached blocks evicted, for a micro-context or for none: exactly the dirty ones are written back. -/
def State.evict (s : State) (m : Option Nat) (l : AMap LlcBlk) : State :=
  let s1 := l.foldl (fun (t : State) e => if e.2.dirty then t.storeBlk e.1 e.2.enc e.2.data else t) s
  let s2 := { s1 with llc := s1.llc.filter (fun e => !l.any fun x => x.1 == e.1), llcBad := s1.llcBad.filter fun b => !l.any fun x => x.1 == b }
  if l.any fun e => e.2.dirty then s2.countShared m 0x102 1 else s2

/-- A block placed in a way as part of a line: moved from the line that holds it, with its dirty bit and, when dirty, the key of its write, or read
from below. -/
def State.placeBlk (s : State) (t : LineTag) (w b : Nat) (enc : Option Nat) : State :=
  let tile := if t.tid = 0 then 0 else t.tile
  match s.llc.find b with
  | some l =>
    { s with llc := s.llc.put b { l with mx := t.mx, tid := t.tid, tile := tile, way := w, used := s.dclk.toNat, retiring := false,
                                         enc := if l.dirty then l.enc else enc } }
  | none =>
    if s.badBlk b then s
    else
      let l : LlcBlk :=
        { mx := t.mx, tid := t.tid, tile := tile, way := w, used := s.dclk.toNat, data := s.storedBlk b enc, dirty := false, enc := enc,
          retiring := false, outgoing := 0 }
      { s with llc := s.llc.put b l }

/-- Blocks, each with the key slot of its page, filled into a line in the ways of a mask; nothing is filled where no way may be taken. The
fill is caused by a micro-context, or by none. -/
def State.fillLine (s : State) (m : Option Nat) (t : LineTag) (mask : BitVec 16) (blks : List (Nat × Option Nat)) : State :=
  match s.fillWay t mask with
  | none => s
  | some w =>
    let s1 := s.evict m ((s.wayBlks t w).filter fun e => e.2.line e.1 != t)
    blks.foldl (fun u b => u.placeBlk t w b.1 b.2) s1

/-- An access to a flash-region address reaches the staging cache: its extent is the one used last, and is held for no engine any more
(R398). An extent that is not there is read from flash (R397). -/
def State.useStaged (s : State) (pa : Nat) : State :=
  let e := extOf pa
  if s.staging.contains e then { s with staging := e :: s.staging.filter (· != e), ahead := s.ahead.erase e }
  else s.countPageReads e (pa / 4096 % 4) 1

/-- The frames of the flash region among those of some blocks that a read goes below the last-level cache for: each is one access to the staging
cache, or one read of 4 KiB from flash. -/
def State.readBelow (s : State) (blks : List Nat) : State :=
  (((blks.filter fun b => isFlash (64 * b) && (s.llc.find b).isNone).map (· / 64)).eraseDups).foldl (fun (t : State) f => t.useStaged (4096 * f)) s

/-- A store of R416 as a key of `weak` and `corrected`; `spCode` and `wordCode` are the scratchpad of a core, and its registers, queues, tags and
records, `wordCode` of core 1,024 those of the housekeeping processor. -/
def patrolCode : PatrolPlace → Nat
  | .mem => 0
  | .attn => 1
  | .cache => 2
  | .pane core second => 16 * (2 * core + second.toNat) + 3
  | .shutter core => 16 * core + 4
def spCode (core : Nat) : Nat := 16 * core + 5
def wordCode (core : Nat) : Nat := 16 * core + 6

/-- A read of a place with a correctable error: corrected and counted (R416). -/
def State.correctAt (s : State) (code b : Nat) : State :=
  if s.weak.contains (code, b) then { s with corrected := s.corrected.put code (AMap.get 0 s.corrected code + 1) } else s

/-- A read of a block with a correctable error: corrected and counted (R416); in embedded DRAM it counts for its row (R413). -/
def State.correct (s : State) (p : PatrolPlace) (b : Nat) : State :=
  let t := s.correctAt (patrolCode p) b
  if !s.weak.contains (patrolCode p, b) then s
  else match p with
    | .pane core second => t.setCore core { t.core core with rowErrs := (second, Config.eramRow b, s.dclk.toNat) :: (t.core core).rowErrs }
    | .shutter core => t.setCore core { t.core core with shutErrs := (Config.eramRow b, s.dclk.toNat) :: (t.core core).shutErrs }
    | _ => t

/-- A read of blocks of a core's scratchpad. -/
def State.correctSp (s : State) (core : Nat) (blks : List Nat) : State :=
  if s.weak = [] then s else blks.foldl (fun (t : State) b => t.correctAt (spCode core) b) s

/-- The correctable errors of registers, queues, tags and records of a core: met, corrected and written back. DESIGN CHOICE (log 62): by the
next word of the core that issues. -/
def State.correctWords (s : State) (core : Nat) : State :=
  let l := s.weak.filter fun e => e.1 == wordCode core
  if l = [] then s
  else { s with weak := s.weak.filter (fun e => e.1 != wordCode core),
                corrected := s.corrected.put (wordCode core) (AMap.get 0 s.corrected (wordCode core) + l.length) }

/-- The blocks of physical ranges. -/
def spanBlks (l : List (Nat × Nat)) : List Nat :=
  l.flatMap fun e => (List.range (if e.2 = 0 then 0 else (e.1 + e.2 - 1) / 64 - e.1 / 64 + 1)).map (e.1 / 64 + ·)

/-- Reads of blocks meet their correctable errors, in the cached copy or in memory. -/
def State.correctBlks (s : State) (l : List Nat) : State :=
  if s.weak = [] then s
  else l.foldl (fun (t : State) b =>
    if (t.llc.find b).isSome then t.correct .cache b else if isFlash (64 * b) then t else t.correct .mem b) s

/-- Physical ranges are read by a word at its issue, a walk or a unit of the device: frames of the flash region from the staging cache, or each as a
read of 4 KiB from flash (R397, R398), and correctable errors met (R416). -/
def State.meets (s : State) (l : List (Nat × Nat)) : State := (s.readBelow (spanBlks l)).correctBlks (spanBlks l)

/-- An access of tensor `tid` to `n` bytes meets the blocks of matching lines: each is used now, and a hit counted. A retiring line of a
tensor matches no lookup. -/
def State.hit (s : State) (m : Option Nat) (tid pa n : Nat) : State :=
  (List.range (if n = 0 then 0 else (pa + n - 1) / 64 - pa / 64 + 1)).foldl
    (fun (u : State) i =>
      match u.llc.find (pa / 64 + i) with
      | some l =>
        if l.tid = tid && (tid = 0 || tid ≥ 0xF0000 || some l.mx = m) && !(l.retiring && tid != 0) then
          ({ u with llc := u.llc.put (pa / 64 + i) { l with used := u.dclk.toNat } }.countShared m 0x100 1).correct .cache (pa / 64 + i)
        else u.correct .cache (pa / 64 + i)
      | none => if isFlash pa then u.useStaged pa else u.correct .mem (pa / 64 + i)) s

/-- Bytes of a block replaced from byte `o` on. -/
def patchBlk (x : Blk) (o : Nat) (l : List Byte) : Blk :=
  let bs := blkBytes x
  blkOfBytes (bs.take o ++ l ++ bs.drop (o + l.length))

/-- Bytes from a physical address, `fuel` blocks at most. -/
def State.readPaAux (s : State) (enc : Option Nat) : Nat → Nat → Nat → List Byte
  | 0, _, _ => []
  | f + 1, pa, n =>
    if n = 0 then []
    else
      let k := min n (64 - pa % 64)
      sliceBytes (blkBytes (s.readBlk (pa / 64) enc)) (pa % 64) k ++ s.readPaAux enc f (pa + k) (n - k)

/-- `n` bytes from a physical address. -/
def State.readPa (s : State) (enc : Option Nat) (pa n : Nat) : List Byte := s.readPaAux enc (n / 64 + 2) pa n

/-- Bytes written at a physical address. A byte of a block that is neither cached nor private is stored as it is. -/
def State.writePaAux (s : State) (enc : Option Nat) : Nat → Nat → List Byte → State
  | 0, _, _ => s
  | f + 1, pa, l =>
    if l = [] then s
    else
      let k := 64 - pa % 64
      let b := pa / 64
      let s' :=
        if (s.llc.find b).isNone && enc == none then { s with mem := s.mem.writeN pa (l.take k) }
        else s.writeBlk b enc (patchBlk (s.readBlk b enc) (pa % 64) (l.take k))
      s'.writePaAux enc f (pa + k) (l.drop k)

def State.writePa (s : State) (enc : Option Nat) (pa : Nat) (l : List Byte) : State :=
  s.writePaAux enc (l.length / 64 + 2) pa l

/-- Some block of the range is uncorrectable: the address of the first. -/
def State.badIn (s : State) (pa n : Nat) : Option Nat :=
  (List.range (if n = 0 then 0 else (pa + n - 1) / 64 - pa / 64 + 1)).find? (fun i => s.badBlk (pa / 64 + i))
    |>.map (fun i => 64 * (pa / 64 + i))

/-- Physical bytes as the housekeeping processor and the engines of the device read them: no private page. -/
def State.peek (s : State) (pa n : Nat) : List Byte := s.readPa none pa n
def State.poke (s : State) (pa : Nat) (l : List Byte) : State := s.writePa none pa l

/-! Write locks -/

/-- Frames (4 KiB numbers) that no agent writes: those of code segments (R51), of launch structures under SIGCHK (R376), and the
flash region (R336). -/
def State.frameLocked (s : State) (f : Nat) : Bool :=
  s.segs.any (fun e => e.2.frames.contains f) || s.mxs.any (fun e => e.2.locks.contains f) || isFlash (4096 * f)

/-- Some frame of a range refuses writes. -/
def State.rangeLocked (s : State) (pa n : Nat) : Bool := (List.range (n / 4096 + 2)).any fun i => decide (4096 * i < n + pa % 4096) && s.frameLocked (pa / 4096 + i)

/-- R336: a micro-context outside the scope of a weight segment has no permission on its frames. -/
def State.scopeOk (s : State) (m : Nat) (pa : Nat) : Bool :=
  if isFlash pa then
    match s.wsegAt pa with
    | some (_, w) =>
      match w.scope with
      | 0 => (s.mx m).tenant.toNat == w.key
      | 1 => (s.mx m).part == w.key
      | _ => true
    | none => true
  else true

/-- The byte of the dirty bitmap that a guest's write at an intermediate address sets a bit of, where it sets one (R352). -/
def State.dirtyAt (s : State) (p ipa : Nat) : Option Nat :=
  let r := s.part p
  let a := r.dbase.toNat + ipa / 4096 / 8
  if r.dlog && p != 15 && decide (ipa / 4096 / 8 < r.dlen.toNat) && !s.frameLocked (a / 4096) then some a else none

/-- The home of that byte is READY: the write waits for it as for its own (R418). -/
def State.dirtyUp (s : State) (p ipa : Nat) : Bool := (s.dirtyAt p ipa).elim true s.homeReady

/-- R352: a write of a guest of the partition at an intermediate address sets the bit of its frame in the dirty bitmap. A write of the
housekeeping processor, partition 15, sets none, nor does one whose bit lies in a locked frame. -/
def State.logDirty (s : State) (p ipa : Nat) : State :=
  match s.dirtyAt p ipa with
  | some a => s.poke a [((s.peek a 1).getD 0 0) ||| BitVec.ofNat 8 (2 ^ (ipa / 4096 % 8))]
  | none => s

end Sys2Proof.Machine
end

