-- ==== Sys2Proof/Machine/Translate.lean ====
section
/-! DEFINITION. Translation of G and IO addresses (R162 to R166): the nested walk, the TLB of a core, and the permission of an
access. -/

namespace Sys2Proof.Machine

/-- Why an address does not translate or may not be accessed: the fault code of Table 20.2, its reason, stage and level. -/
structure XlErr where
  code : Nat
  reason : Nat
  stage : Nat
  level : Nat
  deriving DecidableEq, Repr

def xlNotValid (st lv : Nat) : XlErr := ⟨3, 1, st, lv⟩
def xlBadPte (st lv : Nat) : XlErr := ⟨3, 2, st, lv⟩
def xlNoMem (st lv : Nat) : XlErr := ⟨3, 3, st, lv⟩
def xlNonCanon (st lv : Nat) : XlErr := ⟨3, 4, st, lv⟩
def xlPerm : XlErr := ⟨4, 0, 0, 0⟩
def xlUncorr : XlErr := ⟨6, 0, 0, 0⟩

/-- Page size of a leaf's SZ code, and the level that holds it (Table 7.5). -/
def pageSize (sz : Nat) : Option (Nat × Nat) :=
  match sz with
  | 0 => some (0x1000, 0) | 1 => some (0x4000, 0) | 2 => some (0x10000, 0) | 3 => some (0x40000, 0) | 4 => some (0x100000, 0)
  | 5 => some (0x400000, 1) | 6 => some (0x1000000, 1) | 7 => some (0x4000000, 1) | 8 => some (0x10000000, 1)
  | 9 => some (0x40000000, 2)
  | _ => none

/-- A leaf: page base, size, and the attribute bits (Table 7.4). -/
structure Leaf where
  base : Nat
  size : Nat
  level : Nat
  rd : Bool
  w : Bool
  x : Bool
  desc : Bool
  enc : Bool

/-- What an entry read at a level of a stage is (R165 reasons NOTVALID and BADPTE, in that order). -/
inductive Pte where
  | next (table : Nat)
  | leaf (l : Leaf)
  | bad (e : XlErr)

/-- An entry of a table, examined. DESIGN CHOICE (log 69): BADPTE of a leaf with W = 1 that maps a flash-region page (R168) is raised at the stage-2
leaf, whose FRAME is physical; where the stage-2 leaf has W = 0, a stage-1 leaf with W = 1 over it is no BADPTE, and a write lacks W. -/
def pteOf (stage level e : Nat) : Pte :=
  if bit e 0 = false then .bad (xlNotValid stage level)
  else if bits e 63 48 ≠ 0 ∨ bit e 7 then .bad (xlBadPte stage level)
  else if bit e 1 = false then
    if bits e 11 2 ≠ 0 ∨ level = 0 then .bad (xlBadPte stage level) else .next (bits e 47 12 * 4096)
  else
    match pageSize (bits e 11 8) with
    | none => .bad (xlBadPte stage level)
    | some (size, lv) =>
      let base := bits e 47 12 * 4096
      if lv ≠ level ∨ base % size ≠ 0 ∨ (stage = 2 ∧ bit e 5) ∨ (stage = 1 ∧ bit e 6) ∨ (bit e 3 ∧ bit e 4)
          ∨ (stage = 2 ∧ isIo base ∧ (bit e 4 ∨ bit e 6)) ∨ (stage = 2 ∧ isFlash base ∧ bit e 3) then
        .bad (xlBadPte stage level)
      else .leaf { base := base, size := size, level := level, rd := bit e 2, w := bit e 3, x := bit e 4,
                   desc := bit e 5, enc := bit e 6 }

/-- The table entry at a physical address; a hole is NOMEM before the entry is examined (R165). -/
def State.readPte (s : State) (enc : Option Nat) (stage level pa : Nat) : Except XlErr Nat :=
  if !s.guestPopulated pa then .error (xlNoMem stage level)
  else if s.badBlk (pa / 64) then .error xlUncorr
  else .ok (leNat (s.readPa enc pa 8))

/-- Index of an address at a level (R163). -/
def pteIndex (level a : Nat) : Nat := a / 2 ^ (12 + 9 * level) % 512

/-! The walk cache (R330) -/

/-- The bits of an address that a walk-cache entry made at a level is found by. -/
def walkTag (level a : Nat) : Nat := a / 2 ^ (12 + 9 * level)

/-- The table that the entry of a level leads to for an address, where the cache holds it. -/
def walkFind (wc : List WalkEntry) (p mxi stage level a : Nat) : Option Nat :=
  (wc.find? fun e => e.part == p && e.mx == mxi && e.stage == stage && e.level == level && e.tag == walkTag level a).map (·.table)

/-- Who walks: partition, micro-context and key slot, the partition's stage-2 root as the walk read it at its start, and the walk cache
it uses, none for a unit of the device. -/
structure Walker where
  part : Nat
  mx : Nat
  kslot : Nat
  root2 : Nat
  cache : List WalkEntry

/-- Stage 2 from level `n - 1` down. DESIGN CHOICE (log 67): of replicas that differ (R164) the one at the address's own index is taken. -/
def State.walk2 (s : State) (k : Walker) : Nat → Nat → Nat → Except XlErr Leaf
  | 0, _, _ => .error (xlBadPte 2 0)
  | n + 1, table, ipa =>
    match walkFind k.cache k.part k.mx 2 n ipa with
    | some t => s.walk2 k n t ipa
    | none =>
      match s.readPte none 2 n (table + 8 * pteIndex n ipa) with
      | .error e => .error e
      | .ok e =>
        match pteOf 2 n e with
        | .bad x => .error x
        | .leaf l => .ok l
        | .next t => s.walk2 k n t ipa

/-- The stage-2 leaf of an intermediate address (R330). DESIGN CHOICE (log 67): NONCANON of an IPA names stage 2 and its highest level, 3; R162 names none. -/
def State.stage2 (s : State) (k : Walker) (ipa : Nat) : Except XlErr Leaf :=
  if ipa ≥ 2 ^ 48 then .error (xlNonCanon 2 3) else s.walk2 k 4 k.root2 ipa

/-- The stage-1 entry at an intermediate address, read through stage 2. DESIGN CHOICE (log 69): the read asks no permission of its stage-2 page, and a
table that stage 2 maps to an IO page is read as memory at that address; R162 and R165 say neither. -/
def State.readPte1 (s : State) (k : Walker) (level ea : Nat) : Except XlErr Nat :=
  match s.stage2 k ea with
  | .error e => .error e
  | .ok l => s.readPte (if l.enc then some k.kslot else none) 1 level (l.base + ea % l.size)

/-- Stage 1 from level `n - 1` down; each table is read at its IPA. DESIGN CHOICE (log 67): of replicas that differ (R164) the one at the address's own index
is taken. -/
def State.walk1 (s : State) (k : Walker) : Nat → Nat → Nat → Except XlErr Leaf
  | 0, _, _ => .error (xlBadPte 1 0)
  | n + 1, table, va =>
    match walkFind k.cache k.part k.mx 1 n va with
    | some t => s.walk1 k n t va
    | none =>
      match s.readPte1 k n (table + 8 * pteIndex n va) with
      | .error e => .error e
      | .ok e =>
        match pteOf 1 n e with
        | .bad x => .error x
        | .leaf l => .ok l
        | .next t => s.walk1 k n t va

/-- The walker of a micro-context, with a walk cache. -/
def State.walker (s : State) (m : Nat) (cache : List WalkEntry) : Walker :=
  { part := (s.mx m).part, mx := m, kslot := (s.mx m).kslot, root2 := (s.part (s.mx m).part).s2root.toNat, cache := cache }

/-- The whole walk of a virtual address from a stage-1 root, as a TLB entry of the smaller of the two page sizes (R162 to R166). DESIGN CHOICE (log 67):
NONCANON of a VA names stage 1 and its highest level, 4; R162 names none. -/
def State.walk (s : State) (k : Walker) (root : Nat) (va : Nat) : Except XlErr TlbEntry :=
  if va ≥ 2 ^ 57 then .error (xlNonCanon 1 4)
  else
    match s.walk1 k 5 root va with
    | .error e => .error e
    | .ok l1 =>
      let ipa := l1.base + va % l1.size
      match s.stage2 k ipa with
      | .error e => .error e
      | .ok l2 =>
        let pa := l2.base + ipa % l2.size
        if isIo pa && (l1.x || l1.desc) then .error (xlBadPte 1 l1.level)
        else if !s.guestPopulated pa then .error (xlNoMem 2 l2.level)
        else
          let z := min l1.size l2.size
          .ok { part := k.part, mx := k.mx, va := va / z * z, size := z, ipa := ipa / z * z, pa := pa / z * z,
                rd := l1.rd && l2.rd, w := l1.w && l2.w, x := l1.x && l2.x, desc := l1.desc, enc := l2.enc,
                page1 := (va / l1.size * l1.size, l1.size), page2 := (ipa / l2.size * l2.size, l2.size) }

/-- The tables that the entries of a stage, from level `n - 1` down, lead an address to, as entries of the walk cache. `rd` reads the entry of
a level at an address of the stage's tables. -/
def walkTables (k : Walker) (stage : Nat) (rd : Nat → Nat → Except XlErr Nat) (a : Nat) : Nat → Nat → List WalkEntry
  | 0, _ => []
  | n + 1, table =>
    match rd n (table + 8 * pteIndex n a) with
    | .error _ => []
    | .ok e =>
      match pteOf stage n e with
      | .next t => { part := k.part, mx := k.mx, stage := stage, level := n, tag := walkTag n a, table := t } :: walkTables k stage rd a n t
      | _ => []

/-- What the walk of an address leaves in the walk cache: the tables of stage 1, and those of stage 2 for the address it ends at. -/
def State.walkTrace (s : State) (k : Walker) (root va ipa : Nat) : List WalkEntry :=
  walkTables k 1 (fun n ea => s.readPte1 k n ea) va 5 root ++ walkTables k 2 (fun n pa => s.readPte none 2 n pa) ipa 4 k.root2

/-- The entry of a core's TLB that matches (R330). -/
def tlbFind (t : List TlbEntry) (p mxi va : Nat) : Option TlbEntry :=
  t.find? fun e => e.part == p && e.mx == mxi && decide (e.va ≤ va ∧ va < e.va + e.size)

/-- The final translation an access of a micro-context on a core uses: the core's TLB entry, else a walk with the core's walk cache (R166,
R330). A page of a TLB entry holds memory only up to the populated length of its region (R167). -/
def State.translation (s : State) (core : Option Nat) (m va : Nat) : Except XlErr TlbEntry :=
  let x := s.mx m
  match core.bind (fun c => tlbFind (s.core c).tlb x.part m va) with
  | some e =>
    -- the frames of a released segment are an uncorrectable error to a translation made before (R406)
    if isFlash (e.pa + (va - e.va)) || s.guestPopulated (e.pa + (va - e.va)) then .ok e
    else .error (xlNoMem 2 (if e.page2.2 < 0x400000 then 0 else if e.page2.2 < 0x40000000 then 1 else 2))
  | none => s.walk (s.walker m (match core with | some c => (s.core c).wcache | none => [])) x.s1root.toNat va

/-- What an access needs of its page: RD, W or X at both stages (R165). -/
inductive Need where
  | read | write | exec
  deriving DecidableEq, Repr

def TlbEntry.allows (e : TlbEntry) : Need → Bool
  | .read => e.rd
  | .write => e.w
  | .exec => e.x

/-- The physical address of an access through a translation. -/
def TlbEntry.paOf (e : TlbEntry) (va : Nat) : Nat :=
  let pa := e.pa + (va - e.va)
  if e.gone.any fun r => decide (r.1 ≤ pa ∧ pa < r.1 + r.2) then goneBase + pa else pa

/-- The translation after a RELEASE has taken a physical range away (R406 step 2). -/
def TlbEntry.release (e : TlbEntry) (base n : Nat) : TlbEntry :=
  if e.pa < base + n ∧ base < e.pa + e.size then { e with gone := (base, n) :: e.gone } else e

def TlbEntry.ipaOf (e : TlbEntry) (va : Nat) : Nat := e.ipa + (va - e.va)

/-- A translated access: its physical and intermediate address, the key slot of a private page, and the page attribute. -/
structure Xl where
  pa : Nat
  ipa : Nat
  enc : Option Nat
  desc : Bool
  page : TlbEntry
  deriving DecidableEq, Repr

/-- Translation and permission of an access to G or IO. `io` tells whether the access may reach an IO page (R173). A write to a
locked frame and an access outside a weight segment's scope have no permission (R51, R336). -/
def State.access (s : State) (core : Option Nat) (m va : Nat) (need : Need) (io : Bool) : Except XlErr Xl :=
  match s.translation core m va with
  | .error e => .error e
  | .ok e =>
    let pa := e.paOf va
    if !e.allows need || (isIo pa && !io) || !s.scopeOk m pa || (need == .write && s.frameLocked (pa / 4096)) then
      .error xlPerm
    else .ok { pa := pa, ipa := e.ipaOf va, enc := if e.enc then some (s.mx m).kslot else none, desc := e.desc, page := e }

/-- A physical access of the housekeeping processor (R356): an address with bits 63:48 set is not canonical (R162), every populated region is
readable, locked frames are not writable. DESIGN CHOICE (log 67): its NONCANON, like its NOMEM, names stage 0 and level 0, since it walks no table. -/
def State.accessPhys (s : State) (pa : Nat) (need : Need) : Except XlErr Xl :=
  if pa ≥ 2 ^ 48 then .error (xlNonCanon 0 0)
  else if !s.populated pa then .error (xlNoMem 0 0)
  else if need == .write && s.frameLocked (pa / 4096) then .error xlPerm
  else .ok { pa := pa, ipa := pa, enc := none, desc := false,
             page := { part := 15, mx := 0, va := pa, size := 4096, ipa := pa, pa := pa, rd := true, w := true, x := true,
                       desc := false, enc := false, page1 := (pa, 4096), page2 := (pa, 4096) } }

/-! Walks that wait (R418) -/

/-- The addresses of the entries that stage 2 reads from level `n - 1` down. -/
def State.walk2Reads (s : State) (k : Walker) : Nat → Nat → Nat → List Nat
  | 0, _, _ => []
  | n + 1, table, ipa =>
    match walkFind k.cache k.part k.mx 2 n ipa with
    | some t => s.walk2Reads k n t ipa
    | none =>
      let pa := table + 8 * pteIndex n ipa
      pa :: (match s.readPte none 2 n pa with
        | .ok e => (match pteOf 2 n e with | .next t => s.walk2Reads k n t ipa | _ => [])
        | .error _ => [])

/-- The addresses of the entries that stage 1 reads from level `n - 1` down, and what their own addresses and the address they end at take at
stage 2. -/
def State.walk1Reads (s : State) (k : Walker) : Nat → Nat → Nat → List Nat
  | 0, _, _ => []
  | n + 1, table, va =>
    match walkFind k.cache k.part k.mx 1 n va with
    | some t => s.walk1Reads k n t va
    | none =>
      let ea := table + 8 * pteIndex n va
      s.walk2Reads k 4 k.root2 ea ++ (match s.stage2 k ea with | .ok l => [l.base + ea % l.size] | .error _ => [])
        ++ (match s.readPte1 k n ea with
          | .ok e => (match pteOf 1 n e with
            | .next t => s.walk1Reads k n t va
            | .leaf l => s.walk2Reads k 4 k.root2 (l.base + va % l.size)
            | .bad _ => [])
          | .error _ => [])

/-- The walk of an address waits for the home of an entry (R418). -/
def State.walkStalls (s : State) (core : Option Nat) (m va : Nat) : Bool :=
  let x := s.mx m
  match core.bind fun c => tlbFind (s.core c).tlb x.part m va with
  | some _ => false
  | none =>
    (s.walk1Reads (s.walker m (match core with | some c => (s.core c).wcache | none => [])) 5 x.s1root.toNat va).any fun a => !s.homeReady a

/-- Two ranges of addresses meet. -/
def rangesMeet (a n b k : Nat) : Bool := decide (a < b + k ∧ b < a + n)

/-- A translation maps one of the two frames. -/
def Exchange.maps (x : Exchange) (e : TlbEntry) : Bool := rangesMeet e.pa e.size x.frameA x.size || rangesMeet e.pa e.size x.frameB x.size

/-- A physical range meets a frame of a running exchange: an access that translates to it stalls (R392). -/
def State.exchanging (s : State) (pa n : Nat) : Bool :=
  match s.exchange with
  | some x => rangesMeet pa n x.frameA x.size || rangesMeet pa n x.frameB x.size
  | none => false

/-- An access to a range goes on: the walks of its pages, and their homes (R418), which no exchange has frozen (R392). -/
def State.vaUpAux (s : State) (core : Option Nat) (m : Nat) : Nat → Nat → Nat → Bool
  | 0, _, _ => true
  | f + 1, va, n =>
    n == 0 || (!s.walkStalls core m va
      && (match s.access core m va .read false with | .ok x => s.paUp x.pa (min n (4096 - va % 4096)) && !s.exchanging x.pa (min n (4096 - va % 4096)) | .error _ => true)
      && s.vaUpAux core m f (va + min n (4096 - va % 4096)) (n - min n (4096 - va % 4096)))

def State.vaUp (s : State) (core : Option Nat) (m va n : Nat) : Bool := s.vaUpAux core m (n / 4096 + 2) va n

/-- The physical ranges of a range of addresses, page by page; none of a page that does not translate. -/
def State.vaSpansAux (s : State) (core : Option Nat) (m : Nat) : Nat → Nat → Nat → List (Nat × Nat)
  | 0, _, _ => []
  | f + 1, va, n =>
    if n = 0 then []
    else
      let k := min n (4096 - va % 4096)
      (match s.access core m va .read false with | .ok x => [(x.pa, k)] | .error _ => []) ++ s.vaSpansAux core m f (va + k) (n - k)

def State.vaSpans (s : State) (core : Option Nat) (m va n : Nat) : List (Nat × Nat) := s.vaSpansAux core m (n / 4096 + 2) va n

/-- The dirty bitmap of a micro-context's partition takes writes to a range of addresses (R352, R418). -/
def State.vaDirtyUp (s : State) (m va n : Nat) : Bool :=
  (List.range (if n = 0 then 0 else (va + n - 1) / 4096 - va / 4096 + 1)).all fun i =>
    match s.access none m (max va (4096 * (va / 4096 + i))) .write false with
    | .ok x => s.dirtyUp (s.mx m).part x.ipa
    | .error _ => true

/-- The walks of a range of addresses, for a unit of the device, wait for no home, and none of its pages lies in a frame of an exchange (R392, R418). -/
def State.walksUp (s : State) (m va n : Nat) : Bool :=
  (List.range (if n = 0 then 0 else (va + n - 1) / 4096 - va / 4096 + 1)).all fun i =>
    let a := 4096 * (va / 4096 + i)
    !s.walkStalls none m a && (match s.access none m a .read false with | .ok x => !s.exchanging x.pa 4096 | .error _ => true)

/-- The table entries that the walks of a range of addresses read, for a unit of the device, which has no TLB. -/
def State.vaWalks (s : State) (m va n : Nat) : List (Nat × Nat) :=
  ((List.range (if n = 0 then 0 else (va + n - 1) / 4096 - va / 4096 + 1)).flatMap fun i =>
    s.walk1Reads (s.walker m []) 5 (s.mx m).s1root.toNat (4096 * (va / 4096 + i))).map fun a => (a, 8)

/-- `n` bytes at a virtual address of a micro-context, read by a unit of the device through both stages, page by page: the first
failure and its address, or the bytes. -/
def State.readVaAux (s : State) (core : Option Nat) (m : Nat) : Nat → Nat → Nat → Except (XlErr × Nat) (List Byte)
  | 0, _, _ => .ok []
  | f + 1, va, n =>
    if n = 0 then .ok []
    else
      match s.access core m va .read false with
      | .error e => .error (e, va)
      | .ok x =>
        let k := min n (4096 - va % 4096)
        match s.badIn x.pa k with
        | some b => .error (xlUncorr, if b ≤ x.pa then va else va + (b - x.pa))
        | none =>
          match s.readVaAux core m f (va + k) (n - k) with
          | .error e => .error e
          | .ok r => .ok (s.readPa x.enc x.pa k ++ r)

def State.readVaAt (s : State) (core : Option Nat) (m va n : Nat) : Except (XlErr × Nat) (List Byte) :=
  s.readVaAux core m (n / 4096 + 2) va n

def State.readVa (s : State) (core : Option Nat) (m va n : Nat) : Except XlErr (List Byte) :=
  match s.readVaAt core m va n with
  | .ok l => .ok l
  | .error e => .error e.1

/-- Bytes written at a virtual address by a unit of the device, page by page; nothing is written when a page fails. -/
def State.writeVaAux (s : State) (core : Option Nat) (m : Nat) : Nat → Nat → List Byte → Except XlErr State
  | 0, _, _ => .ok s
  | f + 1, va, l =>
    if l = [] then .ok s
    else
      match s.access core m va .write false with
      | .error e => .error e
      | .ok x =>
        let k := 4096 - va % 4096
        match s.badIn x.pa (min k l.length) with
        | some _ => .error xlUncorr
        | none => ((s.writePa x.enc x.pa (l.take k)).logDirty (s.mx m).part x.ipa).writeVaAux core m f (va + k) (l.drop k)

def State.writeVa (s : State) (core : Option Nat) (m va : Nat) (l : List Byte) : Except XlErr State :=
  s.writeVaAux core m (l.length / 4096 + 2) va l

end Sys2Proof.Machine
end

