-- ==== Sys2Proof/Machine/Links.lean ====
section
/-! DEFINITION. What partitions share in turns: the time slots of the link egresses (R345 to R347) and the round robin of the walker pools,
CXL home agents, attention chiplet and flash stacks (R348). -/

namespace Sys2Proof.Machine

/-! Shutter tables. Egresses: 0 and 1 the networks of stacks A and B, 2 to 19 UALink, 20 to 23 Ethernet, 24 the host link (SHTSET). -/

/-- The number of the frame of 8,192 ns that runs (R345). -/
def State.frameNo (s : State) : Nat := s.ltb.toNat / 8192

/-- The table an egress uses: its pending table from the start of the frame it names, else the one before (R347). -/
def State.shutTable (s : State) (e : Nat) : List (BitVec 32) :=
  match s.shutPend.find e with
  | some (l, f) => if f ≤ s.frameNo then l else AMap.get [] s.shut e
  | none => AMap.get [] s.shut e

/-- The frame with whose start a table that is named for a frame now becomes the egress's: the running frame has begun, and takes none any more, so that no
egress uses a mixture of two tables within one frame (R347). -/
def State.shutFrom (s : State) (f : Nat) : Nat := max f (s.frameNo + 1)

/-- The pending tables whose frame has begun become the tables of their egresses, all at once (R347). -/
def State.settleShut (s : State) : State :=
  { s with
    shut := (s.shutPend.filter fun e => e.2.2 ≤ s.frameNo).foldl (fun t e => t.put e.1 e.2.1) s.shut
    shutPend := s.shutPend.filter fun e => s.frameNo < e.2.2 }

/-- The partition that owns the slot of 128 ns that runs on an egress; none for an unowned one (Table 18.9). -/
def State.slotOwner (s : State) (e : Nat) : Option Nat :=
  let w := (s.shutTable e).getD (s.ltb.toNat / 128 % 64) 0
  if w.getLsbD 31 then some (w.toNat % 16) else none

/-- A unit of a partition whose transmission takes `ns` nanoseconds may leave an egress now: it starts and ends in a slot of its own
(R346). -/
def State.mayLeave (s : State) (e p ns : Nat) : Bool := s.slotOwner e == some p && decide (s.ltb.toNat % 128 + ns ≤ 128)

/-- A unit of a partition may leave some UALink port now. -/
def State.scaleOpenFor (s : State) (p : Nat) : Bool := (List.range 18).any fun k => s.mayLeave (2 + k) p 1

/-- A unit of the system partition may leave some UALink port now. -/
def State.scaleOpen (s : State) : Bool := s.scaleOpenFor 15

/-- A frame of `n` bytes of a partition may leave some Ethernet port now, at 100 bytes a nanosecond. -/
def State.etherOpenFor (s : State) (p n : Nat) : Bool := (List.range 4).any fun k => s.mayLeave (20 + k) p ((n + 99) / 100)

/-- A home slice and its memory controller serve a partition's queue: in the partition's slots (R328), which have the same numbers on every egress of
a path (R347), so that those of either stack's network stand for them (log 38). -/
def State.homeServes (s : State) (p : Nat) : Bool := s.mayLeave 0 p 2 || s.mayLeave 1 p 2

/-- Units of a micro-context's streams leave its stack's tiers toward a home in a slot of its partition that still has 2 ns left (R346); those of one
that holds no tile group any more are served by the home in such a slot (R328). -/
def State.mayReachMx (s : State) (m : Nat) : Bool :=
  match (s.mx m).team with
  | some t => s.mayLeave t.stack (s.mx m).part 2
  | none => s.homeServes (s.mx m).part

/-- The same of a stream, and of the housekeeping processor, which has none. -/
def State.mayReach (s : State) (ref : Option StreamRef) : Bool :=
  match ref with
  | none => s.homeServes 15
  | some x => s.mayReachMx x.mx

/-- The networks of the stacks have no slot of a partition. -/
def State.noSlotOf (s : State) (p : Nat) : Bool :=
  (List.range 2).all fun k => (s.shutTable k).all fun w => !(w.getLsbD 31 && w.toNat % 16 == p)

/-- They have none of the system partition: firmware has written no table yet. -/
def State.noSystemSlot (s : State) : Bool := s.noSlotOf 15

/-- Writes of the device for a micro-context are still on their way, and its partition has slots for them: its number is not bound anew before. -/
def State.writesOwed (s : State) (m : Nat) : Bool := (s.devWrites.any fun w => w.mx == m) && !s.noSlotOf (s.mx m).part

/-- Code fetches of the housekeeping processor, and the arguments of its commands, go in slots of the system partition. DESIGN CHOICE (log 38): in any
cycle while there is none, since it must run to write the first table (R347). -/
def State.hkReach (s : State) : Bool := s.noSystemSlot || s.homeServes 15

/-- A unit of the system partition may leave the host link now. -/
def State.hostOpen (s : State) : Bool := s.mayLeave 24 15 1

/-! Turns (R348). Resources: 0 and 1 the walker pools of stacks A and B, 2 and 3 the CXL home agents of their base dies, 4 the attention
chiplet's command path, 5 to 8 the flash stacks, 9 the chiplet's copy path, 10 its engines. -/

/-- The resource behind the home of an address; none for compute-side HBM, whose homes the slots of R346 divide. -/
def homeResource (pa : Nat) : Option Nat :=
  if isFlash pa then some (5 + pa / 4096 % 4) else if isCxl pa then some (2 + Config.cxlPortOf pa % 4 / 2) else none

/-- The partition a resource serves next among those with requests: the first after the one served last, in cyclic order. -/
def State.nextTurn (s : State) (res : Nat) (ps : List Nat) : Option Nat :=
  ((List.range 16).map fun k => (AMap.get 15 s.turns res + 1 + k) % 16).find? ps.contains

/-- A partition's request has the resource's turn. -/
def State.hasTurn (s : State) (res p : Nat) (ps : List Nat) : Bool := s.nextTurn res ps == some p

/-- A resource has served a partition. -/
def State.served (s : State) (res p : Nat) : State := { s with turns := s.turns.put res p }
def State.servedAll (s : State) (p : Nat) (l : List Nat) : State := l.foldl (fun (t : State) k => t.served k p) s

/-- The resources behind a range of addresses, whose homes alternate by 4 KiB. -/
def rangeResources (pa n : Nat) : List Nat :=
  ((List.range ((pa + n + 4095) / 4096 - pa / 4096)).filterMap fun i => homeResource (4096 * (pa / 4096 + i))).eraseDups

/-- The flash stacks. -/
def flashResources : List Nat := [5, 6, 7, 8]

/-! Misses at the walker pools (R166) -/

/-- A miss of a core asked of its stack's walker pool; one that waits there already is not asked again. -/
def State.askWalk (s : State) (core m va : Nat) : State :=
  let w : Walk := { stack := core / 512, core := core, part := (s.mx m).part, mx := m, va := va / 4096 * 4096 }
  if s.walks.contains w then s else { s with walks := s.walks ++ [w] }

/-- The pages an access of a core translates that its TLB does not hold, asked of the walker pool. -/
def State.askWalks (s : State) (core m : Nat) (pages : List TlbEntry) : State :=
  pages.foldl (fun t e =>
    if (tlbFind (t.core core).tlb e.part m e.va).isSome then t else t.askWalk core m e.va) s

/-- A walk is served: the oldest of its core, for the partition whose turn it is among those that wait at the pool. -/
def State.walkDue (s : State) (w : Walk) : Bool :=
  (s.walks.find? fun x => x.core == w.core) == some w
    && s.hasTurn w.stack w.part ((s.walks.filter fun x => x.stack == w.stack).map (·.part))

end Sys2Proof.Machine
end

