-- ==== Sys2Proof/Machine/Ops.lean ====
section
/-! DEFINITION. The named operations every meaning is built from: the registers of the agent whose word runs, its program
counter, the token queues, the fault record and what follows a fault (R379 to R383), events for the housekeeping processor
(R358) and machine checks (R417). -/

namespace Sys2Proof.Machine

/-! Sequencers and streams -/

def Stream.seqr (x : Stream) : Section → Seqr
  | .sc => x.sc
  | .ld => x.ld
  | .cm => x.cm
  | .st => x.st

def Stream.setSeqr (x : Stream) (c : Section) (y : Seqr) : Stream :=
  match c with
  | .sc => { x with sc := y }
  | .ld => { x with ld := y }
  | .cm => { x with cm := y }
  | .st => { x with st := y }

def State.strm (s : State) (q : SeqId) : Stream := s.stream q.core q.slot
def State.setStrm (s : State) (q : SeqId) (x : Stream) : State := s.setStream q.core q.slot x
def State.seqr (s : State) (q : SeqId) : Seqr := (s.strm q).seqr q.sec
def State.setSeqr (s : State) (q : SeqId) (y : Seqr) : State := s.setStrm q ((s.strm q).setSeqr q.sec y)

/-- The stream whose word runs; a fresh one for the housekeeping processor, which has none (R356). -/
def State.me (s : State) : Stream :=
  match s.cur with
  | .seq q => s.strm q
  | .hk => Stream.reset

def State.setMe (s : State) (x : Stream) : State :=
  match s.cur with
  | .seq q => s.setStrm q x
  | .hk => s

/-- Core, slot and section of the running word; section SC of core 0 for the housekeeping processor. -/
def State.here (s : State) : SeqId :=
  match s.cur with
  | .seq q => q
  | .hk => { core := 0, slot := 0, sec := .sc }

def State.isHk (s : State) : Bool :=
  match s.cur with
  | .hk => true
  | .seq _ => false

/-- The micro-context of the running word. -/
def State.myMx (s : State) : Nat := s.me.mx.getD 0

/-- The running sequencer, with its address and shape registers (R233). -/
def State.mySeq (s : State) : Seqr := s.me.seqr s.here.sec
def State.setMySeq (s : State) (y : Seqr) : State := s.setMe (s.me.setSeqr s.here.sec y)

/-! Registers of the running word -/

/-- g[r]; g0 reads zero (R63). -/
def State.g (s : State) (r : BitVec 5) : Word :=
  if r = 0 then 0
  else match s.cur with
    | .seq q => AMap.get 0 (s.strm q).g r.toNat
    | .hk => AMap.get 0 s.hk.g r.toNat

/-- g[r] written; a write to g0 is discarded (R63). -/
def State.setG (s : State) (r : BitVec 5) (v : Word) : State :=
  if r = 0 then s
  else match s.cur with
    | .seq q => s.setStrm q { s.strm q with g := (s.strm q).g.put r.toNat v }
    | .hk => { s with hk := { s.hk with g := s.hk.g.put r.toNat v } }

/-- p[k]. -/
def State.p (s : State) (k : BitVec 3) : Bool :=
  match s.cur with
  | .seq q => AMap.get false (s.strm q).p k.toNat
  | .hk => AMap.get false s.hk.p k.toNat

def State.setP (s : State) (k : BitVec 3) (v : Bool) : State :=
  match s.cur with
  | .seq q => s.setStrm q { s.strm q with p := (s.strm q).p.put k.toNat v }
  | .hk => { s with hk := { s.hk with p := s.hk.p.put k.toNat v } }

/-- a[r] of the running LD or ST sequencer. -/
def State.a (s : State) (r : BitVec 4) : Word := AMap.get 0 s.mySeq.a r.toNat
def State.setA (s : State) (r : BitVec 4) (v : Word) : State :=
  s.setMySeq { s.mySeq with a := s.mySeq.a.put r.toNat v }

/-- h[r] of the running LD or ST sequencer. -/
def State.h (s : State) (r : BitVec 4) : Shape := AMap.get Shape.none s.mySeq.h r.toNat
def State.setH (s : State) (r : BitVec 4) (v : Shape) : State :=
  s.setMySeq { s.mySeq with h := s.mySeq.h.put r.toNat v }

/-- v[r] and m[k] of the stream. -/
def State.v (s : State) (r : BitVec 5) : VReg := AMap.get 0 s.me.v r.toNat
def State.setV (s : State) (r : BitVec 5) (x : VReg) : State := s.setMe { s.me with v := s.me.v.put r.toNat x }
def State.m (s : State) (k : BitVec 3) : Word := AMap.get 0 s.me.m k.toNat
def State.setM (s : State) (k : BitVec 3) (x : Word) : State := s.setMe { s.me with m := s.me.m.put k.toNat x }

/-! Program counter -/

/-- The address of the running word. -/
def State.pc (s : State) : Word :=
  match s.cur with
  | .seq q => (s.seqr q).pc
  | .hk => s.hk.pc

/-- The word is done: the program counter moves past it and one word fewer is left of the block instance. -/
def State.done (s : State) : State :=
  match s.cur with
  | .seq q => s.setSeqr q { s.seqr q with pc := (s.seqr q).pc + BitVec.ofNat 64 q.sec.wordBytes, left := (s.seqr q).left - 1 }
  | .hk => { s with hk := { s.hk with pc := s.hk.pc + 4, left := s.hk.left - 1 } }

/-! Tokens (Tables 2.5 and 3.3) -/

/-- Queues from the previous and the next neighbour. -/
def popQueues : Section → Nat × Nat
  | .sc => (3, 4)
  | .ld => (0, 5)
  | .cm => (1, 6)
  | .st => (2, 7)

/-- Queues to the previous and the next neighbour. -/
def pushQueues : Section → Nat × Nat
  | .sc => (7, 0)
  | .ld => (4, 1)
  | .cm => (5, 2)
  | .st => (6, 3)

def Stream.tok (x : Stream) (k : Nat) : TokQ := AMap.get TokQ.reset x.tq k
def Stream.setTok (x : Stream) (k : Nat) (t : TokQ) : Stream := { x with tq := x.tq.put k t }

/-- `n` reserved tokens consumed: C and PR fall. -/
def Stream.consume (x : Stream) (k n : Nat) : Stream :=
  let t := x.tok k
  x.setTok k { t with c := t.c - n, pr := t.pr - n }

/-- `n` reserved tokens produced: C rises and UR falls. -/
def Stream.produce (x : Stream) (k n : Nat) : Stream :=
  let t := x.tok k
  x.setTok k { t with c := t.c + n, ur := t.ur - n }

/-- The reference of a stream. -/
def Stream.ref (x : Stream) : StreamRef := { mx := x.mx.getD 0, tier := x.tier, coff := x.coff, ts := x.tsidx, launch := x.launch }

/-- A credit of a copy, an arrival made for a finished operation, or an element of a REDM, which are no accesses of an SC sequencer in
program order. -/
def Req.isCredit (r : Req) : Bool := r.unit.isSome || match r.op with | .pbCredit _ => true | .pbWake .. => true | _ => false

/-- Every access of a stream's sequencer numbered below `before` has been performed at core scope: its scalar requests, the peer images of
its MPEER words, the status writes of its PKT.EMIT words and the source reads of its INSTALL words (R189, R114, R255, R400). -/
def State.effectsDone (s : State) (q : SeqId) (before : Nat) : Bool :=
  let r := (s.strm q).ref
  (q.sec != .sc || s.reqs.all fun x => x.performed || x.isCredit || x.ref != some r || decide (before ≤ x.id))
    && (q.sec != .cm || s.peers.all fun p => decide (before ≤ p.id) || p.ref != r)
    && (q.sec != .st || ((s.emits.all fun e => decide (before ≤ e.id) || e.ref != r)
      && s.installs.all fun k => k.readDone || decide (before ≤ k.id) || k.ref != r))

/-- Tokens to produce once the accesses made so far have been performed: at once where they have (R39). -/
def State.push (s : State) (q : SeqId) (k n : Nat) (settle : Bool) : State :=
  if n = 0 then s
  else
    let x := s.strm q
    if s.effectsDone q s.nextId && !(x.pushes.any fun p => p.queue == k) then s.setStrm q (x.produce k n)
    else s.setStrm q { x with pushes := x.pushes ++ [{ queue := k, n := n, settle := settle, sec := q.sec, before := s.nextId }] }

/-- Pop-before marks: each consumes one token the block still has reserved; beyond the reservation it has no effect (R39). -/
def State.popBefore (s : State) (y : Sync) : State :=
  let q := s.here
  let d := s.mySeq
  let np := if y.pbp && decide (0 < d.popP) then 1 else 0
  let nn := if y.pbn && decide (0 < d.popN) then 1 else 0
  let x := (s.me.consume (popQueues q.sec).1 np).consume (popQueues q.sec).2 nn
  s.setMe (x.setSeqr q.sec { d with popP := d.popP - np, popN := d.popN - nn })

/-- Push-after marks (R39). -/
def State.pushAfter (s : State) (y : Sync) : State :=
  let q := s.here
  let d := s.mySeq
  let np := if y.pap && decide (0 < d.pushP) then 1 else 0
  let nn := if y.pan && decide (0 < d.pushN) then 1 else 0
  let s1 := s.setMySeq { d with pushP := d.pushP - np, pushN := d.pushN - nn }
  (s1.push q (pushQueues q.sec).1 np false).push q (pushQueues q.sec).2 nn false

/-- The end of a word with SYNC marks: tokens consumed, tokens produced, the program counter moved. -/
def State.doneY (s : State) (y : Sync) : State := ((s.popBefore y).pushAfter y).done

/-! Free values and operation numbers -/

/-- A fresh free value and the state that has used it (log 3). -/
def State.free (s : State) : Word × State := (Config.freeValue s.fresh, { s with fresh := s.fresh + 1 })

/-- The number of a new pending operation. -/
def State.newId (s : State) : Nat × State := (s.nextId, { s with nextId := s.nextId + 1 })

/-! Events and machine checks -/

/-- Capacity of the event queue (R358). -/
def eventCapacity : Nat := 1024

/-- One machine check of a kind counted (Table 22.5, Table 22.3). Key k counts since reset, key k + 16 since the summary was
last read. -/
def State.countCheck (s : State) (k : Nat) : State :=
  { s with mccnt := (s.mccnt.put k (AMap.get 0 s.mccnt k + 1)).put (k + 16) (min 0xFFFF (AMap.get 0 s.mccnt (k + 16) + 1)) }

/-- An event queued for the housekeeping processor with its record (R358, R383). A full queue loses it, counted under kind 6. -/
def State.queueEvent (s : State) (code m : Nat) (rec : List Byte) : State :=
  if s.events.length < eventCapacity then
    { s with events := s.events ++ [{ code := code, mx := m, n := s.eventCount }], eventCount := s.eventCount + 1,
             records := s.records.writeN (64 * (s.eventCount % 1024)) (sliceBytes rec 0 64) }
  else s.countCheck 6

/-- What a fault record holds beyond the place of the fault (Table 20.1). -/
structure FaultInfo where
  code : Nat
  reason : Nat := 0
  opnd : Nat := 0
  stglv : Nat := 0
  c0 : Nat := 0
  c1 : Nat := 0
  space : Nat := 0
  addr : Nat := 0
  baddr : Option Nat := none
  aux : Nat := 0
  deriving DecidableEq, Repr

/-- The 64 bytes of a record (Table 20.1). -/
def recordBytes (f : FaultInfo) (valid core pc m ts gen dclk : Nat) : List Byte :=
  leBytes 2 f.code ++ leBytes 1 f.reason ++ leBytes 1 (valid + (if f.baddr.isSome then 16 else 0)) ++ leBytes 2 core
    ++ leBytes 1 f.opnd ++ leBytes 1 f.stglv ++ leBytes 8 pc ++ leBytes 4 f.c0 ++ leBytes 4 f.c1 ++ leBytes 8 f.addr
    ++ leBytes 8 (f.baddr.getD 0) ++ leBytes 2 m ++ leBytes 1 f.space ++ leBytes 1 ts ++ leBytes 4 gen ++ leBytes 8 dclk
    ++ leBytes 8 f.aux

/-- A record of an event that is no fault of a sequencer; only OVERRUN and MCHECK use DCLK (Table 20.3, R379). -/
def State.eventRecord (s : State) (code m : Nat) (core : Option Nat) (gen aux : Nat) : List Byte :=
  recordBytes { code := code, aux := aux } (if core.isSome then 8 else 0) (core.getD 0) 0 m 0 gen
    (if code = 0x80 ∨ code = 0x81 then s.dclk.toNat else 0)

/-- A machine check (R417): its summary, its counter, its event. -/
def State.machineCheck (s : State) (kind unit : Nat) (detail : Nat) (core : Option Nat) : State :=
  let s1 := s.countCheck kind
  let sum := kind + unit * 2 ^ 8 + AMap.get 0 s1.mccnt (kind + 16) * 2 ^ 16 + detail * 2 ^ 32
  let s2 := { s1 with mcsum := BitVec.ofNat 64 sum }
  s2.queueEvent 0x81 0 (s2.eventRecord 0x81 0 core 0 sum)

/-! Faults -/

/-- Terminal codes of Table 20.2. -/
def terminalCode (c : Nat) : Bool := decide (0x0E ≤ c ∧ c ≤ 0x10) || c == 0x12

/-- Spaces of a fault record (Table 20.1). -/
def spSP : Nat := 1
def spCW : Nat := 2
def spG : Nat := 3
def spK : Nat := 4
def spIO : Nat := 5
def spReg : Nat := 6
def spRec : Nat := 7

/-- The record of a fault raised in a stream at an address `pc`, naming the sequencer when there is one. -/
def State.streamRecord (s : State) (core slot : Nat) (sec : Option Section) (pc : Word) (f : FaultInfo) : List Byte :=
  let x := s.stream core slot
  let m := x.mx.getD 0
  recordBytes f ((match sec with | some c => c.code + 4 | none => 0) + 8) core (if sec.isSome then pc.toNat else 0) m x.tsidx
    (s.mx m).gen.toNat s.dclk.toNat

/-- The installs of a micro-context stop programming (R412): it went to FAULTED (1) or became FREE (2). -/
def State.abortInstalls (s : State) (m w : Nat) : State :=
  { s with installs := s.installs.map fun i => if i.ref.mx = m ∧ i.abort = 0 then { i with abort := w } else i }

/-- PEGEN after an advance of the generation that it follows (R350 rule 6). -/
def Mx.nextPegen (x : Mx) : BitVec 16 := if x.pegen.toNat = x.gen.toNat % 65536 then BitVec.ofNat 16 (x.gen.toNat + 1) else x.pegen

/-- The generation advances; PEGEN follows it while the word waits for a binding's write to be made again (R350 rule 5). -/
def Mx.advance (x : Mx) : Mx := { x with gen := x.gen + 1, pegen := if x.pekept then x.nextPegen else x.pegen }

/-- The team stops for good (R382): the micro-context goes to FAULTED; its sequencers stop at their next block boundary, and what
it holds is released when the last has stopped (Machine/Team.lean). A further terminal fault, of another sequencer that still runs to its boundary, changes
nothing more. -/
def State.goFaulted (s : State) (m : Nat) : State :=
  if (s.mx m).st = .faulted then s
  else (s.abortInstalls m 1).setMx m { (s.mx m).advance with st := .faulted, ending := some .terminal, notified := false, reserved := none }

/-- A fault raised in a stream (R381, R382). `sec` is the sequencer that stops, none at a tile-task boundary; a block instance that ran until
now counts as run until now (R46). -/
def State.raiseAt (s : State) (core slot : Nat) (sec : Option Section) (pc : Word) (f : FaultInfo) : State :=
  let x := s.stream core slot
  let m := x.mx.getD 0
  let s1 := s.queueEvent f.code m (s.streamRecord core slot sec pc f)
  let x' := match sec with
    | some c => x.setSeqr c { x.seqr c with stopped := true }
    | none => x
  let ran : Bool := match sec with | some c => (x.seqr c).phase == .running | none => false
  let s2 := (s1.setStream core slot { x' with held := true, heldAt := s.dclk.toNat }).setMx m
    { s1.mx m with lastAdmit := if ran then s.dclk.toNat else (s1.mx m).lastAdmit }
  if terminalCode f.code then s2.goFaulted m else s2

/-- A fault raised by the running word (R378): no effect of the word, the fault record, and what R381 or R382 says. On the
housekeeping processor the record has VALID.HK, a machine check of kind 8 is raised and firmware restarts (R417). -/
def State.raise (s : State) (f : FaultInfo) : State :=
  match s.cur with
  | .seq q => s.raiseAt q.core q.slot (some q.sec) (s.seqr q).pc f
  | .hk =>
    let s1 := s.queueEvent f.code 0 (recordBytes f 0x20 0 s.hk.pc.toNat 0 0 0 s.dclk.toNat)
    let s2 := s1.machineCheck 8 0 0 none
    { s2 with hk := { s2.hk with phase := .ended } }

/-- The fault record fields of a failed translation or permission check of one address. -/
def XlErr.info (e : XlErr) (opnd c0 c1 space addr : Nat) : FaultInfo :=
  { code := e.code, reason := e.reason, opnd := opnd, stglv := e.stage * 16 + e.level, c0 := c0, c1 := c1, space := space,
    addr := addr, baddr := if e.code = 6 then some (addr / 64 * 64) else none }

end Sys2Proof.Machine
end

