-- ==== Sys2Proof/Machine/Fetch.lean ====
section
/-! DEFINITION. Fetching: the code segment an address lies in (R50, R51, R373), the word a sequencer's program counter names
(R49), and the block header at an address (R35, R54, R60). -/

namespace Sys2Proof.Machine

/-- The executable segment that holds a frame, with its number. -/
def State.segOfFrame (s : State) (f : Nat) : Option (Nat × Segment) :=
  s.segs.find? fun e => e.2.ok && e.2.frames.contains f

/-- Where a physical address stands in a segment: its byte offset, when it is inside the segment's length (R50). -/
def Segment.offsetOf (g : Segment) (pa : Nat) : Option Nat :=
  match g.frames.findIdx? (· == pa / 4096) with
  | some k => if 4096 * k + pa % 4096 < g.len then some (4096 * k + pa % 4096) else none
  | none => none

/-- A place in code: segment number, segment, word index, physical address and key slot. -/
structure CodePlace where
  segId : Nat
  seg : Segment
  word : Nat
  pa : Nat
  enc : Option Nat

/-- The place in code of an address for a section of an agent's level: translated with X for a stream (R165), physical for the
housekeeping processor (R356). A frame of no registered segment of the fetching section and level has no permission (R373). -/
def State.codePlace (s : State) (hk : Bool) (core m : Nat) (sec : Section) (va : Nat) : Except XlErr CodePlace :=
  match (if hk then s.accessPhys va .read else s.access (some core) m va .exec false) with
  | .error e => .error e
  | .ok x =>
    match s.segOfFrame (x.pa / 4096) with
    | none => .error xlPerm
    | some (k, g) =>
      if g.sec != sec || g.level != hk then .error xlPerm
      else match g.offsetOf x.pa with
        | none => .error xlPerm
        | some o => .ok { segId := k, seg := g, word := o / sec.wordBytes, pa := x.pa, enc := x.enc }

/-- The place in code of an address, for the agent whose word runs. -/
def State.myCode (s : State) (va : Nat) : Except XlErr CodePlace :=
  s.codePlace s.isHk s.here.core s.myMx s.here.sec va

/-- The word at a place. -/
def State.wordAt (s : State) (c : CodePlace) (sec : Section) : Nat := leNat (s.readPa c.enc c.pa sec.wordBytes)

/-- Code is fetched from its home: READY (R418), in a slot of the partition, that of the system for the housekeeping processor (R328, R346). -/
def State.codeHome (s : State) (hk : Bool) (m pa : Nat) : Bool := s.homeReady pa && (if hk then s.hkReach else s.mayReachMx m)

/-- What a fetch gives: a word, a wait for the home of the code, or a fault at the word. -/
inductive Fetched where
  | word (segId : Nat) (w : Nat)
  | wait
  | fault (f : FaultInfo)

/-- The fetch of the agent's next word. -/
def State.fetch (s : State) : Fetched :=
  let va := s.pc.toNat
  match s.myCode va with
  | .error e => .fault (e.info 0 0 0 spG va)
  | .ok c =>
    if !s.codeHome s.isHk s.myMx c.pa then .wait
    else if s.badBlk (c.pa / 64) then .fault (xlUncorr.info 0 0 0 spG va)
    else .word c.segId (s.wordAt c s.here.sec)

/-- A micro-context has fetched from a segment (R51). -/
def State.noteFetch (s : State) (segId m : Nat) : State :=
  match s.segs.find segId with
  | some g => if g.fetched.contains m then s else { s with segs := s.segs.put segId { g with fetched := m :: g.fetched } }
  | none => s

/-- A header as the admission rule uses it: the raw fields with the encodings of Table 3.5 read. -/
def headerOf (r : RawHeader) : Header :=
  { len := r.len, popp := r.popp, popn := r.popn, pushp := r.pushp, pushn := r.pushn, wmode := r.wmode, wtm := r.wtm,
    wbar := if r.wbar ≥ 4 then some (r.wbar - 4) else none, leave := r.leave, tend := r.tend,
    rep := if r.repk = 0 then .times (r.repv + 1) else .lc (r.repv % 4), lease := r.lease, mcnt := r.mcnt }

/-- The run-time check of R60: the address is marked in the bitmap of headers of an executable segment of the section. No byte of the
code is read. -/
def State.isHeader (s : State) (hk : Bool) (core m : Nat) (sec : Section) (va : Nat) : Bool :=
  match s.codePlace hk core m sec va with
  | .error _ => false
  | .ok c => va % sec.wordBytes == 0 && c.seg.headers.contains c.word

/-- What stands at an address where a header is expected. -/
inductive HeaderAt where
  | header (h : Header)
  /-- A word of a segment of the section that is no block header (R60). -/
  | none
  | wait
  /-- The address does not translate, lies in no registered segment of the section (R373), or its word is uncorrectable. -/
  | fault (e : XlErr)

/-- The block header at an address, from the segment's bitmap of headers (R60). -/
def State.headerAt (s : State) (hk : Bool) (core m : Nat) (sec : Section) (va : Nat) : HeaderAt :=
  match s.codePlace hk core m sec va with
  | .error e => .fault e
  | .ok c =>
    if va % sec.wordBytes ≠ 0 || !c.seg.headers.contains c.word then .none
    else if !s.codeHome hk m c.pa then .wait
    else if s.badBlk (c.pa / 64) then .fault xlUncorr
    else match rawHeader sec (s.wordAt c sec) with
      | some r => .header (headerOf r)
      | Option.none => .none

end Sys2Proof.Machine
end

