-- ==== Sys2Proof/Machine/MxRecord.lean ====
section
/-! DEFINITION. The micro-context record (R359, Table 19.2): its 256 bytes as MXSAVE copies them out, the fields MXBIND takes from an
image, the counters CNT0 to CNT7, and the pending-event word with the posting of events (R349, R350). -/

namespace Sys2Proof.Machine

/-- Codes of MXST (Table 19.2). -/
def MxSt.code : MxSt → Nat
  | .free => 0 | .idle => 1 | .ready => 2 | .bound => 3 | .swapped => 4 | .saved => 5 | .paused => 6 | .faulted => 7

/-- The pending-event word (Table 18.10). -/
def Mx.pew (x : Mx) : Word := BitVec.ofNat 64 (x.pegen.toNat * 2 ^ 48 + x.pebits.toNat)

/-- The record's 256 bytes. -/
def Mx.record (x : Mx) : List Byte :=
  leBytes 1 x.st.code ++ leBytes 1 x.flg.toNat ++ leBytes 1 x.part ++ leBytes 1 x.prio ++ leBytes 2 x.tenant.toNat
    ++ leBytes 2 x.kslot ++ leBytes 4 x.gen.toNat ++ leBytes 1 x.mslots ++ leBytes 1 x.rlog ++ leBytes 2 x.hometg.toNat
    ++ leBytes 8 x.s1root.toNat ++ leBytes 8 x.lrptr.toNat ++ leBytes 8 x.rbase.toNat ++ leBytes 8 x.head.toNat
    ++ leBytes 4 x.period.toNat ++ leBytes 4 x.budget.toNat ++ leBytes 4 x.rem.toNat ++ leBytes 4 x.est.toNat
    ++ leBytes 8 x.deadline.toNat ++ leBytes 8 x.toff.toNat ++ leBytes 8 x.evaddr.toNat ++ leBytes 8 x.pew.toNat
    ++ leBytes 8 x.perfaddr.toNat ++ leBytes 8 x.sigptr.toNat ++ leBytes 8 x.savea.toNat ++ leBytes 8 0
    ++ ((List.range 8).flatMap fun k => leBytes 8 (AMap.get 0 x.ctr k).toNat)
    ++ beBytes 32 x.meas.toNat ++ leBytes 32 0

/-- The M fields of an image in a record (R364). -/
def Mx.ofImage (x : Mx) (l : List Byte) : Mx :=
  { x with
    flg := BitVec.ofNat 8 (fieldLe l 1 1), part := fieldLe l 2 1 % 16, prio := fieldLe l 3 1 % 16,
    tenant := BitVec.ofNat 16 (fieldLe l 4 2), kslot := fieldLe l 6 2, mslots := fieldLe l 12 1, rlog := fieldLe l 13 1,
    hometg := BitVec.ofNat 16 (fieldLe l 14 2), s1root := BitVec.ofNat 64 (fieldLe l 0x10 8),
    lrptr := BitVec.ofNat 64 (fieldLe l 0x18 8), rbase := BitVec.ofNat 64 (fieldLe l 0x20 8),
    period := BitVec.ofNat 32 (fieldLe l 0x30 4), budget := BitVec.ofNat 32 (fieldLe l 0x34 4),
    toff := BitVec.ofNat 64 (fieldLe l 0x48 8), evaddr := BitVec.ofNat 64 (fieldLe l 0x50 8),
    perfaddr := BitVec.ofNat 64 (fieldLe l 0x60 8), sigptr := BitVec.ofNat 64 (fieldLe l 0x68 8),
    savea := BitVec.ofNat 64 (fieldLe l 0x70 8) }

/-- Flags of MFLG. -/
def Mx.spattr (x : Mx) : Bool := x.flg.getLsbD 0
def Mx.cwneed (x : Mx) : Bool := x.flg.getLsbD 1
def Mx.sigchk (x : Mx) : Bool := x.flg.getLsbD 2
/-- Home tile group. -/
def Mx.homeStack (x : Mx) : Nat := if x.hometg.getLsbD 8 then 1 else 0
def Mx.homeCol (x : Mx) : Nat := x.hometg.toNat % 64

/-- The first byte offset of an image whose field breaks a limit of Table 19.2, or for SAVEA of R384, or holds a reserved bit; D fields are
ignored. -/
def imageFault (l : List Byte) : Option Nat :=
  let f := fieldLe l
  let checks : List (Nat × Bool) :=
    [(0x01, decide (f 1 1 < 8)), (0x02, decide (f 2 1 < 16)), (0x03, decide (f 3 1 < 16)), (0x06, decide (f 6 2 < 4096)),
     (0x0C, decide (f 12 1 ∈ [0, 4, 8, 12, 16])), (0x0D, decide (f 13 1 ≤ 12)), (0x0E, decide (f 14 2 / 64 % 4 = 0 ∧ f 14 2 < 512)),
     (0x10, decide (f 0x10 8 % 4096 = 0)), (0x20, decide (f 0x20 8 % 16384 = 0)),
     (0x34, if f 0x30 4 = 0 then f 0x34 4 == 0 else decide (1 ≤ f 0x34 4 ∧ f 0x34 4 ≤ f 0x30 4)),
     (0x48, decide (sx 64 (f 0x48 8) % 800 = 0)), (0x50, decide (f 0x50 8 % 8 = 0)), (0x60, decide (f 0x60 8 % 4096 = 0)),
     (0x68, bit (f 1 1) 2 || f 0x68 8 == 0), (0x70, decide (f 0x70 8 % 4096 = 0)), (0x78, f 0x78 8 == 0), (0xE0, f 0xE0 32 == 0)]
  (checks.find? fun c => !c.2).map (·.1)

/-! Counters CNT0 to CNT7 -/

/-- Launches completed, requests taken, cold-start skips, scrub cycles, overruns, kills, saves, FULL drops. -/
def Mx.bump (x : Mx) (k n : Nat) : Mx := { x with ctr := x.ctr.put k (AMap.get 0 x.ctr k + BitVec.ofNat 64 n) }

/-! Events (R349, R350) -/

/-- The doorbell from system software (Table 18.10). No word, command or row of the spec raises it: the agenda does (log 61). -/
def evHkd : Nat := 0
def evOvr : Nat := 1
def evPin : Nat := 2
def evKill : Nat := 3
def evMig : Nat := 4
def evRst : Nat := 5

/-- An event gathered in the pending-event word. -/
def Mx.gather (x : Mx) (b gen : Nat) : Mx :=
  { x with pebits := x.pebits ||| BitVec.ofNat 6 (2 ^ b), pegen := BitVec.ofNat 16 gen }

/-- A write of the device at a micro-context's address, on its way from now on. -/
def State.sendDev (s : State) (w : DevWrite) : State := { s with devWrites := s.devWrites ++ [w] }

/-- An event for a micro-context: discarded, written to the event address of a bound one, or gathered (R350 rules 1 to 4). -/
def State.postEvent (s : State) (m b gen : Nat) : State :=
  let x := s.mx m
  if x.st == .free || x.st == .faulted || x.gen.toNat != gen then s
  else if x.st == .bound then
    s.sendDev { mx := m, va := x.evaddr.toNat, data := leBytes 8 (gen % 65536 * 2 ^ 48 + 2 ^ b), kind := .event }
  else s.setMx m (x.gather b gen)

/-- A notice that system software raises for a micro-context, with the generation at which it was raised (R349); before a boot there is none. -/
def State.raiseNotice (s : State) (m gen : Nat) : State := if s.booted then s.postEvent (m % 16384) evHkd gen else s

/-- The pending-event word at a binding, before the generation advances (R350 rule 5): its write is on its way, and the first admission stands behind
it. -/
def State.deliverEvents (s : State) (m : Nat) : State :=
  let x := s.mx m
  if x.pebits = 0 then s
  else
    let s1 := s.setMx m { x with pebits := 0, pegen := 0, pekept := false }
    if x.pegen.toNat = x.gen.toNat % 65536 then s1.sendDev { mx := m, va := x.evaddr.toNat, data := leBytes 8 x.pew.toNat, kind := .binding } else s1

/-- An event word whose write has failed: its bits stay pending; those of a binding's word with the present generation, for the following binding (R350
rules 3 and 5). -/
def Mx.keepEvents (x : Mx) (w : DevWrite) : Mx :=
  let v := leNat w.data
  { x with
    pebits := x.pebits ||| BitVec.ofNat 6 v
    pegen := if w.kind = .binding then x.gen.setWidth 16 else BitVec.ofNat 16 (v / 2 ^ 48)
    pekept := x.pekept || w.kind == .binding }

/-- The state an MXSAVE mode leads to (Table 19.5). -/
def modeTarget (mode : Nat) : MxSt :=
  match mode with
  | 1 => .free
  | 2 => .idle
  | 4 => .ready
  | _ => .saved

/-- A transition of a micro-context: its record copied out for the MXSAVE operations that wait on it, in the same cycle; they then wait
for the scrub that the transition has caused (R365). -/
def State.snapshot (s : State) (m : Nat) : State :=
  let waits := fun (o : HkOp) => o.mx == m && o.scrub.isNone
  let last := (s.scrubs.filter fun c => c.mx == m && c.dest.isNone).foldl (fun n c => max n c.id) 0
  let s1 := s.hkOps.foldl (fun t o => if waits o then t.poke o.pa (t.mx m).record else t) s
  { s1 with hkOps := s1.hkOps.map fun o =>
      if waits o then { o with scrub := some last, ok := (s1.mx m).st == modeTarget o.mode } else o }

end Sys2Proof.Machine
end

