-- ==== Sys2Proof/Machine/Team.lean ====
section
/-! DEFINITION. Teams (R30, R33): the cores and slots a team holds, its streams wherever their state stands, tag counts (R41),
the request ring (R302), and what a team gives up when it leaves its binding: release and scrub (R338), launch completion
(R33), kill (R316) and the end of a terminal fault (R382). -/

namespace Sys2Proof.Machine

/-! Columns and cores (R13, R30) -/

/-- Position 8 x + y of a logical column: the spares map's, else the log 8 position. -/
def State.colPos (s : State) (stack col : Nat) : Nat := (AMap.find s.colmap (64 * stack + col)).getD col

/-- A core identifier (Table 1.2). -/
def coreNum (stack tier pos : Nat) : Nat := 512 * stack + 128 * tier + pos

def State.coreOf (s : State) (stack tier col : Nat) : Nat := coreNum stack tier (s.colPos stack col)

/-- The physical column of a core: 128 times its stack, and its position. -/
def physCol (core : Nat) : Nat := 128 * (core / 512) + core % 128

/-- The logical column of a core. -/
def State.colOf (s : State) (core : Nat) : Option Nat :=
  (List.range 64).find? fun c => s.colPos (core / 512) c == core % 128

/-- A tile group holds a logical column that is retiring or has no column (R414). -/
def State.groupGone (s : State) (t : Team) : Bool :=
  (List.range t.lr.tgcols).any fun k => s.lostCols.contains (64 * t.stack + t.col + k) || s.retiring.contains (64 * t.stack + t.col + k)

/-- A core's column begins its retirement (R414); a column in no use yet is never brought into use (R13). -/
def State.retireCore (s : State) (core : Nat) : State :=
  match s.colOf core with
  | some k =>
    if s.retiring.contains (64 * (core / 512) + k) then s else { s with retiring := (64 * (core / 512) + k) :: s.retiring }
  | none => if s.badCols.contains (physCol core) then s else { s with badCols := physCol core :: s.badCols }

/-- The cores of a team's tile group: column offset, tier, core. -/
def State.groupCores (s : State) (stack col cols : Nat) : List (Nat × Nat × Nat) :=
  (List.range cols).flatMap fun k => (List.range 4).map fun t => (k, t, s.coreOf stack t (col + k))

def State.teamCores (s : State) (t : Team) : List (Nat × Nat × Nat) := s.groupCores t.stack t.col t.lr.tgcols

/-- The slots a micro-context's team holds: core and slot. -/
def State.teamSlots (s : State) (m : Nat) : List (Nat × Nat) :=
  s.cores.flatMap fun c => (c.2.streams.filter fun k => k.2.mx == some m).map fun k => (c.1, k.1)

def State.myRef (s : State) : StreamRef := s.me.ref

/-- Where a stream of a team runs. -/
def State.slotOf (s : State) (r : StreamRef) : Option (Nat × Nat) :=
  (s.teamSlots r.mx).find? fun e => (s.stream e.1 e.2).ref == r

/-- A change to a stream of a team: in its slot, or in the image of a saved or swapped team (R47, R386); discarded when the stream
has gone (R341). -/
def State.updRef (s : State) (r : StreamRef) (f : Stream → Stream) : State :=
  match s.slotOf r with
  | some e => s.setStream e.1 e.2 (f (s.stream e.1 e.2))
  | none =>
    match (s.mx r.mx).image with
    | some im =>
      let upd := fun (p : Stream × Memory) =>
        if { p.1.ref with mx := r.mx } == r then (f p.1, p.2) else p
      s.setMx r.mx { s.mx r.mx with image := some { im with streams := im.streams.map upd } }
    | none => s

/-- The stream behind a reference, in its slot or in the image. -/
def State.refStream (s : State) (r : StreamRef) : Option Stream :=
  match s.slotOf r with
  | some e => some (s.stream e.1 e.2)
  | none =>
    match (s.mx r.mx).image with
    | some im => (im.streams.find? fun p => { p.1.ref with mx := r.mx } == r).map (·.1)
    | none => none

/-! Layer order (R318, R322) -/

/-- Entry `i` of a launch's layer-order list: its range; none when it cannot be read or breaks a limit of Table 17.6. -/
def State.layerEntry (s : State) (m : Nat) (r : LaunchRec) (i : Nat) : Option (Nat × Nat) :=
  match s.readVa none m (r.lorder.toNat + 16 * i) 16 with
  | .error _ => none
  | .ok l =>
    let va := fieldLe l 0 8
    let n := fieldLe l 8 4
    if va % 4096 = 0 ∧ n % 4096 = 0 ∧ 4096 ≤ n ∧ fieldLe l 12 4 = 0 then some (va, n) else none

/-- The layer-order list as the cold-start engine reads it at binding. -/
def State.layerList (s : State) (m : Nat) (r : LaunchRec) : List (Option (Nat × Nat)) :=
  (List.range r.nlayers).map fun i => s.layerEntry m r i

/-- An access of a stream to `n` bytes at `va`: the number, from 1, of the highest layer-order entry its bound team has accessed. -/
def State.touch (s : State) (r : StreamRef) (va n : Nat) : State :=
  let x := s.mx r.mx
  match x.team with
  | none => s
  | some t =>
    let hit := (t.layers.zipIdx 1).filter fun e =>
      decide (x.coldHigh < e.2) && (match e.1 with | some (a, k) => decide (va < a + k ∧ a < va + n) | none => false)
    match hit.getLast? with
    | some e => s.setMx r.mx { x with coldHigh := e.2 }
    | none => s

/-- An access of the running word. -/
def State.touchMine (s : State) (va n : Nat) : State := if s.isHk then s else s.touch s.me.ref va n

/-! Tags (R41) -/

def Stream.tagCount (x : Stream) (t : Nat) : Nat := AMap.get 0 x.tagcnt t

/-- Issue of an operation with tag `t`: the count rises and the bit clears. -/
def Stream.tagIssue (x : Stream) (t : Nat) : Stream :=
  { x with tagcnt := x.tagcnt.put t (x.tagCount t + 1), tagrdy := x.tagrdy &&& ~~~(BitVec.ofNat 64 (2 ^ t)) }

/-- Completion of an operation with tag `t`: the count falls, and the bit is set when it reaches zero. -/
def Stream.tagDone (x : Stream) (t : Nat) : Stream :=
  let c := x.tagCount t - 1
  { x with tagcnt := x.tagcnt.put t c, tagrdy := if c = 0 then x.tagrdy ||| BitVec.ofNat 64 (2 ^ t) else x.tagrdy }

/-! Private counters (Table 19.6) -/

def Mx.count (x : Mx) (k n : Nat) : Mx := { x with cnt := x.cnt.put k (AMap.get 0 x.cnt k + BitVec.ofNat 64 n) }
def State.count (s : State) (m k n : Nat) : State := s.setMx m ((s.mx m).count k n)

/-- A pending error of a tag (R241): kept when the tag has none yet, else counted. -/
def State.tagError (s : State) (r : StreamRef) (t : Nat) (e : PendErr) : State :=
  match s.refStream r with
  | none => s
  | some x =>
    if (x.tagerr.find t).isSome then s.count r.mx 8 1 else s.updRef r fun y => { y with tagerr := y.tagerr.put t e }

/-! The request ring (R302, R303) -/

def Mx.ringLen (x : Mx) : Nat := 2 ^ x.rlog
def Mx.entryVa (x : Mx) (i : Nat) : Nat := x.rbase.toNat + 16384 * i

/-- A field of a ring entry's header, read by the device; none when it cannot be read. -/
def State.entryField (s : State) (m i o n : Nat) : Option Nat :=
  match s.readVa none m ((s.mx m).entryVa i + o) n with
  | .ok l => some (leNat l)
  | .error _ => none

/-- The STATE of a ring entry: 0 FREE, 1 FILLED, 2 TAKEN. -/
def State.entryState (s : State) (m i : Nat) : Nat := (s.entryField m i 0 1).getD 0

/-- STATE of an entry written, as a write of the device at `.d`. -/
def State.setEntryState (s : State) (m i v : Nat) : State :=
  match s.writeVa none m ((s.mx m).entryVa i) [BitVec.ofNat 8 v] with
  | .ok s' => s'
  | .error _ => s

/-- The FILLED entry of lowest SEQ, with its SEQ (R303). -/
def State.oldestFilled (s : State) (m : Nat) : Option (Nat × Nat) :=
  ((List.range (s.mx m).ringLen).filter fun i => s.entryState m i == 1).foldl
    (fun best i =>
      let q := (s.entryField m i 0x10 8).getD 0
      match best with
      | some (_, q') => if q < q' then some (i, q) else best
      | none => some (i, q)) none

/-- The ring holds a request (R304). -/
def State.holdsRequest (s : State) (m : Nat) : Bool := (List.range (s.mx m).ringLen).any fun i => s.entryState m i == 1

/-- Every entry of the ring whose STATE satisfies `p` set to `v`. -/
def State.ringSet (s : State) (m : Nat) (p : Nat → Bool) (v : Nat) : State :=
  (List.range (s.mx m).ringLen).foldl (fun t i => if p (t.entryState m i) then t.setEntryState m i v else t) s

/-! Arena pages (R263, R269) -/

def Arena.page (x : Arena) (slot page : Nat) : Page := AMap.get Page.reset x.pages (4096 * slot + page)
def Arena.setPage (x : Arena) (slot page : Nat) (p : Page) : Arena := { x with pages := x.pages.put (4096 * slot + page) p }
def State.setArena (s : State) (k : Nat) (x : Arena) : State := { s with arenas := s.arenas.put k x }

/-- One read pin of a page released. -/
def State.unpin (s : State) (ar slot page : Nat) : State :=
  match s.arenas.find ar with
  | some x => s.setArena ar (x.setPage slot page { x.page slot page with pins := (x.page slot page).pins - 1 })
  | none => s

/-- The pins of the pages a query has not merged yet, released. -/
def State.unpinQuery (s : State) (q : Query) : State :=
  q.pages.foldl (fun t p => if p.left == [] || p.kind == .empty then t else t.unpin q.arena p.slot p.page) s

/-- The resume records of a micro-context freed at the end of its launch (R288); a record that a resumed query continues has given its
pins to the query. -/
def State.freeResumes (s : State) (m : Nat) : State :=
  let s1 := (s.mx m).resumes.foldl (fun t e => if e.2.used then t else t.unpinQuery e.2.q) s
  s1.setMx m { s1.mx m with resumes := [] }

/-! Stopping -/

/-- A sequencer that runs no word of an admitted block, or stands at a held word (R381). -/
def Seqr.isStopped (y : Seqr) : Bool := y.phase != .running || y.stopped

def Stream.isStopped (x : Stream) : Bool := x.sc.isStopped && x.ld.isStopped && x.cm.isStopped && x.st.isStopped

/-- The stream has nothing left before the point a drain waits for: its boundary, its last tile-task, or a held word, which makes
the drain a checkpoint (R381). -/
def Stream.atDrain (x : Stream) : Bool := x.finished || x.atBoundary || (x.held && x.isStopped)

/-- Every stream of the team stands where the ordered stop lets it (R314, R316). -/
def State.teamStopped (s : State) (m : Nat) (drain : Bool) : Bool :=
  (s.teamSlots m).all fun e => if drain then (s.stream e.1 e.2).atDrain else (s.stream e.1 e.2).isStopped

/-! Release and scrub (R338, R339) -/

/-- Another micro-context of the tenant is BOUND or SWAPPED (R340). -/
def State.tenantElsewhere (s : State) (m : Nat) : Bool :=
  s.mxs.any fun e => e.1 != m && e.2.tenant == (s.mx m).tenant && (e.2.st == .bound || e.2.st == .swapped)

/-- The scrub bound of a release (R339). -/
def State.scrubBound (s : State) (m : Nat) : Nat := if s.tenantElsewhere m then 4160 else 16448

def Stream.unbind (x : Stream) : Stream :=
  let off := fun (y : Seqr) => { y with phase := Phase.unbound, stopped := false }
  { x with mx := none, sc := off x.sc, ld := off x.ld, cm := off x.cm, st := off x.st, held := false, pushes := [] }

/-- A lease given up by a slot that goes (R102). -/
def Lease.drop (l : Lease) (slot : Nat) : Lease :=
  let l1 := { l with asks := l.asks.filter (· != slot), posted := l.posted.filter (· != slot) }
  if l.holder == some slot then { l1 with holder := none, unused := false, idleSince := none, holdSince := none, release := false } else l1

/-- One slot of a team released: the bank tags lose VALID, the sills of the banks become FREE, the slot and its banks wait for the
scrub, the TLB entries of the micro-context go. -/
def Core.releaseSlot (c : Core) (m slot : Nat) : Core :=
  let x := AMap.get Stream.reset c.streams slot
  let bs := x.banks.map (·.bank)
  { c with
    streams := c.streams.put slot x.unbind
    tags := bs.foldl (fun t b => t.put b { AMap.get BankTag.reset t b with valid := false }) c.tags
    sills := c.sills.filter fun e => !bs.contains (e.1 / 16)
    lease := c.lease.drop slot
    tlb := c.tlb.filter fun e => e.mx != m
    wcache := c.wcache.filter fun e => e.mx != m
    scrubSlots := c.scrubSlots ++ [slot]
    scrubBanks := c.scrubBanks ++ bs }

/-- The casement given up (R97); its panes wait for the scrub. DESIGN CHOICE (log 43): physical pane 0 becomes the front pane; R97 resets only the
fill count and the valid bits, and at the taking. -/
def Core.releaseCasement (c : Core) (m : Nat) : Core :=
  if c.cw.owner == some m then
    { c with cw := { c.cw with owner := none, front := false, valF := false, valB := false, fcnt := 0 }, scrubCw := true }
  else c

/-! The shutter stores (R161, R385) -/

/-- Units of 64 KiB in a core's shutter store: its 48 banks and two for the state of each of its eight slots. -/
def shutterUnits : Nat := 64

/-- The units of each core that a team's image takes (R384). -/
def LaunchRec.shutUnits (r : LaunchRec) : Nat := r.nstrm * (r.spbanks + 2)

def Core.shutFree (c : Core) : Nat := shutterUnits - (c.shutter.map (·.units)).sum - c.scrubShut

/-- Every core of a team's tile group has room for its image. -/
def State.shutRoom (s : State) (t : Team) : Bool :=
  (s.teamCores t).all fun g => decide (t.lr.shutUnits ≤ (s.core g.2.2).shutFree)

/-- A block of the store lies in a region. -/
def ShutRegion.holds (r : ShutRegion) (b : Nat) : Bool := decide (1024 * r.base ≤ b ∧ b < 1024 * (r.base + r.units))

/-- The first unit of a free run of `n`; regions of one team are contiguous where there is one. -/
def Core.shutBase (c : Core) (n : Nat) : Nat :=
  ((List.range shutterUnits).find? fun u => c.shutter.all fun r => decide (u + n ≤ r.base ∨ r.base + r.units ≤ u)).getD 0

/-- A region of a team's image taken on a core; its blocks are written. -/
def Core.takeRegion (c : Core) (m n : Nat) : Core :=
  let r : ShutRegion := { mx := m, units := n, base := c.shutBase n }
  { c with shutter := r :: c.shutter, shutBad := c.shutBad.filter fun b => !r.holds b, shutCarried := c.shutCarried.filter fun b => !r.holds b }

/-- The regions of a team's image taken on the cores of its tile group. -/
def State.takeShutter (s : State) (m : Nat) (t : Team) : State :=
  (s.teamCores t).foldl (fun u g => u.setCore g.2.2 ((u.core g.2.2).takeRegion m t.lr.shutUnits)) s

/-- A region of a micro-context's image has an uncorrectable block (R416). -/
def State.shutBad (s : State) (m : Nat) : Bool :=
  s.cores.any fun c => c.2.shutter.any fun r => r.mx == m && c.2.shutBad.any r.holds

/-- The regions of a micro-context's image are read: their correctable errors are corrected and counted (R416). -/
def State.readShutter (s : State) (m : Nat) : State :=
  if s.weak = [] then s
  else s.cores.foldl (fun (t : State) c => (c.2.shutter.filter fun r => r.mx == m).foldl (fun (u : State) r =>
    (((s.weak.filter fun e => e.1 == patrolCode (.shutter c.1)).map (·.2)).filter r.holds).foldl (fun (v : State) b => v.correct (.shutter c.1) b) u) t) s

/-- The regions of a micro-context written zero and freed. -/
def State.dropShutter (s : State) (m : Nat) : State :=
  { s with cores := s.cores.map fun e => (e.1, { e.2 with shutter := e.2.shutter.filter fun r => r.mx != m }) }

/-- The team's slots, banks, mullion slots and casements released, and their scrub started. A swapped team keeps its mullion entries
and its casements (R309, R97). -/
def State.releaseTeam (s : State) (m : Nat) (keep : Bool) (dest : Option (BitVec 5)) : State :=
  let slots := s.teamSlots m
  let banks := slots.flatMap fun e => (s.stream e.1 e.2).banks.map fun b => (e.1, b.bank)
  let cws := if keep then [] else (s.cores.filter fun c => c.2.cw.owner == some m).map (·.1)
  let x := s.mx m
  let (id, s1) := s.newId
  let s2 := slots.foldl (fun t e => t.setCore e.1 ((t.core e.1).releaseSlot m e.2)) s1
  let s3 := cws.foldl (fun t c => t.setCore c ((t.core c).releaseCasement m)) s2
  let slotsOf := if keep then [] else (s.mull.filter fun e => e.2.mx == m).map (·.1)
  let s4 := { s3 with mull := s3.mull.filter fun e => !slotsOf.contains e.1, walks := s3.walks.filter fun w => w.mx != m }
  let rec' : Scrub :=
    { id := id, mx := m, tenant := x.tenant, cores := (slots.map (·.1)).eraseDups, slots := slots, banks := banks, shuts := [], cws := cws,
      mull := slotsOf, cache := !s.tenantElsewhere m, start := s.dclk.toNat, dest := dest, allPanes := false }
  let lt := match x.team with | some t => some (t.stack, t.col) | none => x.lastTg
  let s5 := { s4 with scrubs := s4.scrubs ++ [rec'] }
  s5.setMx m { s5.mx m with lastTg := lt }

/-- What a discarded team still has on its way (R341, R382, R391): copies are dropped, block-transfer copies end as ABORTED, its KV
commands, replies and watches go. -/
def State.dropTeam (s : State) (m : Nat) : State :=
  let s1 := s.kvs.foldl (fun t k => if k.ref.mx = m then (match k.query with | some q => t.unpinQuery q | none => t) else t) s
  { s1 with
    copies := s1.copies.filterMap fun c =>
      if c.ref.mx = m then
        (if c.kind == .bt then some { c with status := 7, fcode := 0, frozen := false, units := c.done.length } else none)
      else some c
    kvs := s1.kvs.filter fun k => k.ref.mx != m
    emits := s1.emits.filter fun e => e.ref.mx != m
    peers := s1.peers.filter fun p => p.ref.mx != m }

/-- The micro-context is left without a team. -/
def State.clearTeam (s : State) (m : Nat) : State :=
  (s.dropShutter m).setMx m { s.mx m with savePages := [], drain := none, team := none, lr := none, ending := none, image := none, tensors := [], returnedAt := none, estSet := false }

/-! Ends of a launch -/

/-- The ways in which fills caused by a micro-context allocate (R328). -/
def State.waysOf (s : State) (m : Nat) : BitVec 16 := (s.part (s.mx m).part).waymask

/-- Blocks of one frame filled into the frame's line of tensor 0, for a micro-context (R170). -/
def State.fillFrame (s : State) (m pa : Nat) (enc : Option Nat) (n : Nat) : State :=
  s.fillLine (some m) (frameLine pa) (s.waysOf m) ((List.range n).map fun i => (pa / 64 + i, enc))

/-- The four blocks of the launch record filled into the last-level cache on entry to IDLE (R308). -/
def State.prefetchRecord (s : State) (m : Nat) : State :=
  (List.range 4).foldl
    (fun t i =>
      match t.access none m ((t.mx m).lrptr.toNat + 64 * i) .read false with
      | .ok x => if t.homeReady x.pa then t.fillFrame m x.pa x.enc 1 else t
      | .error _ => t) s

/-- The state an unbound micro-context takes: READY with a request, else IDLE. -/
def State.readyOrIdle (s : State) (m : Nat) : State :=
  if s.holdsRequest m then s.setMx m { s.mx m with st := .ready }
  else (s.setMx m { s.mx m with st := .idle }).prefetchRecord m

/-- The idle and busy table of the launch (R322): phase, unit, idle then busy. -/
def Mx.phaseTable (x : Mx) : List Byte :=
  (List.range 1024).flatMap fun k => leBytes 4 (AMap.get 0 x.busy k).toNat

/-- An MXSAVE `.free` of the micro-context waits for its team to go (R365). -/
def State.freeing (s : State) (m : Nat) : Bool := s.hkOps.any fun o => o.mx == m && o.mode == 1

/-- What the source ingress holds for a partition goes on to the target of its export, once the last of its micro-contexts has left this DU5 (R353,
log 46). -/
def State.forwardHeld (s : State) (p : Nat) : State :=
  if s.mxs.any fun e => e.2.part == p && e.2.exported then s else s.setPart p { s.part p with forwarding := true }

/-- The oldest message that is to go on leaves in a slot of its partition (R346): port 12 of the list of sent messages. -/
def State.forwardOne (s : State) (p : Nat) : State :=
  let r := s.part p
  if !r.forwarding then s
  else match r.heldMsgs with
    | [] => s.setPart p { r with forwarding := false }
    | l :: rest =>
      if s.etherOpenFor p (l.length % 12800) then { s.setPart p { r with heldMsgs := rest } with sent := (12, l) :: s.sent } else s

/-- The micro-context becomes FREE; the locks of R376 go. -/
def State.becomeFree (s : State) (m : Nat) : State :=
  let s1 := ((s.abortInstalls m 2).dropShutter m).setMx m
    { s.mx m with savePages := [], drain := none, st := .free, locks := [], image := none, exported := false, reserved := none, lr := none, team := none, tensors := [] }
  if (s.mx m).exported then s1.forwardHeld (s.mx m).part else s1

/-- The launch completes (R33): the table of R322 is written, the resources go, the micro-context becomes READY or IDLE; or FREE, where an MXSAVE
`.free` was stopping the team (R365). -/
def State.launchComplete (s : State) (m : Nat) : State :=
  let s1 := s.sendDev { mx := m, va := (s.mx m).perfaddr.toNat, data := (s.mx m).phaseTable, kind := .phases }
  let s2 := ((s1.freeResumes m).releaseTeam m false none).clearTeam m
  let s3 := s2.setMx m { ((s2.mx m).advance).bump 0 1 with busy := [] }
  (if s3.freeing m then s3.becomeFree m else s3.readyOrIdle m).snapshot m

/-- The effects of a discarded team on its micro-context (R316): READY with its TAKEN entries FILLED again and the KILL event raised,
or FREE under MXSAVE `.free` with the ring left as it stands. -/
def State.afterKill (s : State) (m : Nat) : State :=
  let s1 := s.setMx m ((s.mx m).advance.bump 5 1)
  if s1.freeing m then (s1.becomeFree m).snapshot m
  else
    let s2 := s1.ringSet m (· == 2) 1
    let s3 := s2.setMx m { s2.mx m with st := .ready }
    (s3.postEvent m evKill (s3.mx m).gen.toNat).snapshot m

/-- A stopped team is killed (R316): its state is discarded. -/
def State.finishKill (s : State) (m : Nat) : State :=
  ((((s.freeResumes m).dropTeam m).releaseTeam m false none).clearTeam m).afterKill m

/-- A stopped team of a micro-context that a terminal fault took to FAULTED (R382): its state is discarded and every ring entry
becomes FREE. -/
def State.finishFault (s : State) (m : Nat) : State :=
  let s1 := ((((s.freeResumes m).dropTeam m).releaseTeam m false none).clearTeam m).ringSet m (· != 0) 0
  (if s1.freeing m then s1.becomeFree m else s1).snapshot m

/-- A team whose ordered stop ends without a save: at once when its last sequencer has stopped. -/
def State.settleStop (s : State) (m : Nat) : State :=
  match (s.mx m).ending with
  | some .kill => if s.teamStopped m false then s.finishKill m else s
  | some .terminal => if s.teamStopped m false then s.finishFault m else s
  | _ => s

/-- Every such team. -/
def State.settleStops (s : State) : State := (s.mxs.map (·.1)).foldl (fun t m => t.settleStop m) s

end Sys2Proof.Machine
end

