-- ==== Sys2Proof/Machine/Operands.lean ====
section
/-! DEFINITION. Operand forms: the scratchpad window and its SP alias (R153, R212), sills (R157 to R159), the CM offset form (R95),
watch registers (R42) and the phase-barrier object with its updates (R197 to R199). -/

namespace Sys2Proof.Machine

/-! The scratchpad window (R153) -/

/-- Window size in bytes. -/
def Stream.window (x : Stream) : Nat := 65536 * x.banks.length

/-- The first failing offset of an access of `n` bytes at offset `o`: none when all of it is inside. -/
def Stream.windowFail (x : Stream) (o n : Nat) : Option Nat :=
  if o + n ≤ x.window then none else some (max o x.window)

/-- Address in the core's scratchpad of window offset `o`. -/
def Stream.spAddr (x : Stream) (o : Nat) : Nat := 65536 * ((x.banks.map (·.bank)).getD (o / 65536) 0) + o % 65536

/-- `n` bytes of a stream's window from offset `o`. -/
def State.readSp (s : State) (core slot : Nat) (o : Nat) : Nat → List Byte
  | 0 => []
  | n + 1 => (s.core core).sp.read ((s.stream core slot).spAddr o) :: s.readSp core slot (o + 1) n

/-- Bytes written into the scratchpad of a core through a stream's window. -/
def spWrite (x : Stream) (m : Memory) (o : Nat) : List Byte → Memory
  | [] => m
  | b :: r => spWrite x (m.write (x.spAddr o) b) (o + 1) r

def State.writeSp (s : State) (core slot : Nat) (o : Nat) (l : List Byte) : State :=
  s.setCore core { s.core core with sp := spWrite (s.stream core slot) (s.core core).sp o l }

/-- The first block of `n` bytes of a stream's window from offset `o` whose data is uncorrectable: its offset (R416). -/
def State.spBadIn (s : State) (core slot o n : Nat) : Option Nat :=
  let x := s.stream core slot
  if n = 0 then none
  else ((List.range ((o + n - 1) / 64 - o / 64 + 1)).map fun i => 64 * (o / 64 + i)).find? fun b =>
    (s.core core).spBad.contains (x.spAddr b / 64)

/-- The window of the running stream. -/
def State.mySp (s : State) (o n : Nat) : List Byte := s.readSp s.here.core s.here.slot o n
def State.setMySp (s : State) (o : Nat) (l : List Byte) : State := s.writeSp s.here.core s.here.slot o l

/-- A 64-byte block of the running stream's window. -/
def State.spBlk (s : State) (o : Nat) : Blk := blkOfBytes (s.mySp o 64)
def State.setSpBlk (s : State) (o : Nat) (b : Blk) : State := s.setMySp o (blkBytes b)

/-! The SP alias (R212) -/

def spAliasBase : Nat := 0x01FFFFFFFFC00000

/-- The window offset of an address in the SP alias. -/
def spAlias (va : Nat) : Option Nat :=
  if spAliasBase ≤ va ∧ va < spAliasBase + 0x400000 then some (va - spAliasBase) else none

/-! Sills (R157, R158) -/

/-- The sill of a window offset: 16 times its bank plus its sill in the bank. -/
def Stream.sillOf (x : Stream) (o : Nat) : Nat := x.spAddr o / 4096

/-- The sills that `n` bytes at window offset `o` touch. -/
def Stream.sillsOf (x : Stream) (o n : Nat) : List Nat :=
  if n = 0 then [] else (List.range ((o + n - 1) / 4096 - o / 4096 + 1)).map fun k => x.sillOf (4096 * (o / 4096 + k))

/-- Some sill of the bytes is GRANTED (R239). -/
def State.sillBusy (s : State) (core slot o n : Nat) : Bool :=
  ((s.stream core slot).sillsOf o n).any fun k => ((s.core core).sills.find k).isSome

/-- The number of the first operation that issues after the sills of copy `c` were granted. -/
def Copy.grantId (c : Copy) : Nat := max c.id c.grantNo

/-- A sill was GRANTED to the copy numbered `h` before operation `id` issued; one granted later waits for the operation (R239). -/
def State.grantedBefore (s : State) (h id : Nat) : Bool :=
  match s.copies.find? fun c => c.id == h with
  | some c => decide (c.grantId ≤ id)
  | none => decide (h < id)

/-- Some sill of the bytes was GRANTED before operation `id` issued. -/
def State.sillOlder (s : State) (core slot o n id : Nat) : Bool :=
  ((s.stream core slot).sillsOf o n).any fun k => match (s.core core).sills.find k with | some h => s.grantedBefore h id | none => false

/-- Sills granted to an operation (R158). -/
def Core.grant (c : Core) (id : Nat) (l : List Nat) : Core := { c with sills := l.foldl (fun m k => m.put k id) c.sills }

/-- Every sill an operation holds becomes FREE (R157). -/
def Core.ungrant (c : Core) (id : Nat) : Core := { c with sills := c.sills.filter fun e => e.2 != id }

/-! The CM offset form (R95) -/

/-- Effective offset of a CM scratchpad operand: OFF, plus bits 21:0 of lane 0 of v[XR] when XE is 1. -/
def State.cmOff (s : State) (a : CmOff) : Nat :=
  if a.xe then (a.off.toNat + (s.v a.xr).toNat % 2 ^ 22) % 2 ^ 22 else a.off.toNat

/-! Watch registers (R42) -/

def Stream.bwReg (x : Stream) (k : Nat) : Word := AMap.get 0 x.bw k
/-- Bits 56:4 as a byte address. -/
def bwAddr (w : Word) : Nat := bits w.toNat 56 4 * 16
def bwScope (w : Word) : Nat := bits w.toNat 3 1
def bwPhase (w : Word) : Bool := bit w.toNat 0

/-- The watch register that PB.ARRIVE writes (R221). -/
def bwOf (addr scope : Nat) (phase : Bool) : Word :=
  BitVec.ofNat 64 (bits addr 56 4 * 16 + scope % 8 * 2 + (if phase then 1 else 0))

/-! The phase-barrier object (Table 8.2) -/

/-- The fields of a barrier; `rsvd` is its reserved bits, FLAGS[7:2] and bits 127:104. -/
structure Barrier where
  pendb : Int
  expb : Nat
  penda : Nat
  expa : Nat
  phase : Bool
  err : Bool
  rsvd : Nat
  deriving DecidableEq, Repr

def barrierOf (l : List Byte) : Barrier :=
  let f := fieldLe l 12 4
  { pendb := sx 32 (fieldLe l 0 4), expb := fieldLe l 4 4, penda := fieldLe l 8 2, expa := fieldLe l 10 2,
    phase := bit f 0, err := bit f 1, rsvd := f / 4 }

def Barrier.bytes (b : Barrier) : List Byte :=
  leBytes 4 (BitVec.ofInt 32 b.pendb).toNat ++ leBytes 4 b.expb ++ leBytes 2 b.penda ++ leBytes 2 b.expa
    ++ leBytes 4 (b.rsvd * 4 + (if b.err then 2 else 0) + (if b.phase then 1 else 0))

/-- FLAGS. -/
def Barrier.flags (b : Barrier) : Nat := b.rsvd % 64 * 4 + (if b.err then 2 else 0) + (if b.phase then 1 else 0)

/-- PB.INIT (R198, R220): bad arguments set ERR and change nothing else. -/
def Barrier.init (b : Barrier) (expa expb : Nat) (bad : Bool) : Barrier :=
  if bad then { b with err := true }
  else { pendb := expb, expb := expb, penda := expa, expa := expa, phase := false, err := false, rsvd := 0 }

/-- Arrivals `n`, expects `b` and credits `c` of one cycle together (R198), then the completion test (R199). -/
def Barrier.update (o : Barrier) (n b c : Nat) (bad : Bool) : Barrier :=
  if o.err then o
  else
    let pb := o.pendb + (b : Int) - (c : Int)
    if bad ∨ o.expa = 0 ∨ o.rsvd ≠ 0 ∨ o.penda < n ∨ pb < -(2 ^ 31 : Int) ∨ (2 ^ 31 : Int) ≤ pb then { o with err := true }
    else if o.penda = n ∧ pb = 0 then { o with phase := !o.phase, penda := o.expa, pendb := o.expb }
    else { o with penda := o.penda - n, pendb := pb }

/-- What PB.TEST returns (R223). -/
def Barrier.test (b : Barrier) : Word :=
  BitVec.ofNat 64 ((BitVec.ofInt 32 b.pendb).toNat * 2 ^ 32 + b.penda * 2 ^ 16 + (if b.err then 2 else 0) + (if b.phase then 1 else 0))

end Sys2Proof.Machine
end

