-- ==== Sys2Proof/Machine/Flags.lean ====
section
/-! DEFINITION. The arithmetic sticky flags ASTK (R87, R88, Table 4.11). -/

namespace Sys2Proof.Machine

/-- A set of arithmetic flags, in the bit order of ASTK. -/
structure Flags where
  iv : Bool := false
  ov : Bool := false
  ui : Bool := false
  sa : Bool := false
  nb : Bool := false
  dz : Bool := false
  rm : Bool := false
  deriving DecidableEq, Repr

def Flags.none : Flags := {}

def Flags.or (a b : Flags) : Flags :=
  { iv := a.iv || b.iv, ov := a.ov || b.ov, ui := a.ui || b.ui, sa := a.sa || b.sa, nb := a.nb || b.nb, dz := a.dz || b.dz,
    rm := a.rm || b.rm }

/-- Bits 6:0 of ASTK. -/
def Flags.word (f : Flags) : BitVec 7 :=
  BitVec.ofNat 7 (f.iv.toNat + 2 * f.ov.toNat + 4 * f.ui.toNat + 8 * f.sa.toNat + 16 * f.nb.toNat + 32 * f.dz.toNat + 64 * f.rm.toNat)

/-- Flags set by OR (R87). -/
def Stream.orFlags (x : Stream) (f : Flags) : Stream := { x with flags := x.flags ||| f.word }
def State.orFlags (s : State) (f : Flags) : State := s.setMe (s.me.orFlags f)

/-- ASTK as CRD reads it. -/
def Stream.astk (x : Stream) : Word := BitVec.ofNat 64 (x.flags.toNat + x.flagEn.toNat * 2 ^ 16)

/-- ASTK written: flags are write-1-to-clear, enables read-write (Table 4.11). -/
def Stream.setAstk (x : Stream) (w : Word) : Stream :=
  { x with flags := x.flags &&& ~~~(BitVec.ofNat 7 w.toNat), flagEn := BitVec.ofNat 7 (bits w.toNat 22 16) }

/-- Armed flags that are set: TFENCE traps when there are any (R89). -/
def Stream.armed (x : Stream) : BitVec 7 := x.flags &&& x.flagEn

end Sys2Proof.Machine
end

