-- ==== Sys2Proof/Machine/Rounding.lean ====
section
/-! DEFINITION. Numbers as instructions see them and their rounding: exact values (R68), the modes with lattice dither (R79 to R81), float
and integer targets (R77, R78, R86, R88, Table 4.5). -/

namespace Sys2Proof.Machine

/-! Exact values -/

/-- A value: a NaN with its sign, its 23 highest fraction bits and whether it is signalling; an infinity; or a finite value
(−1)^neg × (m + δ) × 2^e, where δ is 0, or, with `st`, some number strictly between 0 and 1. -/
inductive XV where
  | nan (neg : Bool) (pay : Nat) (sig : Bool)
  | inf (neg : Bool)
  | fin (neg : Bool) (m : Nat) (e : Int) (st : Bool)
  deriving DecidableEq, Repr

/-- Zero. -/
def XV.zero (neg : Bool) : XV := .fin neg 0 0 false
/-- The canonical NaN (R78). -/
def XV.canon : XV := .nan false 0x400000 false
/-- An exact finite value. -/
def XV.exact (neg : Bool) (m : Nat) (e : Int) : XV := .fin neg m e false

def XV.ofInt (x : Int) : XV := .fin (decide (x < 0)) x.natAbs 0 false

def XV.isNan : XV → Bool
  | .nan .. => true
  | _ => false

def XV.isZero : XV → Bool
  | .fin _ m _ st => m == 0 && !st
  | _ => false

def XV.neg : XV → Bool
  | .nan n _ _ => n
  | .inf n => n
  | .fin n _ _ _ => n

/-- The value with its sign flipped. -/
def XV.flip : XV → XV
  | .nan n p s => .nan n p s
  | .inf n => .inf (!n)
  | .fin n m e s => .fin (!n) m e s

/-- A finite value times 2^k; infinities and NaNs as they are. -/
def XV.scale (x : XV) (k : Int) : XV :=
  match x with
  | .fin n m e s => .fin n m (e + k) s
  | y => y

/-! Dither (R80, R81) -/

/-- LAT, Table 4.7. -/
def lat : List Nat :=
  [0, 32, 8, 40, 2, 34, 10, 42, 48, 16, 56, 24, 50, 18, 58, 26] ++ [12, 44, 4, 36, 14, 46, 6, 38, 60, 28, 52, 20, 62, 30, 54, 22] ++
  [3, 35, 11, 43, 1, 33, 9, 41, 51, 19, 59, 27, 49, 17, 57, 25] ++ [15, 47, 7, 39, 13, 45, 5, 37, 63, 31, 55, 23, 61, 29, 53, 21]

/-- How an instruction rounds: its mode (Table 4.6), and the element's index with the stream's phase for dither. -/
structure Rnd where
  mode : Nat
  idx : Nat := 0
  dph : Nat := 0
  deriving DecidableEq, Repr

def Rnd.rne : Rnd := { mode := 0 }
def Rnd.at (r : Rnd) (i : Nat) : Rnd := { r with idx := i }

/-- Whether a magnitude between neighbours a and b goes to b: its place is (r + δ) / 2^k of the way, not 0, and `odd` tells whether the
least significant retained bit of a is 1. -/
def Rnd.up (c : Rnd) (neg odd : Bool) (r k : Nat) (st : Bool) : Bool :=
  match c.mode with
  | 0 => decide (2 ^ k < 2 * r) || (2 * r == 2 ^ k && (st || odd))
  | 1 => false
  | 2 => neg
  | 3 => !neg
  | _ => decide ((2 * lat.getD ((c.idx + c.dph) % 64) 0 + 1) * 2 ^ k ≤ 128 * r)

/-- A magnitude m × 2^e in units of 2^q: whole units, the rest in units of 2^(q − k), and k. -/
def units (m : Nat) (e q : Int) : Nat × Nat × Nat :=
  if q ≤ e then (m * 2 ^ (e - q).toNat, 0, 0)
  else
    let k := (q - e).toNat
    (m / 2 ^ k, m % 2 ^ k, k)

/-- The magnitude rounded to whole units of 2^q, and whether that is exact. -/
def Rnd.units (c : Rnd) (neg : Bool) (m : Nat) (e : Int) (st : Bool) (q : Int) : Nat × Bool :=
  let (n, r, k) := Machine.units m e q
  if r = 0 ∧ st = false then (n, true) else (if c.up neg (n % 2 == 1) r k st then n + 1 else n, false)

/-! Float formats (Table 4.5) -/

/-- A float format: exponent and fraction bits; `fp8` formats flush subnormals, `e4m3` has no infinities. -/
structure FFmt where
  eb : Nat
  mb : Nat
  fp8 : Bool := false
  e4m3 : Bool := false

def fE4M3 : FFmt := { eb := 4, mb := 3, fp8 := true, e4m3 := true }
def fE5M2 : FFmt := { eb := 5, mb := 2, fp8 := true }
def fBF16 : FFmt := { eb := 8, mb := 7 }
def fFP16 : FFmt := { eb := 5, mb := 10 }
def fFP32 : FFmt := { eb := 8, mb := 23 }

/-- The float format of a raw type code. -/
def fOfType (t : Nat) : FFmt :=
  match t with
  | 8 => fE4M3 | 9 => fE5M2 | 10 => fBF16 | 11 => fFP16 | _ => fFP32

def FFmt.bias (f : FFmt) : Nat := 2 ^ (f.eb - 1) - 1
def FFmt.emin (f : FFmt) : Int := 1 - (f.bias : Int)
/-- The magnitude code of the largest finite value, and of infinity. -/
def FFmt.maxCode (f : FFmt) : Nat := if f.e4m3 then 0x7E else (2 ^ f.eb - 1) * 2 ^ f.mb - 1
def FFmt.infCode (f : FFmt) : Nat := (2 ^ f.eb - 1) * 2 ^ f.mb
def FFmt.signed (f : FFmt) (neg : Bool) (c : Nat) : Nat := (if neg then 2 ^ (f.eb + f.mb) else 0) + c

/-- MAXF as a mantissa and exponent. -/
def FFmt.maxf (f : FFmt) : Nat × Int :=
  if f.e4m3 then (7, 6) else (2 ^ (f.mb + 1) - 1, ((2 ^ f.eb - 2 : Nat) : Int) - (f.bias : Int) - (f.mb : Int))

/-- The value of an encoding. A NaN's payload is kept as the fraction aligned at the top of a 23-bit one, the place where R78 keeps "the highest
fraction bits" for a narrower target. DESIGN CHOICE (log 41): R78 does not state the payload in a wider target; so aligned, an E4M3 NaN
becomes the FP32 payload 0x700000. -/
def FFmt.dec (f : FFmt) (x : Nat) : XV :=
  let neg := bit x (f.eb + f.mb)
  let ex := x / 2 ^ f.mb % 2 ^ f.eb
  let fr := x % 2 ^ f.mb
  if f.e4m3 then
    if ex = 15 ∧ fr = 7 then .nan neg (fr * 2 ^ 20) false
    else if ex = 0 then XV.zero neg
    else .exact neg (8 + fr) ((ex : Int) - 10)
  else if ex = 2 ^ f.eb - 1 then
    if fr = 0 then .inf neg else .nan neg (fr * 2 ^ (23 - f.mb)) (!bit fr (f.mb - 1))
  else if ex = 0 then
    if fr = 0 ∨ f.fp8 then XV.zero neg else .exact neg fr (f.emin - (f.mb : Int))
  else .exact neg (2 ^ f.mb + fr) ((ex : Int) - (f.bias : Int) - (f.mb : Int))

/-- The encoding a NaN takes: quieted, sign kept, highest payload bits kept (R78). -/
def FFmt.nan (f : FFmt) (neg : Bool) (pay : Nat) : Nat :=
  if f.e4m3 then f.signed neg 0x7F
  else f.signed neg (f.infCode + (pay / 2 ^ (23 - f.mb)) ||| 2 ^ (f.mb - 1))

/-- The exact magnitude m × 2^e, with a sticky rest below, lies beyond MAXF. -/
def FFmt.past (f : FFmt) (m : Nat) (e : Int) (st : Bool) : Bool :=
  let (mm, me) := f.maxf
  let (u, r, _) := units m e me
  decide (mm < u) || (u == mm && (r != 0 || st))

/-- What a finite value beyond MAXF delivers (Table 4.10): under RNE an infinity, as R90 reads that column, where there is one (log 55). -/
def FFmt.beyond (f : FFmt) (c : Rnd) (neg : Bool) : Nat × Flags :=
  let toInf := !f.e4m3 && (match c.mode with | 0 => true | 4 => true | 2 => neg | 3 => !neg | _ => false)
  if toInf then (f.signed neg f.infCode, { ov := true }) else (f.signed neg f.maxCode, { sa := true })

/-- RoundTo for a float target, with its flags (R77, R79, R80, R86, R88). -/
def FFmt.enc (f : FFmt) (c : Rnd) (x : XV) : Nat × Flags :=
  match x with
  | .nan neg pay sig => (f.nan neg pay, { iv := sig })
  | .inf neg => if f.e4m3 then (f.signed neg f.maxCode, { sa := true }) else (f.signed neg f.infCode, {})
  | .fin neg m e st =>
    if m = 0 then
      if st then (f.signed neg 0, { ui := true }) else (f.signed neg 0, {})
    else
      let big := (Nat.log2 m : Int) + e
      if f.fp8 ∧ big < f.emin then
        -- the neighbours are zero and the smallest normal magnitude
        let (_, r, k) := Machine.units m e f.emin
        if c.up neg false r k st then (f.signed neg (2 ^ f.mb), {}) else (f.signed neg 0, { ui := true })
      else
        let q := max big f.emin - (f.mb : Int)
        let (n, isExact) := c.units neg m e st q
        -- magnitude codes run on across binades
        let code := if big < f.emin then n else (big - f.emin).toNat * 2 ^ f.mb + n
        if n = 0 then (f.signed neg 0, { ui := true })
        else if f.past m e st then
          -- under RDT a value below the next binade step is dithered between MAXF and infinity
          (if c.mode = 4 ∧ f.e4m3 = false ∧ code ≤ f.maxCode then (f.signed neg f.maxCode, { sa := true }) else f.beyond c neg)
        else (f.signed neg code, { ui := decide (code < 2 ^ f.mb) && !isExact })

/-! Raw integers -/

/-- Range of an integer type of Table 4.5. -/
def intMax (t : Nat) : Int := if isSignedType t then 2 ^ (typeBits t - 1) - 1 else 2 ^ typeBits t - 1
def intMin (t : Nat) : Int := if isSignedType t then -(2 ^ (typeBits t - 1)) else 0

/-- A value rounded to a whole number, with its sign. -/
def Rnd.int (c : Rnd) (neg : Bool) (m : Nat) (e : Int) (st : Bool) : Int :=
  let n := (c.units neg m e st 0).1
  if neg then -(n : Int) else n

/-- RoundTo for a raw integer target: clamped to its range with SA, a NaN as 0 with IV (R78 rule 4, R88). -/
def encInt (t : Nat) (c : Rnd) (x : XV) : Nat × Flags :=
  let put := fun (v : Int) => (BitVec.ofInt (typeBits t) v).toNat
  match x with
  | .nan .. => (0, { iv := true })
  | .inf neg => (put (if neg then intMin t else intMax t), { sa := true })
  | .fin neg m e st =>
    let v := c.int neg m e st
    if intMax t < v then (put (intMax t), { sa := true })
    else if v < intMin t then (put (intMin t), { sa := true })
    else (put v, {})

/-! Raw types together -/

/-- The value of an element of a raw type. -/
def decType (t x : Nat) : XV :=
  if isIntType t then XV.ofInt (if isSignedType t then sx (typeBits t) x else ((x % 2 ^ typeBits t : Nat) : Int))
  else (fOfType t).dec x

/-- RoundTo into a raw type. -/
def encType (t : Nat) (c : Rnd) (x : XV) : Nat × Flags := if isIntType t then encInt t c x else (fOfType t).enc c x

/-! Exact arithmetic on values (R78) -/

/-- The result when some operand is a NaN: the first, quieted; a signalling input sets IV. -/
def nanOf (l : List XV) : Option (XV × Flags) :=
  match l.find? XV.isNan with
  | some (.nan n p _) =>
    some (.nan n (p ||| 0x400000) false, { iv := l.any fun x => match x with | .nan _ _ s => s | _ => false })
  | _ => none

/-- Exact sum of two finite values; an exact zero sum is +0, or −0 under RDN, and the sum of two zeros of one sign keeps it. -/
def addFin (rdn : Bool) (n1 : Bool) (m1 : Nat) (e1 : Int) (s1 : Bool) (n2 : Bool) (m2 : Nat) (e2 : Int) : XV :=
  if m2 = 0 then
    if m1 = 0 ∧ s1 = false then XV.zero (if n1 = n2 then n1 else rdn) else .fin n1 m1 e1 s1
  else
    let e := min e1 e2
    let a : Int := (if n1 then -1 else 1) * ((m1 * 2 ^ (e1 - e).toNat : Nat) : Int)
    let b : Int := (if n2 then -1 else 1) * ((m2 * 2 ^ (e2 - e).toNat : Nat) : Int)
    if a + b = 0 then XV.zero rdn else .fin (decide (a + b < 0)) (a + b).natAbs e false

/-- Exact sum. -/
def XV.add (rdn : Bool) (x y : XV) : XV × Flags :=
  match nanOf [x, y] with
  | some r => r
  | none =>
    match x, y with
    | .inf a, .inf b => if a = b then (.inf a, {}) else (XV.canon, { iv := true })
    | .inf a, _ => (.inf a, {})
    | _, .inf b => (.inf b, {})
    | .fin n1 m1 e1 s1, .fin n2 m2 e2 _ => (addFin rdn n1 m1 e1 s1 n2 m2 e2, {})
    | _, _ => (XV.canon, {})

/-- Exact product. -/
def XV.mul (x y : XV) : XV × Flags :=
  match nanOf [x, y] with
  | some r => r
  | none =>
    let n := xor x.neg y.neg
    match x, y with
    | .fin _ m1 e1 _, .fin _ m2 e2 _ => (.fin n (m1 * m2) (e1 + e2) false, {})
    | a, b => if a.isZero || b.isZero then (XV.canon, { iv := true }) else (.inf n, {})

/-- The sign and magnitude order of two finite or infinite values: less, equal, greater. -/
def XV.cmp (x y : XV) : Ordering :=
  let key := fun (v : XV) (e : Int) =>
    match v with
    | .fin n m e1 _ => (0, (if n then -1 else 1) * ((m * 2 ^ (e1 - e).toNat : Nat) : Int))
    | .inf n => (if n then -1 else 1, (0 : Int))
    | .nan .. => (0, 0)
  let ex := fun (v : XV) => match v with | .fin _ m e _ => if m = 0 then 0 else e | _ => 0
  let e := min (min (ex x) (ex y)) 0
  let kx : Int × Int := key x e
  let ky : Int × Int := key y e
  if kx.1 < ky.1 then .lt
  else if ky.1 < kx.1 then .gt
  else if kx.2 < ky.2 then .lt
  else if ky.2 < kx.2 then .gt
  else .eq

/-- FP32 words. -/
def fp32 (w : BitVec 32) : XV := fFP32.dec w.toNat
def toFp32 (c : Rnd) (x : XV) : BitVec 32 × Flags :=
  let r := fFP32.enc c x
  (BitVec.ofNat 32 r.1, r.2)

end Sys2Proof.Machine
end

