-- ==== Sys2Proof/Machine/Formats.lean ====
section
/-! DEFINITION. Described blocks (R70 to R76): format codes and their faults, the values a block holds, and the conversions into
two-scale and scaled plain blocks (R83, R84). -/

namespace Sys2Proof.Machine

/-- Elements of a block format, bits of an element, and its magnitude width where it has one (Table 4.1). -/
structure BlkFmt where
  elems : Nat
  bits : Nat
  width : Option Nat

/-- The dense formats of Table 4.1. -/
def blkFmt (f : Nat) : Option BlkFmt :=
  match f with
  | 0x01 => some ⟨128, 3, some 1⟩
  | 0x02 => some ⟨64, 7, some 5⟩
  | 0x03 => some ⟨32, 15, some 13⟩
  | 0x10 => some ⟨124, 4, some 4⟩
  | 0x11 => some ⟨62, 8, some 8⟩
  | 0x12 => some ⟨15, 32, some 32⟩
  | 0x18 => some ⟨62, 8, none⟩
  | 0x19 => some ⟨62, 8, none⟩
  | 0x1A => some ⟨31, 16, none⟩
  | 0x1B => some ⟨15, 32, none⟩
  | _ => none

/-- A two-scale format. -/
def isTsb (f : Nat) : Bool := f == 1 || f == 2 || f == 3
/-- Magnitude bits of a two-scale format (Table 4.3). -/
def tsbWidth (f : Nat) : Nat := match f with | 1 => 1 | 2 => 5 | _ => 13
/-- Every code of Table 4.1. -/
def isFormat (f : Nat) : Bool := (blkFmt f).isSome || decide (0x21 ≤ f ∧ f ≤ 0x23) || decide (0x40 ≤ f ∧ f ≤ 0x44)

/-- Formats of any described operand, and of vector and conversion operands (Table 4.1). -/
def isMatrixFormat (f : Nat) : Bool := isTsb f || f == 0x10 || f == 0x11 || f == 0x12
def isVectorFormat (f : Nat) : Bool := (blkFmt f).isSome

def Blk.f (b : Blk) : Nat := b.toNat % 256
def Blk.s (b : Blk) : Nat := b.toNat / 256 % 256
/-- The 496 payload bits. -/
def Blk.payload (b : Blk) : Nat := b.toNat / 65536
def Blk.isNan (b : Blk) : Bool := Blk.s b == 0xFF
/-- A block with its header and payload. -/
def mkBlk (f s payload : Nat) : Blk := BitVec.ofNat 512 (f + 256 * s + 65536 * payload)

/-- The format fault of an operand block (R73, Table 4.2): its reason, if any. -/
def formatReason (f : Nat) (accepted : Bool) : Option Nat :=
  if f = 0 then some 1 else if !isFormat f then some 2 else if !accepted then some 3 else none

/-! Values of a block (R74 to R76) -/

/-- The element `i` of a two-scale payload: sign, magnitude and exponent of its unit. -/
def tsbElem (m s pay i : Nat) : Bool × Nat × Int :=
  let base := i / 32 * (8 + 32 * (m + 2))
  let offs := pay / 2 ^ base % 256
  let x := pay / 2 ^ (base + 8 + i % 32 * (m + 2)) % 2 ^ (m + 2)
  let off := if bit x (m + 1) then offs % 16 else offs / 16
  (bit x m, x % 2 ^ m, (s : Int) - 127 - (off : Int) - (m : Int))

/-- The element `i` of an integer payload of width `w`. -/
def intElem (w s pay i : Nat) : Bool × Nat × Int :=
  let v := sx w (pay / 2 ^ (w * i))
  (decide (v < 0), v.natAbs, (s : Int) - 127)

/-- Sign, magnitude and exponent of an element of a two-scale or integer block. -/
def exactElem (b : Blk) (i : Nat) : Bool × Nat × Int :=
  let f := Blk.f b
  if isTsb f then tsbElem (tsbWidth f) (Blk.s b) (Blk.payload b) i
  else intElem (match f with | 0x10 => 4 | 0x11 => 8 | _ => 32) (Blk.s b) (Blk.payload b) i

/-- The raw type of the elements of a scaled float format. -/
def floatElemType (f : Nat) : Nat := match f with | 0x18 => 8 | 0x19 => 9 | 0x1A => 10 | _ => 12

/-- The value of element `i` of a block; in a NaN block the canonical NaN (R78). -/
def blkElem (b : Blk) (i : Nat) : XV :=
  let f := Blk.f b
  if Blk.isNan b then XV.canon
  else if isMatrixFormat f then
    let (n, m, e) := exactElem b i
    if m = 0 then XV.zero false else .exact n m e
  else
    let t := floatElemType f
    (decType t (Blk.payload b / 2 ^ (typeBits t * i) % 2 ^ typeBits t)).scale ((Blk.s b : Int) - 127)

/-- All values of a block. -/
def blkValues (b : Blk) : List XV :=
  match blkFmt (Blk.f b) with
  | some z => (List.range z.elems).map (blkElem b)
  | none => []

/-! Conversion into described blocks -/

/-- m × 2^e is at most `n`. -/
def fitsIn (m : Nat) (e : Int) (n : Nat) : Bool :=
  if 0 ≤ e then decide (m * 2 ^ e.toNat ≤ n) else decide (m ≤ n * 2 ^ (-e).toNat)

/-- The larger magnitude; a NaN does not occur here. -/
def absMax (x y : XV) : XV :=
  let ax := if x.neg then x.flip else x
  let ay := if y.neg then y.flip else y
  if XV.cmp ax ay == .lt then ay else ax

def maxAbs (l : List XV) : XV := l.foldl absMax (XV.zero false)

/-- The least k for which the magnitude times 2^−k is at most maxm × 2^maxe, clamped to −127 to 127; −127 or 0 for zero as the caller
says, 127 for an infinity (R83, R84). -/
def scaleFor (x : XV) (maxm : Nat) (maxe : Int) (zero : Int) : Int :=
  match x with
  | .fin _ m e _ =>
    if m = 0 then zero
    else
      let k0 := (Nat.log2 m : Int) + e - ((Nat.log2 maxm : Int) + maxe)
      -- m × 2^(e − k0) and maxm × 2^maxe have the same leading bit
      let ok := fitsIn m (e - k0 - maxe) maxm
      let k := if ok then k0 else k0 + 1
      max (-127) (min 127 k)
  | _ => 127

/-- A value times 2^t rounded to a whole number with its sign; none for an infinity. -/
def roundScaled (c : Rnd) (x : XV) (t : Int) : Option Int :=
  match x with
  | .fin n m e st => some (c.int n m (e + t) st)
  | _ => none

/-- One element of a two-scale block: its bits and flags (R83). -/
def tsbEncElem (c : Rnd) (m : Nat) (k : Int) (off0 off1 i : Nat) (x : XV) : Nat × Flags :=
  let lim := 2 ^ m - 1
  let r := c.at i
  let small := fun (y : Option Int) => match y with | some v => decide (v.natAbs ≤ lim) | none => false
  let put := fun (sel : Nat) (v : Int) =>
    sel * 2 ^ (m + 1) + (if v < 0 then 2 ^ m else 0) + v.natAbs
  let y1 := roundScaled r x ((m : Int) - k + off1)
  let (bits, mag, sa) :=
    if small y1 then (put 1 (y1.getD 0), (y1.getD 0).natAbs, false)
    else
      let y0 := roundScaled r x ((m : Int) - k + off0)
      if small y0 then (put 0 (y0.getD 0), (y0.getD 0).natAbs, false)
      else (put 0 (if x.neg then -(lim : Int) else lim), lim, true)
  (bits, { sa := sa, ui := !x.isZero && mag == 0 })

/-- Flags of a NaN block written: NB, and IV when a signalling NaN was read (R78, Table 4.12). -/
def nanBlkFlags (xs : List XV) : Flags := { nb := true, iv := xs.any fun x => match x with | .nan _ _ sg => sg | _ => false }

/-- A two-scale block (R83): `d` is the offset distance. -/
def encTsb (f : Nat) (c : Rnd) (d : Nat) (xs : List XV) : Blk × Flags :=
  let m := tsbWidth f
  let n := match blkFmt f with | some z => z.elems | none => 0
  let xs := (List.range n).map fun i => xs.getD i (XV.zero false)
  if xs.any XV.isNan then (mkBlk f 0xFF 0, nanBlkFlags xs)
  else
    let lim := 2 ^ m - 1
    let k := scaleFor (maxAbs xs) lim (-(m : Int)) (-127)
    let group := fun (g : Nat) =>
      let xg := maxAbs ((xs.drop (32 * g)).take 32)
      let fit := fun (o : Nat) => match xg with
        | .fin _ mm e _ => fitsIn mm (e + (m : Int) - k + o) lim
        | _ => false
      let off0 := if xg.isZero || !fit 0 then 0 else (((List.range 16).filter fit).getLast?).getD 0
      let off1 := min 15 (off0 + d)
      let els := (List.range 32).map fun j => tsbEncElem c m k off0 off1 (32 * g + j) (xs.getD (32 * g + j) (XV.zero false))
      let w := m + 2
      (off0 * 16 + off1 + 256 * els.reverse.foldl (fun a e => a * 2 ^ w + e.1) 0, els.foldl (fun a e => a.or e.2) Flags.none)
    let gs := (List.range (n / 32)).map group
    let pay := gs.reverse.foldl (fun a g => a * 2 ^ (8 + 32 * (m + 2)) + g.1) 0
    (mkBlk f (k + 127).toNat pay, gs.foldl (fun a g => a.or g.2) Flags.none)

/-- One element of a scaled integer block: clamped to ±MAXF with SA, UI when a nonzero value becomes zero. -/
def intEncElem (c : Rnd) (w i : Nat) (k : Int) (x : XV) : Nat × Flags :=
  let lim : Int := 2 ^ (w - 1) - 1
  let (v, sa) := match roundScaled (c.at i) x (-k) with
    | some y => if lim < y then (lim, true) else if y < -lim then (-lim, true) else (y, false)
    | none => (if x.neg then -lim else lim, true)
  ((BitVec.ofInt w v).toNat, { sa := sa, ui := !x.isZero && v == 0 })

/-- One element of a scaled float block; UI also for a zero delivered from a nonzero value. -/
def floatEncElem (c : Rnd) (t i : Nat) (k : Int) (x : XV) : Nat × Flags := (fOfType t).enc (c.at i) (x.scale (-k))

/-- A scaled plain block (R84). -/
def encPlain (f : Nat) (c : Rnd) (xs : List XV) : Blk × Flags :=
  let (n, w) := match blkFmt f with | some z => (z.elems, z.bits) | none => (0, 8)
  let xs := (List.range n).map fun i => xs.getD i (XV.zero false)
  if xs.any XV.isNan then (mkBlk f 0xFF 0, nanBlkFlags xs)
  else
    let isInt := isMatrixFormat f
    let (mm, me) := if isInt then (2 ^ (w - 1) - 1, (0 : Int)) else (fOfType (floatElemType f)).maxf
    let k := scaleFor (maxAbs xs) mm me 0
    let els := xs.zipIdx.map fun e => if isInt then intEncElem c w e.2 k e.1 else floatEncElem c (floatElemType f) e.2 k e.1
    (mkBlk f (k + 127).toNat (els.reverse.foldl (fun a e => a * 2 ^ w + e.1) 0), els.foldl (fun a e => a.or e.2) Flags.none)

/-- A block of a described format written from exact values (R83 to R85). -/
def encBlk (f : Nat) (c : Rnd) (d : Nat) (xs : List XV) : Blk × Flags := if isTsb f then encTsb f c d xs else encPlain f c xs

end Sys2Proof.Machine
end

