-- ==== Sys2Proof/Machine/Blocks.lean ====
section
/-! DEFINITION. Block streams: reaching a header (R36), the admission conditions (R37, R38, R42), the choice among streams (R43,
R230), the matrix lease (R40, R102), the end of a block instance (R39), of a tile-task (R32) and the grid (R28). -/

namespace Sys2Proof.Machine

/-! Grid positions (R28) -/

/-- Number of instances of domain `d` (0 stream, 1 core, 2 column, 3 tile group) inside one instance of domain `o` (4 or more: all of
the tile group), and the number of a stream among them: stream slot fastest, then tier, then column offset. -/
def domCount (nstrm cols d o : Nat) : Nat :=
  (if d ≤ 0 ∧ 1 ≤ o then nstrm else 1) * (if d ≤ 1 ∧ 2 ≤ o then 4 else 1) * (if d ≤ 2 ∧ 3 ≤ o then cols else 1)

def domNumber (nstrm ts tier coff d o : Nat) : Nat :=
  let a := if d ≤ 0 ∧ 1 ≤ o then ts else 0
  let na := if d ≤ 0 ∧ 1 ≤ o then nstrm else 1
  let b := if d ≤ 1 ∧ 2 ≤ o then tier else 0
  let nb := if d ≤ 1 ∧ 2 ≤ o then 4 else 1
  let c := if d ≤ 2 ∧ 3 ≤ o then coff else 0
  a + na * b + na * nb * c

/-- How many index values of a level with COUNT `n` fall to the instance numbered `k` of `c`: those equal to `k` modulo `c`. -/
def dealt (n c k : Nat) : Nat := if k < n then (n - k + c - 1) / c else 0

/-- One level of the grid as a stream takes it: how many values it takes, the first, and the step between them. -/
structure GridLevel where
  num : Nat
  first : Nat
  step : Nat

/-- The levels of a stream, innermost first: an outer level (DOM 4 and above) has its fixed index. -/
def gridLevels (lr : LaunchRec) (outer : List Nat) (ts tier coff : Nat) : List GridLevel :=
  let doms := lr.levels.map (·.2)
  (List.range lr.levels.length).map fun i =>
    let (n, d) := lr.levels.getD i (1, 0)
    if 4 ≤ d then { num := 1, first := outer.getD (d - 4) 0 % n, step := 0 }
    else
      let o := Nat.min 3 (doms.getD (i + 1) 7)
      let c := domCount lr.nstrm lr.tgcols d o
      let k := domNumber lr.nstrm ts tier coff d o
      { num := dealt n c k, first := k, step := c }

/-- Grid positions a stream runs: the product of its level counts. -/
def gridTotal (l : List GridLevel) : Nat := l.foldl (fun a g => a * g.num) 1

/-- The n-th grid position of a stream, innermost index fastest. -/
def gridPos : List GridLevel → Nat → List Nat
  | [], _ => []
  | g :: r, n => (g.first + g.step * (n % g.num)) :: gridPos r (n / g.num)

/-- The grid of a stream of a bound team. -/
def State.gridOf (s : State) (x : Stream) : List GridLevel :=
  match (s.mx (x.mx.getD 0)).team with
  | some t => gridLevels t.lr t.outer x.tsidx x.tier x.coff
  | none => []

/-- GPOS set to a grid position (R28). -/
def Stream.setGpos (x : Stream) (l : List Nat) : Stream :=
  { x with gpos := (List.range 8).map fun i => (i, BitVec.ofNat 24 (l.getD i 0)) }

/-! Loop counts -/

def Stream.lcReg (x : Stream) (k : Nat) : BitVec 32 := AMap.get 0 x.lc k

/-- How often a block runs: LCk is read once, a value above 256 acting as 256 (R36). -/
def Rep.count (r : Rep) (x : Stream) : Nat :=
  match r with
  | .times n => n
  | .lc k => min 256 (x.lcReg k).toNat

/-! Faults at a header -/

/-- A held fault at a header (R379, R381): the block is not admitted. -/
def State.raiseHeader (s : State) (q : SeqId) (f : FaultInfo) : State := s.raiseAt q.core q.slot (some q.sec) (s.seqr q).hdrPc f

/-- The control-target fault of R36 and R60, at the address `pc`. -/
def State.raiseTarget (s : State) (q : SeqId) (pc target : Word) : State :=
  s.raiseAt q.core q.slot (some q.sec) pc { code := 0x0F, addr := target.toNat }

/-! Reaching a header -/

/-- The word at a header is read (R397, R398, R416). -/
def State.metHeader (s : State) (q : SeqId) (va : Word) : State :=
  match s.codePlace false q.core ((s.strm q).mx.getD 0) q.sec va.toNat with
  | .ok c => s.meets [(c.pa, q.sec.wordBytes)]
  | .error _ => s

/-- A sequencer arrives at an address: the header there is read and its repeat count fixed; a block with count 0 is skipped (R36). `lc` are the LC
registers as they stand when the sequencer arrives. `from'` is the header of the last skipped block, `va` itself where none was skipped. After a skip,
an address that is no block header of the section in its executable code, whatever is wrong with it, is a control-target fault; else a failed fetch is
a fault at the header (R373). Where the code cannot be read yet, the header stays to be reached, with the LC registers of its arrival. -/
def State.reachAux (s : State) (q : SeqId) (lc : AMap (BitVec 32)) : Nat → Word → Word → State
  | 0, va, _ => s.setSeqr q { s.seqr q with phase := .waiting, pc := va, hdrPc := va, reached := false, lcAt := some lc }
  | n + 1, va, from' =>
    let x := s.strm q
    match s.headerAt false q.core (x.mx.getD 0) q.sec va.toNat with
    | .header h =>
      let c := h.rep.count { x with lc := lc }
      if c = 0 then (s.metHeader q va).reachAux q lc n (va + BitVec.ofNat 64 ((h.len + 1) * q.sec.wordBytes)) va
      else
        (s.metHeader q va).setSeqr q
          { s.seqr q with phase := .waiting, pc := va, hdrPc := va, hdr := h, reached := true, lcAt := none, left := 0, reps := c,
                          since := none, escape := false, leaveAsked := none, leaveAged := false, leaveHeld := none }
    | .none =>
      (s.setSeqr q { s.seqr q with phase := .waiting, pc := va, hdrPc := va, reached := false, lcAt := some lc }).raiseTarget q from' va
    | .fault _ =>
      let s1 := s.setSeqr q { s.seqr q with phase := .waiting, pc := va, hdrPc := va, reached := false, lcAt := some lc }
      if from' = va ∨ s.isHeader false q.core (x.mx.getD 0) q.sec va.toNat then s1 else s1.raiseTarget q from' va
    | .wait => s.setSeqr q { s.seqr q with phase := .waiting, pc := va, hdrPc := va, reached := false, lcAt := some lc }

/-- Enough steps to pass every header of the device's code. -/
def State.headerFuel (s : State) : Nat := s.segs.foldl (fun n e => n + e.2.headers.length) 1

def State.reach (s : State) (q : SeqId) (va : Word) : State := s.reachAux q (s.strm q).lc s.headerFuel va va

/-- A header that could not be read when the sequencer arrived at it is looked for again. -/
def State.reachAgain (s : State) (q : SeqId) : State :=
  s.reachAux q ((s.seqr q).lcAt.getD (s.strm q).lc) s.headerFuel (s.seqr q).pc (s.seqr q).pc

/-- All four sequencers of a stream at their section bases (R32). -/
def State.startTask (s : State) (core slot : Nat) : State :=
  let x := s.stream core slot
  match (s.mx (x.mx.getD 0)).team with
  | none => s
  | some t =>
    let go := fun (u : State) (c : Section) (va : Word) => u.reach { core := core, slot := slot, sec := c } va
    go (go (go (go s .sc t.lr.codeSc) .ld t.lr.codeLd) .cm t.lr.codeCm) .st t.lr.codeSt

/-! Admission conditions (R37) -/

/-- Conditions 1 and 2. -/
def tokensOk (x : Stream) (c : Section) (h : Header) : Bool :=
  let ip := x.tok (popQueues c).1
  let inn := x.tok (popQueues c).2
  let op := x.tok (pushQueues c).1
  let onn := x.tok (pushQueues c).2
  decide (ip.pr + h.popp ≤ ip.c ∧ inn.pr + h.popn ≤ inn.c ∧ op.c + op.ur + h.pushp ≤ 15 ∧ onn.c + onn.ur + h.pushn ≤ 15)

def Stream.tmReg (x : Stream) (k : Nat) : Word := AMap.get 0 x.tm k

/-- Condition 3. -/
def tagsOk (x : Stream) (h : Header) : Bool :=
  let m := x.tmReg h.wtm
  h.wmode == 0 || m == 0 || (if h.wmode = 1 then (x.tagrdy &&& m) != 0 else (x.tagrdy &&& m) == m)

/-- The tags whose bits satisfy the wait: the block's admission consumes them (R190). -/
def consumedTags (x : Stream) (h : Header) : List Nat :=
  if h.wmode = 0 then [] else (List.range 64).filter fun t => (x.tagrdy &&& x.tmReg h.wtm).getLsbD t

/-- What condition 4 comes to. -/
inductive BarWait where
  | ok
  | no
  | fault (f : FaultInfo)
  deriving DecidableEq, Repr

/-- A PB.ARRIVE of the stream still has to write the watch register (R221): from its issue until a PB.ARRIVE or a CWR has written it. -/
def State.bwPending (s : State) (core slot k : Nat) : Bool := (s.stream core slot).bwOwed.contains k

/-- Condition 4 with the checks of R42. DESIGN CHOICE (log 33): a barrier, in the scratchpad or in G, whose block is uncorrectable leaves the
condition false, with no fault; R42 names none for it. A barrier in a GRANTED sill is read when the sill is FREE (R239). -/
def State.barrierWait (s : State) (core slot : Nat) (h : Header) : BarWait :=
  match h.wbar with
  | none => .ok
  | some k =>
    let x := s.stream core slot
    let w := x.bwReg k
    let a := bwAddr w
    let info := fun (f : FaultInfo) => { f with opnd := 2, c0 := k, addr := f.addr }
    if a = 0 || s.bwPending core slot k then .no
    else match spAlias a with
      | some o =>
        match x.windowFail o 16 with
        | some _ => .fault (info { code := 1, space := spSP, addr := a })
        | none =>
          if s.sillBusy core slot (o + 12) 1 || (s.spBadIn core slot (o + 12) 1).isSome then .no
          else if bit (fieldLe (s.readSp core slot (o + 12) 1) 0 1) 0 == bwPhase w then .no else .ok
      | none =>
        match s.access (some core) (x.mx.getD 0) a .read false with
        | .error e => .fault (info (e.info 2 k 0 spG a))
        | .ok t =>
          if s.badBlk (t.pa / 64) || !s.homeReady t.pa then .no
          else if bit (fieldLe (s.readPa t.enc (t.pa + 12) 1) 0 1) 0 == bwPhase w then .no else .ok

/-- Conditions 3 and 4, without the faults of condition 4. -/
def State.eventsOk (s : State) (core slot : Nat) (c : Section) : Bool :=
  let h := ((s.stream core slot).seqr c).hdr
  tagsOk (s.stream core slot) h && s.barrierWait core slot h == .ok

/-- Conditions 1 to 4, without the faults of condition 4. -/
def State.waitsOk (s : State) (core slot : Nat) (c : Section) : Bool :=
  tokensOk (s.stream core slot) c ((s.stream core slot).seqr c).hdr && s.eventsOk core slot c

/-! The matrix lease (R40, R102) -/

/-- Limits of a term. -/
def leaseMax : Nat := 64
def leaseCycles : Nat := 16384

/-- Priority tokens of the team in a slot. -/
def State.slotPrio (s : State) (core slot : Nat) : Nat := (s.mx ((s.stream core slot).mx.getD 0)).prio

/-- Of a list of slots the one of most priority tokens, the first after `last` in slot order among equals. -/
def State.bestSlot (s : State) (core last : Nat) (l : List Nat) : Option Nat :=
  let dist := fun k => (k + 7 - last) % 8
  l.foldl
    (fun b k =>
      match b with
      | none => some k
      | some j =>
        if s.slotPrio core j < s.slotPrio core k ∨ (s.slotPrio core j = s.slotPrio core k ∧ dist k < dist j) then some k
        else some j) none

/-- The seed of a stream's diagonals: 0 acts as 1 (R101). -/
def Stream.seed (x : Stream) : BitVec 32 := if x.hrseed = 0 then 1 else x.hrseed

/-- Slots with a posted request, whoever posted it. -/
def Lease.wants (l : Lease) : List Nat := l.asks ++ l.posted

/-- The CM sequencer stands in a LEASE block. -/
def Stream.inLease (x : Stream) : Bool := x.cm.phase == .running && x.cm.hdr.lease

/-- The lease as it is granted to a slot. A LEASE block that a restored stream goes on with counts in the new term and is no wait (log 57); a
grant for which no LEASE block is admissible is held (R38, R106). -/
def State.grantTo (s : State) (core k : Nat) : Lease :=
  let l := (s.core core).lease
  let x := s.stream core k
  let waits := x.cm.phase == .waiting && x.cm.reached && x.cm.hdr.lease && s.waitsOk core k .cm
  let l1 := { l with holder := some k, start := s.dclk.toNat, asks := l.asks.filter (· != k), posted := l.posted.filter (· != k), last := k,
                     release := false }
  if x.inLease then { l1 with count := x.cm.hdr.mcnt, unused := false, idleSince := none, holdSince := none }
  else { l1 with count := 0, unused := true, idleSince := some s.dclk.toNat, holdSince := if waits then none else some s.dclk.toNat }

/-- The free lease granted to the requesting stream of most priority tokens; the sign store regenerates for another seed (R101). -/
def State.leaseGrant (s : State) (core : Nat) : State :=
  let c := s.core core
  match c.lease.holder, s.bestSlot core c.lease.last c.lease.wants with
  | none, some k =>
    let x := s.stream core k
    let regen := if x.seed = c.signSeed then c.signRegen else some s.dclk.toNat
    s.setCore core { c with lease := s.grantTo core k, signSeed := x.seed, signRegen := regen }
  | _, _ => s

/-- The wait of a block whose conditions are no longer met begins anew: its leave request is withdrawn, a granted leave returned (R317). -/
def Seqr.unasked (y : Seqr) : Seqr := { y with since := none, escape := false, leaveAsked := none, leaveAged := false, leaveHeld := none }

/-- A stream that loses the lease: condition 5 turns false for a LEASE block that waits (R317). -/
def Stream.loseLease (x : Stream) : Stream :=
  if x.cm.phase == .waiting && x.cm.hdr.lease then { x with cm := x.cm.unasked } else x

/-- The term ends and the lease is granted afresh. -/
def State.leaseEnd (s : State) (core : Nat) : State :=
  let c := s.core core
  let strs := match c.lease.holder with
    | some k => c.streams.map fun e => if e.1 = k then (e.1, e.2.loseLease) else e
    | none => c.streams
  (s.setCore core { c with
    streams := strs, lease := { c.lease with holder := none, unused := false, idleSince := none, holdSince := none, release := false } }).leaseGrant core

/-- A request for the lease, `posted` by MLEASE or asked by a LEASE block; a free lease is granted at once. -/
def State.leaseWant (s : State) (core slot : Nat) (posted : Bool) : State :=
  let c := s.core core
  let l := c.lease
  let add := fun (k : List Nat) => if k.contains slot then k else k ++ [slot]
  if l.holder = some slot then s
  else
    let s1 := s.setCore core { c with lease := if posted then { l with posted := add l.posted } else { l with asks := add l.asks } }
    if l.holder.isSome then (if l.wants.contains slot then s1 else s1.countShared (s.stream core slot).mx 0x103 1) else s1.leaseGrant core

/-- The request of a LEASE block. -/
def State.leaseAsk (s : State) (core slot : Nat) : State := s.leaseWant core slot false

/-- The holder runs a LEASE block; one that a held fault has suspended does not run (R381). -/
def State.leaseInUse (s : State) (core : Nat) : Bool :=
  match (s.core core).lease.holder with
  | some k => (s.stream core k).cm.phase == .running && (s.stream core k).cm.hdr.lease && !(s.stream core k).cm.stopped
  | none => false

/-- The lease at the end of a block of its holder: the term ends when its count has reached 64, when the block held MREL, or when its
cycles are over (R40, R106). -/
def State.leaseAtEnd (s : State) (q : SeqId) : State :=
  let c := s.core q.core
  if q.sec == .cm && c.lease.holder == some q.slot then
    if leaseMax ≤ c.lease.count || c.lease.release || decide (c.lease.start + leaseCycles ≤ s.dclk.toNat) then s.leaseEnd q.core
    else s.setCore q.core { c with lease := { c.lease with idleSince := some s.dclk.toNat } }
  else s

/-- The lease of a stream whose LEASE block waits with condition 3 or 4 false: its block's request is withdrawn, and a lease granted and not used
yet is held from now on (R38). A request that MLEASE posted stands (R106). -/
def Lease.withdraw (l : Lease) (slot now : Nat) : Lease :=
  { l with asks := l.asks.filter (· != slot)
           holdSince := if l.holder = some slot ∧ l.unused ∧ l.holdSince = none then some now else l.holdSince }

/-- R38: a stream whose condition 3 or 4 has turned false withdraws the requests of its block; a granted leave is returned. -/
def State.withdrawSeq (s : State) (core slot : Nat) (c : Section) : State :=
  let q : SeqId := { core := core, slot := slot, sec := c }
  let y := s.seqr q
  if y.phase == .waiting && y.reached && !s.eventsOk core slot c then
    let s1 := s.setSeqr q y.unasked
    let k := s1.core core
    if c == .cm && y.hdr.lease then s1.setCore core { k with lease := k.lease.withdraw slot s.dclk.toNat } else s1
  else s

def State.withdraw (s : State) (core slot : Nat) : State :=
  (((s.withdrawSeq core slot .sc).withdrawSeq core slot .ld).withdrawSeq core slot .cm).withdrawSeq core slot .st

/-! Choice among streams (R43) -/

/-- The sequencer of the core runs a block instance of some stream. -/
def State.unitBusy (s : State) (core : Nat) (c : Section) : Bool :=
  (s.core core).streams.any fun e => (e.2.seqr c).phase == .running && !(e.2.seqr c).stopped

/-- The stream may be given a block at all: bound, not held, and no stop ordered that acts at block boundaries. -/
def State.mayAdmit (s : State) (x : Stream) (c : Section) : Bool :=
  match x.mx with
  | none => false
  | some m =>
    (s.mx m).st == .bound && ((s.mx m).ending == none || (s.mx m).ending == some .drain) && !x.held && !(x.seqr c).stopped
      && (x.seqr c).phase == .waiting && (x.seqr c).reached

/-- Condition 5. -/
def State.leaseOk (s : State) (core slot : Nat) (h : Header) : Bool :=
  !h.lease ||
    (let l := (s.core core).lease
     l.holder == some slot && decide (l.count + h.mcnt ≤ leaseMax) && decide (s.dclk.toNat < l.start + leaseCycles))

/-- All six conditions. -/
def State.admissible (s : State) (core slot : Nat) (c : Section) : Bool :=
  let x := s.stream core slot
  let y := x.seqr c
  s.mayAdmit x c && s.waitsOk core slot c && s.leaseOk core slot y.hdr && (y.hdr.leave == 0 || y.leaveHeld == some y.hdr.leave)

/-- Another stream's next SC block is admissible. -/
def State.otherAdmissible (s : State) (core slot : Nat) : Bool := (List.range 8).any fun k => k != slot && s.admissible core k .sc

/-- R230: a stream that yielded is passed over until another stream has been admitted, or 64 cycles have passed without one that
could be. -/
def State.yieldOk (s : State) (core slot : Nat) (c : Section) : Bool :=
  match ((s.stream core slot).seqr c).yielded with
  | none => true
  | some t => decide (t + 64 ≤ s.dclk.toNat)

/-- The 64 cycles of a stream that yielded begin anew while another stream's SC block is admissible; once they have passed, it is passed over no
more (R230). -/
def State.restartYields (s : State) : State :=
  (s.cores.flatMap fun c => (c.2.streams.filter fun k => k.2.sc.yielded.isSome).map fun k => (c.1, k.1)).foldl
    (fun t e =>
      let x := t.stream e.1 e.2
      let set := fun (v : Option Nat) => t.setStream e.1 e.2 { x with sc := { x.sc with yielded := v } }
      if t.otherAdmissible e.1 e.2 then set (some t.dclk.toNat)
      else if t.yieldOk e.1 e.2 .sc then set none
      else t) s

/-- Slots of a core whose next block instance is admissible and may be picked. -/
def State.candidates (s : State) (core : Nat) (c : Section) : List Nat :=
  (List.range 8).filter fun k => s.admissible core k c && s.yieldOk core k c

/-- The slot the sequencer picks: escaped streams first, the longest-waiting one of them, then by priority tokens and round robin. -/
def State.pick (s : State) (core : Nat) (c : Section) : Option Nat :=
  let l := s.candidates core c
  let esc := l.filter fun k => ((s.stream core k).seqr c).escape
  match esc with
  | [] => s.bestSlot core (AMap.get 7 (s.core core).rr c.code) l
  | k :: r =>
    some (r.foldl (fun b j => if ((s.stream core j).seqr c).since.getD 0 < ((s.stream core b).seqr c).since.getD 0 then j else b) k)

/-! Admission -/

/-- Tokens reserved by an admitted block (R37). -/
def Stream.reserve (x : Stream) (c : Section) (h : Header) : Stream :=
  let pop := fun (x : Stream) k n => x.setTok k { x.tok k with pr := (x.tok k).pr + n }
  let push := fun (x : Stream) k n => x.setTok k { x.tok k with ur := (x.tok k).ur + n }
  push (push (pop (pop x (popQueues c).1 h.popp) (popQueues c).2 h.popn) (pushQueues c).1 h.pushp) (pushQueues c).2 h.pushn

/-- The yields of other streams of the core's SC sequencer are over (R230). -/
def State.clearYields (s : State) (core slot : Nat) : State :=
  let c := s.core core
  s.setCore core { c with streams := c.streams.map fun e =>
    if e.1 = slot then e else (e.1, { e.2 with sc := { e.2.sc with yielded := none } }) }

/-- The block instance is admitted: reservations made, the lease term charged, the first word next. DESIGN CHOICE (log 57): the admission that ends
the hold of a granted lease (R38) is the stream's next one of CM, of a LEASE block or another, and the lease then stays with the stream. -/
def State.beginBlock (s : State) (q : SeqId) : State :=
  let x := s.strm q
  let y := x.seqr q.sec
  let h := y.hdr
  let y' := { y with phase := .running, pc := y.hdrPc + BitVec.ofNat 64 q.sec.wordBytes, left := h.len, popP := h.popp, popN := h.popn,
                     pushP := h.pushp, pushN := h.pushn, since := none, escape := false, yielded := none, leaveAsked := none,
                     leaveAged := false }
  let s1 := s.setStrm q ((x.reserve q.sec h).setSeqr q.sec y')
  let c := s1.core q.core
  let used := { c.lease with unused := false, idleSince := none, holdSince := none }
  let l := if h.lease then { used with count := c.lease.count + h.mcnt }
    else if q.sec == .cm && c.lease.holder == some q.slot then used else c.lease
  let s2 := s1.setCore q.core { c with lease := l, rr := c.rr.put q.sec.code q.slot }
  let s3 := if q.sec == .sc then s2.clearYields q.core q.slot else s2
  let m := x.mx.getD 0
  s3.setMx m { (s3.mx m).count 1 1 with lastAdmit := s.dclk.toNat }

/-- The fault of a pending tag error (R241, R275). -/
def PendErr.info (e : PendErr) : FaultInfo :=
  { code := e.code, reason := e.reason, opnd := e.opnd, stglv := e.stglv, c0 := e.coord0, c1 := e.coord1, space := e.space,
    addr := e.addr, baddr := e.baddr }

/-- The first tag of a list with a pending error. -/
def Stream.pendingOf (x : Stream) (l : List Nat) : Option (Nat × PendErr) :=
  l.findSome? fun t => (x.tagerr.find t).map fun e => (t, e)

def Stream.clearErr (x : Stream) (t : Nat) : Stream := { x with tagerr := x.tagerr.erase t }

/-! The end of a tile-task (R32, R33) -/

/-- The first token queue that does not stand at zero. -/
def Stream.imbalance (x : Stream) : Option Nat := (List.range 8).find? fun k => (x.tok k).c != 0

/-- Every MPEER of a stream has been performed (R103). -/
def State.peersDone (s : State) (r : StreamRef) : Bool := s.peers.all fun p => p.ref != r

/-- The launch is complete when every stream has finished. -/
def State.launchDone (s : State) (m : Nat) : Bool := (s.teamSlots m).all fun e => (s.stream e.1 e.2).finished

/-- The tile-task of a stream ends when its four sequencers have completed their TEND blocks: pending tag errors are raised first
(R241), then the token check (R32); then comes the next grid position, or the end of the stream. -/
def State.taskEnd (s : State) (core slot : Nat) : State :=
  let x := s.stream core slot
  let all := x.sc.phase == .ended && x.ld.phase == .ended && x.cm.phase == .ended && x.st.phase == .ended
  if !all || x.finished || x.held || x.atBoundary || x.pushes != [] || !s.peersDone x.ref then s
  else
    let m := x.mx.getD 0
    match x.pendingOf (List.range 64) with
    | some (t, e) => (s.setStream core slot (x.clearErr t)).raiseAt core slot none 0 e.info
    | none =>
      match x.imbalance with
      | some k => s.raiseAt core slot none 0 { code := 0x0E, opnd := k, c0 := (x.tok k).c }
      | none =>
        let g := s.gridOf x
        if x.halted || gridTotal g ≤ x.task then
          let s1 := s.setStream core slot { x with finished := true }
          if s1.launchDone m then s1.launchComplete m else s1
        else
          let x1 := { x with task := x.task + 1 }.setGpos (gridPos g x.task)
          if (s.mx m).ending == some .drain then s.setStream core slot { x1 with atBoundary := true }
          else (s.setStream core slot x1).startTask core slot

/-! The end of a block instance (R39) -/

/-- Remaining reservations settled: pops are consumed, pushes are produced once the block's effects have been performed. The leave is
returned, and the lease term looked at. -/
def State.settleBlock (s : State) (q : SeqId) : State :=
  let x := s.strm q
  let y := x.seqr q.sec
  let x1 := (x.consume (popQueues q.sec).1 y.popP).consume (popQueues q.sec).2 y.popN
  let y1 := { y with popP := 0, popN := 0, pushP := 0, pushN := 0, left := 0, leaveHeld := none, reps := y.reps - 1 }
  let s1 := s.setStrm q (x1.setSeqr q.sec { y1 with phase := .waiting })
  let s2 := (s1.push q (pushQueues q.sec).1 y.pushP true).push q (pushQueues q.sec).2 y.pushN true
  let m := x.mx.getD 0
  (s2.setMx m { s2.mx m with lastAdmit := s.dclk.toNat }).leaseAtEnd q

/-- The block instance of a sequencer ends, and `target` is where it goes on when the block has run for the last time. -/
def State.endInstance (s : State) (q : SeqId) (target : Word) : State :=
  let y := s.seqr q
  let s1 := s.settleBlock q
  if 1 < y.reps then s1.setSeqr q { s1.seqr q with pc := y.hdrPc, since := none }
  else if y.hdr.tend then (s1.setSeqr q { s1.seqr q with phase := .ended }).taskEnd q.core q.slot
  else s1.reach q target

/-- The block instance ends at a word whose resume point is the header that follows in fall-through order (R229). -/
def State.endToNext (s : State) (q : SeqId) : State :=
  let y := s.seqr q
  let va := y.hdrPc + BitVec.ofNat 64 ((y.hdr.len + 1) * q.sec.wordBytes)
  let s1 := s.settleBlock q
  s1.setSeqr q { s1.seqr q with pc := va, hdrPc := va, reached := false, lcAt := some (s1.strm q).lc, reps := 0 }

end Sys2Proof.Machine
end

