-- ==== Sys2Proof/Machine/Scalar.lean ====
section
/-! DEFINITION. SC integer, predicate and move words (R205 to R208). Results are exact and delivered modulo 2^64; none of these words
sets a flag or raises a fault. -/

namespace Sys2Proof.Machine

/-- The outcome of a device or an agent step. -/
abbrev Out := Host.Outcome State Fault Refusal

/-- A word that writes g[D] and is done. -/
def State.wr (s : State) (d : BitVec 5) (v : Word) : Out := .next (s.setG d v).done

/-- A word that writes p[D] and is done. -/
def State.wrP (s : State) (d : BitVec 3) (v : Bool) : Out := .next (s.setP d v).done

/-! Values -/

/-- Bits 127:64 of the product (Table 9.2, MULH): 0 signed, 1 unsigned, 2 signed by unsigned. -/
def mulHigh (sg : BitVec 2) (a b : Word) : Word :=
  if sg = 1 then BitVec.ofNat 64 (a.toNat * b.toNat / 2 ^ 64)
  else if sg = 2 then wordOfInt ((a.toInt * (b.toNat : Int)) / 2 ^ 64)
  else wordOfInt ((a.toInt * b.toInt) / 2 ^ 64)

/-- Quotient rounded toward zero; all ones for a zero divisor. -/
def divWord (u : Bool) (a b : Word) : Word :=
  if b = 0 then BitVec.allOnes 64
  else if u then BitVec.ofNat 64 (a.toNat / b.toNat) else wordOfInt (a.toInt.tdiv b.toInt)

/-- Remainder with the sign of the dividend; the dividend for a zero divisor. -/
def remWord (u : Bool) (a b : Word) : Word :=
  if b = 0 then a
  else if u then BitVec.ofNat 64 (a.toNat % b.toNat) else wordOfInt (a.toInt.tmod b.toInt)

/-- Shifts by any amount: 0, or 64 copies of the sign, from 64 up. -/
def shlWord (a : Word) (n : Nat) : Word := if 64 ≤ n then 0 else a <<< n
def shrWord (a : Word) (n : Nat) : Word := if 64 ≤ n then 0 else a >>> n
def sarWord (a : Word) (n : Nat) : Word := a.sshiftRight (min n 64)
def rolWord (a : Word) (n : Nat) : Word := a.rotateLeft (n % 64)

/-- Funnel shifts of a·2^64 + b by an amount below 64. -/
def fshlWord (a b : Word) (n : Nat) : Word := BitVec.ofNat 64 ((a.toNat * 2 ^ 64 + b.toNat) / 2 ^ (64 - n))
def fshrWord (a b : Word) (n : Nat) : Word := BitVec.ofNat 64 ((a.toNat * 2 ^ 64 + b.toNat) / 2 ^ n)

/-- Leading zeros of a number below 2^w. -/
def clzNat (w x : Nat) : Nat := if x = 0 then w else w - 1 - Nat.log2 x
/-- Trailing zeros of a number below 2^w. -/
def ctzNat (w x : Nat) : Nat := ((List.range w).find? fun k => bit x k).getD w
/-- Ones among the low w bits. -/
def popcNat (w x : Nat) : Nat := (List.range w).foldl (fun n k => n + (if bit x k then 1 else 0)) 0

/-- Sign and zero extension of the low n bits. -/
def sextWord (a : Word) (n : Nat) : Word := wordOfInt (sx n a.toNat)
def zextWord (a : Word) (n : Nat) : Word := BitVec.ofNat 64 (a.toNat % 2 ^ n)

/-- The conditions of R58: eq, ne, lt, ge, ltu, geu. -/
def condHolds (cc : BitVec 4) (a b : Word) : Bool :=
  match cc.toNat with
  | 0 => a == b
  | 1 => a != b
  | 2 => a.slt b
  | 3 => !a.slt b
  | 4 => a.ult b
  | _ => !a.ult b

/-! Words -/

/-- ADD: a + b. -/
def execAdd (d a b : BitVec 5) (s : State) : Out := s.wr d (s.g a + s.g b)

/-- ADDI: a plus the sign-extended imm15 (R207). -/
def execAddi (d a : BitVec 5) (i : BitVec 15) (s : State) : Out := s.wr d (s.g a + i.signExtend 64)

/-- SUB: a − b. -/
def execSub (d a b : BitVec 5) (s : State) : Out := s.wr d (s.g a - s.g b)

/-- MUL: the low 64 bits of a × b. -/
def execMul (d a b : BitVec 5) (s : State) : Out := s.wr d (s.g a * s.g b)

/-- MULH: bits 127:64 of the exact product. -/
def execMulh (d a b : BitVec 5) (sg : BitVec 2) (s : State) : Out := s.wr d (mulHigh sg (s.g a) (s.g b))

/-- DIV: the quotient rounded toward zero; −2^63 ÷ −1 gives −2^63. -/
def execDiv (d a b : BitVec 5) (u : Bool) (s : State) : Out := s.wr d (divWord u (s.g a) (s.g b))

/-- REM: the remainder with the sign of a. -/
def execRem (d a b : BitVec 5) (u : Bool) (s : State) : Out := s.wr d (remWord u (s.g a) (s.g b))

/-- AND: bitwise. -/
def execAnd (d a b : BitVec 5) (s : State) : Out := s.wr d (s.g a &&& s.g b)

/-- OR: bitwise. -/
def execOr (d a b : BitVec 5) (s : State) : Out := s.wr d (s.g a ||| s.g b)

/-- XOR: bitwise. -/
def execXor (d a b : BitVec 5) (s : State) : Out := s.wr d (s.g a ^^^ s.g b)

/-- ANDN: a AND NOT b. -/
def execAndn (d a b : BitVec 5) (s : State) : Out := s.wr d (s.g a &&& ~~~(s.g b))

/-- SHL: left shift filling with zeros, by g[S2]. -/
def execShl (d a b : BitVec 5) (s : State) : Out := s.wr d (shlWord (s.g a) (s.g b).toNat)

/-- SHL: left shift filling with zeros, by the immediate. -/
def execShlImm (d a : BitVec 5) (sh : BitVec 6) (s : State) : Out := s.wr d (shlWord (s.g a) sh.toNat)

/-- SHR: right shift filling with zeros, by g[S2]. -/
def execShr (d a b : BitVec 5) (s : State) : Out := s.wr d (shrWord (s.g a) (s.g b).toNat)

/-- SHR: right shift filling with zeros, by the immediate. -/
def execShrImm (d a : BitVec 5) (sh : BitVec 6) (s : State) : Out := s.wr d (shrWord (s.g a) sh.toNat)

/-- SAR: right shift filling with the sign, by g[S2]. -/
def execSar (d a b : BitVec 5) (s : State) : Out := s.wr d (sarWord (s.g a) (s.g b).toNat)

/-- SAR: right shift filling with the sign, by the immediate. -/
def execSarImm (d a : BitVec 5) (sh : BitVec 6) (s : State) : Out := s.wr d (sarWord (s.g a) sh.toNat)

/-- ROL: left rotation by the amount mod 64, by g[S2]. -/
def execRol (d a b : BitVec 5) (s : State) : Out := s.wr d (rolWord (s.g a) (s.g b).toNat)

/-- ROL: left rotation by the amount mod 64, by the immediate. -/
def execRolImm (d a : BitVec 5) (sh : BitVec 6) (s : State) : Out := s.wr d (rolWord (s.g a) sh.toNat)

/-- FSHL: bits 127−s to 64−s of a·2^64 + b, with s = g[c] mod 64. -/
def execFshl (d a b c : BitVec 5) (s : State) : Out := s.wr d (fshlWord (s.g a) (s.g b) ((s.g c).toNat % 64))

/-- FSHL: bits 127−s to 64−s of a·2^64 + b, with the immediate s. -/
def execFshlImm (d a b : BitVec 5) (sh : BitVec 6) (s : State) : Out := s.wr d (fshlWord (s.g a) (s.g b) sh.toNat)

/-- FSHR: bits 63+s to s of a·2^64 + b, with s = g[c] mod 64. -/
def execFshr (d a b c : BitVec 5) (s : State) : Out := s.wr d (fshrWord (s.g a) (s.g b) ((s.g c).toNat % 64))

/-- FSHR: bits 63+s to s of a·2^64 + b, with the immediate s. -/
def execFshrImm (d a b : BitVec 5) (sh : BitVec 6) (s : State) : Out := s.wr d (fshrWord (s.g a) (s.g b) sh.toNat)

/-- CLZ: leading zeros. -/
def execClz (d a : BitVec 5) (s : State) : Out := s.wr d (BitVec.ofNat 64 (clzNat 64 (s.g a).toNat))

/-- CTZ: trailing zeros, 64 for a = 0. -/
def execCtz (d a : BitVec 5) (s : State) : Out := s.wr d (BitVec.ofNat 64 (ctzNat 64 (s.g a).toNat))

/-- POPC: count of ones. -/
def execPopc (d a : BitVec 5) (s : State) : Out := s.wr d (BitVec.ofNat 64 (popcNat 64 (s.g a).toNat))

/-- MIN: the signed minimum. -/
def execMin (d a b : BitVec 5) (s : State) : Out := s.wr d (if (s.g b).slt (s.g a) then s.g b else s.g a)

/-- MAX: the signed maximum. -/
def execMax (d a b : BitVec 5) (s : State) : Out := s.wr d (if (s.g a).slt (s.g b) then s.g b else s.g a)

/-- MINU: the unsigned minimum. -/
def execMinu (d a b : BitVec 5) (s : State) : Out := s.wr d (if (s.g b).ult (s.g a) then s.g b else s.g a)

/-- MAXU: the unsigned maximum. -/
def execMaxu (d a b : BitVec 5) (s : State) : Out := s.wr d (if (s.g a).ult (s.g b) then s.g b else s.g a)

/-- SEXT: sign extension of bits n − 1 to 0, the field holding n − 1. -/
def execSext (d a : BitVec 5) (n : BitVec 6) (s : State) : Out := s.wr d (sextWord (s.g a) (n.toNat + 1))

/-- ZEXT: zero extension of bits n − 1 to 0, the field holding n − 1. -/
def execZext (d a : BitVec 5) (n : BitVec 6) (s : State) : Out := s.wr d (zextWord (s.g a) (n.toNat + 1))

/-- LUI: imm20 sign-extended and shifted left by 15 (R207). -/
def execLui (d : BitVec 5) (i : BitVec 20) (s : State) : Out := s.wr d (i.signExtend 64 <<< 15)

/-- MOV kind 0 (R208). -/
def execMov (d a : BitVec 5) (s : State) : Out := s.wr d (s.g a)

/-- MOV kind 1: a predicate into a register (R208). -/
def execMovFromPred (d : BitVec 5) (k : BitVec 3) (s : State) : Out := s.wr d (if s.p k then 1 else 0)

/-- MOV kind 2: a register into a predicate (R208). -/
def execMovToPred (p : BitVec 3) (a : BitVec 5) (s : State) : Out := s.wrP p (s.g a != 0)

/-- SEL: a when p[K] XOR the negation is 1, else b (R208). -/
def execSel (d a b : BitVec 5) (neg : Bool) (k : BitVec 3) (s : State) : Out := s.wr d (if xor (s.p k) neg then s.g a else s.g b)

/-- CMP: p[D] holds whether the condition holds (R58, R208). -/
def execCmp (p : BitVec 3) (a b : BitVec 5) (cc : BitVec 4) (s : State) : Out := s.wrP p (condHolds cc (s.g a) (s.g b))

/-- ADDX: a + (b << sh). -/
def execAddx (d a b : BitVec 5) (sh : BitVec 3) (s : State) : Out := s.wr d (s.g a + (s.g b <<< sh.toNat))

/-- MADD: a × b + c. -/
def execMadd (d a b c : BitVec 5) (s : State) : Out := s.wr d (s.g a * s.g b + s.g c)

end Sys2Proof.Machine
end

