-- ==== Sys2Proof/Machine/Control.lean ====
section
/-! DEFINITION. SC control transfer, SYNC, traps, yield, halt and hints (R57, R60, R209 to R211, R229, R230, R362, R369), with the block
boundaries of the housekeeping processor (R356, R358). -/

namespace Sys2Proof.Machine

/-- The housekeeping processor at a block boundary before the header at an address. -/
def State.hkGoto (s : State) (va : Word) : State := { s with hk := { s.hk with phase := .waiting, pc := va, left := 0 } }

/-- Transfer of the running agent to the header at an address (R60): the block instance ends. -/
def State.transferTo (s : State) (va : Word) : Out :=
  match s.cur with
  | .seq q => .next (s.endInstance q va)
  | .hk => .next (s.hkGoto va)

/-- Target of a B-form word: its address plus 4 × off21 (R55). -/
def State.branchTarget (s : State) (off : BitVec 21) : Word := s.pc + (off.signExtend 64 <<< 2)

/-- The header that follows the running transfer word, which is the last of its block. -/
def State.fallThrough (s : State) : Word := s.pc + BitVec.ofNat 64 s.here.sec.wordBytes

/-- A transfer to an address taken from state, checked against the bitmap of headers of its section (R60). -/
def State.checkedTransfer (s : State) (va : Word) (f : State → State) : Out :=
  if s.isHeader s.isHk s.here.core s.myMx s.here.sec va.toNat then (f s).transferTo va
  else .next (s.raise { code := 0x0F, addr := va.toNat })

/-- BR: always transfers. -/
def execBr (off : BitVec 21) (s : State) : Out := s.transferTo (s.branchTarget off)

/-- BRC: transfers when p[K] XOR NEG is 1, else falls through. -/
def execBrc (p : BitVec 3) (neg : Bool) (off : BitVec 21) (s : State) : Out :=
  s.transferTo (if xor (s.p p) neg then s.branchTarget off else s.fallThrough)

/-- CALL: g31 takes the address of the next header, then the transfer. -/
def execCall (off : BitVec 21) (s : State) : Out := (s.setG 31 s.fallThrough).transferTo (s.branchTarget off)

/-- RET: transfers to g[S1], which must be a block header. -/
def execRet (a : BitVec 5) (s : State) : Out := s.checkedTransfer (s.g a) id

/-- ERET: TEN := 1 and a checked transfer to EPC (R362). -/
def execEret (s : State) : Out :=
  if s.isHk then s.checkedTransfer s.hk.epc (fun t => { t with hk := { t.hk with ten := true } }) else .refused .wrongAgent

/-- LCk of the running stream written. -/
def State.setLc (s : State) (k : BitVec 2) (v : BitVec 32) : State := s.setMe { s.me with lc := s.me.lc.put k.toNat v }

/-- LOOP (R210). -/
def execLoop (k : BitVec 2) (off : BitVec 21) (s : State) : Out :=
  let n := s.me.lcReg k.toNat
  if n = 0 then s.transferTo s.fallThrough
  else (s.setLc k (n - 1)).transferTo (if n - 1 ≠ 0 then s.branchTarget off else s.fallThrough)

/-- SYNC (R211): tokens of the block's reservations consumed, and produced once the earlier accesses have been performed. -/
def execSync (a b c d : BitVec 2) (s : State) : Out :=
  let q := s.here
  let y := s.mySeq
  let na := min a.toNat y.popP
  let nb := min b.toNat y.popN
  let nc := min c.toNat y.pushP
  let nd := min d.toNat y.pushN
  let x := (s.me.consume 3 na).consume 4 nb
  let s1 := s.setMe (x.setSeqr q.sec { y with popP := y.popP - na, popN := y.popN - nb, pushP := y.pushP - nc, pushN := y.pushN - nd })
  .next (((s1.push q 7 nc false).push q 0 nd false).done)

/-- A trap of a stream: the block instance ends at the word, whose record is written; the stream goes on from the next header (R229). -/
def State.trapAt (s : State) (f : FaultInfo) : State :=
  match s.cur with
  | .seq q => (s.endToNext q).raiseAt q.core q.slot (some q.sec) s.pc f
  | .hk => s.raise f

/-- TRAP: the record carries the code and g[S1]. -/
def execTrap (a : BitVec 5) (i : BitVec 15) (s : State) : Out :=
  .next (s.trapAt { code := 0x0D, c0 := i.toNat, aux := (s.g a).toNat })

/-- TFENCE: an arithmetic trap when an armed flag is set, else nothing (R89). -/
def execTfence (s : State) : Out :=
  if s.isHk then .refused .wrongAgent
  else if s.me.armed = 0 then .next s.done
  else .next (s.trapAt { code := 0x0C, aux := s.me.armed.toNat })

/-- YIELD: the block instance ends, and the stream is passed over for a while (R230). -/
def execYield (s : State) : Out :=
  match s.cur with
  | .hk => .refused .wrongAgent
  | .seq q => .next ((s.setMySeq { s.mySeq with yielded := some s.dclk.toNat }).endInstance q s.fallThrough)

/-- HALT: the stream's SC counts as having completed its TEND block and the stream takes no further grid position; the housekeeping
processor waits for an event (R369). -/
def execHalt (s : State) : Out :=
  match s.cur with
  | .hk => .next ({ s with hk := { s.hk with halted := true } }.hkGoto s.fallThrough)
  | .seq q =>
    let s1 := s.settleBlock q
    let s2 := s1.setSeqr q { s1.seqr q with phase := .ended }
    .next ((s2.setStrm q { s2.strm q with halted := true }).taskEnd q.core q.slot)

/-- HINT.PF: influences timing only (R57). -/
def execHintPf (_a : BitVec 5) (_i : BitVec 15) (s : State) : Out := .next s.done
/-- HINT.BL: influences timing only (R57). -/
def execHintBl (_l : BitVec 3) (_off : BitVec 21) (s : State) : Out := .next s.done
/-- A word of the hint region: no operation (R57). -/
def execHint0 (_v : BitVec 25) (s : State) : Out := .next s.done
/-- A word of the hint region: no operation (R57). -/
def execHint1 (_v : BitVec 25) (s : State) : Out := .next s.done
/-- A word of the hint region: no operation (R57). -/
def execHint2 (_v : BitVec 25) (s : State) : Out := .next s.done
/-- A word of the hint region: no operation (R57). -/
def execHint3 (_v : BitVec 25) (s : State) : Out := .next s.done
/-- A word of the hint region: no operation (R57). -/
def execHint4 (_v : BitVec 25) (s : State) : Out := .next s.done
/-- A word of the hint region: no operation (R57). -/
def execHint5 (_v : BitVec 25) (s : State) : Out := .next s.done

/-- NOP of LD, ST and CM: its sync marks act, and nothing else (R59). -/
def execNop (_cm : Bool) (y : Sync) (s : State) : Out := .next (s.doneY y)

/-! The housekeeping processor's block boundaries -/

/-- The housekeeping processor enters the block whose header stands at its program counter. -/
def State.hkEnter (s : State) : State :=
  match s.headerAt true 0 0 .sc s.hk.pc.toNat with
  | .header h =>
    { s with hk := { s.hk with phase := .running, hdrPc := s.hk.pc, pc := s.hk.pc + 4, left := h.len, halted := false } }
  | .wait => s
  | .fault e => { s with cur := .hk }.raise (e.info 0 0 0 spG s.hk.pc.toNat)
  | .none => { s with cur := .hk }.raise { code := 0x0F, addr := s.hk.pc.toNat }

/-- HK_EVENT_DELIVERY (R358), at a block boundary only: with TEN = 1 and an event queued, the oldest event is delivered and the sequencer
continues at TVEC; otherwise it goes on with the header that comes next. -/
def execHkEventDelivery (s : State) : Out :=
  if s.hk.phase = .ended ∨ s.hk.phase = .unbound ∨ (s.hk.phase = .running ∧ s.hk.left ≠ 0) then .next s
  else
    match s.events with
    | e :: r =>
      if s.hk.ten then
        .next { s with
          events := r
          hk := { s.hk with epc := s.hk.pc, ecauseMx := BitVec.ofNat 14 e.mx, ecauseCode := BitVec.ofNat 16 e.code,
                            erec := BitVec.ofNat 64 (recordBase + 64 * (e.n % 1024)), ten := false, pc := s.hk.tvec,
                            phase := .waiting, left := 0, halted := false } }
      else .next s.hkEnter
    | [] => if s.hk.halted then .next s else .next s.hkEnter

end Sys2Proof.Machine
end

