-- ==== Sys2Proof/Machine/ScalarMem.lean ====
section
/-! DEFINITION. SC memory words at issue (R212 to R224): addresses and their faults, loads, stores, atomics, fences, phase barriers and
tag queries. Accesses to G and IO are posted as requests and performed by the steps of Machine/Home.lean; accesses to the
scratchpad through the SP alias are performed at once (log 4). -/

namespace Sys2Proof.Machine

/-- Where a scalar access goes. -/
inductive Place where
  | sp (o : Nat)
  | at' (x : Xl)

/-- The space of a virtual address of a micro-context. -/
def State.spaceAt (s : State) (core : Option Nat) (m va : Nat) : Nat :=
  match s.translation core m va with
  | .ok e => if isIo (e.paOf va) then spIO else spG
  | .error _ => spG

/-- The space of an address in a fault record of the running agent. -/
def State.spaceOf (s : State) (va : Nat) : Nat :=
  if s.isHk then (if isIo va then spIO else spG) else s.spaceAt (some s.here.core) s.myMx va

/-- The place of an access of `n` bytes at `ea`, or the first fault of R214 that applies: window, alignment, translation or permission.
`io` tells whether the access may reach an IO page; an IO access has 8 bytes (R173). -/
def State.scalarPlace (s : State) (ea n : Nat) (need : Need) (io : Bool) : Except FaultInfo Place :=
  match (if s.isHk then none else spAlias ea) with
  | some o =>
    match s.me.windowFail o n with
    | some w => .error { code := 1, space := spSP, addr := w }
    | none => if ea % n ≠ 0 then .error { code := 2, space := spSP, addr := o } else .ok (.sp o)
  | none =>
    if ea % n ≠ 0 then .error { code := 2, space := s.spaceOf ea, addr := ea }
    else
      let io8 := io && n == 8
      match (if s.isHk then s.accessPhys ea need else s.access (some s.here.core) s.myMx ea need io8) with
      | .error e => .error (e.info 0 0 0 (s.spaceOf ea) ea)
      | .ok x => if isIo x.pa && !io8 then .error (xlPerm.info 0 0 0 spIO ea) else .ok (.at' x)

/-- All classes. -/
def allClasses : BitVec 16 := 0xFFFF

/-- The class mask of an acquire or release with mask register `b`. -/
def State.classMask (s : State) (ord : Bool) (b : BitVec 5) : BitVec 16 :=
  if !ord then 0 else if b = 0 then allClasses else (s.g b).setWidth 16

/-- A request of the running word at a place. -/
def State.request (s : State) (op : ReqOp) (va : Nat) (x : Option Xl) (cs : Cs) (acq rel : BitVec 16) (dest : Option (BitVec 5))
    (bw : Option (BitVec 2)) : Req :=
  { id := s.nextId, ref := if s.isHk then none else some s.myRef, mx := s.myMx, op := op, va := va, pa := (x.map (·.pa)).getD 0,
    ipa := (x.map (·.ipa)).getD 0, enc := (x.bind (·.enc)).isSome, page := x.map (·.page), io := (x.map fun y => isIo y.pa).getD false, cls := cs.cls,
    scope := cs.scope, acq := acq, rel := rel, win := s.me.banks, dest := dest, bw := bw, performed := false, result := 0, err := none,
    unit := none, merged := [], into := none, fwd := false }

/-- A request posted. -/
def State.post (s : State) (r : Req) : State := { s with reqs := s.reqs ++ [r], nextId := s.nextId + 1 }

/-- A load or atomic of the scratchpad met an uncorrectable block: the error waits for the first consumer of its value (R214). -/
def State.postBad (s : State) (r : Req) (o b : Nat) : State :=
  let e : PendErr :=
    { code := 6, reason := 0, opnd := 0, stglv := 0, coord0 := 0, coord1 := 0, space := spSP, addr := o, baddr := some b }
  s.post { r with performed := true, err := some e }

/-- The bytes of an access size code. -/
def accessBytes (sz : BitVec 2) : Nat := 2 ^ sz.toNat

/-- SLD (R213, R214). -/
def execSld (d a b : BitVec 5) (cs : Cs) (sz : BitVec 2) (ord : Bool) (s : State) : Out :=
  let n := accessBytes sz
  let ea := (if ord then s.g a else s.g a + s.g b).toNat
  match s.scalarPlace ea n .read true with
  | .error f => .next (s.raise f)
  | .ok (.sp o) =>
    match s.spBadIn s.here.core s.here.slot o n with
    | some b => .next (s.postBad (s.request (.load n) ea none cs 0 0 (some d) none) o b).done
    | none => .next (s.setG d (BitVec.ofNat 64 (leNat (s.mySp o n)))).done
  | .ok (.at' x) => .next (s.post (s.request (.load n) ea (some x) cs (s.classMask ord b) 0 (some d) none)).done

/-- SST (R213, R214). -/
def execSst (d a b : BitVec 5) (cs : Cs) (sz : BitVec 2) (ord : Bool) (s : State) : Out :=
  let n := accessBytes sz
  let ea := (if ord then s.g a else s.g a + s.g b).toNat
  match s.scalarPlace ea n .write true with
  | .error f => .next (s.raise f)
  | .ok (.sp o) => .next (s.setMySp o (leBytes n (s.g d).toNat)).done
  | .ok (.at' x) => .next (s.post (s.request (.store n (s.g d)) ea (some x) cs 0 (s.classMask ord b) none none)).done

/-! Atomics (R215 to R217) -/

/-- The new value at a location of `n` bytes, with the flags of an FP32 addition (R216). -/
def atomicNew (op : BitVec 4) (n : Nat) (old x y : Nat) : Nat × Flags :=
  let w := 8 * n
  let m := 2 ^ w
  match op.toNat with
  | 0 => ((old + x) % m, {})
  | 1 => (old &&& x, {})
  | 2 => (old ||| x, {})
  | 3 => (old ^^^ x, {})
  | 4 => (if sx w x < sx w old then x else old, {})
  | 5 => (if sx w old < sx w x then x else old, {})
  | 6 => (Nat.min old x, {})
  | 7 => (Nat.max old x, {})
  | 8 =>
    let r := (fFP32.dec old).add false (fFP32.dec x)
    let e := fFP32.enc Rnd.rne r.1
    (e.1, r.2.or e.2)
  | 9 => (x, {})
  | _ => (if old = x then y else old, {})

/-- The operands of an atomic word: g[D] and, for CAS, g[D + 1], cut to the size. -/
def State.atomicOps (s : State) (d : BitVec 5) (n : Nat) : Nat × Nat :=
  ((s.g d).toNat % 2 ^ (8 * n), (s.g (d + 1)).toNat % 2 ^ (8 * n))

/-- AMO and RED at issue: an SP-alias location is updated at its bank; a G request is posted. DESIGN CHOICE (log 69):
a RED to a block whose data is uncorrectable changes nothing, reports nothing and sets no flag; R214 names that error for a value that is consumed. -/
def State.atomic (s : State) (d a : BitVec 5) (sz8 : Bool) (op : BitVec 4) (cs : Cs) (ord : BitVec 2) (ret : Bool) : State :=
  let n := if sz8 then 8 else 4
  let ea := (s.g a).toNat
  let (x, y) := s.atomicOps d n
  match s.scalarPlace ea n .write false with
  | .error f => s.raise f
  | .ok (.sp o) =>
    match s.spBadIn s.here.core s.here.slot o n with
    | some b =>
      (if ret then s.postBad (s.request (.atomic op n 0 0 ret) ea none cs 0 0 (some d) none) o b else s).done
    | none =>
      let old := leNat (s.mySp o n)
      let (new, fl) := atomicNew op n old x y
      let s1 := (s.setMySp o (leBytes n new)).orFlags fl
      (if ret then s1.setG d (BitVec.ofNat 64 old) else s1).done
  | .ok (.at' p) =>
    let acq := if ord.getLsbD 0 then allClasses else 0
    let rel := if ord.getLsbD 1 then allClasses else 0
    (s.post (s.request (.atomic op n (BitVec.ofNat 64 x) (BitVec.ofNat 64 y) ret) ea (some p) cs acq rel
      (if ret then some d else none) none)).done

/-- AMO: the old value is delivered to g[D]. -/
def execAmo (d a : BitVec 5) (sz8 : Bool) (op : BitVec 4) (cs : Cs) (ord : BitVec 2) (s : State) : Out :=
  .next (s.atomic d a sz8 op cs ord true)

/-- RED: the same update without a result. -/
def execRed (d a : BitVec 5) (sz8 : Bool) (op : BitVec 4) (cs : Cs) (ord : BitVec 2) (s : State) : Out :=
  .next (s.atomic d a sz8 op cs ord false)

/-- FENCE (R184, R218): an empty mask has no effect. -/
def execFence (scope : BitVec 3) (mask : BitVec 16) (s : State) : Out :=
  if mask = 0 then .next s.done
  else .next (s.post (s.request (.fence mask) 0 none { cls := 0, scope := scope } 0 0 none none)).done

/-! Phase barriers (R219 to R223) -/

/-- A barrier operation of the running word posted; the watch register that it is to write is owed the write from now on (R221). -/
def State.postBarrier (s : State) (r : Req) : State :=
  let t := s.post r
  match r.bw with
  | some k => t.setMe { t.me with bwOwed := k.toNat :: t.me.bwOwed.filter (· != k.toNat) }
  | none => t

/-- A barrier operation posted to the bank or home of its object. -/
def State.barrierOp (s : State) (a : BitVec 5) (op : ReqOp) (need : Need) (cs : Cs) (acq rel : BitVec 16) (dest : Option (BitVec 5))
    (bw : Option (BitVec 2)) : State :=
  let ea := (s.g a).toNat
  match s.scalarPlace ea 16 need false with
  | .error f => s.raise f
  | .ok (.sp _) => (s.postBarrier (s.request op ea none cs acq rel dest bw)).done
  | .ok (.at' x) => (s.postBarrier (s.request op ea (some x) cs acq rel dest bw)).done

/-- PB.INIT: EXPA = g[S2], EXPB = g[D]. -/
def execPbInit (d a b : BitVec 5) (cs : Cs) (s : State) : Out :=
  let n := (s.g b).toNat
  let e := (s.g d).toNat
  .next (s.barrierOp a (.pbInit n e (decide (n = 0 ∨ 65535 < n ∨ 2 ^ 31 ≤ e))) .write cs 0 0 none none)

/-- PB.ARRIVE: an arrival of g[S2], a release of all classes. -/
def execPbArrive (d a b : BitVec 5) (cs : Cs) (we : Bool) (k : BitVec 2) (s : State) : Out :=
  let n := (s.g b).toNat
  .next (s.barrierOp a (.pbArrive n (decide (65535 < n))) .write cs 0 allClasses (some d) (if we then some k else none))

/-- PB.EXPECT: an expect of g[S2] bytes. -/
def execPbExpect (a b : BitVec 5) (cs : Cs) (s : State) : Out :=
  let n := (s.g b).toNat
  .next (s.barrierOp a (.pbExpect n (decide (2 ^ 31 ≤ n))) .write cs 0 0 none none)

/-- PB.TEST: an acquire of all classes. -/
def execPbTest (d a : BitVec 5) (cs : Cs) (s : State) : Out :=
  .next (s.barrierOp a .pbTest .read cs allClasses 0 (some d) none)

/-! Tag queries (R224) -/

/-- A tag query of mask `m`: its read r of TAGRDY consumes the tags it returned as set, so a pending error of one of them is raised here
(R190, R241); else `f` writes the result. -/
def State.tagQuery (s : State) (m : Word) (f : Word → State → State) : State :=
  let r := s.me.tagrdy &&& m
  match s.me.pendingOf ((List.range 64).filter fun t => r.getLsbD t) with
  | some (t, e) => (s.setMe (s.me.clearErr t)).raise e.info
  | none => (f r s).done

/-- WANY with a tag-mask register. -/
def execWanyTm (p k : BitVec 3) (s : State) : Out := .next (s.tagQuery (s.me.tmReg k.toNat) fun r t => t.setP p (r != 0))
/-- WANY with a general register. -/
def execWanyReg (p : BitVec 3) (a : BitVec 5) (s : State) : Out := .next (s.tagQuery (s.g a) fun r t => t.setP p (r != 0))
/-- WALL with a tag-mask register. -/
def execWallTm (p k : BitVec 3) (s : State) : Out :=
  .next (s.tagQuery (s.me.tmReg k.toNat) fun r t => t.setP p (r == s.me.tmReg k.toNat))
/-- WALL with a general register. -/
def execWallReg (p : BitVec 3) (a : BitVec 5) (s : State) : Out := .next (s.tagQuery (s.g a) fun r t => t.setP p (r == s.g a))

/-- The index of the lowest set bit, or 64. -/
def lowestSet (r : Word) : Word := BitVec.ofNat 64 (((List.range 64).find? fun t => r.getLsbD t).getD 64)

/-- FFRDY with a tag-mask register. -/
def execFfrdyTm (d : BitVec 5) (k : BitVec 3) (s : State) : Out := .next (s.tagQuery (s.me.tmReg k.toNat) fun r t => t.setG d (lowestSet r))
/-- FFRDY with a general register. -/
def execFfrdyReg (d a : BitVec 5) (s : State) : Out := .next (s.tagQuery (s.g a) fun r t => t.setG d (lowestSet r))

end Sys2Proof.Machine
end

