-- ==== Sys2Proof/Machine/Units.lean ====
section
/-! DEFINITION. Units of copies: their place, the banks and sills they meet, and when a unit may be performed (R17, R156 to R159, R187,
R239 to R249, R346, R353). -/

namespace Sys2Proof.Machine

/-! Geometry -/

/-- Scratchpad offsets are taken modulo 2^22 (R244). -/
def spMod : Nat := 2 ^ 22

/-- Blocks of a pane (R95). -/
def paneBlocks : Nat := 131072

/-- The address of a row in G: by its number, or by its index. -/
def Copy.rowG (c : Copy) (r : Nat) : Nat :=
  (c.gbase + (match c.kind with
    | .gather => c.idx.getD r 0
    | .scatter => c.idx.getD r 0
    | _ => r) * c.gpitch) % 2 ^ 64

/-- The scratchpad offset of a row. -/
def Copy.rowS (c : Copy) (r : Nat) : Nat := (c.sbase + r * c.spitch) % spMod

/-- Where a unit of a copy comes from. -/
inductive UnitSrc where
  | sp (o : Nat)
  | g (va : Nat)
  | pane (core blk : Nat)
  | zero
  | data (l : List Byte)

/-- Where a unit of a copy goes. -/
inductive UnitDst where
  | sp (o : Nat)
  | g (va : Nat)
  | red (va : Nat) (op : BitVec 4)
  | pane (blk : Nat)
  deriving DecidableEq

/-- The row of a unit and its byte offset in the row. -/
def Copy.rowOf (c : Copy) (n : Nat) : Nat := n / (c.rowb / 64)
def Copy.colOf (c : Copy) (n : Nat) : Nat := 64 * (n % (c.rowb / 64))
def Copy.unitG (c : Copy) (n : Nat) : Nat := (c.rowG (c.rowOf n) + c.colOf n) % 2 ^ 64
def Copy.unitS (c : Copy) (n : Nat) : Nat := (c.rowS (c.rowOf n) + c.colOf n) % spMod
/-- The block of the destination pane, or of the source pane with `base`. -/
def Copy.unitW (c : Copy) (base n : Nat) : Nat := (base + c.rowOf n * (c.spitch / 64) + c.colOf n / 64) % paneBlocks

def Copy.src (c : Copy) (n : Nat) : UnitSrc :=
  match c.kind with
  | .tload => .g (c.unitG n)
  | .gather => .g (c.unitG n)
  | .cfill => .g (c.unitG n)
  | .tloadx => if c.rowOf n < c.vrows ∧ c.colOf n < c.vcols then .g (c.unitG n) else .zero
  | .cfillPeer => .pane c.peer (c.unitW c.gbase n)
  | .kvRes => .data (sliceBytes c.data (64 * n) 64)
  | .bt => if c.spSrc then .sp ((c.gbase + 64 * n) % spMod) else .g ((c.gbase + 64 * n) % 2 ^ 64)
  | _ => .sp (c.unitS n)

def Copy.dst (c : Copy) (n : Nat) : UnitDst :=
  match c.kind with
  | .tstore => .g (c.unitG n)
  | .scatter => .g (c.unitG n)
  | .redm op => .red (c.unitG n) op
  | .cfill => .pane (c.unitW c.sbase n)
  | .cfillPeer => .pane (c.unitW c.sbase n)
  | .bt => if c.spDst then .sp ((c.sbase + 64 * n) % spMod) else .g ((c.sbase + 64 * n) % 2 ^ 64)
  | _ => .sp (c.unitS n)

/-- The page of an address among those translated at issue. -/
def pageOf (l : List TlbEntry) (va : Nat) : Option TlbEntry := l.find? fun e => decide (e.va ≤ va ∧ va < e.va + e.size)

/-- Pages of the source and of the destination. -/
def Copy.srcPages (c : Copy) : List TlbEntry := c.pages
def Copy.dstPages (c : Copy) : List TlbEntry := if c.kind = .bt then c.dpages else c.pages

/-- The lowest unit not performed. -/
def Copy.lowest (c : Copy) : Nat := ((List.range c.units).find? fun n => !c.done.contains n).getD c.units

/-- The physical addresses a unit reads and writes outside the scratchpad and the casement. -/
def Copy.unitPas (c : Copy) (n : Nat) : List Nat :=
  let at' := fun (l : List TlbEntry) (va : Nat) => match pageOf l va with | some e => [e.paOf va] | none => []
  (match c.src n with | .g va => at' c.srcPages va | _ => [])
    ++ (match c.dst n with | .g va => at' c.dstPages va | .red va _ => at' c.dstPages va | _ => [])

/-! Banks (R156) -/

/-- The bank of a window offset still carries the owner tag the operation took with it: the bank's address there. -/
def State.ownedAt (s : State) (core : Nat) (gens : List BankUse) (o : Nat) : Option Nat :=
  match gens[o / 65536]? with
  | none => none
  | some u =>
    let t := AMap.get BankTag.reset (s.core core).tags u.bank
    if u.core == core && t.valid && t.gen.toNat == u.gen % 65536 then some (65536 * u.bank + o % 65536) else none

/-- The core a stream's banks lie on: that of its slot. -/
def State.refCore (s : State) (r : StreamRef) : Option Nat := (s.slotOf r).map (·.1)

/-- Bytes read from the scratchpad with an owner tag; none when the tag has changed. -/
def State.spOwned (s : State) (r : StreamRef) (gens : List BankUse) (o : Nat) : Nat → Option (List Byte)
  | 0 => some []
  | n + 1 =>
    match (s.refCore r).bind fun k => (s.ownedAt k gens o).map fun a => (s.core k).sp.read a with
    | none => none
    | some b => (s.spOwned r gens (o + 1) n).map fun l => b :: l

/-- Bytes of a stream's window have been read with an owner tag: their correctable errors are corrected and counted (R416). -/
def State.spMet (s : State) (r : StreamRef) (gens : List BankUse) (o n : Nat) : State :=
  if s.weak = [] then s
  else match s.refCore r with
    | none => s
    | some k => s.correctSp k (((List.range n).filterMap fun i => (s.ownedAt k gens (o + i)).map (· / 64)).eraseDups)

/-! Panes (R98) -/

/-- A physical pane is in its refresh window at a value of RT. -/
def inWindow (pane : Bool) (rt : Nat) : Bool :=
  let r := rt % 65536
  if pane then decide (32768 ≤ r ∧ r < 33280) else decide (r < 512)

/-! Order and sills -/

def Req.isFence (r : Req) : Bool := match r.op with | .fence _ => true | _ => false
/-- The classes a fence orders; none for any other request. -/
def Req.fenceMask (r : Req) : BitVec 16 := match r.op with | .fence m => m | _ => 0
def State.setCopy (s : State) (c : Copy) : State := { s with copies := s.copies.map fun x => if x.id = c.id then c else x }
def State.copy (s : State) (id : Nat) : Option Copy := s.copies.find? fun c => c.id == id
def State.dropCopy (s : State) (id : Nat) : State := { s with copies := s.copies.filter fun c => c.id != id }

/-- The sill a unit lands in, by its bank and sill number. -/
def Copy.sillOfUnit (c : Copy) (n : Nat) : Option Nat :=
  match c.dst n with
  | .sp o => (c.gens[o / 65536]?).map fun b => 16 * b.bank + o % 65536 / 4096
  | _ => none

/-- The source of an install holds a byte of a physical range. -/
def Install.reads (i : Install) (pa n : Nat) : Bool :=
  i.pages.any fun p =>
    let lo := max p.va i.src
    let hi := min (p.va + p.size) (i.src + i.lenu * extBytes)
    decide (lo < hi ∧ pa < p.paOf lo + (hi - lo) ∧ p.paOf lo < pa + n)

/-- Source reads of an install of a stream, not all performed yet, that touch a physical range; later reads of the stream there follow them, whatever
the classes (R178). -/
def State.sourceReads (s : State) (r : StreamRef) (id pa n : Nat) : Bool :=
  s.installs.any fun k => k.ref == r && !k.readDone && decide (k.id < id) && k.reads pa n

/-- Two installs read a common byte. -/
def Install.overlaps (i k : Install) : Bool :=
  i.pages.any fun p =>
    let lo := max p.va i.src
    let hi := min (p.va + p.size) (i.src + i.lenu * extBytes)
    decide (lo < hi) && k.reads (p.paOf lo) (hi - lo)

/-- The status bytes of a PKT.EMIT. -/
def Emit.statPa (e : Emit) : Nat := e.stat.paOf e.statVa

/-- A status write and the source reads of an install touch a common byte, so that the later one of a stream follows the earlier (R178). -/
def Install.meets (i : Install) (e : Emit) : Bool := e.ref == i.ref && i.reads e.statPa 8

/-- An access of ST with number `id` stands after the earlier source reads of INSTALL of its class: INSTALL is none of the copies of R187, so that
later accesses of its class follow its own (R179). -/
def State.installBefore (s : State) (r : StreamRef) (cls : BitVec 4) (id : Nat) : Bool :=
  s.installs.any fun k => k.ref == r && k.cls == cls && !k.readDone && decide (k.id < id)

/-- A copy of ST stands after the earlier status writes of PKT.EMIT, and source reads of INSTALL, of its class (R187, R255, R400). -/
def State.emitsBefore (s : State) (c : Copy) : Bool :=
  c.sec == .st && ((s.emits.any fun e => e.ref == c.ref && e.cls == c.cls && decide (e.id < c.id)) || s.installBefore c.ref c.cls c.id)

/-- A block transfer stands after the accesses its issuer made before the doorbell, where class or order puts them first (R187). -/
def State.btOrdered (s : State) (c : Copy) : Bool :=
  s.reqs.all fun e =>
    e.performed || e.isCredit || e.ref != some c.ref || decide (c.before ≤ e.id)
      || !((!e.isFence && e.cls == c.cls) || e.acq.getLsbD c.cls.toNat || e.fenceMask.getLsbD c.cls.toNat)

/-- The absolute sill of a window offset, while its owner tag holds. -/
def State.sillAt (s : State) (core : Nat) (gens : List BankUse) (o : Nat) : Option Nat := (s.ownedAt core gens o).map (· / 4096)

/-- A run of bytes of a window touches a sill. -/
def State.spanIn (s : State) (core sill : Nat) (gens : List BankUse) (o n : Nat) : Bool :=
  decide (0 < n) && ((o + n - 1) :: ((List.range ((n - 1) / 4096 + 1)).map fun k => o + 4096 * k)).any fun a => s.sillAt core gens a == some sill

/-- What a peer image has still to bring touches a sill. -/
def State.imageIn (s : State) (p : PeerImg) (core sill : Nat) : Bool :=
  s.refCore p.dest == some core && s.spanIn core sill p.gens (p.off + p.sent) (p.img.length - p.sent)

/-- The sills of a block transfer into the scratchpad: granted already, granted now, or still to be waited for (R158, R259), behind the peer images
that are on their way to them (R239). -/
def State.btGrant (s : State) (c : Copy) : Option (State × Copy) :=
  if c.kind ≠ .bt ∨ c.granted ∨ c.spDst = false then some (s, c)
  else
    let c' := { c with granted := true, grantNo := s.nextId }
    match s.refCore c.ref with
    | none => some (s.setCopy c', c')
    | some k =>
      let l := ((List.range c.units).filterMap fun n => c.sillOfUnit n).eraseDups
      if l.any fun x => ((s.core k).sills.find x).isSome || s.peers.any fun p => s.imageIn p k x then none
      else some ((s.setCore k ((s.core k).grant c.id l)).setCopy c', c')

/-- An access that issued before the sill was granted to copy `c` still has to touch it: it is performed before the first byte of the copy
lands (R239); a credit or an arrival that was sent before is one. The data of a KV command that the chiplet has not taken up lies from its offset on. -/
def State.sillUsed (s : State) (c : Copy) (core sill : Nat) : Bool :=
  let here := fun (r : StreamRef) => s.refCore r == some core
  let reads := fun (d : Copy) =>
    d.id != c.id && !d.frozen && here d.ref && (d.kind != .bt || decide (d.id < c.grantId)) && (List.range d.units).any fun n =>
      !d.done.contains n && (match d.src n with | .sp o => s.sillAt core d.gens o == some sill | _ => false)
  s.copies.any reads || (s.emits.any fun e => here e.ref && s.spanIn core sill e.gens e.off e.n)
    || (s.peers.any fun p => decide (p.id < c.grantId) && s.imageIn p core sill)
    || (s.kvs.any fun k => !k.started && here k.ref && s.spanIn core sill k.gens k.d.data (65536 * k.gens.length - k.d.data))
    || s.reqs.any fun r => !r.performed && (!r.isCredit || decide (r.id < c.grantId))
        && (match r.ref, spAlias r.va with
            | some x, some o => (match s.slotOf x with | some e => e.1 == core && (s.stream e.1 e.2).sillOf o == sill | none => false)
            | _, _ => false)

/-- The landing of unit `n` waits for such an access. -/
def State.landWaits (s : State) (c : Copy) (n : Nat) : Bool :=
  match c.dst n, s.refCore c.ref with
  | .sp o, some core => (match s.sillAt core c.gens o with | some k => s.sillUsed c core k | none => false)
  | _, _ => false

/-- RT, the core's refresh timer (R98). -/
def State.refreshTimer (s : State) (c : Nat) : Nat := s.dclk.toNat - (s.core c).rt0

/-! The mullion (R17, R309) -/

/-- The number, since reset, of the mullion slot that runs: slots are two core cycles long, and sixteen make a frame. DESIGN CHOICE (log 60): on
every column a frame begins where DCLK is a multiple of 32; R17 gives no phase. -/
def State.mullSlot (s : State) : Nat := s.dclk.toNat / 2

/-- Units of 64 bytes that the running slot of a bus, 64 × stack + column, still takes. -/
def State.mullLeft (s : State) (bus : Nat) : Nat :=
  match s.mullUsed.find bus with
  | some (k, n) => if k = s.mullSlot then 4 - n else 4
  | none => 4

/-- The running slot of a bus belongs to a tier of a team. -/
def State.mullOwn (s : State) (bus tier m : Nat) : Bool :=
  let e := AMap.get MullSlot.reset s.mull (16 * bus + s.mullSlot % 16)
  e.valid && e.mx == m && e.tier == tier

/-- Units carried in the running slot of a bus. -/
def State.mullTake (s : State) (bus n : Nat) : State :=
  { s with mullUsed := s.mullUsed.put bus (s.mullSlot, 4 - s.mullLeft bus + n) }

/-- The mullion bus of a core's column. -/
def State.busOf (s : State) (core : Nat) : Nat := 64 * (core / 512) + (s.colOf core).getD 0

/-- A unit of a peer fill travels now: in order, in a slot of the source core's tier that still has room (R249). -/
def State.peerOpen (s : State) (c : Copy) (n : Nat) : Bool :=
  let bus := s.busOf c.peer
  n == c.lowest && s.mullOwn bus (c.peer / 128 % 4) c.ref.mx && decide (0 < s.mullLeft bus)

/-! When a unit may be performed -/

/-- The unit is one of the 256 from the lowest unperformed one on (R353), not performed and not on its way, and the copy's order and status let it
go. -/
def State.unitOpen (s : State) (c : Copy) (n : Nat) : Bool :=
  !c.frozen && decide (n < c.units) && !c.done.contains n && !c.sent.contains n && decide (n < c.lowest + 256) && !s.emitsBefore c
    && (c.kind != .cfillPeer || s.peerOpen c n)
    && (c.kind != .bt || (!decide (3 < c.status ∧ c.status ≠ 6) && s.btOrdered c && (s.btGrant c).isSome))

/-- The unit's homes are up, its slot is open (R346), and no sill or refresh window holds it (R98, R239). -/
def State.unitReady (s : State) (c : Copy) (n : Nat) : Bool :=
  s.unitOpen c n && (c.unitPas n).all s.homeReady && ((c.unitPas n).isEmpty || s.mayReach (some c.ref)) && !s.landWaits c n
    && (match c.src n with
        | .sp o => c.kind != .bt || (match (s.refCore c.ref).bind fun k => (s.ownedAt k c.gens o).map fun a => (k, a) with
          | some (k, a) => (match (s.core k).sills.find (a / 4096) with | some h => h == c.id || !s.grantedBefore h c.id | none => true)
          | none => true)
        | _ => true)
    && (match c.dst n with
        | .g va => (pageOf c.dstPages va).elim true fun e => s.dirtyUp (s.mx c.ref.mx).part (e.ipaOf va)
        | .pane _ => (match s.refCore c.ref with
          | some k => decide ((s.core k).cw.swings ≠ c.swings) || !inWindow c.pane (s.refreshTimer k)
          | none => true)
        | _ => true)

/-- The partitions of copies that wait at a resource of R348. -/
def State.copiesAt (s : State) (res : Nat) : List Nat :=
  (s.copies.filter fun c => (List.range c.units).any fun n =>
    s.unitReady c n && (c.unitPas n).any fun pa => homeResource pa == some res).map fun c => (s.mx c.ref.mx).part

end Sys2Proof.Machine
end

