-- ==== Sys2Proof/Machine/Home.lean ====
section
/-! DEFINITION. Scalar requests performed at their home slice or bank, in an order R179 to R184 allow, and their results delivered (R19,
R177 to R203). -/

namespace Sys2Proof.Machine

/-! Which requests may be performed -/

/-- Bytes of the access. -/
def Req.size (r : Req) : Nat :=
  match r.op with
  | .load n => n
  | .store n _ => n
  | .atomic _ n _ _ _ => n
  | .fence _ => 0
  | _ => 16

def Req.isBarrier (r : Req) : Bool :=
  match r.op with
  | .pbInit .. => true | .pbArrive .. => true | .pbExpect .. => true | .pbTest => true | .pbCredit _ => true
  | .pbWake .. => true
  | _ => false

/-- Two requests of one agent; a credit belongs to none. -/
def sameAgent (a b : Req) : Bool := a.ref == b.ref && !a.isCredit && !b.isCredit

/-- Two requests touch a common byte. -/
def overlap (a b : Req) : Bool :=
  decide (0 < a.size ∧ 0 < b.size) && ((spAlias a.va).isSome == (spAlias b.va).isSome)
    && (if (spAlias a.va).isSome then decide (a.va < b.va + b.size ∧ b.va < a.va + a.size)
        else decide (a.pa < b.pa + b.size ∧ b.pa < a.pa + a.size))

/-- The aperture of an IO address (R173): the block-transfer page of a micro-context (R256), the record store (R383), else its own 4 KiB page. -/
def apertureOf (pa : Nat) : Nat :=
  if pa < btEnd then (pa - ioBase) / 0x40000 else if recordBase ≤ pa ∧ pa < recordBase + 0x10000 then recordBase else pa / 4096

/-- An earlier request `e` of one agent must be performed before a later one `r`: class order, acquire, release and fence, one
location, or one IO aperture (R173, R178 to R184). DESIGN CHOICE (log 69): a FENCE also stands behind an earlier FENCE or acquire, and a release behind
an earlier FENCE, whose masks meet its own; R179 and R184 leave such a pair unordered. -/
def mustPrecede (e r : Req) : Bool :=
  (!e.isFence && !r.isFence && e.cls == r.cls)
    || (!r.isFence && e.acq.getLsbD r.cls.toNat) || (!r.isFence && e.fenceMask.getLsbD r.cls.toNat)
    || (!e.isFence && r.rel.getLsbD e.cls.toNat) || (!e.isFence && r.fenceMask.getLsbD e.cls.toNat)
    || (e.isFence && r.isFence && (e.fenceMask &&& r.fenceMask) != 0)
    || (e.isFence && (r.rel &&& e.fenceMask) != 0) || (r.isFence && (e.acq &&& r.fenceMask) != 0)
    || overlap e r || (e.io && r.io && apertureOf e.pa == apertureOf r.pa)

/-- An arrival made for a finished operation. -/
def Req.isWake (r : Req) : Bool := match r.op with | .pbWake .. => true | _ => false

/-- An arrival for a finished operation of ST stands behind the status writes and source reads that its stream's ST made before (R200, R405). -/
def Req.behindSt (r : Req) : Bool := match r.op with | .pbWake _ st => st | _ => false

/-- Two requests that an order of one agent may hold: of one agent, or an arrival for a finished operation, a release of all classes (R200),
behind a request of the operation's stream. -/
def behind (r e : Req) : Bool := sameAgent e r || (r.isWake && e.ref == r.ref && !e.isCredit)

/-- No earlier unperformed access of its agent stands before the request. -/
def State.ordered (s : State) (r : Req) : Bool :=
  (s.reqs.all fun e => e.performed || decide (r.id ≤ e.id) || !behind r e || !mustPrecede e r)
    && (!r.behindSt || ((s.emits.all fun e => some e.ref != r.ref || decide (r.id ≤ e.id))
      && s.installs.all fun k => some k.ref != r.ref || k.readDone || decide (r.id ≤ k.id)))

def State.req (s : State) (id : Nat) : Option Req := s.reqs.find? fun r => r.id == id

/-- The partition of a request: 15, the system's, for the housekeeping processor (R327). -/
def State.reqPart (s : State) (r : Req) : Nat := if r.ref.isNone then 15 else (s.mx r.mx).part

/-- The request goes to a home, not to a scratchpad and not to an IO aperture. -/
def Req.homed (r : Req) : Bool := (spAlias r.va).isNone && !r.isFence && !r.io

/-- A request that writes. -/
def Req.writes (r : Req) : Bool := match r.op with | .load _ => false | .fence _ => false | .pbTest => false | _ => true

/-- The request may be performed but for the turns of R348: unperformed, unmerged, in order, its home, and for a write that of its bit in the dirty
bitmap (R352), up, and its slot open. -/
def State.ready' (s : State) (r : Req) : Bool :=
  !r.performed && r.into.isNone && s.ordered r
    && (!r.homed || (s.homeReady r.pa && s.mayReach r.ref && (!r.writes || s.dirtyUp (s.reqPart r) r.ipa)))

/-- The partitions whose requests wait at a resource of R348. -/
def State.waitingAt (s : State) (res : Nat) : List Nat :=
  (s.reqs.filter fun r => r.homed && homeResource r.pa == some res && s.ready' r).map s.reqPart ++ s.copiesAt res

/-- An operation of a partition that arrives now has the turn at each of some resources. -/
def State.turnAt (s : State) (p : Nat) (l : List Nat) : Bool := l.all fun k => s.hasTurn k p (p :: s.waitingAt k)

/-- The partition of a stream, and that of the housekeeping processor (R327). -/
def State.refPart (s : State) (ref : Option StreamRef) : Nat := match ref with | some x => (s.mx x.mx).part | none => 15

/-- The resources of R348 behind some physical ranges. -/
def spanResources (l : List (Nat × Nat)) : List Nat := (l.flatMap fun e => rangeResources e.1 e.2).eraseDups

/-- The resources of R348 behind the dirty blocks among some that leave the cache. -/
def dirtyResources (l : AMap LlcBlk) : List Nat := spanResources ((l.filter fun e => e.2.dirty).map fun e => (64 * e.1, 64))

/-- An access for a stream, or for the housekeeping processor, to some physical ranges is served now: their homes are up (R418), a slot of the
partition is open (R328, R346), and the partition has the turns there (R348). -/
def State.spansOpen (s : State) (ref : Option StreamRef) (l : List (Nat × Nat)) : Bool :=
  l.isEmpty || ((l.all fun e => s.paUp e.1 e.2) && s.mayReach ref && s.turnAt (s.refPart ref) (spanResources l))

/-- Such an access has been served: the turn passes on, and what it has read is met. -/
def State.spansServed (s : State) (ref : Option StreamRef) (l : List (Nat × Nat)) : State :=
  (s.servedAll (s.refPart ref) (spanResources l)).meets l

/-- An access of a unit of the device to a range of a micro-context's addresses is served now: its walks and homes (R418) with no exchange of its
frames (R392), a slot of the micro-context's partition (R328), and the turns (R348). What does not translate is answered at once. -/
def State.devOpen (s : State) (m va n : Nat) : Bool :=
  s.vaUp none m va n
    && ((s.vaSpans none m va n).isEmpty || (s.homeServes (s.mx m).part && s.turnAt (s.mx m).part (spanResources (s.vaSpans none m va n))))

/-- Such an access has been served. -/
def State.devServed (s : State) (m va n : Nat) : State :=
  (s.servedAll (s.mx m).part (spanResources (s.vaSpans none m va n))).meets (s.vaWalks m va n ++ s.vaSpans none m va n)

/-- A write of the device is performed; one that fails is lost, or its events stay pending (R322, R350). -/
def State.performDev (s : State) (w : DevWrite) : State :=
  let s1 := { s with devWrites := s.devWrites.erase w }
  match s1.writeVa none w.mx w.va w.data with
  | .ok t => t.devServed w.mx w.va w.data.length
  | .error _ => if w.kind = .phases then s1 else s1.setMx w.mx ((s1.mx w.mx).keepEvents w)

/-- The writes of the device that their homes serve now, in order. -/
def State.performDevs (s : State) : State :=
  s.devWrites.foldl (fun (t : State) w =>
    if t.devOpen w.mx w.va w.data.length && t.vaDirtyUp w.mx w.va w.data.length then t.performDev w else t) s

/-- The request is due: ready, and where partitions share its home in turns, in its partition's turn. -/
def State.due (s : State) (r : Req) : Bool :=
  s.ready' r &&
    (!r.homed || match homeResource r.pa with
      | some k => s.hasTurn k (s.reqPart r) (s.waitingAt k)
      | none => true)

/-- A request served at its home: the turn passes on (R348), its blocks of the slice are used (R171), and its stream counts as having
accessed its range (R318). -/
def State.reached (s : State) (r : Req) : State :=
  let s1 := match (if r.homed then homeResource r.pa else none) with
    | some k => s.served k (s.reqPart r)
    | none => s
  let s2 := if r.homed then s1.hit (r.ref.map (·.mx)) 0 r.pa r.size else s1
  match r.ref with
  | some x => if r.homed then s2.touch x r.va r.size else s2
  | none => s2

def State.setReq (s : State) (r : Req) : State := { s with reqs := s.reqs.map fun x => if x.id = r.id then r else x }
def State.dropReq (s : State) (id : Nat) : State := { s with reqs := s.reqs.filter fun x => x.id != id }

/-- The key slot of the request's page. -/
def State.reqKey (s : State) (r : Req) : Option Nat := if r.enc then some (s.mx r.mx).kslot else none

/-- An element of a REDM has been acknowledged, with the error it met: its unit is done when none of its elements is left (R248). -/
def State.ackUnit (s : State) (r : Req) (err : Option PendErr) : State :=
  match r.unit with
  | none => s
  | some (c, n) =>
    let ended := s.reqs.all fun q => q.unit != r.unit
    let ack := fun (k : Copy) =>
      if k.id = c then
        let at' := fun (e : PendErr) => { e with coord0 := k.rowOf n, coord1 := k.colOf n }
        { k with err := k.err.or (err.map at'), done := if ended then n :: k.done else k.done, sent := if ended then k.sent.filter (· != n) else k.sent }
      else k
    { s with copies := s.copies.map ack }

/-- The request is performed with a result: it stays until the result is delivered, or goes when it has none. -/
def State.perform (s : State) (r : Req) (v : Nat) : State :=
  if r.dest.isSome then s.setReq { r with performed := true, result := BitVec.ofNat 64 v } else (s.dropReq r.id).ackUnit r none

/-- An uncorrectable error met by a request that returns a value: reported at the value's first consumer (R214); by an element of a REDM:
the pending error of its tag (R241). Another request without a value changes nothing there. -/
def State.poison (s : State) (r : Req) : State :=
  let a := (spAlias r.va).getD r.va
  let e : PendErr :=
    { code := 6, reason := 0, opnd := 0, stglv := 0, coord0 := 0, coord1 := 0, space := if (spAlias r.va).isSome then spSP else spG, addr := a,
      baddr := some (a / 64 * 64) }
  if r.dest.isSome then s.setReq { r with performed := true, err := some e } else (s.dropReq r.id).ackUnit r (some e)

/-- HOME_ACCESS: a load, store or fence is performed. -/
def execHomeAccess (id : Nat) (s : State) : Out :=
  match s.req id with
  | none => .next s
  | some r =>
    if !s.due r || r.io then .next s
    else
      match r.op with
      | .load n =>
        match s.badIn r.pa n with
        | some _ => .next ((s.reached r).poison r)
        | none => .next ((s.perform r (leNat (s.readPa (s.reqKey r) r.pa n))).reached r)
      | .store n d =>
        .next ((((s.writePa (s.reqKey r) r.pa (leBytes n d.toNat)).logDirty (s.reqPart r) r.ipa).perform r 0).reached r)
      | .fence _ => .next (s.perform r 0)
      | _ => .next s

/-! Atomics (R193 to R196) -/

/-- The operators a router may merge: for RED all of them, for AMO the integer ones (R194). -/
def mergeable (op : BitVec 4) (ret : Bool) : Bool := decide (op.toNat < 8) || (op.toNat == 8 && !ret)

/-- Two requests a router may merge: an entry of one or more requests meets another that has not been forwarded (R194, R195). -/
def State.mayMerge (s : State) (r e : Req) : Bool :=
  match r.op, e.op with
  | .atomic o n _ _ ret, .atomic o' n' _ _ ret' =>
    r.id != e.id && s.due r && s.due e && !e.fwd && o == o' && n == n' && mergeable o ret && mergeable o ret' && r.pa == e.pa
  | _, _ => false

/-- The wider of two scopes. -/
def wider (a b : BitVec 3) : BitVec 3 := if a.toNat < b.toNat then b else a

/-- ROUTER_MERGE: a float addition is rounded at the merge, with its flags kept for every stream that took part; integer operands are
applied in the entry's order at the home. The merged request carries the widest scope (R194). -/
def execRouterMerge (id into : Nat) (s : State) : Out :=
  match s.req id, s.req into with
  | some r, some e =>
    if !s.mayMerge r e then .next s
    else
      match r.op, e.op with
      | .atomic o n x _ _, .atomic _ _ x' y' ret =>
        let (v, f) := if o = 8 then atomicNew 8 n x'.toNat x.toNat 0 else (x'.toNat, {})
        let fl := BitVec.ofNat 64 f.word.toNat
        let mine := r.id :: r.merged
        let mark := fun (q : Req) =>
          let q1 := if q.id == e.id || e.merged.contains q.id || mine.contains q.id then { q with result := q.result ||| fl } else q
          if q.id = e.id then
            { q1 with op := .atomic o n (BitVec.ofNat 64 v) y' ret, merged := e.merged ++ mine, scope := wider r.scope e.scope }
          else if mine.contains q.id then { q1 with into := some e.id, merged := [], fwd := false } else q1
        .next { s with reqs := s.reqs.map mark }
      | _, _ => .next s
  | _, _ => .next s

/-- MERGE_ENTRY_FORWARD: the entry goes on towards its home and takes no more requests. -/
def execMergeEntryForward (id : Nat) (s : State) : Out :=
  match s.req id with
  | some r => if r.merged = [] || r.performed then .next s else .next (s.setReq { r with fwd := true })
  | none => .next s

/-- A release, a FENCE or an edge of a request's sequencer waits on it (R196): a later request that it must precede by one of these, tokens
to be produced, or a REDM with nothing left to send. -/
def State.waitedOn (s : State) (q : Req) : Bool :=
  match q.unit with
  | some (c, _) => s.copies.any fun k => k.id == c && (List.range k.units).all fun n => k.done.contains n || k.sent.contains n
  | none =>
    (s.reqs.any fun w => !w.performed && decide (q.id < w.id) && behind w q && (w.isFence || w.rel != 0) && mustPrecede q w)
      || (match q.ref with
          | some x => match s.refStream x with
            | some y => y.pushes.any fun p => p.sec == .sc && decide (q.id < p.before)
            | none => false
          | none => false)

/-- Merge entries that a contributor is waited for go on at once. -/
def State.forwardEntries (s : State) : State :=
  { s with reqs := s.reqs.map fun r =>
      if r.merged != [] && !r.fwd && (r :: r.merged.filterMap s.req).any s.waitedOn then { r with fwd := true } else r }

/-- The flags of a float addition reach the stream whose request took part (R217). -/
def State.ackFlags (s : State) (r : Req) (f : BitVec 7) : State :=
  match r.ref with
  | some x => s.updRef x fun y => { y with flags := y.flags ||| f }
  | none => s

/-- The requests of a merge entry applied in order to a value: the new value and each request's old value. -/
def applyAll (op : BitVec 4) (n : Nat) : Nat → List Req → Nat × List (Req × Nat)
  | v, [] => (v, [])
  | v, r :: l =>
    match r.op with
    | .atomic _ _ x y _ =>
      let (w, out) := applyAll op n (atomicNew op n v x.toNat y.toNat).1 l
      (w, (r, v) :: out)
    | _ => applyAll op n v l

/-- ATOMIC_AT_HOME: one access reads and writes the location; every merged request is acknowledged. -/
def execAtomicAtHome (id : Nat) (s : State) : Out :=
  match s.req id with
  | none => .next s
  | some r =>
    match r.op with
    | .atomic op n x y _ =>
      if !s.due r || (r.merged != [] && !r.fwd) then .next s
      else
        let rs := r :: r.merged.filterMap s.req
        let met := rs.foldl (fun t q => t.reached q) s
        let write := fun (v : Nat) => (met.writePa (s.reqKey r) r.pa (leBytes n v)).logDirty (s.reqPart r) r.ipa
        match s.badIn r.pa n with
        | some _ => .next (rs.foldl (fun t q => t.poison q) met)
        | none =>
          let old := leNat (s.readPa (s.reqKey r) r.pa n)
          if op = 8 then
            let (v, f) := atomicNew 8 n old x.toNat y.toNat
            .next (rs.foldl (fun t q => (t.ackFlags q (f.word ||| q.result.setWidth 7)).perform q old) (write v))
          else
            let (v, out) := applyAll op n old rs
            .next (out.foldl (fun t q => t.perform q.1 q.2) (write v))
    | _ => .next s

/-! Phase barriers (R197 to R200) -/

/-- Where a barrier object lies: in the scratchpad of a core, or in memory. -/
inductive BarPlace where
  | sp (core addr : Nat)
  | mem (pa ipa part : Nat) (key : Option Nat)
  deriving DecidableEq, Repr

/-- The place of a barrier request; none when its stream has gone. -/
def State.barPlace (s : State) (r : Req) : Option BarPlace :=
  match spAlias r.va with
  | some o => r.ref.bind fun x => (s.slotOf x).map fun e => .sp e.1 ((s.stream e.1 e.2).spAddr o)
  | none => some (.mem r.pa r.ipa (s.reqPart r) (s.reqKey r))

/-- The object at a place. -/
def State.barAt (s : State) (p : BarPlace) : Barrier :=
  match p with
  | .sp c a => barrierOf ((s.core c).sp.readN a 16)
  | .mem pa _ _ k => barrierOf (s.readPa k pa 16)

def State.setBarAt (s : State) (p : BarPlace) (b : Barrier) : State :=
  match p with
  | .sp c a => s.setCore c { s.core c with sp := (s.core c).sp.writeN a b.bytes }
  | .mem pa ipa part k => (s.writePa k pa b.bytes).logDirty part ipa

/-- The combined update of a list of barrier requests: inits one after another, then the sums (R198). -/
def combine (b : Barrier) (l : List Req) : Barrier :=
  let b1 := l.foldl (fun b r => match r.op with | .pbInit n e bad => b.init n e bad | _ => b) b
  let n := (l.map fun r => match r.op with | .pbArrive n _ => n | .pbWake n _ => n | _ => 0).sum
  let x := (l.map fun r => match r.op with | .pbExpect n _ => n | _ => 0).sum
  let c := (l.map fun r => match r.op with | .pbCredit n => n | _ => 0).sum
  let bad := l.any fun r => match r.op with | .pbArrive _ e => e | .pbExpect _ e => e | _ => false
  if l.all fun r => match r.op with | .pbInit .. => true | .pbTest => true | _ => false then b1 else b1.update n x c bad

/-- What one barrier request gets back: for PB.ARRIVE the FLAGS before the update, and its watch register; for PB.TEST the object. -/
def State.barrierReply (s : State) (b : Barrier) (r : Req) : State :=
  match r.op with
  | .pbArrive _ _ =>
    let s1 := match r.bw, r.ref with
      | some k, some x => s.updRef x fun y =>
          { y with bw := y.bw.put k.toNat (bwOf r.va r.scope.toNat b.phase), bwOwed := y.bwOwed.filter (· != k.toNat) }
      | _, _ => s
    s1.perform r b.flags
  | .pbTest => s.perform r b.test.toNat
  | _ => s.perform r 0

/-- The requests and reservations of every stream whose tag or barrier wait has turned false are withdrawn (R38). -/
def State.withdrawAll (s : State) : State :=
  s.cores.foldl (fun t c => c.2.streams.foldl (fun u k => if k.2.mx.isSome then u.withdraw c.1 k.1 else u) t) s

/-- A test, which changes nothing. -/
def Req.isTest (r : Req) : Bool := match r.op with | .pbTest => true | _ => false

/-- A credit or an arrival made for a finished operation waits on a sill GRANTED before it was sent (R239); the words of SC wait at issue. -/
def State.barSillWait (s : State) (p : BarPlace) (r : Req) : Bool :=
  match p with
  | .sp c a => r.isCredit && (match (s.core c).sills.find (a / 4096) with | some h => s.grantedBefore h r.id | none => false)
  | .mem .. => false

/-- BARRIER_UPDATE: the updates of one barrier that arrive in one cycle. -/
def execBarrierUpdate (ids : List Nat) (s : State) : Out :=
  let l := ids.eraseDups.filterMap s.req
  match l with
  | [] => .next s
  | r :: _ =>
    if !(l.all fun x => x.isBarrier && s.due x && s.barPlace x == s.barPlace r) then .next s
    else
      match s.barPlace r with
      | none => .next (l.foldl (fun t x => t.dropReq x.id) s)
      | some p =>
        let bad := match p with | .mem pa _ _ _ => (s.badIn pa 16).isSome | .sp c a => (s.core c).spBad.contains (a / 64)
        let met0 := l.foldl (fun t x => t.reached x) s
        let met := match p with | .sp c a => met0.correctSp c [a / 64] | .mem .. => met0
        if l.any (s.barSillWait p) then .next s
        else if bad then .next (l.foldl (fun t x => t.poison x) met)
        else
          let b := s.barAt p
          let written := if l.all Req.isTest then met else met.setBarAt p (combine b l)
          .next ((l.foldl (fun t x => t.barrierReply b x) written).withdrawAll)

/-- A barrier operation that a finished operation of a stream sends: no word of SC waits for it. `page` is the translation of a G barrier. -/
def State.sendBarrier (s : State) (ref : StreamRef) (op : ReqOp) (va : Nat) (page : Option TlbEntry) (cls : BitVec 4) (scope : BitVec 3) :
    State :=
  s.post
    { id := s.nextId, ref := some ref, mx := ref.mx, op := op, va := va, pa := (page.map (·.paOf va)).getD 0,
      ipa := (page.map (·.ipaOf va)).getD 0, enc := (page.map (·.enc)).getD false, page := page, io := false, cls := cls, scope := scope,
      acq := 0, rel := (match op with | .pbWake .. => allClasses | _ => 0), win := [], dest := none, bw := none, performed := false, result := 0,
      err := none, unit := none, merged := [], into := none, fwd := false }

/-- A credit of `n` bytes posted to a barrier named by a watch register: an SP-alias barrier of the stream, or a G barrier through the
translation of the copy's issue (R237, R238, R240). -/
def State.credit (s : State) (ref : StreamRef) (w : Word) (n : Nat) (page : Option TlbEntry) (cls : BitVec 4) (scope : BitVec 3) : State :=
  s.sendBarrier ref (.pbCredit n) (bwAddr w) page cls scope

/-! Results (R203, R204) -/

/-- SCALAR_RESULT_DELIVERY: the result of a performed request is delivered to its register. -/
def execScalarResultDelivery (id : Nat) (s : State) : Out :=
  match s.req id with
  | none => .next s
  | some r =>
    if !r.performed || r.err.isSome then .next s
    else
      let put := fun (g : AMap Word) => match r.dest with
        | some d => if d = 0 then g else g.put d.toNat r.result
        | none => g
      let s1 := s.dropReq id
      match r.ref with
      | some x => .next (s1.updRef x fun y => { y with g := put y.g })
      | none => .next { s1 with hk := { s1.hk with g := put s1.hk.g } }

end Sys2Proof.Machine
end

