-- ==== Sys2Proof/Machine/Ring.lean ====
section
/-! DEFINITION. Appends to a request ring (R302 to R304), by the ingress and by LAUNCH. -/

namespace Sys2Proof.Machine

/-- The entry that the next append takes, in physical memory. -/
def State.ringSpans (s : State) (m : Nat) : List (Nat × Nat) := s.vaSpans none m ((s.mx m).entryVa ((s.mx m).head.toNat % (s.mx m).ringLen)) 9280

/-- It can be reached now: its walks and homes (R418), in a slot (R328) and the turns (R348) of the micro-context's partition. -/
def State.ringUp (s : State) (m : Nat) : Bool :=
  let va := (s.mx m).entryVa ((s.mx m).head.toNat % (s.mx m).ringLen)
  s.devOpen m va 9280 && s.vaDirtyUp m va 9280

/-- A message for a micro-context can be taken now: one that takes none is dropped without a look at its ring. -/
def State.takesUp (s : State) (m : Nat) : Bool := (s.mx m).st == .free || (s.mx m).st == .faulted || s.ringUp m

/-- A launch from another DU5, which names a tenant and a partition, finds no target in a micro-context. -/
def State.noTarget (s : State) (m tenant part : Nat) : Bool :=
  (s.mx m).st == .free || (s.mx m).st == .faulted || (s.mx m).tenant.toNat != tenant || (s.mx m).part != part

/-- What an append comes to. -/
inductive Appended where
  | ok (s : State)
  | full
  | fault

/-- The 64 bytes of an entry header (Table 17.2); ORIGIN holds three free values. -/
def entryHeader (s : State) (st src len tarr seq : Nat) (idx : List Nat) : List Byte :=
  leBytes 1 st ++ leBytes 1 src ++ leBytes 2 0 ++ leBytes 4 len ++ leBytes 8 tarr ++ leBytes 8 seq
    ++ ((List.range 3).flatMap fun i => leBytes 8 (Config.freeValue (s.fresh + i)).toNat)
    ++ ((List.range 4).flatMap fun i => leBytes 4 (idx.getD i 0 % 2 ^ 24))

/-- An append of a request to the ring of a micro-context: entry HEAD mod N when it is FREE. The entry is written, FILLED as a release,
HEAD rises, and an IDLE micro-context becomes READY. -/
def State.append (s : State) (m src : Nat) (payload : List Byte) (idx : List Nat) (origin : Option Origin) : Appended :=
  let x := s.mx m
  let i := x.head.toNat % x.ringLen
  match s.entryField m i 0 1 with
  | none => .fault
  | some st =>
    if st ≠ 0 then .full
    else
      match s.writeVa none m (x.entryVa i) (entryHeader s 1 src payload.length s.dclk.toNat x.head.toNat idx ++ payload) with
      | .error _ => .fault
      | .ok t =>
        let y := t.mx m
        let os := match origin with
          | some o => y.origins.put i o
          | none => y.origins.erase i
        .ok (({ t with fresh := t.fresh + 3 }.devServed m (x.entryVa i) 9280).setMx m
          { y with head := y.head + 1, origins := os, st := if y.st = MxSt.idle then MxSt.ready else y.st })

end Sys2Proof.Machine
end

