-- ==== Sys2Proof/Machine/System.lean ====
section
/-! DEFINITION. Control registers (R226 to R228, R357), tensor declarations (R225), LAUNCH (R231, R232), and the system instructions TLBI,
KEYLD, SCRUB, SETEST and PERFRD (R360 to R370). -/

namespace Sys2Proof.Machine

/-! Cores -/

/-- A core identifier that names an enabled core (R13, R14). -/
def State.coreEnabled (s : State) (c : Nat) : Bool :=
  decide (c < 1024 ∧ bits c 6 3 ≤ 8) &&
    (match s.colOf c with | some k => !s.lostCols.contains (64 * (c / 512) + k) | none => false)

/-- Table 5.5 at a value of RT. -/
def rfwin (rt : Nat) : Word :=
  let r := rt % 65536
  let in0 := decide (r < 512)
  let in1 := decide (32768 ≤ r ∧ r < 33280)
  let n0 := if in0 then 0 else 65536 - r
  let n1 := if in1 then 0 else (65536 + 32768 - r) % 65536
  BitVec.ofNat 64 (n0 + in0.toNat * 2 ^ 16 + n1 * 2 ^ 17 + in1.toNat * 2 ^ 33)

/-- Table 5.6 for a micro-context. DESIGN CHOICE (log 64): FCNT counts beyond its 24 bits; CWST shows the low 24, and SWING compares the whole count. -/
def Casement.status (c : Casement) (m : Option Nat) : Word :=
  if m.isSome && c.owner == m then
    BitVec.ofNat 64 (2 ^ 47 + c.front.toNat * 2 ^ 46 + c.valB.toNat * 2 ^ 45 + c.valF.toNat * 2 ^ 44 + c.fcnt % 2 ^ 24)
  else 0

/-! Control registers (Tables 9.6 and 19.1) -/

/-- A per-stream or per-micro-context register of a stream. -/
def State.streamCtl (s : State) (q : SeqId) (n : Nat) : Word :=
  let x := s.strm q
  let m := x.mx.getD 0
  if n = 0 then x.tagrdy
  else if 0x008 ≤ n ∧ n ≤ 0x00F then x.tmReg (n - 0x008)
  else if 0x010 ≤ n ∧ n ≤ 0x013 then x.bwReg (n - 0x010)
  else if 0x018 ≤ n ∧ n ≤ 0x01B then (x.lcReg (n - 0x018)).setWidth 64
  else if 0x020 ≤ n ∧ n ≤ 0x027 then (AMap.get (0 : BitVec 24) x.gpos (n - 0x020)).setWidth 64
  else if n = 0x030 then x.astk
  else if n = 0x031 then x.dph.setWidth 64
  else if n = 0x032 then x.dstep.setWidth 64
  else if n = 0x033 then x.hrseed.setWidth 64
  else if n = 0x034 then x.rpth.setWidth 64
  else if n = 0x038 then (s.core q.core).cw.status x.mx
  else if n = 0x041 then BitVec.ofNat 64 x.tsidx
  else if n = 0x042 then BitVec.ofNat 64 ((s.dclk - (s.mx m).toff).toNat / 800)
  else 0

/-- A per-core register. -/
def State.coreCtl (s : State) (c n : Nat) : Word :=
  if n = 0x039 then rfwin (s.refreshTimer c)
  else if n = 0x040 then BitVec.ofNat 64 c
  else if n = 0x060 then (s.core c).wth.setWidth 64
  else 0

/-- The registers held per core. -/
def isCoreCtl (n : Nat) : Bool := n == 0x039 || n == 0x040 || n == 0x060

/-- A privileged register of Table 19.1 as CRD reads it at S; every per-stream and per-micro-context register of Table 9.6 reads 0 there (R357). -/
def State.hkCtl (s : State) (n : Nat) : Word :=
  if n = 0x400 then s.hk.csel.setWidth 64
  else if n = 0x401 then s.hk.epc
  else if n = 0x402 then BitVec.ofNat 64 (s.hk.ecauseMx.toNat * 2 ^ 16 + s.hk.ecauseCode.toNat)
  else if n = 0x403 then s.hk.erec
  else if n = 0x404 then s.hk.tvec
  else if n = 0x405 then (if s.hk.ten then 1 else 0)
  else if n = 0x410 then s.dclk
  else if n = 0x411 then s.ltb
  else 0

/-- CRD of a register by the running agent (R226, R357). -/
def State.readCtl (s : State) (n : Nat) : Word :=
  match s.cur with
  | .seq q => if isCoreCtl n then s.coreCtl q.core n else s.streamCtl q n
  | .hk =>
    if isCoreCtl n then (if s.coreEnabled s.hk.csel.toNat then s.coreCtl s.hk.csel.toNat n else 0) else s.hkCtl n

/-- HRSEED written; a lease holder's sign store regenerates (R101). -/
def State.setHrseed (s : State) (q : SeqId) (w : Word) : State :=
  let s1 := s.setStrm q { s.strm q with hrseed := w.setWidth 32 }
  let c := s1.core q.core
  if c.lease.holder == some q.slot then
    s1.setCore q.core { c with signSeed := (s1.strm q).seed, signRegen := some s.dclk.toNat }
  else s1

/-- A per-stream register written. -/
def State.setStreamCtl (s : State) (q : SeqId) (n : Nat) (w : Word) : State :=
  let x := s.strm q
  if n = 0 then s.setStrm q { x with tagrdy := w }
  else if 0x008 ≤ n ∧ n ≤ 0x00F then s.setStrm q { x with tm := x.tm.put (n - 0x008) w }
  else if 0x010 ≤ n ∧ n ≤ 0x013 then
    s.setStrm q { x with bw := x.bw.put (n - 0x010) (BitVec.ofNat 64 (w.toNat % 2 ^ 57)), bwOwed := x.bwOwed.filter (· != n - 0x010) }
  else if 0x018 ≤ n ∧ n ≤ 0x01B then s.setStrm q { x with lc := x.lc.put (n - 0x018) (w.setWidth 32) }
  else if n = 0x030 then s.setStrm q (x.setAstk w)
  else if n = 0x031 then s.setStrm q { x with dph := w.setWidth 6 }
  else if n = 0x032 then s.setStrm q { x with dstep := w.setWidth 6 ||| 1 }
  else if n = 0x033 then s.setHrseed q w
  else if n = 0x034 then s.setStrm q { x with rpth := w.setWidth 32 }
  else s

/-- A register written by the housekeeping processor (R357): WTH of the enabled core that CSEL names, and the writable registers of Table 19.1; every
other write is ignored. WTH acts on the core from the following cycle: a swap of the same cycle goes before (`State.goesFirst`, R227). -/
def State.setHkCtl (s : State) (n : Nat) (w : Word) : State :=
  if n = 0x060 then
    (let c := s.hk.csel.toNat
     if s.coreEnabled c then s.setCore c { s.core c with wth := w.setWidth 32 } else s)
  else if n = 0x400 then { s with hk := { s.hk with csel := w.setWidth 16 } }
  else if n = 0x401 then { s with hk := { s.hk with epc := w } }
  else if n = 0x404 then { s with hk := { s.hk with tvec := w &&& ~~~3 } }
  else if n = 0x405 then { s with hk := { s.hk with ten := w.getLsbD 0 } }
  else s

/-- CRD. -/
def execCrd (d : BitVec 5) (i : BitVec 15) (s : State) : Out := .next (s.setG d (s.readCtl i.toNat)).done

/-- CWR: the waits of the stream's blocks are looked at again (R38). -/
def execCwr (a : BitVec 5) (i : BitVec 15) (s : State) : Out :=
  match s.cur with
  | .hk => .next (s.setHkCtl i.toNat (s.g a)).done
  | .seq q => .next ((s.setStreamCtl q i.toNat (s.g a)).done.withdraw q.core q.slot)

/-! Tensor declarations (R169, R225) -/

/-- The first broken field of a tensor declaration (Table 7.7): of a micro-context's, or, with `dev`, of a device tensor's. -/
def tensorFault (dev : Bool) (l : List Byte) : Option Nat :=
  let f := fieldLe l
  let checks : List (Nat × Bool) :=
    [(0x00, if dev then decide (0xF0000 ≤ f 0 4 ∧ f 0 4 < 0x100000) else decide (1 ≤ f 0 4 ∧ f 0 4 < 0xF0000)), (0x04, decide (f 4 1 ≤ 6)), (0x05, f 5 3 == 0), (0x08, f 8 8 % 64 == 0),
     (0x10, decide (f 0x10 4 % 64 = 0 ∧ f 0x14 4 ≤ f 0x10 4)), (0x14, decide (f 0x14 4 % 64 = 0 ∧ 64 ≤ f 0x14 4 ∧ f 0x14 4 ≤ 2 ^ 31 - 64)),
     (0x18, decide (1 ≤ f 0x18 4 ∧ f 0x18 4 ≤ 16777216)), (0x1C, f 0x1C 4 == 0)]
  (checks.find? fun c => !c.2).map (·.1)

def tensorOf (l : List Byte) : Tensor :=
  { tid := fieldLe l 0 4, shape := fieldLe l 4 1, base := BitVec.ofNat 64 (fieldLe l 8 8), pitch := fieldLe l 0x10 4,
    rowb := fieldLe l 0x14 4, rows := fieldLe l 0x18 4 }

/-- The last byte of a tensor's range. -/
def Tensor.last (x : Tensor) : Nat := x.base.toNat + (x.rows - 1) * x.pitch + x.rowb - 1

def Tensor.meets (x y : Tensor) : Bool := decide (x.base.toNat ≤ y.last ∧ y.base.toNat ≤ x.last)

/-- The status of a declaration against a table (Table 9.5). -/
def declStatus (dev : Bool) (ts : List Tensor) (l : List Byte) : Nat :=
  if (tensorFault dev l).isSome then 1
  else if ts.any fun x => x.tid == (tensorOf l).tid then 3
  else if ts.any fun x => x.meets (tensorOf l) then 2
  else if 4096 ≤ ts.length then 4
  else 0

/-- Bytes of a scalar read of the running word at an aligned place. -/
def State.placeBytes (s : State) (p : Place) (n : Nat) : Except XlErr (List Byte) :=
  match p with
  | .sp o => if (s.spBadIn s.here.core s.here.slot o n).isSome then .error xlUncorr else .ok (s.mySp o n)
  | .at' x => match s.badIn x.pa n with | some _ => .error xlUncorr | none => .ok (s.readPa x.enc x.pa n)

/-- `n` bytes read by the running word at an address aligned to `al`, with the faults of R214. -/
def State.scalarRead (s : State) (ea n al : Nat) : Except FaultInfo (List Byte) :=
  match s.scalarPlace ea al .read false with
  | .error f => .error f
  | .ok p =>
    match s.placeBytes p n with
    | .ok l => .ok l
    | .error e => .error (match p with | .sp o => e.info 0 0 0 spSP o | .at' _ => e.info 0 0 0 spG ea)

/-- The tensor table of the running word: its micro-context's, or the device tensors of the housekeeping processor (R169, log 39). -/
def State.myTensors (s : State) : List Tensor := if s.isHk then s.devTensors else (s.mx s.myMx).tensors

def State.setMyTensors (s : State) (l : List Tensor) : State :=
  if s.isHk then { s with devTensors := l } else s.setMx s.myMx { s.mx s.myMx with tensors := l }

/-- TENSOR.DEF. -/
def execTensorDef (d a : BitVec 5) (s : State) : Out :=
  match s.scalarRead (s.g a).toNat 32 32 with
  | .error f => .next (s.raise f)
  | .ok l =>
    let st := declStatus s.isHk s.myTensors l
    let s1 := if st = 0 then s.setMyTensors (s.myTensors ++ [tensorOf l]) else s
    .next ((s1.touchMine (s.g a).toNat 32).setG d (BitVec.ofNat 64 st)).done

/-- Blocks of a declared tensor leave the last-level cache, written back where dirty. -/
def State.flushTensor (s : State) (m tid : Nat) : State := s.evict (if s.isHk then none else some m) (s.llc.filter fun e => e.2.mx == m && e.2.tid == tid)

/-- TENSOR.UNDEF. -/
def execTensorUndef (d b : BitVec 5) (s : State) : Out :=
  let tid := (s.g b).toNat % 2 ^ 20
  if s.myTensors.any fun x => x.tid == tid then
    let s1 := s.setMyTensors (s.myTensors.filter fun x => x.tid != tid)
    .next ((if tid = 0 then s1 else s1.flushTensor (if s.isHk then 0 else s.myMx) tid).setG d 0).done
  else .next (s.setG d 5).done

/-! LAUNCH (R231, R232) -/

/-- A reserved field or a limit of Table 9.8 is broken. -/
def launchBad (l : List Byte) : Bool :=
  let f := fieldLe l
  !decide (f 0 2 < 16384 ∧ f 2 1 < 2 ∧ f 3 1 = 0 ∧ f 4 2 < 3072 ∧ (f 2 1 = 0 → f 4 2 = 0) ∧ f 6 2 = 0 ∧ f 0x10 4 ≤ 9216 ∧ f 0x14 4 = 0
    ∧ f 0x1B 1 = 0 ∧ f 0x1F 1 = 0 ∧ f 0x23 1 = 0 ∧ f 0x27 1 = 0 ∧ f 0x28 24 = 0)

/-- Bytes of the window that a launch reads; a failure names the first byte it met. -/
def State.launchSp (s : State) (o n : Nat) : Except FaultInfo (List Byte) :=
  match s.me.windowFail o n with
  | some w => .error { code := 1, space := spSP, addr := w }
  | none =>
    match s.spBadIn s.here.core s.here.slot o n with
    | some b => .error { code := 6, space := spSP, addr := max o b, baddr := some b }
    | none => .ok (s.mySp o n)

/-- Bytes of G that a launch reads, through translation. -/
def State.launchG (s : State) (va n : Nat) : Except FaultInfo (List Byte) :=
  match s.readVaAt (some s.here.core) s.myMx va n with
  | .ok l => .ok l
  | .error e => .error (e.1.info 0 0 0 (s.spaceOf e.2) e.2)

/-- The request data of a launch: what of its range lies in the SP alias is never translated (R212). -/
def State.launchData (s : State) (va n : Nat) : Except FaultInfo (List Byte) :=
  if n = 0 then .ok []
  else match spAlias va with
    | some o => s.launchSp o n
    | none =>
      if va < spAliasBase ∧ spAliasBase < va + n then
        match s.launchG va (spAliasBase - va) with
        | .error f => .error f
        | .ok l => match s.launchSp 0 (va + n - spAliasBase) with | .error f => .error f | .ok r => .ok (l ++ r)
      else s.launchG va n

/-- The status of a launch whose ring does not accept the write, and to which nothing is appended: the spec names none, so that it is a free value
among those of Table 9.9 but QUEUED (log 3). -/
def refusedStatus (v : Nat) : Nat := 1 + v % 4

/-- LAUNCH: the status is that of Table 9.9. Of a REMOTE launch to a reachable device the other DU5 gives the status, one of QUEUED,
RINGFULL and NOTARGET, and of a ring whose frames do not accept the write one of the others: free values. -/
def execLaunch (d a : BitVec 5) (s : State) : Out :=
  match s.scalarRead (s.g a).toNat 64 64 with
  | .error f => .next (s.raise f)
  | .ok l =>
    let m := fieldLe l 0 2
    let put := fun (t : State) (v : Word) => Host.Outcome.next (t.setG d v).done
    -- the descriptor has been read, and further down the data (R318)
    let s := s.touchMine (s.g a).toNat 64
    let read := fun (t : State) => t.touchMine (fieldLe l 8 8) (fieldLe l 0x10 4)
    if launchBad l then put s 3
    else if bit (fieldLe l 2 1) 0 then
      if !Config.reachable (fieldLe l 4 2) then put s 4
      else match s.launchData (fieldLe l 8 8) (fieldLe l 0x10 4) with
        | .error f => .next (s.raise f)
        | .ok data =>
          let (v, s1) := s.free
          -- the request leaves by UALink, port 8 of the list of sent messages
          put (read { s1 with sent := (8, l ++ data) :: s1.sent }) (BitVec.ofNat 64 (v.toNat % 3))
    else
      let x := s.mx m
      let y := s.mx s.myMx
      if x.st == .free || x.st == .faulted || x.tenant != y.tenant || x.part != y.part then put s 2
      else match s.launchData (fieldLe l 8 8) (fieldLe l 0x10 4) with
        | .error f => .next (s.raise f)
        | .ok data =>
          match s.append m 4 data ((List.range 4).map fun i => fieldLe l (0x18 + 4 * i) 4) none with
          | .ok t => put (read t) 0
          | .full => put (read s) 1
          | .fault => let (v, s1) := s.free; put (read s1) (BitVec.ofNat 64 (refusedStatus v.toNat))

/-! TLBI (R331, R363) -/

/-- What a TLBI covers. -/
structure TlbScope where
  st : Nat
  part : Nat
  mx : Option Nat
  range : Option (Nat × Nat)

/-- A page meets a range of addresses; a range of length 0 covers nothing (R363). -/
def pageMeets (p : Nat × Nat) : Option (Nat × Nat) → Bool
  | none => true
  | some (a, n) => decide (0 < n ∧ p.1 < a + n ∧ a < p.1 + p.2)

/-- A final translation is covered when either of its contributions is. -/
def TlbScope.covers (c : TlbScope) (e : TlbEntry) : Bool :=
  e.part == c.part &&
    ((bit c.st 0 && (match c.mx with | some m => e.mx == m | none => true) && pageMeets e.page1 c.range)
      || (bit c.st 1 && pageMeets e.page2 c.range))

/-- The scope a TLBI word names. -/
def State.tlbScope (s : State) (d a b : BitVec 5) (rng mxe : Bool) (st : BitVec 2) : TlbScope :=
  { st := st.toNat, part := (s.g a).toNat % 16, mx := if mxe then some (bits (s.g a).toNat 29 16) else none,
    range := if rng then some ((s.g b).toNat, (s.g d).toNat) else none }

/-- A walk-cache entry is covered when the addresses it serves meet the range at its stage. -/
def TlbScope.coversWalk (c : TlbScope) (e : WalkEntry) : Bool :=
  let span := 2 ^ (12 + 9 * e.level)
  e.part == c.part && pageMeets (e.tag * span, span) c.range
    && (if e.stage = 1 then bit c.st 0 && (match c.mx with | some m => e.mx == m | none => true) else bit c.st 1)

/-- The covered translations leave every core's TLB and walk cache. -/
def State.invalidate (s : State) (c : TlbScope) : State :=
  { s with cores := s.cores.map fun e =>
      (e.1, { e.2 with tlb := e.2.tlb.filter fun x => !c.covers x, wcache := e.2.wcache.filter fun x => !c.coversWalk x }) }

/-- TLBI: it completes once no access holds a covered translation (the wait is the issue rule's), and removes the covered entries. -/
def execTlbi (d a b : BitVec 5) (rng mxe : Bool) (st : BitVec 2) (s : State) : Out :=
  let c := s.tlbScope d a b rng mxe st
  .next (if (s.part c.part).active then s.invalidate c else s).done

/-! KEYLD (R366) -/

/-- A status word (R361). -/
def sysStatus (code detail : Nat) : Word := BitVec.ofNat 64 (code + detail * 2 ^ 8)

/-- A PA argument of `n` bytes lies in a hole, or its read meets an uncorrectable error. -/
def State.paFails (s : State) (pa n : Nat) : Bool :=
  !s.populated pa || !s.populated (pa + n - 1) || isIo pa || (s.badIn pa n).isSome

/-- KEYLD `.load`. -/
def State.keyLoad (s : State) (k tenant pa : Nat) : Word × State :=
  if pa % 64 ≠ 0 then (sysStatus 2 0, s)
  else if s.paFails pa 64 then (sysStatus 7 0, s)
  else
    let l := s.peek pa 64
    if fieldLe l 12 4 ≠ 0 then (sysStatus 2 12, s)
    else if (s.key k).st ≠ 0 then (sysStatus 8 0, s)
    else
      match gcmOpen keyImportKey (beNat (l.take 12)) (leBytes 2 k ++ leBytes 2 tenant) (sliceBytes l 0x10 32)
          (beNat (sliceBytes l 0x30 16)) with
      | none => (sysStatus 11 0, s)
      | some p =>
        let k2 := beNat (sliceBytes p 16 16)
        (sysStatus 0 0, s.setKey k
          { s.key k with
            st := 1, kgen := (s.key k).kgen + 1, tenant := BitVec.ofNat 16 tenant, k1 := BitVec.ofNat 128 (beNat (p.take 16)),
            k2 := BitVec.ofNat 128 k2, kg := BitVec.ofNat 128 (sm4Enc k2 (rev16 (2 * 2 ^ 120))), ivs := [] })

/-- The slot and tenant operands of KEYLD. -/
def State.keyArgs (s : State) (a : BitVec 5) : Nat × Nat := (bits (s.g a).toNat 11 0, bits (s.g a).toNat 31 16)

def execKeyldLoad (d a b : BitVec 5) (s : State) : Out :=
  let (k, tn) := s.keyArgs a
  let (v, t) := s.keyLoad k tn (s.g b).toNat
  .next (t.setG d v).done

/-- KEYLD `.unload`. -/
def execKeyldUnload (d a _b : BitVec 5) (s : State) : Out :=
  let (k, _) := s.keyArgs a
  if (s.key k).st = 1 then .next ((s.setKey k { s.key k with st := 2 }).setG d (sysStatus 0 0)).done
  else .next (s.setG d (sysStatus 8 0)).done

/-! SCRUB (R367) -/

/-- Banks of a core that no window holds and no scrub clears. -/
def Core.freeBanks (c : Core) : List Nat :=
  let held := (c.streams.filter fun e => e.2.mx.isSome).flatMap fun e => e.2.banks.map (·.bank)
  (List.range 48).filter fun b => !held.contains b && !c.scrubBanks.contains b

/-- An access on its way to a bank of a core carries a generation of its owner tag (R155); its team may have left the core by now. -/
def State.genBusy (s : State) (core bank gen : Nat) : Bool :=
  let at' := fun (l : List BankUse) => l.any fun e => e.core == core && e.bank == bank && e.gen % 65536 == gen % 65536
  (s.copies.any fun c => !c.frozen && at' c.gens) || (s.peers.any fun p => at' p.gens) || (s.emits.any fun e => at' e.gens)
    || (s.kvs.any fun k => at' k.gens) || s.reqs.any fun r => !r.performed && at' r.win

/-- Free banks of a core whose next generation no access on its way carries (R155). -/
def State.freeBanks (s : State) (core : Nat) : List Nat :=
  (s.core core).freeBanks.filter fun b => !s.genBusy core b ((AMap.get BankTag.reset (s.core core).tags b).gen + 1).toNat

/-- SCRUB `.core`: the free banks, the free units of the shutter store and, with no owner, both panes; the status is delivered when the scrub completes. -/
def execScrubCore (d a : BitVec 5) (s : State) : Out :=
  let c := (s.g a).toNat % 2 ^ 16
  if !s.coreEnabled c then .next (s.setG d (sysStatus 2 0)).done
  else
    let (id, s1) := s.newId
    let k := s1.core c
    let bs := k.freeBanks
    let cw := k.cw.owner.isNone && !k.scrubCw
    let n := k.shutFree
    let r : Scrub :=
      { id := id, mx := 0, tenant := 0, cores := [c], slots := [], banks := bs.map fun b => (c, b), shuts := [(c, n)],
        cws := if cw then [c] else [], mull := [], cache := false, start := s.dclk.toNat, dest := some d, allPanes := true }
    let k1 := { k with scrubBanks := k.scrubBanks ++ bs, scrubShut := k.scrubShut + n, scrubCw := k.scrubCw || cw }
    .next ({ s1.setCore c k1 with scrubs := s1.scrubs ++ [r] }).done

/-- SCRUB `.tenant`: the cache step for a tenant. -/
def execScrubTenant (d a : BitVec 5) (s : State) : Out :=
  let (id, s1) := s.newId
  let r : Scrub :=
    { id := id, mx := 0, tenant := (s.g a).setWidth 16, cores := [], slots := [], banks := [], shuts := [], cws := [], mull := [],
      cache := true,
      start := s.dclk.toNat, dest := some d, allPanes := false }
  .next ({ s1 with scrubs := s1.scrubs ++ [r] }).done

/-! SETEST, PERFRD (R368, R370) -/

/-- SETEST: the estimate of the team. The housekeeping processor has no team, and the word changes nothing there. -/
def execSetest (a : BitVec 5) (s : State) : Out :=
  if s.isHk then .next s.done
  else
    let m := s.myMx
    .next (s.setMx m { s.mx m with est := BitVec.ofNat 32 (min (s.g a).toNat (2 ^ 32 - 1)), estSet := true }).done

/-- Shared counter `k` of a micro-context in a table of the counts: what it has risen by since the last MXBIND (R370). -/
def State.sharedSince (s : State) (m k : Nat) (l : AMap Nat) : Nat :=
  AMap.get 0 l (sharedKey m k) - AMap.get 0 (s.mx m).sharedBase (sharedKey m k)

/-- A shared counter as a guest reads it (R343): `samples` holds the newest sample first. -/
def State.sharedSample (s : State) (m k : Nat) : Word := BitVec.ofNat 64 (s.sharedSince m k (s.samples.getD 1 []) / 4096 * 4096)

/-- The counters of bank conflicts and of queue and link occupancy, which the spec names and does not define: free values (log 32). -/
def isOpenCounter (k : Nat) : Bool := decide (0x107 ≤ k ∧ k ≤ 0x109)

/-- Such a counter of a micro-context at a time: what it has counted since MXBIND. -/
def State.openCount (s : State) (m k t : Nat) : Word :=
  if t ≤ (s.mx m).t0.toNat then 0 else Config.occupancy m k t - Config.occupancy m k (s.mx m).t0.toNat

/-- Core cycles of 1.024 ms: the time between two samples of the shared counters (R343). -/
def epochCycles : Nat := 819200

/-- Such a counter as PERFRD gives it: exactly to system software, else the sample of R343. -/
def State.openSample (s : State) (m k : Nat) : Word :=
  if s.isHk then s.openCount m k s.dclk.toNat
  else BitVec.ofNat 64 ((s.openCount m k ((s.dclk.toNat / epochCycles - 1) * epochCycles)).toNat / 4096 * 4096)

/-- PERFRD. -/
def execPerfrd (d a : BitVec 5) (i : BitVec 15) (s : State) : Out :=
  let k := i.toNat
  let m := if s.isHk then (s.g a).toNat % 2 ^ 14 else s.myMx
  if isOpenCounter k then .next (s.setG d (s.openSample m k)).done
  else
    let v := if k < 0x100 then AMap.get 0 (s.mx m).cnt k
      else if s.isHk then BitVec.ofNat 64 (s.sharedSince m k s.shared) else s.sharedSample m k
    .next (s.setG d v).done

end Sys2Proof.Machine
end

