-- ==== Sys2Proof/Machine/LoadStore.lean ====
section
/-! DEFINITION. LD and ST words (R233 to R255) at issue: shapes, address registers, loops, prefetch, the checks of a copy word and its
start, PKT.TAKE and PKT.EMIT. What a copy does after its issue is in Machine/Copies.lean. -/

namespace Sys2Proof.Machine

/-! Shapes (R234 to R236) -/

/-- A valid FMT of a shape. -/
def shapeFmtOk (f : Nat) : Bool :=
  if bit f 7 then (blkFmt (f % 128)).isSome else decide (f ≤ 12)

/-- The first reason of Table 10.2 that a declaration breaks, with the offset of the field. DESIGN CHOICE (log 69): SPAN, which lies in no one field, is
reported at ROWB, offset 8. -/
def shapeFault (l : List Byte) : Option (Nat × Nat) :=
  let f := fieldLe l
  let gp := f 0 4
  let sp := f 4 4
  let rowb := f 8 4
  let rows := f 0xC 2
  if f 0xF 17 ≠ 0 then some (3, 0xF)
  else if rowb % 64 ≠ 0 ∨ rowb < 64 ∨ 258048 < rowb then some (4, 8)
  else if rows = 0 ∨ 4096 < rows then some (5, 0xC)
  else if gp % 64 ≠ 0 then some (6, 0)
  else if sp % 64 ≠ 0 ∨ (1 < rows ∧ sp < rowb) then some (6, 4)
  else if 258048 < (rows - 1) * sp + rowb then some (7, 8)
  else if !shapeFmtOk (f 0xE 1) then some (8, 0xE)
  else none

def shapeOf (l : List Byte) : Shape :=
  { loaded := true, gpitch := fieldLe l 0 4, spitch := fieldLe l 4 4, rowb := fieldLe l 8 4, rows := fieldLe l 0xC 2,
    fmt := BitVec.ofNat 8 (fieldLe l 0xE 1) }

/-- SHAPE of KIND 0: a declaration of the launch. -/
def execShape (y : Sync) (hd idx : BitVec 4) (s : State) : Out :=
  let l := match (s.mx s.myMx).team with | some t => t.lr.shapes | none => []
  match l[idx.toNat]? with
  | some x => .next ((s.setH hd { x with loaded := true }).doneY y)
  | none => .next (s.raise { code := 8, reason := 2, opnd := 4, c0 := hd.toNat, c1 := idx.toNat })

/-- SHAPE of KIND 1: a declaration in memory. -/
def execShapeMem (y : Sync) (_cs : Cs) (hd a : BitVec 4) (s : State) : Out :=
  match s.scalarRead (s.a a).toNat 32 32 with
  | .error f => .next (s.raise f)
  | .ok l =>
    match shapeFault l with
    | some (r, _) => .next (s.raise { code := 8, reason := r, opnd := 4, c0 := hd.toNat })
    | none => .next (((s.setH hd (shapeOf l)).touchMine (s.a a).toNat 32).doneY y)

/-! Address registers and loops (R251 to R253) -/

/-- ADDA. -/
def execAdda (y : Sync) (d a t : BitVec 4) (te : Bool) (sh : BitVec 3) (imm : BitVec 29) (s : State) : Out :=
  .next ((s.setA d (s.a a + (if te then s.a t <<< sh.toNat else 0) + imm.signExtend 64)).doneY y)

/-- MOVA of KIND 0. -/
def execMovaImm (y : Sync) (d : BitVec 4) (sh : BitVec 3) (imm : BitVec 36) (s : State) : Out :=
  .next ((s.setA d (imm.signExtend 64 <<< (8 * sh.toNat))).doneY y)

/-- MOVA of KIND 1. -/
def execMovaGpos (y : Sync) (d : BitVec 4) (k : BitVec 3) (s : State) : Out :=
  .next ((s.setA d ((AMap.get (0 : BitVec 24) s.me.gpos k.toNat).setWidth 64)).doneY y)

/-- MOVA of KIND 2: 8 bytes of the scratchpad; it is the first consumer of an uncorrectable block there (R416). -/
def execMovaSp (y : Sync) (_cs : Cs) (d : BitVec 4) (off : BitVec 22) (s : State) : Out :=
  match s.me.windowFail off.toNat 8 with
  | some w => .next (s.raise { code := 1, space := spSP, addr := w })
  | none =>
    match s.spBadIn s.here.core s.here.slot off.toNat 8 with
    | some b => .next (s.raise { code := 6, space := spSP, addr := b, baddr := some b })
    | none => .next ((s.setA d (BitVec.ofNat 64 (leNat (s.mySp off.toNat 8)))).doneY y)

/-- MOVA of KIND 3. -/
def execMovaReg (y : Sync) (d a : BitVec 4) (s : State) : Out := .next ((s.setA d (s.a a)).doneY y)

/-- LOOPA: the step of the address register, then LC as in R210. -/
def execLoopa (y : Sync) (k : BitVec 2) (ar : BitVec 4) (ae : Bool) (step : BitVec 16) (off : BitVec 21) (s : State) : Out :=
  let s1 := if ae then s.setA ar (s.a ar + (step.signExtend 64 <<< 6)) else s
  let s2 := (s1.popBefore y).pushAfter y
  let n := s2.me.lcReg k.toNat
  let target := s.pc + (off.signExtend 64 <<< 3)
  if n = 0 then s2.transferTo s.fallThrough
  else (s2.setLc k (n - 1)).transferTo (if n - 1 ≠ 0 then target else s.fallThrough)

/-! Checks of a copy word (R237) -/

/-- Step 3: the rows of a scratchpad operand lie inside the window. The record gives the index of the first failing byte among the operand's
bytes in row order, as Table 20.2 has it for WINDOW (log 40). -/
def windowRows (x : Stream) (base pitch rowb opnd : Nat) : Nat → Nat → Option FaultInfo
  | 0, _ => none
  | n + 1, r =>
    let o := (base + r * pitch) % spMod
    match x.windowFail o rowb with
    | some w => some { code := 1, opnd := opnd, c0 := r * rowb + (w - o), space := spSP, addr := w }
    | none => windowRows x base pitch rowb opnd n (r + 1)

/-- Step 6: the translation of `left` bytes of row `r` from `va`, in 4 KiB pieces; `acc` gathers the pages. -/
def State.translateSpan (s : State) (core : Option Nat) (m : Nat) (need : Need) (opnd r : Nat) :
    Nat → Nat → Nat → Nat → List TlbEntry → Except FaultInfo (List TlbEntry)
  | 0, _, _, _, acc => .ok acc
  | f + 1, va, col, left, acc =>
    if left = 0 then .ok acc
    else
      let v := va % 2 ^ 64
      if (spAlias v).isSome then .error ((xlNonCanon 1 4).info opnd r col spG v)
      else
        match s.access core m v need false with
        | .error e => .error (e.info opnd r col (s.spaceOf v) v)
        | .ok x =>
          let k := min left (4096 - v % 4096)
          s.translateSpan core m need opnd r f (va + k) (col + k) (left - k)
            (if acc.any fun e => e.va == x.page.va then acc else x.page :: acc)

/-- Step 6 for rows of `rowb` bytes: row numbers and their addresses. -/
def State.translateRows (s : State) (core : Option Nat) (m : Nat) (need : Need) (opnd rowb : Nat) :
    List (Nat × Nat) → List TlbEntry → Except FaultInfo (List TlbEntry)
  | [], acc => .ok acc
  | (r, va) :: l, acc =>
    match s.translateSpan core m need opnd r (rowb / 4096 + 2) va 0 rowb acc with
    | .error e => .error e
    | .ok acc' => s.translateRows core m need opnd rowb l acc'

/-- Step 6, the barrier to be credited: the value of the watch register with the translation of a G barrier, or the fault of operand 2. -/
def State.barCheck (s : State) (k : BitVec 2) : Except FaultInfo (Word × Option TlbEntry) :=
  let w := s.me.bwReg k.toNat
  let a := bwAddr w
  if a = 0 then .error ((xlNotValid 0 0).info 2 0 0 spG 0)
  else match spAlias a with
    | some o =>
      match s.me.windowFail o 16 with
      | some f => .error { code := 1, opnd := 2, space := spSP, addr := f }
      | none => .ok (w, none)
    | none =>
      match s.access (some s.here.core) s.myMx a .write false with
      | .error e => .error (e.info 2 0 0 (s.spaceOf a) a)
      | .ok x => .ok (w, some x.page)

/-- The barrier check of a word whose barrier is optional. -/
def State.barCheckOpt (s : State) : Option (BitVec 2) → Except FaultInfo (Option Word × Option TlbEntry)
  | none => .ok (none, none)
  | some k => match s.barCheck k with | .ok w => .ok (some w.1, w.2) | .error e => .error e

/-- A copy of the running word, with no geometry yet. -/
def State.copyOf (s : State) (kind : CopyKind) (cs : Cs) (tag : Nat) : Copy :=
  { id := s.nextId, kind := kind, ref := s.myRef, sec := s.here.sec, cls := cs.cls, scope := cs.scope, tag := tag, bar := none,
    wordPc := s.pc, rows := 1, rowb := 64, gpitch := 0, spitch := 64, gbase := 0, sbase := 0, idx := [], fmt := 0, vcols := 0,
    vrows := 0, bytes := 0, barPage := none, data := [], pages := [], dpages := [], gens := s.me.banks, pane := false, swings := 0, peer := 0,
    kslot := (s.mx s.myMx).kslot, units := 0, done := [], sent := [], stale := [], frozen := false, err := none, chan := 0, tidx := 0, mult := 0, before := 0,
    spSrc := false, spDst := false, status := 0, fcode := 0, fva := 0, granted := false, sflg := 0, res := 0 }

/-- Step 1: a loaded shape register. -/
def State.loadedShape (s : State) (h : BitVec 4) : Except FaultInfo Shape :=
  if (s.h h).loaded then .ok (s.h h) else .error { code := 8, reason := 1, opnd := 4, c0 := h.toNat }

/-- A copy with the geometry of a shape. -/
def Copy.withShape (c : Copy) (h : Shape) (g sp : Nat) : Copy :=
  { c with rows := h.rows, rowb := h.rowb, gpitch := h.gpitch, spitch := h.spitch, gbase := g, sbase := sp, fmt := h.fmt,
           units := h.rows * (h.rowb / 64), bytes := h.rows * h.rowb }

/-- Steps 2 to 6 of a copy between G and the scratchpad: alignment, window, the index list for an indexed copy, translation, barrier. -/
def State.checkCopy (s : State) (c : Copy) (need : Need) (ai : Option (BitVec 4)) (bar : Option (BitVec 2)) :
    Except FaultInfo Copy :=
  let io := match ai with | some r => (s.a r).toNat % spMod | none => 0
  if c.gbase % 64 ≠ 0 then .error { code := 2, opnd := 0, space := spG, addr := c.gbase }
  else if c.sbase % 64 ≠ 0 then .error { code := 2, opnd := 1, space := spSP, addr := c.sbase }
  else if ai.isSome ∧ io % 4 ≠ 0 then .error { code := 2, opnd := 3, space := spSP, addr := io }
  else
    match windowRows s.me c.sbase c.spitch c.rowb 1 c.rows 0 with
    | some f => .error f
    | none =>
      match (if ai.isSome then s.me.windowFail io (4 * c.rows) else none) with
      | some w => .error { code := 1, opnd := 3, c0 := (w - io) / 4, space := spSP, addr := w }
      | none =>
       match (if ai.isSome then s.spBadIn s.here.core s.here.slot io (4 * c.rows) else none) with
       | some b => .error { code := 6, opnd := 3, c0 := (b - io) / 4, space := spSP, addr := b, baddr := some b }
       | none =>
        let idx := if ai.isSome then (List.range c.rows).map fun r => leNat (s.mySp (io + 4 * r) 4) else []
        let c := { c with idx := idx }
        match s.translateRows (some s.here.core) s.myMx need 0 c.rowb ((List.range c.rows).map fun r => (r, c.rowG r)) [] with
        | .error f => .error f
        | .ok ps =>
          match s.barCheckOpt bar with
          | .error f => .error f
          | .ok b => .ok { c with pages := ps, bar := b.1, barPage := b.2 }

/-- The sills an inbound copy lands in. -/
def Copy.sills (c : Copy) (x : Stream) : List Nat :=
  ((List.range c.rows).flatMap fun r => x.sillsOf (c.rowS r) c.rowb).eraseDups

/-- A checked copy starts: its tag is issued, its sills are granted (R158, R240). -/
def State.startCopy (s : State) (c : Copy) (inbound : Bool) (y : Sync) : State :=
  let k := s.here.core
  let s1 := if inbound then s.setCore k ((s.core k).grant c.id (c.sills s.me)) else s
  let s2 := { s1 with copies := s1.copies ++ [c], nextId := s1.nextId + 1 }
  ((s2.setMe (s2.me.tagIssue c.tag)).withdraw k s.here.slot).doneY y

/-- The outcome of a copy word. -/
def State.runCopy (s : State) (p : Except FaultInfo Copy) (inbound : Bool) (y : Sync) : Out :=
  match p with
  | .error f => .next (s.raise f)
  | .ok c => .next (s.startCopy c inbound y)

/-! Copy words -/

/-- TLOAD and TSTORE as copies. -/
def State.tilePlan (s : State) (kind : CopyKind) (need : Need) (w : FormT) : Except FaultInfo Copy :=
  match s.loadedShape w.h with
  | .error f => .error f
  | .ok h =>
    s.checkCopy ((s.copyOf kind w.cs w.tag.toNat).withShape h (s.a w.ag).toNat ((s.a w.as').toNat % spMod)) need none w.bar

def execTload (w : FormT) (s : State) : Out := s.runCopy (s.tilePlan .tload .read w) true w.y
def execTstore (w : FormT) (s : State) : Out := s.runCopy (s.tilePlan .tstore .write w) false w.y

/-- GATHER and SCATTER as copies. -/
def State.indexPlan (s : State) (kind : CopyKind) (need : Need) (w : FormT) (ai : BitVec 4) : Except FaultInfo Copy :=
  match s.loadedShape w.h with
  | .error f => .error f
  | .ok h =>
    s.checkCopy ((s.copyOf kind w.cs w.tag.toNat).withShape h (s.a w.ag).toNat ((s.a w.as').toNat % spMod)) need (some ai) w.bar

def execGather (w : FormT) (ai : BitVec 4) (s : State) : Out := s.runCopy (s.indexPlan .gather .read w ai) true w.y
def execScatter (w : FormT) (ai : BitVec 4) (s : State) : Out := s.runCopy (s.indexPlan .scatter .write w ai) false w.y

/-- The element types REDM takes for an operator (R248). -/
def redmFmtOk (f : Nat) (op : BitVec 4) : Bool :=
  if op = 8 then f == 12 else f == 2 || f == 3 || f == 6 || f == 7

/-- REDM. -/
def State.redmPlan (s : State) (w : FormT) (op : BitVec 4) : Except FaultInfo Copy :=
  match s.loadedShape w.h with
  | .error f => .error f
  | .ok h =>
    if redmFmtOk h.fmt.toNat op then
      s.checkCopy ((s.copyOf (.redm op) w.cs w.tag.toNat).withShape h (s.a w.ag).toNat ((s.a w.as').toNat % spMod)) .write none w.bar
    else .error { code := 8, reason := 8, opnd := 4, c0 := w.h.toNat }

def execRedm (w : FormT) (op : BitVec 4) (s : State) : Out := s.runCopy (s.redmPlan w op) false w.y

/-! Tensor tiles (R246) -/

def Tensor.tw (x : Tensor) : Nat := 64 * 2 ^ x.shape
def Tensor.th (x : Tensor) : Nat := 64 / 2 ^ x.shape

/-- The tensor that the TID of an address register names, of the micro-context or of the device. -/
def State.tensorNamed (s : State) (t : Nat) : Except FaultInfo Tensor :=
  match ((s.mx s.myMx).tensors ++ s.devTensors).find? (fun x => x.tid == t % 2 ^ 20) with
  | none => .error { code := 0xA, reason := 1, c0 := bits t 39 20, c1 := bits t 63 40, aux := t % 2 ^ 20 }
  | some x => .ok x

/-- A tile of a tensor: TH rows of TW bytes, of which the rows and bytes inside the tensor are read, with the scratchpad pitch of a shape. -/
def State.tensorTile (s : State) (cs : Cs) (tag : Nat) (hn : BitVec 4) (spitch sb t : Nat) (x : Tensor) : Except FaultInfo Copy :=
  let tx := bits t 39 20
  let ty := bits t 63 40
  if x.rowb ≤ tx * x.tw ∨ x.rows ≤ ty * x.th then .error { code := 0xA, reason := 2, c0 := tx, c1 := ty, aux := t % 2 ^ 20 }
  else if spitch < x.tw then .error { code := 8, reason := 6, opnd := 4, c0 := hn.toNat }
  else if 258048 < (x.th - 1) * spitch + x.tw then .error { code := 8, reason := 7, opnd := 4, c0 := hn.toNat }
  else
    let vr := min x.th (x.rows - ty * x.th)
    let vc := min x.tw (x.rowb - tx * x.tw)
    let c : Copy :=
      { s.copyOf .tloadx cs tag with
        rows := x.th, rowb := x.tw, gpitch := x.pitch, spitch := spitch,
        gbase := (x.base.toNat + ty * x.th * x.pitch + tx * x.tw) % 2 ^ 64, sbase := sb, units := 64, bytes := 4096,
        vrows := vr, vcols := vc, tidx := t % 2 ^ 20 }
    match s.translateRows (some s.here.core) s.myMx .read 0 vc ((List.range vr).map fun r => (r, c.rowG r)) [] with
    | .error f => .error f
    | .ok ps => .ok { c with pages := ps }

/-- A TLOADX: shape, alignment, tensor, window, tile and barrier (R237, R246). DESIGN CHOICE (log 69): NOTDECL comes before the window, which the tensor's
TW and TH bound, and the shape faults SPAN and PITCH of R246 after the window with the tile, at step 4 of R237 rather than step 1. -/
def State.tensorPlan (s : State) (w : FormT) : Except FaultInfo Copy :=
  match s.loadedShape w.h with
  | .error f => .error f
  | .ok h =>
    let sb := (s.a w.as').toNat % spMod
    let t := (s.a w.ag).toNat
    if sb % 64 ≠ 0 then .error { code := 2, opnd := 1, space := spSP, addr := sb }
    else
      match s.tensorNamed t with
      | .error f => .error f
      | .ok x =>
        match windowRows s.me sb h.spitch x.tw 1 x.th 0 with
        | some f => .error f
        | none =>
          match s.tensorTile w.cs w.tag.toNat w.h h.spitch sb t x with
          | .error f => .error f
          | .ok c =>
            match s.barCheckOpt w.bar with
            | .error f => .error f
            | .ok b => .ok { c with bar := b.1, barPage := b.2 }

def execTloadx (w : FormT) (s : State) : Out := s.runCopy (s.tensorPlan w) true w.y

/-! Casement fills (R249) -/

/-- A matrix fault of a fill. -/
def fillFault (reason opnd : Nat) : FaultInfo := { code := 9, reason := reason, opnd := opnd }

/-- A CFILL before its ownership check: the tile of G, to the back pane at this moment. -/
def State.fillCopy (s : State) (kind : CopyKind) (w : FormT) (h : Shape) : Copy :=
  let cw := (s.core s.here.core).cw
  let g := (s.a w.ag).toNat
  { (s.copyOf kind w.cs w.tag.toNat).withShape h (if kind = .cfillPeer then g % paneBlocks else g) ((s.a w.as').toNat % paneBlocks) with
    pane := !cw.front, swings := cw.swings }

/-- CFILL from G up to step 6. -/
def State.cfillPlan (s : State) (w : FormT) : Except FaultInfo Copy :=
  match s.loadedShape w.h with
  | .error f => .error f
  | .ok h =>
    let c := s.fillCopy .cfill w h
    if c.gbase % 64 ≠ 0 then .error { code := 2, opnd := 0, space := spG, addr := c.gbase }
    else
      match s.translateRows (some s.here.core) s.myMx .read 0 c.rowb ((List.range c.rows).map fun r => (r, c.rowG r)) [] with
      | .error f => .error f
      | .ok ps => .ok { c with pages := ps }

/-- The casement taken by a team (R97): FCNT and both valid bits 0. -/
def Casement.take (c : Casement) (m : Nat) : Casement :=
  if c.owner.isNone then { c with owner := some m, fcnt := 0, valF := false, valB := false } else c

/-- Another team owns the core's casement. -/
def State.cwTaken (s : State) (core m : Nat) : Bool :=
  match (s.core core).cw.owner with
  | some o => o != m
  | none => false

/-- A fill takes the casement; a SWING of the team that waits there is no longer what the ownership rests on. -/
def State.takeCw (s : State) (core m : Nat) : State :=
  let c := s.core core
  s.setCore core { c with
    cw := c.cw.take m, streams := c.streams.map fun e => (e.1, { e.2 with swing := e.2.swing.map fun w => { w with took := false } }) }

def execCfill (w : FormT) (s : State) : Out :=
  match s.cfillPlan w with
  | .error f => .next (s.raise f)
  | .ok c =>
    let k := s.here.core
    if s.cwTaken k s.myMx then .next (s.raise (fillFault 1 1))
    else .next ((s.takeCw k s.myMx).startCopy c false w.y)

/-- Mullion slots of a tier that a team holds in a column (R309). -/
def State.mullSlots (s : State) (stack col tier m : Nat) : Nat :=
  ((List.range 16).filter fun k =>
    let e := AMap.get MullSlot.reset s.mull (16 * (64 * stack + col) + k)
    e.valid && e.mx == m && e.tier == tier).length

/-- The core of another tier of the running stream's column, and that column. -/
def State.peerCore (s : State) (t : Nat) : Nat × Nat × Nat :=
  let st := s.here.core / 512
  let col := (s.colOf s.here.core).getD 0
  (s.coreOf st t col, st, col)

/-- CFILL from the front pane of a peer tier. -/
def execCfillPeer (w : FormT) (pt : BitVec 2) (s : State) : Out :=
  match s.loadedShape w.h with
  | .error f => .next (s.raise f)
  | .ok h =>
    let c := s.fillCopy .cfillPeer w h
    let k := s.here.core
    let (p, st, col) := s.peerCore pt.toNat
    if s.cwTaken k s.myMx then .next (s.raise (fillFault 1 1))
    else if pt.toNat = k / 128 % 4 then .next (s.raise (fillFault 5 0))
    else if s.mullSlots st col pt.toNat s.myMx = 0 then .next (s.raise (fillFault 6 0))
    else if (s.core p).cw.owner ≠ some s.myMx then .next (s.raise (fillFault 1 0))
    else if (s.core p).cw.valF = false then .next (s.raise (fillFault 2 0))
    else .next ((s.takeCw k s.myMx).startCopy { c with peer := p } false w.y)

/-! Requests and replies (R254, R255) -/

/-- Every header of the ring can be read. -/
def State.ringReadable (s : State) (m : Nat) : Bool :=
  (List.range (s.mx m).ringLen).all fun i => (s.entryField m i 0 24).isSome

/-- The oldest untaken entry is taken: its VA, 0 when there is none or a header cannot be read or written. -/
def State.takeEntry (s : State) (m : Nat) : Word × State :=
  if !s.ringReadable m then (0, s)
  else match s.oldestFilled m with
    | none => (0, s)
    | some (i, _) =>
      match s.writeVa none m ((s.mx m).entryVa i) [2] with
      | .error _ => (0, s)
      | .ok t => (BitVec.ofNat 64 ((s.mx m).entryVa i), t.setMx m ((t.mx m).bump 1 1))

/-- PKT.TAKE. -/
def execPktTake (y : Sync) (d : BitVec 4) (s : State) : Out :=
  let (v, s1) := s.takeEntry s.myMx
  .next ((s1.setA d v).doneY y)

/-- A PKT.EMIT as it goes on its way, or the fault of its checks at issue. -/
def State.emitPlan (s : State) (cs : Cs) (a q l ar : BitVec 4) (tag : BitVec 6) (fin : Bool) : Except FaultInfo Emit :=
  let va := (s.a ar).toNat
  let off := (s.a a).toNat % spMod
  let n := (s.a l).toNat
  if va % 8 ≠ 0 then .error { code := 2, opnd := 0, space := spG, addr := va }
  else
    match (if 1 ≤ n ∧ n ≤ 9216 then s.me.windowFail off n else none) with
    | some w => .error { code := 1, opnd := 1, c0 := w - off, space := spSP, addr := w }
    | none =>
      if (spAlias va).isSome then .error ((xlNonCanon 1 4).info 0 0 0 spG va)
      else
        match s.access (some s.here.core) s.myMx va .write false with
        | .error e => .error (e.info 0 0 0 (s.spaceOf va) va)
        | .ok x =>
          .ok { id := s.nextId, ref := s.myRef, cls := cs.cls, scope := cs.scope, tag := tag.toNat, fin := fin,
                entry := (s.a q).toNat, n := n, off := off, gens := s.me.banks, statVa := va, stat := x.page }

/-- PKT.EMIT. -/
def execPktEmit (y : Sync) (cs : Cs) (a q l : BitVec 4) (tag : BitVec 6) (fin : Bool) (ar : BitVec 4) (s : State) : Out :=
  match s.emitPlan cs a q l ar tag fin with
  | .error f => .next (s.raise f)
  | .ok e =>
    let s1 := { s with emits := s.emits ++ [e], nextId := s.nextId + 1 }
    .next (((s1.setMe (s1.me.tagIssue e.tag)).withdraw s.here.core s.here.slot).doneY y)

end Sys2Proof.Machine
end

