-- ==== Sys2Proof/Machine/Copies.lean ====
section
/-! DEFINITION. Copies in flight (R156 to R159, R187, R238 to R249, R353): one 64-byte unit performed at a time, and the completion with its
credit, its tag and its pending error. -/

namespace Sys2Proof.Machine

/-! Units and panes -/

/-- The physical address a unit writes in G, where its page is known. -/
def Copy.unitPa (c : Copy) (n : Nat) : Option Nat := (pageOf c.dstPages (c.unitG n)).map fun e => e.paOf (c.unitG n)

/-- Two units of a copy write one location: by one virtual address, or by two of one frame. -/
def Copy.samePlace (c : Copy) (k n : Nat) : Bool := c.unitG k == c.unitG n || ((c.unitPa n).isSome && c.unitPa k == c.unitPa n)

/-- Another unit of a higher row has left its bytes at the same place (R245, R247). -/
def Copy.overwritten (c : Copy) (n : Nat) : Bool :=
  match c.kind with
  | .tstore => c.done.any fun k => decide (c.rowOf n < c.rowOf k) && c.samePlace k n
  | .scatter => c.done.any fun k => decide (c.rowOf n < c.rowOf k) && c.samePlace k n
  | _ => false

def Casement.pane (c : Casement) (p : Bool) : Memory := if p then c.pane1 else c.pane0
def Casement.priv (c : Casement) (p : Bool) : Bool := if p then c.priv1 else c.priv0

/-- Blocks of a pane whose data is uncorrectable. -/
def Casement.bad (c : Casement) (p : Bool) : List Nat := if p then c.bad1 else c.bad0

/-- Those of them that a spare row has taken over as they were (R413). -/
def Casement.carried (c : Casement) (p : Bool) : List Nat := if p then c.carried1 else c.carried0
def Casement.setCarried (c : Casement) (p : Bool) (l : List Nat) : Casement := if p then { c with carried1 := l } else { c with carried0 := l }

/-- A block written into a pane by a fill (R99, R340); it holds good data again (log 42). -/
def Casement.fill (c : Casement) (p : Bool) (blk : Nat) (l : List Byte) (priv : Bool) : Casement :=
  let m := (c.pane p).writeN (64 * blk) l
  let bad := (c.bad p).filter (· != blk)
  let carried := (c.carried p).filter (· != blk)
  if p then { c with pane1 := m, priv1 := c.priv1 || priv, bad1 := bad, carried1 := carried, fcnt := c.fcnt + 64 }
  else { c with pane0 := m, priv0 := c.priv0 || priv, bad0 := bad, carried0 := carried, fcnt := c.fcnt + 64 }

/-! Performing a unit -/

/-- What a source gives: bytes and whether they make a pane private; a changed owner; an uncorrectable block, with the operand, the space and
the address it is reported by. -/
inductive SrcRead where
  | bytes (l : List Byte) (priv : Bool)
  | stale
  | bad (opnd space addr : Nat)

def State.readUnit (s : State) (c : Copy) (n : Nat) : SrcRead :=
  match c.src n with
  | .zero => .bytes (List.replicate 64 0) true
  | .data l => .bytes l true
  | .pane k b =>
    let cw := (s.core k).cw
    if (cw.bad cw.front).contains b then .bad 0 spCW (64 * b) else .bytes ((cw.pane cw.front).readN (64 * b) 64) (cw.priv cw.front)
  | .sp o =>
    match s.refCore c.ref with
    | none => .stale
    | some k =>
      match s.ownedAt k c.gens o with
      | none => .stale
      | some a =>
        if (s.core k).spBad.contains (a / 64) then (if c.kind = .bt then .bad 0 spSP (spAliasBase + o) else .bad 1 spSP o)
        else .bytes ((s.core k).sp.readN a 64) true
  | .g va =>
    match pageOf c.srcPages va with
    | none => .bad 0 spG va
    | some e =>
      let pa := e.paOf va
      if s.badBlk (pa / 64) then .bad 0 spG va else .bytes (s.readPa (if e.enc then some c.kslot else none) pa 64) (!isFlash pa)

/-- What a destination makes of a unit: a new state; elements on their way to their homes; a changed owner; a refused write. -/
inductive DstWrite where
  | ok (s : State)
  | sent (s : State)
  | stale
  | refused (va : Nat)

/-- Element bytes of a REDM shape. -/
def redSize (fmt : BitVec 8) : Nat := if fmt = 3 ∨ fmt = 7 then 8 else 4

/-- One element of a REDM goes to its home as a reduction of its own, at offset `o` of the unit (R248). -/
def State.sendElement (s : State) (c : Copy) (n va : Nat) (op : BitVec 4) (e : TlbEntry) (l : List Byte) (o : Nat) : State :=
  s.post
    { id := s.nextId, ref := some c.ref, mx := c.ref.mx, op := .atomic op (redSize c.fmt) (BitVec.ofNat 64 (fieldLe l o (redSize c.fmt))) 0 false,
      va := va + o, pa := e.paOf va + o, ipa := e.ipaOf va + o, enc := e.enc, page := some e, io := false, cls := c.cls, scope := c.scope,
      acq := 0, rel := 0, win := [], dest := none, bw := none, performed := false, result := 0, err := none, unit := some (c.id, n),
      merged := [], into := none, fwd := false }

/-- A frame whose writes are refused after their issue: of a code segment that has passed its scan, whose registration waited for the writes
issued before it (R51), under SIGCHK, or of the flash region. -/
def State.frameSealed (s : State) (f : Nat) : Bool :=
  s.segs.any (fun e => e.2.ok && e.2.frames.contains f) || s.mxs.any (fun e => e.2.locks.contains f) || isFlash (4096 * f)

def State.writeUnit (s : State) (c : Copy) (n : Nat) (l : List Byte) (priv : Bool) : DstWrite :=
  let atPage := fun (va : Nat) (f : TlbEntry → DstWrite) =>
    match pageOf c.dstPages va with
    | none => DstWrite.refused va
    | some e => if s.frameSealed (e.paOf va / 4096) then .refused va else f e
  match c.dst n with
  | .sp o =>
    match (s.refCore c.ref).bind fun k => (s.ownedAt k c.gens o).map fun a => (k, a) with
    | none => .stale
    | some (k, a) =>
      .ok (s.setCore k { s.core k with sp := (s.core k).sp.writeN a l, spBad := (s.core k).spBad.filter (· != a / 64) })
  | .g va =>
    atPage va fun e =>
      .ok (({ s with badBlks := s.badBlks.filter (· != e.paOf va / 64) }.writePa (if e.enc then some c.kslot else none) (e.paOf va) l).logDirty
        (s.mx c.ref.mx).part (e.ipaOf va))
  | .red va op =>
    atPage va fun e => .sent (((List.range (64 / redSize c.fmt)).map (redSize c.fmt * ·)).foldl (fun t o => t.sendElement c n va op e l o) s)
  | .pane b =>
    match s.refCore c.ref with
    | none => .ok s
    | some k =>
      let cw := (s.core k).cw
      if cw.owner ≠ some c.ref.mx ∨ cw.swings ≠ c.swings then .ok s
      else .ok (s.setCore k { s.core k with cw := cw.fill c.pane b l priv })

/-- The error of a unit on a copy: the first one is kept (R241); a block-transfer copy keeps its status (R261). DESIGN CHOICE (log 69): the first failing
block is the one whose unit was performed first, and further failing blocks of the same copy count in no counter. -/
def Copy.fail (c : Copy) (n code opnd space va : Nat) : Copy :=
  let e : PendErr :=
    { code := code, reason := 0, opnd := opnd, stglv := 0, coord0 := c.rowOf n, coord1 := c.colOf n, space := space, addr := va,
      baddr := some (va / 64 * 64) }
  if c.kind = .bt then
    (if c.status = 0 then { c with status := if code = 6 then 6 else 3, fva := va } else c)
  else if c.err.isNone then { c with err := some e } else c

/-- A unit is done; `moved` counts the bytes a block transfer has written. -/
def Copy.mark (c : Copy) (n : Nat) (moved : Bool) : Copy :=
  { c with done := n :: c.done, res := if c.kind = .bt ∧ moved then c.res + 64 else c.res }

/-- The address of a unit's scratchpad side, as a block transfer reports it. -/
def Copy.spSide (c : Copy) (n : Nat) : Nat :=
  match c.src n, c.dst n with
  | .sp o, _ => spAliasBase + o
  | _, .sp o => spAliasBase + o
  | _, _ => 0

/-- A unit met a changed owner tag. -/
def Copy.markStale (c : Copy) (n : Nat) : Copy :=
  let c1 := { c.mark n false with stale := n :: c.stale }
  if c.kind = .bt ∧ c.status = 0 then { c1 with status := 1, fva := c.spSide n } else c1

/-- A sill whose last byte of the copy has landed becomes FREE (R159). -/
def State.freeSill (s : State) (c : Copy) (n : Nat) : State :=
  match c.sillOfUnit n, s.refCore c.ref with
  | some k, some core =>
    if (List.range c.units).all fun m => c.done.contains m || c.sillOfUnit m != some k then
      s.setCore core { s.core core with sills := (s.core core).sills.filter fun e => !(e.1 == k && e.2 == c.id) }
    else s
  | _, _ => s

/-! Turns (R348) -/

/-- The unit has the turns of the resources its homes belong to. -/
def State.unitTurn (s : State) (c : Copy) (n : Nat) : Bool :=
  (c.unitPas n).all fun pa => match homeResource pa with
    | some k => s.hasTurn k (s.mx c.ref.mx).part (s.waitingAt k)
    | none => true

/-- What a unit's way leaves: the turns pass on, its blocks of the slices are used (R171), its bytes count as accessed (R318), a peer fill's
unit fills a quarter of its slot (R17), and correctable errors of what it read are counted (R416). -/
def State.unitServed (s : State) (c : Copy) (n : Nat) : State :=
  let s1 := (c.unitPas n).foldl (fun t pa => match homeResource pa with | some k => t.served k (t.mx c.ref.mx).part | none => t) s
  let at' := fun (t : State) (l : List TlbEntry) (tid va : Nat) =>
    (match pageOf l va with | some e => t.hit (some c.ref.mx) tid (e.paOf va) 64 | none => t).touch c.ref va 64
  let s2 := match c.src n with
    | .g va => at' s1 c.srcPages (if c.kind = .tloadx then c.tidx else 0) va
    | .pane k b => (s1.mullTake (s1.busOf c.peer) 1).correct (.pane k (s.core k).cw.front) b
    | .sp o => s1.spMet c.ref c.gens o 64
    | _ => s1
  match c.dst n with
  | .g va => at' s2 c.dstPages 0 va
  | _ => s2

/-- COPY_UNIT_PERFORMED: unit `n` of a copy. -/
def execCopyUnitPerformed (id n : Nat) (s : State) : Out :=
  match s.copy id with
  | none => .next s
  | some c0 =>
    if !s.unitOpen c0 n then .next s
    else
      match s.btGrant c0 with
      | none => .next s
      | some (s0, c) =>
        if !(s0.unitReady c n && s0.unitTurn c n) then .next s0
        else if c.overwritten n then .next ((s0.setCopy (c.mark n true)).freeSill (c.mark n true) n)
        else
          let fin := fun (t : State) (c' : Copy) => Host.Outcome.next ((t.setCopy c').freeSill c' n)
          match s0.readUnit c n with
          | .stale => fin s0 (c.markStale n)
          | .bad o k va => fin (s0.unitServed c n) ((c.fail n 6 o k va).mark n false)
          | .bytes l p =>
            match s0.writeUnit c n l p with
            | .stale => fin s0 (c.markStale n)
            | .refused va => fin (s0.unitServed c n) ((c.fail n 4 0 spG va).mark n false)
            | .sent t => .next ((t.unitServed c n).setCopy { c with sent := n :: c.sent })
            | .ok t => fin (t.unitServed c n) (c.mark n true)

/-! Completion (R240 to R242) -/

/-- Every unit has been performed, discarded or dropped. -/
def Copy.allDone (c : Copy) : Bool := (List.range c.units).all fun n => c.done.contains n

/-- The sills of a copy become FREE. -/
def State.ungrant (s : State) (c : Copy) : State :=
  match s.refCore c.ref with
  | some k => s.setCore k ((s.core k).ungrant c.id)
  | none => s

/-- The flags of a landed status record reach ASTK (R277). -/
def State.recordFlags (s : State) (c : Copy) : State :=
  if c.kind = .kvRes then s.updRef c.ref fun x => { x with flags := x.flags ||| c.sflg } else s

/-- COPY_COMPLETION: the credit, the pending error of the tag, then the tag. A copy that met a changed owner tag ends for its issuer
alone. -/
def execCopyCompletion (id : Nat) (s : State) : Out :=
  match s.copy id with
  | none => .next s
  | some c =>
    if c.kind == .bt || c.frozen || !c.allDone then .next s
    else
      let s1 := (s.ungrant c).dropCopy id
      if c.stale ≠ [] then .next s1
      else
        let s2 := match c.bar with
          | some w => s1.credit c.ref w c.bytes c.barPage c.cls c.scope
          | none => s1
        let s3 := match c.err with
          | some e => s2.tagError c.ref c.tag e
          | none => s2
        .next ((((s3.recordFlags c).updRef c.ref fun x => x.tagDone c.tag)).count c.ref.mx 6 1)

end Sys2Proof.Machine
end

