-- ==== Sys2Proof/Machine/Matrix.lean ====
section
/-! DEFINITION. The brick array (R90 to R116): accumulator values, K-groups, the matrix words of CM, the casement's exchange, the sign
store, and peer images. -/

namespace Sys2Proof.Machine

/-! Accumulator values (R90, Table 5.1) -/

def fACC48 : FFmt := { eb := 9, mb := 38 }

/-- The canonical NaN of an accumulator. -/
def accNan : Acc48 := 0x7FE000000000

def accDec (x : Acc48) : XV :=
  match fACC48.dec x.toNat with
  | .nan n p s => .nan n (p / 2 ^ 15) s
  | v => v

def accIsNan (x : Acc48) : Bool := (accDec x).isNan

/-- RoundACC: rounding to an accumulator, RNE (R90). A NaN is quieted (R78). -/
def roundAcc (x : XV) : Acc48 × Flags :=
  match x with
  | .nan n p sg => (BitVec.ofNat 48 (fACC48.signed n (fACC48.infCode + (p * 2 ^ 15 ||| 2 ^ 37))), { iv := sg })
  | v =>
    let r := fACC48.enc .rne v
    (BitVec.ofNat 48 r.1, r.2)

/-- Element (i, j) of accumulator n. -/
def Stream.accAt (x : Stream) (n i j : Nat) : Acc48 := AMap.get 0 x.acc (4096 * n + 64 * i + j)

/-- Accumulator `n` replaced by 4,096 elements in order. -/
def Stream.setAcc (x : Stream) (n : Nat) (l : List Acc48) : Stream :=
  let lo := x.acc.filter fun e => decide (e.1 < 4096 * n)
  let hi := x.acc.filter fun e => decide (4096 * (n + 1) ≤ e.1)
  let new := l.zipIdx.filterMap fun e => if e.1 = 0 then none else some (4096 * n + e.2, e.1)
  { x with acc := lo ++ new ++ hi }

/-- Accumulator `n` becomes +0. -/
def Stream.clearAcc (x : Stream) (n : Nat) : Stream := x.setAcc n []

/-- The places of a 64 × 64 tile in order. -/
def tile : List (Nat × Nat) := (List.range 4096).map fun k => (k / 64, k % 64)

/-- The 24,576 bytes of an accumulator's image (R100). -/
def Stream.image (x : Stream) (n : Nat) : List Byte := tile.flatMap fun p => leBytes 6 (x.accAt n p.1 p.2).toNat

def imageBytes : Nat := 24576

/-! K-groups (R90, R94, R96) -/

/-- A stored element of a K-group: its position in the group, sign, magnitude and the exponent of its unit. -/
structure KElem where
  pos : Nat
  neg : Bool
  mag : Nat
  exp : Int

/-- A K-group of an operand row. -/
structure KGroup where
  nan : Bool
  els : List KElem

/-- K-groups of a block's format (Table 5.4). -/
def groupsOf (f : Nat) : Nat :=
  match f with
  | 0x01 => 4 | 0x02 => 2 | 0x03 => 1 | 0x10 => 3 | 0x11 => 1 | 0x21 => 5 | 0x22 => 3 | 0x23 => 1 | _ => 0

def isSparse (f : Nat) : Bool := decide (0x21 ≤ f ∧ f ≤ 0x23)

/-- Stored element `t` of group `g` of a sparse block of magnitude width `m` (R96). -/
def sparseElem (m s pay g t : Nat) : KElem :=
  let base := g * (40 + 16 * (m + 2))
  let offs := pay / 2 ^ base % 256
  let nib := pay / 2 ^ (base + 8 + 4 * (t / 2)) % 16
  let x := pay / 2 ^ (base + 40 + t * (m + 2)) % 2 ^ (m + 2)
  let off := if bit x (m + 1) then offs % 16 else offs / 16
  { pos := 4 * (t / 2) + (if t % 2 = 0 then nib % 4 else nib / 4), neg := bit x m, mag := x % 2 ^ m,
    exp := (s : Int) - 127 - (off : Int) - (m : Int) }

/-- Group `g` of a block. -/
def blkGroup (b : Blk) (g : Nat) : KGroup :=
  let f := Blk.f b
  if Blk.isNan b then { nan := true, els := [] }
  else if isSparse f then
    { nan := false, els := (List.range 16).map fun t => sparseElem (tsbWidth (f - 0x20)) (Blk.s b) (Blk.payload b) g t }
  else
    { nan := false, els := (List.range 32).map fun j =>
        let (n, m, e) := exactElem b (32 * g + j)
        { pos := j, neg := n, mag := m, exp := e } }

def blkGroups (b : Blk) : List KGroup := (List.range (groupsOf (Blk.f b))).map (blkGroup b)

/-- The exact sum of numbers v × 2^e. -/
def exactSum (l : List (Int × Int)) : XV :=
  let e0 := l.foldl (fun m x => min m x.2) 0
  let v := l.foldl (fun a x => a + x.1 * ((2 ^ (x.2 - e0).toNat : Nat) : Int)) 0
  XV.exact (decide (v < 0)) v.natAbs e0

/-- GroupTerm without its NaN case (R90): the exact contribution of a K-group. -/
def groupTerm (a b : KGroup) : XV :=
  exactSum (b.els.filterMap fun y =>
    (a.els.find? fun x => x.pos == y.pos).map fun x =>
      ((if x.neg = y.neg then ((x.mag * y.mag : Nat) : Int) else -((x.mag * y.mag : Nat) : Int)), x.exp + y.exp))

/-- Accumulate (R90): the element after one K-group. DESIGN CHOICE (log 65): where t + RoundACC(c) is exactly zero, the element is +0. -/
def accumulate (t : Acc48) (a b : KGroup) : Acc48 × Flags :=
  if a.nan || b.nan then (if accIsNan t then t else accNan, { nb := true })
  else
    let c := groupTerm a b
    match accDec t with
    | .fin n m e st =>
      if c.isZero then (t, {})
      else
        let r := roundAcc c
        let q := roundAcc ((XV.add false (.fin n m e st) (accDec r.1)).1)
        (q.1, r.2.or q.2)
    | _ => (t, {})

/-- Accumulation of the K-groups of a row of A and a row of B in K order. -/
def accumulateAll (t : Acc48) (as bs : List KGroup) : Acc48 × Flags :=
  (as.zip bs).foldl (fun acc p => let r := accumulate acc.1 p.1 p.2; (r.1, acc.2.or r.2)) (t, Flags.none)

/-! Operand rows (R92 to R95) -/

/-- The magnitude width of a format under a ceiling; none where it has none. -/
def magWidth (f : Nat) : Option Nat :=
  match f with
  | 0x21 => some 1 | 0x22 => some 5 | 0x23 => some 13
  | _ => (blkFmt f).bind (·.width)

/-- The format fault of a block of A or B under a ceiling (R73, R92): the lowest reason. DESIGN CHOICE (log 43): INT32S, which Table 4.1 says is
not accepted under a ceiling and R92 reports as WIDTH, is reported under WIDTH (4), not under NOTACC (3). -/
def bricksReason (f : Nat) (sparseOk : Bool) (ceil : Nat) : Option Nat :=
  match formatReason f (isMatrixFormat f || (sparseOk && isSparse f)) with
  | some r => some r
  | none =>
    if f == 0x12 then some 4
    else match magWidth f with
      | some w => if ceil < w then some 4 else none
      | none => some 4

/-- A precise format fault at a block. -/
def formatFault (reason opnd c0 c1 space addr : Nat) (baddr : Option Nat) : FaultInfo :=
  { code := 5, reason := reason, opnd := opnd, c0 := c0, c1 := c1, space := space, addr := addr, baddr := baddr }

/-- Where a row's blocks come from: block `b` of row `r`, first used at K position `k`. -/
abbrev RowFetch := Nat → Nat → Nat → Except FaultInfo Blk

/-- The K-groups of a row: blocks are read until `need` groups have been taken; `n` bounds the blocks. -/
def rowGroups (fetch : RowFetch) (r : Nat) : Nat → Nat → List KGroup → Nat → Except FaultInfo (List KGroup × Bool)
  | 0, _, acc, _ => .ok (acc, true)
  | n + 1, need, acc, b =>
    if need ≤ acc.length then .ok (acc, true)
    else
      match fetch r b (32 * acc.length) with
      | .error f => .error f
      | .ok x =>
        match rowGroups fetch r n need (acc ++ blkGroups x) (b + 1) with
        | .error f => .error f
        | .ok (l, s) => .ok (l.take need, s && isSparse (Blk.f x))

/-- The rows of an operand from row `r` on; the second part tells that every block read was sparse. -/
def allRows (fetch : RowFetch) (need : Nat) : Nat → Nat → Except FaultInfo (List (List KGroup) × Bool)
  | 0, _ => .ok ([], true)
  | n + 1, r =>
    match rowGroups fetch r need need [] 0 with
    | .error f => .error f
    | .ok (g, s) =>
      match allRows fetch need n (r + 1) with
      | .error f => .error f
      | .ok (l, s') => .ok (g :: l, s && s')

/-- A block of the running stream's window read as a described operand (R73, R95, R416). Row `c0` and element `c1` of it place the block, and
`at'` is the number of its first element among the operand's, which a window fault names (Table 20.2, log 40). -/
def State.spOperand (s : State) (opnd c0 c1 at' o : Nat) (reason : Nat → Option Nat) : Except FaultInfo Blk :=
  if !s.me.desc then .error (formatFault 5 opnd c0 c1 spSP o (some o))
  else match s.me.windowFail o 64 with
    | some w => .error { code := 1, opnd := opnd, c0 := at', space := spSP, addr := w }
    | none =>
      if (s.spBadIn s.here.core s.here.slot o 64).isSome then
        .error { code := 6, opnd := opnd, c0 := c0, c1 := c1, space := spSP, addr := o, baddr := some o }
      else
        let x := s.spBlk o
        match reason (Blk.f x) with
        | some r => .error (formatFault r opnd c0 c1 spSP o (some o))
        | none => .ok x

/-- Block `b` of row `r` of A from the scratchpad; a row takes `kg` K-groups. -/
def State.fetchA (s : State) (off stride ceil kg : Nat) : RowFetch := fun r b k =>
  s.spOperand 0 r k (32 * kg * r + k) ((off + 64 * (stride * r + b)) % spMod) fun f => bricksReason f false ceil

/-- Block `b` of row `r` of A from the A-bypass register (R100, R107); an empty slot has F = 0. -/
def State.fetchByp (s : State) (ceil : Nat) : RowFetch := fun r b k =>
  let x := if b < 2 then AMap.get 0 s.me.byp (2 * r + b) else 0
  match bricksReason (Blk.f x) false ceil with
  | some q => .error (formatFault q 0 r k spReg 0 none)
  | none => .ok x

/-- Block `b` of row `r` of B in the front pane of the core's casement. -/
def State.fetchB (s : State) (off stride ceil : Nat) : RowFetch := fun r b k =>
  let cw := (s.core s.here.core).cw
  let i := (off + stride * r + b) % paneBlocks
  let x := blkOfBytes ((cw.pane cw.front).readN (64 * i) 64)
  if (cw.bad cw.front).contains i then
    .error { code := 6, opnd := 1, c0 := r, c1 := k, space := spCW, addr := 64 * i, baddr := some (64 * i) }
  else
    match bricksReason (Blk.f x) true ceil with
    | some q => .error (formatFault q 1 r k spCW (64 * i) (some (64 * i)))
    | none => .ok x

/-- The effective offset of a CM operand, with its alignment fault (R95). -/
def State.cmBlockOff (s : State) (a : CmOff) (opnd : Nat) : Except FaultInfo Nat :=
  let o := s.cmOff a
  if o % 64 ≠ 0 then .error { code := 2, opnd := opnd, space := spSP, addr := o } else .ok o

/-- The rows of A of a brick command. -/
def State.rowsA (s : State) (asrc : Bool) (a : CmOff) (stride ceil kg : Nat) : Except FaultInfo (List (List KGroup)) :=
  if asrc then (allRows (s.fetchByp ceil) kg 64 0).map (·.1)
  else match s.cmBlockOff a 0 with
    | .error f => .error f
    | .ok o => (allRows (s.fetchA o stride ceil kg) kg 64 0).map (·.1)

/-! Rates (R23, R92, R93) -/

/-- The cell rate of two ceilings. -/
def cellRate (ca cb : Nat) : Nat := max 1 (64 / (ceilDiv ca 2 * ceilDiv cb 2))

/-- Brick passes of an MMA. -/
def brickPasses (sparse : Bool) (kg ca cb : Nat) : Nat := ceilDiv ((if sparse then 16 else 32) * kg) (cellRate ca cb)

/-! Residue (R91) -/

/-- Cycles from `t`, a value of RT, until cycles 1 to `n` after them all fall outside the windows of a pane (R98). -/
def paneWait (pane : Bool) (t n : Nat) : Nat :=
  let x := (t + 1 + (if pane then 32768 else 0)) % 65536
  if x < 512 then 512 - x else if 65536 < x + n then 65536 + 512 - x else 0

/-- The cycles a replay waits for a refresh window: it issues when the command has been performed and compared, in all its 6 + N cycles (R91),
four more than the `n` in which it reads the pane; none for a command that reads no pane. -/
def State.replayWait (s : State) (cycles : Option Nat) : Nat :=
  match cycles with
  | none => 0
  | some n => paneWait (s.core s.here.core).cw.front (s.refreshTimer s.here.core + n + 4) n

/-- What residue checking makes of a brick command: nothing; a replay, which sets RM and whose wait for a refresh window is counted (R98); or a
second mismatch, which also raises the fault and the machine check. `cycles` are those in which the command reads the front pane. -/
def State.residue (s : State) (cycles : Option Nat) (k : State → State) : State :=
  let c := s.core s.here.core
  let again := fun (n : Nat) =>
    (((s.setCore s.here.core { c with upset := n }).orFlags { rm := true }).count s.myMx 4 1).count s.myMx 3 (s.replayWait cycles)
  match c.upset with
  | 0 => k s
  | 1 => k (again 0)
  | n + 2 =>
    (((again n).machineCheck 1 (s.here.core / 512 * 128) (s.here.core / 512 * 128 + s.here.core % 128) (some s.here.core)).retireCore
      s.here.core).raise { code := 9, reason := 7 }

/-- A precise matrix fault (Table 5.8). -/
def matrixFault (reason opnd c0 : Nat) : FaultInfo := { code := 9, reason := reason, opnd := opnd, c0 := c0 }

/-! MMA, MMAZ (R107, R108) -/

/-- The checks of an MMA before its reads. DESIGN CHOICE (log 43): R104 names the operand for CWEMPTY only, 1; the model reports operand 1, the
casement's, with NOTOWNER, COUNT and TIMEOUT too, and 0 with SELF, NOSLOT and RESIDUE. -/
def State.frontCheck (s : State) : Option FaultInfo :=
  let cw := (s.core s.here.core).cw
  if cw.owner ≠ some s.myMx then some (matrixFault 1 1 0) else if cw.valF = false then some (matrixFault 2 1 0) else none

/-- The operand rows of an MMA; with them whether every B block is sparse. DESIGN CHOICE (log 60): every A row is read before any B row, which
decides the first fault of R108 where blocks of both fault. -/
def State.mmaRows (s : State) (w : FormMma) : Except FaultInfo (List (List KGroup) × List (List KGroup) × Bool) :=
  let kg := w.kgM1.toNat + 1
  match s.rowsA w.asrc w.a (w.astrM1.toNat + 1) (w.caM1.toNat + 1) kg with
  | .error f => .error f
  | .ok as =>
    match allRows (s.fetchB w.boff.toNat (w.bstrM1.toNat + 1) (w.cbM1.toNat + 1)) kg 64 0 with
    | .error f => .error f
    | .ok (bs, sp) => .ok (as, bs, sp)

/-- Cycles, from 1 after its issue on, in which an MMA reads the front pane (R98). -/
def mmaCycles (w : FormMma) (sparse : Bool) : Nat := brickPasses sparse (w.kgM1.toNat + 1) (w.caM1.toNat + 1) (w.cbM1.toNat + 1) + 2

/-- The elements an MMA writes, in order, with its flags. -/
def mmaResult (old : Nat → Nat → Acc48) (as bs : List (List KGroup)) : List Acc48 × Flags :=
  let l := tile.map fun p => accumulateAll (old p.1 p.2) (as.getD p.1 []) (bs.getD p.2 [])
  (l.map (·.1), l.foldl (fun f e => f.or e.2) Flags.none)

/-- Cycles spent waiting for a refresh window are counted at issue (R98). -/
def State.countRefresh (s : State) : State :=
  match s.me.refreshWait with
  | none => s
  | some t => (s.setMe { s.me with refreshWait := none }).count s.myMx 3 (s.dclk.toNat - t)

/-- MMA, and MMAZ with `z`. -/
def State.runMma (s0 : State) (w : FormMma) (z : Bool) : Out :=
  let s := s0.countRefresh
  match s.frontCheck with
  | some f => .next (s.raise f)
  | none =>
    match s.mmaRows w with
    | .error f => .next (s.raise f)
    | .ok (as, bs, sp) =>
      let n := w.acc.toNat
      let r := mmaResult (fun i j => if z then 0 else s.me.accAt n i j) as bs
      .next (s.residue (some (mmaCycles w sp)) fun t => ((t.setMe (t.me.setAcc n r.1)).orFlags r.2).doneY w.y)

def execMma (w : FormMma) (s : State) : Out := s.runMma w false
def execMmaz (w : FormMma) (s : State) : Out := s.runMma w true

/-! MHROT (R101, R109) -/

/-- H(u, w) is −1. -/
def hadNeg (u w : Nat) : Bool := (List.range 8).foldl (fun p k => xor p (bit u k && bit w k)) false

/-- One step of the generator of the sign diagonals. -/
def signStep (st : BitVec 32) : BitVec 32 := if st.getLsbD 0 then (st >>> 1) ^^^ 0x80200003 else st >>> 1

/-- Sign `n` of the diagonals of a seed is −1; diagonal d holds signs 256 d to 256 d + 255. -/
def signNeg (seed : BitVec 32) (n : Nat) : Bool := (Nat.repeat signStep n seed).getLsbD 0

/-- An exact integer value of an element of a K-group row as (number, exponent). -/
def KElem.val (e : KElem) : Int × Int := ((if e.neg then -(e.mag : Int) else (e.mag : Int)), e.exp)

/-- The o16 and o64 forms: the elements written, with the flags. -/
def mhrotResult (rows : List (List KGroup)) (n : Nat) (shift : Int) (dneg : Nat → Bool) : List Acc48 × Flags :=
  let l := tile.map fun p =>
    let gs := rows.getD p.1 []
    let b := n * (p.2 / n)
    let inSum := (List.range n).map (b + ·)
    if inSum.any fun k => (gs.getD (k / 32) { nan := true, els := [] }).nan then (accNan, { nb := true : Flags })
    else
      let x := exactSum (inSum.filterMap fun k =>
        ((gs.getD (k / 32) { nan := true, els := [] }).els[k % 32]?).map fun e =>
          let v := e.val
          ((if xor (dneg k) (hadNeg (k - b) (p.2 - b)) then -v.1 else v.1), v.2))
      roundAcc (x.scale shift)
  (l.map (·.1), l.foldl (fun f e => f.or e.2) Flags.none)

/-- MHROT in its o16 and o64 forms. -/
def execMhrot (w : FormMhrot) (s : State) : Out :=
  match s.rowsA w.asrc w.a (w.astrM1.toNat + 1) (w.caM1.toNat + 1) 2 with
  | .error f => .next (s.raise f)
  | .ok rows =>
    let seed := (s.core s.here.core).signSeed
    let dneg := fun k => w.dg != 0 && signNeg seed (256 * (w.dg.toNat - 1) + 64 * w.koff.toNat + k)
    let r := mhrotResult rows (if w.ord64 then 64 else 16) (if w.ord64 then -3 else -2) dneg
    -- a NaN block of A sets NB though no output may hold it
    let nb : Flags := { nb := rows.any fun l => l.any (·.nan) }
    .next (s.residue none fun t => ((t.setMe (t.me.setAcc w.acc.toNat r.1)).orFlags (r.2.or nb)).doneY w.y)

/-- One output of the s256 form: the sum over a of y(a) × H(a, a2), times 2^−2 (R109, R78). DESIGN CHOICE (log 65): an exactly zero sum is +0, that of
zeros of sign minus too. -/
def s256Elem (ys : List Acc48) (a2 : Nat) : Acc48 × Flags :=
  let vs := ys.map accDec
  let iv := vs.any fun v => match v with | .nan _ _ sg => sg | _ => false
  match ys.find? accIsNan with
  | some y => (y ||| 0x2000000000, { iv := iv })
  | none =>
    let fl := vs.zipIdx.map fun e => if hadNeg e.2 a2 then e.1.flip else e.1
    let pinf := fl.any fun v => v == .inf false
    let ninf := fl.any fun v => v == .inf true
    if pinf && ninf then (accNan, { iv := true })
    else if pinf then roundAcc (.inf false)
    else if ninf then roundAcc (.inf true)
    else roundAcc ((exactSum (fl.filterMap fun v => match v with
      | .fin n m e _ => some ((if n then -(m : Int) else (m : Int)), e)
      | _ => none)).scale (-2))

/-- Element (i, c) of the 64 × 256 tile that the four accumulators make. -/
def Stream.wide (x : Stream) (i c : Nat) : Acc48 := x.accAt (c / 64) i (c % 64)

/-- MHROT in its s256 form. -/
def execMhrotS256 (y : Sync) (s : State) : Out :=
  let x := s.me
  let out := fun (n : Nat) => tile.map fun p =>
    let c := 64 * n + p.2
    s256Elem ((List.range 16).map fun a => x.wide p.1 (16 * a + c % 16)) (c / 16)
  let rs := (List.range 4).map fun n => (n, out n)
  let x1 := rs.foldl (fun x e => x.setAcc e.1 (e.2.map (·.1))) x
  let fl := rs.foldl (fun f e => e.2.foldl (fun f e => f.or e.2) f) Flags.none
  .next (((s.setMe x1).orFlags fl).doneY y)

/-! SWING (R110, R111) -/

/-- The panes exchanged. -/
def Casement.swing (c : Casement) : Casement :=
  { c with front := !c.front, valF := true, valB := c.valF, fcnt := 0, swings := c.swings + 1 }

/-- A peer fill still reads this core's front pane. -/
def State.frontRead (s : State) (core : Nat) : Bool := s.copies.any fun c => c.kind == .cfillPeer && c.peer == core && !c.allDone

/-- The conditions of R111 hold in a cycle, given by RT. -/
def State.swingReady (s : State) (core count rt : Nat) : Bool :=
  !s.frontRead core && (s.core core).cw.fcnt == count && !inWindow false rt && !inWindow true rt

/-- Cycles a SWING waits at most (R111). -/
def swingLimit : Nat := 16384

/-- Tokens that a mark consumed, reserved again by the word that gives them back. -/
def Stream.unconsume (x : Stream) (k n : Nat) : Stream :=
  let t := x.tok k
  x.setTok k { t with c := t.c + n, pr := t.pr + n }

/-- A casement that a SWING alone had taken has no owner again; another SWING of the team that waits there stands for the ownership now. -/
def Core.untakeCw (c : Core) (slot : Nat) : Core :=
  match c.streams.find? fun e => e.1 != slot && e.2.swing.isSome with
  | some e => { c with streams := c.streams.put e.1 { e.2 with swing := e.2.swing.map fun w => { w with took := true } } }
  | none => { c with cw := { c.cw with owner := none } }

/-- The running stream without its waiting SWING, which ends in a fault and so leaves no effect (R104, R378): its tokens are reserved again, and a
casement that it took is given back (log 57). -/
def State.dropSwing (s : State) (w : SwingWait) : State :=
  let q := s.here
  let y := s.mySeq
  let x := (s.me.unconsume (popQueues q.sec).1 w.popP).unconsume (popQueues q.sec).2 w.popN
  let s1 := s.setMe ({ x with swing := none }.setSeqr q.sec { y with popP := y.popP + w.popP, popN := y.popN + w.popN })
  if w.took then s1.setCore q.core ((s1.core q.core).untakeCw q.slot) else s1

/-- The waiting SWING of the running stream after `n` more cycles, in each of which it looks at its conditions: the fault where the casement is
another team's or its fill count exceeds COUNT; the exchange in the first cycle that meets the conditions; the time-out; or a further
wait. -/
def State.trySwing (s : State) (n : Nat) : State :=
  match s.me.swing with
  | none => s
  | some w =>
    let k := s.here.core
    let cw := (s.core k).cw
    let met := fun (b : Nat) =>
      decide (s.dclk.toNat - b ≤ w.start + swingLimit) && s.swingReady k w.count (s.refreshTimer k - b)
    if s.cwTaken k s.myMx then (s.dropSwing w).raise (matrixFault 1 1 0)
    else if w.count < cw.fcnt then (s.dropSwing w).raise (matrixFault 3 1 cw.fcnt)
    else if (List.range (n + 1)).any met then
      let s1 := s.setMe { s.me with swing := none }
      ((s1.setCore k { s1.core k with cw := cw.swing }).pushAfter w.y).done
    else if w.start + swingLimit ≤ s.dclk.toNat then (s.dropSwing w).raise (matrixFault 4 1 0)
    else s

/-- SWING: the ownership, and a fill count above COUNT, at issue; then its pop-before marks act (R53), it takes an unowned casement (R97), and it
waits, which may end in the same cycle. -/
def execSwing (y : Sync) (count : BitVec 24) (s : State) : Out :=
  let k := s.here.core
  let cw := (s.core k).cw
  if s.cwTaken k s.myMx then .next (s.raise (matrixFault 1 1 0))
  else if count.toNat < (cw.take s.myMx).fcnt then .next (s.raise (matrixFault 3 1 cw.fcnt))
  else
    let s1 := s.popBefore y
    let w : SwingWait :=
      { y := y, count := count.toNat, start := s.dclk.toNat, popP := s.mySeq.popP - s1.mySeq.popP, popN := s.mySeq.popN - s1.mySeq.popN,
        took := cw.owner.isNone }
    let s2 := s1.setMe { s1.me with swing := some w }
    .next ((s2.setCore k { s2.core k with cw := cw.take s.myMx }).trySwing 0)

/-- A device step on the CM sequencer of a stream, without a change of whose word runs. -/
def State.onCm (s : State) (core slot : Nat) (f : State → State) : State :=
  { f { s with cur := .seq { core := core, slot := slot, sec := .cm } } with cur := s.cur }

/-- Every SWING that waits on a core. -/
def State.coreSwings (s : State) (core n : Nat) : State :=
  (s.core core).streams.foldl (fun t e => if e.2.swing.isSome then t.onCm core e.1 (State.trySwing · n) else t) s

/-- Every SWING that waits, after `n` cycles (R111). -/
def State.swings (s : State) (n : Nat) : State := (s.cores.map (·.1)).foldl (fun t c => t.coreSwings c n) s

/-- SWING_EXCHANGE: a waiting SWING meets the cycle in which its conditions hold. -/
def execSwingExchange (core slot : Nat) (s : State) : Out := .next (s.onCm core slot (State.trySwing · 0))

/-- SWING_TIMEOUT: the conditions have not held within the limit. -/
def execSwingTimeout (core slot : Nat) (s : State) : Out :=
  match (s.stream core slot).swing with
  | none => .next s
  | some w => if w.start + swingLimit ≤ s.dclk.toNat then .next (s.onCm core slot (State.trySwing · 0)) else .next s

/-- Cycles of one hour at 800 MHz. -/
def hourCycles : Nat := 3600 * 800000000

/-- The rows that corrected errors, each with its row and time, show worn at a time: 16 in one row within the hour before (R413). -/
def wornRows (l : List (Nat × Nat)) (now : Nat) : List Nat :=
  let hour := l.filter fun e => decide (now < e.2 + hourCycles)
  (hour.map (·.1)).filter fun r => decide (16 ≤ (hour.filter fun e => e.1 == r).length)

/-- The next row that a spare row replaces (R413), while one of the 64 spares is left: the row of an uncorrectable block that no spare row has taken
over as it was, or a worn one. A row in use that is a spare itself is replaced like any other. -/
def nextRow (bad carried : List Nat) (errs : List (Nat × Nat)) (done : List Nat) (now : Nat) : Option Nat :=
  if done.length < 64 then ((bad.filter fun b => !carried.contains b).map Config.eramRow ++ wornRows errs now).head? else none

/-- The uncorrectable blocks that a copied row carries over. -/
def carriedIn (bad carried : List Nat) (r : Nat) : List Nat := bad.filter fun b => carried.contains b || Config.eramRow b == r

/-- A failing row of a pane replaced, its contents copied as they stand, corrected where possible (R413). -/
def Core.remapRow (c : Core) (pane : Bool) (now : Nat) : Core :=
  let mine := (c.rowErrs.filter fun e => e.1 == pane).map (·.2)
  match nextRow (c.cw.bad pane) (c.cw.carried pane) mine ((c.rows.filter fun r => r.1 == pane).map (·.2)) now with
  | some r =>
    { c with rows := (pane, r) :: c.rows, rowErrs := c.rowErrs.filter fun e => !(e.1 == pane && e.2.1 == r),
             cw := c.cw.setCarried pane (carriedIn (c.cw.bad pane) (c.cw.carried pane) r) }
  | none => c

/-- A failing row of the shutter store replaced, its contents copied as they stand, corrected where possible (R413). -/
def Core.remapShutter (c : Core) (now : Nat) : Core :=
  match nextRow c.shutBad c.shutCarried c.shutErrs c.shutRows now with
  | some r =>
    { c with shutRows := r :: c.shutRows, shutErrs := c.shutErrs.filter fun e => e.1 != r, shutCarried := carriedIn c.shutBad c.shutCarried r }
  | none => c

/-- CASEMENT_REFRESH_WINDOW: windows are a function of RT alone (R98), which the clock moves; a SWING of the core that waits for the
window's end meets this cycle, and a failing row of a pane in its window, or of the shutter store, is remapped (R413). -/
def execCasementRefreshWindow (core pane : Nat) (s : State) : Out :=
  let s1 := s.coreSwings core 0
  let p : Bool := pane == 1
  let c := ((s1.core core).remapRow p s1.dclk.toNat).remapShutter s1.dclk.toNat
  .next (if inWindow p (s1.refreshTimer core) && c != s1.core core then s1.setCore core c else s1)

/-- SIGN_STORE_REGENERATION: the diagonals of the new seed stand in the store, at most 1,024 cycles after it began (R101). -/
def execSignStoreRegeneration (core : Nat) (s : State) : Out :=
  .next (s.setCore core { s.core core with signRegen := none })

/-! MDRAIN, MBYP (R112, R113) -/

/-- Elements of a row that one destination block takes (Table 5.10). -/
def drainElems (f lay : Nat) : Nat :=
  if f = 0x11 ∧ lay = 0 then 32
  else match blkFmt f with | some z => min 64 z.elems | none => 64

/-- The blocks of a row, converted one by one (R83, R84). -/
def drainRow (f lay : Nat) (c : Rnd) (d : Nat) (row : List XV) : List (Blk × Flags) :=
  let n := drainElems f lay
  (List.range (ceilDiv 64 n)).map fun b => encBlk f c d ((row.drop (n * b)).take n)

/-- All rows of an accumulator, converted. -/
def Stream.drained (x : Stream) (acc f lay : Nat) (rnd : BitVec 3) (d : Nat) : List (List (Blk × Flags)) :=
  (List.range 64).map fun i =>
    drainRow f lay { mode := rnd.toNat, dph := x.dph.toNat } d ((List.range 64).map fun j => accDec (x.accAt acc i j))

def drainFlags (l : List (List (Blk × Flags))) : Flags := l.foldl (fun f r => r.foldl (fun f e => f.or e.2) f) Flags.none

/-- What MDRAIN writes: offsets and bytes in row order, with the row of each. -/
def State.drainWrites (s : State) (w : FormMdrain) (off : Nat) : List (Nat × Nat × List Byte) × Flags :=
  if w.lay = 2 then
    (((List.range 384).map fun b => (b / 6, (off + 64 * b) % spMod, sliceBytes (s.me.image w.acc.toNat) (64 * b) 64)), {})
  else
    let rows := s.me.drained w.acc.toNat w.fmt.toNat w.lay.toNat w.rnd w.dist.toNat
    ((rows.zipIdx.flatMap fun r => r.1.zipIdx.map fun e =>
        (r.2, (off + 64 * ((w.dstrM1.toNat + 1) * r.2 + e.2)) % spMod, blkBytes e.1.1)), drainFlags rows)

/-- The offset MDRAIN writes from, with its alignment and RAW faults. -/
def State.drainOff (s : State) (w : FormMdrain) : Except FaultInfo Nat :=
  match s.cmBlockOff w.d 1 with
  | .error f => .error f
  | .ok o => if w.lay ≠ 2 ∧ s.me.desc = false then .error (formatFault 5 1 0 0 spSP o (some o)) else .ok o

/-- The first destination block outside the window, with the index of the first failing byte among the operand's (log 40). -/
def State.windowOf (s : State) (opnd : Nat) (l : List (Nat × Nat × List Byte)) : Option FaultInfo :=
  l.zipIdx.findSome? fun e => (s.me.windowFail e.1.2.1 e.1.2.2.length).map fun a =>
    { code := 1, opnd := opnd, c0 := 64 * e.2 + (a - e.1.2.1), space := spSP, addr := a }

/-- DPH after an MDRAIN (R82). -/
def Stream.stepDph (x : Stream) : Stream := { x with dph := x.dph + x.dstep }

def execMdrain (w : FormMdrain) (s : State) : Out :=
  match s.drainOff w with
  | .error f => .next (s.raise f)
  | .ok o =>
    let (ws, fl) := s.drainWrites w o
    match s.windowOf 1 ws with
    | some f => .next (s.raise f)
    | none =>
      let s1 := ws.foldl (fun t e => t.setMySp e.2.1 e.2.2) s
      let x := if w.clr then s1.me.clearAcc w.acc.toNat else s1.me
      .next (((s1.setMe x.stepDph).orFlags fl).doneY w.y)

/-- MBYP: slots 2i and 2i + 1 of the A-bypass register; a slot that is not filled becomes empty. -/
def execMbyp (w : FormMbyp) (s : State) : Out :=
  let rows := s.me.drained w.acc.toNat w.fmt.toNat 0 w.rnd w.dist.toNat
  let byp := rows.zipIdx.foldl
    (fun m r => (AMap.set 0 m (2 * r.2) ((r.1.map (·.1)).getD 0 0)).set 0 (2 * r.2 + 1) ((r.1.map (·.1)).getD 1 0)) s.me.byp
  let x := { s.me with byp := byp }
  let x1 := if w.clr then x.clearAcc w.acc.toNat else x
  .next (((s.setMe x1).orFlags (drainFlags rows)).doneY w.y)

/-! MPEER (R114) -/

/-- The checks of an MPEER at issue, and the offset of its image. DEDUCED (log 12): SELF before NOSLOT, and the alignment of the effective offset
(R95) after NOSLOT and before the windows. -/
def State.peerPlan (s : State) (w : FormMpeer) : Except FaultInfo Nat :=
  let k := s.here.core
  if w.tier.toNat = k / 128 % 4 then .error (matrixFault 5 0 0)
  else if s.mullSlots (k / 512) ((s.colOf k).getD 0) (k / 128 % 4) s.myMx = 0 then .error (matrixFault 6 0 0)
  else match s.cmBlockOff w.d 1 with
    | .error f => .error f
    | .ok o =>
      match s.me.windowFail o imageBytes with
      | some a => .error { code := 1, opnd := 1, c0 := a - o, space := spSP, addr := a }
      | none =>
        match w.bar with
        | none => .ok o
        | some b =>
          match s.me.windowFail b.toNat 16 with
          | some a => .error { code := 1, opnd := 2, c0 := a - b.toNat, space := spSP, addr := a }
          | none => .ok o

/-- MPEER: the image leaves for the stream of the same index on the tier named. -/
def execMpeer (w : FormMpeer) (s : State) : Out :=
  match s.peerPlan w with
  | .error f => .next (s.raise f)
  | .ok o =>
    let dest := { s.myRef with tier := w.tier.toNat }
    let gens := match s.refStream dest with | some x => x.banks | none => []
    let p : PeerImg :=
      { id := s.nextId, ref := s.myRef, dest := dest, cls := w.cs.cls, off := o, img := s.me.image w.acc.toNat,
        bar := w.bar.map (·.toNat), gens := gens, sent := 0 }
    .next ({ s with peers := s.peers ++ [p], nextId := s.nextId + 1 }.doneY w.y)

/-- An earlier image of the same sender comes first: of the same class (R179), or to bytes of the same destination (R178). -/
def State.peerFirst (s : State) (p : PeerImg) : Bool :=
  s.peers.any fun q => decide (q.id < p.id) && q.ref == p.ref
    && (q.cls == p.cls || (q.dest == p.dest && decide (q.off < p.off + imageBytes ∧ p.off < q.off + imageBytes)))

/-- The bytes of the image that the running slot carries, none while it is no slot of the sender's or an earlier image is still to go. -/
def State.peerPiece (s : State) (p : PeerImg) : Nat :=
  match s.slotOf p.ref with
  | none => 0
  | some (core, _) =>
    if s.mullOwn (s.busOf core) (core / 128 % 4) p.ref.mx && !s.peerFirst p then min (64 * s.mullLeft (s.busOf core)) (imageBytes - p.sent) else 0

/-- MPEER_DELIVERY: in a slot of the sender's, and while no sill it touches is GRANTED to a copy issued before it (R239), the next bytes of the image, 256 for a slot, stand in
the destination's window (R17, R114). After the last, the barrier there is credited. An image that meets a changed owner tag is dropped with its
credit (R156). -/
def execMpeerDelivery (id : Nat) (s : State) : Out :=
  match s.peers.find? fun p => p.id == id with
  | none => .next s
  | some p =>
    let n := s.peerPiece p
    let s1 := { s with peers := s.peers.filter fun q => q.id != id }
    match s.slotOf p.dest with
    | none => .next s1
    | some (core, slot) =>
      if n = 0 ∨ s.sillOlder core slot (p.off + p.sent) n p.id then .next s
      else
        let bus := s.busOf core
        if (List.range n).all fun k => (s.ownedAt core p.gens (p.off + p.sent + k)).isSome then
          let s2 := ((s.writeSp core slot (p.off + p.sent) (sliceBytes p.img p.sent n))).mullTake bus (ceilDiv n 64)
          if p.sent + n < imageBytes then
            .next { s2 with peers := s2.peers.map fun q => if q.id = id then { q with sent := q.sent + n } else q }
          else
            let s3 := { s2 with peers := s2.peers.filter fun q => q.id != id }
            match p.bar with
            | none => .next s3
            | some b => .next (s3.credit p.dest (bwOf (spAliasBase + b) 2 false) imageBytes none p.cls 2)
        else .next s1

/-- An image of the running stream whose class orders it before a later access of CM of that class (R179). -/
def State.peerPending (s : State) (cls : BitVec 4) : Bool := s.peers.any fun p => p.ref == s.myRef && p.cls == cls

/-! MACCLD, MCLR (R115, R116) -/

/-- The values of a block in the order MACCLD takes them: the groups of Table 5.4 under mx, every element under pk. -/
def loadValues (kind : BitVec 2) (b : Blk) : List XV :=
  if kind = 1 then (blkValues b).take (32 * groupsOf (Blk.f b)) else blkValues b

/-- The format fault of a block of MACCLD. -/
def loadReason (kind : BitVec 2) (f : Nat) : Option Nat :=
  formatReason f (if kind = 1 then isMatrixFormat f && f != 0x12 else isVectorFormat f)

/-- The 64 values of a row, block by block, and whether a NaN block was read. -/
def State.loadRow (s : State) (kind : BitVec 2) (row base : Nat) : Nat → Nat → List XV → Bool → Except FaultInfo (List XV × Bool)
  | 0, _, acc, nb => .ok (acc, nb)
  | n + 1, b, acc, nb =>
    if 64 ≤ acc.length then .ok (acc.take 64, nb)
    else
      match s.spOperand 0 row acc.length (64 * row + acc.length) ((base + 64 * b) % spMod) (loadReason kind) with
      | .error f => .error f
      | .ok x => s.loadRow kind row base n (b + 1) (acc ++ loadValues kind x) (nb || Blk.isNan x)

def State.loadRows (s : State) (kind : BitVec 2) (off stride : Nat) : Nat → Nat → Except FaultInfo (List (List XV) × Bool)
  | 0, _ => .ok ([], false)
  | n + 1, r =>
    match s.loadRow kind r (off + 64 * stride * r) 64 0 [] false with
    | .error f => .error f
    | .ok (l, nb) =>
      match s.loadRows kind off stride n (r + 1) with
      | .error f => .error f
      | .ok (ls, nb') => .ok (l :: ls, nb || nb')

/-- An element under ADD (R115). DESIGN CHOICE (log 41): a signalling NaN in either operand of the addition, the element or the loaded value,
sets IV (Table 4.12); R115 does not say which operands are tested. DESIGN CHOICE (log 65): an exactly zero sum is +0, and −0 for two zeros of sign
minus. -/
def accAdd (t : Acc48) (v : XV) : Acc48 × Flags :=
  let signals := fun (x : XV) => match x with | .nan _ _ sg => sg | _ => false
  match v with
  | .nan _ _ sg => (if accIsNan t then t else accNan, { iv := sg || signals (accDec t) })
  | _ =>
    if accIsNan t then (t, { iv := signals (accDec t) })
    else
      let r := XV.add false (accDec t) v
      let q := roundAcc r.1
      (q.1, r.2.or q.2)

/-- The 4,096 elements of the image at an offset. -/
def State.loadImage (s : State) (off : Nat) : List Acc48 :=
  let l := s.mySp off imageBytes
  (List.range 4096).map fun k => BitVec.ofNat 48 (fieldLe l (6 * k) 6)

/-- What MACCLD makes of the accumulator: the elements, with the flags. -/
def State.maccldResult (s : State) (w : FormMaccld) (off : Nat) : Except FaultInfo (List Acc48 × Flags) :=
  let n := w.acc.toNat
  let sum := fun (vs : List XV) (f0 : Flags) =>
    let l := (tile.zip vs).map fun e => if w.add then accAdd (s.me.accAt n e.1.1 e.1.2) e.2 else roundAcc e.2
    (l.map (·.1), l.foldl (fun f e => f.or e.2) f0)
  if w.kind = 0 then
    match s.me.windowFail off imageBytes, s.spBadIn s.here.core s.here.slot off imageBytes with
    | some a, _ => .error { code := 1, c0 := a - off, space := spSP, addr := a }
    | none, some b => .error { code := 6, c0 := (b - off) / 384, c1 := (b - off) % 384, space := spSP, addr := b, baddr := some b }
    | none, none => if w.add then .ok (sum ((s.loadImage off).map accDec) {}) else .ok (s.loadImage off, {})
  else
    match s.loadRows w.kind off (w.sstrM1.toNat + 1) 64 0 with
    | .error f => .error f
    | .ok (rows, nb) => .ok (sum (rows.flatMap id) { nb := nb })

def execMaccld (w : FormMaccld) (s : State) : Out :=
  match s.cmBlockOff w.s 0 with
  | .error f => .next (s.raise f)
  | .ok o =>
    match s.maccldResult w o with
    | .error f => .next (s.raise f)
    | .ok (l, fl) => .next (((s.setMe (s.me.setAcc w.acc.toNat l)).orFlags fl).doneY w.y)

def execMclr (y : Sync) (mask : BitVec 4) (byp : Bool) (s : State) : Out :=
  let x := (List.range 4).foldl (fun x k => if mask.getLsbD k then x.clearAcc k else x) s.me
  .next ((s.setMe (if byp then { x with byp := [] } else x)).doneY y)

/-! MLEASE, MREL (R106) -/

def execMlease (y : Sync) (s : State) : Out := .next ((s.leaseWant s.here.core s.here.slot true).doneY y)

/-- MREL: the holder's term ends with its block; without the lease, a request that MLEASE posted is withdrawn. -/
def execMrel (y : Sync) (s : State) : Out :=
  let k := s.here.core
  let c := s.core k
  let l := if c.lease.holder = some s.here.slot then { c.lease with release := true }
    else { c.lease with posted := c.lease.posted.filter (· != s.here.slot) }
  .next ((s.setCore k { c with lease := l }).doneY y)

end Sys2Proof.Machine
end

