-- ==== Sys2Proof/Machine/Vector.lean ====
section
/-! DEFINITION. The vector words of form V (R117 to R136, R142): elements, masks, integer and float arithmetic, comparison, moves,
reductions and scans, packing. -/

namespace Sys2Proof.Machine

/-! Elements and masks (R117, R119) -/

/-- Element `i` of width `w` of a register. -/
def vget (w : Nat) (x : VReg) (i : Nat) : Nat := x.toNat / 2 ^ (w * i) % 2 ^ w

/-- The register of the elements of width `w` in order. -/
def vput (w : Nat) (l : List Nat) : VReg := BitVec.ofNat 2048 (l.foldr (fun e a => e % 2 ^ w + 2 ^ w * a) 0)

/-- Elements of width `w` in a register. -/
def vcount (w : Nat) : Nat := 2048 / w

/-- The mask bit that governs an element. -/
def govBit (w i : Nat) : Nat := if w = 64 then 2 * i else w * i / 32

/-- Element `i` is active under a mask field. -/
def State.active (s : State) (me : Bool) (mk : BitVec 3) (w i : Nat) : Bool := !me || (s.m mk).getLsbD (govBit w i)

/-- The immediate as an element (R121). -/
def immElem (x : FormV) : Nat :=
  let t := x.ty.toNat
  let w := typeBits t
  if w = 64 then (if isSignedType t then (x.imm.signExtend 64).toNat else x.imm.toNat) else x.imm.toNat % 2 ^ w

/-- How an element of a register rounds: its index is its place in its 64-byte quarter (R123). -/
def State.rndOf (s : State) (mode : BitVec 3) (w i : Nat) : Rnd := { mode := mode.toNat, idx := i % (512 / w), dph := s.me.dph.toNat }

/-- A list of elements with the flags of each. -/
def flagsOf (l : List (Nat × Flags)) : Flags := l.foldl (fun f e => f.or e.2) Flags.none

/-- A register of the stream written element by element under a mask: `f i` gives element `i` of width `w` when it is active; an
inactive one is kept, or zeroed with MZ (R119). -/
def State.vwrite (s : State) (vd : BitVec 5) (me mz : Bool) (mk : BitVec 3) (w : Nat) (f : Nat → Nat × Flags) : State :=
  let old := s.v vd
  let l := (List.range (vcount w)).map fun i =>
    if s.active me mk w i then f i else (if mz then 0 else vget w old i, Flags.none)
  (s.setV vd (vput w (l.map (·.1)))).orFlags (flagsOf l)

/-- An element-wise word: `f` takes the index and the operands a, b, c; the immediate stands for b. -/
def State.elementwise (s : State) (x : FormV) (f : Nat → Nat → Nat → Nat → Nat × Flags) : State :=
  let w := x.width
  let a := s.v x.va
  let b := s.v x.vb
  let c := s.v x.vc
  (s.vwrite x.vd x.me x.mz x.mq w fun i =>
    f i (vget w a i) (if x.bi then immElem x else vget w b i) (vget w c i)).doneY x.y

/-! Integer arithmetic (R124) -/

/-- The value of an element of an integer type. -/
def intVal (t x : Nat) : Int := if isSignedType t then sx (typeBits t) x else ((x % 2 ^ typeBits t : Nat) : Int)

/-- An exact value put into an integer type: wrapped, or clamped with SA. -/
def intPut (t : Nat) (sat : Bool) (v : Int) : Nat × Flags :=
  let put := fun (y : Int) => (BitVec.ofInt (typeBits t) y).toNat
  if sat then
    (if intMax t < v then (put (intMax t), { sa := true }) else if v < intMin t then (put (intMin t), { sa := true }) else (put v, {}))
  else (put v, {})

/-! Float arithmetic (R125) -/

/-- RDN, for the sign of an exact zero sum. -/
def isRdn (r : BitVec 3) : Bool := r == 2

/-- A float operation on exact values, rounded once. -/
def floatPut (t : Nat) (c : Rnd) (r : XV × Flags) : Nat × Flags :=
  let e := encType t c r.1
  (e.1, r.2.or e.2)

/-- Exact a × b + c; NaN inputs come first (R78, R125). -/
def XV.fma (rdn : Bool) (a b c : XV) : XV × Flags :=
  match nanOf [a, b, c] with
  | some r => r
  | none =>
    let p := XV.mul a b
    if p.1.isNan then p else XV.add rdn p.1 c

/-- The smaller, or with `mx` the larger, of two float elements; −0 < +0, NaNs by R78. -/
def floatMinMax (t : Nat) (mx : Bool) (a b : Nat) : Nat × Flags :=
  let x := decType t a
  let y := decType t b
  match nanOf [x, y] with
  | some r => floatPut t .rne r
  | none =>
    let less := match XV.cmp x y with
      | .lt => true
      | .gt => false
      | .eq => x.neg || !y.neg
    (if less = mx then b else a, {})

def State.binary (s : State) (x : FormV) (fi : Int → Int → Int) (ff : XV → XV → XV × Flags) : State :=
  let t := x.ty.toNat
  s.elementwise x fun i a b _ =>
    if isIntType t then intPut t x.sat (fi (intVal t a) (intVal t b))
    else floatPut t (s.rndOf x.rnd x.width i) (ff (decType t a) (decType t b))

def execVadd (w : FormV) (s : State) : Out := .next (s.binary w (· + ·) (XV.add (isRdn w.rnd)))
def execVsub (w : FormV) (s : State) : Out := .next (s.binary w (· - ·) fun a b => XV.add (isRdn w.rnd) a b.flip)
def execVmul (w : FormV) (s : State) : Out := .next (s.binary w (· * ·) XV.mul)

/-- VMUL of SUB 1: the upper half of the exact product. -/
def execVmulHi (w : FormV) (s : State) : Out :=
  let t := w.ty.toNat
  .next (s.elementwise w fun _ a b _ => intPut t false ((intVal t a * intVal t b) / (2 ^ w.width : Nat)))

def execVfma (w : FormV) (s : State) : Out :=
  let t := w.ty.toNat
  .next (s.elementwise w fun i a b c =>
    if isIntType t then intPut t w.sat (intVal t a * intVal t b + intVal t c)
    else floatPut t (s.rndOf w.rnd w.width i) (XV.fma (isRdn w.rnd) (decType t a) (decType t b) (decType t c)))

/-- Minimum or maximum of two elements of a type. -/
def minMax (t : Nat) (mx : Bool) (a b : Nat) : Nat × Flags :=
  if isIntType t then (if decide (intVal t a < intVal t b) = mx then b else a, {}) else floatMinMax t mx a b

def execVmin (w : FormV) (s : State) : Out := .next (s.elementwise w fun _ a b _ => minMax w.ty.toNat false a b)
def execVmax (w : FormV) (s : State) : Out := .next (s.elementwise w fun _ a b _ => minMax w.ty.toNat true a b)

/-! Bits (R126, R127) -/

def execVand (w : FormV) (s : State) : Out := .next (s.elementwise w fun _ a b _ => (a &&& b, {}))
def execVor (w : FormV) (s : State) : Out := .next (s.elementwise w fun _ a b _ => (a ||| b, {}))
def execVxor (w : FormV) (s : State) : Out := .next (s.elementwise w fun _ a b _ => (a ^^^ b, {}))
def execVnot (w : FormV) (s : State) : Out := .next (s.elementwise w fun _ a _ _ => (2 ^ w.width - 1 - a, {}))

/-- The mask a register field names. -/
def maskOf (r : BitVec 5) : BitVec 3 := r.setWidth 3

def State.maskOp (s : State) (w : FormV) (f : Word → Word → Word) : State :=
  (s.setM w.md (f (s.m (maskOf w.va)) (s.m (maskOf w.vb)))).doneY w.y

def execVandMask (w : FormV) (s : State) : Out := .next (s.maskOp w fun a b => a &&& b)
def execVorMask (w : FormV) (s : State) : Out := .next (s.maskOp w fun a b => a ||| b)
def execVxorMask (w : FormV) (s : State) : Out := .next (s.maskOp w fun a b => a ^^^ b)
def execVnotMask (w : FormV) (s : State) : Out := .next (s.maskOp w fun a _ => ~~~a)

def execVshl (w : FormV) (s : State) : Out :=
  .next (s.elementwise w fun _ a b _ => (if w.width ≤ b then 0 else a * 2 ^ b % 2 ^ w.width, {}))
def execVshr (w : FormV) (s : State) : Out :=
  .next (s.elementwise w fun _ a b _ => (if w.width ≤ b then 0 else a / 2 ^ b, {}))

/-- VSAR: the shift fills with copies of bit w − 1, for unsigned types too. -/
def execVsar (w : FormV) (s : State) : Out :=
  .next (s.elementwise w fun _ a b _ => ((BitVec.ofInt w.width (sx w.width a / (2 ^ (Nat.min b w.width) : Nat))).toNat, {}))

/-- The funnel shifts: the immediate stands for c. -/
def State.funnel (s : State) (x : FormV) (f : Nat → Nat → Nat) : State :=
  let w := x.width
  let a := s.v x.va
  let b := s.v x.vb
  let c := s.v x.vc
  (s.vwrite x.vd x.me x.mz x.mq w fun i =>
    (f (vget w a i * 2 ^ w + vget w b i) ((if x.bi then immElem x else vget w c i) % w) % 2 ^ w, {})).doneY x.y

def execVfshl (w : FormV) (s : State) : Out := .next (s.funnel w fun ab sh => ab / 2 ^ (w.width - sh))
def execVfshr (w : FormV) (s : State) : Out := .next (s.funnel w fun ab sh => ab / 2 ^ sh)

def execVclz (w : FormV) (s : State) : Out :=
  .next (s.elementwise w fun _ a _ _ => (if a = 0 then w.width else w.width - 1 - Nat.log2 a, {}))
def execVpopc (w : FormV) (s : State) : Out :=
  .next (s.elementwise w fun _ a _ _ => ((List.range w.width).countP fun k => bit a k, {}))

/-! Comparison and selection (R128, R129) -/

/-- The condition of VCMP on the order of two values; `none` is unordered. -/
def cmpCond (sub : BitVec 3) (o : Option Ordering) : Bool :=
  match sub.toNat, o with
  | 0, some r => r == .eq
  | 1, some r => r != .eq
  | 2, some r => r == .lt
  | 3, some r => r != .lt
  | 4, some r => r != .gt
  | 5, some r => r == .gt
  | 1, none => true
  | 6, none => true
  | _, _ => false

/-- VCMP of two elements. -/
def cmpElem (t : Nat) (sub : BitVec 3) (a b : Nat) : Bool × Flags :=
  if isIntType t then (cmpCond sub (some (compare (intVal t a) (intVal t b))), {})
  else
    let x := decType t a
    let y := decType t b
    match nanOf [x, y] with
    | some r => (cmpCond sub none, r.2)
    | none => (cmpCond sub (some (XV.cmp x y)), {})

/-- A mask with the bits that govern an element set or cleared. -/
def setGov (w : Nat) (m : Word) (i : Nat) (b : Bool) : Word :=
  let g := if w = 64 then 3 * 2 ^ (2 * i) else 2 ^ govBit w i
  if b then m ||| BitVec.ofNat 64 g else m &&& ~~~(BitVec.ofNat 64 g)

def execVcmp (w : FormV) (s : State) : Out :=
  let t := w.ty.toNat
  let n := w.width
  if w.dk then
    let a := s.v w.va
    let b := s.v w.vb
    let r := (List.range (vcount n)).foldl
      (fun (acc : Word × Flags) i =>
        if s.active w.me w.mq n i then
          let c := cmpElem t w.sub (vget n a i) (if w.bi then immElem w else vget n b i)
          (setGov n acc.1 i c.1, acc.2.or c.2)
        else (if w.mz then setGov n acc.1 i false else acc.1, acc.2)) (s.m w.md, Flags.none)
    .next (((s.setM w.md r.1).orFlags r.2).doneY w.y)
  else
    .next (s.elementwise w fun _ a b _ => let c := cmpElem t w.sub a b; (if c.1 then 2 ^ n - 1 else 0, c.2))

/-- VSEL: every element is written. -/
def execVsel (w : FormV) (s : State) : Out :=
  let n := w.width
  let a := s.v w.va
  let b := s.v w.vb
  let c := s.v w.vc
  .next ((s.vwrite w.vd false false 0 n fun i =>
    let sel := if w.dk then (s.m w.mq).getLsbD (govBit n i) else bit (vget n c i) (n - 1)
    (if sel then vget n a i else if w.bi then immElem w else vget n b i, {})).doneY w.y)

/-! Moves (R130, R131, R132) -/

def execVmov (w : FormV) (s : State) : Out := .next (s.elementwise w fun _ a b _ => (if w.bi then b else a, {}))

def execVmovFromMask (w : FormV) (s : State) : Out := .next ((s.setV w.vd ((s.m w.mq).setWidth 2048)).doneY w.y)
def execVmovToMask (w : FormV) (s : State) : Out := .next ((s.setM w.md ((s.v w.va).setWidth 64)).doneY w.y)

def execVbcast (w : FormV) (s : State) : Out :=
  let a := s.v w.va
  .next (s.elementwise w fun _ _ _ _ => (vget w.width a w.imm.toNat, {}))

def execVperm (w : FormV) (s : State) : Out :=
  let a := s.v w.va
  .next (s.elementwise w fun _ _ b _ => (if b < vcount w.width then vget w.width a b else 0, {}))

/-- Elements that the mask selects, lowest first (R132). -/
def State.selected (s : State) (w : FormV) : List Nat :=
  (List.range (vcount w.width)).filter fun i => (s.m w.mq).getLsbD (govBit w.width i)

/-- VCOMPRESS. -/
def execVcompress (w : FormV) (s : State) : Out :=
  let n := w.width
  let a := s.v w.va
  let old := s.v w.vd
  let sel := s.selected w
  let l := (List.range (vcount n)).map fun q =>
    match sel[q]? with
    | some i => vget n a i
    | none => if w.mz then 0 else vget n old q
  .next ((s.setV w.vd (vput n l)).doneY w.y)

/-- VEXPAND. -/
def execVexpand (w : FormV) (s : State) : Out :=
  let n := w.width
  let a := s.v w.va
  let old := s.v w.vd
  let sel := s.selected w
  let l := (List.range (vcount n)).map fun i =>
    match sel.findIdx? (· == i) with
    | some q => vget n a q
    | none => if w.mz then 0 else vget n old i
  .next ((s.setV w.vd (vput n l)).doneY w.y)

/-! Reductions and scans (R133 to R136) -/

/-- The operator on two present elements of a type. -/
def combineElem (t : Nat) (op : BitVec 3) (c : Rnd) (a b : Nat) : Nat × Flags :=
  match op.toNat with
  | 0 =>
    if isIntType t then intPut t false (intVal t a + intVal t b)
    else floatPut t c (XV.add (c.mode == 2) (decType t a) (decType t b))
  | 1 => minMax t false a b
  | 2 => minMax t true a b
  | 3 => (a &&& b, {})
  | 4 => (a ||| b, {})
  | _ => (a ^^^ b, {})

/-- The operator on values that may be absent, with the flags met so far. -/
def joinElem (t : Nat) (op : BitVec 3) (c : Rnd) (a b : Option Nat) : Option Nat × Flags :=
  match a, b with
  | some x, some y => let r := combineElem t op c x y; (some r.1, r.2)
  | some x, none => (some x, {})
  | none, y => (y, {})

/-- The identity of an operator (R133). -/
def identElem (t : Nat) (op : BitVec 3) : Nat :=
  let w := typeBits t
  match op.toNat with
  | 1 => if isIntType t then (BitVec.ofInt w (intMax t)).toNat else (fOfType t).infCode
  | 2 => if isIntType t then (BitVec.ofInt w (intMin t)).toNat else (fOfType t).signed true (fOfType t).infCode
  | 3 => 2 ^ w - 1
  | _ => 0

/-- One level of the pairwise tree; node `k` rounds with index k mod (512 / w). -/
def treeLevel (t : Nat) (op : BitVec 3) (c : Rnd) : Nat → List (Option Nat) → List (Option Nat) × Flags
  | k, a :: b :: r =>
    let x := joinElem t op (c.at (k % (512 / typeBits t))) a b
    let y := treeLevel t op c (k + 1) r
    (x.1 :: y.1, x.2.or y.2)
  | _, l => (l, {})

/-- The tree over a list of 2^n values. -/
def tree (t : Nat) (op : BitVec 3) (c : Rnd) : Nat → List (Option Nat) → Option Nat × Flags
  | 0, l => (l.getD 0 none, {})
  | n + 1, l =>
    let x := treeLevel t op c 0 l
    let y := tree t op c n x.1
    (y.1, x.2.or y.2)

/-- Source elements, the inactive ones absent. -/
def State.present (s : State) (w : FormV) : List (Option Nat) :=
  let a := s.v w.va
  (List.range (vcount w.width)).map fun i => if s.active w.me w.mq w.width i then some (vget w.width a i) else none

/-- Rounding of tree and scan nodes: the word's mode with the phase of the stream. -/
def State.nodeRnd (s : State) (w : FormV) : Rnd := { mode := w.rnd.toNat, dph := s.me.dph.toNat }

def execVred (w : FormV) (s : State) : Out :=
  let t := w.ty.toNat
  let r := tree t w.sub (s.nodeRnd w) (Nat.log2 (vcount w.width)) (s.present w)
  .next (((s.setV w.vd (vput w.width [r.1.getD (identElem t w.sub)])).orFlags r.2).doneY w.y)

def execVgred (w : FormV) (s : State) : Out :=
  let t := w.ty.toNat
  let n := 2 ^ w.gs.toNat
  let l := s.present w
  let rs := (List.range (vcount w.width / n)).map fun q =>
    let r := tree t w.sub (s.nodeRnd w) w.gs.toNat ((l.drop (n * q)).take n)
    (r.1.getD (identElem t w.sub), r.2)
  .next (((s.setV w.vd (vput w.width (rs.map (·.1)))).orFlags (flagsOf rs)).doneY w.y)

/-- One pass of the scan at distance `d`. -/
def scanPass (t : Nat) (op : BitVec 3) (c : Rnd) (d : Nat) (x : List (Option Nat)) : List (Option Nat) × Flags :=
  let l := x.zipIdx.map fun e =>
    if e.2 < d then (e.1, Flags.none) else joinElem t op (c.at (e.2 % (512 / typeBits t))) (x.getD (e.2 - d) none) e.1
  (l.map (·.1), l.foldl (fun f e => f.or e.2) Flags.none)

/-- The passes at distances 1, 2, 4 and so on. -/
def scan (t : Nat) (op : BitVec 3) (c : Rnd) (levels : Nat) (x : List (Option Nat)) : List (Option Nat) × Flags :=
  (List.range levels).foldl (fun acc k => let r := scanPass t op c (2 ^ k) acc.1; (r.1, acc.2.or r.2)) (x, Flags.none)

def execVscan (w : FormV) (s : State) : Out :=
  let t := w.ty.toNat
  let r := scan t w.sub (s.nodeRnd w) (Nat.log2 (vcount w.width)) (s.present w)
  let l := if w.gs.getLsbD 0 then none :: r.1.take (vcount w.width - 1) else r.1
  .next (((s.setV w.vd (vput w.width (l.map fun e => e.getD (identElem t w.sub)))).orFlags r.2).doneY w.y)

/-! Widths (R142) -/

/-- VPACK: both sources narrowed to half the width, of the same signedness. -/
def execVpack (w : FormV) (s : State) : Out :=
  let t := w.ty.toNat
  let n := w.width
  let a := s.v w.va
  let b := s.v w.vb
  let els := (List.range (2 * vcount n)).map fun i =>
    intPut (t - 1) w.sat (intVal t (if i < vcount n then vget n a i else vget n b (i - vcount n)))
  .next (((s.setV w.vd (vput (n / 2) (els.map (·.1)))).orFlags (flagsOf els)).doneY w.y)

/-- VUNPACK: elements of half the width extended. -/
def execVunpack (w : FormV) (s : State) : Out :=
  let t := w.ty.toNat
  let n := w.width
  let a := s.v w.va
  let off := if w.gs.getLsbD 0 then vcount n else 0
  .next ((s.vwrite w.vd w.me w.mz w.mq n fun i => intPut t false (intVal (t - 1) (vget (n / 2) a (off + i)))).doneY w.y)

end Sys2Proof.Machine
end

