-- ==== Sys2Proof/Machine/VecFloat.lean ====
section
/-! DEFINITION. The exactly rounded functions (R137, Table 6.5). An irrational value is given to the rounding as a number of at least 40
bits with a remainder strictly between 0 and 1; it is found between two integer bounds that agree on those bits, at a precision that
is doubled until they do. -/

namespace Sys2Proof.Machine

/-- Bounds of 2^(2^−i) × 2^p for i = 1, 2, …, n: repeated square roots of 2. -/
def rootBounds (p : Nat) : Nat → Nat → Nat → List (Nat × Nat)
  | 0, _, _ => []
  | n + 1, lo, hi =>
    let l := Nat.sqrt (lo * 2 ^ p)
    let h := Nat.sqrt (hi * 2 ^ p) + 1
    (l, h) :: rootBounds p n l h

/-- Bounds of 2^(k / 2^q) × 2^p for k < 2^q. -/
def exp2Bounds (p q k : Nat) : Nat × Nat :=
  let rs := rootBounds p q (2 ^ (p + 1)) (2 ^ (p + 1))
  (rs.zipIdx.foldl (fun acc e =>
    if bit k (q - 1 - e.2) then (acc.1 * e.1.1 / 2 ^ p, acc.2 * e.1.2 / 2 ^ p + 1) else acc) (2 ^ p, 2 ^ p))

/-- The first of some precisions at which the bounds agree after the last `p - keep` bits are cut off. -/
def agree (bounds : Nat → Nat × Nat) (keep : Nat) : List Nat → Nat
  | [] => 0
  | p :: r =>
    let b := bounds p
    if b.1 / 2 ^ (p - keep) = b.2 / 2 ^ (p - keep) ∨ r = [] then b.1 / 2 ^ (p - keep) else agree bounds keep r

/-- Precisions tried. -/
def precisions : List Nat := [256, 512, 1024, 2048]

/-- 2^x of a finite value. -/
def exp2Fin (neg : Bool) (m : Nat) (e : Int) : XV :=
  if m = 0 then .exact false 1 0
  else if 0 ≤ e then
    -- an integer power: beyond 2,000 every format overflows or underflows
    let k : Int := min 2000 ((m * 2 ^ (min e 2000).toNat : Nat) : Int)
    .exact false 1 (if neg then -k else k)
  else
    let q := (-e).toNat
    let n : Int := ((m / 2 ^ q : Nat) : Int)
    let r := m % 2 ^ q
    if r = 0 then .exact false 1 (max (-2000) (min 2000 (if neg then -n else n)))
    else
      -- x = whole + k / 2^q with 0 < k < 2^q
      let whole := max (-2000) (min 2000 (if neg then -n - 1 else n))
      let k := if neg then 2 ^ q - r else r
      .fin false (agree (fun p => exp2Bounds p q k) 40 precisions) (whole - 40) true

/-- The first `n` bits after the point of log2 y, for bounds lo, hi of y × 2^p in [1, 2): none when a bit is in doubt. -/
def log2Bits (p : Nat) : Nat → Nat → Nat → Nat → Option Nat
  | 0, _, _, acc => some acc
  | n + 1, lo, hi, acc =>
    let l := lo * lo / 2 ^ p
    let h := hi * hi / 2 ^ p + 1
    if 2 ^ (p + 1) ≤ l then log2Bits p n (l / 2) (h / 2 + 1) (2 * acc + 1)
    else if h < 2 ^ (p + 1) then log2Bits p n l h (2 * acc)
    else none

/-- log2 of a finite positive value. -/
def log2Fin (m : Nat) (e : Int) : XV :=
  let g := Nat.log2 m
  let x : Int := (g : Int) + e
  if m = 2 ^ g then XV.ofInt x
  else
    let d := (precisions.findSome? fun p => log2Bits p 80 (m * 2 ^ p / 2 ^ g) (m * 2 ^ p / 2 ^ g + 1) 0).getD 0
    if 0 ≤ x then .fin false (x.toNat * 2 ^ 80 + d) (-80) true
    else .fin true ((-x).toNat * 2 ^ 80 - d - 1) (-80) true

/-- The reciprocal of a finite nonzero value. -/
def rcpFin (neg : Bool) (m : Nat) (e : Int) : XV :=
  let p := Nat.log2 m + 64
  .fin neg (2 ^ p / m) (-(p : Int) - e) (2 ^ p % m != 0)

/-- The reciprocal square root of a finite positive value. -/
def rsqFin (m : Nat) (e : Int) : XV :=
  let m' := if e % 2 = 0 then m else 2 * m
  let h := e / 2
  let p := Nat.log2 m' + 64
  let r := Nat.sqrt (2 ^ (2 * p) / m')
  .fin false r (-(p : Int) - h) (r * r * m' != 2 ^ (2 * p))

/-- A function word: `fin` for finite values, the special values of Table 6.5 in it, `pinf` and `ninf` for infinities. -/
def State.function (s : State) (w : FormV) (fin : Bool → Nat → Int → XV × Flags) (pinf ninf : XV × Flags) : State :=
  let t := w.ty.toNat
  s.elementwise w fun i a _ _ =>
    floatPut t (s.rndOf w.rnd w.width i)
      (match decType t a with
       | .nan n p sg => (nanOf [.nan n p sg]).getD (XV.canon, {})
       | .inf false => pinf
       | .inf true => ninf
       | .fin n m e _ => fin n m e)

def invalid : XV × Flags := (XV.canon, { iv := true })

def execVexp2 (w : FormV) (s : State) : Out :=
  .next (s.function w (fun n m e => (exp2Fin n m e, {})) (.inf false, {}) (XV.zero false, {}))

def execVlog2 (w : FormV) (s : State) : Out :=
  .next (s.function w
    (fun n m e => if m = 0 then (.inf true, { dz := true }) else if n then invalid else (log2Fin m e, {}))
    (.inf false, {}) invalid)

def execVrcp (w : FormV) (s : State) : Out :=
  .next (s.function w (fun n m e => if m = 0 then (.inf n, { dz := true }) else (rcpFin n m e, {}))
    (XV.zero false, {}) (XV.zero true, {}))

def execVrsq (w : FormV) (s : State) : Out :=
  .next (s.function w
    (fun n m e => if m = 0 then (.inf n, { dz := true }) else if n then invalid else (rsqFin m e, {}))
    (XV.zero false, {}) invalid)

end Sys2Proof.Machine
end

