-- ==== Sys2Proof/Machine/Convert.lean ====
section
/-! DEFINITION. VCVT (R138 to R141): conversions between raw registers and described blocks held in registers. -/

namespace Sys2Proof.Machine

/-- Register `k` after a named one, modulo 32 (R138). -/
def regAfter (r : BitVec 5) (k : Nat) : BitVec 5 := r + BitVec.ofNat 5 k

/-- Slot `k` counted from slot 0 of a register. -/
def State.slotBlk (s : State) (r : BitVec 5) (k : Nat) : Blk := BitVec.ofNat 512 (vget 512 (s.v (regAfter r (k / 4))) (k % 4))

/-- Slots of a register replaced: a list from slot `k` on. -/
def putSlots (x : VReg) (k : Nat) (l : List Blk) : VReg :=
  vput 512 ((List.range 4).map fun i => if k ≤ i ∧ i < k + l.length then (l.getD (i - k) 0).toNat else vget 512 x i)

/-- Elements of a block of a described format. -/
def elemsOf (f : Nat) : Nat := match blkFmt f with | some z => z.elems | none => 0

/-- KIND 0 (R139). -/
def execVcvtRaw (w : FormC) (s : State) : Out :=
  let ts := w.fs.toNat
  let td := w.fd.toNat
  let ws := typeBits ts
  let wd := typeBits td
  let n := 2048 / max ws wd
  let a := s.v w.va
  let old := s.v w.vd
  let lo := w.pd.toNat * n
  let l := (List.range (vcount wd)).map fun i =>
    if i < lo ∨ lo + n ≤ i then (vget wd old i, Flags.none)
    else if s.active w.me w.mq wd i then
      encType td (s.rndOf w.rnd wd i) (decType ts (vget ws a (w.ps.toNat * n + (i - lo))))
    else (if w.mz then 0 else vget wd old i, Flags.none)
  .next (((s.setV w.vd (vput wd (l.map (·.1)))).orFlags (flagsOf l)).doneY w.y)

/-- Blocks written to slots of one register, with their flags. -/
def State.putBlocks (s : State) (y : Sync) (vd : BitVec 5) (slot : Nat) (l : List (Blk × Flags)) (f : Flags) : State :=
  ((s.setV vd (putSlots (s.v vd) slot (l.map (·.1)))).orFlags (l.foldl (fun g e => g.or e.2) f)).doneY y

def State.blkRnd (s : State) (mode : BitVec 3) : Rnd := { mode := mode.toNat, dph := s.me.dph.toNat }

/-- KIND 1 (R140). -/
def execVcvtToDesc (w : FormC) (s : State) : Out :=
  let ts := w.fs.toNat
  let ws := typeBits ts
  let fd := w.fd.toNat
  let n := elemsOf fd
  let src := fun k => decType ts (vget ws (s.v (regAfter w.va (k / vcount ws))) (k % vcount ws))
  let l := (List.range (w.nb.toNat + 1)).map fun q =>
    encBlk fd (s.blkRnd w.rnd) w.dist.toNat ((List.range n).map fun i => src (w.se.toNat + q * n + i))
  .next (s.putBlocks w.y w.vd w.ds.toNat l {})

/-- The source blocks of KIND 2 and 3, or the first format fault (R141). -/
def State.cvtBlocks (s : State) (w : FormC) : Except FaultInfo (List Blk) :=
  let l := (List.range (w.nb.toNat + 1)).map fun q => s.slotBlk w.va (w.ss.toNat + q)
  match l.zipIdx.findSome? fun e =>
    (formatReason (Blk.f e.1) (isVectorFormat (Blk.f e.1) && elemsOf (Blk.f e.1) == elemsOf w.fs.toNat)).map fun r => (r, e.2) with
  | some (r, q) => .error (formatFault r 0 q 0 spReg 0 none)
  | none => .ok l

/-- NB of a list of blocks read. -/
def nbOf (l : List Blk) : Flags := { nb := l.any Blk.isNan }

/-- KIND 2. -/
def execVcvtFromDesc (w : FormC) (s : State) : Out :=
  match s.cvtBlocks w with
  | .error f => .next (s.raise f)
  | .ok bs =>
    let td := w.fd.toNat
    let wd := typeBits td
    let n := vcount wd
    let vals := bs.flatMap blkValues
    let els := vals.zipIdx.map fun e => encType td (s.rndOf w.rnd wd ((w.de.toNat + e.2) % n)) e.1
    let lo := w.de.toNat
    -- registers in turn; a register that the run reaches twice takes the later elements
    let s1 := (List.range 4).foldl
      (fun (t : State) k =>
        let r := regAfter w.vd k
        if (k + 1) * n ≤ lo ∨ lo + els.length ≤ k * n then t
        else t.setV r (vput wd ((List.range n).map fun i =>
          let p := k * n + i
          if lo ≤ p ∧ p < lo + els.length then (els.getD (p - lo) (0, {})).1 else vget wd (t.v r) i))) s
    .next ((s1.orFlags ((flagsOf els).or (nbOf bs))).doneY w.y)

/-- KIND 3. -/
def execVcvtDescDesc (w : FormC) (s : State) : Out :=
  match s.cvtBlocks w with
  | .error f => .next (s.raise f)
  | .ok bs =>
    let fd := w.fd.toNat
    let n := elemsOf fd
    let vals := bs.flatMap blkValues
    let l := (List.range (ceilDiv vals.length n)).map fun q => encBlk fd (s.blkRnd w.rnd) w.dist.toNat ((vals.drop (n * q)).take n)
    .next (s.putBlocks w.y w.vd w.ds.toNat l (nbOf bs))

end Sys2Proof.Machine
end

