-- ==== Sys2Proof/Machine/VecMem.lean ====
section
/-! DEFINITION. The scratchpad words of CM (R143 to R149): VLD, VST, VLDU, VSTU, VGATH, VSCAT, VBTEST. -/

namespace Sys2Proof.Machine

/-- A lane or element is active under form M: mask bit `i`. -/
def State.activeM (s : State) (w : FormM) (i : Nat) : Bool := !w.me || (s.m w.mq).getLsbD i

/-- The bytes of a word VLD, VST, VLDU or VSTU that are active. -/
def State.activeBytes (s : State) (w : FormM) : List Nat := (List.range (w.lenM1.toNat + 1)).filter fun k => s.activeM w (k / 4)

/-- The fault of a read of `n` bytes of the window that meets a block whose data is uncorrectable (R416). -/
def State.uncorrAt (s : State) (opnd c0 o n : Nat) : Option FaultInfo :=
  (s.spBadIn s.here.core s.here.slot o n).map fun b => { code := 6, opnd := opnd, c0 := c0, space := spSP, addr := b, baddr := some b }

/-- The first active byte outside the window, else the first that is uncorrectable. -/
def State.byteFault (s : State) (w : FormM) (eff : Nat) : Option FaultInfo :=
  ((s.activeBytes w).findSome? fun k =>
    (s.me.windowFail (eff + k) 1).map fun a => { code := 1, c0 := k, space := spSP, addr := a }).or
  ((s.activeBytes w).findSome? fun k => s.uncorrAt 0 k (eff + k) 1)

/-- The alignment of VLD and VST (R144). -/
def alignFault (eff : Nat) : Option FaultInfo := if eff % 64 ≠ 0 then some { code := 2, space := spSP, addr := eff } else none

/-- Register `w.vd` with the bytes of the window in its active lanes. -/
def State.loadBytes (s : State) (w : FormM) (eff : Nat) : VReg :=
  let old := s.v w.vd
  vput 8 ((List.range 256).map fun k =>
    if w.lenM1.toNat < k then vget 8 old k
    else if s.activeM w (k / 4) then ((s.mySp (eff + k) 1).getD 0 0).toNat
    else if w.mz then 0 else vget 8 old k)

/-- The bytes of the register at `ks` written to the window. -/
def State.storeBytes (s : State) (w : FormM) (eff : Nat) (ks : List Nat) : State :=
  let x := s.v w.vd
  ks.foldl (fun t k => t.setMySp (eff + k) [BitVec.ofNat 8 (vget 8 x k)]) s

def State.runLoad (s : State) (w : FormM) (pre : Option FaultInfo) : Out :=
  match pre.or (s.byteFault w (s.cmOff w.a)) with
  | some f => .next (s.raise f)
  | none => .next ((s.setV w.vd (s.loadBytes w (s.cmOff w.a))).doneY w.y)

def execVld (w : FormM) (s : State) : Out := s.runLoad w (alignFault (s.cmOff w.a))
def execVldu (w : FormM) (s : State) : Out := s.runLoad w none

def State.runStore (s : State) (w : FormM) (pre : Option FaultInfo) (ks : List Nat) : Out :=
  match pre.or (ks.findSome? fun k =>
      (s.me.windowFail (s.cmOff w.a + k) 1).map fun a => { code := 1, c0 := k, space := spSP, addr := a }) with
  | some f => .next (s.raise f)
  | none => .next ((s.storeBytes w (s.cmOff w.a) ks).doneY w.y)

def execVst (w : FormM) (s : State) : Out := s.runStore w (alignFault (s.cmOff w.a)) (s.activeBytes w)

/-- VSTU: with BE, bytes whose bit of v[VC] is 0 are not written. -/
def execVstu (w : FormM) (s : State) : Out :=
  s.runStore w none ((s.activeBytes w).filter fun k => !w.be || (s.v w.vc).getLsbD k)

/-! Indexed words (R146, R147) -/

def memWidth (w : FormM) : Nat := typeBits w.ty.toNat
/-- Elements a gather or scatter moves. -/
def memMoved (w : FormM) : Nat := if memWidth w = 64 then 32 else 64

/-- The index in lane `i` of VB. -/
def State.laneIndex (s : State) (w : FormM) (i : Nat) : Nat := vget 32 (s.v w.vb) i

/-- The offset of element `i`. -/
def State.elemOff (s : State) (w : FormM) (i : Nat) : Nat :=
  s.cmOff w.a + s.laneIndex w i * (if w.sc then memWidth w / 8 else 1)

/-- The first failing element: alignment, then window (R148). -/
def State.elemFault (s : State) (w : FormM) : Option FaultInfo :=
  let n := memWidth w / 8
  ((List.range (memMoved w)).filter (s.activeM w)).findSome? fun i =>
    let o := s.elemOff w i
    if o % n ≠ 0 then some { code := 2, opnd := 1, c0 := i, space := spSP, addr := o }
    else (s.me.windowFail o n).map fun a => { code := 1, opnd := 1, c0 := i, space := spSP, addr := a }

/-- The first active element a gather reads whose data is uncorrectable. -/
def State.elemBad (s : State) (w : FormM) : Option FaultInfo :=
  ((List.range (memMoved w)).filter (s.activeM w)).findSome? fun i => s.uncorrAt 1 i (s.elemOff w i) (memWidth w / 8)

def execVgath (w : FormM) (s : State) : Out :=
  match (s.elemFault w).or (s.elemBad w) with
  | some f => .next (s.raise f)
  | none =>
    let n := memWidth w
    let old := s.v w.vd
    let l := (List.range (vcount n)).map fun i =>
      if memMoved w ≤ i then 0
      else if s.activeM w i then leNat (s.mySp (s.elemOff w i) (n / 8))
      else if w.mz then 0 else vget n old i
    .next ((s.setV w.vd (vput n l)).doneY w.y)

def execVscat (w : FormM) (s : State) : Out :=
  match s.elemFault w with
  | some f => .next (s.raise f)
  | none =>
    let n := memWidth w
    let x := s.v w.vd
    .next ((((List.range (memMoved w)).filter (s.activeM w)).foldl
      (fun t i => t.setMySp (s.elemOff w i) (leBytes (n / 8) (vget n x i))) s).doneY w.y)

/-- The bit VBTEST reads for lane `i`. -/
def State.testBit (s : State) (w : FormM) (i : Nat) : Bool :=
  let b := s.laneIndex w i
  bit (((s.mySp (s.cmOff w.a + b / 8) 1).getD 0 0).toNat) (b % 8)

/-- The first active lane whose bit lies outside the window, else the first whose byte is uncorrectable. -/
def State.bitFault (s : State) (w : FormM) : Option FaultInfo :=
  let on := (List.range 64).filter (s.activeM w)
  (on.findSome? fun i => (s.me.windowFail (s.cmOff w.a + s.laneIndex w i / 8) 1).map fun a =>
    ({ code := 1, opnd := 1, c0 := i, space := spSP, addr := a } : FaultInfo)).or
  (on.findSome? fun i => s.uncorrAt 1 i (s.cmOff w.a + s.laneIndex w i / 8) 1)

def execVbtest (w : FormM) (s : State) : Out :=
  match s.bitFault w with
  | some f => .next (s.raise f)
  | none =>
    if w.dk then
      let m := (List.range 64).foldl
        (fun (acc : Word) i => if s.activeM w i then setGov 32 acc i (s.testBit w i) else if w.mz then setGov 32 acc i false else acc)
        (s.m w.md)
      .next ((s.setM w.md m).doneY w.y)
    else
      let old := s.v w.vd
      let l := (List.range 64).map fun i =>
        if s.activeM w i then (if s.testBit w i then 0xFFFFFFFF else 0) else if w.mz then 0 else vget 32 old i
      .next ((s.setV w.vd (vput 32 l)).doneY w.y)

end Sys2Proof.Machine
end

