-- ==== Sys2Proof/Machine/Sched.lean ====
section
/-! DEFINITION. The steps of the streams of a core: admission of a block instance and its end (R37, R39), the tokens produced late (R39),
the matrix lease (R38, R40, R102), the tier's leave (R317, R419) and the escape of a waiting stream (R43). -/

namespace Sys2Proof.Machine

/-! The tier governor (R317, R419) -/

/-- The tier of a core: 4 × stack + tier. -/
def tierOf (core : Nat) : Nat := 4 * (core / 512) + core / 128 % 4

def State.tier (s : State) (t : Nat) : Tier := AMap.get Tier.reset s.tiers t
def State.setTier (s : State) (t : Nat) (x : Tier) : State := { s with tiers := s.tiers.put t x }

/-- Units a leave class takes. -/
def leaveCost (c : Nat) : Nat := match c with | 0 => 0 | 1 => 2 | 2 => 8 | _ => 32

/-- The leave budget of a throttle level. -/
def leaveBudget (l : Nat) : Nat := 256 - 32 * l

/-- All sequencers of the cores of a tier. -/
def State.tierSeqs (s : State) (t : Nat) : List SeqId :=
  (s.cores.filter fun c => tierOf c.1 == t).flatMap fun c =>
    c.2.streams.flatMap fun k => [Section.sc, .ld, .cm, .st].map fun e => { core := c.1, slot := k.1, sec := e }

/-- Units held by granted leaves of a tier. -/
def State.leaveUsed (s : State) (t : Nat) : Nat :=
  (s.tierSeqs t).foldl (fun n q => n + leaveCost ((s.seqr q).leaveHeld.getD 0)) 0

/-- A request of sequencer `a` is answered before one of `b`: aged requests first, then priority tokens, then the order of posting. -/
def State.leaveBefore (s : State) (a b : SeqId) : Bool :=
  let key := fun (q : SeqId) => if (s.seqr q).leaveAged then 256 else s.slotPrio q.core q.slot
  let at' := fun (q : SeqId) => (s.seqr q).leaveAsked.getD 0
  decide (key b < key a) || (key a == key b && decide (at' a < at' b))

/-- The budget of the tier covers the request of a sequencer. -/
def State.leaveFits (s : State) (q : SeqId) : Bool :=
  let t := tierOf q.core
  decide (s.leaveUsed t + leaveCost (s.seqr q).hdr.leave ≤ leaveBudget (s.tier t).level)

/-- A suspended LEASE block that a restored stream goes on with, to which the leave has not been granted again (R102). -/
def Stream.owesLeave (x : Stream) : Bool := x.inLease && x.cm.hdr.leave != 0 && x.cm.leaveHeld != some x.cm.hdr.leave

/-- Conditions 1 to 5 hold for the next block of a sequencer; or its suspended block has the lease again and lacks the leave. -/
def State.beforeLeave (s : State) (q : SeqId) : Bool :=
  (s.mayAdmit (s.strm q) q.sec && s.waitsOk q.core q.slot q.sec && s.leaseOk q.core q.slot (s.seqr q).hdr)
    || (q.sec == .cm && (s.strm q).owesLeave && (s.core q.core).lease.holder == some q.slot)

/-- Cycles after which no request passes the first one of its tier: DESIGN CHOICE (log 34), half of the 4,096 cycles of R317. -/
def leavePassing : Nat := 2048

/-- A posted request of the tier goes before that of `q`: one the budget covers, or one that has waited so long that none passes it. -/
def State.leaveBehind (s : State) (q : SeqId) : Bool :=
  (s.tierSeqs (tierOf q.core)).any fun o =>
    match (s.seqr o).leaveAsked with
    | some t => s.leaveBefore o q && s.beforeLeave o && (s.leaveFits o || decide (t + leavePassing ≤ s.dclk.toNat))
    | none => false

/-- LEAVE_GRANT: the governor answers a posted request: granted when the budget covers it and no request goes before it;
a denial in a stream that holds the lease releases the lease (R40), whichever of its sequencers asked. -/
def execLeaveGrant (q : SeqId) (s : State) : Out :=
  let y := s.seqr q
  if y.leaveAsked.isNone then .next s
  else if !s.beforeLeave q then .next (s.setSeqr q { y with leaveAsked := none, leaveAged := false })
  else if s.leaveBehind q then .next s
  else if s.leaveFits q then
    .next (s.setSeqr q { y with leaveHeld := some y.hdr.leave, leaveAsked := none, leaveAged := false })
  else if (s.core q.core).lease.holder == some q.slot then .next (s.leaseEnd q.core)
  else .next s

/-- LEAVE_REQUEST_AGING: posted for 65,536 cycles. -/
def execLeaveRequestAging (q : SeqId) (s : State) : Out :=
  let y := s.seqr q
  match y.leaveAsked with
  | some t => .next (if t + 65536 ≤ s.dclk.toNat then s.setSeqr q { y with leaveAged := true } else s)
  | none => .next s

/-- STREAM_WAIT_ESCAPE: admissible for 4,096 cycles. -/
def execStreamWaitEscape (q : SeqId) (s : State) : Out :=
  let y := s.seqr q
  match y.since with
  | some t =>
    .next (if t + 4096 ≤ s.dclk.toNat && s.admissible q.core q.slot q.sec then s.setSeqr q { y with escape := true } else s)
  | none => .next s

/-! Admission -/

/-- The access with which a block's admission reads a barrier of G, once conditions 1 to 3 hold. -/
def State.barrierRead (s : State) (x : Stream) (c : Section) : Option Xl :=
  let y := x.seqr c
  match (if y.reached && tokensOk x c y.hdr && tagsOk x y.hdr then y.hdr.wbar else none) with
  | none => none
  | some k =>
    let a := bwAddr (x.bwReg k)
    if a = 0 || (spAlias a).isSome then none
    else match s.access ((s.slotOf x.ref).map (·.1)) (x.mx.getD 0) a .read false with
      | .ok t => some t
      | .error _ => none

/-- Its home serves it now: in a slot and the turns of the partition (R328, R346, R348), and with no exchange of its frame (R392). -/
def State.barrierOpen (s : State) (x : Stream) (c : Section) : Bool :=
  match s.barrierRead x c with
  | none => true
  | some t => s.mayReachMx (x.mx.getD 0) && s.turnAt t.page.part (rangeResources t.pa 1) && !s.exchanging t.pa 16

/-- It has been served. -/
def State.barrierServed (s : State) (x : Stream) (c : Section) : State :=
  match s.barrierRead x c with
  | none => s
  | some t => (s.servedAll t.page.part (rangeResources t.pa 1)).meets [(t.pa, 16)]

/-- The word of a micro-context's binding is still to be written: the first admission stands behind it (R350 rule 5). -/
def State.wordOwed (s : State) (m : Nat) : Bool := s.devWrites.any fun w => w.mx == m && w.kind == .binding

/-- A fault stands at the sequencer's header: its fetch, the check of its barrier (R42), or a pending error of a tag it consumes (R241). -/
def State.faultsAt (s : State) (x : Stream) (c : Section) : Bool :=
  let y := x.seqr c
  match s.slotOf x.ref with
  | none => false
  | some e =>
    if !y.reached then (match s.headerAt false e.1 (x.mx.getD 0) c y.pc.toNat with | .fault _ => true | _ => false)
    else tokensOk x c y.hdr && tagsOk x y.hdr && (match s.barrierWait e.1 e.2 y.hdr with
      | .fault _ => true
      | .ok => (x.pendingOf (consumedTags x y.hdr)).isSome
      | .no => false)

/-- A held stream admits nothing; in the cycle in which it becomes held, another of its sequencers may raise a fault at its header too (R394). -/
def State.mayRaise (s : State) (x : Stream) (c : Section) : Bool := !x.held || (x.heldAt == s.dclk.toNat && s.faultsAt x c)

/-- The sequencer stands at a header that it may look at. -/
def State.mayLook (s : State) (x : Stream) (c : Section) : Bool :=
  match x.mx with
  | none => false
  | some m =>
    (s.mx m).st == .bound && ((s.mx m).ending == none || (s.mx m).ending == some .drain) && s.mayRaise x c && !(x.seqr c).stopped
      && !(s.part (s.mx m).part).pausing
      && (x.seqr c).phase == .waiting && !s.wordOwed m && s.barrierOpen x c

/-- A sequencer whose header could not be read yet looks again; a failed read is a fault at the header. -/
def State.lookAgain (s : State) (q : SeqId) : State :=
  let s1 := s.reachAgain q
  let y := s1.seqr q
  if y.reached || ((s1.strm q).held && (s1.strm q).heldAt != s1.dclk.toNat) then s1
  else match s1.headerAt false q.core ((s1.strm q).mx.getD 0) q.sec y.pc.toNat with
    | .fault e => s1.raiseHeader q (e.info 0 0 0 spG y.pc.toNat)
    | _ => s1

/-- The lease asked for a block; a holder whose term does not allow the block ends its term and asks again (R40). -/
def State.needLease (s : State) (q : SeqId) (h : Header) : State :=
  if s.leaseOk q.core q.slot h then s
  else
    let c := s.core q.core
    if c.lease.holder = some q.slot then
      (s.setCore q.core { c with lease := { c.lease with asks := c.lease.asks ++ [q.slot] } }).leaseEnd q.core
    else s.leaseAsk q.core q.slot

/-- BLOCK_ADMISSION (R37): the conditions in order, what each of them posts or withdraws, the choice among streams, then the
admission; pending errors of the tags whose bits the wait consumes are raised in its place (R241). DESIGN CHOICE (log 64): condition 4 is first
evaluated, and its fault (R42) raised, once conditions 1 to 3 hold; R37 and R42 give no order. -/
def execBlockAdmission (q : SeqId) (s : State) : Out :=
  let x := s.strm q
  let y := x.seqr q.sec
  let h := y.hdr
  if !s.mayLook x q.sec then .next s
  else if !y.reached then .next (s.lookAgain q)
  else if !(tokensOk x q.sec h && tagsOk x h) then .next (s.withdrawSeq q.core q.slot q.sec)
  else match s.barrierWait q.core q.slot h with
    | .no => .next (s.withdrawSeq q.core q.slot q.sec)
    | .fault f => .next (s.raiseHeader q f)
    | .ok =>
      let s1 := s.needLease q h
      if !s1.leaseOk q.core q.slot h then
        .next (s1.setSeqr q { s1.seqr q with leaveAsked := none, leaveAged := false, since := none, escape := false })
      else if h.leave ≠ 0 ∧ y.leaveHeld ≠ some h.leave then
        (if y.leaveAsked.isSome then .next s1
         else .next ((s1.setSeqr q { s1.seqr q with leaveAsked := some s.dclk.toNat, since := none, escape := false }).countShared x.mx 0x104 1))
      else
        let s2 := s1.setSeqr q { s1.seqr q with since := some (y.since.getD s.dclk.toNat) }
        if s2.unitBusy q.core q.sec || s2.pick q.core q.sec != some q.slot then .next s2
        else match x.pendingOf (consumedTags x h) with
          | some (t, e) => .next ((s.setStrm q (x.clearErr t)).raiseHeader q e.info)
          | none => .next ((s2.barrierServed x q.sec).beginBlock q)

/-- BLOCK_INSTANCE_END (R39): the last word has run; the block goes on to its next instance, or the sequencer to the header behind it. -/
def execBlockInstanceEnd (q : SeqId) (s : State) : Out :=
  let y := s.seqr q
  if y.phase == .running && y.left == 0 && !y.stopped then .next (s.endInstance q y.pc) else .next s

/-! Tokens produced late -/

/-- The first list entry without the element `p`. -/
def eraseFirst {α : Type} [DecidableEq α] (p : α) : List α → List α
  | [] => []
  | x :: r => if x = p then r else x :: eraseFirst p r

/-- The oldest token of a queue waiting to be produced, when the accesses before it have been performed; then the tile-task may end. -/
def State.producePush (s : State) (core slot queue : Nat) (settle : Bool) : State :=
  let x := s.stream core slot
  match x.pushes.find? fun p => p.queue == queue with
  | none => s
  | some p =>
    if p.settle == settle && s.effectsDone { core := core, slot := slot, sec := p.sec } p.before then
      (s.setStream core slot ({ x with pushes := eraseFirst p x.pushes }.produce queue p.n)).taskEnd core slot
    else s

def execBlockEndPushSettlement (core slot queue : Nat) (s : State) : Out := .next (s.producePush core slot queue true)
def execPushAfterToken (core slot queue : Nat) (s : State) : Out := .next (s.producePush core slot queue false)

/-! The lease -/

/-- LEASE_TERM_LIMIT: 16,384 cycles; a block of the holder in progress runs to its end first (R40, R102). -/
def execLeaseTermLimit (core : Nat) (s : State) : Out :=
  let c := s.core core
  if c.lease.holder.isSome ∧ c.lease.start + leaseCycles ≤ s.dclk.toNat then
    (if s.leaseInUse core then .next (s.setCore core { c with lease := { c.lease with release := true } }) else .next (s.leaseEnd core))
  else .next s

/-- LEASE_IDLE_RELEASE: 64 cycles without a block of the holder while another stream asks (R102). -/
def execLeaseIdleRelease (core : Nat) (s : State) : Out :=
  let l := (s.core core).lease
  match l.holder, l.idleSince with
  | some _, some t => .next (if t + 64 ≤ s.dclk.toNat && l.wants != [] && !s.leaseInUse core then s.leaseEnd core else s)
  | some k, none =>
    -- a block that a held fault has suspended leaves the holder with no block admitted
    let y := (s.stream core k).cm
    .next (if (y.phase == .running && !y.stopped) ∨ l.wants = [] then s
      else s.setCore core { s.core core with lease := { l with idleSince := some s.dclk.toNat } })
  | _, _ => .next s

/-- LEASE_HOLD_EXPIRY: a lease granted for a block that is no longer admissible, held for 64 cycles (R38). -/
def execLeaseHoldExpiry (core : Nat) (s : State) : Out :=
  match (s.core core).lease.holdSince with
  | some t => .next (if t + 64 ≤ s.dclk.toNat then s.leaseEnd core else s)
  | none => .next s

end Sys2Proof.Machine
end

