-- ==== Sys2Proof/Machine/Save.lean ====
section
/-! DEFINITION. Saving a team and restoring it (R103, R314, R353, R354, R384 to R391): the check and the ordered stop, the report, the
drain to the save area, the placing of streams on the cores of a tile group, and the replay of frozen copies. -/

namespace Sys2Proof.Machine

/-! The save area (R384) -/

/-- SASZ. -/
def saveSize (r : LaunchRec) : Nat := 4096 + 4 * r.tgcols * r.nstrm * (r.spbanks + 2) * 65536

/-- The translations of a range for an access, piece by piece of 4 KiB, a page once; or the first failure and its address. -/
def State.rangePages (s : State) (m : Nat) (need : Need) : Nat → Nat → Nat → List TlbEntry → Except (XlErr × Nat) (List TlbEntry)
  | 0, _, _, acc => .ok acc
  | f + 1, va, n, acc =>
    if n = 0 then .ok acc
    else match s.access none m va need false with
      | .error e => .error (e, va)
      | .ok x =>
        let k := 4096 - va % 4096
        s.rangePages m need f (va + k) (n - k) (if acc.contains x.page then acc else x.page :: acc)

/-- Step 1 of R385, and the translation of a restore's read: every page of the save area. -/
def State.saveAreaPages (s : State) (m : Nat) (need : Need) : Except (XlErr × Nat) (List TlbEntry) :=
  match (s.mx m).team with
  | some t => s.rangePages m need (saveSize t.lr / 4096 + 2) (s.mx m).savea.toNat (saveSize t.lr) []
  | none => .ok []

/-- The SAVE fault (R388): reason 1 TRANSL, 2 PERM, 3 INVALID; the core named is tier 0 of the first logical column (R380). -/
def State.saveFault (s : State) (m reason addr : Nat) : State :=
  let x := s.mx m
  let (core, size) := match x.team with
    | some t => (s.coreOf t.stack 0 t.col, saveSize t.lr)
    | none => (0, 0)
  let f : FaultInfo := { code := 0x12, reason := reason, space := spG, addr := addr, aux := size }
  (s.queueEvent 0x12 m (recordBytes f 8 core 0 m 0 x.gen.toNat s.dclk.toNat)).goFaulted m

/-- The reason of a failed translation or read of the save area: PERM, INVALID where a block of it is uncorrectable, else TRANSL (R388). -/
def XlErr.saveReason (e : XlErr) : Nat := if e.code = 4 then 2 else if e.code = 6 then 3 else 1

/-- The first address of a save area, from `va` on, that lies in an uncorrectable block. -/
def State.areaBad (s : State) (l : List TlbEntry) : Nat → Nat → Option Nat
  | 0, _ => none
  | n + 1, va =>
    match (l.find? fun e => decide (e.va ≤ va ∧ va < e.va + e.size)).bind fun e => (s.badIn (e.paOf va) 4096).map fun b => va + (b - e.paOf va) with
    | some a => some a
    | none => s.areaBad l n (va + 4096)

/-- The translations of a save's first step would stall on the frames of an exchange (R392): the save begins after it. -/
def State.areaStalls (s : State) (m : Nat) : Bool :=
  match s.exchange, s.saveAreaPages m .write with
  | some x, .ok l => l.any x.maps
  | _, _ => false

/-- A checkpoint, drain or swap of a bound team begins: the check, then the ordered stop. -/
def State.beginSave (s : State) (m : Nat) (k : EndKind) : State :=
  match s.saveAreaPages m .write with
  | .error (e, va) => s.saveFault m e.saveReason va
  | .ok l => s.setMx m { s.mx m with ending := some k, savePages := l }

/-- A kill of a bound team begins (R316). -/
def State.beginKill (s : State) (m : Nat) : State := s.setMx m { s.mx m with ending := some .kill }

/-- A drain of a team with a held stream acts as a checkpoint (R381). -/
def State.anyHeld (s : State) (m : Nat) : Bool := (s.teamSlots m).any fun e => (s.stream e.1 e.2).held

/-! The stop (R385 step 2) -/

/-- Scalar operations whose results a stopping team still waits for, replies that read the scratchpad, and peer images. A value that an uncorrectable
error has lost is not delivered: the loss is kept for its first consumer, in the saved team too (R214). -/
def State.stopPending (s : State) (m : Nat) : Bool :=
  (s.reqs.any fun r => r.mx == m && r.ref.isSome && !r.isCredit && (r.dest.isSome || r.bw.isSome) && !(r.performed && r.err.isSome))
    || (s.emits.any fun e => e.ref.mx == m) || (s.peers.any fun p => p.ref.mx == m)

/-- Accesses of the team's sequencers still to be performed (R385 step 4): scalar ones, the credits and arrivals that finished copies have
sent to barriers, and the data reads of KV commands that the chiplet has not taken up yet. -/
def State.accessPending (s : State) (m : Nat) : Bool :=
  (s.reqs.any fun r => r.mx == m && (r.ref.isSome || r.isCredit) && !r.performed) || s.kvs.any fun k => k.ref.mx == m && !k.started

/-! Freezing (R353, R385 step 3) -/

/-- Copies of a team that a stop freezes: all but block transfers, and those whose last unit has been performed, which complete normally. -/
def Copy.freezes (c : Copy) (m : Nat) : Bool := c.ref.mx == m && c.kind != .bt && !c.allDone

def State.freezeCopies (s : State) (m : Nat) : State :=
  { s with copies := s.copies.map fun c => if c.freezes m then { c with frozen := true } else c }

/-! The report (R385 step 6) -/

/-- The bytes of a stream's window, by window offset. -/
def Core.windowBytes (c : Core) (x : Stream) : Memory :=
  x.banks.zipIdx.flatMap fun b =>
    c.sp.filterMap fun e =>
      if 65536 * b.1.bank ≤ e.1 ∧ e.1 < 65536 * (b.1.bank + 1) then some (65536 * b.2 + (e.1 - 65536 * b.1.bank), e.2) else none

/-- The streams of a team with their windows (R386). -/
def State.teamImage (s : State) (m : Nat) : List (Stream × Memory) :=
  (s.teamSlots m).map fun e => (s.stream e.1 e.2, (s.core e.1).windowBytes (s.stream e.1 e.2))

/-- The kinds that save. -/
def EndKind.saves : EndKind → Bool
  | .ckpt => true
  | .drain => true
  | .swap => true
  | _ => false

/-- A copy of the team that has performed its last unit, and so is not frozen, has still to complete: its barrier credit, its flags and its tag belong
to the saved state (R385 steps 3 to 6). -/
def State.completing (s : State) (m : Nat) : Bool := s.copies.any fun c => c.ref.mx == m && c.kind != .bt && c.allDone && !c.frozen

/-- A stream of a team that a save stops has stopped: its sequencers stand, its results are delivered, its replies have read the scratchpad, and its peer
images are performed (R385 step 2). -/
def State.streamStopped (s : State) (drain : Bool) (core slot : Nat) : Bool :=
  let x := s.stream core slot
  (if drain then x.atDrain else x.isStopped)
    && (s.reqs.all fun r => r.ref != some x.ref || r.isCredit || !(r.dest.isSome || r.bw.isSome) || (r.performed && r.err.isSome))
    && (s.emits.all fun e => e.ref != x.ref) && s.peers.all fun p => p.ref != x.ref

/-- A stopped stream that holds the matrix lease releases it, with its requests (R385 step 2). -/
def State.releaseLease (s : State) (core slot : Nat) : State :=
  let c := s.core core
  if c.lease.holder = some slot then
    (s.setCore core { c with
      lease := { c.lease with asks := c.lease.asks.filter (· != slot), posted := c.lease.posted.filter (· != slot) } }).leaseEnd core
  else s

/-- The leases of the streams that saves have stopped. -/
def State.releaseLeases (s : State) : State :=
  (s.mxs.filter fun e => e.2.st == .bound && (e.2.ending.elim false EndKind.saves)).foldl
    (fun t e => (t.teamSlots e.1).foldl (fun u k => if u.streamStopped (e.2.ending == some .drain) k.1 k.2 then u.releaseLease k.1 k.2 else u) t) s

/-- SAVE_REPORT: it waits for room in the shutter stores, which other saves of the cores may still take (log 13). -/
def execSaveReport (m : Nat) (s : State) : Out :=
  match (s.mx m).ending with
  | none => .next s
  | some k =>
    let room : Bool := match (s.mx m).team with | some t => s.shutRoom t | none => true
    if (s.mx m).st != .bound || !k.saves || (s.mx m).drain.isSome || !s.teamStopped m (k == .drain) || s.stopPending m || s.accessPending m || s.completing m || !room then .next s
    else
      let s0 := s.freezeCopies m
      let s1 := match (s.mx m).team with | some t => s0.takeShutter m t | none => s0
      let x := s1.mx m
      let im : Image :=
        { kind := k, streams := s1.teamImage m, inShutter := true, drained := false, gen := x.gen + 1, stamp := s.dclk.toNat,
          panes := [], homeless := false }
      let x1 := { (x.advance).bump 6 1 with
        st := if k = .swap then .swapped else .saved, ending := none, image := some im,
        savePages := []
        drain := x.team.map fun t =>
          { pages := x.savePages, kind := k, gen := x.gen + 1, stamp := s.dclk.toNat, bytes := saveSize t.lr - 4096, tgrp := 256 * t.stack + t.col } }
      .next (((s1.setMx m x1).releaseTeam m (k == .swap) none).snapshot m)

/-! The drain (R385 step 7) -/

/-- KIND of Table 20.4. -/
def EndKind.code : EndKind → Nat
  | .ckpt => 1
  | .drain => 2
  | _ => 3

/-- The header of a save area with SVST as given. -/
def saveHeader (svst gen dclk bytes tgrp : Nat) : List Byte :=
  leBytes 1 svst ++ leBytes 3 0 ++ leBytes 4 gen ++ leBytes 8 dclk ++ leBytes 8 bytes ++ leBytes 2 tgrp ++ leBytes 38 0

/-- Bytes that only a DU5 reads. -/
def opaqueBytes (n k : Nat) : List Byte := (List.range n).map fun i => Config.imageByte k i

/-- Bytes of at most a 4 KiB piece written through the translations `ps` that the save holds (R385 step 1), enciphered under a key slot, none for
what the page's own attribute asks. A cached copy of a block is written back first, so that the block is stored under that key. -/
def State.writeHeldPiece (s : State) (m : Nat) (ps : List TlbEntry) (key : Option Nat) (va : Nat) (l : List Byte) : State :=
  match ps.find? fun e => decide (e.va ≤ va ∧ va < e.va + e.size) with
  | none => s
  | some e =>
    let pa := e.paOf va
    let k := key.or (if e.enc then some (s.mx m).kslot else none)
    let s1 := s.evict (some m) (s.llc.filter fun b => decide (pa / 64 ≤ b.1 ∧ b.1 < (pa + l.length + 63) / 64))
    (s1.writePa k pa l).logDirty (s.mx m).part (e.ipaOf va)

/-- Bytes written to the save area, piece by piece: no write can fail (R388). -/
def State.writeHeldAux (s : State) (m : Nat) (ps : List TlbEntry) (key : Option Nat) : Nat → Nat → List Byte → State
  | 0, _, _ => s
  | f + 1, va, l =>
    if l = [] then s
    else
      let k := 4096 - va % 4096
      (s.writeHeldPiece m ps key va (l.take k)).writeHeldAux m ps key f (va + k) (l.drop k)

def State.writeHeld (s : State) (m : Nat) (ps : List TlbEntry) (key : Option Nat) (va : Nat) (l : List Byte) : State :=
  s.writeHeldAux m ps key (l.length / 4096 + 2) va l

/-- The physical ranges of `n` bytes at `a` through the pages that a save holds. -/
def heldSpans (ps : List TlbEntry) (a n : Nat) : List (Nat × Nat) :=
  (List.range (n / 4096)).filterMap fun i =>
    (ps.find? fun e => decide (e.va ≤ a + 4096 * i ∧ a + 4096 * i < e.va + e.size)).map fun e => (e.paOf (a + 4096 * i), 4096)

/-- The homes of a save area serve its micro-context's partition now: READY (R418), in a slot (R328), and in its turns (R348). -/
def State.areaOpen (s : State) (m : Nat) (l : List (Nat × Nat)) : Bool :=
  (l.all fun e => s.paUp e.1 e.2) && s.homeServes (s.mx m).part && s.turnAt (s.mx m).part (spanResources l)

/-- SAVE_DRAIN_COMPLETE: SVST cleared, the image, enciphered under the micro-context's key (R334), the header, then VALID; the shutter stores
are zero and free again. A team that a restore has taken from them meanwhile keeps nothing there. -/
def execSaveDrainComplete (m : Nat) (s : State) : Out :=
  let x := s.mx m
  match x.drain with
  | none => .next s
  | some d =>
    let a := x.savea.toNat
    let k := s.fresh
    let spans := heldSpans d.pages a (d.bytes + 4096)
    if !s.areaOpen m spans then .next s
    else
    let s0 := ({ s with fresh := s.fresh + 2 }.writeHeld m d.pages none a [0]).writeHeld m d.pages (some x.kslot) (a + 4096) (opaqueBytes d.bytes k)
    let s1 := s0.writeHeld m d.pages none (a + 64) (opaqueBytes 4032 (k + 1))
    -- a region with an uncorrectable block gives no valid image (log 56)
    let s2 := (s1.writeHeld m d.pages none a (saveHeader 0 d.gen.toNat d.stamp d.bytes d.tgrp)).writeHeld m d.pages none a
      [BitVec.ofNat 8 ((if s.shutBad m then 0 else 1) + 2 * d.kind.code)]
    .next ((((s2.servedAll x.part (spanResources spans)).readShutter m).dropShutter m).setMx m
      { s2.mx m with drain := none, image := x.image.map fun im => { im with inShutter := false, drained := true } })

/-- The tile group that a saved or swapped team is to run on: the one reserved for it, else its own. -/
def Mx.target (x : Mx) (t : Team) : Team :=
  match x.reserved with
  | some g => { t with stack := g.1, col := g.2 }
  | none => t

/-- The image of a team stands in the shutter stores of the group that it is to run on, or came with a migration. -/
def Mx.imageAtHand (x : Mx) (im : Image) (t : Team) : Bool := im.inShutter && (im.homeless || x.target t == t)

/-- RESTORE_IMAGE_LOADED: an image that does not stand in the shutter stores of the team's tile group, since they have been freed or the team moves
to another group (R415), is read there from the save area once its drain has ended; a failed translation or an invalid header ends the
restore (R389, R390). -/
def execRestoreImageLoaded (m : Nat) (s : State) : Out :=
  let x := s.mx m
  match x.image, x.team with
  | some im, some t0 =>
    let t := x.target t0
    if x.imageAtHand im t0 || x.drain.isSome || !(x.st == .saved || x.st == .swapped) || !s.vaUp none m x.savea.toNat (saveSize t.lr) then .next s
    else if !s.areaOpen m (s.vaSpans none m x.savea.toNat (saveSize t.lr)) then .next s
    else match s.saveAreaPages m .read with
      | .error (e, va) => .next (s.saveFault m e.saveReason va)
      | .ok ps =>
        match s.readVa none m x.savea.toNat 8 with
        | .error e => .next (s.saveFault m e.saveReason x.savea.toNat)
        | .ok l =>
          if bit (fieldLe l 0 1) 0 ∧ fieldLe l 4 4 = im.gen.toNat then
            match s.areaBad ps (saveSize t.lr / 4096) x.savea.toNat with
            | some a => .next (s.saveFault m 3 a)
            | none =>
              let s1 := (s.devServed m x.savea.toNat (saveSize t.lr)).dropShutter m
              if s1.shutRoom t then
                .next ((s1.takeShutter m t).setMx m { x with team := some t, image := some { im with inShutter := true } })
              else .next s
          else .next (s.saveFault m 3 x.savea.toNat)
  | _, _ => .next s

/-! Placing streams on a tile group (R30, R155, R307 step 2) -/

/-- Stream slots of a core that hold no stream and wait for no scrub. -/
def Core.freeSlots (c : Core) : List Nat :=
  (List.range 8).filter fun k => (AMap.get Stream.reset c.streams k).mx.isNone && !c.scrubSlots.contains k

/-- Core `n` with a stream placed in a slot: its banks get owner tags with new generations and the bytes of its window. -/
def Core.place (c : Core) (n slot : Nat) (bs : List Nat) (x : Stream) (win : Memory) : Core :=
  let gens := bs.map fun b => (b, ((AMap.get BankTag.reset c.tags b).gen + 1))
  let tags := gens.foldl (fun t g => t.put g.1 { valid := true, slot := slot, gen := g.2 }) c.tags
  let sp := win.foldl (fun m e => m.write (65536 * (bs.getD (e.1 / 65536) 0) + e.1 % 65536) e.2) c.sp
  { c with streams := c.streams.put slot { x with banks := gens.map fun g => { core := n, bank := g.1, gen := g.2.toNat } }, tags := tags, sp := sp }

/-- Streams placed on the cores of a team: stream index k of a core takes the k-th free slot and the next SPBANKS free banks. -/
def State.placeStreams (s : State) (t : Team) (l : List (Stream × Memory)) : State :=
  (s.teamCores t).foldl
    (fun (u : State) g =>
      let (coff, tier, core) := g
      let c := u.core core
      let slots := c.freeSlots
      let banks := u.freeBanks core
      let mine := l.filter fun p => p.1.coff == coff && p.1.tier == tier
      u.setCore core (mine.foldl
        (fun k p => k.place core (slots.getD p.1.tsidx 0) ((banks.drop (t.lr.spbanks * p.1.tsidx)).take t.lr.spbanks) p.1 p.2) c)) s

/-! Restoring (R389, R354) -/

/-- A core number that no core has: reads of the device on behalf of a micro-context use no TLB. -/
def noCore : Nat := 0x10000

/-- A sequencer at its resume point. -/
def Seqr.resume (y : Seqr) : Seqr :=
  { y with stopped := false, since := none, escape := false, yielded := none, leaveAsked := none, leaveAged := false, leaveHeld := none }

def Stream.resume (x : Stream) : Stream :=
  { x with sc := x.sc.resume, ld := x.ld.resume, cm := x.cm.resume, st := x.st.resume, held := false, swing := none,
           refreshWait := none }

/-- The G addresses of a unit with what their accesses need. -/
def Copy.gSides (c : Copy) (n : Nat) : List (Nat × Need) :=
  (match c.src n with
   | .g va => [(va, Need.read)]
   | _ => [])
  ++ (match c.dst n with
   | .g va => [(va, .write)]
   | .red va _ => [(va, .write)]
   | _ => [])

/-- One side of a unit of a replayed copy: its page translated anew, or the unit not performed and the error kept, for the tag or, of a block
transfer, for its record. -/
def State.replaySide (s : State) (core n : Nat) (c : Copy) (side : Nat × Need) : Copy :=
  let (va, need) := side
  match s.access (some core) c.ref.mx va need false with
  | .ok x =>
    if c.kind = .bt ∧ need = .write then
      (if c.dpages.any fun e => e.va == x.page.va then c else { c with dpages := x.page :: c.dpages })
    else if c.pages.any fun e => e.va == x.page.va then c else { c with pages := x.page :: c.pages }
  | .error e =>
    let p : PendErr :=
      { code := e.code, reason := e.reason, opnd := 0, stglv := e.stage * 16 + e.level, coord0 := c.rowOf n, coord1 := c.colOf n,
        space := s.spaceAt (some core) c.ref.mx va, addr := va, baddr := some (va / 64 * 64) }
    if c.kind = .bt then
      (if c.status = 0 then
        { c with done := n :: c.done, status := (if e.code = 4 then 3 else if e.code = 6 then 6 else 2),
                 fcode := (if e.code = 6 then 0 else (e.stage * 16 + e.level) * 256 + e.reason), fva := va }
      else { c with done := n :: c.done })
    else { c with done := n :: c.done, err := c.err.or (some p) }

def State.replayUnit (s : State) (core : Nat) (c : Copy) (n : Nat) : Copy := (c.gSides n).foldl (fun d e => s.replaySide core n d e) c

/-- The page of a unit that a TSTORE or SCATTER has performed before the freeze, by which a lower row to the same place is known (R245, R247). -/
def State.replayDone (s : State) (core : Nat) (c : Copy) (n : Nat) : Copy :=
  if c.kind = .tstore ∨ c.kind = .scatter then
    match s.access (some core) c.ref.mx (c.unitG n) .write false with
    | .ok x => if c.pages.any fun e => e.va == x.page.va then c else { c with pages := x.page :: c.pages }
    | .error _ => c
  else c

/-- The G barrier of a replayed copy, translated anew; where that fails the credit is not made and the tag carries the error, as operand 2 (log 45). -/
def State.replayBar (s : State) (core : Nat) (c : Copy) : Copy :=
  match c.bar with
  | none => c
  | some w =>
    if (spAlias (bwAddr w)).isSome then c
    else match s.access (some core) c.ref.mx (bwAddr w) .write false with
      | .ok x => { c with barPage := some x.page }
      | .error e =>
        let p : PendErr :=
          { code := e.code, reason := e.reason, opnd := 2, stglv := e.stage * 16 + e.level, coord0 := 0, coord1 := 0,
            space := s.spaceAt (some core) c.ref.mx (bwAddr w), addr := bwAddr w, baddr := some (bwAddr w / 64 * 64) }
        { c with bar := none, barPage := none, err := c.err.or (some p) }

/-- A frozen copy goes on: units dropped at a changed owner tag are performed again, pages are translated anew, sills granted anew. -/
def State.replayCopy (s : State) (c : Copy) : State :=
  match s.slotOf c.ref with
  | none =>
    -- a block transfer needs no stream
    if c.kind = .bt then
      let c1 := { c with frozen := false, pages := [], dpages := [] }
      s.setCopy (((List.range c.units).filter fun n => !c1.done.contains n).foldl (fun d n => s.replayUnit noCore d n) c1)
    else s
  | some (core, slot) =>
    let x := s.stream core slot
    let done := c.done.filter fun n => !c.stale.contains n
    let c1 := { c with gens := x.banks, done := done, stale := [], frozen := false, pages := [], dpages := [] }
    let todo := (List.range c.units).filter fun n => !done.contains n
    let c2 := { s.replayBar core (todo.foldl (fun d n => s.replayUnit core d n) (done.foldl (fun d n => s.replayDone core d n) c1)) with
                grantNo := s.nextId }
    let sills := (todo.filterMap fun n => if c2.done.contains n then none else c2.sillOfUnit n).eraseDups
    (s.setCore core ((s.core core).grant c.id sills)).setCopy c2

def State.replayCopies (s : State) (m : Nat) : State :=
  (s.copies.filter fun c => c.ref.mx == m && c.frozen).foldl (fun t c => t.replayCopy c) s

/-- Streams that stood at a tile-task boundary start their next tile-task. -/
def State.startBoundaries (s : State) (m : Nat) : State :=
  (s.teamSlots m).foldl
    (fun t e =>
      let x := t.stream e.1 e.2
      if x.atBoundary then (t.setStream e.1 e.2 { x with atBoundary := false }).startTask e.1 e.2 else t) s

/-- The same bytes in canonical form: an image written by another DU5 brings panes in any. -/
def Memory.canonical (m : Memory) : Memory := m.reverse.foldl (fun a c => Memory.write a c.1 c.2) []

/-- Casements carried by a migration put back, owned by the team (R103). DESIGN CHOICE (log 58): the group chosen for such a team is one whose
casements have no owner and wait for no scrub (`State.groupFits`), which the spec does not say; what its cores' panes hold is replaced. -/
def State.placePanes (s : State) (m : Nat) (t : Team) (l : List (Nat × Nat × Casement)) : State :=
  l.foldl
    (fun (u : State) e =>
      let core := u.coreOf t.stack e.2.1 (t.col + e.1)
      u.setCore core { u.core core with
        cw := { e.2.2 with owner := some m, pane0 := e.2.2.pane0.canonical, pane1 := e.2.2.pane1.canonical } }) s

/-- The image of a team brought back to the cores of its tile group: the event word, the transition, the streams, the copies. -/
def State.restoreTeam (s : State) (m : Nat) : State :=
  match (s.mx m).image, (s.mx m).team with
  | some im, some t =>
    let s1 := s.deliverEvents m
    let x := s1.mx m
    let s2 := s1.setMx m { x.advance with
      st := .bound, image := none, ending := none, lastAdmit := s.dclk.toNat, reserved := none,
      returnedAt := if x.st = .swapped then some s.dclk.toNat else none, coldNext := x.coldHigh - 1 }
    let l := im.streams.map fun p => (p.1.resume, p.2)
    (((((if x.drain.isSome then s2 else s2.dropShutter m)).placeStreams t l).placePanes m t im.panes).replayCopies m).startBoundaries m
  | _, _ => s

/-- The image taken from the shutter stores; one with an uncorrectable block there is no valid image (R388, R416, log 56). -/
def State.restoreImage (s : State) (m : Nat) : State :=
  if s.shutBad m then s.saveFault m 3 (s.mx m).savea.toNat else (s.readShutter m).restoreTeam m

/-- Every core of a tile group has the slots and banks of a team (R47). -/
def State.groupHolds (s : State) (stack col cols nstrm spbanks : Nat) : Bool :=
  (s.groupCores stack col cols).all fun g =>
    decide (nstrm ≤ (s.core g.2.2).freeSlots.length ∧ nstrm * spbanks ≤ (s.freeBanks g.2.2).length)

end Sys2Proof.Machine
end

