-- ==== Sys2Proof/Machine/Bind.lean ====
section
/-! DEFINITION. From a waiting micro-context to a bound team (R26 to R30, R46, R47, R305 to R316): the launch record and its check, free
tile groups, the choice of victims, binding, EDF, the overrun, and the threshold swap. -/

namespace Sys2Proof.Machine

/-! The launch record (R26, R27, R29) -/

/-- A level descriptor: COUNT and DOM. -/
def levelOf (w : Nat) : Nat × Nat := (bits w 23 0, bits w 26 24)

def launchOf (l : List Byte) (shapes : List Shape) : LaunchRec :=
  let f := fieldLe l
  { rstrt := bit (f 3 1) 0, ckpt := bit (f 3 1) 1, drain := bit (f 3 1) 2, tgcols := f 4 1, nstrm := f 5 1, spbanks := f 6 1,
    codeSc := BitVec.ofNat 64 (f 8 8), codeLd := BitVec.ofNat 64 (f 0x10 8), codeCm := BitVec.ofNat 64 (f 0x18 8),
    codeSt := BitVec.ofNat 64 (f 0x20 8), levels := (List.range (f 2 1)).map fun i => levelOf (f (0x28 + 8 * i) 8),
    shapes := shapes, lorder := BitVec.ofNat 64 (f 0x80 8), nlayers := f 0x88 2, est0 := f 0x90 4 }

/-- A code address is a block header of its section, in executable code of the micro-context. -/
def State.codeOk (s : State) (m : Nat) (c : Section) (va : Nat) : Bool :=
  s.isHeader false noCore m c va

/-- A level descriptor is well formed at its place: `prev` is the DOM of the level inside it. -/
def levelOk (i n w : Nat) (prev : Option Nat) : Bool :=
  if n ≤ i then w == 0
  else bits w 63 27 == 0 && bits w 23 0 != 0
    && (match prev with | none => bits w 26 24 == 0 | some d => decide (d < bits w 26 24))

/-- The offset of the first field of the record that breaks a limit. DESIGN CHOICE (log 64): where several break one, COORD0 names the lowest offset, and the
record's own fields come before its arrays; R29 does not say which. -/
def State.launchField (s : State) (m : Nat) (l : List Byte) : Option Nat :=
  let f := fieldLe l
  let lev := fun i => f (0x28 + 8 * i) 8
  let nlev := f 2 1
  let levels := (List.range 8).map fun i =>
    (0x28 + 8 * i, levelOk i nlev (lev i) (if i = 0 then none else some (bits (lev (i - 1)) 26 24)))
  let checks : List (Nat × Bool) :=
    [(0x00, f 0 2 == 1), (0x02, decide (1 ≤ nlev ∧ nlev ≤ 8)), (0x03, decide (f 3 1 < 8)),
     (0x04, decide (f 4 1 ∈ [1, 2, 4, 8, 16, 32, 64])), (0x05, decide (1 ≤ f 5 1 ∧ f 5 1 ≤ 8)),
     (0x06, decide (1 ≤ f 6 1 ∧ f 5 1 * f 6 1 ≤ 48)), (0x07, f 7 1 == 0), (0x08, s.codeOk m .sc (f 8 8)),
     (0x10, s.codeOk m .ld (f 0x10 8)), (0x18, s.codeOk m .cm (f 0x18 8)), (0x20, s.codeOk m .st (f 0x20 8))]
    ++ levels ++ [(0x70, decide (f 0x70 2 ≤ 16)), (0x72, decide (f 0x72 2 ≤ 4096)), (0x74, f 0x74 4 == 0), (0x8A, f 0x8A 6 == 0),
      (0x94, f 0x94 108 == 0)]
  (checks.find? fun c => !c.2).map (·.1)

/-- Declarations of 32 bytes each, checked in order: the first bad one with the offset of its field. -/
def firstBad (l : List Byte) (bad : List Byte → Option Nat) : Nat → Nat → Option Nat
  | 0, _ => none
  | n + 1, i =>
    match bad (sliceBytes l (32 * i) 32) with
    | some o => some (32 * i + o)
    | none => firstBad l bad n (i + 1)

/-- The tensors of an array, or the offset of the first bad field: Table 7.7, then a TID declared twice, then an overlap (R169). -/
def tensorsOf (l : List Byte) : Nat → Nat → List Tensor → Except Nat (List Tensor)
  | 0, _, acc => .ok acc
  | n + 1, i, acc =>
    let d := sliceBytes l (32 * i) 32
    match tensorFault false d with
    | some o => .error (32 * i + o)
    | none =>
      let t := tensorOf d
      if acc.any fun x => x.tid == t.tid then .error (32 * i)
      else if acc.any fun x => x.meets t then .error (32 * i + 8)
      else tensorsOf l n (i + 1) (acc ++ [t])

/-- The LAUNCH fault's information (R29). -/
def launchFault (lr c0 c1 aux : Nat) : FaultInfo := { code := 0x10, c0 := c0, c1 := c1, space := spG, addr := lr, aux := aux }

def XlErr.aux (e : XlErr) : Nat := e.code + e.reason * 2 ^ 16

/-- Step 1 of R307: the launch record read and checked, with its shapes and tensors. DESIGN CHOICE (log 69): a SHAPES array that is not 32-byte aligned,
against R234, is read and accepted. -/
def State.readLaunch (s : State) (m : Nat) : Except FaultInfo (LaunchRec × List Tensor) :=
  let a := (s.mx m).lrptr.toNat
  if a % 64 ≠ 0 then .error (launchFault a 0 0 0)
  else match s.readVa none m a 256 with
    | .error e => .error (launchFault a 0 0 e.aux)
    | .ok l =>
      match s.launchField m l with
      | some o => .error (launchFault a o 0 0)
      | none =>
        let ns := fieldLe l 0x70 2
        let nt := fieldLe l 0x72 2
        match s.readVa none m (fieldLe l 0x68 8) (32 * ns) with
        | .error e => .error (launchFault a 0x68 0 e.aux)
        | .ok sh =>
          match firstBad sh (fun d => (shapeFault d).map (·.2)) ns 0 with
          | some o => .error (launchFault a 0x68 o 0)
          | none =>
            match s.readVa none m (fieldLe l 0x78 8) (32 * nt) with
            | .error e => .error (launchFault a 0x78 0 e.aux)
            | .ok te =>
              match tensorsOf te nt 0 [] with
              | .error o => .error (launchFault a 0x78 o 0)
              | .ok ts => .ok (launchOf l ((List.range ns).map fun i => shapeOf (sliceBytes sh (32 * i) 32)), ts)

/-- What the dispatcher reads of a launch can be read now, in slots and turns of its partition (R328, R348). -/
def State.launchOpen (s : State) (m : Nat) : Bool :=
  let a := (s.mx m).lrptr.toNat
  decide (a % 64 ≠ 0) || (s.devOpen m a 256 && (match s.readVa none m a 256 with
    | .ok l => s.devOpen m (fieldLe l 0x68 8) (32 * fieldLe l 0x70 2) && s.devOpen m (fieldLe l 0x78 8) (32 * fieldLe l 0x72 2)
    | .error _ => true))

/-- It has been read. -/
def State.launchServed (s : State) (m : Nat) : State :=
  let a := (s.mx m).lrptr.toNat
  if a % 64 ≠ 0 then s
  else match s.readVa none m a 256 with
    | .ok l =>
      ((s.devServed m a 256).devServed m (fieldLe l 0x68 8) (32 * fieldLe l 0x70 2)).devServed m (fieldLe l 0x78 8) (32 * fieldLe l 0x72 2)
    | .error _ => s.devServed m a 256

/-- A refused launch (R29, R382): FAULTED with the record, no core named, every ring entry FREE. -/
def State.refuseLaunch (s : State) (m : Nat) (f : FaultInfo) : State :=
  let s1 := s.queueEvent f.code m (recordBytes f 0 0 0 m 0 (s.mx m).gen.toNat s.dclk.toNat)
  ((s1.abortInstalls m 1).setMx m { s1.mx m with st := .faulted, lr := none, reserved := none }).ringSet m (· != 0) 0

/-! Tile groups (R306) -/

/-- Mullion slots of a column that no team holds and no scrub of a release still keeps (R338). -/
def State.freeMull (s : State) (stack col : Nat) : List Nat :=
  (List.range 16).filter fun k =>
    let key := 16 * (64 * stack + col) + k
    !(AMap.get MullSlot.reset s.mull key).valid && !s.scrubs.any fun c => c.mull.contains key

/-- Logical columns that have a column and are ready (R414, R418). -/
def State.columnUp (s : State) (stack col : Nat) : Bool := !s.lostCols.contains (64 * stack + col) && s.ready.contains (.column stack col)

/-- Logical columns that may be chosen: up, and not retiring. A retirement that begins after the choice follows the binding (R414). -/
def State.columnUsable (s : State) (stack col : Nat) : Bool := s.columnUp stack col && !s.retiring.contains (64 * stack + col)

/-- A group overlaps another. -/
def groupsMeet (a : Nat × Nat) (na : Nat) (b : Nat × Nat) (nb : Nat) : Bool :=
  a.1 == b.1 && decide (a.2 < b.2 + nb ∧ b.2 < a.2 + na)

/-- The columns a waiting or bound micro-context needs. -/
def State.colsOf (s : State) (m : Nat) : Nat :=
  match (s.mx m).team, (s.mx m).lr with
  | some t, _ => t.lr.tgcols
  | none, some r => r.tgcols
  | none, none => 1

/-- The group overlaps one reserved for another micro-context (R315). -/
def State.reservedByOther (s : State) (m : Nat) (g : Nat × Nat) (n : Nat) : Bool :=
  s.mxs.any fun e => e.1 != m && (match e.2.reserved with | some h => groupsMeet g n h (s.colsOf e.1) | none => false)

/-- A migrated team brings casements. -/
def Mx.carriesPanes (x : Mx) : Bool := match x.image with | some im => im.panes != [] | none => false

/-- Free for a micro-context with the record `r`, reservations and retirements apart. -/
def State.groupFits (s : State) (m : Nat) (r : LaunchRec) (g : Nat × Nat) : Bool :=
  s.groupHolds g.1 g.2 r.tgcols r.nstrm r.spbanks
    && ((List.range r.tgcols).all fun k => s.columnUp g.1 (g.2 + k) && decide ((s.mx m).mslots ≤ (s.freeMull g.1 (g.2 + k)).length))
    && (!((s.mx m).cwneed || (s.mx m).carriesPanes) || (s.groupCores g.1 g.2 r.tgcols).all fun c => (s.core c.2.2).cw.owner.isNone && !(s.core c.2.2).scrubCw)

def State.groupFree (s : State) (m : Nat) (r : LaunchRec) (g : Nat × Nat) : Bool :=
  s.groupFits m r g && ((List.range r.tgcols).all fun k => s.columnUsable g.1 (g.2 + k)) && !s.reservedByOther m g r.tgcols

/-- Aligned groups of a size in a stack. -/
def alignedGroups (stack n : Nat) : List (Nat × Nat) := (List.range (64 / n)).map fun k => (stack, n * k)

/-- The whole stack of a saved team's group is searched when a column of it is lost (R415). -/
def State.groupLost (s : State) (t : Team) : Bool := (List.range t.lr.tgcols).any fun k => s.lostCols.contains (64 * t.stack + t.col + k)

/-- Groups in the order of R306; a team that a migration has brought here has no tile group yet. HOMETG of an EDF micro-context is its group where its
column is a multiple of the launch's TGCOLS (R30). -/
def State.deviceGroups (s : State) (m : Nat) (r : LaunchRec) : List (Nat × Nat) :=
  let x := s.mx m
  let all := (match x.lastTg with | some g => if g.2 % r.tgcols = 0 then [g] else [] | none => [])
    ++ alignedGroups x.homeStack r.tgcols ++ alignedGroups (1 - x.homeStack) r.tgcols
  match x.team with
  | some t => if s.groupLost t || (x.image.map (·.homeless)).getD false then all else [(t.stack, t.col)]
  | none => if x.period = 0 then all else if x.homeCol % r.tgcols = 0 then [(x.homeStack, x.homeCol)] else []

/-- Every column of a group is in the micro-context's partition (R328). -/
def State.groupInPart (s : State) (m n : Nat) (g : Nat × Nat) : Bool :=
  let p := s.part (s.mx m).part
  (List.range n).all fun k => (if g.1 = 0 then p.cola else p.colb).getLsbD (g.2 + k)

/-- The groups of its partition. -/
def State.searchGroups (s : State) (m : Nat) (r : LaunchRec) : List (Nat × Nat) := (s.deviceGroups m r).filter (s.groupInPart m r.tgcols)

/-! Waiting micro-contexts in the order of R305 -/

/-- EDF and eligible (R311). -/
def Mx.edf (x : Mx) : Bool := x.period != 0
def Mx.eligible (x : Mx) : Bool := x.period != 0 && x.rem != 0

/-- When a waiting micro-context began to wait: TARR of the oldest FILLED entry, or the save report. -/
def State.waitStamp (s : State) (m : Nat) : Nat :=
  match (s.mx m).image with
  | some im => im.stamp
  | none => match s.oldestFilled m with | some (i, _) => (s.entryField m i 8 8).getD 0 | none => 0

/-- The structures that a binding and the team use can be reached: the launch record with its arrays, the ring entries, the event word and the
phase table; a saved team needs none of the first (R418). -/
def State.mxUp (s : State) (m : Nat) : Bool :=
  let x := s.mx m
  let a := x.lrptr.toNat
  let arrays : Bool := match s.readVa none m a 256 with
    | .ok l => s.vaUp none m (fieldLe l 0x68 8) (32 * fieldLe l 0x70 2) && s.vaUp none m (fieldLe l 0x78 8) (32 * fieldLe l 0x72 2)
    | .error _ => true
  (x.team.isSome || (s.vaUp none m a 256 && arrays)) && ((List.range x.ringLen).all fun i => s.vaUp none m (x.entryVa i) 64)
    && s.vaUp none m x.evaddr.toNat 8 && s.vaUp none m x.perfaddr.toNat 4096

/-- Waiting for a binding and not yet placed. The dispatcher binds none whose key slot is RETIRING (R366). -/
def State.waiting (s : State) (m : Nat) : Bool :=
  let x := s.mx m
  (x.st == .ready || x.st == .saved) && x.reserved.isNone && x.ending.isNone && !(s.part x.part).pausing && (s.key x.kslot).st != 2
    && s.mxUp m

/-- `a` is considered before `b`: eligible ones by deadline, then the others by tokens, equals of either by the time they have waited since
(R305). -/
def State.waitsBefore (s : State) (a b : Nat) : Bool :=
  let x := s.mx a
  let y := s.mx b
  if x.eligible != y.eligible then x.eligible
  else if x.eligible && x.deadline != y.deadline then decide (x.deadline.toNat < y.deadline.toNat)
  else if !x.eligible && x.prio != y.prio then decide (y.prio < x.prio)
  else if s.waitStamp a ≠ s.waitStamp b then decide (s.waitStamp a < s.waitStamp b)
  else decide (a < b)

def insertBy (lt : Nat → Nat → Bool) (x : Nat) : List Nat → List Nat
  | [] => [x]
  | y :: r => if lt x y then x :: y :: r else y :: insertBy lt x r

def State.waitingOrder (s : State) : List Nat :=
  ((s.mxs.map (·.1)).filter s.waiting).foldl (fun l m => insertBy s.waitsBefore m l) []

/-! Victims (R311 to R316, Table 17.5) -/

/-- A micro-context holds resources on a tile group. -/
def State.holdsOn (s : State) (m : Nat) (g : Nat × Nat) (n : Nat) : Bool :=
  (s.groupCores g.1 g.2 n).any fun c =>
    ((s.core c.2.2).streams.any fun k => k.2.mx == some m) || (s.core c.2.2).cw.owner == some m
      || ((List.range 16).any fun k =>
        let e := AMap.get MullSlot.reset s.mull (16 * (64 * g.1 + g.2 + c.1) + k)
        e.valid && e.mx == m)

inductive VictimAct where
  | drain | ckpt | kill
  deriving DecidableEq, Repr

/-- The first action a launch record permits (R311); none while an exchange holds up a save (R392). -/
def State.permitted (s : State) (v : Nat) : Option VictimAct :=
  match (s.mx v).team with
  | none => none
  | some t =>
    if (t.lr.drain || t.lr.ckpt) && s.areaStalls v then none
    else if t.lr.drain && !s.anyHeld v then some .drain
    else if t.lr.ckpt then some .ckpt
    else if t.lr.rstrt then some .kill
    else none

/-- E: the victim's remaining time in cycles. -/
def State.remaining (s : State) (v : Nat) : Nat :=
  let x := s.mx v
  64 * x.est.toNat

/-- N's slack in cycles; none when unbounded. -/
def State.slack (s : State) (n : Nat) : Option Int :=
  let x := s.mx n
  if x.eligible then some ((x.deadline.toNat : Int) - s.dclk.toNat - 64 * x.rem.toNat) else none

def State.within (s : State) (n c : Nat) : Bool := match s.slack n with | none => true | some k => decide ((c : Int) ≤ k)

def State.actCost (s : State) (v : Nat) : VictimAct → Nat
  | .drain => s.remaining v + 14400 + s.scrubBound v + 400
  | .ckpt => 14400 + s.scrubBound v + 400
  | .kill => s.scrubBound v + 400

/-- The action for a victim of `n`, none when the candidate is refused: an overrun team goes by R311, an eligible EDF team of the same
partition by R312 where `n` is READY, any other by Table 17.5. -/
def State.victimAct (s : State) (n v : Nat) : Option VictimAct :=
  let x := s.mx v
  let y := s.mx n
  if x.st ≠ .bound ∨ x.ending.isSome then none
  else if x.overran then s.permitted v
  else if y.st = .ready ∧ y.eligible ∧ x.eligible ∧ x.part = y.part then
    (if y.deadline.toNat < x.deadline.toNat then s.permitted v else none)
  else if y.prio ≤ x.prio then none
  else
    match x.team with
    | none => none
    | some t =>
      let drain := t.lr.drain && !s.anyHeld v
      if drain && s.within n (s.actCost v .drain) then some .drain
      else if t.lr.ckpt && s.within n (s.actCost v .ckpt) then some .ckpt
      else if t.lr.rstrt then some .kill
      else if t.lr.ckpt then some .ckpt
      else if drain then some .drain
      else none

/-- A candidate with its victims, cost and sum of tokens. -/
structure Candidate where
  group : Nat × Nat
  acts : List (Nat × VictimAct)
  cost : Nat
  tokens : Nat

/-- The candidate a group makes for `n`, if no victim refuses. -/
def State.candidate (s : State) (n : Nat) (r : LaunchRec) (g : Nat × Nat) : Option Candidate :=
  if !((List.range r.tgcols).all fun k => s.columnUsable g.1 (g.2 + k)) || s.reservedByOther n g r.tgcols then none
  else
    let vs := ((s.mxs.map (·.1)).filter fun v => v != n && s.holdsOn v g r.tgcols).map fun v => (v, s.victimAct n v)
    if vs.any fun v => v.2.isNone then none
    else
      let acts := vs.filterMap fun v => v.2.map fun a => (v.1, a)
      some { group := g, acts := acts, cost := acts.foldl (fun c a => max c (s.actCost a.1 a.2)) 0,
             tokens := acts.foldl (fun c a => c + (s.mx a.1).prio) 0 }

/-- The best candidate: least cost, then least tokens, then the first. -/
def bestCandidate : List Candidate → Option Candidate
  | [] => none
  | c :: r =>
    match bestCandidate r with
    | none => some c
    | some d => if d.cost < c.cost ∨ (d.cost = c.cost ∧ d.tokens < c.tokens) then some d else some c

def State.startAct (s : State) (v : Nat) : VictimAct → State
  | .drain => s.beginSave v .drain
  | .ckpt => s.beginSave v .ckpt
  | .kill => s.beginKill v

/-! The decision (R305) -/

/-- A group reserved for a micro-context of more tokens overlaps the team's (R315, R47). -/
def State.reservedAbove (s : State) (m : Nat) (t : Team) : Bool :=
  s.mxs.any fun e => e.1 != m && decide ((s.mx m).prio < e.2.prio) &&
    (match e.2.reserved with | some g => groupsMeet (t.stack, t.col) t.lr.tgcols g (s.colsOf e.1) | none => false)

/-- A swapped team's cores have its slots and banks free, and no reservation above it holds them (R47, R315). -/
def State.mayReturn (s : State) (m : Nat) : Bool :=
  match (s.mx m).image, (s.mx m).team with
  | some _, some t =>
    (s.mx m).st == .swapped && !(s.part (s.mx m).part).pausing && !s.groupLost t
      && s.groupHolds t.stack t.col t.lr.tgcols t.lr.nstrm t.lr.spbanks && !s.reservedAbove m t
  | _, _ => false

/-- A swapped team that could return now goes ahead of an entry of no more tokens (R47). -/
def State.returnFirst (s : State) (m : Nat) : Bool := s.mxs.any fun e => decide ((s.mx m).prio ≤ e.2.prio) && s.mayReturn e.1

/-- No tile group of the device can ever hold the micro-context (R324). -/
def State.neverFits (s : State) (m : Nat) (r : LaunchRec) : Bool :=
  (s.deviceGroups m r).all fun g => (List.range r.tgcols).any fun k => s.lostCols.contains (64 * g.1 + g.2 + k) || decide (64 ≤ g.2 + k)

/-- The housekeeping processor is notified once that no group can hold a micro-context (R324). DESIGN CHOICE (log 35): by an MCHECK event with
its MXIDX, whose summary the spec does not give. -/
def State.notifyNever (s : State) (m : Nat) : State :=
  let (v, s1) := s.free
  (s1.queueEvent 0x81 m (s1.eventRecord 0x81 0 none 0 v.toNat)).setMx m { s1.mx m with notified := true }

/-- The candidates for a micro-context among groups. -/
def State.candidates' (s : State) (m : Nat) (r : LaunchRec) (gs : List (Nat × Nat)) : List Candidate := gs.filterMap fun g => s.candidate m r g

/-- A waiting micro-context taken up: its record, then a free group, then victims; `none` when it cannot be placed. -/
def State.takeUp (s : State) (m : Nat) : Option State :=
  let x := s.mx m
  let go := fun (s1 : State) (r : LaunchRec) =>
    let gs := s1.searchGroups m r
    if s1.returnFirst m then none
    else match gs.find? fun g => s1.groupFree m r g with
    | some g => some (s1.setMx m { s1.mx m with reserved := some g })
    | none =>
      match bestCandidate (s1.candidates' m r gs) with
      | some c =>
        let s2 := s1.setMx m { s1.mx m with reserved := some c.group }
        some (c.acts.foldl (fun t a => t.startAct a.1 a.2) s2)
      | none => if s1.neverFits m r ∧ (s1.mx m).notified = false then some (s1.notifyNever m) else none
  match x.team, x.lr with
  | some t, _ => go s t.lr
  | none, some r => go s r
  | none, none =>
    if s.launchOpen m = false then none
    else match s.readLaunch m with
    | .error f => some ((s.launchServed m).refuseLaunch m f)
    | .ok (r, ts) =>
      let s1 := (s.launchServed m).setMx m { x with lr := some r, tensors := ts }
      some ((go s1 r).getD s1)

def State.firstTaken (s : State) : List Nat → State
  | [] => s
  | m :: r => match s.takeUp m with | some t => t | none => s.firstTaken r

/-- DISPATCH_DECISION: the first waiting micro-context that can be placed. -/
def execDispatchDecision (s : State) : Out := .next (s.firstTaken s.waitingOrder)

/-! Binding (R307) -/

/-- The outer level indices: IDX4 to IDX7 of the oldest FILLED entry (R28). -/
def State.outerIdx (s : State) (m : Nat) : List Nat :=
  match s.oldestFilled m with
  | some (i, _) => (List.range 4).map fun k => (s.entryField m i (0x30 + 4 * k) 4).getD 0 % 2 ^ 24
  | none => [0, 0, 0, 0]

/-- The streams of a fresh team with their first grid positions. -/
def freshStreams (m launch : Nat) (desc : Bool) (t : Team) : List (Stream × Memory) :=
  (List.range t.lr.tgcols).flatMap fun k => (List.range 4).flatMap fun ti => (List.range t.lr.nstrm).map fun ts =>
    let g := gridLevels t.lr t.outer ts ti k
    let idle := gridTotal g == 0
    let x : Stream :=
      { Stream.reset with
        mx := some m, tsidx := ts, tier := ti, coff := k, launch := launch, desc := desc, task := (if idle then 0 else 1),
        finished := idle }
    (x.setGpos (if idle then [] else gridPos g 0), [])

/-- The mullion slots of a team: the n lowest free slots of each column, slot i for tier i mod 4 (R309). -/
def State.takeMull (s : State) (m : Nat) (t : Team) : State :=
  (List.range t.lr.tgcols).foldl
    (fun u k =>
      let key := 16 * (64 * t.stack + t.col + k)
      let slots := (u.freeMull t.stack (t.col + k)).take (u.mx m).mslots
      let put := fun (a : AMap MullSlot) (e : Nat × Nat) => AMap.put a (key + e.1) { valid := true, tier := e.2 % 4, mx := m }
      { u with mull := slots.zipIdx.foldl put u.mull }) s

/-- Every stream with a tile-task starts it. -/
def State.startTasks (s : State) (m : Nat) : State :=
  (s.teamSlots m).foldl (fun t e => if (t.stream e.1 e.2).finished then t else t.startTask e.1 e.2) s

/-- What a binding reads can be read now, in slots and turns of the micro-context's partition (R328, R348): the headers of its ring's entries, and the
layer-order list. -/
def State.bindOpen (s : State) (m : Nat) (r : LaunchRec) : Bool :=
  s.devOpen m r.lorder.toNat (16 * r.nlayers) && (List.range (s.mx m).ringLen).all fun i => s.devOpen m ((s.mx m).entryVa i) 64

/-- It has been read. -/
def State.bindServed (s : State) (m : Nat) (r : LaunchRec) : State :=
  (List.range (s.mx m).ringLen).foldl (fun (t : State) i => t.devServed m ((t.mx m).entryVa i) 64) (s.devServed m r.lorder.toNat (16 * r.nlayers))

/-- A READY micro-context bound to a group. -/
def State.bindFresh (s : State) (m : Nat) (r : LaunchRec) (g : Nat × Nat) : State :=
  let t : Team := { lr := r, stack := g.1, col := g.2, outer := s.outerIdx m, layers := s.layerList m r }
  let s1 := (s.bindServed m r).deliverEvents m
  let (id, s2) := s1.newId
  let s3 := s2.placeStreams t (freshStreams m id (s2.mx m).spattr t)
  let s4 := s3.takeMull m t
  let x := s4.mx m
  let s5 := s4.setMx m { x with
    st := .bound, team := some t, reserved := none, lastAdmit := s.dclk.toNat, returnedAt := none, coldNext := 0, coldHigh := 0,
    busy := [], matTo := 0, vecTo := 0, est := BitVec.ofNat 32 r.est0, estSet := false, ending := none }
  let s6 := s5.startTasks m
  if s6.launchDone m then s6.launchComplete m else s6

/-- BINDING: as soon as the reserved group is free, but behind a swapped team of as many tokens that can return (R47), and not while the
micro-context's key slot is RETIRING (R366). -/
def execBinding (m : Nat) (s : State) : Out :=
  let x := s.mx m
  match (if (s.part x.part).pausing || s.returnFirst m || (s.key x.kslot).st == 2 then none else x.reserved) with
  | none => .next s
  | some g =>
    match x.st, x.team, x.lr with
    | .saved, some t, _ =>
      if s.groupFits m t.lr g ∧ (x.image.map fun im => x.imageAtHand im t).getD false then 
        .next (((s.setMx m { x with team := some (x.target t) }).takeMull m (x.target t)).restoreImage m)
      else .next s
    | .ready, none, some r => if s.groupFits m r g ∧ s.holdsRequest m ∧ s.bindOpen m r then .next (s.bindFresh m r g) else .next s
    | _, _, _ => .next (s.setMx m { x with reserved := none })

/-! EDF (R310, R311) -/

/-- EDF_RELEASE: REM becomes BUDGET and the deadline the next release. -/
def execEdfRelease (m : Nat) (s : State) : Out :=
  let x := s.mx m
  if x.st ≠ .free ∧ x.edf ∧ x.deadline.toNat ≤ s.dclk.toNat then
    .next (s.setMx m { x with rem := x.budget, deadline := x.deadline + BitVec.ofNat 64 (64 * x.period.toNat), ranOut := false, overran := false, remFrac := 0 })
  else .next s

/-- The launch record of a waiting micro-context: as bound, as taken up, or, where the dispatcher has not come to it yet, as it stands. -/
def State.waitingLaunch (s : State) (n : Nat) : Option LaunchRec :=
  match (s.mx n).team, (s.mx n).lr with
  | some u, _ => some u.lr
  | none, some r => some r
  | none, none => match s.readLaunch n with | .ok r => some r.1 | .error _ => none

/-- A micro-context waits for a group that overlaps the team's. -/
def State.wantedByOther (s : State) (v : Nat) : Bool :=
  match (s.mx v).team with
  | none => false
  | some t =>
    (s.waitingOrder.any fun n =>
      match s.waitingLaunch n with
      | some r => (s.searchGroups n r).any fun g => groupsMeet g r.tgcols (t.stack, t.col) t.lr.tgcols
      | none => false)

/-- The trap of an overrun, once a period: the record of Table 20.3, the counter and the event. -/
def State.overrunTrap (s : State) (m : Nat) : State :=
  let x := s.mx m
  let s1 := s.queueEvent 0x80 m (s.eventRecord 0x80 m none x.gen.toNat x.deadline.toNat)
  (s1.setMx m { (s1.mx m).bump 4 1 with overran := true }).postEvent m evOvr x.gen.toNat

/-- OVERRUN, of a team whose REM has reached 0 while it was BOUND: the trap to the housekeeping processor and the event; as soon as its tile group is
wanted, then or later, the team ends by the first action it permits. -/
def execOverrun (m : Nat) (s : State) : Out :=
  let x := s.mx m
  if x.st ≠ .bound ∨ !x.edf ∨ x.rem ≠ 0 ∨ !x.ranOut then .next s
  else
    let s1 := if x.overran then s else s.overrunTrap m
    if s1.wantedByOther m ∧ x.ending.isNone then
      .next (match s1.permitted m with | some a => s1.startAct m a | none => s1)
    else .next s1

/-! The threshold swap (R45, R46) -/

/-- WTH as it acts: 0 disables. -/
def swapThreshold (w : BitVec 32) : Nat := if w = 0 then 0 else max 4095 w.toNat

/-- No block instance of the team runs. -/
def State.teamIdle (s : State) (m : Nat) : Bool :=
  (s.teamSlots m).all fun e =>
    let x := s.stream e.1 e.2
    [Section.sc, .ld, .cm, .st].all fun c => (x.seqr c).phase != .running || (x.seqr c).stopped

/-- The cores that two tile groups share. -/
def State.sharedCores (s : State) (a : Nat × Nat) (na : Nat) (t : Team) : List Nat :=
  ((s.groupCores a.1 a.2 na).map (·.2.2)).filter fun c => (s.teamCores t).any fun e => e.2.2 == c

/-- A READY or SAVED micro-context lacks slots or banks on a core that one of its groups shares with the team. DESIGN CHOICE (log 57): every group of
its search counts, also where another of them is free. -/
def State.neededByOther (s : State) (m : Nat) (t : Team) : Bool :=
  s.mxs.any fun e => e.1 != m && (e.2.st == .ready || e.2.st == .saved) &&
    (match s.waitingLaunch e.1 with
     | some r =>
       (s.searchGroups e.1 r).any fun g => (s.sharedCores g r.tgcols t).any fun c =>
         decide ((s.core c).freeSlots.length < r.nstrm ∨ (s.freeBanks c).length < r.nstrm * r.spbanks)
     | none => false)

/-- A waiting micro-context of more tokens that the dispatcher can place comes before the return (R305). -/
def State.placeFirst (s : State) (m : Nat) : Bool :=
  s.waitingOrder.any fun n => decide ((s.mx m).prio < (s.mx n).prio) &&
    (match s.waitingLaunch n with
     | some r => let gs := s.searchGroups n r; gs.any (fun g => s.groupFree n r g) || !(s.candidates' n r gs).isEmpty
     | none => false)

/-- SWAPPED_TEAM_RETURN (R47, R305). -/
def execSwappedTeamReturn (m : Nat) (s : State) : Out :=
  .next (if s.mayReturn m && ((s.mx m).image.map (·.inShutter)).getD false && !s.placeFirst m then s.restoreImage m else s)

/-- TEAM_SWAP. -/
def execTeamSwap (m : Nat) (s : State) : Out :=
  let x := s.mx m
  match x.team with
  | none => .next s
  | some t =>
    let th := swapThreshold (s.core (s.coreOf t.stack 0 t.col)).wth
    if x.st == .bound && x.ending.isNone && !(s.part x.part).pausing && decide (th ≠ 0) && decide (th < s.dclk.toNat - x.lastAdmit)
        && (match x.returnedAt with | some r => decide (r + th ≤ s.dclk.toNat) | none => true)
        && s.teamIdle m && !s.areaStalls m && s.neededByOther m t then .next (s.beginSave m .swap)
    else .next s

end Sys2Proof.Machine
end

