-- ==== Sys2Proof/Machine/Ingress.lean ====
section
/-! DEFINITION. The outside at the request ports (R232, R255, R300 to R304, R320, R353, R374, R423): the parse, the drops and the append
of a request message, the reply of a PKT.EMIT, a launch from another DU5, and a port or path that goes down. -/

namespace Sys2Proof.Machine

/-! The parse (R300, R301) -/

/-- Drop reasons in the order of their tests. -/
inductive DropWhy where
  | hdr | nomx | auth | full | ringFault
  deriving DecidableEq, Repr

def DropWhy.code : DropWhy → Nat
  | .hdr => 0 | .nomx => 1 | .auth => 2 | .full => 3 | .ringFault => 4

/-- Whether a message is a forwarded launch. -/
def msgFwd (msg : List Byte) : Bool := bit (fieldLe msg 2 1) 0
/-- MXV. -/
def msgMxv (msg : List Byte) : Bool := bit (fieldLe msg 0 2) 15
/-- SESS. -/
def msgSess (msg : List Byte) : Nat := fieldLe msg 8 8

/-- Drop reason HDR. -/
def msgHdrBad (msg : List Byte) : Bool :=
  let len := fieldLe msg 4 4
  decide (msg.length < 16) || bit (fieldLe msg 0 2) 14 || decide (2 ≤ fieldLe msg 2 1) || decide (fieldLe msg 3 1 ≠ 0)
    || decide (9216 < len) || decide (msg.length ≠ 16 + len) || (msgFwd msg && decide (len < 44))
    || (!msgMxv msg && decide (fieldLe msg 0 2 % 16384 ≠ 0))

/-- The bucket of a flow key. -/
def flowBucket (key : BitVec 320) : Nat := crc32c (leBytes 40 key.toNat) % 16384

/-- The micro-context of a flow (R374). -/
def State.flowFind (s : State) (key : BitVec 320) : Option Nat :=
  ((AMap.get [] s.flows (flowBucket key)).find? fun e => e.1 == key).map (·.2)

/-- The micro-context a message names. -/
def State.msgTarget (s : State) (flow : BitVec 320) (msg : List Byte) : Option Nat :=
  if msgMxv msg then some (fieldLe msg 0 2 % 16384) else s.flowFind flow

/-- The plaintext of a message under the key slot of a micro-context (R423). -/
def State.msgOpen (s : State) (m : Nat) (msg : List Byte) : Option (List Byte) :=
  let len := fieldLe msg 4 4
  if len < 28 ∨ bit (fieldLe msg 16 12) 95 then none
  else
    gcmOpen (s.key (s.mx m).kslot).kg.toNat (beNat (sliceBytes msg 16 12)) (msg.take 16) (sliceBytes msg 28 (len - 28))
      (beNat (sliceBytes msg (len) 16))

/-- A drop counted in its port's counter. -/
def State.dropMsg (s : State) (port : Nat) (w : DropWhy) : State :=
  let k := 8 * port + w.code
  { s with drops := s.drops.put k (AMap.get 0 s.drops k + 1) }

/-- A message for a micro-context: authenticated, deciphered, appended. A forwarded launch is an entry of SRC 5. -/
def State.takeMsg (s : State) (port m : Nat) (flow : BitVec 320) (msg : List Byte) : State :=
  match s.msgOpen m msg with
  | none => s.dropMsg port .auth
  | some p =>
    let idx := if msgFwd msg then (List.range 4).map fun i => fieldLe p (4 * i) 4 else []
    let org := if msgFwd msg then none else some { port := port, flow := flow, sess := msgSess msg }
    match s.append m (if msgFwd msg then 5 else port) p idx org with
    | .ok t => t
    | .full => (s.setMx m ((s.mx m).bump 7 1)).dropMsg port .full
    | .fault => s.dropMsg port .ringFault

/-- What the source ingress keeps of a message it holds during a pause: port, flow key, message. -/
def heldMsg (port : Nat) (flow : BitVec 320) (msg : List Byte) : List Byte := leBytes 1 port ++ leBytes 40 flow.toNat ++ msg

/-- A message for a paused partition is held, up to 64 of them (R353). -/
def State.hold (s : State) (part : Nat) (l : List Byte) : State :=
  let r := s.part part
  if r.heldMsgs.length < 64 then s.setPart part { r with heldMsgs := r.heldMsgs ++ [l] }
  else s.setPart part { r with migDrops := r.migDrops + 1 }

def State.holdMsg (s : State) (part port : Nat) (flow : BitVec 320) (msg : List Byte) : State := s.hold part (heldMsg port flow msg)

/-- A message at a port. -/
def State.ingest (s : State) (port : Nat) (flow : BitVec 320) (msg : List Byte) : State :=
  if msgHdrBad msg then s.dropMsg port .hdr
  else
    match s.msgTarget flow msg with
    | none => s.dropMsg port .nomx
    | some m =>
      let x := s.mx m
      if x.st = .free ∨ x.st = .faulted then s.dropMsg port .nomx
      else if (s.part x.part).paused then s.holdMsg x.part port flow msg
      else s.takeMsg port m flow msg

/-- REQUEST_MESSAGE: ports 0 to 3 are the Ethernet ports; a forwarded launch may also come by UALink, from port 4 up. -/
def execRequestMessage (port : Nat) (flow : BitVec 320) (msg : List Byte) (s : State) : Out :=
  if s.portDown.contains port || (decide (4 ≤ port) && !msgFwd msg) then .next s
  else if !msgHdrBad msg && (match s.msgTarget flow msg with
    | some m => !(s.part (s.mx m).part).paused && !s.takesUp m
    | none => false) then .next s
  else .next (s.ingest port flow msg)

/-- A launch from another DU5, answered with a status of Table 9.9. -/
def State.remoteLaunch (s : State) (tenant part : Nat) (desc data : List Byte) : State :=
  let m := fieldLe desc 0 2 % 16384
  let answer := fun (t : State) (v : Nat) => { t with sent := (8, [BitVec.ofNat 8 v]) :: t.sent }
  if s.noTarget m tenant part then answer s 2
  else
    match s.append m 5 data ((List.range 4).map fun i => fieldLe desc (0x18 + 4 * i) 4) none with
    | .ok t => answer t 0
    | .full => answer s 1
    | .fault => answer s.free.2 (refusedStatus s.free.1.toNat)

/-- What the source ingress keeps of a launch from another DU5 that it holds: port 255 in the place of a port. -/
def heldLaunch (tenant part : Nat) (desc data : List Byte) : List Byte :=
  leBytes 1 255 ++ leBytes 2 tenant ++ leBytes 1 part ++ sliceBytes desc 0 64 ++ data

/-- REMOTE_LAUNCH_ARRIVAL: the request of another DU5's LAUNCH, answered in a slot of the partition it names a micro-context of (R346). One for a
paused partition is held as its messages are, and answered when it is appended (R353, log 46). -/
def execRemoteLaunchArrival (tenant part : Nat) (desc data : List Byte) (s : State) : Out :=
  let m := fieldLe desc 0 2 % 16384
  let x := s.mx m
  if x.st ≠ .free ∧ x.st ≠ .faulted ∧ (s.part x.part).paused = true then .next (s.hold x.part (heldLaunch tenant part desc data))
  else if (!s.noTarget m tenant part && !s.ringUp m) || !s.scaleOpenFor (if x.st = .free then 15 else x.part) then .next s
  else .next (s.remoteLaunch tenant part desc data)

/-- PORT_OR_PATH_DOWN: from now on replies to it are dropped and none of its messages arrive, until it is up again. -/
def execPortOrPathDown (port : Nat) (down : Bool) (s : State) : Out :=
  let l := s.portDown.filter (· != port)
  .next { s with portDown := if down then port :: l else l }

/-! Replies (R255, R423) -/

/-- The ring entry a VA names, when it is live. DESIGN CHOICE (log 69): an entry that is FILLED and not yet taken is live. -/
def State.liveEntry (s : State) (m va : Nat) : Option Nat :=
  let x := s.mx m
  let i := (va - x.rbase.toNat) / 16384
  if x.rbase.toNat ≤ va ∧ (va - x.rbase.toNat) % 16384 = 0 ∧ i < x.ringLen ∧ (s.entryField m i 0 1).getD 0 ≠ 0 then some i else none

/-- The wire form of a reply under a count. -/
def replyMsg (kg m sess count : Nat) (pt : List Byte) : List Byte :=
  let hdr := leBytes 2 (m + 2 ^ 15) ++ leBytes 2 0 ++ leBytes 4 (pt.length + 28) ++ leBytes 8 sess
  let iv := leBytes 12 (2 ^ 95 + sess % 2 ^ 31 * 2 ^ 64 + count)
  let (ct, tag) := gcmSeal kg (beNat iv) hdr pt
  hdr ++ iv ++ ct ++ beBytes 16 tag

/-- A reply leaves by its port, with the next count of the key slot and session. -/
def State.sendReply (s : State) (m : Nat) (o : Origin) (pt : List Byte) : State :=
  let ks := (s.mx m).kslot
  let k := s.key ks
  let n := AMap.get 0 k.ivs (o.sess % 2 ^ 31)
  let s1 := s.setKey ks { k with ivs := k.ivs.put (o.sess % 2 ^ 31) (n + 1) }
  { s1 with sent := (o.port, replyMsg k.kg.toNat m o.sess n pt) :: s1.sent }

/-- What becomes of a reply: its status (Table 10.5), and the state once it is on the wire. DESIGN CHOICE (log 69): where several statuses apply, BADRQ,
then BADLEN, LINK and STALEOWNER. -/
def State.replyOut (s : State) (e : Emit) : Nat × State :=
  let m := e.ref.mx
  match s.liveEntry m e.entry with
  | none => (1, s)
  | some i =>
    if e.n = 0 ∨ 9216 < e.n then (2, s)
    else
      match AMap.find (s.mx m).origins i with
      | none => (3, s)
      | some o =>
        if s.portDown.contains o.port then (3, s)
        else
          match s.spOwned e.ref e.gens e.off e.n with
          | none => (4, s)
          | some pt => (0, ((s.sendReply m o pt).count m 7 1).spMet e.ref e.gens e.off e.n)

/-- The status word at a[AR], through the translation of the issue; a write that has meanwhile been refused is kept as the tag's
pending error (R241). -/
def State.replyStatus (s : State) (e : Emit) (code : Nat) : State :=
  let pa := e.stat.paOf e.statVa
  let m := e.ref.mx
  if s.frameSealed (pa / 4096) then
    s.tagError e.ref e.tag { code := 4, reason := 0, opnd := 0, stglv := 0, coord0 := 0, coord1 := 0, space := spG, addr := e.statVa,
                             baddr := some (e.statVa / 64 * 64) }
  else
    ((s.writePa (if e.stat.enc then some (s.mx m).kslot else none) pa
      (leBytes 8 (code + (if code = 0 then e.n else 0) * 2 ^ 16))).logDirty (s.mx m).part (e.stat.ipaOf e.statVa)).touch e.ref e.statVa 8

/-- An earlier status write of the same stream comes first: of the same class, or to the same bytes (R178, R179). -/
def State.statusFirst (s : State) (e : Emit) : Bool :=
  (s.emits.any fun q => decide (q.id < e.id) && q.ref == e.ref && (q.cls == e.cls || q.stat.paOf q.statVa == e.stat.paOf e.statVa))
    || s.installBefore e.ref e.cls e.id
    || s.installs.any fun k => !k.readDone && decide (k.id < e.id) && k.meets e

/-- The reply may leave by its port now: in a slot of its partition long enough for its frame, at 100 bytes a nanosecond (R346, log 38). One that
is not sent takes no slot. -/
def State.replySlot (s : State) (e : Emit) : Bool :=
  match s.liveEntry e.ref.mx e.entry with
  | none => true
  | some i =>
    match AMap.find (s.mx e.ref.mx).origins i with
    | none => true
    | some o =>
      decide (e.n = 0 ∨ 9216 < e.n) || s.portDown.contains o.port
        || s.mayLeave (20 + o.port % 4) (s.mx e.ref.mx).part (ceilDiv (e.n + 44) 100)

/-- The status write reaches its home: in order, in its partition's slot and turn. -/
def State.statusReady (s : State) (e : Emit) : Bool :=
  let pa := e.stat.paOf e.statVa
  let p := (s.mx e.ref.mx).part
  s.homeReady pa && s.dirtyUp (s.mx e.ref.mx).part (e.stat.ipaOf e.statVa) && s.mayReach (some e.ref) && !s.statusFirst e
    && s.turnAt p (rangeResources pa 8)

/-- PKT_EMIT_COMPLETION: the reply, its status, FIN, then the tag. -/
def execPktEmitCompletion (id : Nat) (s : State) : Out :=
  match s.emits.find? fun e => e.id == id with
  | none => .next s
  | some e =>
    if !s.statusReady e || !s.replySlot e then .next s
    else
      let (code, s1) := s.replyOut e
      let s2 := s1.replyStatus e code
      let s3 := match s2.liveEntry e.ref.mx e.entry with
        | some i => if e.fin then s2.setEntryState e.ref.mx i 0 else s2
        | none => s2
      let s4 := s3.servedAll (s3.mx e.ref.mx).part (rangeResources e.statPa 8)
      .next ({ s4 with emits := s4.emits.filter fun x => x.id != id }.updRef e.ref fun x => x.tagDone e.tag)

end Sys2Proof.Machine
end

