-- ==== Sys2Proof/Machine/MxOps.lean ====
section
/-! DEFINITION. MXBIND and MXSAVE (R359 to R365), the measurement and signature of a launch (R375, R376), the scrub sequencer (R338 to
R341, R367), the cache step's write-backs, and key slots that become EMPTY (R332). -/

namespace Sys2Proof.Machine

/-! Measurement (R375, R376) -/

/-- The bytes MXBIND measures and the ranges whose frames it locks: VA and length. -/
structure Measured where
  meas : Nat
  ranges : List (Nat × Nat)

/-- The kept hash of the registered segment that a code address lies in. -/
def State.segHashAt (s : State) (m va : Nat) : Option (BitVec 256) :=
  match s.access none m va .exec false with
  | .error _ => none
  | .ok x =>
    match s.segOfFrame (x.pa / 4096) with
    | none => none
    | some (_, g) => (g.offsetOf x.pa).map fun _ => g.hash

/-- The measurement of the launch structures of micro-context `m`; a read that faults, or a code address in no registered segment. -/
def State.measure (s : State) (m : Nat) : Except Word Measured :=
  let a := (s.mx m).lrptr.toNat
  let bad := sysStatus 7 0x18
  match s.readVa none m a 256 with
  | .error _ => .error bad
  | .ok lr =>
    let sh := (fieldLe lr 0x68 8, 32 * fieldLe lr 0x70 2)
    let te := (fieldLe lr 0x78 8, 32 * fieldLe lr 0x72 2)
    let lo := (fieldLe lr 0x80 8, 16 * fieldLe lr 0x88 2)
    match s.readVa none m sh.1 sh.2, s.readVa none m te.1 te.2, s.readVa none m lo.1 lo.2 with
    | .ok b1, .ok b2, .ok b3 =>
      let code := [0x08, 0x10, 0x18, 0x20].map fun o => s.segHashAt m (fieldLe lr o 8)
      if code.all (·.isSome) then
        let hs := code.flatMap fun h => beBytes 32 (h.getD 0).toNat
        .ok { meas := sm3 (lr ++ hs ++ sm3Bytes b1 ++ sm3Bytes b2 ++ sm3Bytes b3), ranges := [(a, 256), sh, te, lo] }
      else .error (sysStatus 10 0)
    | _, _, _ => .error bad

/-- The 4 KiB frames behind a range of addresses. -/
def State.framesAux (s : State) (m : Nat) : Nat → Nat → Nat → List Nat
  | 0, _, _ => []
  | f + 1, va, n =>
    if n = 0 then []
    else
      let k := min n (4096 - va % 4096)
      (match s.access none m va .read false with
       | .ok x => [x.pa / 4096]
       | .error _ => []) ++ s.framesAux m f (va + k) (n - k)

def State.framesOf (s : State) (m : Nat) (l : List (Nat × Nat)) : List Nat :=
  (l.flatMap fun r => s.framesAux m (r.2 / 4096 + 2) r.1 r.2).eraseDups

/-- The signature rules of MXBIND: the status that stops it, or the measurement and the frames to lock. -/
def State.checkSig (s : State) (m : Nat) : Except Word (Nat × List Nat) :=
  let x := s.mx m
  if !x.sigchk then .ok (0, [])
  else
    match s.measure m with
    | .error e => .error e
    | .ok r =>
      match s.readVa none m x.sigptr.toNat 64 with
      | .error _ => .error (sysStatus 7 0x68)
      | .ok sg =>
        match s.vkeys.find x.tenant.toNat with
        | none => .error (sysStatus 10 0)
        | some k =>
          if sm2Verify (k.toNat / 2 ^ 256) (k.toNat % 2 ^ 256) (beBytes 32 r.meas) (beNat (sg.take 32)) (beNat (sg.drop 32)) then
            .ok (r.meas, s.framesOf m (r.ranges ++ [(x.sigptr.toNat, 64)]))
          else .error (sysStatus 10 0)

/-! MXBIND (R364) -/

/-- HOMETG names an aligned group of the launch record's TGCOLS; read only for an EDF micro-context. -/
def State.homeFault (s : State) (m : Nat) : Option Word :=
  let x := s.mx m
  if x.period = 0 then none
  else
    match s.readVa none m (x.lrptr.toNat + 4) 1 with
    | .error _ => some (sysStatus 7 0x18)
    | .ok l =>
      let n := fieldLe l 0 1
      if n ∈ [1, 2, 4, 8, 16, 32, 64] ∧ x.homeCol % n = 0 then none else some (sysStatus 2 0x0E)

/-- R329: the slot is LOADED and the tenant's, and every other micro-context of the tenant names the same slot and partition. -/
def State.keyRule (s : State) (m : Nat) : Bool :=
  let x := s.mx m
  let k := s.key x.kslot
  k.st == 1 && k.tenant == x.tenant &&
    s.mxs.all fun e => e.1 == m || e.2.st == .free || e.2.tenant != x.tenant || (e.2.kslot == x.kslot && e.2.part == x.part)

/-- The statuses of MXBIND that need the image in place: `t` is the state with the image as micro-context `m`. -/
def State.bindChecks (t : State) (m : Nat) : Except Word (Nat × List Nat) :=
  let x := t.mx m
  if x.part = 15 ∨ (t.part x.part).active = false then .error (sysStatus 2 2)
  else
    match t.homeFault m with
    | some e => .error e
    | none => if t.keyRule m then t.checkSig m else .error (sysStatus 9 0)

/-- A new micro-context as MXBIND leaves it. -/
def newMx (old img : Mx) (dclk : Word) (meas : Nat) (locks : List Nat) : Mx :=
  { img with
    gen := old.gen + 1, t0 := dclk, rem := img.budget, deadline := dclk + BitVec.ofNat 64 (64 * img.period.toNat), st := .idle,
    meas := BitVec.ofNat 256 meas, locks := locks }

/-- A new micro-context has issued no KV command and fetched no code (R51, R263), and no write of the device is on its way for it. -/
def State.forgetMx (s : State) (m : Nat) : State :=
  { s with
    arenas := s.arenas.map fun e => (e.1, { e.2 with users := e.2.users.filter (· != m) })
    segs := s.segs.map fun e => (e.1, { e.2 with fetched := e.2.fetched.filter (· != m) })
    devWrites := s.devWrites.filter fun w => w.mx != m }

/-- The state with a good image in place as the micro-context that MXBIND names. -/
def State.bindImage (s : State) (m pa : Nat) : Option State :=
  if 16383 < m ∨ pa % 64 ≠ 0 ∨ s.paFails pa 256 ∨ (s.mx m).st ≠ .free ∨ (imageFault (s.peek pa 256)).isSome then none
  else some (s.setMx m (Mx.reset.ofImage (s.peek pa 256)))

/-- The addresses that MXBIND reads of the launch of a micro-context: what it measures and the signature, else the byte that gives TGCOLS. -/
def State.bindReads (t : State) (m : Nat) : List (Nat × Nat) :=
  let x := t.mx m
  if x.sigchk then
    (x.lrptr.toNat, 256) :: (x.sigptr.toNat, 64) :: (match t.readVa none m x.lrptr.toNat 256 with
      | .ok l => [(fieldLe l 0x68 8, 32 * fieldLe l 0x70 2), (fieldLe l 0x78 8, 32 * fieldLe l 0x72 2), (fieldLe l 0x80 8, 16 * fieldLe l 0x88 2)]
      | .error _ => [])
  else if x.period ≠ 0 then [(x.lrptr.toNat + 4, 1)] else []

/-- Their physical ranges. -/
def State.bindSpans (s : State) (m pa : Nat) : List (Nat × Nat) :=
  match s.bindImage m pa with
  | some t => (t.bindReads m).flatMap fun e => t.vaSpans none m e.1 e.2
  | none => []

/-- Their walks and homes go on (R418), and no exchange holds their frames (R392). -/
def State.bindUp (s : State) (m pa : Nat) : Bool :=
  match s.bindImage m pa with
  | some t => (t.bindReads m).all fun e => t.vaUp none m e.1 e.2
  | none => true

/-- MXBIND: its status and the state it leaves. -/
def State.mxBind (s : State) (m pa : Nat) : Word × State :=
  if 16383 < m ∨ pa % 64 ≠ 0 then (sysStatus 2 0, s)
  else if s.paFails pa 256 then (sysStatus 7 0, s)
  else if (s.mx m).st ≠ .free then (sysStatus 8 0, s)
  else
    let l := s.peek pa 256
    match imageFault l with
    | some o => (sysStatus 2 o, s)
    | none =>
      let img := Mx.reset.ofImage l
      match (s.setMx m img).bindChecks m with
      | .error e => (e, s)
      | .ok (meas, locks) => (sysStatus 0 0, ((s.forgetMx m).setMx m { newMx (s.mx m) img s.dclk meas locks with sharedBase := s.shared }).prefetchRecord m)

def execMxbind (d a b : BitVec 5) (s : State) : Out :=
  let (v, t) := s.mxBind (s.g a).toNat (s.g b).toNat
  .next (t.setG d v).done

/-! MXSAVE (R365) -/

/-- A write of `n` bytes at a PA argument lies in a hole or at a place no agent writes. -/
def State.paUnwritable (s : State) (pa n : Nat) : Bool :=
  !s.populated pa || !s.populated (pa + n - 1) || isIo pa || s.rangeLocked pa n

/-- The status of an MXSAVE that stops before its mode acts; `ok` tells whether the mode accepts the state. -/
def State.saveArg (s : State) (pa : Nat) (ok : Bool) : Option Word :=
  if pa % 64 ≠ 0 then some (sysStatus 2 0)
  else if s.paUnwritable pa 256 then some (sysStatus 7 0)
  else if ok then none
  else some (sysStatus 8 0)

/-- The micro-context an MXSAVE names. -/
def State.saveMx (s : State) (a : BitVec 5) : Nat := (s.g a).toNat % 16384

/-- An MXSAVE that is complete at once: `f` makes the transition, the record is copied out, the status is OK. -/
def State.saveNow (s : State) (d a b : BitVec 5) (ok : Bool) (f : State → State) : Out :=
  let pa := (s.g b).toNat
  match s.saveArg pa ok with
  | some e => .next (s.setG d e).done
  | none =>
    let t := f s
    .next ((t.poke pa (t.mx (s.saveMx a)).record).setG d (sysStatus 0 0)).done

/-- An MXSAVE whose transition comes later: its status is delivered then. -/
def State.saveLater (s : State) (d a b : BitVec 5) (mode : Nat) (ok : Bool) (f : State → State) : Out :=
  let pa := (s.g b).toNat
  match s.saveArg pa ok with
  | some e => .next (s.setG d e).done
  | none =>
    let o : HkOp := { mode := mode, mx := s.saveMx a, pa := pa, dest := d, scrub := none, ok := false }
    .next (f { s with hkOps := s.hkOps ++ [o] }).done

/-- MXSAVE `.copy`. -/
def execMxsaveCopy (d a b : BitVec 5) (s : State) : Out := s.saveNow d a b true id

/-- A team without cores is discarded: what is on its way, its image, its resume records. -/
def State.discardImage (s : State) (m : Nat) : State := ((s.freeResumes m).dropTeam m).clearTeam m

/-- MXSAVE `.free`: a bound team is killed first; a paused one has its cores scrubbed. -/
def execMxsaveFree (d a b : BitVec 5) (s : State) : Out :=
  let m := s.saveMx a
  let x := s.mx m
  match x.st with
  | .free => s.saveNow d a b false id
  | .idle => s.saveNow d a b true fun t => t.becomeFree m
  | .ready => s.saveNow d a b true fun t => t.becomeFree m
  | .faulted => s.saveNow d a b true fun t => t.becomeFree m
  | .saved =>
    s.saveNow d a b true fun t =>
      let u := t.discardImage m
      (u.setMx m { u.mx m with gen := (u.mx m).gen + 1 }).becomeFree m
  | .bound => s.saveLater d a b 1 true fun t => t.beginKill m
  | .swapped => s.saveLater d a b 1 true fun t => t.finishKill m
  | .paused =>
    s.saveLater d a b 1 x.exported fun t =>
      let u := (((t.freeResumes m).dropTeam m).releaseTeam m false none).clearTeam m
      ((u.setMx m { u.mx m with gen := (u.mx m).gen + 1 }).becomeFree m).snapshot m

/-- MXSAVE `.reset`. -/
def execMxsaveReset (d a b : BitVec 5) (s : State) : Out :=
  let m := s.saveMx a
  s.saveNow d a b ((s.mx m).st == .faulted) fun t =>
    let u := t.setMx m { t.mx m with st := .idle }
    (u.prefetchRecord m).postEvent m evRst (u.mx m).gen.toNat

/-- A bound team that no stop has begun for. -/
def State.saveable (s : State) (m : Nat) : Bool := (s.mx m).st == .bound && (s.mx m).ending.isNone

/-- MXSAVE `.ckpt`. -/
def execMxsaveCkpt (d a b : BitVec 5) (s : State) : Out :=
  s.saveLater d a b 3 (s.saveable (s.saveMx a)) fun t => t.beginSave (s.saveMx a) .ckpt

/-- MXSAVE `.drain`, which acts as `.ckpt` on a team with a held stream (R381). -/
def execMxsaveDrain (d a b : BitVec 5) (s : State) : Out :=
  s.saveLater d a b 5 (s.saveable (s.saveMx a)) fun t => t.beginSave (s.saveMx a) (if t.anyHeld (s.saveMx a) then .ckpt else .drain)

/-- MXSAVE `.kill`. -/
def execMxsaveKill (d a b : BitVec 5) (s : State) : Out :=
  let m := s.saveMx a
  let x := s.mx m
  s.saveLater d a b 4 (x.st == .bound || x.st == .swapped) fun t => if x.st = .bound then t.beginKill m else t.finishKill m

/-- A register of the housekeeping processor written by a late result. -/
def State.hkWrite (s : State) (d : BitVec 5) (v : Word) : State :=
  if d = 0 then s else { s with hk := { s.hk with g := s.hk.g.put d.toNat v } }

/-- The statuses of the MXSAVE operations whose transition and scrub are complete, delivered. Where a save could not be made (R388), or the
team ended otherwise first, the spec gives no status: a free value. -/
def State.deliverHkOps (s : State) : State :=
  s.hkOps.foldl
    (fun (t : State) o =>
      match o.scrub with
      | none => t
      | some c =>
        if t.scrubs.any fun x => x.id == c then t
        else
          let t1 := { t with hkOps := t.hkOps.filter (· != o) }
          if o.ok then t1.hkWrite o.dest (sysStatus 0 0) else (t1.free.2).hkWrite o.dest t1.free.1) s

/-! Scrub (R338 to R341, R367) -/

/-- Cycles charged to the budget of an EDF micro-context, in units of 64 (R310). -/
def Mx.charge (x : Mx) (n : Nat) : Mx :=
  if x.period = 0 then x
  else
    let r := x.rem.toNat - (x.remFrac + n) / 64
    { x with remFrac := (x.remFrac + n) % 64, rem := BitVec.ofNat 32 r,
             ranOut := x.ranOut || (x.st == .bound && decide (r = 0 ∧ x.rem ≠ 0)) }

/-- The scrub of a release of this micro-context, which was bound to its record then. -/
def Scrub.releaseOf (c : Scrub) (m : Nat) (x : Mx) : Bool := c.dest.isNone && c.mx == m && decide (x.t0.toNat ≤ c.start)

/-- The micro-context is BOUND or its release is being scrubbed: its budget runs (R310). -/
def State.charged (s : State) (m : Nat) : Bool := (s.mx m).st == .bound || s.scrubs.any fun c => c.releaseOf m (s.mx m)

/-- Cycles before which the steps of a scrub cannot have ended (Table 18.6); the cache step may take up to cycle 16,448. -/
def Scrub.least (c : Scrub) : Nat := if c.cws = [] then 1088 else 4160

/-- A pane written zero when its PRIV bit is set, or whatever it is. -/
def Casement.clear (w : Casement) (all : Bool) : Casement :=
  { w with
    pane0 := if w.priv0 || all then [] else w.pane0, pane1 := if w.priv1 || all then [] else w.pane1,
    bad0 := if w.priv0 || all then [] else w.bad0, bad1 := if w.priv1 || all then [] else w.bad1,
    carried0 := if w.priv0 || all then [] else w.carried0, carried1 := if w.priv1 || all then [] else w.carried1, priv0 := false, priv1 := false }

/-- A core with the resources of a scrub cleared and free again, and its control register at its reset value (R5). -/
def Core.scrubbed (k : Core) (core : Nat) (c : Scrub) : Core :=
  let slots := (c.slots.filter fun e => e.1 == core).map (·.2)
  let banks := (c.banks.filter fun e => e.1 == core).map (·.2)
  let shut := ((c.shuts.filter fun e => e.1 == core).map (·.2)).sum
  let cw := c.cws.contains core
  { k with
    streams := k.streams.filter fun e => !slots.contains e.1
    sp := k.sp.filter fun e => !banks.contains (e.1 / 65536)
    spBad := k.spBad.filter fun b => !banks.contains (b / 1024)
    wth := if c.cores.contains core then 0xC350 else k.wth
    scrubShut := k.scrubShut - shut
    cw := if cw then k.cw.clear c.allPanes else k.cw
    scrubSlots := k.scrubSlots.filter fun x => !slots.contains x
    scrubBanks := k.scrubBanks.filter fun x => !banks.contains x
    scrubCw := k.scrubCw && !cw }

/-- The cache step: lines that hold blocks of the tenant's ENC pages, and for a release those of the micro-context's tensors, are marked; lines of
weight segments and of device tensors are kept. -/
def State.markRetiring (s : State) (c : Scrub) : State :=
  let hit := fun (b : Nat) (l : LlcBlk) =>
    decide (l.tid < 0xF0000) && !isFlash (64 * b)
      && ((match l.enc with | some k => (s.key k).tenant == c.tenant | none => false) || (c.dest.isNone && l.tid != 0 && l.mx == c.mx))
  let lines := ((s.llc.filter fun e => hit e.1 e.2).map fun e => e.2.line e.1).eraseDups
  { s with llc := s.llc.map fun e =>
      if lines.contains (e.2.line e.1) then (e.1, { e.2 with retiring := true, outgoing := c.tenant }) else e }

/-- SCRUB_COMPLETE: the resources are clear and free; the cycles of a release are counted; a SCRUB instruction gets its status. -/
def execScrubComplete (id : Nat) (s : State) : Out :=
  match s.scrubs.find? fun c => c.id == id with
  | none => .next s
  | some c =>
    let n := s.dclk.toNat - c.start
    if n < c.least then .next s
    else
      let s1 := { s with
        cores := s.cores.map (fun (e : Nat × Core) => (e.1, e.2.scrubbed e.1 c)), scrubs := s.scrubs.filter fun x => x.id != id }
      let s2 := if c.cache then s1.markRetiring c else s1
      match c.dest with
      | some d => .next (s2.hkWrite d (sysStatus 0 0))
      | none => .next (if c.releaseOf c.mx (s2.mx c.mx) then s2.setMx c.mx (((s2.mx c.mx).bump 3 n).count 5 n) else s2)

/-- RETIRING_LINE_WRITEBACK: a retiring block is written back where dirty, and leaves the cache. -/
def execRetiringLineWriteback (blk : Nat) (s : State) : Out :=
  match s.llc.find blk with
  | none => .next s
  | some l =>
    let p := s.tenantPart l.outgoing
    if !l.retiring || !s.homeReady (64 * blk) || !s.homeServes p || !s.turnAt p (dirtyResources [(blk, l)]) then .next s
    else
      let s1 := if l.dirty then ((s.storeBlk blk l.enc l.data).countShared l.owner 0x102 1).servedAll p (dirtyResources [(blk, l)]) else s
      .next { s1 with llc := s1.llc.erase blk }

/-- KEY_SLOT_EMPTY: no micro-context names the slot, no cache line holds plaintext under it, and no line that the scrubs of its tenant have marked
remains (R332, R340). -/
def execKeySlotEmpty (slot : Nat) (s : State) : Out :=
  let k := s.key slot
  if k.st = 2 ∧ (s.mxs.all fun e => e.2.st == .free || e.2.kslot != slot)
      ∧ s.llc.all fun e => e.2.enc != some slot && !(e.2.retiring && e.2.outgoing == k.tenant) then
    .next (s.setKey slot { k with st := 0 })
  else .next s

end Sys2Proof.Machine
end

