-- ==== Sys2Proof/Machine/KvArith.lean ====
section
/-! DEFINITION. The arithmetic of the attention engines: the rows of KV blocks (R264 to R266), re-rotation of keys (R281), page states and
their merge (R284 to R286), the outputs of a query (R285, R287), and the deviations of a repair (R297). -/

namespace Sys2Proof.Machine

/-! KV blocks (Table 11.2) -/

/-- The base format of a KV block code. -/
def kvBase (kc : Nat) : Nat := match kc with | 0x40 => 0x1A | 0x41 => 0x03 | 0x42 => 0x02 | 0x43 => 0x01 | _ => 0x18

/-- Elements of a block. -/
def kvElems (kc : Nat) : Nat := match blkFmt (kvBase kc) with | some z => z.elems | none => 1

/-- A block with its F byte replaced. -/
def withF (b : Blk) (f : Nat) : Blk := BitVec.ofNat 512 (b.toNat / 256 * 256 + f)

/-- The values of a KV block, whatever its F byte. -/
def kvValues (kc : Nat) (b : Blk) : List XV := blkValues (withF b (kvBase kc))

/-- Blocks of a head row. -/
def Arena.bh (x : Arena) : Nat := ceilDiv x.hd (kvElems x.kc.toNat)
/-- Bytes of one layer's rows of a position, and of a position record. -/
def Arena.layerBytes (x : Arena) : Nat := 2 * x.hk * x.bh * 64
def Arena.recBytes (x : Arena) : Nat := x.nl * x.layerBytes

/-- A head row: its values, whether one of its blocks is a NaN block, and whether an element of another block is not finite, or a signalling NaN. -/
structure HeadRow where
  vals : List XV
  nan : Bool
  bad : Bool
  sig : Bool

def XV.finite : XV → Bool
  | .fin .. => true
  | _ => false

/-- A signalling NaN. -/
def XV.signals : XV → Bool
  | .nan _ _ sig => sig
  | _ => false

def headRow (kc hd : Nat) (l : List Blk) : HeadRow :=
  let els := (l.flatMap fun b => (kvValues kc b).map fun v => (v, Blk.isNan b)).take hd
  { vals := els.map (·.1), nan := l.any Blk.isNan, bad := els.any fun e => !e.2 && !e.1.finite,
    sig := els.any fun e => !e.2 && e.1.signals }

/-- Every element is finite. -/
def HeadRow.finite (r : HeadRow) : Bool := r.vals.all XV.finite

/-- Flags of a row that holds something non-finite (R286). -/
def HeadRow.flags (r : HeadRow) : Flags := { nb := r.nan, iv := r.bad }

/-- Flags of a row that is only compared: a NaN block, and a signalling NaN, read as operands (R78 rules 2 and 3, R88). -/
def HeadRow.readFlags (r : HeadRow) : Flags := { nb := r.nan, iv := r.sig }

/-! Exact sums -/

/-- A sum of finite products; zero when there is none. -/
def dot (l : List (XV × XV)) : XV := l.foldl (fun a p => (XV.add false a (XV.mul p.1 p.2).1).1) (XV.zero false)

/-- An exact zero has no sign. -/
def XV.plain (x : XV) : XV := if x.isZero then XV.zero false else x

/-- Rounding into FP32 with flags, as a bit pattern. -/
def f32 (x : XV) : BitVec 32 × Flags := toFp32 Rnd.rne x.plain

/-! Page states (R284, R286) -/

/-- 2^(a − b) rounded. -/
def powDiff (a b : BitVec 32) : BitVec 32 × Flags :=
  match (XV.add false (fp32 a) (fp32 b).flip).1 with
  | .fin n m e _ => toFp32 Rnd.rne (exp2Fin n m e)
  | y => toFp32 Rnd.rne y

def canon32 : BitVec 32 := 0x7FC00000

/-- The NaN state. -/
def nanState (hd : Nat) : RowState := { m := canon32, l := canon32, o := List.replicate hd canon32 }
/-- The empty state. -/
def emptyState (hd : Nat) : RowState := { m := 0xFF800000, l := 0, o := List.replicate hd 0 }

def RowState.isNan (r : RowState) : Bool := (fp32 r.m).isNan

/-- The larger of two FP32 values. -/
def max32 (a b : BitVec 32) : BitVec 32 := if XV.cmp (fp32 a) (fp32 b) == .lt then b else a

def orAll (l : List Flags) : Flags := l.foldl Flags.or {}

/-- The state of one page for a row and head: query values, key and value rows of the admitted positions, and the score scale. A score is formed,
with its flags, wherever its query and key rows are finite; anything non-finite, or a score that rounds to infinity, gives the NaN state. -/
def pageState (hd : Nat) (scl : XV) (q : List XV) (kv : List (HeadRow × HeadRow)) : RowState × Flags :=
  let bad := orAll (kv.map fun p => p.1.flags.or p.2.flags)
  let badQ : Flags := { iv := !(q.all XV.finite) }
  let s := (if badQ.iv then [] else kv.filter fun p => p.1.finite).map fun p => f32 (XV.mul (dot (q.zip p.1.vals)) scl).1
  let fs := orAll (s.map (·.2))
  if badQ.iv || !(kv.all fun p => p.1.finite && p.2.finite) || fs.ov then
    (nanState hd, ((bad.or badQ).or fs).or (if fs.ov then { iv := true } else {}))
  else
      let m := s.foldl (fun a p => max32 a p.1) (0xFF800000 : BitVec 32)
      let w := s.map fun p => powDiff p.1 m
      let one : XV := .exact false 1 0
      let l := f32 (dot (w.map fun p => (fp32 p.1, one)))
      let o := (List.range hd).map fun d => f32 (dot ((w.zip kv).map fun p => (fp32 p.1.1, p.2.2.vals.getD d (XV.zero false))))
      ({ m := m, l := l.1, o := o.map (·.1) }, ((fs.or (orAll (w.map (·.2)))).or l.2).or (orAll (o.map (·.2))))

/-- a × fa + b × fb, one rounding; infinities and NaNs as an addition and a multiplication treat them. -/
def mix (a fa b fb : BitVec 32) : BitVec 32 × Flags :=
  let (x, f1) := XV.mul (fp32 a) (fp32 fa)
  let (y, f2) := XV.mul (fp32 b) (fp32 fb)
  let (z, f3) := XV.add false x y
  let (v, f4) := toFp32 Rnd.rne z
  (v, ((f1.or f2).or f3).or f4)

/-- Merge (R285); `none` is the empty state. -/
def mergeState (a : Option RowState) (b : RowState) : RowState × Flags :=
  match a with
  | none => (b, {})
  | some a =>
    if a.isNan || b.isNan then (nanState b.o.length, {})
    else
      let m := max32 a.m b.m
      let (fa, f1) := powDiff a.m m
      let (fb, f2) := powDiff b.m m
      let l := mix a.l fa b.l fb
      let o := (a.o.zip b.o).map fun p => mix p.1 fa p.2 fb
      ({ m := m, l := l.1, o := o.map (·.1) }, ((f1.or f2).or l.2).or (orAll (o.map (·.2))))

/-! Outputs (R285, R287) -/

/-- An exact quotient; `b` is finite and not zero, or a NaN. -/
def quotient (a b : XV) : XV :=
  match a, b with
  | .fin n m e _, .fin n' m' e' _ =>
    if m = 0 ∨ m' = 0 then XV.zero (n != n')
    else
      let p := Nat.log2 m' + 64
      .fin (n != n') (m * 2 ^ p / m') (e - e' - (p : Int)) (m * 2 ^ p % m' != 0)
  | .inf n, .fin n' _ _ _ => .inf (n != n')
  | _, _ => XV.canon

/-- The output of a state: its elements in FP32 or BF16, as numbers. -/
def outputs (r : RowState) (fp32out : Bool) : List (Nat × Flags) :=
  r.o.map fun o =>
    let q := if r.isNan then XV.canon else quotient (fp32 o) (fp32 r.l)
    (if fp32out then fFP32 else fBF16).enc Rnd.rne q

/-- A row record of a completed query. -/
def rowRecord (hd : Nat) (r : Option RowState) (ow : Nat) (out32 : Bool) : List Byte × Flags :=
  let x := r.getD (emptyState hd)
  let els := if r.isNone then List.replicate hd (0, ({} : Flags)) else outputs x out32
  let put := fun (v : Nat) => if ow = 4 ∧ !out32 then leBytes 4 (v * 65536) else leBytes ow v
  (leBytes 4 x.m.toNat ++ leBytes 4 x.l.toNat ++ els.flatMap fun e => put e.1, orAll (els.map (·.2)))

/-- A row record of a PARTIAL query. -/
def runningRecord (hd : Nat) (r : Option RowState) : List Byte :=
  let x := r.getD (emptyState hd)
  leBytes 4 x.m.toNat ++ leBytes 4 x.l.toNat ++ x.o.flatMap fun e => leBytes 4 e.toNat

/-- RL of a query (R287). -/
def queryRl (nr nh ow hd : Nat) : Nat := 64 + 64 * ceilDiv (nr * nh * (8 + ow * hd)) 64

/-! Re-rotation (R281). Cosine and sine of an exact angle are found in fixed point with a known error, at a precision that is raised until
the first 200 bits are certain. -/

/-- A sum 1/k − 1/(3k³) + 1/(5k⁵) − … scaled by 2^p. -/
def atanInv (k : Nat) : Nat → Nat → Nat → Int
  | 0, _, _ => 0
  | f + 1, t, i => if t = 0 then 0 else ((t / (2 * i + 1) : Nat) : Int) - atanInv k f (t / (k * k)) (i + 1)

/-- π × 2^p, within 2^9 units. -/
def piScaled (p : Nat) : Nat := (16 * atanInv 5 p (2 ^ p / 5) 0 - 4 * atanInv 239 p (2 ^ p / 239) 0).toNat

/-- Cosine, from term `t` and index 0, or sine, from term x and index 1, by their series; `x2` is x² scaled by 2^p. -/
def trigSeries (p x2 : Nat) : Nat → Nat → Nat → Int
  | 0, _, _ => 0
  | f + 1, t, i => if t = 0 then 0 else (t : Int) - trigSeries p x2 f (t * x2 / 2 ^ p / ((i + 1) * (i + 2))) (i + 2)

/-- B^(j / 2^q) × 2^p for j < 2^q, by repeated square roots of B × 2^p. -/
def powRoot (p b j : Nat) : Nat → Nat → Nat
  | 0, _ => 2 ^ p
  | q + 1, cur =>
    let r := Nat.sqrt (cur * 2 ^ p)
    let rest := powRoot p b j q r
    if bit j q then r * rest / 2 ^ p else rest

/-- |th| × 2^p for pair j of HD elements, by the number HD / 2 = 2^q of pairs. -/
def angle (p : Nat) (bm : Nat) (be : Int) (q j d : Nat) : Nat :=
  let b := if 0 ≤ be then bm * 2 ^ be.toNat * 2 ^ p else bm * 2 ^ p / 2 ^ (-be).toNat
  d * 2 ^ (2 * p) / powRoot p b j q b

/-- cos and sin of the angle, scaled by 2^p, with an error below 2^48 units. -/
def cosSin (p th : Nat) : Int × Int :=
  let h := piScaled p
  let n := 2 * th / h
  let r := th - n * h / 2
  let x2 := r * r / 2 ^ p
  let c := trigSeries p x2 400 (2 ^ p) 0
  let s := trigSeries p x2 400 r 1
  match n % 4 with
  | 0 => (c, s)
  | 1 => (-s, c)
  | 2 => (-c, -s)
  | _ => (s, -c)

/-- The value a bounded approximation stands for. -/
def certain (f : Nat → Int) : XV :=
  let bounds := fun p => ((f p).natAbs - 2 ^ 48, (f p).natAbs + 2 ^ 48)
  .fin (decide (f 320 < 0)) (agree bounds 200 [320, 640, 1280]) (-200) true

/-- cs and sn of R281 for pair j and Δ ≠ 0, with the flags of their roundings. -/
def rotation (ropeb : BitVec 32) (hd j : Nat) (d : Int) : XV × XV × Flags :=
  let (bm, be) := match fp32 ropeb with | .fin _ m e _ => (m, e) | _ => (2, 0)
  let at' := fun (p : Nat) => cosSin p (angle p bm be (Nat.log2 (hd / 2)) j d.natAbs)
  let cs := toFp32 Rnd.rne (certain fun p => (at' p).1)
  let sn := toFp32 Rnd.rne (certain fun p => (at' p).2)
  (fp32 cs.1, if d < 0 then (fp32 sn.1).flip else fp32 sn.1, cs.2.or sn.2)

/-- A key row re-rotated: its blocks written from the exact values, in which a zero has no sign. -/
def rotateRow (kc hd : Nat) (ropeb : BitVec 32) (d : Int) (l : List Blk) : List Blk × Flags :=
  let r := headRow kc hd l
  let h := hd / 2
  let at' := fun i => r.vals.getD i (XV.zero false)
  let ys := (List.range h).map fun j =>
    let (cs, sn, f0) := rotation ropeb hd j d
    let (a, b) := (at' j, at' (j + h))
    let (p1, f1) := XV.mul a cs
    let (p2, f2) := XV.mul b sn
    let (p3, f3) := XV.mul a sn
    let (p4, f4) := XV.mul b cs
    let (y1, f5) := XV.add false p1 p2.flip
    let (y2, f6) := XV.add false p3 p4
    (y1.plain, y2.plain, orAll [f0, f1, f2, f3, f4, f5, f6])
  let vals := ys.map (·.1) ++ ys.map (·.2.1)
  let e := kvElems kc
  let f := kvBase kc
  let bs := (List.range l.length).map fun k => encBlk f Rnd.rne (tsbWidth f) ((vals.drop (e * k)).take e)
  let read : Flags := if r.nan then { nb := true } else {}
  (bs.map fun b => withF b.1 kc, (read.or (orAll (ys.map (·.2.2)))).or (orAll (bs.map (·.2))))

/-! Deviations (R297) -/

/-- The magnitude of a finite number, m × 2^e. -/
def XV.magOf : XV → Nat × Int
  | .fin _ m e _ => (m, e)
  | _ => (0, 0)

/-- The larger of two magnitudes m × 2^e. -/
def maxMag (a b : Nat × Int) : Nat × Int := if XV.cmp (.exact false a.1 a.2) (.exact false b.1 b.2) == .lt then b else a

/-- What one layer says of a token: its largest deviation, formed from exact values; none where an element is not finite. -/
def deviation (fresh stored : List HeadRow) : Option (Nat × Int) :=
  if !(fresh.all HeadRow.finite) || !(stored.all HeadRow.finite) then none
  else some ((fresh.zip stored).foldl
    (fun m p => (p.1.vals.zip p.2.vals).foldl (fun n e => maxMag n (XV.add false e.1 e.2.flip).1.magOf) m) (0, 0))

/-- A deviation is above a threshold; none is above a NaN. -/
def exceeds (d : Nat × Int) (thr : BitVec 32) : Bool := !(fp32 thr).isNan && XV.cmp (.exact false d.1 d.2) (fp32 thr) == .gt

end Sys2Proof.Machine
end

