-- ==== Sys2Proof/Machine/KvStore.lean ====
section
/-! DEFINITION. The arenas of the attention chiplet (R263 to R271, R334): where a position record lies, its blocks under the tenant's key,
pages with masks, lengths, pins and shared blocks, and the end of a KV command with its status record (R275, R276). -/

namespace Sys2Proof.Machine

/-! Places (R266, R267, R271) -/

/-- Where a position record begins: in attention-side HBM, or, for a TIER page, in the CXL tier, where a page's records are packed. -/
inductive RecPlace where
  | attn (a : Nat)
  | cxl (pa : Nat)
  deriving DecidableEq, Repr

def Arena.place (x : Arena) (kind : PageKind) (slot p : Nat) : RecPlace :=
  match kind with
  | .shared b => .attn (x.sbbase + 256 * x.recBytes * b + p % 256 * x.recBytes)
  | .tier pa => .cxl (pa + p % 256 * x.recBytes)
  | _ => .attn (x.base + slot * x.sstr + p * x.pstr)

/-- The kind of the page of a position. -/
def Arena.kindOf (x : Arena) (slot p : Nat) : PageKind := (x.page slot (p / 256)).kind

/-- A block of a record at a byte offset, deciphered under a key slot. -/
def State.recBlk (s : State) (k : Nat) (w : RecPlace) (o : Nat) : Blk :=
  match w with
  | .attn a => xtsDec (s.key k).k1.toNat (s.key k).k2.toNat true (a + o) (blkOfBytes (s.attn.readN (a + o) 64))
  | .cxl pa => s.readBlk ((pa + o) / 64) (some k)

def State.setRecBlk (s : State) (k : Nat) (w : RecPlace) (o : Nat) (b : Blk) : State :=
  match w with
  | .attn a =>
    { s with attn := s.attn.writeN (a + o) (blkBytes (xtsEnc (s.key k).k1.toNat (s.key k).k2.toNat true (a + o) b)),
             attnBad := s.attnBad.filter (· != (a + o) / 64) }
  | .cxl pa => s.writeBlk ((pa + o) / 64) (some k) b

/-- `n` blocks from an offset. -/
def State.recBlks (s : State) (k : Nat) (w : RecPlace) (o n : Nat) : List Blk := (List.range n).map fun i => s.recBlk k w (o + 64 * i)
def State.setRecBlks (s : State) (k : Nat) (w : RecPlace) (o : Nat) : List Blk → State
  | [] => s
  | b :: l => (s.setRecBlk k w o b).setRecBlks k w (o + 64) l

/-- A range of attention-side HBM or of the CXL tier holds a block whose data is uncorrectable (R416). -/
def State.recBad (s : State) (w : RecPlace × Nat) : Bool :=
  match w.1 with
  | .attn a => s.attnBad.any fun b => decide (a / 64 ≤ b ∧ 64 * b < a + w.2)
  | .cxl pa => (s.badIn pa w.2).isSome

/-- Ranges of attention-side HBM or of the CXL tier are read: correctable errors met, corrected and counted (R416). -/
def State.recMet (s : State) (l : List (RecPlace × Nat)) : State :=
  if s.weak = [] then s
  else l.foldl
    (fun (t : State) w => match w.1 with
      | .attn a => ((t.weak.filter fun e => e.1 == patrolCode .attn && decide (a / 64 ≤ e.2 ∧ 64 * e.2 < a + w.2)).map (·.2)).foldl
          (fun (u : State) b => u.correct .attn b) t
      | .cxl pa => t.meets [(pa, w.2)]) s

/-- A place some bytes further on. -/
def RecPlace.up (w : RecPlace) (o : Nat) : RecPlace :=
  match w with
  | .attn a => .attn (a + o)
  | .cxl pa => .cxl (pa + o)

/-- Offset of the K row of a head, of its V row, at a layer. -/
def Arena.kOff (x : Arena) (l h : Nat) : Nat := (2 * l * x.hk + h) * x.bh * 64
def Arena.vOff (x : Arena) (l h : Nat) : Nat := ((2 * l + 1) * x.hk + h) * x.bh * 64

/-- A head row of a record, from an offset. -/
def State.rowAt (s : State) (k : Nat) (x : Arena) (w : RecPlace) (o : Nat) : HeadRow :=
  headRow x.kc.toNat x.hd (s.recBlks k w o x.bh)

/-- A whole record copied to another place: its blocks deciphered at the one and enciphered at the other. -/
def State.copyRec (s : State) (k : Nat) (x : Arena) (a b : RecPlace) : State :=
  s.setRecBlks k b 0 (s.recBlks k a 0 (x.recBytes / 64))

/-- Accesses of the chiplet's copy path to `n` bytes of the CXL tier, whole frames, at their home as any others (R20): hits are used and counted,
and a miss fills the line of its frame in the ways of the tenant's partition (R170, R171, R328). They
belong to the micro-context whose command asked for them, or to none. -/
def State.copyPath (s : State) (m : Option Nat) (tenant : BitVec 16) (k pa n : Nat) : State :=
  (List.range (ceilDiv n 4096)).foldl
    (fun (t : State) i =>
      let a := pa + 4096 * i
      let blks := (List.range 64).map fun b => a / 64 + b
      let u := t.hit m 0 a 4096
      if blks.all fun b => (u.llc.find b).isSome then u
      else (u.fillLine m (frameLine a) (u.part (u.tenantPart tenant)).waymask (blks.map fun b => (b, some k))).countShared m 0x101 1) s

/-- The key slot of an arena's tenant, for a command that names no micro-context: the slot that one of the tenant's micro-contexts names and that is
not RETIRING, else one that is LOADED for the tenant, else one that still holds a key of it (R333, R334). -/
def State.tenantKey (s : State) (tenant : BitVec 16) : Nat :=
  let named := s.mxs.find? fun e => e.2.tenant == tenant && e.2.st != .free && (s.key e.2.kslot).tenant == tenant && (s.key e.2.kslot).st == 1
  let slot := fun (p : Nat → Bool) => s.keys.find? fun e => e.2.tenant == tenant && p e.2.st
  match named with
  | some e => e.2.kslot
  | none => match (slot (· == 1)).or (slot (· != 0)) with | some e => e.1 | none => 0

/-! Masks, lengths, provenance (R267, R268, R293) -/

def Arena.valid (x : Arena) (slot p : Nat) : Bool := (x.page slot (p / 256)).vmask.getLsbD (p % 256)

/-- NPOS recomputed. -/
def Arena.fixNpos (x : Arena) (slot : Nat) : Arena :=
  let n := x.pages.foldl
    (fun a e => if e.1 / 4096 = slot ∧ e.2.vmask ≠ 0 then max a (256 * (e.1 % 4096) + Nat.log2 e.2.vmask.toNat + 1) else a) 0
  { x with npos := x.npos.put slot n }

def Arena.nposOf (x : Arena) (slot : Nat) : Nat := AMap.get 0 x.npos slot

/-- The valid bit of a position set or cleared. -/
def Arena.setValid (x : Arena) (slot p : Nat) (v : Bool) : Arena :=
  let g := x.page slot (p / 256)
  let b := BitVec.ofNat 256 (2 ^ (p % 256))
  x.setPage slot (p / 256) { g with vmask := if v then g.vmask ||| b else g.vmask &&& ~~~b }

def Arena.provOf (x : Arena) (slot p : Nat) : Option Prov := x.prov.find (2 ^ 20 * slot + p)
def Arena.setProv (x : Arena) (slot p : Nat) (v : Option Prov) : Arena :=
  { x with prov := match v with | some t => x.prov.put (2 ^ 20 * slot + p) t | none => x.prov.erase (2 ^ 20 * slot + p) }

/-- A command has written pages of a slot (R351). -/
def Arena.wrote (x : Arena) (slot : Nat) (l : List Nat) : Arena :=
  l.foldl (fun y j => y.setPage slot j { y.page slot j with dirty := true }) x

def Arena.setKind (x : Arena) (slot j : Nat) (k : PageKind) : Arena := x.setPage slot j { x.page slot j with kind := k }

/-- Pages of a run of positions. -/
def pagesOf (p n : Nat) : List Nat := if n = 0 then [] else (List.range ((p + n - 1) / 256 - p / 256 + 1)).map (· + p / 256)

def PageKind.isShared : PageKind → Bool
  | .shared _ => true
  | _ => false
def PageKind.isTier : PageKind → Bool
  | .tier _ => true
  | _ => false

/-- Some page of a list is SHARED or TIER. -/
def Arena.anyRemote (x : Arena) (slot : Nat) (l : List Nat) : Bool :=
  l.any fun j => (x.page slot j).kind.isShared || (x.page slot j).kind.isTier

/-- Every page of a list that is EMPTY becomes LOCAL. -/
def Arena.fillEmpty (x : Arena) (slot : Nat) (l : List Nat) : Arena :=
  l.foldl (fun y j => if (y.page slot j).kind = .empty then y.setKind slot j .loc else y) x

/-- Some page of a list is pinned: a change of its data waits (R269). -/
def Arena.pinned (x : Arena) (slot : Nat) (l : List Nat) : Bool := l.any fun j => (x.page slot j).pins != 0

/-- The pages of a slot that have an entry of their own. -/
def Arena.slotPages (x : Arena) (slot : Nat) : List Nat := (x.pages.filter fun e => e.1 / 4096 == slot).map fun e => e.1 % 4096

/-! Shared blocks (R270, R271) -/

/-- The reference count of a shared block. -/
def Arena.refs (x : Arena) (b : Nat) : Nat := ((x.sbref.find b).map (·.1)).getD 0
def Arena.addRef (x : Arena) (b : Nat) : Arena := { x with sbref := x.sbref.put b (x.refs b + 1, true) }
def Arena.dropRef (x : Arena) (b : Nat) : Arena := { x with sbref := x.sbref.put b (x.refs b - 1, true) }
/-- A query that still reads a shared block. -/
def Query.reads (q : Query) (ar b : Nat) : Bool := q.arena == ar && q.pages.any fun p => p.kind == .shared b && p.left != []

/-- A query in progress, or kept in a resume record, holds pins of a shared block. -/
def State.blkRead (s : State) (ar b : Nat) : Bool :=
  (s.kvs.any fun k => match k.query with | some q => q.reads ar b | none => false)
    || s.mxs.any fun e => e.2.resumes.any fun r => r.2.q.reads ar b

/-- A shared block is free: no reference and no pin is left (R270, R271). -/
def State.blkFree (s : State) (ar : Nat) (x : Arena) (b : Nat) : Bool := (x.sbref.find b).isNone || (x.refs b == 0 && !s.blkRead ar b)

/-- The lowest free block of the pool. -/
def State.freeBlk (s : State) (ar : Nat) (x : Arena) : Option Nat := (List.range x.nsb).find? (s.blkFree ar x)

/-- SHARED_BLOCK_FREE: a block without references is free once no query reads it; its entry goes. -/
def execSharedBlockFree (ar blk : Nat) (s : State) : Out :=
  match s.arenas.find ar with
  | none => .next s
  | some x =>
    if (x.sbref.find blk).isSome && s.blkFree ar x blk then .next (s.setArena ar { x with sbref := x.sbref.erase blk }) else .next s

/-! The prefix index (R271, R290) -/

/-- The key of page j of a token sequence: the first 16 bytes of the hash, read little-endian. -/
def ixKey (x : Arena) (tokens : List Byte) (j : Nat) : BitVec 128 :=
  BitVec.ofNat 128 (leNat ((sm3Bytes (leBytes 4 x.model.toNat ++ leBytes 2 x.mver.toNat ++ tokens.take (1024 * (j + 1)))).take 16))

def State.ixFind (s : State) (ar : Nat) (key : BitVec 128) : Option IxEntry := s.index.find? fun e => e.arena == ar && e.key == key

/-- Entries in the bucket of a key. -/
def State.ixBucket (s : State) (key : BitVec 128) : Nat := (s.index.filter fun e => e.key.toNat % 65536 == key.toNat % 65536).length

/-! Status records (R275, R276) -/

/-- What a KV command comes to: status, VAL0, VAL1, TIERMISS, flags, record data. -/
structure KvDone where
  status : Nat
  val0 : Nat := 0
  val1 : Nat := 0
  miss : Bool := false
  flags : BitVec 7 := 0
  data : List Byte := []

/-- The status record. -/
def kvRecord (op : Nat) (r : KvDone) : List Byte :=
  let pad := sliceBytes r.data 0 (64 * ceilDiv r.data.length 64)
  leBytes 1 r.status ++ leBytes 1 op ++ leBytes 2 (r.miss.toNat + 4 * r.flags.toNat) ++ leBytes 4 (64 + pad.length) ++ leBytes 8 r.val0
    ++ leBytes 8 r.val1 ++ leBytes 40 0 ++ pad

/-- Statuses that are no error (R275). -/
def kvOkStatus (n : Nat) : Bool := decide (n ≤ 4)

/-- A KV command completes: its record is posted, unless NS; a status that is an error is kept for the tag's first consuming point,
and the coordinate of its fault holds the status; then the tag completes. -/
def State.kvComplete (s : State) (k : KvCmd) (r : KvDone) : State :=
  let s1 := { s with kvs := s.kvs.filter fun x => x.id != k.id }
  let s2 := if k.ns then s1 else s1.updRef k.ref fun x => { x with res := x.res.put k.rq (.done (kvRecord k.op r)) }
  let s3 :=
    if kvOkStatus r.status then s2
    else s2.tagError k.ref k.tag
      { code := 0x0B, reason := 4, opnd := 0, stglv := 0, coord0 := r.status, coord1 := 0, space := 0, addr := 0, baddr := none }
  s3.updRef k.ref fun x => x.tagDone k.tag

def State.setKv (s : State) (k : KvCmd) : State := { s with kvs := s.kvs.map fun x => if x.id = k.id then k else x }
def State.kv (s : State) (id : Nat) : Option KvCmd := s.kvs.find? fun k => k.id == id

/-- A page-in of a TIER page started, unless one is running (R288, R289). -/
def State.startPageIn (s : State) (ar slot j : Nat) : State :=
  match s.arenas.find ar with
  | some x => s.setArena ar (x.setPage slot j { x.page slot j with pagingIn := true })
  | none => s

end Sys2Proof.Machine
end

