-- ==== Sys2Proof/Machine/KvQuery.lean ====
section
/-! DEFINITION. Queries (R269, R282 to R289): what a query fixes at its place, the merge of one page state into one row and head at a time,
tier misses, splits and resumes, and the page-ins of the chiplet's copy path. -/

namespace Sys2Proof.Machine

/-! Data of a command in its issuer's scratchpad -/

/-- Bytes of the issuer's window; a wait while a sill of them is GRANTED; gone when the stream has given up its banks; an uncorrectable block, by
its offset. -/
inductive KvBytes where
  | bytes (l : List Byte)
  | wait
  | gone
  | bad (o : Nat)

def State.kvData (s : State) (k : KvCmd) (o n : Nat) : KvBytes :=
  match s.slotOf k.ref with
  | none => .gone
  | some e =>
    if s.sillBusy e.1 e.2 o n then .wait
    else match s.spOwned k.ref k.gens o n with
      | some l => (match s.spBadIn e.1 e.2 o n with | some b => .bad b | none => .bytes l)
      | none => .gone

/-- A command meets an uncorrectable block: it is reported for the tag, as a copy's is (R241, R416); the spec gives no status: a free value
(log 47). -/
def State.kvBad (s : State) (k : KvCmd) (opnd space va : Nat) : State :=
  let e : PendErr :=
    { code := 6, reason := 0, opnd := opnd, stglv := 0, coord0 := 0, coord1 := 0, space := space, addr := va, baddr := some (va / 64 * 64) }
  (s.free.2.tagError k.ref k.tag e).kvComplete k { status := s.free.1.toNat % 17 }

/-- A command meets an uncorrectable block of a position record: reported as `kvBad` does, at an address that the spec does not give, a record
having none in G: a free value too (log 47). -/
def State.kvBadRec (s : State) (k : KvCmd) : State := s.free.2.kvBad k 0 spG s.free.1.toNat

/-- A command has taken effect: what it read has been met (`f`); one that waits at its place has read nothing yet. -/
def State.kvMet (s : State) (k : KvCmd) (t : State) (f : State → State) : State := if s.weak = [] || t.kv k.id == s.kv k.id then t else f t

/-- A command goes on with its data; one whose data are gone ends as ABORTED with no effect (R156). -/
def State.withData (s : State) (k : KvCmd) (o n : Nat) (f : List Byte → State) : State :=
  match s.kvData k o n with
  | .wait => s
  | .gone => s.kvComplete k { status := 15 }
  | .bad b => s.kvBad k 1 spSP b
  | .bytes l => s.kvMet k (f l) fun t => t.spMet k.ref k.gens o n

/-! Rows and the positions they admit (R282, R283) -/

/-- Position p of a page is admitted by a row under the mask of the query's place. -/
def Query.admits (q : Query) (r : QRow) (g : QPage) (p : Nat) : Bool :=
  g.slot == r.slot && g.page == p / 256 && g.mask.getLsbD (p % 256) && decide (p < r.npos) &&
    (match q.mkind with
     | 0 => decide ((p : Int) ≤ r.pq)
     | 1 => decide (r.pq - q.win < (p : Int) ∧ (p : Int) ≤ r.pq)
     | 2 => decide (r.ds ≤ p ∧ (p : Int) ≤ r.pq)
     | _ => true)

/-- The positions of a page a row admits. -/
def Query.positions (q : Query) (r : QRow) (g : QPage) : List Nat :=
  ((List.range 256).map (· + 256 * g.page)).filter fun p => q.admits r g p

/-- Rows and heads of a query. -/
def Query.units (q : Query) : Nat := q.rows.length * q.nh

/-- The rows of the sequences: one with nq above NPOS has none. -/
def queryRows (x : Arena) : List (Nat × Nat × Nat) → Option (List QRow)
  | [] => some []
  | (slot, nq, ds) :: l =>
    let n := x.nposOf slot
    if n < nq then none
    else (queryRows x l).map fun r =>
      (List.range nq).map (fun j => { slot := slot, pq := (n : Int) - nq + j, ds := ds, npos := n }) ++ r

/-- The pages a query reads: each with the rows and heads that admit a position of it. -/
def Query.withPages (q : Query) (x : Arena) : Query :=
  let slots := (q.rows.map (·.slot)).eraseDups
  let all := slots.flatMap fun sl => (List.range (ceilDiv (x.nposOf sl) 256)).filterMap fun j =>
    let g := x.page sl j
    if g.kind = .empty then none
    else
      let p : QPage := { slot := sl, page := j, kind := g.kind, mask := g.vmask, left := [] }
      let rows := q.rows.zipIdx.filter fun r => q.positions r.1 p != []
      let left := rows.flatMap fun r => (List.range q.nh).map (· + r.2 * q.nh)
      if left = [] then none else some { p with left := left }
  { q with pages := all }

/-! The merge -/

/-- The FP32 score scale. -/
def Arena.scale (x : Arena) : XV := fp32 x.scl

/-- The query row of a row and head. -/
def Query.qRow (q : Query) (u : Nat) : List XV := (q.q.getD u []).map fun w => fBF16.dec w.toNat

/-- The state of page `g` for a row and head. -/
def State.unitState (s : State) (k : Nat) (x : Arena) (q : Query) (g : QPage) (u : Nat) : RowState × Flags :=
  match q.rows[u / q.nh]? with
  | none => (emptyState x.hd, {})
  | some r =>
    let h := (q.h0 + u % q.nh) / x.qg
    let kv := (q.positions r g).map fun p =>
      let w := x.place g.kind g.slot p
      (s.rowAt k x w (x.kOff q.layer h), s.rowAt k x w (x.vOff q.layer h))
    pageState x.hd x.scale (q.qRow u) kv

/-- The state of page number `i` merged into the running state of a row and head. -/
def State.mergeUnit (s : State) (k : Nat) (x : Arena) (q : Query) (i u : Nat) : Query :=
  match q.pages[i]? with
  | none => q
  | some g =>
    let (st, f1) := s.unitState k x q g u
    let (m, f2) := mergeState (q.states.getD u none) st
    { q with
      states := q.states.set u (some m), flags := q.flags ||| (f1.or f2).word, pages := q.pages.set i { g with left := g.left.filter (· != u) } }

/-- A page state may be merged now: its page is no TIER page, and under ORD no lower page of the row is still to come. -/
def Query.takeable (q : Query) (i u : Nat) : Bool :=
  match q.pages[i]? with
  | none => false
  | some g =>
    g.left.contains u && !g.kind.isTier
      && (!q.ord || q.pages.all fun h => !(h.slot == g.slot && decide (h.page < g.page) && h.left.contains u))

def Query.done (q : Query) : Bool := q.pages.all fun g => g.left == []

/-- Some page state may be merged now. -/
def Query.canGo (q : Query) : Bool := q.pages.zipIdx.any fun e => e.1.left.any fun u => q.takeable e.2 u

/-! Ends of a query (R287, R288) -/

/-- The query completes with its outputs; a resume record it continued is freed. -/
def State.queryDone (s : State) (x : Arena) (k : KvCmd) (q : Query) : State :=
  let ow := if q.out32 || q.split then 4 else 2
  let rows := (List.range q.units).map fun u => rowRecord x.hd (q.states.getD u none) ow q.out32
  let s1 := match k.resume with
    | some n => s.setMx k.ref.mx { s.mx k.ref.mx with resumes := (s.mx k.ref.mx).resumes.erase n }
    | none => s
  s1.kvComplete k
    { status := 0, val1 := q.tierMet, miss := q.tierMet != 0, flags := q.flags ||| (orAll (rows.map (·.2))).word,
      data := rows.flatMap (·.1) }

/-- The lowest free record number of a micro-context. -/
def Mx.freeResume (x : Mx) : Nat := ((List.range 256).find? fun n => (x.resumes.find n).isNone).getD 0

/-- The query completes with PARTIAL; a record is made, or the one it continued is kept. -/
def State.queryPartial (s : State) (x : Arena) (k : KvCmd) (q : Query) : State :=
  let m := k.ref.mx
  let y := s.mx m
  let (n, gen) := match k.resume with
    | some n => (n, ((y.resumes.find n).map (·.gen)).getD 0)
    | none => (y.freeResume, y.resGen + 1)
  let rec' : Resume := { gen := gen, q := { q with flags := 0 }, used := false, mgen := k.mgen }
  let s1 := s.setMx m { y with resumes := y.resumes.put n rec', resGen := if k.resume.isNone then gen else y.resGen }
  s1.kvComplete k
    { status := 1, val0 := n + gen.toNat * 2 ^ 16, val1 := q.tierMet, miss := q.tierMet != 0, flags := q.flags,
      data := (List.range q.units).flatMap fun u => runningRecord x.hd (q.states.getD u none) }

/-- The query ends with TIERERR: its pins are released, its record is freed; the flags of the states it has merged are reported.
DEDUCED (log 64): R88 and R286 make no exception for a query that ends so. -/
def State.queryFailed (s : State) (k : KvCmd) (q : Query) : State :=
  let m := k.ref.mx
  let s1 := match k.resume with
    | some n => s.setMx m { s.mx m with resumes := (s.mx m).resumes.erase n }
    | none => s
  (s1.unpinQuery q).kvComplete k { status := 13, val1 := q.tierMet, miss := true, flags := q.flags }

/-- The query meets an uncorrectable block (R416): its pins are released and its record is freed, as where a page-in fails. -/
def State.queryBad (s : State) (k : KvCmd) (q : Query) : State :=
  let m := k.ref.mx
  let s1 := match k.resume with
    | some n => s.setMx m { s.mx m with resumes := (s.mx m).resumes.erase n }
    | none => s
  (s1.unpinQuery q).kvBadRec k

/-- The query splits rather than wait: SPLIT, and fewer than 256 resume records in the micro-context, that of a resumed query included. -/
def State.splits (s : State) (k : KvCmd) (q : Query) : Bool := q.split && decide ((s.mx k.ref.mx).resumes.length < 256)

/-- TIER pages that have been paged in meanwhile are LOCAL for a query that waits. -/
def Query.refresh (q : Query) (x : Arena) : Query :=
  { q with pages := q.pages.map fun g =>
      if g.kind.isTier && !(x.page g.slot g.page).kind.isTier then { g with kind := .loc } else g }

/-- What a query does next: complete, split, go on, or wait for page-ins. -/
def State.queryStep (s : State) (k : KvCmd) (q : Query) : State :=
  match s.arenas.find q.arena with
  | none => s
  | some x =>
    if q.done then s.queryDone x k q
    else if q.canGo then s.setKv { k with query := some q }
    else if s.splits k q then s.queryPartial x k q
    else
      let q1 := q.refresh x
      let s1 := s.setKv { k with query := some q1 }
      q1.pages.foldl (fun t g => if g.left != [] && g.kind.isTier then t.startPageIn q.arena g.slot g.page else t) s1

/-- A query taken up: TIER pages counted and their page-ins started. -/
def State.queryStart (s : State) (k : KvCmd) (q : Query) : State :=
  let tier := q.pages.filter fun g => g.left != [] && g.kind.isTier
  let q1 := { q with tierMet := tier.length }
  let s1 := tier.foldl (fun t g => t.startPageIn q.arena g.slot g.page) (s.setKv { k with started := true, query := some q1 })
  s1.queryStep { k with started := true, query := some q1 } q1

/-- Read pins taken on every page a query reads. -/
def Arena.pinPages (x : Arena) (q : Query) : Arena :=
  q.pages.foldl (fun y g => y.setPage g.slot g.page { y.page g.slot g.page with pins := (y.page g.slot g.page).pins + 1 }) x

/-- KV.QRY at its place: RESSIZE, then RANGE, then the rows, the pages and their pins. -/
def State.performQuery (s : State) (x : Arena) (k : KvCmd) : State :=
  let nh := k.d.nhm1 + 1
  let nr := (k.seqs.map fun e => e.2.1).sum
  let split := k.d.flags.getLsbD 3
  let out32 := k.d.flags.getLsbD 6
  if 258048 < queryRl nr nh (if out32 || split then 4 else 2) x.hd then s.kvComplete k { status := 6 }
  else match queryRows x k.seqs with
    | none => s.kvComplete k { status := 5 }
    | some rows =>
      s.withData k k.d.data (2 * x.hd * nr * nh) fun l =>
        let q0 : Query :=
          { arena := k.d.arena, layer := k.d.layer, ord := k.d.flags.getLsbD 2, split := split, out32 := out32, h0 := k.d.h0, nh := nh,
            mkind := k.d.mkind, win := k.d.win, rows := rows,
            q := (List.range (nr * nh)).map fun u => (List.range x.hd).map fun d => BitVec.ofNat 16 (fieldLe l (2 * x.hd * u + 2 * d) 2),
            pages := [], states := List.replicate (nr * nh) none, flags := 0, tierMet := 0 }
        let q := q0.withPages x
        (s.setArena k.d.arena (x.pinPages q)).queryStart k q

/-- KV.QRY with RESUME at its place: the live record continues. -/
def State.performResume (s : State) (x : Arena) (k : KvCmd) : State :=
  let m := k.ref.mx
  let n := k.d.mask.toNat % 65536
  match (s.mx m).resumes.find n with
  | none => s.kvComplete k { status := 7 }
  | some r =>
    if r.gen.toNat ≠ k.d.mask.toNat / 65536 % 65536 ∨ r.q.arena ≠ k.d.arena ∨ r.used then s.kvComplete k { status := 7 }
    else
      let q := { (r.q.refresh x) with split := k.d.flags.getLsbD 3, out32 := k.d.flags.getLsbD 6, flags := 0 }
      let s1 := s.setMx m { s.mx m with resumes := (s.mx m).resumes.put n { r with used := true } }
      s1.queryStart { k with resume := some n } q

/-- The rows of position records that the state of page number `i` for a row and head reads. -/
def Query.spans (q : Query) (x : Arena) (i u : Nat) : List (RecPlace × Nat) :=
  match q.pages[i]?, q.rows[u / q.nh]? with
  | some g, some r =>
    let h := (q.h0 + u % q.nh) / x.qg
    (q.positions r g).flatMap fun p =>
      let w := x.place g.kind g.slot p
      [(w.up (x.kOff q.layer h), 64 * x.bh), (w.up (x.vOff q.layer h), 64 * x.bh)]
  | _, _ => []

/-- The partitions whose queries wait at the attention engines. -/
def State.engineParts (s : State) : List Nat :=
  (s.kvs.filter fun k => k.started && (match k.query with | some q => q.canGo | none => false)).map fun k => (s.mx k.ref.mx).part

/-- PAGE_STATE_MERGE, in its partition's turn at the attention engines (R348); rows that hold an uncorrectable block end the query (R416): number `n` names the page and the row and head, n = page × units + (row
× NH + head − H0). -/
def execPageStateMerge (id n : Nat) (s : State) : Out :=
  match s.kv id with
  | none => .next s
  | some k =>
    match k.query with
    | none => .next s
    | some q =>
      match s.arenas.find q.arena with
      | none => .next s
      | some x =>
        let i := n / max 1 q.units
        let u := n % max 1 q.units
        let p := (s.mx k.ref.mx).part
        if !k.started || !q.takeable i u || !s.hasTurn 10 p s.engineParts then .next s
        else if (q.spans x i u).any s.recBad then .next ((s.queryBad k q).served 10 p)
        else
          let q1 := s.mergeUnit (s.mx k.ref.mx).kslot x q i u
          let s1 := (match q1.pages[i]? with
            | some g => if g.left = [] then s.unpin q.arena g.slot g.page else s
            | none => s).served 10 p |>.recMet (q.spans x i u)
          .next (s1.queryStep { k with query := some q1 } q1)

/-! Page-ins (R20, R288, R289, R349) -/

/-- A command waits for the page-in of a page. -/
def KvCmd.awaits (k : KvCmd) (ar slot j : Nat) : Bool :=
  k.d.arena == ar && (k.waiting.contains (slot, j)
    || (match k.query with | some q => q.pages.any fun g => g.slot == slot && g.page == j && g.left != [] && g.kind.isTier | none => false))

/-- The micro-context whose command waits for a page-in. -/
def State.pageInMx (s : State) (ar slot j : Nat) : Option Nat := (s.kvs.find? fun k => k.awaits ar slot j).map fun k => k.ref.mx

/-- The key slot under which a page-in reads and writes: that of the micro-context whose command waits for it, else its tenant's (R333, R334). -/
def State.pageInKey (s : State) (ar : Nat) (x : Arena) (slot j : Nat) : Nat :=
  match s.pageInMx ar slot j with
  | some m => (s.mx m).kslot
  | none => s.tenantKey x.tenant

/-- The bytes of a TIER page copied to the page's own place under a key slot, through the home agent's slice (R20). -/
def State.pageInCopy (s0 : State) (m : Option Nat) (k : Nat) (x : Arena) (slot j : Nat) : State :=
  let s := match (x.page slot j).kind with | .tier pa => s0.copyPath m x.tenant k pa (256 * x.recBytes) | _ => s0
  (List.range 256).foldl
    (fun t i => t.copyRec k x (x.place (x.page slot j).kind slot (256 * j + i)) (x.place .loc slot (256 * j + i))) s

/-- A TIER page's copy meets an uncorrectable block, or a home that is not up. -/
def State.tierBad (s : State) (x : Arena) (pa : Nat) : Bool := (s.badIn pa (256 * x.recBytes)).isSome

/-- One command's part in a page-in that has ended. -/
def State.afterPageIn (s : State) (ar slot j : Nat) (ok : Bool) (id : Nat) : State :=
  match s.kv id with
  | none => s
  | some k =>
    if k.d.arena ≠ ar ∨ !k.started then s
    else match k.query with
      | some q =>
        if q.pages.any fun g => g.slot == slot && g.page == j && g.left != [] && g.kind.isTier then
          (if ok then s.queryStep k q else if s.splits k q then s else s.queryFailed k q)
        else s
      | none =>
        if k.waiting.contains (slot, j) then
          let w := k.waiting.filter (· != (slot, j))
          if !ok then s.kvComplete k { status := 13 }
          else if w = [] then s.kvComplete k { status := 0 } else s.setKv { k with waiting := w }
        else s

/-- The PIN events of resume records that hold the page (R349). -/
def State.pinEvents (s : State) (ar slot j : Nat) : State :=
  s.mxs.foldl
    (fun t e => (e.2.resumes.filter fun r => !r.2.used && r.2.q.arena == ar
        && r.2.q.pages.any fun g => g.slot == slot && g.page == j && g.left != []).foldl (fun u r => u.postEvent e.1 evPin r.2.mgen) t) s

/-- The partitions whose page-ins wait at the copy path. -/
def State.copyPathParts (s : State) : List Nat :=
  (s.arenas.filter fun e => e.2.pages.any fun p =>
    p.2.pagingIn && (match p.2.kind with | .tier pa => s.paUp pa (256 * e.2.recBytes) | _ => false)).map fun e => s.tenantPart e.2.tenant

/-- PAGE_IN_COMPLETE: in its partition's turn at the copy path and at the CXL home agents (R348), the page is LOCAL, or stays TIER. -/
def execPageInComplete (arena slot page : Nat) (ok : Bool) (s : State) : Out :=
  match s.arenas.find arena with
  | none => .next s
  | some x =>
    match (x.page slot page).kind with
    | .tier pa =>
      let p := s.tenantPart x.tenant
      let homes := rangeResources pa (256 * x.recBytes)
      if !(x.page slot page).pagingIn || !s.paUp pa (256 * x.recBytes) || !s.hasTurn 9 p s.copyPathParts || !s.turnAt p homes then .next s
      else
        let good := ok && !s.tierBad x pa
        let s1 := ((if good then s.pageInCopy (s.pageInMx arena slot page) (s.pageInKey arena x slot page) x slot page else s).served 9 p).servedAll p homes
        let g := x.page slot page
        let x1 := x.setPage slot page { g with kind := if good then .loc else g.kind, pagingIn := false }
        let s2 := s1.setArena arena (if good then x1.wrote slot [page] else x1)
        .next (((s2.kvs.map (·.id)).foldl (fun t i => t.afterPageIn arena slot page good i) s2).pinEvents arena slot page)
    | _ => .next s

end Sys2Proof.Machine
end

