-- ==== Sys2Proof/Machine/KvPerform.lean ====
section
/-! DEFINITION. KV commands at their place in arena order (R192, R269, R278 to R281, R289 to R298). -/

namespace Sys2Proof.Machine

/-! Append, drop, commit (R278 to R280) -/

/-- The data blocks of whole rows: all of the base format (R278). -/
def rowBlks (l : List Byte) : List Blk := (List.range (l.length / 64)).map fun i => blkOfBytes (sliceBytes l (64 * i) 64)
def Arena.formatOk (x : Arena) (l : List Blk) : Bool := l.all fun b => Blk.f b == kvBase x.kc.toNat

/-- One layer of one position written from data blocks, F := KC. -/
def State.putLayer (s : State) (k : Nat) (x : Arena) (slot p layer : Nat) (l : List Blk) : State :=
  s.setRecBlks k (x.place (x.kindOf slot p) slot p) (x.kOff layer 0) (l.map fun b => withF b x.kc.toNat)

/-- Blocks of one token in data of whole rows of one layer. -/
def Arena.tokenBlks (x : Arena) (l : List Blk) (t : Nat) : List Blk := (l.drop (t * (x.layerBytes / 64))).take (x.layerBytes / 64)

def State.performAppend (s : State) (x : Arena) (k : KvCmd) : State :=
  let (slot, p, n) := (k.d.slot, k.d.pos, k.d.count)
  let run := pagesOf p n
  if x.anyRemote slot run then s.kvComplete k { status := 5 }
  else
    s.withData k k.d.data (n * x.layerBytes) fun l =>
      let bs := rowBlks l
      if !x.formatOk bs then s.kvComplete k { status := 14 }
      else if x.pinned slot run then s
      else
        let x1 := x.fillEmpty slot run
        let s1 := (List.range n).foldl (fun t i => t.putLayer (s.mx k.ref.mx).kslot x1 slot (p + i) k.d.layer (x1.tokenBlks bs i)) s
        let mark := fun (y : Arena) (i : Nat) =>
          let z := y.setProv slot (p + i) none
          if k.d.flags.getLsbD 0 then z.setValid slot (p + i) true else z
        (s1.setArena k.d.arena ((((List.range n).foldl mark x1).fixNpos slot).wrote slot run)).kvComplete k { status := 0 }

def State.performDrop (s : State) (x : Arena) (k : KvCmd) : State :=
  let slot := k.d.slot
  let ps := ((List.range 64).filter fun i => k.d.mask.getLsbD i).map (· + k.d.pos)
  if ps.any fun p => decide (x.maxpos ≤ p) || (x.kindOf slot p).isShared then s.kvComplete k { status := 5 }
  else
    (s.setArena k.d.arena (((ps.foldl (fun y p => y.setValid slot p false) x).fixNpos slot).wrote slot ((ps.map (· / 256)).eraseDups))).kvComplete k { status := 0 }

/-- A page reset: its reference dropped, its kind LOCAL unless it is EMPTY, its mask zero. -/
def Arena.resetPage (x : Arena) (slot j : Nat) : Arena :=
  let g := x.page slot j
  let x1 := match g.kind with | .shared b => x.dropRef b | _ => x
  x1.setPage slot j { g with kind := if g.kind = .empty then .empty else .loc, vmask := 0, pagingIn := false }

/-- The provenance tags of a slot's positions from `p` on cleared. -/
def Arena.clearProv (x : Arena) (slot p : Nat) : Arena :=
  { x with prov := x.prov.filter fun e => !(decide (2 ^ 20 * slot + p ≤ e.1 ∧ e.1 < 2 ^ 20 * (slot + 1))) }

/-- KV.DROP with ALL: a data change of the whole slot. -/
def State.performDropAll (s : State) (x : Arena) (k : KvCmd) : State :=
  let slot := k.d.slot
  let js := x.slotPages slot
  if x.pinned slot js then s
  else
    let x1 := ((js.foldl (fun y j => y.resetPage slot j) x).clearProv slot 0).wrote slot js
    let s1 := s.setArena k.d.arena { x1 with npos := x1.npos.put slot 0, repair := x1.repair.erase slot }
    -- a page-in that was running for the slot has nothing left to bring
    (((s1.kvs.filter fun e => e.id != k.id).map (·.id)).foldl
      (fun t i => js.foldl (fun u j => u.afterPageIn k.d.arena slot j true i) t) s1).kvComplete k { status := 0 }

/-- What a command reads of position records at its place: the positions that COMMIT moves, the page that IXINS shares, and the stored rows of a
CMP. -/
def Arena.kvReads (x : Arena) (k : KvCmd) : List (RecPlace × Nat) :=
  let slot := k.d.slot
  let recs := fun (o n : Nat) (ps : List Nat) => ps.map fun p => ((x.place (x.kindOf slot p) slot p).up o, n)
  match k.op with
  | 0x34 => recs 0 x.recBytes ((List.range (x.nposOf slot)).filter fun p => decide (k.d.pos ≤ p) && x.valid slot p)
  | 0x36 => recs 0 x.recBytes ((List.range 256).map (· + 256 * (k.d.pos / 256)))
  | 0x37 =>
    match x.repair.find slot with
    | some r => if k.d.subop = 1 && !k.started then recs (x.kOff k.d.layer 0) x.layerBytes ((List.range r.count).map (· + r.pos)) else []
    | none => []
  | _ => []

/-- A position record as it moves by `d`: keys re-rotated at every layer and head, values bit for bit (R281). -/
def Arena.moveRec (x : Arena) (d : Int) (l : List Blk) : List Blk × Flags :=
  if x.rope = false ∨ d = 0 then (l, {})
  else
    let rows := (List.range (x.nl * 2 * x.hk)).map fun i =>
      let r := (l.drop (i * x.bh)).take x.bh
      if i / x.hk % 2 = 0 then rotateRow x.kc.toNat x.hd x.ropeb d r else (r, {})
    (rows.flatMap (·.1), orAll (rows.map (·.2)))

def Arena.recBlkCount (x : Arena) : Nat := x.recBytes / 64

def State.performCommit (s : State) (x : Arena) (k : KvCmd) : State :=
  let (slot, p) := (k.d.slot, k.d.pos)
  let n := x.nposOf slot
  let run := pagesOf p (n - p)
  let old := ((List.range (n - p)).map (· + p)).filter fun q => x.valid slot q
  -- the pages whose data the move changes
  let changed := (((List.range (n - p)).map (· + p)).zip old |>.filter fun e => e.1 != e.2).map (·.1 / 256) |>.eraseDups
  if x.anyRemote slot run then s.kvComplete k { status := 5 }
  else if x.pinned slot changed then s
  else if (x.kvReads k).any s.recBad then s.kvBadRec k
  else
    let key := (s.mx k.ref.mx).kslot
    let x1 := x.fillEmpty slot (pagesOf p old.length)
    let moved := old.zipIdx.map fun e =>
      let (bs, f) := x.moveRec ((p + e.2 : Nat) - (e.1 : Int)) (s.recBlks key (x.place (x.kindOf slot e.1) slot e.1) 0 x.recBlkCount)
      (p + e.2, bs, f, x.provOf slot e.1)
    let s1 := moved.foldl (fun t e => t.setRecBlks key (x1.place (x1.kindOf slot e.1) slot e.1) 0 e.2.1) s
    let x2 := ((List.range (n - p)).map (· + p)).foldl (fun y q => y.setValid slot q false) x1
    let x3 := moved.foldl (fun y e => (y.setValid slot e.1 true).setProv slot e.1 e.2.2.2) (x2.clearProv slot p)
    (s1.setArena k.d.arena ((x3.fixNpos slot).wrote slot changed)).kvComplete k { status := 0, flags := (orAll (moved.map (·.2.2.1))).word }

/-! The prefix index (R290 to R292) -/

/-- Pages IXLOOK passes, from page j on: each with its index entry. -/
def State.ixHits (s : State) (ar : Nat) (x : Arena) (slot : Nat) (tokens : List Byte) : Nat → Nat → List (Nat × IxEntry)
  | 0, _ => []
  | n + 1, j =>
    match s.ixFind ar (ixKey x tokens j) with
    | none => []
    | some e =>
      let g := x.page slot j
      if g.kind = .empty ∨ (g.kind = .loc ∧ g.vmask = 0) then (j, e) :: s.ixHits ar x slot tokens n (j + 1) else []

/-- A hit page becomes SHARED with a full mask. -/
def Arena.attach (x : Arena) (slot j b : Nat) : Arena :=
  (x.setPage slot j { x.page slot j with kind := .shared b, vmask := BitVec.allOnes 256 }).addRef b

def State.performIxlook (s : State) (x : Arena) (k : KvCmd) : State :=
  s.withData k k.d.data (1024 * k.d.count) fun l =>
    let hits := s.ixHits k.d.arena x k.d.slot l k.d.count 0
    if k.d.flags.getLsbD 5 then s.kvComplete k { status := 0, val0 := hits.length }
    else
      let x1 := (hits.foldl (fun y e => y.attach k.d.slot e.1 e.2.blk) x).fixNpos k.d.slot
      let ix := s.index.map fun e => if hits.any fun h => h.2 == e then { e with hit := s.dclk.toNat } else e
      ({ s with index := ix }.setArena k.d.arena x1).kvComplete k { status := 0, val0 := hits.length }

def State.performIxins (s : State) (x : Arena) (k : KvCmd) : State :=
  s.withData k k.d.data (1024 * k.d.count) fun l =>
    let (slot, j) := (k.d.slot, k.d.pos / 256)
    let g := x.page slot j
    let tagged := (List.range 256).any fun i => (x.provOf slot (256 * j + i)).isSome
    if g.kind ≠ .loc then s.kvComplete k { status := 5 }
    else if g.vmask ≠ BitVec.allOnes 256 then s.kvComplete k { status := 12 }
    else if tagged then s.kvComplete k { status := 5 }
    else
      let key := ixKey x l j
      match s.ixFind k.d.arena key with
      | some _ => s.kvComplete k { status := 3 }
      | none =>
        match (if s.ixBucket key < 4 then s.freeBlk k.d.arena x else none) with
        | none => s.kvComplete k { status := 8 }
        | some b =>
          if (x.kvReads k).any s.recBad then s.kvBadRec k
          else
          let ks := (s.mx k.ref.mx).kslot
          let s1 := (List.range 256).foldl
            (fun t i => t.copyRec ks x (x.place .loc slot (256 * j + i)) (x.place (.shared b) slot (256 * j + i))) s
          let x1 := { ((x.setKind slot j (.shared b)).wrote slot [j]) with sbref := x.sbref.put b (2, true) }
          let e : IxEntry := { arena := k.d.arena, key := key, blk := b, hit := s.dclk.toNat }
          ({ s1 with index := s1.index ++ [e] }.setArena k.d.arena x1).kvComplete k { status := 2 }

/-! Splice (R293, R294) -/

/-- Bytes of an image through the translations held since issue; none where a home is not up. -/
def State.imageBlks (s : State) (k : KvCmd) (va n : Nat) : Option (List Blk) :=
  (List.range n).foldr
    (fun i acc =>
      match acc, k.pages.find? fun e => decide (e.va ≤ va + 64 * i ∧ va + 64 * i < e.va + e.size) with
      | some l, some e =>
        let pa := e.paOf (va + 64 * i)
        if s.homeReady pa then some (s.readBlk (pa / 64) (if e.enc then some (s.mx k.ref.mx).kslot else none) :: l) else none
      | _, _ => none) (some [])

/-- The first block of an image whose data is uncorrectable. -/
def State.imageBad (s : State) (k : KvCmd) (va n : Nat) : Option Nat :=
  ((List.range n).find? fun i =>
    match k.pages.find? fun e => decide (e.va ≤ va + 64 * i ∧ va + 64 * i < e.va + e.size) with
    | some e => s.badBlk (e.paOf (va + 64 * i) / 64)
    | none => false).map fun i => va + 64 * i

/-- The pieces of an image, within 4 KiB each, through the translations held since issue. -/
def KvCmd.imageSpans (k : KvCmd) (n : Nat) : List (Nat × Nat) :=
  (List.range (n / 4096 + 2)).filterMap fun i =>
    let lo := max k.img ((k.img / 4096 + i) * 4096)
    let hi := min (k.img + n) ((k.img / 4096 + i + 1) * 4096)
    if lo < hi then (k.pages.find? fun e => decide (e.va ≤ lo ∧ lo < e.va + e.size)).map fun e => (e.paOf lo, hi - lo) else none

/-- The physical ranges that a command reads in G at its place: a splice its image. -/
def State.kvSpansG (s : State) (k : KvCmd) : List (Nat × Nat) :=
  match s.arenas.find k.d.arena with
  | some x => if k.op = 0x32 then k.imageSpans (64 * (k.nt * (x.recBytes / 64) + 1)) else []
  | none => []

def State.performSplice (s : State) (x : Arena) (k : KvCmd) : State :=
  let (slot, p) := (k.d.slot, k.d.pos)
  let run := pagesOf p k.nt
  let n := x.recBlkCount
  if x.anyRemote slot run then s.kvComplete k { status := 5 }
  else
    -- the image is read, whatever comes of it: its bytes count as accessed (R318)
    let s := s.touch k.ref k.img (64 * (k.nt * n + 1))
    match s.imageBad k (k.img + 64) (k.nt * n) with
    | some va => s.kvBad k 0 spG va
    | none =>
      match s.imageBlks k (k.img + 64) (k.nt * n) with
      | none => s
      | some bs =>
        if !(bs.all fun b => Blk.f b == x.kc.toNat) then s.kvComplete k { status := 14 }
        else if x.pinned slot run then s
        else
          let x1 := x.fillEmpty slot run
          let tag : Prov := { doch := k.doch, model := x.model, mver := x.mver, lfirst := 0, llast := x.nl - 1, pbase := k.pbase }
          let recs := (List.range k.nt).map fun t => (p + t, x.moveRec ((p : Int) - k.pbase) ((bs.drop (t * n)).take n))
          let s1 := recs.foldl (fun t e => t.setRecBlks (s.mx k.ref.mx).kslot (x1.place (x1.kindOf slot e.1) slot e.1) 0 e.2.1) s
          let x2 := recs.foldl (fun y e => (y.setValid slot e.1 true).setProv slot e.1 (some tag)) x1
          (s1.setArena k.d.arena ((x2.fixNpos slot).wrote slot run)).kvComplete k
            { status := 0, flags := (orAll (recs.map (·.2.2))).word }

/-! Repair (R296 to R298) -/

/-- The values of a token's rows of one layer, from its blocks. -/
def Arena.layerRows (x : Arena) (l : List Blk) : List HeadRow :=
  (List.range (2 * x.hk)).map fun i => headRow x.kc.toNat x.hd ((l.drop (i * x.bh)).take x.bh)

/-- A commit of one layer for the selected tokens; `l` holds the rows of the tokens in order. -/
def State.commitLayer (s : State) (k : Nat) (x : Arena) (slot layer : Nat) (toks : List (Nat × List Blk)) : State :=
  toks.foldl (fun t e => t.putLayer k x slot e.1 layer e.2) s

/-- The frames of the CXL tier that a commit of a token's layer writes: those of a page that PGOUT has made TIER since the record was opened. -/
def Arena.commitFrames (x : Arena) (slot layer p : Nat) : List Nat :=
  match x.place (x.kindOf slot p) slot p with
  | .attn _ => []
  | .cxl pa =>
    let a := pa + x.kOff layer 0
    (List.range (x.layerBytes / 4096 + 2)).filterMap fun i => if 4096 * (a / 4096 + i) < a + x.layerBytes then some (a / 4096 + i) else none

/-- A commit of layers for the selected tokens would write a locked frame, which refuses every write (R51). DESIGN CHOICE (log 68): the command then
completes with RANGE and changes nothing. -/
def State.commitRefused (s : State) (x : Arena) (slot : Nat) (layers toks : List Nat) : Bool :=
  toks.any fun p => layers.any fun l => (x.commitFrames slot l p).any s.frameSealed

/-- RGEN of a layer raised on every page that holds a selected token. -/
def Arena.raiseGen (x : Arena) (slot layer : Nat) (toks : List Nat) : Arena :=
  ((toks.map (· / 256)).eraseDups).foldl
    (fun y j =>
      let g := y.page slot j
      y.setPage slot j { g with rgen := g.rgen.put layer (AMap.get 0 g.rgen layer + 1) }) x

def State.performOpen (s : State) (x : Arena) (k : KvCmd) : State :=
  let slot := k.d.slot
  match x.repair.find slot with
  | some r => s.kvComplete k { status := 9, val1 := r.committed }
  | none =>
    let ps := (List.range k.d.count).map (· + k.d.pos)
    if !(ps.all fun p => x.valid slot p && x.kindOf slot p == .loc && (x.provOf slot p).isSome) then s.kvComplete k { status := 5 }
    else
      let r : Repair := { opened := k.id, pos := k.d.pos, count := k.d.count, ltop := k.d.ltop, next := 0, nonfin := [], devs := [], sel := [], fresh := [], committed := 0 }
      (s.setArena k.d.arena { x with repair := x.repair.put slot r }).kvComplete k { status := 0 }

/-- The data of a CMP or APPLY for `n` tokens: bytes outside the window end the command with WINDOW, a wrong block with FORMAT. -/
def State.repairData (s : State) (x : Arena) (k : KvCmd) (r : Repair) (n : Nat) (f : List Blk → State) : State :=
  let w := k.gens.length * 65536
  if w < k.d.data + n * x.layerBytes then s.kvComplete k { status := 16, val1 := r.committed }
  else
    s.withData k k.d.data (n * x.layerBytes) fun l =>
      let bs := rowBlks l
      if x.formatOk bs then f bs else s.kvComplete k { status := 14, val1 := r.committed }

/-- One bit a token from POS: the selection bitmap. -/
def selectionBytes (r : Repair) (sel : List Nat) : List Byte :=
  leBytes (ceilDiv r.count 8) (sel.foldl (fun a p => a + 2 ^ (p - r.pos)) 0)

/-- A slot's repair record replaced or closed. -/
def Arena.setRepair (x : Arena) (slot : Nat) (r : Option Repair) : Arena :=
  { x with repair := match r with | some v => x.repair.put slot v | none => x.repair.erase slot }

/-- The record after a CMP of a layer: what its tokens deviate by, and their fresh rows. -/
def State.compared (s : State) (x : Arena) (k : KvCmd) (r : Repair) (bs : List Blk) : Repair :=
  let (slot, layer) := (k.d.slot, k.d.layer)
  let dev := fun (t : Nat) =>
    let w := x.place (x.kindOf slot (r.pos + t)) slot (r.pos + t)
    deviation (x.layerRows (x.tokenBlks bs t))
      (x.layerRows (s.recBlks (s.mx k.ref.mx).kslot w (x.kOff layer 0) (x.layerBytes / 64)))
  let step := fun (q : Repair) (t : Nat) =>
    match dev t with
    | none => { q with nonfin := (r.pos + t) :: q.nonfin }
    | some d => { q with devs := q.devs.put (r.pos + t) (maxMag (AMap.get (0, 0) q.devs (r.pos + t)) d) }
  (List.range r.count).foldl step { r with next := layer + 1, fresh := r.fresh.put layer (bs.flatMap blkBytes) }

/-- The flags of a comparison, over the fresh and the stored rows of every token of the record. -/
def State.comparedFlags (s : State) (x : Arena) (k : KvCmd) (r : Repair) (bs : List Blk) : Flags :=
  let (slot, layer) := (k.d.slot, k.d.layer)
  orAll ((List.range r.count).flatMap fun t =>
    let w := x.place (x.kindOf slot (r.pos + t)) slot (r.pos + t)
    (x.layerRows (x.tokenBlks bs t) ++ x.layerRows (s.recBlks (s.mx k.ref.mx).kslot w (x.kOff layer 0) (x.layerBytes / 64))).map HeadRow.readFlags)

/-- The tokens selected under a threshold (R297). -/
def Repair.select (r : Repair) (thr : BitVec 32) : List Nat :=
  ((List.range r.count).map (· + r.pos)).filter fun p => r.nonfin.contains p || exceeds (AMap.get (0, 0) r.devs p) thr

/-- REPAIR CMP at its place. At layer L it selects, and its commits of layers 0 to L then take places of their own (R298). -/
def State.performCmp (s : State) (x : Arena) (k : KvCmd) : State :=
  let (slot, layer) := (k.d.slot, k.d.layer)
  match x.repair.find slot with
  | none => s.kvComplete k { status := 11 }
  | some r =>
    if layer ≠ r.next ∨ r.ltop < layer then s.kvComplete k { status := 10, val1 := r.committed }
    else
      s.repairData x k r r.count fun bs =>
        if (x.kvReads k).any s.recBad then s.kvBadRec k
        else
        let r1 := s.compared x k r bs
        let fl := (s.comparedFlags x k r bs).word
        if layer < r.ltop then
          (s.setArena k.d.arena (x.setRepair slot (some r1))).kvComplete k { status := 0, val1 := r.committed, flags := fl }
        else
          let sel := r1.select k.thr
          if sel = [] then
            (s.setArena k.d.arena (x.setRepair slot none)).kvComplete k { status := 4, data := selectionBytes r sel, flags := fl }
          else if s.commitRefused x slot (List.range (r.ltop + 1)) sel then s.kvComplete k { status := 5, val1 := r.committed }
          else
            (s.setArena k.d.arena (x.setRepair slot (some { r1 with sel := sel }))).setKv
              { k with started := true, record := r.opened, cmpFlags := fl }

/-- The next commit of a CMP of layer L: one layer for the whole set (R298). A record that another stream has closed meanwhile, be a new
one open by now, gives NOREC (log 48). -/
def State.performNextCommit (s : State) (x : Arena) (k : KvCmd) : State :=
  let slot := k.d.slot
  match x.repair.find slot with
  | none => s.kvComplete k { status := 11, flags := k.cmpFlags }
  | some r =>
    if r.opened ≠ k.record then s.kvComplete k { status := 11, flags := k.cmpFlags }
    else if x.pinned slot (r.sel.map (· / 256)) then s
    else
      let layer := r.committed
      let all := rowBlks (AMap.get [] r.fresh layer)
      let s1 := s.commitLayer (s.mx k.ref.mx).kslot x slot layer (r.sel.map fun p => (p, x.tokenBlks all (p - r.pos)))
      let x1 := (x.raiseGen slot layer r.sel).wrote slot ((r.sel.map (· / 256)).eraseDups)
      let r1 := { r with committed := layer + 1 }
      if layer < r.ltop then s1.setArena k.d.arena (x1.setRepair slot (some r1))
      else
        let last := layer + 1 = x.nl
        (s1.setArena k.d.arena (x1.setRepair slot (if last then none else some { r1 with fresh := [] }))).kvComplete k
          { status := if last then 4 else 0, val0 := r.sel.length, val1 := layer + 1, flags := k.cmpFlags, data := selectionBytes r r.sel }

/-- REPAIR APPLY at its place; one that comes between the commits of a CMP of another stream waits for them. -/
def State.performApply (s : State) (x : Arena) (k : KvCmd) : State :=
  let (slot, layer) := (k.d.slot, k.d.layer)
  match x.repair.find slot with
  | none => s.kvComplete k { status := 11 }
  | some r =>
    if layer ≠ r.next ∨ layer ≤ r.ltop then s.kvComplete k { status := 10, val1 := r.committed }
    else
      s.repairData x k r r.sel.length fun bs =>
        if x.pinned slot (r.sel.map (· / 256)) ∨ r.committed ≠ layer then s
        else if s.commitRefused x slot [layer] r.sel then s.kvComplete k { status := 5, val1 := r.committed }
        else
          let toks := r.sel.zipIdx.map fun e => (e.1, x.tokenBlks bs e.2)
          let s1 := s.commitLayer (s.mx k.ref.mx).kslot x slot layer toks
          let x1 := (x.raiseGen slot layer r.sel).wrote slot ((r.sel.map (· / 256)).eraseDups)
          let last := layer + 1 = x.nl
          let r1 := if last then none else some { r with next := layer + 1, committed := layer + 1 }
          (s1.setArena k.d.arena (x1.setRepair slot r1)).kvComplete k { status := if last then 4 else 0, val1 := layer + 1 }

def State.performAbort (s : State) (x : Arena) (k : KvCmd) : State :=
  match x.repair.find k.d.slot with
  | none => s.kvComplete k { status := 11 }
  | some r =>
    (s.setArena k.d.arena { x with repair := x.repair.erase k.d.slot }).kvComplete k { status := 4, val1 := r.committed }

/-! Page-in (R289) -/

def State.performPagein (s : State) (x : Arena) (k : KvCmd) : State :=
  let js := ((List.range k.d.count).map (· + k.d.pos / 256)).filter fun j => (x.page k.d.slot j).kind.isTier
  if js = [] then s.kvComplete k { status := 0 }
  else
    js.foldl (fun t j => t.startPageIn k.d.arena k.d.slot j)
      (s.setKv { k with started := true, waiting := js.map fun j => (k.d.slot, j) })

/-! The place in arena order -/

/-- A command's effect, by its opcode and the choices of its descriptor. -/
def State.performKv (s : State) (x : Arena) (k : KvCmd) : State :=
  match k.op with
  | 0x30 => if k.d.flags.getLsbD 4 then s.performResume x k else s.performQuery x k
  | 0x31 => s.performAppend x k
  | 0x32 => s.performSplice x k
  | 0x33 => if k.d.flags.getLsbD 1 then s.performDropAll x k else s.performDrop x k
  | 0x34 => s.performCommit x k
  | 0x35 => s.performIxlook x k
  | 0x36 => s.performIxins x k
  | 0x37 =>
    match k.d.subop with
    | 0 => s.performOpen x k
    | 1 => s.performCmp x k
    | 2 => s.performApply x k
    | _ => s.performAbort x k
  | _ => s.performPagein x k

/-- The command has its place, and those of its layer commits, behind it. -/
def KvCmd.placed (k : KvCmd) : Bool := k.started && k.op != 0x37

/-- No earlier command of the same sequencer to the arena is still before its place (R192); nor is a status write of PKT.EMIT of its class, which
its data stand after (R187). -/
def State.kvInOrder (s : State) (k : KvCmd) : Bool :=
  (s.kvs.all fun e => decide (k.id ≤ e.id) || e.ref != k.ref || e.d.arena != k.d.arena || e.placed)
    && s.emits.all fun e => decide (k.id ≤ e.id) || e.ref != k.ref || e.cls != k.cls

/-- A command that the chiplet may take up: at its place, or at that of a layer commit; a splice when the homes serve the reads of its image. -/
def State.kvReady (s : State) (k : KvCmd) : Bool :=
  !k.placed && s.kvInOrder k && s.ready.contains .chiplet && s.spansOpen (some k.ref) (s.kvSpansG k)

/-- The partitions whose commands wait at the chiplet. -/
def State.kvParts (s : State) : List Nat := (s.kvs.filter s.kvReady).map fun k => (s.mx k.ref.mx).part

/-- KV_ARENA_PERFORM: in its partition's turn (R348), the command takes its place, or waits there for pins or sills. -/
def execKvArenaPerform (id : Nat) (s : State) : Out :=
  match s.kv id with
  | none => .next s
  | some k =>
    let p := (s.mx k.ref.mx).part
    if !s.kvReady k || !s.hasTurn 4 p s.kvParts then .next s
    else match s.arenas.find k.d.arena with
      | none => .next ((s.kvComplete k { status := 15 }).served 4 p)
      | some x =>
        let t := if k.started then s.performNextCommit x k else s.performKv x k
        .next (((s.kvMet k t fun u => u.recMet (x.kvReads k)).served 4 p).spansServed (some k.ref) (s.kvSpansG k))

end Sys2Proof.Machine
end

