-- ==== Sys2Proof/Machine/KvIssue.lean ====
section
/-! DEFINITION. The KV words at issue (R272 to R277, R282, R294): the descriptor, the checks in their order, and KV.RES. -/

namespace Sys2Proof.Machine

/-! The descriptor (Table 11.4) -/

def kvDescOf (l : List Byte) : KvDesc :=
  let f := fieldLe l
  { arena := f 0 2, layer := f 2 1, flags := BitVec.ofNat 8 (f 3 1), slot := f 4 2, nsqm1 := f 6 2, pos := f 8 4, count := f 0xC 4,
    data := f 0x10 4, aux := f 0x14 4, mask := BitVec.ofNat 64 (f 0x18 8), h0 := f 0x20 1, nhm1 := f 0x21 1, mkind := f 0x22 1,
    subop := f 0x23 1, win := f 0x24 4, nq := f 0x28 2, ltop := f 0x2A 1 }

/-- What a command uses of its descriptor. -/
structure KvUse where
  layer : Bool := false
  flags : Nat := 0
  slot : Bool := true
  nsq : Bool := false
  pos : Bool := false
  pageAligned : Bool := false
  count : Nat := 0
  data : Bool := false
  aux : Bool := false
  mask : Nat := 0
  heads : Bool := false
  subop : Bool := false
  win : Bool := false
  nq : Bool := false
  ltop : Bool := false

/-- The fields a command uses, by its opcode and the choices its descriptor makes. `mask` is the number of usable bits of MASK. -/
def kvUse (op : Nat) (d : KvDesc) : KvUse :=
  match op with
  | 0x30 =>
    if d.flags.getLsbD 4 then { flags := 0x58, slot := false, mask := 32 }
    else
      let clt := d.flags.getLsbD 7
      { layer := true, flags := 0xCC, slot := !clt, nsq := true, data := true, aux := clt, heads := true, win := d.mkind == 1,
        nq := !clt }
  | 0x31 => { layer := true, flags := 0x01, pos := true, count := 256, data := true }
  | 0x32 => { pos := true }
  | 0x33 => if d.flags.getLsbD 1 then { flags := 0x02 } else { flags := 0x02, pos := true, mask := 64 }
  | 0x34 => { pos := true }
  | 0x35 => { flags := 0x20, count := 64, data := true }
  | 0x36 => { pos := true, pageAligned := true, count := 64, data := true }
  | 0x37 =>
    match d.subop with
    | 0 => { subop := true, pos := true, count := 65536, ltop := true }
    | 1 => { subop := true, layer := true, data := true }
    | 2 => { subop := true, layer := true, data := true }
    | _ => { subop := true }
  | _ => { pos := true, pageAligned := true, count := 4096 }

/-- The offset of the first descriptor field that breaks Table 11.4: a reserved or unused field that is not zero, or a value beyond the
table's own limits. -/
def kvDescFault (op : Nat) (l : List Byte) : Option Nat :=
  let d := kvDescOf l
  let u := kvUse op d
  let unused := fun (used : Bool) (n : Nat) => used || n == 0
  let offset := fun (used : Bool) (n : Nat) => if used then n % 64 == 0 && decide (n < 2 ^ 22) else n == 0
  let checks : List (Nat × Bool) :=
    [(0x00, decide (d.arena < 4096)), (0x02, unused u.layer d.layer), (0x03, decide (d.flags.toNat &&& (255 - u.flags) = 0)),
     (0x04, unused u.slot d.slot), (0x06, unused u.nsq d.nsqm1),
     (0x08, if u.pos then !u.pageAligned || d.pos % 256 == 0 else d.pos == 0),
     (0x0C, if u.count = 0 then d.count == 0
            else decide (1 ≤ d.count ∧ d.count ≤ u.count) && (op != 0x36 || d.count == d.pos / 256 + 1)),
     (0x10, offset u.data d.data), (0x14, offset u.aux d.aux), (0x18, decide (d.mask.toNat < 2 ^ u.mask)),
     (0x20, unused u.heads (d.h0 + d.nhm1)), (0x22, if u.heads then decide (d.mkind ≤ 3) else d.mkind == 0),
     (0x23, if u.subop then decide (d.subop ≤ 3) else d.subop == 0),
     (0x24, if u.win then decide (1 ≤ d.win ∧ d.win ≤ 2 ^ 20) else d.win == 0),
     (0x28, if u.nq then decide (1 ≤ d.nq ∧ d.nq ≤ 4096) else d.nq == 0), (0x2A, unused u.ltop d.ltop), (0x2B, fieldLe l 0x2B 21 == 0)]
  (checks.find? fun c => !c.2).map (·.1)

/-- Step 4: the offset of the first field that lies outside the arena's limits. -/
def kvGeomFault (op : Nat) (d : KvDesc) (x : Arena) : Option Nat :=
  let u := kvUse op d
  let run := match op with | 0x31 => d.count | 0x36 => 256 | 0x37 => d.count | 0x38 => 256 * d.count | _ => 0
  let checks : List (Nat × Bool) :=
    [(0x02, !u.layer || decide (d.layer < x.nl)), (0x04, !u.slot || decide (d.slot < x.nslot)),
     (0x06, !(u.nsq && u.slot) || decide (d.slot + d.nsqm1 < x.nslot)), (0x08, !u.pos || decide (d.pos < x.maxpos)),
     (0x0C, (!u.pos || decide (d.pos + run ≤ x.maxpos)) && (op != 0x35 || decide (256 * d.count ≤ x.maxpos))),
     (0x20, !u.heads || decide (d.h0 + d.nhm1 + 1 ≤ x.hk * x.qg)), (0x2A, !u.ltop || decide (d.ltop < x.nl))]
  (checks.find? fun c => !c.2).map (·.1)

/-- A KV fault. -/
def kvFault (reason opnd c0 : Nat) : FaultInfo := { code := 0x0B, reason := reason, opnd := opnd, c0 := c0, space := spK }

/-! The list of sequences (R282) -/

/-- Step 5 on the entries of a CLT from entry i on: slot, rows and document start of each, or the fault. -/
def cltEntries (l : List Byte) (nslot : Nat) : Nat → Nat → Nat → Except FaultInfo (List (Nat × Nat × Nat))
  | 0, _, _ => .ok []
  | n + 1, i, prev =>
    let e := sliceBytes l (16 * i) 16
    let cq := fieldLe e 0 4
    if cq < prev then .error (kvFault 1 3 (16 * i))
    else if fieldLe e 6 2 ≠ 0 then .error (kvFault 1 3 (16 * i + 6))
    else if fieldLe e 12 4 ≠ 0 then .error (kvFault 1 3 (16 * i + 12))
    else if nslot ≤ fieldLe e 4 2 then .error (kvFault 3 3 (16 * i + 4))
    else match cltEntries l nslot n (i + 1) cq with
      | .error f => .error f
      | .ok r => .ok (if cq = prev then r else (fieldLe e 4 2, cq - prev, fieldLe e 8 4) :: r)

/-- The sequences of a query. -/
def State.kvSeqs (s : State) (op : Nat) (d : KvDesc) (x : Arena) : Except FaultInfo (List (Nat × Nat × Nat)) :=
  if op ≠ 0x30 ∨ d.flags.getLsbD 4 then .ok []
  else if d.flags.getLsbD 7 then
    let n := d.nsqm1 + 1
    match s.me.windowFail d.aux (16 * n) with
    | some w => .error { code := 1, opnd := 3, c0 := w - d.aux, space := spSP, addr := w }
    | none =>
      match s.spBadIn s.here.core s.here.slot d.aux (16 * n) with
      | some b => .error { code := 6, opnd := 3, c1 := max d.aux b - d.aux, space := spSP, addr := max d.aux b, baddr := some b }
      | none => cltEntries (s.mySp d.aux (16 * n)) x.nslot n 0 0
  else .ok ((List.range (d.nsqm1 + 1)).map fun i => (d.slot + i, d.nq, 0))

/-- Step 6: scratchpad bytes of data the command will read. -/
def kvDataBytes (op : Nat) (d : KvDesc) (x : Arena) (seqs : List (Nat × Nat × Nat)) : Nat :=
  match op with
  | 0x30 => 2 * x.hd * (seqs.map fun e => e.2.1).sum * (d.nhm1 + 1)
  | 0x31 => d.count * x.layerBytes
  | 0x35 => 1024 * d.count
  | 0x36 => 1024 * d.count
  | _ => 0

/-! The image of a splice (R293, R294) -/

/-- The offset of the first field of an image header that is reserved and not zero, or of NT out of range. -/
def imageHeaderFault (l : List Byte) : Option Nat :=
  if fieldLe l 0x14 4 = 0 ∨ 65536 < fieldLe l 0x14 4 then some 0x14
  else if fieldLe l 0x19 39 ≠ 0 then some 0x19
  else none

/-- The stale-block reason of an image for an arena. -/
def staleReason (l : List Byte) (x : Arena) : Option Nat :=
  let f := fieldLe l
  if !(x.docs.contains (BitVec.ofNat 64 (f 0 8))) then some 1
  else if f 8 4 ≠ x.model.toNat ∨ f 0xC 2 ≠ x.mver.toNat then some 2
  else if f 0xE 1 ≠ 0 ∨ f 0xF 1 ≠ x.nl - 1 then some 3
  else if f 0x18 1 ≠ x.kc.toNat then some 4
  else none

/-- What a splice takes from its image at issue. -/
structure Splice where
  img : Nat
  nt : Nat
  pbase : Nat
  doch : Word
  pages : List TlbEntry

/-- The checks of an image at address `va`. -/
def State.checkImage (s : State) (va : Nat) (d : KvDesc) (x : Arena) : Except FaultInfo Splice :=
  if va % 64 ≠ 0 then .error { code := 2, opnd := 0, space := spG, addr := va }
  else if (spAlias va).isSome then .error ((xlNonCanon 1 4).info 0 0 0 spG va)
  else
    match s.access (some s.here.core) s.myMx va .read false with
    | .error e => .error (e.info 0 0 0 (s.spaceOf va) va)
    | .ok p =>
      if s.badBlk (p.pa / 64) then .error (xlUncorr.info 0 0 0 spG va)
      else
        let l := s.readPa p.enc p.pa 64
        let nt := fieldLe l 0x14 4
        match imageHeaderFault l with
        | some o => .error { kvFault 1 0 o with space := spG, addr := va }
        | none =>
          if x.maxpos < d.pos + nt then .error (kvFault 3 2 8)
          else match staleReason l x with
            | some r => .error { code := 7, reason := r, space := spG, addr := va, aux := fieldLe l 0 8 }
            | none =>
              match s.translateSpan (some s.here.core) s.myMx .read 0 0 (nt * x.recBytes / 4096 + 2) (va + 64) 0 (nt * x.recBytes) [p.page] with
              | .error f => .error f
              | .ok ps => .ok { img := va, nt := nt, pbase := fieldLe l 0x10 4, doch := BitVec.ofNat 64 (fieldLe l 0 8), pages := ps }

/-! Issue (R274, R275) -/

/-- Step 1: the descriptor's 64 bytes. -/
def State.kvDescriptor (s : State) (ad : BitVec 4) : Except FaultInfo (List Byte) :=
  let o := (s.a ad).toNat % spMod
  if o % 64 ≠ 0 then .error { code := 2, opnd := 2, space := spSP, addr := o }
  else match s.me.windowFail o 64 with
    | some w => .error { code := 1, opnd := 2, c0 := w - o, space := spSP, addr := w }
    | none =>
      match s.spBadIn s.here.core s.here.slot o 64 with
      | some b => .error { code := 6, opnd := 2, space := spSP, addr := b, baddr := some b }
      | none => .ok (s.mySp o 64)

/-- The arena a command names, when it is the issuer's. The micro-contexts of a tenant are all of one partition (R329), which is the
arena's. -/
def State.myArena (s : State) (n : Nat) : Option Arena :=
  match s.arenas.find n with
  | some x => if x.tenant = (s.mx s.myMx).tenant then some x else none
  | none => none

/-- The checks of R274 in their order: the command as it goes to the chiplet. -/
def State.kvPlan (s : State) (op : Nat) (w : FormK) (ag : Option (BitVec 4)) : Except FaultInfo KvCmd :=
  match s.kvDescriptor w.ad with
  | .error f => .error f
  | .ok l =>
    let d := kvDescOf l
    match kvDescFault op l with
    | some o => .error (kvFault 1 2 o)
    | none =>
      match s.myArena d.arena with
      | none => .error (kvFault 2 2 0)
      | some x =>
        match kvGeomFault op d x with
        | some o => .error (kvFault 3 2 o)
        | none =>
          match s.kvSeqs op d x with
          | .error f => .error f
          | .ok seqs =>
            let n := kvDataBytes op d x seqs
            match (if n = 0 then none else s.me.windowFail d.data n) with
            | some f => .error { code := 1, opnd := 1, c0 := f - d.data, space := spSP, addr := f }
            | none =>
              let k : KvCmd :=
                { id := s.nextId, ref := s.myRef, op := op, d := d, tag := w.tag.toNat, rq := w.rq.toNat, ns := w.ns, cls := w.cs.cls,
                  scope := w.cs.scope, seqs := seqs, img := 0, nt := 0, pbase := 0, doch := 0, pages := [], thr := s.me.rpth,
                  gens := s.me.banks, query := none, resume := none, waiting := [], started := false, record := 0,
                  mgen := (s.mx s.myMx).gen.toNat }
              match ag with
              | none => .ok k
              | some r =>
                match s.checkImage (s.a r).toNat d x with
                | .error f => .error f
                | .ok i => .ok { k with img := i.img, nt := i.nt, pbase := i.pbase, doch := i.doch, pages := i.pages }

/-- A command sent: its tag is issued, its result entry POSTED, and the micro-context counts as a user of the arena (R263). -/
def State.kvSend (s : State) (k : KvCmd) (y : Sync) : State :=
  let s1 := { s with kvs := s.kvs ++ [k], nextId := s.nextId + 1 }
  let x := s1.me.tagIssue k.tag
  let s2 := s1.setMe (if k.ns then x else { x with res := x.res.put k.rq .posted })
  let s3 := match s2.arenas.find k.d.arena with
    | some a => if a.users.contains s.myMx then s2 else s2.setArena k.d.arena { a with users := s.myMx :: a.users }
    | none => s2
  -- a splice has read its image's header (R318)
  let s4 := if k.op = 0x32 then s3.touchMine k.img 64 else s3
  (s4.withdraw s.here.core s.here.slot).doneY y

/-- A KV word. -/
def State.kvWord (s : State) (op : Nat) (w : FormK) (ag : Option (BitVec 4)) : Out :=
  match s.kvPlan op w ag with
  | .error f => .next (s.raise f)
  | .ok k => .next (s.kvSend k w.y)

def execKvQry (w : FormK) (s : State) : Out := s.kvWord 0x30 w none
def execKvQryResume (w : FormK) (s : State) : Out := s.kvWord 0x30 w none
def execKvAppend (w : FormK) (s : State) : Out := s.kvWord 0x31 w none
def execKvSplice (w : FormK) (ag : BitVec 4) (s : State) : Out := s.kvWord 0x32 w (some ag)
def execKvDrop (w : FormK) (s : State) : Out := s.kvWord 0x33 w none
def execKvDropAll (w : FormK) (s : State) : Out := s.kvWord 0x33 w none
def execKvCommit (w : FormK) (s : State) : Out := s.kvWord 0x34 w none
def execKvIxlook (w : FormK) (s : State) : Out := s.kvWord 0x35 w none
def execKvIxins (w : FormK) (s : State) : Out := s.kvWord 0x36 w none
def execKvRepairOpen (w : FormK) (s : State) : Out := s.kvWord 0x37 w none
def execKvRepairCmp (w : FormK) (s : State) : Out := s.kvWord 0x37 w none
def execKvRepairApply (w : FormK) (s : State) : Out := s.kvWord 0x37 w none
def execKvRepairAbort (w : FormK) (s : State) : Out := s.kvWord 0x37 w none
def execKvPagein (w : FormK) (s : State) : Out := s.kvWord 0x38 w none

/-! KV.RES (R277) -/

/-- A KV.RES of a DONE record as a copy. -/
def State.resPlan (s : State) (w : FormK) (bar : Option (BitVec 2)) (r : List Byte) : Except FaultInfo Copy :=
  let o := (s.a w.ad).toNat % spMod
  if o % 64 ≠ 0 then .error { code := 2, opnd := 1, space := spSP, addr := o }
  else match s.me.windowFail o r.length with
    | some f => .error { code := 1, opnd := 1, c0 := f - o, space := spSP, addr := f }
    | none =>
      match s.barCheckOpt bar with
      | .error f => .error f
      | .ok b =>
        .ok { s.copyOf .kvRes w.cs w.tag.toNat with
          rowb := r.length, spitch := r.length, sbase := o, units := r.length / 64, bytes := r.length, data := r, bar := b.1, barPage := b.2,
          sflg := BitVec.ofNat 7 (fieldLe r 2 2 / 4) }

/-- KV.RES: an entry that is POSTED waits (the issue rule's wait), one that is FREE faults, one that is DONE is taken. -/
def execKvRes (w : FormK) (bar : Option (BitVec 2)) (s : State) : Out :=
  match AMap.get ResEntry.free s.me.res w.rq.toNat with
  | .free => .next (s.raise (kvFault 5 0 0))
  | .posted => .next s
  | .done r =>
    match s.resPlan w bar r with
    | .error f => .next (s.raise f)
    | .ok c => .next ((s.setMe { s.me with res := s.me.res.put w.rq.toNat .free }).startCopy c true w.y)

end Sys2Proof.Machine
end

