-- ==== Sys2Proof/Machine/Bt.lean ====
section
/-! DEFINITION. The IO apertures (R173): the pages of the block-transfer channels with the doorbell, its copies and their records
(R256 to R262), the system control aperture (R371), the health page (R421), the certificate page (R425) and the record store
(R383). -/

namespace Sys2Proof.Machine

/-! Places in the IO region -/

/-- A place in the IO region: a channel register of a micro-context, or an offset in a page of the system. -/
inductive IoPlace where
  | chan (m ch off : Nat)
  | aperture (off : Nat)
  | health (off : Nat)
  | cert (off : Nat)
  | record (off : Nat)
  | nothing
  deriving DecidableEq, Repr

def ioPlace (pa : Nat) : IoPlace :=
  if ioBase ≤ pa ∧ pa < btEnd then .chan ((pa - ioBase) / 0x40000) ((pa - ioBase) % 0x40000 / 0x1000) (pa % 0x1000)
  else if apertureBase ≤ pa ∧ pa < apertureBase + 0x1000 then .aperture (pa % 0x1000)
  else if healthBase ≤ pa ∧ pa < healthBase + 0x1000 then .health (pa % 0x1000)
  else if certBase ≤ pa ∧ pa < certBase + 0x1000 then .cert (pa % 0x1000)
  else if recordBase ≤ pa ∧ pa < recordBase + 0x10000 then .record (pa - recordBase)
  else .nothing

/-! Channels -/

def Mx.chan (x : Mx) (ch : Nat) : Chan := AMap.get Chan.reset x.chans ch
def State.setChan (s : State) (m ch : Nat) (c : Chan) : State :=
  s.setMx m { s.mx m with chans := (s.mx m).chans.put ch c }

/-- Records the ring holds; LOGN above 8 acts as 8. -/
def Chan.ringLen (c : Chan) : Nat := 16 * 2 ^ min c.logn 8

/-- A channel register as an access reads it (Table 10.6). -/
def Chan.readReg (c : Chan) (off : Nat) : Nat :=
  match off with
  | 0x08 => c.ttbl.toNat
  | 0x10 => c.rbase.toNat
  | 0x18 => c.wake.toNat * 256 + c.logn
  | 0x20 => c.rhead.toNat
  | 0x28 => c.rtail.toNat
  | 0x30 => c.wbar.toNat
  | 0x38 => c.ovf.toNat * 65536 + c.inflt % 65536
  | _ => 0

/-- A channel register other than DOORBELL and RCFG written. -/
def Chan.writeReg (c : Chan) (off : Nat) (d : Word) : Chan :=
  let page := BitVec.ofNat 64 (bits d.toNat 56 12 * 4096)
  match off with
  | 0x08 => if c.inflt = 0 then { c with ttbl := page } else c
  | 0x10 => if c.inflt = 0 then { c with rbase := page } else c
  | 0x28 => { c with rtail := d.setWidth 32 }
  | 0x30 => if c.inflt = 0 then { c with wbar := BitVec.ofNat 64 (bits d.toNat 56 4 * 16) } else c
  | 0x38 => { c with ovf := BitVec.ofNat 16 (bits d.toNat 31 16) }
  | _ => c

/-- RCFG written. -/
def Chan.config (c : Chan) (d : Word) : Chan :=
  if c.inflt = 0 then { c with wake := bit d.toNat 8, logn := d.toNat % 16, rhead := 0, rtail := 0 } else c

/-- Offsets of registers whose write has a row of its own. -/
def chanWritable (off : Nat) : Bool := off ∈ [0x00, 0x08, 0x10, 0x18, 0x28, 0x30, 0x38]

/-- The channel register a request names, when the request is of the micro-context the page belongs to (R256). -/
def ownChan (r : Req) : Option (Nat × Nat) :=
  match ioPlace r.pa with
  | .chan m ch off => if r.ref.isSome ∧ r.mx = m then some (ch, off) else none
  | _ => none

/-- The due request `id`, when it stores to a listed register of its own channel page: the request, channel, offset and data. -/
def State.dueChanStore (s : State) (id : Nat) : Option (Req × Nat × Nat × Word) :=
  match s.req id with
  | none => none
  | some r =>
    if !s.due r || !r.io then none
    else
      match r.op, ownChan r with
      | .store _ d, some (ch, off) => if chanWritable off then some (r, ch, off, d) else none
      | _, _ => none

/-! The health page (Table 22.5) -/

/-- Enabled columns of a stack. -/
def State.enabledCols (s : State) (stack : Nat) : Nat := ((List.range 64).filter fun c => !s.lostCols.contains (64 * stack + c)).length

/-- The word whose bit n is set when unit `f n` is ready, for n below `n`. -/
def State.readyBits (s : State) (n : Nat) (f : Nat → UnitId) : Nat :=
  ((List.range n).map fun i => if s.ready.contains (f i) then 2 ^ i else 0).sum

/-- DEVUSE (R407). -/
def State.devUse (s : State) : Nat := 65536 * s.devw / 12000000000000000

/-- Bytes of the flash region that installed segments populate. -/
def State.flashPop (s : State) : Nat := (s.wsegs.map fun e => 65536 * e.2.lenu).sum

/-- A 64-bit word of the health page. -/
def State.healthWord (s : State) (off : Nat) : Nat :=
  if off = 0x000 then s.readyBits 64 (.column 0)
  else if off = 0x008 then s.readyBits 64 (.column 1)
  else if off = 0x010 then
    s.readyBits 10 .hbm + s.readyBits 6 .attnHbm * 2 ^ 10 + s.readyBits 4 .flash * 2 ^ 16 + s.readyBits 4 .cxlPort * 2 ^ 20
      + (s.ready.contains .chiplet).toNat * 2 ^ 24
  else if off = 0x018 then s.readyBits 18 .ualink + s.readyBits 4 .ether * 2 ^ 18 + (s.ready.contains .hostLink).toNat * 2 ^ 22
  else if off = 0x020 then s.enabledCols 0 + s.enabledCols 1 * 256
  else if off = 0x028 then s.mcsum.toNat
  else if 0x040 ≤ off ∧ off < 0x080 then AMap.get 0 s.mccnt ((off - 0x040) / 8 + 1)
  else if off = 0x080 then hbmEnd
  else if off = 0x088 then s.flashPop
  else if off = 0x090 then s.cxlPop
  else if 0x100 ≤ off ∧ off < 0x180 then
    let k := fun (o : Nat) => AMap.get 0 s.drops (8 * ((o - 0x100) / 32) + (o - 0x100) % 32 / 4) % 2 ^ 32
    k off + k (off + 4) * 2 ^ 32
  else if off = 0x180 then s.devw
  else if off = 0x188 then s.devUse
  else if 0x200 ≤ off ∧ off < 0x400 then ((s.links.find ((off - 0x200) / 8)).getD (Config.linkWord ((off - 0x200) / 8))).toNat
  else 0

/-- Reading MCSUM clears COUNT. -/
def State.clearMcsum (s : State) : State :=
  { s with mcsum := BitVec.ofNat 64 (bits s.mcsum.toNat 63 32 * 2 ^ 32 + s.mcsum.toNat % 65536), mccnt := s.mccnt.filter fun e => e.1 < 16 }

/-! The system control aperture (R371) -/

def Aperture.readWord (a : Aperture) (off : Nat) : Nat :=
  if off < 0x40 then (AMap.get 0 a.cmd (off / 8)).toNat
  else if off = 0x48 then a.busy.toNat * 2 ^ 63 + a.result % 2 ^ 24 * 2 ^ 24 + a.status % 2 ^ 24
  else 0

/-- CMD words as they are stored: bits 63:8 of the first are reserved and stay zero (R6). -/
def cmdWord (k : Nat) (d : Word) : Word := if k = 0 then d &&& 0xFF else d

/-- CMD words are written; GO starts the command they hold, unless one is running. -/
def Aperture.writeWord (a : Aperture) (off : Nat) (d : Word) : Aperture :=
  if off < 0x40 then { a with cmd := a.cmd.put (off / 8) (cmdWord (off / 8) d) }
  else if off = 0x40 ∧ a.busy = false then { a with words := a.cmd, busy := true, ran := false }
  else a

/-! Accesses (R173) -/

/-- What an IO read gives. -/
def State.ioRead (s : State) (r : Req) : Nat :=
  match ioPlace r.pa with
  | .chan m ch off => if (ownChan r).isSome then ((s.mx m).chan ch).readReg off else 0
  | .aperture off => if r.ref.isNone then s.aperture.readWord off else 0
  | .health off => s.healthWord off
  | .cert off => leNat ((List.range 8).map fun i => Config.certByte (off + i))
  | .record off => if r.ref.isNone then leNat (s.records.readN off 8) else 0
  | .nothing => 0

/-- An access to a channel page by another agent than its micro-context is counted (R256). -/
def State.countForeign (s : State) (r : Req) : State :=
  match ioPlace r.pa with
  | .chan _ _ _ => if (ownChan r).isSome then s else { s with foreign := s.foreign + 1 }
  | _ => s

/-- IO_ACCESS: an IO load or store is performed at its aperture; the system control aperture takes commands of the housekeeping processor
alone (R371). Loads of MCSUM, and stores to listed channel registers, have rows of
their own. -/
def execIoAccess (id : Nat) (s : State) : Out :=
  match s.req id with
  | none => .next s
  | some r =>
    if !s.due r || !r.io || (s.dueChanStore id).isSome then .next s
    else
      match r.op with
      | .load _ => if ioPlace r.pa = .health 0x28 then .next s else .next ((s.countForeign r).perform r (s.ioRead r))
      | .store _ d =>
        match ioPlace r.pa with
        | .aperture off => .next ((if r.ref.isNone then { s with aperture := s.aperture.writeWord off d } else s).perform r 0)
        | _ => .next ((s.countForeign r).perform r 0)
      | _ => .next s

/-- MCSUM_READ: the due load of the summary word is performed, and COUNT is cleared. -/
def execMcsumRead (s : State) : Out :=
  match s.reqs.find? fun r => r.io && s.due r && ioPlace r.pa == .health 0x28 && (match r.op with | .load _ => true | _ => false) with
  | none => .next s
  | some r => .next ((s.perform r s.mcsum.toNat).clearMcsum)

/-- REGISTER_WRITE: TTBL, RBASE, RTAIL, WBAR or CSTAT. -/
def execRegisterWrite (id : Nat) (s : State) : Out :=
  match s.dueChanStore id with
  | none => .next s
  | some (r, ch, off, d) =>
    if off = 0 ∨ off = 0x18 then .next s else .next ((s.setChan r.mx ch (((s.mx r.mx).chan ch).writeReg off d)).perform r 0)

/-- RCFG_WRITE. -/
def execRcfgWrite (id : Nat) (s : State) : Out :=
  match s.dueChanStore id with
  | none => .next s
  | some (r, ch, off, d) =>
    if off ≠ 0x18 then .next s else .next ((s.setChan r.mx ch (((s.mx r.mx).chan ch).config d)).perform r 0)

/-! The doorbell (R257 to R259) -/

/-- A block-transfer copy that ends before it moves anything. -/
def Copy.btEnd (c : Copy) (status fcode fva : Nat) : Copy :=
  { c with status := status, fcode := fcode, fva := fva, units := 0, granted := true }

/-- The status and FCODE of a failed translation. -/
def Copy.btFault (c : Copy) (code reason stglv fva : Nat) : Copy :=
  c.btEnd (if code = 4 then 3 else if code = 6 then 6 else 2) (if code = 6 then 0 else stglv * 256 + reason) fva

/-- A template breaks a limit of Table 10.7, or the addresses it gives are not aligned. -/
def templateBad (l : List Byte) (src dst : Nat) : Bool :=
  let len := fieldLe l 0x10 4
  decide (fieldLe l 0 8 % 64 ≠ 0) || decide (fieldLe l 8 8 % 64 ≠ 0) || decide (src % 64 ≠ 0) || decide (dst % 64 ≠ 0)
    || decide (len % 64 ≠ 0 ∨ len < 64 ∨ 2 ^ 30 < len) || ((spAlias dst).isSome && decide (258048 < len))
    || decide (2 ^ 7 ≤ fieldLe l 0x14 4) || decide (fieldLe l 0x28 24 ≠ 0)

/-- The first byte of a scratchpad side that lies outside a window of the banks `win`. -/
def btWindow (win : List BankUse) (va n : Nat) : Option Nat :=
  match spAlias va with
  | some o => if o + n ≤ 65536 * win.length then none else some (spAliasBase + max o (65536 * win.length))
  | none => none

/-- The pages of a G side; a scratchpad side has none. -/
def State.btPages (s : State) (m va n : Nat) (need : Need) : Except FaultInfo (List TlbEntry) :=
  if (spAlias va).isSome then .ok [] else s.translateSpan none m need 0 0 (n / 4096 + 2) va 0 n []

/-- The source and destination of a template, each with its length; none for one that breaks a limit. -/
def btSides (l : List Byte) (d : Word) : List (Nat × Nat) :=
  let i := sx 32 (bits d.toNat 63 32)
  let src := (wordOfInt ((fieldLe l 0 8 : Int) + i * sx 64 (fieldLe l 0x18 8))).toNat
  let dst := (wordOfInt ((fieldLe l 8 8 : Int) + i * sx 64 (fieldLe l 0x20 8))).toNat
  if templateBad l src dst then [] else [(src, fieldLe l 0x10 4), (dst, fieldLe l 0x10 4)]

/-- The copy of an accepted doorbell: its template read and checked, its window and pages checked (R259). `win` is the issuer's window with
its owner tags at the store's issue. -/
def State.btPlan (s : State) (m ch : Nat) (d : Word) (ref : StreamRef) (win : List BankUse) (before : Nat) : Copy :=
  let tidx := d.toNat % 256
  let c0 : Copy :=
    { id := s.nextId, kind := .bt, ref := ref, sec := .sc, cls := 0, scope := 5, tag := 0, bar := none, barPage := none, wordPc := 0, rows := 1, rowb := 64,
      gpitch := 0, spitch := 64, gbase := 0, sbase := 0, idx := [], fmt := 0, vcols := 0, vrows := 0, bytes := 0, data := [], pages := [],
      dpages := [], gens := win, pane := false, swings := 0, peer := 0, kslot := (s.mx m).kslot, units := 0, done := [], sent := [], stale := [],
      frozen := false, err := none, chan := ch, tidx := tidx, mult := bits d.toNat 63 32, before := before, spSrc := false,
      spDst := false, status := 0, fcode := 0, fva := 0, granted := false, sflg := 0, res := 0 }
  let ta := ((s.mx m).chan ch).ttbl.toNat + 64 * tidx
  match s.readVa none m ta 64 with
  | .error e => c0.btFault e.code e.reason (e.stage * 16 + e.level) ta
  | .ok l =>
    let i := sx 32 (bits d.toNat 63 32)
    let src := (wordOfInt ((fieldLe l 0 8 : Int) + i * sx 64 (fieldLe l 0x18 8))).toNat
    let dst := (wordOfInt ((fieldLe l 8 8 : Int) + i * sx 64 (fieldLe l 0x20 8))).toNat
    let len := fieldLe l 0x10 4
    let c1 := { c0 with
      cls := BitVec.ofNat 4 (fieldLe l 0x14 1), scope := BitVec.ofNat 3 (fieldLe l 0x14 1 / 16), bytes := len, units := len / 64
      spSrc := (spAlias src).isSome, spDst := (spAlias dst).isSome, gbase := (spAlias src).getD src, sbase := (spAlias dst).getD dst }
    if templateBad l src dst then c1.btEnd 5 0 ta
    else
      match (btWindow win src len).orElse fun _ => btWindow win dst len with
      | some w => c1.btEnd 4 0 w
      | none =>
        match s.btPages m src len .read with
        | .error f => c1.btFault f.code f.reason f.stglv f.addr
        | .ok ps =>
          match s.btPages m dst len .write with
          | .error f => c1.btFault f.code f.reason f.stglv f.addr
          | .ok pd => { c1 with pages := ps, dpages := pd }

/-- A doorbell that is discarded: its channel's ring has no place, or a reserved bit is set. -/
def Chan.refuses (c : Chan) (d : Word) : Bool :=
  decide ((c.ringLen : Int) ≤ c.inflt + (c.rhead.toNat - c.rtail.toNat : Int)) || bits d.toNat 31 8 != 0

/-- A doorbell write: discarded, or a copy accepted. The difference of the pointers is that of two unbounded integers (R8). -/
def State.ringDoorbell (s : State) (m ch : Nat) (d : Word) (ref : StreamRef) (win : List BankUse) (before : Nat) : State :=
  let c := (s.mx m).chan ch
  if c.refuses d then s.setChan m ch { c with ovf := c.ovf + 1 }
  else
    let s1 := (s.setChan m ch { c with inflt := c.inflt + 1 }).devServed m (c.ttbl.toNat + 64 * (d.toNat % 256)) 64
    { s1 with copies := s1.copies ++ [s1.btPlan m ch d ref win before], nextId := s1.nextId + 1 }

/-- The engine can take the doorbell now: its template can be read, in a slot of its partition and in the turns, and the walks of the copy's sides go
on (R328, R346, R348, R392, R418). -/
def State.bellOpen (s : State) (m ch : Nat) (d : Word) : Bool :=
  let ta := ((s.mx m).chan ch).ttbl.toNat + 64 * (d.toNat % 256)
  ((s.mx m).chan ch).refuses d
    || (s.devOpen m ta 64 && (match s.readVa none m ta 64 with
      | .error _ => true
      | .ok l => (btSides l d).all fun e => (spAlias e.1).isSome || s.walksUp m e.1 e.2))

/-- DOORBELL: the IO write is performed, and the engine acts on it. -/
def execDoorbell (id : Nat) (s : State) : Out :=
  match s.dueChanStore id with
  | none => .next s
  | some (r, ch, off, d) =>
    match r.ref with
    | some ref =>
      if off ≠ 0 ∨ s.bellOpen r.mx ch d = false then .next s
      else .next ((s.perform r 0).ringDoorbell r.mx ch d ref r.win r.id)
    | none => .next s

/-! Completion (R260, R261) -/

/-- The copy has reached its end: every unit performed, or an outcome of its own. -/
def Copy.btOver (c : Copy) : Bool := c.allDone || c.status == 7

/-- The 32 bytes of a record (Table 10.8). -/
def Copy.btRecord (c : Copy) (x : Chan) : List Byte :=
  let n := x.rhead.toNat
  let lap := (n / x.ringLen + 1) % 2
  leBytes 1 c.status ++ leBytes 1 (lap * 128) ++ leBytes 2 c.fcode ++ leBytes 4 c.res ++ leBytes 8 c.fva ++ leBytes 4 n ++ leBytes 1 c.tidx
    ++ leBytes 1 c.chan ++ leBytes 2 0 ++ leBytes 4 c.mult ++ leBytes 4 0

/-- An arrival of 1 at a barrier of a micro-context, made by a unit of the device for a finished operation of a stream, with `st` one of ST, as a
release at `.d` (R200); it joins the barrier's combined updates (R198). A place that cannot be written gets none. -/
def State.arriveAt (s : State) (st : Bool) (ref : StreamRef) (m va : Nat) : State :=
  match spAlias va with
  | some o =>
    match s.refStream ref with
    | some x => if (x.windowFail o 16).isNone then s.sendBarrier ref (.pbWake 1 st) va none 0 5 else s
    | none => s
  | none =>
    match s.access none m va .write false with
    | .ok e => s.sendBarrier ref (.pbWake 1 st) va (some e.page) 0 5
    | .error _ => s

/-- The record of a block transfer waits for an exchange of its frames, or for the dirty bitmap (R352, R392, R418). -/
def State.recordWaits (s : State) (m va : Nat) (l : List (Nat × Nat)) : Bool := (l.any fun e => s.exchanging e.1 e.2) || !s.vaDirtyUp m va 32

/-- BT_COPY_COMPLETION, when the homes serve the record's write: the record, RHEAD and INFLT, and with WAKE the arrival. -/
def execBtCopyCompletion (id : Nat) (s : State) : Out :=
  match s.copy id with
  | none => .next s
  | some c =>
    let m := c.ref.mx
    let x := (s.mx m).chan c.chan
    let at' := s.vaSpans none m (x.rbase.toNat + 32 * (x.rhead.toNat % x.ringLen)) 32
    if c.kind ≠ .bt ∨ c.frozen ∨ c.btOver = false ∨ s.spansOpen (some c.ref) at' = false ∨ s.recordWaits m (x.rbase.toNat + 32 * (x.rhead.toNat % x.ringLen)) at' = true then .next s
    else
      let s1 := ((s.ungrant c).dropCopy id).spansServed (some c.ref) at'
      let (s2, lost) := match s1.writeVa none m (x.rbase.toNat + 32 * (x.rhead.toNat % x.ringLen)) (c.btRecord x) with
        | .ok t => (t, false)
        | .error _ => (s1, true)
      let x' := { x with rhead := x.rhead + 1, inflt := x.inflt - 1, ovf := if lost then x.ovf + 1 else x.ovf }
      let s3 := (s2.setChan m c.chan x').count m 6 1
      .next (if x.wake then s3.arriveAt false c.ref m x.wbar.toNat else s3)

end Sys2Proof.Machine
end

