-- ==== Sys2Proof/Machine/Flash.lean ====
section
/-! DEFINITION. Flash stacks (R395 to R397), the staging cache (R398), weight segments and INSTALL (R399 to R407), and what becomes of an
uncorrectable flash read (R408 to R410). -/

namespace Sys2Proof.Machine

/-! Erase blocks and program pages (R395, R396) -/

/-- Erase blocks of a stack: 1 TB raw of 16 MiB blocks; pages of 16 KiB in each. -/
def flashBlocks : Nat := 59604

/-- The erase blocks of a stack that have been used, with their numbers. -/
def State.usedBlks (s : State) (stack : Nat) : List (Nat × EraseBlk) :=
  (s.erase.filter fun e => e.1 / 65536 == stack).map fun e => (e.1 % 65536, e.2)

/-- The least number not among the keys of a rising list, from `n` on. -/
def leastUnused (n : Nat) : List Nat → Nat
  | [] => n
  | k :: r => if k = n then leastUnused (n + 1) r else n

/-- Of two erase blocks the one that takes new pages first: the less erased, then the fuller (R396; log 59). -/
def fillsFirst (a b : Nat × EraseBlk) : Bool :=
  decide (a.2.erases < b.2.erases) || (a.2.erases == b.2.erases && decide (b.2.next < a.2.next))

/-- The block that takes the next program page: of those with free pages, one of lowest erase count. -/
def State.openErase (s : State) (stack : Nat) : Option Nat :=
  let l := s.usedBlks stack
  let u := leastUnused 0 (l.map (·.1))
  let all := (l.filter fun e => !e.2.bad && decide (e.2.next < pagesPerBlk)) ++ (if u < flashBlocks then [(u, EraseBlk.reset)] else [])
  (all.foldl (fun (b : Option (Nat × EraseBlk)) e => match b with | some y => if fillsFirst e y then some e else b | none => some e) none).map (·.1)

/-- Where the page of an extent in a stack lies, by the keys of the map: the map, with the pages of installs before their commit. -/
def State.placedPages (s : State) : List (Nat × Nat) := s.fmap ++ s.installs.flatMap fun i => i.placed

/-- Extents that have their page of a stack in a block. -/
def State.extentsIn (s : State) (stack b : Nat) : List Nat :=
  (s.placedPages.filter fun e => e.1 % 4 == stack && e.2 / pagesPerBlk == b).map fun e => e.1 / 4

/-- A block without valid pages is erased. -/
def State.eraseIfEmpty (s : State) (stack b : Nat) : State :=
  let x := s.eraseBlk stack b
  if s.extentsIn stack b = [] ∧ x.next ≠ 0 then s.setEraseBlk stack b { x with erases := x.erases + 1, reads := 0, next := 0 } else s

/-- The next page of a block programmed: its number in the stack (R395, R407). -/
def State.programIn (s : State) (stack b : Nat) : Nat × State :=
  let x := s.eraseBlk stack b
  let s1 := s.setEraseBlk stack b { x with next := x.next + 1, reads := if x.next = 0 then 0 else x.reads }
  (pagesPerBlk * b + x.next, { s1 with devw := s1.devw + pageBytes })

/-- The place of a page replaced in the map, or in the install that holds it before its commit. -/
def State.movePage (s : State) (key p : Nat) : State :=
  if (s.fmap.find key).isSome then { s with fmap := s.fmap.put key p }
  else { s with installs := s.installs.map fun i => if (i.placed.find key).isSome then { i with placed := i.placed.put key p } else i }

/-- Pages that hold nothing any more: their blocks are erased once empty. -/
def State.freePages (s : State) (l : List (Nat × Nat)) : State :=
  l.foldl (fun (t : State) e => t.eraseIfEmpty (e.1 % 4) (e.2 / pagesPerBlk)) s

/-- Pages just programmed are read back, which counts for their blocks (R397, R404). -/
def State.readBack (s : State) (l : List (Nat × Nat)) : State :=
  l.foldl (fun (t : State) e => t.countPageReads (e.1 / 4) (e.1 % 4) 4) s

/-- New places put into the map; the blocks of the old ones that hold no page any more are erased (R395). -/
def State.mapPages (s : State) (l : List (Nat × Nat)) : State :=
  let old := l.filterMap fun e => (s.fmap.find e.1).map fun p => (e.1, p)
  { s with fmap := l.foldl (fun (f : AMap Nat) (e : Nat × Nat) => f.put e.1 e.2) s.fmap }.freePages old

/-- What programming gives: done, with the pages written and the failures met, or no spare block for a failure. -/
inductive Programmed where
  | ok (s : State) (placed : List (Nat × Nat)) (failed : Bool)
  | noSpare (s : State) (placed : List (Nat × Nat))

/-- Spare erase blocks of a stack: 2 % of its blocks of 16 MiB in 1 TB (Table 22.1, R395; log 16), and their counter in `sparesUsed`. -/
def sparesPerStack : Nat := 10 ^ 12 / 2 ^ 24 * 2 / 100
def blkSpare (stack : Nat) : Nat := 4 * stack + 3

/-- One page in a stack, for a key of the map, after the pages `l`. A program failure takes the block out and a spare in (R403). -/
def State.programPage (s : State) (key : Nat) (l : List (Nat × Nat)) : Nat → Bool → Programmed
  | 0, _ => .noSpare s l
  | f + 1, failed =>
    match s.openErase (key % 4) with
    | none => .noSpare s l
    | some b =>
      if s.progFail = 0 then
        let (p, t) := s.programIn (key % 4) b
        .ok t (l ++ [(key, p)]) failed
      else
        let s1 := { s.setEraseBlk (key % 4) b { s.eraseBlk (key % 4) b with bad := true } with progFail := s.progFail - 1 }
        let used := AMap.get 0 s1.sparesUsed (blkSpare (key % 4))
        if sparesPerStack ≤ used then .noSpare s1 l
        else { s1 with flashSpare := s1.flashSpare - 1, sparesUsed := s1.sparesUsed.put (blkSpare (key % 4)) (used + 1) }.programPage key l f true

/-- Pages programmed in order, for keys of the map. -/
def State.programAll (s : State) (l : List (Nat × Nat)) (failed : Bool) : List Nat → Programmed
  | [] => .ok s l failed
  | key :: r =>
    match s.programPage key l (s.progFail + 1) failed with
    | .ok t l1 f => t.programAll l1 f r
    | .noSpare t l1 => .noSpare t l1

/-- The keys of the map of `n` extents from a flash-region address. -/
def extentKeys (fpa n : Nat) : List Nat :=
  (List.range n).flatMap fun i => (List.range 4).map fun k => 4 * (extOf fpa + i) + k

/-- The blocks of a range of extents freed (R406). -/
def State.freeExtents (s : State) (fpa n : Nat) : State :=
  (extentKeys fpa n).foldl
    (fun (t : State) k =>
      match t.fmap.find k with
      | some p => { t with fmap := t.fmap.erase k }.eraseIfEmpty (k % 4) (p / pagesPerBlk)
      | none => t) s

/-! Accounts (R407) -/

/-- DEVUSE once `n` more bytes have been written. -/
def State.devUseAfter (s : State) (n : Nat) : Nat := 65536 * (s.devw + n) / 12000000000000000

def State.setWseg (s : State) (n : Nat) (w : WSeg) : State := { s with wsegs := s.wsegs.put n w }

/-- Pages of a block rewritten by the layer count for their segments: SEGW by page, SEGRFR once for the block. -/
def State.countRewrite (s : State) (exts : List Nat) (refresh : Bool) : State :=
  { s with wsegs := s.wsegs.map fun e =>
      let n := (exts.filter fun x => decide (e.2.fpa ≤ flashBase + x * extBytes ∧ flashBase + x * extBytes < e.2.fpa + e.2.lenu * extBytes)).length
      if n = 0 then e else (e.1, { e.2 with segw := e.2.segw + n * pageBytes, segrfr := e.2.segrfr + refresh.toNat }) }

/-- The valid pages of a block move into a given block or into fresh ones; the old block is erased when the last has left. -/
def State.moveBlk (s : State) (stack b : Nat) (dst : Option Nat) : State :=
  let exts := s.extentsIn stack b
  -- the block being emptied takes no new page
  let s1 := s.setEraseBlk stack b { s.eraseBlk stack b with next := pagesPerBlk }
  let s2 := exts.foldl
    (fun (t : State) e =>
      match dst.orElse fun _ => t.openErase stack with
      | some d =>
        let (p, t1) := t.programIn stack d
        t1.movePage (4 * e + stack) p
      | none => t) s1
  s2.eraseIfEmpty stack b

/-- A block read 500,000 times since it was programmed, with valid pages (R397). -/
def State.refreshDue (s : State) (stack blk : Nat) : Bool := decide (500000 ≤ (s.eraseBlk stack blk).reads) && s.extentsIn stack blk != []

/-- A refresh goes ahead of the writes of an install on the same die: of those to any stack (R397). -/
def State.refreshFirst (s : State) : Bool := (List.range 4).any fun k => (s.usedBlks k).any fun e => s.refreshDue k e.1

/-- FLASH_REFRESH: a block read 500,000 times since it was programmed is refreshed (R397). -/
def execFlashRefresh (stack blk : Nat) (s : State) : Out :=
  if s.refreshDue stack blk then .next ((s.countRewrite (s.extentsIn stack blk) true).moveBlk stack blk none) else .next s

/-- The erase counts of a stack's blocks differ by more than 200 (R396). -/
def State.wornUnevenly (s : State) (stack : Nat) : Bool :=
  let l := (s.usedBlks stack).filter fun e => !e.2.bad
  let lo := if (s.usedBlks stack).length < flashBlocks then 0 else (l.map fun e => e.2.erases).foldl min (2 ^ 64)
  decide (lo + 200 < (l.map fun e => e.2.erases).foldl max 0)

/-- WEAR_LEVEL_MOVE: with erase counts more than 200 apart, the least-erased block that holds data moves into the most-erased free one
(R396). -/
def execWearLevelMove (stack : Nat) (s : State) : Out :=
  let l := s.usedBlks stack
  let full := l.filter fun e => s.extentsIn stack e.1 != []
  let free := l.filter fun e => !e.2.bad && e.2.next == 0
  let least := full.foldl (fun (b : Option (Nat × EraseBlk)) e => match b with | some y => if e.2.erases < y.2.erases then some e else b | none => some e) none
  let most := free.foldl (fun (b : Option (Nat × EraseBlk)) e => match b with | some y => if y.2.erases < e.2.erases then some e else b | none => some e) none
  match least, most with
  | some x, some y =>
    if s.wornUnevenly stack then .next ((s.countRewrite (s.extentsIn stack x.1) false).moveBlk stack x.1 (some y.1)) else .next s
  | _, _ => .next s

/-! The staging cache (R398) -/

/-- The blocks of an extent. -/
def extHas (ext b : Nat) : Bool := decide ((flashBase + ext * extBytes) / 64 ≤ b ∧ b < (flashBase + ext * extBytes) / 64 + 1024)

/-- A staged extent discarded. -/
def State.unstage (s : State) (ext : Nat) : State :=
  { s with staging := s.staging.filter (· != ext), ahead := s.ahead.erase ext, stageBad := s.stageBad.filter fun b => !extHas ext b }

/-- An extent enters the staging cache whole, within its share and the cache; of a full share the least recently used extent that is not kept
leaves, and where there is none the extent does not enter. -/
def State.stage (s : State) (ext : Nat) : State :=
  let put := fun (t : State) => { t with staging := ext :: t.staging.filter (· != ext), stageBad := t.stageBad.filter fun b => !extHas ext b }
  if !s.stageRoom ext then s
  else if (s.shareOf ext).length < s.shareExtents (s.stageShare ext) ∧ (s.staging.filter (· != ext)).length < stagingCapacity then put s
  else
    match s.stageVictim ext with
    | some v => put (s.unstage v)
    | none => s

/-- The blocks of an extent whose flash read is uncorrectable, and those whose staged copy is. -/
def State.badOf (s : State) (ext : Nat) : List Nat := s.badBlks.filter (extHas ext)
def State.badStaged (s : State) (ext : Nat) : List Nat := s.stageBad.filter (extHas ext)

/-- Sixteen 4 KiB reads of an extent count for its blocks (R397). -/
def State.countReads (s : State) (ext : Nat) : State := (List.range 4).foldl (fun (t : State) k => t.countPageReads ext k 4) s

/-- The partition whose turn a fill of an extent takes at the flash stacks: that of its share of the cache, the system's for the pool (log 38). -/
def State.stagePart (s : State) (ext : Nat) : Nat := min 15 (s.stageShare ext)

/-- STAGING_FILL: a whole extent of an installed segment is filled from flash in a turn of its partition (R348); a staged copy with an uncorrectable error is discarded first,
and the event counted (R408). -/
def execStagingFill (ext : Nat) (s : State) : Out :=
  if (s.segOfExtent ext).isNone then .next s
  else
    let s1 := if s.staging.contains ext && s.badStaged ext != [] then (s.unstage ext).countCheck 2 else s
    if s1.staging.contains ext || !s1.flashUp || s1.badOf ext != [] || !s1.turnAt (s1.stagePart ext) flashResources then .next s1
    else .next (((s1.countReads ext).stage ext).servedAll (s1.stagePart ext) flashResources)

/-! What the cold-start engine waits for (R318, R411) -/

/-- Bytes of the entries from `lo` up to but not including `hi`. -/
def Team.layerSpan (t : Team) (lo hi : Nat) : Nat := (((t.layers.take hi).drop lo).map fun e => match e with | some (_, n) => n | none => 0).sum

/-- The engine may come to entry `i`, with `high` entries accessed: at most four entries and 4 GiB ahead of the highest accessed one. -/
def Team.mayFill (t : Team) (high i : Nat) : Bool := decide (i < t.layers.length ∧ i < high + 4 ∧ t.layerSpan high (i + 1) ≤ 2 ^ 32)

/-- Pages of a range with their physical addresses, when the whole range translates with RD. -/
def State.layerPages (s : State) (m : Nat) : Nat → Nat → Option (List Xl)
  | 0, _ => some []
  | n + 1, va =>
    match s.access none m va .read false with
    | .error _ => none
    | .ok x => (s.layerPages m n (va + 4096)).map fun l => x :: l

/-- The entry whose fill holds the cold-start engine of a bound team, with its pages. -/
def State.engineEntry (s : State) (m : Nat) : Option (Nat × List Xl) :=
  let x := s.mx m
  match x.st, x.team with
  | .bound, some t =>
    if x.ending.isSome || !t.mayFill x.coldHigh x.coldNext then none
    else match t.layers.getD x.coldNext none with
      | some (va, n) => (s.layerPages m (n / 4096) va).map fun ps => (x.coldNext, ps)
      | none => none
  | _, _ => none

/-- The first micro-context whose engine waits for an extent, with the number of the entry. -/
def State.engineAt (s : State) (ext : Nat) : Option (Nat × Nat) :=
  s.mxs.findSome? fun e =>
    match s.engineEntry e.1 with
    | some (i, ps) => if ps.any fun p => isFlash p.pa && extOf p.pa == ext then some (e.1, i) else none
    | none => none

/-- An extent enters the staging cache through R410: one that an engine waits for is filled ahead of use for it (R398, R411). -/
def State.stageFor (s : State) (ext : Nat) : State :=
  let u := s.stage ext
  match s.engineAt ext with
  | some e => if u.staging.contains ext then { u with ahead := u.ahead.put ext e } else u
  | none => u

/-- The first 16 bytes of SM3 over an extent (R399). -/
def checkValue (l : List Byte) : BitVec 128 := BitVec.ofNat 128 (sm3 l / 2 ^ 128)

/-- What asks a peer for an extent (R410): the segment's hash, its scope with its key, and the number of the extent in it; the layout is the
model's (log 59). -/
def peerRequest (w : WSeg) (k : Nat) : List Byte := beBytes 32 w.hash.toNat ++ leBytes 1 w.scope ++ leBytes 2 w.key ++ leBytes 4 k

/-- The request for an extent to every configured peer, in a slot of the system partition (R327): port 8 of the list of sent messages. -/
def State.askPeers (s : State) (w : WSeg) (k : Nat) : State := { s with sent := s.peerDus.map (fun _ => (8, peerRequest w k)) ++ s.sent }

/-- FLASH_REFETCH: what the peer sources give for an extent whose read is uncorrectable, or whose stack is not READY (R409, R410). The requests to
them leave in a slot of the system partition (R346). -/
def execFlashRefetch (ext : Nat) (peer : Option (List Byte)) (s0 : State) : Out :=
  match s0.segOfExtent ext with
  | none => .next s0
  | some (n, w) =>
    let bad := s0.badOf ext
    if s0.staging.contains ext || (s0.flashUp && bad == []) || (s0.peerDus != [] && !s0.scaleOpen) then .next s0
    else
      let k := ext - extOf w.fpa
      let s := s0.askPeers w k
      let data := peer.bind fun l =>
        if s.peerDus ≠ [] ∧ l.length = extBytes ∧ w.checks.find k = some (checkValue l) then some l else none
      match data with
      | some l =>
        if s.flashUp = false then .next { s.stageFor ext with mem := s.mem.writeN (flashBase + ext * extBytes) l }
        else
          match s.programAll [] false (extentKeys (flashBase + ext * extBytes) 1) with
          | .ok t ps _ =>
            let t1 := { t.mapPages ps with mem := t.mem.writeN (flashBase + ext * extBytes) l, badBlks := t.badBlks.filter fun b => !bad.contains b }
            .next ((t1.setWseg n { w with segw := w.segw + extBytes }).stageFor ext)
          | .noSpare t ps => .next (t.freePages ps)
      | none =>
        if s.flashUp = false then .next s
        else
          let lost := (bad.map fun b => (64 * b - w.fpa) / 4096).eraseDups.filter fun k => !w.lost.contains k
          let s1 := { s with badBlks := s.badBlks.filter fun b => !bad.contains b }.setWseg n { w with lost := lost ++ w.lost }
          -- the flash stack that lost the block is the unit; stacks 0 and 1 are those of stack A (log 36)
          let u := (bad.headD 0) / 64 % 4
          .next (s1.machineCheck 5 (128 * (u / 2) + u) n none)

/-- PEER_EXTENT_REQUEST: extent `ext` of the committed segment with a hash, of DEVICE scope or of the scope and key the peer names, sent in the
shutter slots of the system partition (port 9 of the list of sent messages); nothing of a segment this DU5 does not hold, nor of a LOST
block. -/
def execPeerExtentRequest (seg : SegmentName) (ext : Nat) (s : State) : Out :=
  match s.wsegs.find? fun e => e.2.hash == seg.hash && decide (ext < e.2.lenu) && (e.2.scope == 2 || (e.2.scope == seg.scope && e.2.key == seg.key)) with
  | none => .next s
  | some (_, w) =>
    let pa := w.fpa + ext * extBytes
    if !s.scaleOpen || (List.range 16).any fun i => s.flashLost (pa + 4096 * i) then .next s
    else if !((List.range 1024).all fun i => s.homeReady (pa + 64 * i)) then .next s
    else if !s.turnAt 15 flashResources then .next s
    else
      let t := (s.readBelow ((List.range 1024).map (pa / 64 + ·))).servedAll 15 flashResources
      .next { t with sent := (9, s.peek pa extBytes) :: t.sent }

end Sys2Proof.Machine
end

