-- ==== Sys2Proof/Machine/Install.lean ====
section
/-! DEFINITION. INSTALL with its QUERY and RELEASE (R400 to R407, R412). -/

namespace Sys2Proof.Machine

/-! The descriptor (Table 21.1) -/

/-- The first field that breaks Table 21.1, by its offset. -/
def installFault (l : List Byte) : Option Nat :=
  let f := fieldLe l
  let op := f 0 1
  let checks : List (Nat × Bool) :=
    [(0x00, decide (op ≤ 2)), (0x01, decide (f 1 1 < 8) && (if op = 0 then decide (f 1 1 % 4 ≠ 3) else f 1 1 % 4 == 0)),
     (0x02, if op = 0 then f 2 2 == 0 else op == 1 || decide (f 2 2 ≠ 0xFFFF)),
     (0x04, if op = 0 then decide (1 ≤ f 4 4 ∧ f 4 4 ≤ 262144) else f 4 4 == 0),
     (0x08, if op = 0 then f 8 8 % 4096 == 0 else f 8 8 == 0), (0x18, f 0x18 8 == 0), (0x20, op == 0 || f 0x20 32 == 0)]
  (checks.find? fun c => !c.2).map (·.1)

/-! Records (R405, Table 21.3) -/

/-- What a completion record says of its operation. -/
structure InstallDone where
  status : Nat
  op : Nat
  reason : Nat := 0
  dedup : Bool := false
  wsn : Option Nat := none
  fpa : Nat := 0
  bytes : Nat := 0
  refs : Nat := 0
  segrfr : Nat := 0
  degraded : Bool := false
  segw : Nat := 0

/-- The fields of a segment in a record. -/
def InstallDone.ofSeg (r : InstallDone) (n : Nat) (w : WSeg) : InstallDone :=
  { r with wsn := some n, fpa := w.fpa, refs := w.refs, segrfr := w.segrfr, degraded := w.lost != [], segw := w.segw }

def State.installRecord (s : State) (r : InstallDone) : List Byte :=
  leBytes 1 r.status ++ leBytes 1 r.op ++ leBytes 1 (r.dedup.toNat + 2 * r.degraded.toNat) ++ leBytes 1 r.reason
    ++ leBytes 2 (r.wsn.getD 0xFFFF) ++ leBytes 2 0 ++ leBytes 8 r.fpa ++ leBytes 8 r.bytes ++ leBytes 4 r.refs ++ leBytes 4 r.segrfr
    ++ leBytes 2 s.devUse ++ leBytes 2 s.flashSpare ++ leBytes 4 0 ++ leBytes 8 r.segw ++ leBytes 8 s.devw ++ leBytes 8 s.dclk.toNat

/-- The record written through the translation of the issue, and with WAKE the arrival, through the same translation where the barrier lies in
the record's page; a write that is refused is lost and counted. -/
def State.writeInstallRecord (s : State) (i : Install) (r : InstallDone) : State :=
  let pa := i.crPage.paOf i.cr
  let m := i.ref.mx
  let s1 :=
    if s.frameLocked (pa / 4096) || s.badBlk (pa / 64) then { s with lostRecords := s.lostRecords + 1 }
    else
      (s.writePa (if i.crPage.enc then some (s.mx m).kslot else none) pa (s.installRecord r)).logDirty (s.mx m).part (i.crPage.ipaOf i.cr)
  let s2 := (s1.touch i.ref i.cr 64).spansServed (some i.ref) [(pa, 64)]
  let bar := i.cr + 0x40
  if i.wake then
    match pageOf [i.crPage] bar with
    | some e => if s2.frameLocked (e.paOf bar / 4096) then s2 else s2.sendBarrier i.ref (.pbWake 1 true) bar (some e) 0 5
    | none => s2.arriveAt true i.ref m bar
  else s2

/-- The home of the record serves its write now; an operation that writes none waits for nothing. -/
def State.recordOpen (s : State) (i : Install) : Bool := i.abort == 2
  || (s.spansOpen (some i.ref) [(i.crPage.paOf i.cr, 64)] && s.dirtyUp (s.mx i.ref.mx).part (i.crPage.ipaOf i.cr))

/-! Scope (R336) -/

/-- The scope key of a micro-context. -/
def State.scopeKey (s : State) (m scope : Nat) : Nat :=
  match scope with
  | 0 => (s.mx m).tenant.toNat
  | 1 => (s.mx m).part
  | _ => 0

/-- The committed segment with a hash under the issuer's scope key. -/
def State.segWithHash (s : State) (m scope : Nat) (h : BitVec 256) : Option (Nat × WSeg) :=
  s.wsegs.find? fun e => e.2.hash == h && e.2.scope == scope && e.2.key == s.scopeKey m scope

/-- The segment a WSN names, when it is installed and its scope takes the issuer in. -/
def State.segFor (s : State) (m wsn : Nat) : Option WSeg :=
  match s.wsegs.find wsn with
  | some w => if w.key = s.scopeKey m w.scope then some w else none
  | none => none

/-! Reservation (R404) -/

/-- Ranges of the flash region in use: the segments and the reservations of installs under way. -/
def State.flashRanges (s : State) : List (Nat × Nat) :=
  (s.wsegs.map fun e => (e.2.fpa, e.2.lenu)) ++ (s.installs.filter fun i => i.share.isNone).map fun i => (i.fpa, i.lenu)

/-- User capacity in extents: 0.8 TB a stack, a program page of each for an extent. -/
def flashExtents : Nat := 800000000000 / pageBytes
/-- Extents of the region (Table 7.6). -/
def regionExtents : Nat := (flashEnd - flashBase) / extBytes

/-- A range of `n` extents that is free, sought from extent `u` on. -/
def fitFrom (l : List (Nat × Nat)) (n : Nat) : Nat → Nat → Option Nat
  | 0, _ => none
  | f + 1, u =>
    if regionExtents < u + n then fitFrom l n f 0
    else
      match l.find? fun r => decide ((r.1 - flashBase) / extBytes < u + n ∧ u < (r.1 - flashBase) / extBytes + r.2) with
      | none => some u
      | some r => fitFrom l n f ((r.1 - flashBase) / extBytes + r.2)

/-- WSNs in use. -/
def State.wsnUsed (s : State) : List Nat := s.wsegs.map (·.1) ++ (s.installs.filter fun i => i.share.isNone).map (·.wsn)

/-- Extents of the flash region that hold a frame of a registered segment or of a locked launch record: no write reaches them (R51, R376), so no
install takes them. -/
def State.flashHeld (s : State) : List (Nat × Nat) :=
  ((s.segs.flatMap (·.2.frames) ++ s.mxs.flatMap (·.2.locks)).filter fun f => isFlash (4096 * f)).map fun f => (4096 * f / extBytes * extBytes, 1)

/-- A free WSN and a free range of `n` extents. Which ones the spec leaves open: the search starts at free values. -/
def State.reserve (s : State) (n : Nat) : Option (Nat × Nat) :=
  let l := s.flashRanges
  let used := (l.map (·.2)).sum
  let ws := s.wsnUsed
  let start := (Config.freeValue (s.fresh + 1)).toNat % regionExtents
  let held := l ++ s.flashHeld
  match pickFree 65535 ws (ws.length + 1) (Config.freeValue s.fresh).toNat, fitFrom held n (2 * held.length + 3) start with
  | some w, some u => if used + n ≤ flashExtents ∧ ws.length < 65535 then some (w, flashBase + u * extBytes) else none
  | _, _ => none

/-! Ends -/

def State.dropInstall (s : State) (id : Nat) : State := { s with installs := s.installs.filter fun i => i.id != id }
def State.setInstall (s : State) (i : Install) : State := { s with installs := s.installs.map fun x => if x.id = i.id then i else x }

/-- Every access already translated to a physical range, and every translation kept for one, no longer reaches it (R406 step 2). -/
def State.releaseRange (s : State) (base n : Nat) : State :=
  let f := fun (e : TlbEntry) => e.release base n
  { s with
    cores := s.cores.map fun e => (e.1, { e.2 with tlb := e.2.tlb.map f }),
    reqs := s.reqs.map fun r => { r with page := r.page.map f, pa := if base ≤ r.pa ∧ r.pa < base + n then goneBase + r.pa else r.pa },
    copies := s.copies.map fun c => { c with pages := c.pages.map f, dpages := c.dpages.map f },
    kvs := s.kvs.map fun k => { k with pages := k.pages.map f },
    installs := s.installs.map fun i => { i with pages := i.pages.map f } }

/-- One reference of a segment given up; at zero its range becomes a hole, its lines go, its blocks and its WSN are free (R406). -/
def State.dropSegRef (s : State) (n : Nat) : State :=
  match s.wsegs.find n with
  | none => s
  | some w =>
    if 1 < w.refs then s.setWseg n { w with refs := w.refs - 1 }
    else
      let inRange := fun (pa : Nat) => decide (w.fpa ≤ pa ∧ pa < w.fpa + w.lenu * extBytes)
      { (s.releaseRange w.fpa (w.lenu * extBytes)).freeExtents w.fpa w.lenu with
        wsegs := s.wsegs.erase n, llc := s.llc.filter (fun e => !inRange (64 * e.1)), llcBad := s.llcBad.filter (fun b => !inRange (64 * b)),
        stageBad := s.stageBad.filter (fun b => !inRange (64 * b)), staging := s.staging.filter fun e => !inRange (flashBase + e * extBytes), ahead := s.ahead.filter fun e => !inRange (flashBase + e.1 * extBytes), mem := s.mem.filter fun e => !inRange e.1,
        badBlks := s.badBlks.filter fun b => !inRange (64 * b) }

/-- The pending counts of a segment: installs that have accepted and share it (R404). -/
def State.pendingRefs (s : State) (n : Nat) : Nat := (s.installs.filter fun i => i.share == some n).length

/-- RELEASE. The pending counts keep REFS above zero (R404, R412): DESIGN CHOICE (log 62), where only these are left it lowers nothing. -/
def State.releaseSeg (s : State) (n : Nat) : State :=
  match s.wsegs.find n with
  | some w => if w.refs ≤ s.pendingRefs n then s else s.dropSegRef n
  | none => s

/-- An install that did not come to its commit is undone: the pending reference, or its reserved blocks. -/
def State.undoInstall (s : State) (i : Install) : State :=
  match i.share with
  | some n => (s.dropInstall i.id).dropSegRef n
  | none => (s.dropInstall i.id).freePages i.placed

/-- An install that ends without a segment: undone, its record written. -/
def State.failInstall (s : State) (i : Install) (status reason : Nat) : State :=
  (s.undoInstall i).writeInstallRecord i { status := status, op := 0, reason := reason, bytes := i.bytes }

/-! Issue (R402 to R404) -/

/-- Steps 1 and 2: the descriptor, CRADDR and its page. -/
def State.installCheck (s : State) (ad : BitVec 4) : Except FaultInfo (List Byte × TlbEntry) :=
  match s.kvDescriptor ad with
  | .error f => .error f
  | .ok l =>
    let cr := fieldLe l 0x10 8
    if cr % 64 ≠ 0 then .error { code := 2, opnd := 2, space := spG, addr := cr }
    else if (spAlias cr).isSome then .error ((xlNonCanon 1 4).info 2 0 0 spG cr)
    else
      match s.access (some s.here.core) s.myMx cr .write false with
      | .error e => .error (e.info 2 0 0 (s.spaceOf cr) cr)
      | .ok x => if bit (fieldLe l 1 1) 2 && !x.page.rd then .error (xlPerm.info 2 0 0 spG cr) else .ok (l, x.page)

/-- The operation of an INSTALL word with nothing done yet. -/
def State.installOf (s : State) (cs : Cs) (tag : BitVec 6) (l : List Byte) (cp : TlbEntry) : Install :=
  { id := s.nextId, ref := s.myRef, cls := cs.cls, scope := cs.scope, tag := tag.toNat, iscope := fieldLe l 1 1 % 4, wake := bit (fieldLe l 1 1) 2,
    lenu := fieldLe l 4 4, src := fieldLe l 8 8, pages := [], cr := fieldLe l 0x10 8, crPage := cp,
    hash := BitVec.ofNat 256 (beNat (sliceBytes l 0x20 32)), share := none, wsn := 0, fpa := 0, readDone := false, data := [], bytes := 0,
    relocated := false, placed := [], abort := 0 }

/-- An operation that ends at its issue: its tag is issued, the record written, then the tag completes (R405). -/
def State.installNow (s : State) (i : Install) (r : InstallDone) (y : Sync) : State :=
  let s1 := s.setMe (s.me.tagIssue i.tag)
  let s2 := (s1.writeInstallRecord i r).updRef i.ref fun x => x.tagDone i.tag
  (s2.withdraw s.here.core s.here.slot).doneY y

/-- An accepted OP 0. -/
def State.acceptInstall (s : State) (i : Install) (y : Sync) : State :=
  let go := fun (t : State) (i : Install) =>
    let t1 := { t with installs := t.installs ++ [i], nextId := t.nextId + 1 }
    ((t1.setMe (t1.me.tagIssue i.tag)).withdraw s.here.core s.here.slot).doneY y
  match s.segWithHash s.myMx i.iscope i.hash with
  | some (n, w) => go (s.setWseg n { w with refs := w.refs + 1 }) { i with share := some n, wsn := n, fpa := w.fpa }
  | none =>
    match s.reserve i.lenu with
    | none => s.installNow i { status := 2, op := 0 } y
    | some (n, fpa) =>
      if 62259 < s.devUseAfter (i.lenu * extBytes) then s.installNow i { status := 3, op := 0 } y
      else go { s with fresh := s.fresh + 2 } { i with wsn := n, fpa := fpa }

/-- An INSTALL word: its operation is the descriptor's OP. -/
def State.installWord (s : State) (y : Sync) (cs : Cs) (ad : BitVec 4) (tag : BitVec 6) : State :=
  match s.installCheck ad with
  | .error f => s.raise f
  | .ok (l, cp) =>
    let op := fieldLe l 0 1
    let i := s.installOf cs tag l cp
    match installFault l with
    | some o => s.installNow i { status := 7, op := op, reason := o } y
    | none =>
      let wsn := fieldLe l 2 2
      if op = 0 then
        match s.translateRows (some s.here.core) s.myMx .read 0 (i.lenu * extBytes) [(0, i.src)] [] with
        | .error f => s.raise f
        | .ok ps => s.acceptInstall { i with pages := ps } y
      else if wsn = 0xFFFF then s.installNow i { status := 0, op := op } y
      else
        match s.segFor s.myMx wsn with
        | none => s.installNow i { status := 7, op := op, reason := 2 } y
        | some w =>
          if op = 1 then s.installNow i (({ status := 0, op := op } : InstallDone).ofSeg wsn w) y
          else
            let t := s.releaseSeg wsn
            t.installNow i (({ status := 0, op := op } : InstallDone).ofSeg wsn { w with refs := max (s.pendingRefs wsn) (w.refs - 1) }) y

def execInstall (y : Sync) (cs : Cs) (ad : BitVec 4) (tag : BitVec 6) (s : State) : Out := .next (s.installWord y cs ad tag)
def execInstallQuery (y : Sync) (cs : Cs) (ad : BitVec 4) (tag : BitVec 6) (s : State) : Out := .next (s.installWord y cs ad tag)
def execInstallRelease (y : Sync) (cs : Cs) (ad : BitVec 4) (tag : BitVec 6) (s : State) : Out := .next (s.installWord y cs ad tag)

/-! Source reads and commit (R404) -/

/-- The source bytes through the translations of the issue: page by page, or the address of the first uncorrectable block. -/
def State.sourceAux (s : State) (i : Install) : Nat → Nat → Nat → List Byte → Except Nat (List Byte)
  | 0, _, _, acc => .ok acc
  | f + 1, va, n, acc =>
    if n = 0 then .ok acc
    else
      match pageOf i.pages va with
      | none => .error va
      | some e =>
        match s.badIn (e.paOf va) 4096 with
        | some b => .error (va + (b - e.paOf va))
        | none => s.sourceAux i f (va + 4096) (n - 4096) (acc ++ s.readPa (if e.enc then some (s.mx i.ref.mx).kslot else none) (e.paOf va) 4096)

def State.installSource (s : State) (i : Install) : Except Nat (List Byte) := s.sourceAux i (16 * i.lenu) i.src (i.lenu * extBytes) []

/-- Every home of the source goes on: a flash-region block waits for its fill or its refetch as any access does (R408, R409). -/
def State.sourceUp (s : State) (i : Install) : Bool :=
  (List.range (1024 * i.lenu)).all fun k =>
    match pageOf i.pages (i.src + 64 * k) with
    | some e => s.homeReady (e.paOf (i.src + 64 * k))
    | none => true

/-- The physical addresses of the source's 4 KiB pages. -/
def Install.sourcePas (i : Install) : List Nat :=
  (List.range (16 * i.lenu)).filterMap fun k => (pageOf i.pages (i.src + 4096 * k)).map fun e => e.paOf (i.src + 4096 * k)

/-- The resources that partitions share in turns and an install uses: the homes of its source, and the flash stacks where it programs (R348). -/
def Install.resources (i : Install) : List Nat :=
  (i.sourcePas.filterMap homeResource ++ (if i.share.isNone then flashResources else [])).eraseDups

/-- The source reads are made: they count as accesses to their bytes (R318), those of the flash region reach the staging cache or flash (R397,
R398), and the resources have served the partition. -/
def State.touchInstall (s : State) (i : Install) : State :=
  ((s.touch i.ref i.src (i.lenu * extBytes)).meets (i.sourcePas.map fun a => (a, 4096))).servedAll (s.mx i.ref.mx).part i.resources

/-- The source reads may be made now: homes up, in a slot and the turns of the partition (R328, R348), behind the status writes of the stream's
earlier replies and the source reads of its earlier installs at the same bytes (R178), and no refresh goes ahead of the writes (R397). -/
def State.sourceOpen (s : State) (i : Install) : Bool :=
  s.sourceUp i && s.homeServes (s.mx i.ref.mx).part && s.turnAt (s.mx i.ref.mx).part i.resources
    && (s.emits.all fun e => decide (i.id ≤ e.id) || !i.meets e)
    && (s.installs.all fun k => decide (i.id ≤ k.id) || k.ref != i.ref || k.readDone || !i.overlaps k) && (i.share.isSome || (s.flashUp && !s.refreshFirst))

/-- Whole extents read before a failing address; how many of them had been programmed the spec leaves open (log 3). -/
def State.partBytes (s : State) (i : Install) (va : Nat) : Nat :=
  if i.share.isSome then 0 else (Config.freeValue s.fresh).toNat % ((va - i.src) / extBytes + 1) * extBytes

/-- An install whose issuer went to FAULTED or became FREE ends: with a record for FAULTED, without one for FREE (R412). -/
def State.endAborted (s : State) (i : Install) : State :=
  let t := if i.abort = 1 then s.failInstall i 6 1 else s.undoInstall i
  if i.readDone then t else t.updRef i.ref fun x => x.tagDone i.tag

/-- INSTALL_SOURCE_READ_DONE: the source has been read and hashed, and its extents programmed; the tag is set. -/
def execInstallSourceReadDone (id : Nat) (s : State) : Out :=
  match s.installs.find? fun i => i.id == id with
  | none => .next s
  | some i =>
    if !s.recordOpen i then .next s
    else if i.abort ≠ 0 then .next (s.endAborted i)
    else if i.readDone || !s.sourceOpen i then .next s
    else
      let s := s.touchInstall i
      match s.installSource i with
      | .error va =>
        let n := s.partBytes i va
        let s1 := { s with devw := s.devw + n, fresh := s.fresh + 1 }
        let e : PendErr :=
          { code := 6, reason := 0, opnd := 0, stglv := 0, coord0 := 0, coord1 := (va - i.src) % 2 ^ 32, space := spG, addr := va,
            baddr := some (va / 64 * 64) }
        .next (((s1.failInstall { i with bytes := n } 6 2).tagError i.ref i.tag e).updRef i.ref fun x => x.tagDone i.tag)
      | .ok l =>
        let tag := fun (t : State) => t.updRef i.ref fun x => x.tagDone i.tag
        let good := BitVec.ofNat 256 (sm3 l) == i.hash
        match i.share with
        | some _ =>
          let j := { i with readDone := true, data := l }
          .next (if good then tag (s.setInstall j) else (tag (s.setInstall j)).failInstall j 4 0)
        | none =>
          match s.programAll [] false (extentKeys i.fpa i.lenu) with
          | .noSpare t ps =>
            let j := { i with readDone := true, placed := ps, bytes := t.devw - s.devw }
            .next ((tag (t.setInstall j)).failInstall j 5 1)
          | .ok t ps failed =>
            let j := { i with readDone := true, data := l, placed := ps, bytes := i.lenu * extBytes, relocated := failed }
            .next (if good then tag (t.setInstall j) else (tag (t.setInstall j)).failInstall j 4 0)

/-- The keys of the map of a segment's LOST blocks. -/
def WSeg.lostKeys (w : WSeg) : List Nat := (w.lost.map fun k => 4 * (extOf w.fpa + k / 16) + k % 4).eraseDups

/-- The LOST blocks of a segment rewritten from a source: their extents lie in fresh pages, and count for the segment. -/
def State.rewriteLost (s : State) (n : Nat) (w : WSeg) (data : List Byte) (ps : List (Nat × Nat)) : State :=
  if w.lost = [] then s.setWseg n w
  else
    let mem := w.lost.foldl (fun (m : Memory) k => m.writeN (w.fpa + 4096 * k) (sliceBytes data (4096 * k) 4096)) s.mem
    { (s.mapPages ps).readBack ps with mem := mem }.setWseg n { w with lost := [], segw := w.segw + ps.length * pageBytes, segrfr := w.segrfr + w.lost.length }

/-- A record that names a committed segment. -/
def State.doneWith (s : State) (i : Install) (n : Nat) (dedup : Bool) : State :=
  match s.wsegs.find n with
  | some w =>
    let r : InstallDone := { status := if i.relocated then 1 else 0, op := 0, dedup := dedup, bytes := i.bytes }
    s.writeInstallRecord i (r.ofSeg n w)
  | none => s

/-- An install shares segment `n`, with `refs` references from now on: its own blocks are freed, and the LOST blocks of the segment rewritten
from its source, read back as any page it writes. -/
def State.shareSegment (s : State) (i : Install) (n : Nat) (w : WSeg) (refs : Nat) : State :=
  match s.programAll [] false w.lostKeys with
  | .noSpare t ps =>
    let j := { i with bytes := i.bytes + (t.devw - s.devw) }
    (t.freePages ps).failInstall j 5 1
  | .ok t ps failed =>
    let j := { i with bytes := i.bytes + (t.devw - s.devw), relocated := i.relocated || failed }
    if w.lost ≠ [] ∧ s.verifyFail ≠ 0 then ({ t with verifyFail := t.verifyFail - 1 }.freePages ps).failInstall j 5 2
    else ((((t.rewriteLost n { w with refs := refs } i.data ps).dropInstall i.id).freePages i.placed).doneWith j n true)

/-- The LOST blocks that a commit rewrites wait for the stacks: a refresh goes ahead of them (R397), and partitions take turns (R348). -/
def State.rewriteWaits (s : State) (i : Install) (w : WSeg) : Bool :=
  w.lost != [] && (!s.flashUp || s.refreshFirst || !s.turnAt (s.mx i.ref.mx).part flashResources)

/-- INSTALL_COMMIT: the place of an install in install order: it shares the segment committed before it, or populates its frames. -/
def execInstallCommit (id : Nat) (s : State) : Out :=
  match s.installs.find? fun i => i.id == id with
  | none => .next s
  | some i =>
    if !s.recordOpen i then .next s
    else if i.abort ≠ 0 then .next (s.endAborted i)
    else if !i.readDone then .next s
    else if i.share.isNone ∧ s.verifyFail ≠ 0 then .next ({ s with verifyFail := s.verifyFail - 1 }.failInstall i 5 2)
    else
      match i.share, s.segWithHash i.ref.mx i.iscope i.hash with
      | some n, _ =>
        match s.wsegs.find n with
        | some w => if s.rewriteWaits i w then .next s else .next (s.shareSegment i n w w.refs)
        -- its pending count keeps the segment: no run comes here
        | none => .next (s.failInstall i 6 1)
      | none, some (n, w) => if s.rewriteWaits i w then .next s else .next (s.shareSegment i n w (w.refs + 1))
      | none, none =>
        let w : WSeg :=
          { scope := i.iscope, key := s.scopeKey i.ref.mx i.iscope, hash := i.hash, fpa := i.fpa, lenu := i.lenu, refs := 1,
            segw := i.lenu * extBytes, segrfr := 0, lost := [],
            checks := (List.range i.lenu).map fun k => (k, checkValue (sliceBytes i.data (extBytes * k) extBytes)) }
        let s1 := ((s.dropInstall id).mapPages i.placed).readBack i.placed
        .next (({ s1 with mem := s1.mem.writeN i.fpa i.data }.setWseg i.wsn w).doneWith i i.wsn false)

end Sys2Proof.Machine
end

