-- ==== Sys2Proof/Machine/Scan.lean ====
section
/-! DEFINITION. The code scanner (R61, R62, R356) and the step that makes a segment executable or refuses it (R51, R373). -/

namespace Sys2Proof.Machine

open Sys2Proof

/-! One word (Table 3.10) -/

/-- The marks of a word: pop-before previous and next, push-after previous and next. -/
def wordMarks (sec : Section) (w : Nat) : List Nat :=
  match sec with
  | .sc => [0, 0, 0, 0]
  | .cm => [bits w 119 119, bits w 118 118, bits w 117 117, bits w 116 116]
  | _ => [bits w 55 55, bits w 54 54, bits w 53 53, bits w 52 52]

/-- Opcode 0x00. -/
def isHeaderWord (sec : Section) (w : Nat) : Bool := (rawHeader sec w).isSome

/-- The instruction a word's opcode and function fields name, whether or not the word is clean. -/
def wordInstr (sec : Section) (w : Nat) : Option Instr :=
  match parseWord sec w with
  | .word _ i => i
  | .reserved => none

/-- R370: at U, PERFRD names no micro-context. -/
def guestOk : Instr → Bool
  | .perfrd _ a _ => a == 0
  | _ => true

/-- The reasons a word inside a block breaks for itself. -/
def wordReasons (sec : Section) (hk : Bool) (w : Nat) : List Nat :=
  if isHeaderWord sec w then [6]
  else
    match parseWord sec w with
    | .reserved => [1]
    | .word clean none => (if clean then [] else [2]) ++ [0x0E]
    | .word clean (some i) =>
      (if clean && i.unusedZero then [] else [2]) ++ (if i.limitsOk && !(hk && i.streamOnly) && (hk || guestOk i) then [] else [0x0E])
        ++ (if i.privileged && !hk then [0x0F] else [])

/-- The word a PC-relative transfer at index `j` aims at. -/
def pcTarget (j : Nat) : Instr → Option Int
  | .br o => some (j + o.toInt)
  | .brc _ _ o => some (j + o.toInt)
  | .call o => some (j + o.toInt)
  | .loop _ o => some (j + o.toInt)
  | .loopa _ _ _ _ _ o => some (j + o.toInt)
  | _ => none

/-! One block -/

/-- What a walk has gathered: breaks as word and reason, headers, PC-relative targets. -/
structure Scan where
  breaks : List (Nat × Nat)
  headers : List Nat
  targets : List (Nat × Int)

/-- The counts a header declares, in the order of `wordMarks`. -/
def headerCounts (h : RawHeader) : List Nat := [h.popp, h.popn, h.pushp, h.pushn]

/-- The words of a block: `left` marks remain on each queue; the last word may be block-final. -/
def scanBody (sec : Section) (hk : Bool) : List Nat → Nat → List Nat → Scan → Scan
  | [], _, _, acc => acc
  | w :: r, j, left, acc =>
    let ms := wordMarks sec w
    let i := wordInstr sec w
    let rs := wordReasons sec hk w
      ++ (if isHeaderWord sec w then [] else if (ms.zip left).any fun p => decide (p.2 < p.1) then [7] else [])
      ++ (if (i.map Instr.blockFinal).getD false && !r.isEmpty then [9] else [])
    let tg := match i.bind (pcTarget j) with
      | some t => [(j, t)]
      | none => []
    scanBody sec hk r (j + 1) ((left.zip ms).map fun p => p.1 - p.2)
      { acc with breaks := acc.breaks ++ rs.map fun x => (j, x), targets := acc.targets ++ tg }

/-- Pops and pushes of a SYNC instruction. -/
def syncCounts : Instr → List Nat
  | .sync a b c d => [a.toNat, b.toNat, c.toNat, d.toNat]
  | _ => [0, 0, 0, 0]

/-- Every field but LEN and TEND is zero, as a segment of level S has them (R356). -/
def plainHeader (h : RawHeader) : Bool :=
  (headerCounts h).all (· == 0) && [h.wmode, h.wtm, h.wbar, h.leave, h.repk, h.repv, h.mcnt].all (· == 0) && !h.lease

/-- A header's own reasons. -/
def headerReasons (hk : Bool) (h : RawHeader) : List Nat :=
  (if h.clean then [] else [2]) ++ (if h.len = 0 then [3] else []) ++ (if h.encodingOk then [] else [5])
    ++ (if hk && !plainHeader h then [0x0E] else [])

/-- The opcode of a CM word is a matrix command's (Table 3.9), whatever its operands. -/
def isMatrixWord (w : Nat) : Bool := decide (0x10 ≤ bits w 127 120 ∧ bits w 127 120 ≤ 0x18)

/-- The reasons of a whole block, reported at its header. -/
def blockReasons (sec : Section) (h : RawHeader) (body : List Nat) : List Nat :=
  let is := body.filterMap (wordInstr sec)
  let sums := is.foldl (fun (a : List Nat) i => (a.zip (syncCounts i)).map fun p => p.1 + p.2) [0, 0, 0, 0]
  let mats := if sec = .cm then (body.filter isMatrixWord).length else 0
  let last := (body.getLast?).bind (wordInstr sec)
  (if sec = .sc ∧ (sums.zip (headerCounts h)).any (fun p => decide (p.2 < p.1)) then [8] else [])
    ++ (if (h.tend || h.repk != 0 || h.repv != 0) && (last.map Instr.transfer).getD false then [0x0C] else [])
    ++ (if (mats != 0 && !h.lease) || mats != h.mcnt then [0x0D] else [])

/-- A block may be the last of its segment. -/
def lastBlockOk (sec : Section) (h : RawHeader) (body : List Nat) : Bool :=
  h.tend || (match (body.getLast?).bind (wordInstr sec) with
    | some (.br _) => true
    | some (.ret _) => true
    | some .eret => true
    | some .halt => true
    | _ => false)

/-! The walk (R61) -/

/-- Blocks from word `i` on; `last` is the header of the block before and whether it may stand last. The words after a block that runs past
the end lie above its header, which is reported first whatever they hold.

DESIGN CHOICE (log 49): where the walk stops at a word refused with 0x03, the block before it is not tested for 0x0B, since R61 does not say
whether it is then the segment's last; and that word has the reason 0x03 alone, whatever its opcode. -/
def scanWalk (sec : Section) (hk : Bool) : Nat → Nat → List Nat → Option (Nat × Bool) → Scan → Scan
  | 0, _, _, _, acc => acc
  | f + 1, i, ws, last, acc =>
    match ws with
    | [] =>
      match last with
      | some (h, false) => { acc with breaks := acc.breaks ++ [(h, 0x0B)] }
      | _ => acc
    | w :: r =>
      match rawHeader sec w with
      | none => { acc with breaks := acc.breaks ++ [(i, 3)] }
      | some h =>
        let acc1 := { acc with breaks := acc.breaks ++ (headerReasons hk h).map fun x => (i, x) }
        if h.len = 0 then acc1
        else
          let acc2 := { acc1 with headers := acc1.headers ++ [i] }
          if r.length < h.len then { acc2 with breaks := acc2.breaks ++ [(i, 4)] }
          else
            let body := r.take h.len
            let acc3 := { acc2 with breaks := acc2.breaks ++ (blockReasons sec h body).map fun x => (i, x) }
            scanWalk sec hk f (i + h.len + 1) (r.drop h.len) (some (i, lastBlockOk sec h body)) (scanBody sec hk body (i + 1) (headerCounts h) acc3)

/-- The lowest break, and of that word the lowest reason. -/
def leastBreak : List (Nat × Nat) → Option (Nat × Nat)
  | [] => none
  | b :: r =>
    match leastBreak r with
    | none => some b
    | some c => if c.1 < b.1 ∨ (c.1 = b.1 ∧ c.2 < b.2) then some c else some b

/-- The scan of a segment's words: its headers, or the word refused and the reason. -/
def scanSegment (sec : Section) (hk : Bool) (ws : List Nat) (badWord : Option Nat) : Except (Nat × Nat) (List Nat) :=
  let r := scanWalk sec hk (ws.length + 1) 0 ws none { breaks := [], headers := [], targets := [] }
  let bad := (r.targets.filter fun t => !(r.headers.any fun h => (h : Int) == t.2)).map fun t => (t.1, 0x0A)
  let frame := match badWord with
    | some j => [(j, 0x11)]
    | none => []
  match leastBreak (r.breaks ++ bad ++ frame) with
  | some b => .error b
  | none => .ok r.headers

/-! Registration (R51, R373) -/

/-- The words of a run of bytes. -/
def wordsOf (n : Nat) : Nat → List Byte → List Nat
  | 0, _ => []
  | k + 1, l => leNat (l.take n) :: wordsOf n k (l.drop n)

/-- The bytes of a segment. -/
def State.segBytes (s : State) (g : Segment) : List Byte :=
  (g.frames.flatMap fun f => s.readPa (if g.priv.contains f then some (s.mx g.mx).kslot else none) (4096 * f) 4096).take g.len

/-- A page has one of the frames. -/
def TlbEntry.hasFrame (e : TlbEntry) (l : List Nat) : Bool := l.any fun f => decide (e.pa ≤ 4096 * f ∧ 4096 * f < e.pa + e.size)

/-- The address at which a copy unit writes memory. -/
def Copy.writesAt (c : Copy) (n : Nat) : Option Nat :=
  match c.dst n with
  | .g va => some va
  | .red va _ => some va
  | _ => none

/-- The commits of a CMP or an APPLY that has been issued may still write one of the frames. -/
def State.commitsTo (s : State) (k : KvCmd) (l : List Nat) : Bool :=
  k.op == 0x37 && (k.d.subop == 1 || k.d.subop == 2) && match s.arenas.find k.d.arena with
    | some x => (match x.repair.find k.d.slot with
      | some r => (List.range x.nl).any fun y => (List.range r.count).any fun t => (x.commitFrames k.d.slot y (r.pos + t)).any l.contains
      | none => false)
    | none => false

/-- A write issued before the lock is still on its way to a frame (R51 step 2): a scalar access, a unit of a copy or its credit to a barrier, the
status of a reply, the record of an INSTALL, a save's drain, the commits of a REPAIR, or an exchange. -/
def State.writeInFlight (s : State) (l : List Nat) : Bool :=
  let hits := fun (e : TlbEntry) (va : Nat) => l.contains (e.paOf va / 4096)
  (s.reqs.any fun r => !r.performed && !r.isFence && (match r.op with | .load _ => false | .pbTest => false | _ => true)
      && l.contains (r.pa / 4096))
    || (s.copies.any fun c => !c.frozen &&
      ((match c.bar, c.barPage with | some w, some e => hits e (bwAddr w) | _, _ => false)
        || (List.range c.units).any fun n => !c.done.contains n &&
          (match c.writesAt n with
           | some va => (match pageOf c.dstPages va with | some e => hits e va | none => false)
           | none => false)))
    || (s.emits.any fun e => hits e.stat e.statVa) || (s.installs.any fun i => hits i.crPage i.cr || (i.wake && hits i.crPage (i.cr + 0x40)))
    || (s.kvs.any fun k => s.commitsTo k l)
    || (s.hkOps.any fun o => o.scrub.isNone && (l.contains (o.pa / 4096) || l.contains ((o.pa + 255) / 4096)))
    || (s.mxs.any fun e => (e.2.savePages ++ (match e.2.drain with | some d => d.pages | none => [])).any fun p => p.hasFrame l)
    || (match s.exchange with
      | some x => l.any fun f => f == x.leafA / 4096 || f == x.leafB / 4096 || decide (x.frameA ≤ 4096 * f ∧ 4096 * f < x.frameA + x.size)
          || decide (x.frameB ≤ 4096 * f ∧ 4096 * f < x.frameB + x.size)
      | none => false)

/-- The end of the running management command: status and result (R371). -/
def State.cmdEnd (s : State) (status : Word) (result : Nat) : State :=
  { s with aperture := { s.aperture with ran := true, status := status.toNat, result := result } }

/-- A segment refused: its locks go, the record is queued and written where the command asked for it. The record names the page that holds the
word and the word's offset in that page, whatever the page's size (R62). A locked frame refuses the record (R51). -/
def State.refuseSegment (s : State) (id : Nat) (g : Segment) (word reason : Nat) : State :=
  let va := g.base.toNat + word * g.sec.wordBytes
  let page := g.pageVas.getD (word * g.sec.wordBytes / 4096) (va / 4096 * 4096)
  let f : FaultInfo := { code := 0x11, reason := reason, c0 := (va - page) / g.sec.wordBytes, space := spG, addr := page }
  let rec' := recordBytes f (g.sec.code + 4) 0 0 g.mx 0 (s.mx g.mx).gen.toNat s.dclk.toNat
  let s1 := { s with segs := s.segs.erase id }
  ((if s1.rangeLocked g.recPa 64 then s1 else s1.poke g.recPa rec').queueEvent 0x11 g.mx rec').cmdEnd (sysStatus 6 0) 0

/-- The record of a refusal that a registration under way may still write lies in one of the frames. -/
def State.scanRecordIn (s : State) (l : List Nat) : Bool :=
  s.segs.any fun e => !e.2.ok && (l.contains (e.2.recPa / 4096) || l.contains ((e.2.recPa + 63) / 4096))

/-- CODE_SCAN: once the writes in flight have been performed, the segment is scanned, and made executable or refused, when the home of the record is
READY (R418). DESIGN CHOICE (log 68): reason 0x11, a frame that breaks R50's rules, is reported at the first word of the first such 4 KiB frame; R61
names no word. -/
def execCodeScan (id : Nat) (s : State) : Out :=
  match s.segs.find id with
  | none => .next s
  | some g =>
    let t := s.meets (g.frames.map fun f => (4096 * f, 4096))
    if g.ok || s.writeInFlight g.frames || !(g.frames.all fun f => s.homeReady (4096 * f)) then .next s
    else if g.frames.any fun f => (s.badIn (4096 * f) 4096).isSome then
      .next ({ t with segs := t.segs.erase id }.cmdEnd (sysStatus 7 0x10) 0)
    else
      let l := s.segBytes g
      match scanSegment g.sec g.level (wordsOf g.sec.wordBytes (g.len / g.sec.wordBytes) l) (g.badFrame.map fun k => 4096 * k / g.sec.wordBytes) with
      | .error b => if s.paUp g.recPa 64 then .next (t.refuseSegment id g b.1 b.2) else .next s
      | .ok hs =>
        .next ({ t with segs := t.segs.put id { g with ok := true, headers := hs, hash := BitVec.ofNat 256 (sm3 l) } }.cmdEnd (sysStatus 0 0) id)

end Sys2Proof.Machine
end

