-- ==== Sys2Proof/Machine/Cache.lean ====
section
/-! DEFINITION. Steps of the translation walkers (R165, R166), of the last-level cache (R170, R171) and of the patrol scrubber (R416). -/

namespace Sys2Proof.Machine

/-! Walks -/

/-- What the served walk leaves: the translation in the core's TLB, and the tables it came by in its walk cache (R166, R330). A fault is the
access's own. -/
def State.serveWalk (s : State) (core mx va : Nat) : State :=
  match s.translation (some core) mx va with
  | .error _ => s
  | .ok e =>
    let c := s.core core
    let k := s.walker mx c.wcache
    let seen := (s.walkTrace k (s.mx mx).s1root.toNat va (e.ipaOf va)).filter fun w => !c.wcache.contains w
    if c.tlb.contains e then s else (s.setCore core { c with tlb := e :: c.tlb, wcache := seen ++ c.wcache }).countShared (some mx) 0x106 1

/-- The table entries that the served walk reads are met (R397, R398, R416). -/
def State.metWalk (s : State) (core mx va : Nat) : State :=
  s.meets ((s.walk1Reads (s.walker mx (s.core core).wcache) 5 (s.mx mx).s1root.toNat va).map fun a => (a, 8))

/-- TRANSLATION_WALK: the walker pool of a stack serves the oldest miss of a core, for the partition whose turn it is (R166, R348). -/
def execTranslationWalk (core mx : Nat) (va : Word) (s : State) : Out :=
  match s.walks.find? fun w => w.core == core && w.mx == mx && w.va == va.toNat / 4096 * 4096 with
  | none => .next s
  | some w =>
    if s.walkDue w && s.homeServes w.part then .next ((({ s with walks := s.walks.erase w }.served w.stack w.part).metWalk core mx va.toNat).serveWalk core mx va.toNat) else .next s

/-! Lines -/

/-- The translations that accesses of a micro-context hold or have in a TLB. -/
def State.heldPages (s : State) (m : Nat) : List TlbEntry :=
  (s.cores.flatMap fun c => c.2.tlb.filter fun e => e.mx == m)
    ++ ((s.reqs.filter fun r => r.mx == m).filterMap (·.page))
    ++ ((s.copies.filter fun c => c.ref.mx == m).flatMap fun c => c.pages ++ c.dpages)

/-- The translation under which a micro-context reaches a physical address. -/
def State.pageAtPa (s : State) (m pa : Nat) : Option TlbEntry :=
  (s.heldPages m).find? fun e => decide (e.pa ≤ pa ∧ pa < e.pa + e.size)

/-- The blocks of a tensor's tile that lie inside the tensor: their virtual addresses. -/
def Tensor.tileBlocks (x : Tensor) (tx ty : Nat) : List Nat :=
  (List.range x.th).flatMap fun r => (List.range (x.tw / 64)).filterMap fun c =>
    let row := ty * x.th + r
    let col := tx * x.tw + 64 * c
    if row < x.rows ∧ col < x.rowb then some (x.base.toNat + row * x.pitch + col) else none

/-- The line of a tensor's tile that an address lies in, at the home of `pa`; a device tensor's line carries no micro-context (R170). -/
def Tensor.line (x : Tensor) (m va pa : Nat) : LineTag :=
  let o := va - x.base.toNat
  { home := homeOf pa, mx := if x.tid < 0xF0000 then m else 0, tid := x.tid, tile := o % x.pitch / x.tw + 2 ^ 32 * (o / x.pitch / x.th) }

/-- The blocks that a miss of a micro-context at `pa`, reached by a page, fills into a line: those of the frame, or of the tile, that are homed
at the slice and can be read. -/
def State.fillBlocks (s : State) (m pa : Nat) (enc : Option Nat) (t : LineTag) : Option Tensor → List (Nat × Option Nat)
  | none => (List.range 64).map fun i => (pa / 4096 * 64 + i, enc)
  | some x =>
    (x.tileBlocks (t.tile % 2 ^ 32) (t.tile / 2 ^ 32)).filterMap fun va =>
      match s.access none m va .read false with
      | .ok y => if sameHome y.pa pa then some (y.pa / 64, y.enc) else none
      | .error _ => none

/-- A lookup for a line finds the block in it; a tensor's retiring line matches no lookup (R340). -/
def State.lineHas (s : State) (t : LineTag) (b : Nat) : Bool :=
  match s.llc.find b with
  | some l => l.line b == t && !(l.retiring && t.tid != 0)
  | none => false

/-- The key slot of a micro-context for a page. -/
def State.pageKey (s : State) (m : Nat) (e : TlbEntry) : Option Nat := if e.enc then some (s.mx m).kslot else none

/-- The line of a missing block filled with those of its blocks that `ok` admits, in the ways of the accessing partition (R170, R171, R328). Data of
the flash region comes from the staging cache or from flash (R397, R398), and the homes that partitions share in turns have served the partition
(R348). -/
def State.fillMiss (s : State) (m pa : Nat) (e : TlbEntry) (t : LineTag) (x : Option Tensor) (ok : Nat → Bool) : State :=
  let l := (s.fillBlocks m pa (s.pageKey m e) t x).filter fun b => ok b.1
  if s.lineHas t (pa / 64) then s
  else (((((s.readBelow (l.map (·.1))).correctBlks (l.map (·.1))).servedAll e.part (rangeResources pa 1)).fillLine (some m) t (s.part e.part).waymask l).countShared (some m) 0x101 1)

/-- Flash-region data comes through the staging cache: the extent is filled where its stacks are READY and its data is good (R398). -/
def State.prefStage (s : State) (pa : Nat) : State :=
  let e := extOf pa
  if isFlash pa && (s.segOfExtent e).isSome && (s.llc.find (pa / 64)).isNone && !s.staging.contains e && s.flashUp && s.badOf e == [] then
    (s.countReads e).stage e
  else s

/-- The extent of a block is not staged, and has a place in the staging cache: reads wait for its fill (R398). -/
def State.needsStage (s : State) (b : Nat) : Bool :=
  isFlash (64 * b) && !s.flashLost (64 * b) && (s.llc.find b).isNone && !s.staging.contains (extOf (64 * b)) && s.stageRoom (extOf (64 * b))

/-- The extents that blocks of one line lie in are filled into the staging cache, in their turns; none where one cannot be now. -/
def State.stageLine (s : State) (l : List Nat) : Option State :=
  l.foldl (fun (o : Option State) b => o.bind fun t =>
    if !t.needsStage b then some t
    else
      let e := extOf (64 * b)
      if t.flashUp && t.badOf e == [] && t.turnAt (t.stagePart e) flashResources then
        some ((t.prefStage (64 * b)).servedAll (t.stagePart e) flashResources)
      else none) (some s)

/-- A block of a line that holds good data where a fill takes it from. -/
def State.blkGood (s : State) (b : Nat) : Bool :=
  if isFlash (64 * b) then
    s.flashLost (64 * b) || (if (s.llc.find b).isSome then !s.llcBad.contains b
      else if s.staging.contains (extOf (64 * b)) then !s.stageBad.contains b else !s.badBlks.contains b)
  else s.homeReady (64 * b)

/-- A missing block's line filled: the extents of a tile that reaches over several of them are staged first, and the fill waits where one cannot be
(R398). -/
def State.fillWhole (s : State) (m pa : Nat) (e : TlbEntry) (t : LineTag) (x : Option Tensor) : State :=
  if s.lineHas t (pa / 64) then s
  else match s.stageLine ((s.fillBlocks m pa (s.pageKey m e) t x).map (·.1)) with
    | some u => u.fillMiss m pa e t x u.blkGood
    | none => s

/-- LLC_FILL: the line of a missing block is filled. A cached flash-region block with an uncorrectable error is discarded, to be filled again
from below, and the event counted (R408). -/
def execLlcFill (mx tid pa : Nat) (s : State) : Out :=
  if isFlash pa && s.llcBad.contains (pa / 64) && (s.llc.find (pa / 64)).isSome then
    .next ({ s with llc := s.llc.erase (pa / 64), llcBad := s.llcBad.filter (· != pa / 64) }.countCheck 2)
  else match s.pageAtPa mx pa with
  | none => .next s
  | some e =>
    if !s.homeReady pa || isIo pa || !s.homeServes (s.mx mx).part || !s.turnAt (s.mx mx).part (rangeResources pa 1) then .next s
    else if tid = 0 then .next (s.fillWhole mx pa e (frameLine pa) none)
    else
      match ((s.mx mx).tensors ++ s.devTensors).find? fun x => x.tid == tid with
      | none => .next s
      | some x =>
        let va := e.va + (pa - e.pa)
        let o := va - x.base.toNat
        if va < x.base.toNat ∨ x.rowb ≤ o % x.pitch ∨ x.rows ≤ o / x.pitch then .next s
        else .next (s.fillWhole mx pa e (x.line mx va pa) (some x))

/-! Prefetch (R250) -/

/-- The tile PREF names, or the fault of R237 that drops it. -/
def State.prefTile (s : State) (cs : Cs) (h ag : BitVec 4) : Except FaultInfo Copy :=
  match s.loadedShape h with
  | .error f => .error f
  | .ok x =>
    let c := (s.copyOf .tload cs 0).withShape x (s.a ag).toNat 0
    if c.gbase % 64 ≠ 0 then .error { code := 2, opnd := 0, space := spG, addr := c.gbase }
    else
      match s.translateRows (some s.here.core) s.myMx .read 0 c.rowb ((List.range c.rows).map fun r => (r, c.rowG r)) [] with
      | .error f => .error f
      | .ok ps => .ok { c with pages := ps }

/-- The tensor tile PREF names, with its tensor. -/
def State.prefTensorTile (s : State) (cs : Cs) (h ag : BitVec 4) : Except FaultInfo (Copy × Tensor) :=
  match s.loadedShape h with
  | .error f => .error f
  | .ok x =>
    match s.tensorNamed (s.a ag).toNat with
    | .error f => .error f
    | .ok z => match s.tensorTile cs 0 h x.spitch 0 (s.a ag).toNat z with | .error f => .error f | .ok c => .ok (c, z)

/-- The blocks of a tile filled into the lines they belong to. A block whose home is not READY, or does not serve the stream now, in a slot of its
partition (R328, R346) and in its turn (R348), is left out (log 59). -/
def State.prefetch (s : State) (c : Copy) (x : Option Tensor) : State :=
  (List.range c.units).foldl
    (fun (t : State) n =>
      match c.src n with
      | .g va =>
        match pageOf c.pages va with
        | none => t
        | some e =>
          let pa := e.paOf va
          let open' := s.mayReach (some s.myRef) && t.turnAt e.part (rangeResources pa 1)
          let t1 := if open' then t.prefStage pa else t
          if open' && t1.homeReady pa then
            t1.fillMiss s.myMx pa e (match x with | some z => z.line s.myMx va pa | none => frameLine pa) x fun b => t1.homeReady (64 * b)
          else t1
      | _ => t) s

/-- PREF. -/
def execPref (y : Sync) (cs : Cs) (h ag : BitVec 4) (s : State) : Out :=
  match s.prefTile cs h ag with
  | .error _ => .next (s.doneY y)
  | .ok c => .next ((s.prefetch c none).doneY y)

/-- PREF in its tensor form. -/
def execPrefTensor (y : Sync) (cs : Cs) (h ag : BitVec 4) (s : State) : Out :=
  match s.prefTensorTile cs h ag with
  | .error _ => .next (s.doneY y)
  | .ok (c, x) => .next ((s.prefetch c (some x)).doneY y)

/-- The partition for which a way's blocks are written back to some places now: one that may fill the way (R328), an active one whose mask holds it or
the system partition, in its slot and the turns there (R348). -/
def State.wayServer (s : State) (w : Nat) (l : List Nat) : Option Nat :=
  (List.range 16).find? fun p => (p == 15 || ((s.part p).active && (s.part p).waymask.getLsbD w)) && s.homeServes p && s.turnAt p l

def State.wayServed (s : State) (w : Nat) (l : List Nat) : Bool := (s.wayServer w l).isSome


/-- LLC_WRITEBACK: a line is evicted: exactly its dirty blocks are written back, in a slot of a partition of its way (log 38). -/
def execLlcWriteback (blk : Nat) (s : State) : Out :=
  match s.llc.find blk with
  | none => .next s
  | some l =>
    let line := s.llc.filter fun e => e.2.line e.1 == l.line blk
    match s.wayServer l.way (dirtyResources line) with
    | some p => if s.homeReady (64 * blk) then .next ((s.evict l.owner line).servedAll p (dirtyResources line)) else .next s
    | none => .next s

/-- PATROL_SCRUB: a location is read and its corrected data written back, which changes no value and takes a correctable error away; an
uncorrectable one waits for its first consumer (R416). -/
def execPatrolScrub (p : PatrolAt) (s : State) : Out :=
  let blk := p.blk
  let s1 := s.correct p.store blk
  let s2 := { s1 with weak := s1.weak.filter (· != ((patrolCode p.store), blk)) }
  match p.store with
  | .mem => .next (if s.badBlk blk then s else { s2 with mem := s2.mem.writeN (64 * blk) (s2.mem.readN (64 * blk) 64) })
  | .attn => .next (if s.attnBad.contains blk then s else { s2 with attn := s2.attn.writeN (64 * blk) (s2.attn.readN (64 * blk) 64) })
  | .cache =>
    match s.llc.find blk with
    | some l => .next (if s.llcBad.contains blk then s else { s2 with llc := s2.llc.put blk l })
    | none => .next s
  | .shutter core => .next (if (s.core core).shutBad.contains blk then s else s2)
  | .pane core second =>
    let c := s2.core core
    if (c.cw.bad second).contains blk then .next s
    else
      let m := (c.cw.pane second).writeN (64 * blk) ((c.cw.pane second).readN (64 * blk) 64)
      .next (s2.setCore core { c with cw := if second then { c.cw with pane1 := m } else { c.cw with pane0 := m } })

end Sys2Proof.Machine
end

