-- ==== Sys2Proof/Machine/Manage.lean ====
section
/-! DEFINITION. Management commands of the system control aperture (R371 to R374, R377, Table 19.7): code segments, arenas, flows,
partitions, shutter tables, slot tables, keys and quotes, and the end of a command. -/

namespace Sys2Proof.Machine

/-! Commands (R371) -/

/-- Word `i` of the running command: its code in word 0, its arguments from word 1 on. -/
def State.cmdArg (s : State) (i : Nat) : Nat := (AMap.get 0 s.aperture.words i).toNat

/-- The argument word of a command of Table 19.7 that is a PA it reads or writes, with the bytes there; of a migration image, whose length is
the model's, its first. -/
def cmdPlaces : Nat → List (Nat × Nat)
  | 0x01 => [(4, 64)]
  | 0x03 => [(2, 32)]
  | 0x10 => [(2, 128)]
  | 0x30 => [(2, 56)]
  | 0x31 => [(2, 256)]
  | 0x32 => [(2, 64)]
  | 0x40 => [(2, 64)]
  | 0x41 => [(2, 32), (3, 192)]
  | 0x35 => [(2, 1)]
  | 0x36 => [(2, 1)]
  | _ => []

/-- The physical ranges of a command's PA arguments. -/
def State.cmdSpans (s : State) (c : Nat) : List (Nat × Nat) := (cmdPlaces c).map fun e => (s.cmdArg e.1, e.2)

/-- The running command has code `c` and has not run yet; it waits for the homes of its PA arguments (R418), in slots and turns of the system
partition (R328, R346, R348). -/
def State.running (s : State) (c : Nat) : Bool :=
  s.aperture.busy && !s.aperture.ran && s.cmdArg 0 == c && (cmdPlaces c).all (fun e => s.paUp (s.cmdArg e.1) e.2)
    && (cmdPlaces c == [] || (s.hkReach && s.turnAt 15 (spanResources (s.cmdSpans c))))

/-- The arguments of the running command have been read or written there. -/
def State.cmdServed (s : State) : State :=
  (s.servedAll 15 (spanResources (s.cmdSpans (s.cmdArg 0)))).meets (s.cmdSpans (s.cmdArg 0))

/-- Byte offset of argument Ai in the command, the detail of a status about it. -/
def argOff (i : Nat) : Nat := 8 * (i + 1)
def State.argA (s : State) (i : Nat) : Nat := s.cmdArg (i + 1)

def badArg (i : Nat) : Word := sysStatus 2 (argOff i)
def faultArg (i : Nat) : Word := sysStatus 7 (argOff i)

/-- A command that ends with a status and no effect. -/
def State.cmdFail (s : State) (st : Word) : Out := .next (s.cmdEnd st 0)
/-- A command performed, with its result. -/
def State.cmdOk (s : State) (result : Nat) : Out := .next (s.cmdEnd (sysStatus 0 0) result)

/-- Codes of Table 19.7. -/
def assignedCodes : List Nat :=
  [0x01, 0x02, 0x03, 0x10, 0x11, 0x12, 0x13, 0x14, 0x15, 0x16, 0x20, 0x21, 0x30, 0x31, 0x32, 0x33, 0x34, 0x35, 0x36, 0x40, 0x41]

/-- CMDDONE: the finished command leaves the aperture free, and its event carries STAT. An unassigned code ends here with BADCMD. -/
def execCmddone (s : State) : Out :=
  let a := s.aperture
  let fin := fun (t : State) =>
    let t1 := { t with aperture := { t.aperture with busy := false, ran := false } }
    Host.Outcome.next (t1.queueEvent 0x82 0 (t1.eventRecord 0x82 0 none 0 (t1.aperture.readWord 0x48)))
  if a.busy = false then .next s
  else if a.ran then fin s.cmdServed
  else if s.cmdArg 0 ∈ assignedCodes then .next s
  else fin (s.cmdEnd (sysStatus 1 0) 0)

/-! Code segments (R51, R373) -/

/-- 4 KiB of a segment as SEGREG translates them: their frame, whether it is private, whether it is mapped writable, and the virtual address of
the page that holds them. -/
structure SegPage where
  frame : Nat
  isPriv : Bool
  writable : Bool
  va : Nat

/-- The translation of one 4 KiB of a segment, or of its base.

DESIGN CHOICE (log 49): the read permission of the page is asked, and 'mapped writable' (reason 0x11) is judged by the mapping that A1 names
alone; R373 says only that A1 is translated through the stages. -/
def State.segPage (s : State) (m : Nat) (level : Bool) (va : Nat) : Except XlErr SegPage :=
  match (if level then s.accessPhys va .read else s.access none m va .read false) with
  | .error e => .error e
  | .ok x => .ok { frame := x.pa / 4096, isPriv := x.enc.isSome, writable := !level && x.page.w, va := x.page.page1.1 / 4096 * 4096 }

def State.segPages (s : State) (m : Nat) (level : Bool) : Nat → Nat → Option (List SegPage)
  | 0, _ => some []
  | n + 1, va =>
    match s.segPage m level va with
    | .error _ => none
    | .ok p => (s.segPages m level n (va + 4096)).map fun r => p :: r

/-- The section of a code. -/
def sectionOf (n : Nat) : Section :=
  match n with
  | 0 => .sc
  | 1 => .ld
  | 2 => .cm
  | _ => .st

/-- The base, or the length, of a segment is ill formed (R50). -/
def segIllFormed (sec : Section) (base len : Nat) : Bool :=
  decide (base % 4096 ≠ 0 ∨ len % sec.wordBytes ≠ 0 ∨ len < sec.wordBytes ∨ 2 ^ 24 < len)

/-- SEGREG: the frames are locked; CODE_SCAN does the rest. The walks of a segment of a micro-context wait for their homes (R418). DESIGN CHOICE (log
68): an ill-formed segment (reason 0x10) is refused at its word 0 without a scan, so that no other reason of that word is reported; R61 names no word. -/
def execSegreg (s : State) : Out :=
  if !s.running 0x01 || s.segs.any (fun e => !e.2.ok) then .next s
  else
    let a0 := s.argA 0
    let m := a0 % 16384
    let sec := sectionOf (bits a0 17 16)
    let level := bit a0 20
    let base := s.argA 1
    let len := s.argA 2
    let recPa := s.argA 3
    let g : Segment :=
      { mx := m, sec := sec, level := level, base := BitVec.ofNat 64 base, len := len, frames := [], pageVas := [], ok := false, hash := 0, headers := [],
        recPa := recPa, priv := [], badFrame := none, fetched := [] }
    if !level && !segIllFormed sec base len && (List.range (ceilDiv len 4096)).any (fun k => s.walkStalls none m (base + 4096 * k)) then .next s
    else if s.paUnwritable recPa 64 then s.cmdFail (faultArg 3)
    else if segIllFormed sec base len then
      let at' := match s.segPage m level base with
        | .ok p => [p.va]
        | .error _ => []
      .next (s.refuseSegment 4096 { g with pageVas := at' } 0 0x10)
    else
      match s.segPages m level (ceilDiv len 4096) base with
      | none => s.cmdFail (faultArg 1)
      | some ps =>
        let used := s.segs.map (·.1)
        match pickFree 4096 used (used.length + 1) (Config.freeValue s.fresh).toNat with
        | none => s.cmdFail (sysStatus 4 0)
        | some id =>
          if 4096 ≤ used.length then s.cmdFail (sysStatus 4 0)
          else
            let bad := ps.findIdx? fun p => p.writable || s.segs.any fun e => e.2.frames.contains p.frame
            let g1 := { g with
              frames := ps.map (·.frame), pageVas := ps.map (·.va), priv := (ps.filter (·.isPriv)).map (·.frame), badFrame := bad }
            .next { s with segs := s.segs.put id g1, fresh := s.fresh + 1 }

/-- States of a micro-context that keep what it uses from changing. -/
def MxSt.inUse : MxSt → Bool
  | .bound => true
  | .swapped => true
  | .saved => true
  | .paused => true
  | _ => false

/-- SEGWD. -/
def execSegwd (s : State) : Out :=
  if !s.running 0x02 then .next s
  else
    match s.segs.find (s.argA 0) with
    | none => s.cmdFail (sysStatus 5 0)
    | some g =>
      if g.fetched.any fun m => (s.mx m).st.inUse then s.cmdFail (sysStatus 3 0)
      else { s with segs := s.segs.erase (s.argA 0) }.cmdOk 0

/-- SEGHASH. -/
def execSeghash (s : State) : Out :=
  if !s.running 0x03 then .next s
  else
    match s.segs.find (s.argA 0) with
    | none => s.cmdFail (sysStatus 5 0)
    | some g =>
      if s.paUnwritable (s.argA 1) 32 then s.cmdFail (faultArg 1)
      else (s.poke (s.argA 1) (beBytes 32 g.hash.toNat)).cmdOk 0

/-! Arenas (R263, Table 11.1) -/

/-- FP32 bits of a finite value. -/
def f32Finite (n : Nat) : Bool := bits n 30 23 != 255

/-- Attention-side HBM: 6 × 80 GB (Table 1.5). -/
def attnHbmBytes : Nat := 480000000000

/-- The first field of an arena record that breaks a limit. Its slots and its pool lie inside attention-side HBM (log 50). -/
def arenaFault (l : List Byte) : Option Nat :=
  let f := fieldLe l
  let hd := 64 * 2 ^ f 0x0A 1
  let bh := ceilDiv hd (if f 7 1 = 0x40 then 31 else if f 7 1 = 0x41 then 32 else if f 7 1 = 0x42 then 64 else if f 7 1 = 0x43 then 128 else 62)
  let pb := (f 6 1 + 1) * 2 * f 8 1 * bh * 64
  let slots := f 0x18 8 + f 0x30 4 * f 0x20 8
  let pool := f 0x38 8 + 256 * pb * f 0x40 4
  let inHbm := fun (n : Nat) => decide (n ≤ attnHbmBytes)
  let checks : List (Nat × Bool) :=
    [(0x07, decide (0x40 ≤ f 7 1 ∧ f 7 1 ≤ 0x44)), (0x08, decide (1 ≤ f 8 1 ∧ f 8 1 ≤ 64)),
     (0x09, decide (1 ≤ f 9 1 ∧ f 9 1 ≤ 16)), (0x0A, decide (f 0x0A 1 ≤ 2)), (0x0B, decide (f 0x0B 1 ≤ 1)),
     (0x0C, f32Finite (f 0x0C 4) && decide (f 0x0C 4 % 2 ^ 31 ≠ 0)),
     (0x10, f32Finite (f 0x10 4) && decide (0x3F800000 < f 0x10 4 ∧ f 0x10 4 < 2 ^ 31)), (0x16, f 0x16 2 == 0),
     (0x18, f 0x18 8 % 4096 == 0 && inHbm slots), (0x20, decide (f 0x20 8 % 4096 = 0 ∧ f 0x2C 4 * f 0x28 4 ≤ f 0x20 8)),
     (0x28, decide (f 0x28 4 % 64 = 0 ∧ pb ≤ f 0x28 4)),
     (0x2C, decide (f 0x2C 4 % 256 = 0 ∧ 256 ≤ f 0x2C 4 ∧ f 0x2C 4 ≤ 2 ^ 20)), (0x30, decide (1 ≤ f 0x30 4 ∧ f 0x30 4 ≤ 65536)),
     (0x34, f 0x34 4 == 0),
     (0x38, decide (f 0x38 8 % 4096 = 0) && (f 0x40 4 == 0 || (inHbm pool && decide (slots ≤ f 0x38 8 ∨ pool ≤ f 0x18 8)))),
     (0x40, decide (f 0x40 4 ≤ 65536)), (0x44, f 0x44 60 == 0)]
  (checks.find? fun c => !c.2).map (·.1)

/-- A new arena: every page LOCAL, and no position valid. An index entry that still names a block of it keeps its reference. -/
def State.newArena (s : State) (k : Nat) (l : List Byte) : Arena :=
  let f := fieldLe l
  let refs := (s.index.filter fun e => e.arena == k).foldl
    (fun (t : AMap (Nat × Bool)) e => t.put e.blk (((AMap.find t e.blk).map (·.1)).getD 0 + 1, true)) []
  { model := BitVec.ofNat 32 (f 0 4), mver := BitVec.ofNat 16 (f 4 2), nl := f 6 1 + 1, kc := BitVec.ofNat 8 (f 7 1), hk := f 8 1, qg := f 9 1,
    hd := 64 * 2 ^ f 0x0A 1, rope := f 0x0B 1 == 1, scl := BitVec.ofNat 32 (f 0x0C 4), ropeb := BitVec.ofNat 32 (f 0x10 4),
    tenant := BitVec.ofNat 16 (f 0x14 2), base := f 0x18 8, sstr := f 0x20 8, pstr := f 0x28 4, maxpos := f 0x2C 4, nslot := f 0x30 4,
    sbbase := f 0x38 8, nsb := f 0x40 4, pages := [], npos := [], prov := [], repair := [], docs := [], sbref := refs, users := [] }

/-- A micro-context that has issued a command to the arena keeps it from changing (R263). -/
def State.arenaInUse (s : State) (x : Arena) : Bool := x.users.any fun m => (s.mx m).st.inUse

/-- ARSET. -/
def execArset (s : State) : Out :=
  if !s.running 0x10 then .next s
  else
    let k := s.argA 0
    if 4096 ≤ k then s.cmdFail (badArg 0)
    else if s.paFails (s.argA 1) 128 then s.cmdFail (faultArg 1)
    else
      let l := s.peek (s.argA 1) 128
      match arenaFault l with
      | some o => s.cmdFail (sysStatus 2 o)
      | none =>
        if ((s.arenas.find k).map s.arenaInUse).getD false then s.cmdFail (sysStatus 3 0)
        else (s.setArena k (s.newArena k l)).cmdOk 0

/-- ARDEL. -/
def execArdel (s : State) : Out :=
  if !s.running 0x11 then .next s
  else
    match s.arenas.find (s.argA 0) with
    | none => s.cmdFail (sysStatus 5 0)
    | some x => if s.arenaInUse x then s.cmdFail (sysStatus 3 0) else { s with arenas := s.arenas.erase (s.argA 0) }.cmdOk 0

/-- The arena, slot and page that A0 names. -/
def pageArg (a : Nat) : Nat × Nat × Nat := (bits a 11 0, bits a 27 12, bits a 39 28)

/-- The slot and page lie inside the arena. -/
def Arena.inside (x : Arena) (slot j : Nat) : Bool := decide (slot < x.nslot ∧ 256 * j < x.maxpos)

/-- Places before which a management change of a page waits: its read pins (R263). -/
def Arena.pagePinned (x : Arena) (slot j : Nat) : Bool := (x.page slot j).pins != 0

/-- The position records of a page, where they stand. -/
def Arena.pageRecs (x : Arena) (slot j : Nat) : List (RecPlace × Nat) :=
  (List.range 256).map fun i => (x.place (x.page slot j).kind slot (256 * j + i), x.recBytes)

/-- PGOUT: once the page's pins are released and the homes are READY (R418), in the turns of the copy path and the CXL home agents (R348), its records are copied to the CXL
tier and re-enciphered (R334), and it is TIER. A copy into the frames of a registered segment is refused (R51): DESIGN CHOICE (log 68), with FAULT
of the PA. Records that hold an uncorrectable block are not copied: FAULT of the page (R416; log 47). -/
def execPgout (s : State) : Out :=
  if !s.running 0x12 then .next s
  else
    let (k, slot, j) := pageArg (s.argA 0)
    let pa := s.argA 1
    match s.arenas.find k with
    | none => s.cmdFail (sysStatus 5 0)
    | some x =>
      if !x.inside slot j then s.cmdFail (badArg 0)
      else if pa % 4096 ≠ 0 ∨ !isCxl pa then s.cmdFail (badArg 1)
      else if !s.populated pa || !s.populated (pa + 256 * x.recBytes - 1) then s.cmdFail (faultArg 1)
      else if (x.page slot j).kind ≠ .loc then s.cmdFail (sysStatus 8 0)
      else if (List.range (ceilDiv (256 * x.recBytes) 4096)).any fun i => s.frameLocked (pa / 4096 + i) then s.cmdFail (sysStatus 7 (argOff 1))
      else if x.pagePinned slot j || !s.paUp pa (256 * x.recBytes) || !s.hasTurn 9 15 (15 :: s.copyPathParts)
          || !s.turnAt 15 (rangeResources pa (256 * x.recBytes)) then .next s
      else if (x.pageRecs slot j).any s.recBad then s.cmdFail (sysStatus 7 (argOff 0))
      else
        let ks := s.tenantKey x.tenant
        let written := fun (b : Nat) => decide (pa / 64 ≤ b ∧ b < pa / 64 + 4 * x.recBytes)
        let s0 := { s with badBlks := s.badBlks.filter fun b => !written b }.copyPath none x.tenant ks pa (256 * x.recBytes)
        let s1 := (List.range 256).foldl
          (fun t i => t.copyRec ks x (x.place .loc slot (256 * j + i)) (x.place (.tier pa) slot (256 * j + i))) s0
        ((((s1.recMet (x.pageRecs slot j)).served 9 15).servedAll 15 (rangeResources pa (256 * x.recBytes))).setArena k (x.setKind slot j (.tier pa))).cmdOk 0

/-- DOCREG. -/
def execDocreg (s : State) : Out :=
  if !s.running 0x13 then .next s
  else
    let d := BitVec.ofNat 64 (s.argA 1)
    match s.arenas.find (s.argA 0) with
    | none => s.cmdFail (sysStatus 5 0)
    | some x =>
      if x.docs.contains d then s.cmdOk 0
      else if 16384 ≤ x.docs.length then s.cmdFail (sysStatus 4 0)
      else (s.setArena (s.argA 0) { x with docs := d :: x.docs }).cmdOk 0

/-- DOCDEL: it waits for the splices that hold the hash (R294). -/
def execDocdel (s : State) : Out :=
  if !s.running 0x14 then .next s
  else
    let d := BitVec.ofNat 64 (s.argA 1)
    match s.arenas.find (s.argA 0) with
    | none => s.cmdFail (sysStatus 5 0)
    | some x =>
      if !x.docs.contains d then s.cmdFail (sysStatus 5 0)
      else if s.kvs.any fun c => c.op == 0x32 && c.d.arena == s.argA 0 && c.doch == d then .next s
      else (s.setArena (s.argA 0) { x with docs := x.docs.filter (· != d) }).cmdOk 0

/-- The entry of an arena whose last hit is the oldest. -/
def oldestEntry (k : Nat) (l : List IxEntry) : Option IxEntry :=
  l.foldl
    (fun b e =>
      if e.arena ≠ k then b
      else match b with
        | some y => if e.hit < y.hit then some e else b
        | none => some e) none

/-- Up to `n` entries of an arena evicted, least recently hit first: the state and how many went. -/
def State.evictIndex (s : State) (k : Nat) : Nat → Nat → State × Nat
  | 0, c => (s, c)
  | n + 1, c =>
    match oldestEntry k s.index with
    | none => (s, c)
    | some e =>
      let s1 := { s with index := s.index.filter (· != e) }
      let s2 := match s1.arenas.find k with
        | some x => s1.setArena k (x.dropRef e.blk)
        | none => s1
      s2.evictIndex k n (c + 1)

/-- IXEVICT. -/
def execIxevict (s : State) : Out :=
  if !s.running 0x15 then .next s
  else
    let k := s.argA 0
    let n := s.argA 1
    if (s.arenas.find k).isNone then s.cmdFail (sysStatus 5 0)
    else if n = 0 ∨ 262144 < n then s.cmdFail (badArg 1)
    else
      let (t, c) := s.evictIndex k (min n s.index.length) 0
      t.cmdOk c

/-- PGEMPTY. -/
def execPgempty (s : State) : Out :=
  if !s.running 0x16 then .next s
  else
    let (k, slot, j) := pageArg (s.argA 0)
    match s.arenas.find k with
    | none => s.cmdFail (sysStatus 5 0)
    | some x =>
      if !x.inside slot j then s.cmdFail (badArg 0)
      else if (match x.repair.find slot with
          | some r => decide (r.pos < 256 * (j + 1) ∧ 256 * j < r.pos + r.count)
          | none => false) then s.cmdFail (sysStatus 8 0)
      else if x.pagePinned slot j then .next s
      else
        let g := x.page slot j
        let x1 := match g.kind with
          | .shared b => x.dropRef b
          | _ => x
        let lo := 2 ^ 20 * slot + 256 * j
        let x2 := { x1.setPage slot j { g with kind := .empty, vmask := 0, pagingIn := false } with
          prov := x1.prov.filter fun e => !decide (lo ≤ e.1 ∧ e.1 < lo + 256) }
        let s1 := s.setArena k (x2.fixNpos slot)
        -- a page-in that was running for the page has nothing left to bring
        let s2 := if g.pagingIn then (s1.kvs.map (·.id)).foldl (fun t i => t.afterPageIn k slot j true i) s1 else s1
        s2.cmdOk 0

/-! Flows (R374) -/

/-- The key in A1 to A5. -/
def State.flowArg (s : State) : BitVec 320 :=
  BitVec.ofNat 320 (s.argA 1 + s.argA 2 * 2 ^ 64 + s.argA 3 * 2 ^ 128 + s.argA 4 * 2 ^ 192 + s.argA 5 * 2 ^ 256)

/-- FLOWSET. -/
def execFlowset (s : State) : Out :=
  if !s.running 0x20 then .next s
  else
    let key := s.flowArg
    let l := AMap.get [] s.flows (flowBucket key)
    if 16384 ≤ s.argA 0 then s.cmdFail (badArg 0)
    else if bits key.toNat 31 8 ≠ 0 then s.cmdFail (badArg 1)
    else if l.any fun e => e.1 == key then
      { s with flows := s.flows.put (flowBucket key) (l.map fun (e : BitVec 320 × Nat) => if e.1 = key then (key, s.argA 0) else e) }.cmdOk 0
    else if 4 ≤ l.length then s.cmdFail (sysStatus 4 0)
    else { s with flows := s.flows.put (flowBucket key) (l ++ [(key, s.argA 0)]) }.cmdOk 0

/-- FLOWDEL. -/
def execFlowdel (s : State) : Out :=
  if !s.running 0x21 then .next s
  else
    let key := s.flowArg
    let l := AMap.get [] s.flows (flowBucket key)
    if l.any fun e => e.1 == key then { s with flows := s.flows.put (flowBucket key) (l.filter fun e => e.1 != key) }.cmdOk 0
    else s.cmdFail (sysStatus 5 0)

/-! Partitions and link tables -/

/-- The first field of a partition image that breaks its width or a reserved bit, or would have a dirty bitmap in the flash region, which is
never written (R336). -/
def partFault (l : List Byte) : Option Nat :=
  let f := fieldLe l
  let pa := fun (o : Nat) => decide (f o 8 % 4096 = 0 ∧ f o 8 < 2 ^ 48)
  let checks : List (Nat × Bool) :=
    [(0x00, decide (f 0 8 < 2)), (0x08, pa 0x08), (0x22, decide (f 0x22 2 < 2)), (0x24, f 0x24 4 == 0), (0x28, pa 0x28 && !isFlash (f 0x28 8)),
     (0x34, f 0x34 4 == 0)]
  (checks.find? fun c => !c.2).map (·.1)

/-- The arenas of a partition's tenants (R329). -/
def State.arenasOf (s : State) (p : Nat) : AMap Arena :=
  s.arenas.filter fun e => s.mxs.any fun m => m.2.st != .free && m.2.part == p && m.2.tenant == e.2.tenant

/-- An address of attention-side HBM that an arena's slots or its pool of shared blocks take up. -/
def Arena.takes (x : Arena) (a : Nat) : Bool :=
  decide (x.base ≤ a ∧ a < x.base + x.nslot * x.sstr) || decide (x.sbbase ≤ a ∧ a < x.sbbase + 256 * x.recBytes * x.nsb)

/-- The addresses of attention-side HBM that a page takes up: none for a TIER page, whose frame firmware copies with the others (R351). -/
def Arena.pageSpan (x : Arena) (slot j : Nat) : Nat × Nat :=
  match (x.page slot j).kind with
  | .shared b => (x.sbbase + 256 * x.recBytes * b, 256 * x.recBytes)
  | .tier _ => (0, 0)
  | _ => (x.base + slot * x.sstr + 256 * j * x.pstr, 256 * x.pstr)

/-- An address lies in a page that a command has written since the last round. -/
def Arena.newer (x : Arena) (a : Nat) : Bool :=
  x.pages.any fun e => e.2.dirty &&
    (let w := x.pageSpan (e.1 / 4096) (e.1 % 4096)
     decide (w.1 ≤ a ∧ a < w.1 + w.2))

/-- No page of an arena has been written since. -/
def Arena.clean (x : Arena) : Arena := { x with pages := x.pages.map fun e => (e.1, { e.2 with dirty := false }) }

/-- The first round of a migration: the chiplet's copy path moves every page of an arena (R351 step 2). -/
def Arena.firstRound (x : Arena) (attn : Memory) : Arena := { x.clean with moved := some (attn.filter fun c => x.takes c.1) }

/-- A further round: the pages whose dirty bits are set are moved, and the bits cleared (R351 steps 3 and 5). Without a first round there is none. -/
def Arena.round (x : Arena) (attn : Memory) : Arena :=
  match x.moved with
  | none => x
  | some m =>
    { x.clean with moved := some ((attn.filter fun c => x.takes c.1 && x.newer c.1).foldl (fun (a : Memory) c => a.write c.1 c.2)
        (m.filter fun c => !x.newer c.1)) }

/-- The bytes of an arena that a migration has moved when it ends, with a last round; where no round was begun, all of them are moved then. -/
def Arena.movedBytes (x : Arena) (attn : Memory) : Memory := ((x.round attn).moved).getD (attn.filter fun c => x.takes c.1)

/-- A round over the arenas of a partition. -/
def State.arenasRound (s : State) (p : Nat) : State := (s.arenasOf p).foldl (fun t e => t.setArena e.1 (e.2.round s.attn)) s
def State.arenasFirst (s : State) (p : Nat) : State := (s.arenasOf p).foldl (fun t e => t.setArena e.1 (e.2.firstRound s.attn)) s

/-- An arena whose migration has ended. -/
def Arena.settled (x : Arena) : Arena := { x.clean with moved := none }
def State.arenasClean (s : State) (p : Nat) : State := (s.arenasOf p).foldl (fun t e => t.setArena e.1 e.2.settled) s

/-- PARTSET: the column masks of two active partitions never share a bit (R328). Setting DLOG starts the rounds of a migration, with a first one over the pages of its arenas (R351). -/
def execPartset (s : State) : Out :=
  if !s.running 0x30 then .next s
  else
    let p := s.argA 0
    if 16 ≤ p then s.cmdFail (badArg 0)
    else if s.paFails (s.argA 1) 56 then s.cmdFail (faultArg 1)
    else
      let l := s.peek (s.argA 1) 56
      let f := fieldLe l
      match partFault l with
      | some o => s.cmdFail (sysStatus 2 o)
      | none =>
        let act := f 0 8 == 1
        let cola := BitVec.ofNat 64 (f 0x10 8)
        let colb := BitVec.ofNat 64 (f 0x18 8)
        if act && s.parts.any fun e => e.1 != p && e.2.active && ((e.2.cola &&& cola) != 0 || (e.2.colb &&& colb) != 0) then
          s.cmdFail (sysStatus 3 0)
        else
          ((if f 0x22 2 == 1 && !(s.part p).dlog then s.arenasFirst p else s).setPart p
            { s.part p with
              active := act, s2root := BitVec.ofNat 64 (f 8 8), cola := cola, colb := colb, waymask := BitVec.ofNat 16 (f 0x20 2),
              dlog := f 0x22 2 == 1, dbase := BitVec.ofNat 64 (f 0x28 8), dlen := BitVec.ofNat 32 (f 0x30 4) }).cmdOk 0

/-- SHTSET: a pending table and its activation frame. DESIGN CHOICE (log 38): a frame that runs or has passed stands for the next one. -/
def execShtset (s : State) : Out :=
  if !s.running 0x31 then .next s
  else
    let e := s.argA 0
    if 25 ≤ e then s.cmdFail (badArg 0)
    else if s.paFails (s.argA 1) 256 then s.cmdFail (faultArg 1)
    else
      let l := s.peek (s.argA 1) 256
      match (List.range 64).find? fun i => bits (fieldLe l (4 * i) 4) 30 4 != 0 with
      | some i => s.cmdFail (sysStatus 2 (4 * i))
      | none =>
        let s1 := s.settleShut
        { s1 with shutPend := s1.shutPend.put e ((List.range 64).map fun i => BitVec.ofNat 32 (fieldLe l (4 * i) 4), s.shutFrom (s.argA 2)) }.cmdOk 0

/-- SHUTTER_TABLE_ACTIVATION: the pending tables whose frame has begun become the tables of their egresses, all at once (R347). The egresses use
them from the start of that frame on, whenever this row runs. -/
def execShutterTableActivation (egress : Nat) (s : State) : Out := .next (if (s.shutPend.find egress).isSome then s.settleShut else s)

/-- An entry of Table 17.4. -/
def MullSlot.word (x : MullSlot) : Nat := if x.valid then 2 ^ 31 + x.tier % 4 * 2 ^ 28 + x.mx % 16384 else 0

/-- SLOTRD. -/
def execSlotrd (s : State) : Out :=
  if !s.running 0x32 then .next s
  else
    let a := s.argA 0
    let key := 16 * (64 * bits a 8 8 + bits a 5 0)
    if s.paUnwritable (s.argA 1) 64 then s.cmdFail (faultArg 1)
    else
      (s.poke (s.argA 1) ((List.range 16).flatMap fun k => leBytes 4 (AMap.get MullSlot.reset s.mull (key + k)).word)).cmdOk 0

/-! Attestation (R377) -/

/-- VKSET. -/
def execVkset (s : State) : Out :=
  if !s.running 0x40 then .next s
  else if 2 ^ 16 ≤ s.argA 0 then s.cmdFail (badArg 0)
  else if s.paFails (s.argA 1) 64 then s.cmdFail (faultArg 1)
  else { s with vkeys := s.vkeys.put (s.argA 0) (BitVec.ofNat 512 (beNat (s.peek (s.argA 1) 64))) }.cmdOk 0

/-- The body of a quote. -/
def State.quoteBody (s : State) (m : Nat) (nonce : List Byte) : List Byte :=
  let x := s.mx m
  leBytes 2 m ++ leBytes 2 x.part ++ leBytes 4 x.tenant.toNat ++ leBytes 8 x.gen.toNat ++ nonce ++ beBytes 32 x.meas.toNat
    ++ beBytes 32 s.fwHash.toNat ++ leBytes 8 s.dclk.toNat ++ leBytes 8 0

/-- QUOTE. -/
def execQuote (s : State) : Out :=
  if !s.running 0x41 then .next s
  else
    let m := s.argA 0
    if 16384 ≤ m then s.cmdFail (badArg 0)
    else if s.paFails (s.argA 1) 32 then s.cmdFail (faultArg 1)
    else if s.paUnwritable (s.argA 2) 192 then s.cmdFail (faultArg 2)
    else
      let b := s.quoteBody m (s.peek (s.argA 1) 32)
      let (r, t) := sm2Sign identityKey (Config.signNonce s.fresh).toNat (sm3Bytes b)
      ({ s with fresh := s.fresh + 1 }.poke (s.argA 2) (b ++ beBytes 32 r ++ beBytes 32 t)).cmdOk 0

end Sys2Proof.Machine
end

