-- ==== Sys2Proof/Machine/Migrate.lean ====
section
/-! DEFINITION. Live migration (R351 to R354, Table 18.11): the pause of a partition, its export and import, and its resume. -/

namespace Sys2Proof.Machine

open Sys2Proof

/-- Micro-contexts of a partition that exist. -/
def State.mxsOf (s : State) (p : Nat) : List Nat := (s.mxs.filter fun e => e.2.part == p && e.2.st != .free).map (·.1)

/-- The partition of a running migration command, when it is active. -/
def State.migPart (s : State) : Option Nat := if s.argA 0 < 16 ∧ (s.part (s.argA 0)).active then some (s.argA 0) else none

/-! Pause (R353) -/

/-- Every sequencer of the micro-context has stopped, what it issued is performed, its KV commands are complete, and a save of it has been
written. -/
def State.mxQuiet (s : State) (m : Nat) : Bool :=
  let x := s.mx m
  (x.st != .bound || (s.teamStopped m false && (x.ending.isNone || x.ending == some .drain)))
    && !s.stopPending m && !s.accessPending m && x.drain.isNone
    && (s.reqs.all fun r => r.mx != m || r.performed)
    && (s.kvs.all fun k => k.ref.mx != m) && (s.installs.all fun i => i.ref.mx != m)
    && (s.devWrites.all fun w => w.mx != m) && s.copies.all fun c => c.ref.mx != m || (match c.kind with | .redm _ => false | _ => true)

/-- A micro-context that a pause takes to PAUSED. -/
def MxSt.pauses : MxSt → Bool
  | .free => false
  | .faulted => false
  | .paused => false
  | _ => true

/-- The transitions out of these states advance the generation (R25). -/
def MxSt.advances : MxSt → Bool
  | .bound => true
  | .swapped => true
  | .saved => true
  | .paused => true
  | _ => false

def Mx.pause (x : Mx) : Mx :=
  if x.st.pauses then
    let y := { x with prev := x.st, st := .paused, reserved := none }
    if x.st.advances then { y with gen := x.gen + 1, pegen := x.nextPegen } else y
  else x

/-- PPAUSE: a round over the arenas (R351 step 3); the sequencers stop at their block boundaries; when all is quiet the copies in flight are frozen and the micro-contexts go to
PAUSED. -/
def execPpause (s : State) : Out :=
  if !s.running 0x33 then .next s
  else
    match s.migPart with
    | none => s.cmdFail (sysStatus 5 0)
    | some p =>
      let r := s.part p
      if r.paused then s.cmdFail (sysStatus 8 0)
      else if !r.pausing then .next ((s.arenasRound p).setPart p { r with pausing := true })
      else
        let ms := s.mxsOf p
        if !(ms.all s.mxQuiet) then .next s
        else
          let s1 := { s with copies := s.copies.map fun c => if ms.contains c.ref.mx then { c with frozen := true } else c }
          let s2 := ms.foldl (fun (t : State) m => t.setMx m (t.mx m).pause) s1
          (s2.setPart p { r with pausing := false, paused := true }).cmdOk 0

/-! Export and import (Table 18.11) -/

/-- Casements a team owns, with their places in its tile group. -/
def State.teamPanes (s : State) (m : Nat) : List (Nat × Nat × Casement) :=
  match (s.mx m).team with
  | none => []
  | some t =>
    (s.teamCores t).filterMap fun g =>
      let w := (s.core g.2.2).cw
      if w.owner == some m then some (g.1, g.2.1, w) else none

/-- A micro-context as an image carries it: of a team that held a tile group before the pause its streams, windows and casements; of a saved or
swapped one its save area holds the rest. -/
def State.carried (s : State) (m : Nat) : Mx :=
  let x := s.mx m
  match x.st, x.prev with
  | .paused, .bound =>
    let im : Image :=
      { kind := .ckpt, streams := s.teamImage m, inShutter := true, drained := true, gen := x.gen, stamp := s.dclk.toNat,
        panes := s.teamPanes m, homeless := true }
    { x with image := some im, ending := none }
  | .paused, .swapped => { x with image := x.image.map fun im => { im with inShutter := false, panes := s.teamPanes m, homeless := true } }
  | _, _ => { x with image := x.image.map fun im => { im with inShutter := false, homeless := true } }

/-- Columns set in a mask. -/
def columnsIn (m : Word) : Nat := ((List.range 64).filter m.getLsbD).length

/-- Event `i` from the oldest whose record still stands in the store. -/
def State.recordFromOldest (s : State) (i : Nat) : List Byte :=
  s.records.readN (64 * ((s.eventCount - min 1024 s.eventCount + i) % 1024)) 64

/-- A record is that of a stream which the pause has found held. -/
def State.ofHeld (s : State) (m : Nat) (l : List Byte) : Bool :=
  (s.teamSlots m).any fun e => (s.stream e.1 e.2).held && fieldLe l 4 2 == e.1 && fieldLe l 0x2B 1 == (s.stream e.1 e.2).tsidx

/-- The records of the held faults of a micro-context whose BOUND team the pause has stopped: those of its held streams, of its generation before the
pause, in the order in which they were queued (R381, R394). -/
def State.heldRecords (s : State) (m : Nat) : List (Nat × Nat × List Byte) :=
  ((List.range (min 1024 s.eventCount)).map s.recordFromOldest).filterMap fun l =>
    let c := fieldLe l 0 2
    if 1 ≤ c ∧ c ≤ 0x0D ∧ fieldLe l 0x28 2 = m ∧ fieldLe l 0x2C 4 = ((s.mx m).gen - 1).toNat ∧ (s.mx m).prev = .bound ∧ s.ofHeld m l then some (c, m, l) else none

/-- The lost values of a partition's streams. -/
def State.lostValues (s : State) (p : Nat) : List Req :=
  s.reqs.filter fun r => r.ref.isSome && (s.mxsOf p).contains r.mx && r.performed && r.err.isSome

/-- The state that an export carries (Table 18.11); the column count is that of the partition's masks (log 51). -/
def State.migImage (s : State) (p : Nat) : MigImage :=
  { num := s.fresh, dclk := s.dclk.toNat, ltb := s.ltb.toNat, cols := columnsIn (s.part p).cola + columnsIn (s.part p).colb
    attn := (s.arenasOf p).flatMap fun e => e.2.movedBytes s.attn
    mxs := (s.mxsOf p).map fun m => (m, s.carried m), copies := s.copies.filter fun c => (s.mxsOf p).contains c.ref.mx,
    faults := (s.mxsOf p).flatMap s.heldRecords, lost := s.lostValues p
    arenas := (s.arenasOf p).map fun e => (e.1, e.2.settled), s2root := (s.part p).s2root, waymask := (s.part p).waymask }

/-- The bytes of the image numbered `n`. -/
def migBytes (n : Nat) : List Byte := opaqueBytes (Config.migLength n) n

/-- PEXPORT: the image is written at PA; with the export complete, the teams' resources are released and scrubbed (R338), and every page of the
arenas has been moved, those written since the last round with it (R351 step 5). Arenas that hold an uncorrectable block are not exported: DESIGN
CHOICE (log 47), FAULT of the partition. -/
def execPexport (s : State) : Out :=
  if !s.running 0x35 then .next s
  else
    match s.migPart with
    | none => s.cmdFail (sysStatus 5 0)
    | some p =>
      let pa := s.argA 1
      if !(s.part p).paused then s.cmdFail (sysStatus 8 0)
      else if (s.arenasOf p).any fun e => s.attnBad.any fun b => e.2.takes (64 * b) then s.cmdFail (faultArg 0)
      else if s.paUnwritable pa (Config.migLength s.fresh) then s.cmdFail (faultArg 1)
      else if !s.paUp pa (Config.migLength s.fresh) then .next s
      else
        let im := s.migImage p
        let s1 := { s with fresh := s.fresh + 1, exports := im :: s.exports }.poke pa (migBytes s.fresh)
        let one := fun (t : State) (m : Nat) =>
          let u := if (t.mx m).st == .paused && ((t.mx m).prev == .bound || (t.mx m).prev == .swapped) then t.releaseTeam m false none else t
          u.setMx m { u.mx m with exported := true }
        (((s.mxsOf p).foldl one s1).arenasClean p).cmdOk 0

/-- What the image at a PA holds: an export of this DU5, or what another DU5 wrote, which only the bytes determine. -/
def State.imageAt (s : State) (pa : Nat) : MigImage :=
  match s.exports.find? fun im => s.peek pa (Config.migLength im.num) == migBytes im.num with
  | some im => im
  | none => Config.foreignImage (s.peek pa (Config.migLength 0))

/-- TOFF of a micro-context of an image on this DU5: guest time goes on by the time of the scale-up domain that has passed, up to a microsecond
(R344). The link time base counts nanoseconds, five to four cycles. -/
def State.movedToff (s : State) (im : MigImage) (t : Word) : Word :=
  let passed : Int := 4 * ((s.ltb.toNat : Int) - im.ltb) / 5
  wordOfInt (t.toInt + ((s.dclk.toNat : Int) - im.dclk - passed) / 800 * 800)

/-- The bytes that an image brings for its arenas, in place of what attention-side HBM held there. -/
def MigImage.attnOver (im : MigImage) (m : Memory) : Memory :=
  im.attn.foldl (fun m c => Memory.write m c.1 c.2) (m.filter fun c => !(im.arenas.any fun e => e.2.takes c.1))

/-- A micro-context as a migration brings it: PAUSED, or FAULTED, which no pause changes (R25). -/
def Mx.arrive (x : Mx) (p : Nat) (toff : Word) : Mx :=
  { x with part := p, st := if x.st = .faulted then .faulted else .paused, exported := false, toff := toff, lastTg := none, reserved := none }

/-- PIMPORT: micro-contexts and arenas take their numbers, which must be free; copies and lost values take new operation numbers, and the records of
held faults, which the resume points wait for, are queued (R394). -/
def execPimport (s : State) : Out :=
  if !s.running 0x36 then .next s
  else
    match s.migPart with
    | none => s.cmdFail (sysStatus 5 0)
    | some p =>
      let pa := s.argA 1
      let im := s.imageAt pa
      if s.paFails pa (Config.migLength im.num) then s.cmdFail (faultArg 1)
      else if !s.paUp pa (Config.migLength im.num) then .next s
      else if (im.mxs.any fun e => (s.mx e.1).st != .free) || (im.arenas.any fun e => (s.arenas.find e.1).isSome) then
        s.cmdFail (sysStatus 3 0)
      else
        let mxs := im.mxs.foldl (fun (a : AMap Mx) (e : Nat × Mx) => a.put e.1 (e.2.arrive p (s.movedToff im e.2.toff))) s.mxs
        let cs := im.copies.zipIdx.map fun c => { c.1 with id := s.nextId + c.2, frozen := true, gens := [] }
        let lost := im.lost.zipIdx.map fun r => { r.1 with id := s.nextId + im.copies.length + r.2 }
        let s1 := { s with
          mxs := mxs, attn := im.attnOver s.attn, attnBad := s.attnBad.filter fun b => !im.arenas.any fun e => e.2.takes (64 * b), copies := s.copies ++ cs, reqs := s.reqs ++ lost,
          nextId := s.nextId + im.copies.length + im.lost.length,
          arenas := im.arenas.foldl (fun (a : AMap Arena) (e : Nat × Arena) => a.put e.1 e.2) s.arenas }
        -- the records of held faults are queued here as the events that they were (log 58)
        let s2 := im.faults.foldl (fun (t : State) e => t.queueEvent e.1 e.2.1 e.2.2) s1
        (s2.setPart p { s2.part p with s2root := im.s2root, waymask := im.waymask, paused := true, imported := true }).cmdOk 0

/-! Resume (R354) -/

def Mx.unpause (x : Mx) : Mx := { x with st := x.prev, gen := x.gen + 1, pegen := x.nextPegen, exported := false }

/-- The tile group that a team brought by a migration takes: the first of its search that is free (log 58). -/
def State.newHome (s : State) (m : Nat) : Option (Nat × Nat) :=
  match (s.mx m).team with
  | some t => (s.searchGroups m t.lr).find? fun g => s.groupFree m t.lr g
  | none => none

/-- A team that a migration has brought takes its tile group, with its mullion slots and casements: one that was BOUND before the pause runs on
there, a SWAPPED one waits for its return there. Where no group is free, it stays PAUSED until one is (log 58). -/
def State.settleTeam (s : State) (m : Nat) : State :=
  let x := s.mx m
  match x.image, x.team with
  | some im, some t =>
    match s.newHome m with
    | none => s
    | some g =>
      let t1 := { t with stack := g.1, col := g.2 }
      let s1 := (s.setMx m { x with team := some t1 }).takeMull m t1
      if x.prev = .bound then s1.restoreTeam m
      else
        let s2 := s1.placePanes m t1 im.panes
        s2.setMx m { (s2.mx m).unpause with image := some { im with panes := [], homeless := false } }
  | _, _ => s.setMx m x.unpause

/-- A team whose streams a migration has brought, or a swapped one's image, that has no tile group yet. -/
def Mx.homeless (x : Mx) : Bool :=
  x.st == .paused && (x.prev == .bound || x.prev == .swapped) && match x.image with | some im => im.homeless | none => false

/-- One micro-context of a paused partition goes on to the state it held before the pause (R25); one that enters IDLE has its launch record fetched
(R308). A team without a tile group stays PAUSED while none is free. -/
def State.resumeMx (s : State) (imported : Bool) (m : Nat) : State :=
  let x := s.mx m
  if x.st ≠ .paused ∨ (x.homeless && (s.newHome m).isNone) = true then s
  else
    let s1 := if imported && (x.prev == .bound || x.prev == .swapped) then s.settleTeam m else s.setMx m x.unpause
    let s2 := if imported then s1.postEvent m evMig (s1.mx m).gen.toNat else s1
    let s3 := s2.replayCopies m
    if x.prev = .idle then s3.prefetchRecord m else s3

/-- A team of a resumed partition that found no free tile group goes on once there is one. -/
def State.resumeHomeless (s : State) (m : Nat) : State :=
  if (s.mx m).homeless && !(s.part (s.mx m).part).paused then s.resumeMx true m else s

/-- A message the ingress held reaches its ring, or a launch of another DU5 is answered (log 46). -/
def State.ingestHeld (s : State) (l : List Byte) : State :=
  let f := fieldLe l
  if f 0 1 = 255 then s.remoteLaunch (f 1 2) (f 3 1) (sliceBytes l 4 64) (l.drop 68)
  else s.ingest (f 0 1) (BitVec.ofNat 320 (f 1 40)) (l.drop 41)

/-- What the ingress held can be taken: the entry of its target's ring is served now, and the answer to a launch of another DU5 may leave (R328,
R346, R418). -/
def State.heldOpen (s : State) (l : List Byte) : Bool :=
  let f := fieldLe l
  if f 0 1 = 255 then
    let m := fieldLe (sliceBytes l 4 64) 0 2 % 16384
    (s.noTarget m (f 1 2) (f 3 1) || s.ringUp m) && s.scaleOpenFor (if (s.mx m).st = .free then 15 else (s.mx m).part)
  else
    let msg := l.drop 41
    msgHdrBad msg || (match s.msgTarget (BitVec.ofNat 320 (f 1 40)) msg with | some m => s.takesUp m | none => true)

/-- PRESUME: an exported partition resumes elsewhere only. It ends when what the ingress held for the partition can be taken. -/
def execPresume (s : State) : Out :=
  if !s.running 0x34 then .next s
  else
    match s.migPart with
    | none => s.cmdFail (sysStatus 5 0)
    | some p =>
      let r := s.part p
      let ms := s.mxsOf p
      if !r.paused || (ms.any fun m => (s.mx m).exported) then s.cmdFail (sysStatus 8 0)
      else if !r.heldMsgs.all s.heldOpen then .next s
      else
        let s1 := s.setPart p { r with paused := false, imported := false, heldMsgs := [], forwarding := false }
        let s2 := ms.foldl (fun (t : State) m => t.resumeMx r.imported m) s1
        (r.heldMsgs.foldl (fun t l => t.ingestHeld l) s2).cmdOk 0

end Sys2Proof.Machine
end

