-- ==== Sys2Proof/Machine/Tier.lean ====
section
/-! DEFINITION. The tier exchange engine (R392, R393), the cold-start engine (R318, R319, R411), and what the DU5 samples and reports of
itself (R321, R343). -/

namespace Sys2Proof.Machine

open Sys2Proof

/-! Tier exchange -/

/-- The stage-2 leaf at a physical address: frame base, size, ENC, with its 64-bit word. -/
def State.leafAt (s : State) (pa : Nat) : Option (Nat × Nat × Bool × Nat) :=
  let w := leNat (s.peek pa 8)
  match (List.range 3).filterMap fun lv => match pteOf 2 lv w with | .leaf l => some l | _ => none with
  | l :: _ => if s.populated pa && !(s.badBlk (pa / 64)) then some (l.base, l.size, l.enc, w) else none
  | [] => none

/-- A frame of the range is write-locked. -/
def State.anyLocked (s : State) (pa n : Nat) : Bool :=
  (s.segs.any fun e => e.2.frames.any fun f => decide (pa ≤ 4096 * f ∧ 4096 * f < pa + n))
    || (s.mxs.any fun e => e.2.locks.any fun f => decide (pa ≤ 4096 * f ∧ 4096 * f < pa + n))

/-- TLB entries that map a frame of the exchange go, as by a stage-2 TLBI, and with them the stage-2 walk-cache entries of the partition. -/
def State.dropExchanged (s : State) (x : Exchange) : State :=
  { s with cores := s.cores.map fun (e : Nat × Core) =>
      (e.1, { e.2 with tlb := e.2.tlb.filter fun t => !x.maps t, wcache := e.2.wcache.filter fun t => t.part != x.part || t.stage != 2 }) }

/-- A request that reads and writes at its home. -/
def Req.isAtomic (r : Req) : Bool := match r.op with | .atomic .. => true | _ => false

/-- A request's address lies in the frame at `a`. -/
def Req.inFrame (r : Req) (a n : Nat) : Bool := (spAlias r.va).isNone && !r.isFence && decide (a ≤ r.pa ∧ r.pa < a + n)

/-- The engine reaches leaves and frames now: their homes READY (R418), in a slot (R328) and the turns (R348) of the partition whose frames they are. -/
def State.engineOpen (s : State) (p : Nat) (l : List (Nat × Nat)) : Bool :=
  (l.all fun e => s.paUp e.1 e.2) && s.homeServes p && s.turnAt p (spanResources l)

/-- TIER_EXCHANGE: the freeze of two frames of one size, one in HBM and one in the CXL tier; router entries for them are forwarded. -/
def execTierExchange (part : Nat) (la lb : OwnedLeaf) (s : State) : Out :=
  match s.exchange, s.leafAt la.leaf, s.leafAt lb.leaf with
  | none, some (a, n, _, _), some (b, k, _, _) =>
    if (s.part part).active = false ∨ n ≠ k ∨ a = b then .next s
    else if !((decide (a < hbmEnd) && isCxl b) || (isCxl a && decide (b < hbmEnd))) || s.anyLocked a n || s.anyLocked b n
        || s.frameLocked (la.leaf / 4096) || s.frameLocked (lb.leaf / 4096) || !s.engineOpen part [(la.leaf, 8), (lb.leaf, 8)] then .next s
    else
      let x : Exchange := { part := part, leafA := la.leaf, leafB := lb.leaf, frameA := a, frameB := b, size := n, ownerA := la.owners, ownerB := lb.owners }
      let t := (s.servedAll part (spanResources [(la.leaf, 8), (lb.leaf, 8)])).meets [(la.leaf, 8), (lb.leaf, 8)]
      let s1 := ({ t with exchange := some x }).dropExchanged x
      .next { s1 with reqs := s1.reqs.map fun r =>
        if r.isAtomic && !r.performed && r.merged != [] && (r.inFrame a n || r.inFrame b n) then { r with fwd := true } else r }
  | _, _, _ => .next s

/-- Accesses that hold a translation to one of the frames and are not performed; an atomic or reduction among them goes on at its new home
(R393). -/
def State.exchangeHeld (s : State) (x : Exchange) : Bool :=
  (s.reqs.any fun r => !r.performed && !r.isAtomic && (r.inFrame x.frameA x.size || r.inFrame x.frameB x.size))
    || (s.copies.any fun c => !c.frozen && ((!c.allDone && (c.pages ++ c.dpages).any x.maps) || c.barPage.any x.maps))
    || (s.emits.any fun e => x.maps e.stat)
    || (s.installs.any fun i => x.maps i.crPage || (!i.readDone && i.pages.any x.maps))
    || (s.kvs.any fun k => k.pages.any x.maps) || (s.mxs.any fun e => e.2.savePages.any x.maps || (match e.2.drain with | some d => d.pages.any x.maps | none => false))

/-- The entries that hold a leaf of a page: its replicas, by the address of one of them (R164). -/
def replicas (leaf size : Nat) : List Nat :=
  let n := size / (if size < 0x400000 then 0x1000 else if size < 0x40000000 then 0x200000 else 0x40000000)
  (List.range n).map fun i => leaf / (8 * n) * (8 * n) + 8 * i

/-- A leaf written to every entry of its page. -/
def State.pokeLeaf (s : State) (leaf size w : Nat) : State := (replicas leaf size).foldl (fun t a => t.poke a (leBytes 8 w)) s

/-- An address in one of the frames as the other frame holds it after the exchange. -/
def Exchange.moved (x : Exchange) (pa : Nat) : Nat :=
  if x.frameA ≤ pa ∧ pa < x.frameA + x.size then x.frameB + (pa - x.frameA)
  else if x.frameB ≤ pa ∧ pa < x.frameB + x.size then x.frameA + (pa - x.frameB)
  else pa

/-- What the commit reads and writes: the frames, and every entry that holds one of the leaves. -/
def Exchange.spans (x : Exchange) : List (Nat × Nat) :=
  (x.frameA, x.size) :: (x.frameB, x.size) :: (replicas x.leafA x.size ++ replicas x.leafB x.size).map fun a => (a, 8)

/-- A leaf word with another frame. -/
def leafWith (w base : Nat) : Nat := w - bits w 47 12 * 4096 + base

/-- The key slot that block `i` of a frame is enciphered under: of the owner of its 4 KiB. -/
def State.ownerKey (s : State) (enc : Bool) (owners : List Nat) (i : Nat) : Option Nat :=
  if enc then (owners[i / 64]?.or owners.getLast?).map fun m => (s.mx m).kslot else none

/-- TIER_EXCHANGE_COMMIT: the contents change places, re-enciphered for their new addresses under the keys of their owners, and both
leaves change, with their replicas. -/
def execTierExchangeCommit (s : State) : Out :=
  match s.exchange with
  | none => .next s
  | some x =>
    match s.leafAt x.leafA, s.leafAt x.leafB with
    | some (_, _, encA, wa), some (_, _, encB, wb) =>
      if s.exchangeHeld x || !s.engineOpen x.part x.spans then .next s
      else
        let keyA := s.ownerKey encA x.ownerA
        let keyB := s.ownerKey encB x.ownerB
        let data := (List.range (x.size / 64)).map fun i => (i, s.readBlk (x.frameA / 64 + i) (keyA i), s.readBlk (x.frameB / 64 + i) (keyB i))
        let t := (s.servedAll x.part (spanResources x.spans)).meets x.spans
        let s1 := { t with llc := t.llc.filter fun e => !(rangesMeet (64 * e.1) 64 x.frameA x.size || rangesMeet (64 * e.1) 64 x.frameB x.size) }
        let swap := fun (t : State) (d : Nat × Blk × Blk) =>
          (t.storeBlk (x.frameB / 64 + d.1) (keyA d.1) d.2.1).storeBlk (x.frameA / 64 + d.1) (keyB d.1) d.2.2
        let s2 := data.foldl swap s1
        let move := fun (r : Req) => if r.isAtomic && !r.performed && (spAlias r.va).isNone then { r with pa := x.moved r.pa } else r
        let s3 := { s2 with badBlks := s2.badBlks.map fun b => x.moved (64 * b) / 64, reqs := s2.reqs.map move, exchange := none }
        .next (((s3.pokeLeaf x.leafA x.size (leafWith wa x.frameB)).pokeLeaf x.leafB x.size (leafWith wb x.frameA)).dropExchanged x)
    | _, _ => .next { s with exchange := none }

/-! The cold-start engine -/

/-- A page whose staging fill, or whose home, is not up yet holds the engine. -/
def State.layerWaits (s : State) (x : Xl) : Bool :=
  if isFlash x.pa then
    !s.flashLost x.pa && !(s.staging.contains (extOf x.pa)) && (!s.flashUp || s.badOf (extOf x.pa) != [])
  else !s.homeReady x.pa

/-- One page of entry `i` brought nearer: its extent into the staging cache, or its blocks into the last-level cache. -/
def State.layerFill (s : State) (m i : Nat) (x : Xl) : State :=
  if isFlash x.pa then
    let e := extOf x.pa
    if s.flashLost x.pa || s.staging.contains e then s
    else
      let u := (s.countReads e).stage e
      if u.staging.contains e then { u with ahead := u.ahead.put e (m, i) } else u
  else s.fillFrame m x.pa x.enc 64

/-- COLD_START_FILL: the next entry of the layer-order list, at most four entries and 4 GiB ahead of the highest accessed one; of an entry
outside the flash region the first 4 MiB. The engine stops where its team is being stopped (R319). -/
def execColdStartFill (m : Nat) (s : State) : Out :=
  let x := s.mx m
  match x.st, x.team with
  | .bound, some t =>
    let i := x.coldNext
    if x.ending.isSome || !t.mayFill x.coldHigh i then .next s
    else
      let skip := fun (u : State) => Host.Outcome.next (u.setMx m { (u.mx m).bump 2 1 with coldNext := i + 1 })
      match (t.layers.getD i none) with
      | none => skip s
      | some (va, n) =>
        match s.layerPages m (n / 4096) va with
        | none => skip s
        | some ps =>
          let todo := if ps.all fun p => isFlash p.pa then ps else (ps.take 1024).filter fun p => !isFlash p.pa
          let l := spanResources (todo.map fun p => (p.pa, 4096))
          if todo.any s.layerWaits || !s.homeServes x.part || !s.turnAt x.part l then .next s
          else
            let lost := (todo.filter fun p => isFlash p.pa && s.flashLost p.pa).length
            let u := todo.foldl (fun (u : State) p => u.layerFill m i p) s
            .next ((u.servedAll x.part l).setMx m { (u.mx m).bump 2 lost with coldNext := i + 1 })
  | _, _ => .next s

/-! Samples and reports -/

/-- The samples that a time has not been taken yet, newest first: one at each multiple of 1.024 ms (R343). -/
def State.sampleShared (s : State) : State :=
  { s with samples := List.replicate (s.dclk.toNat / epochCycles - s.samples.length) s.shared ++ s.samples }

/-- SHARED_COUNTER_SAMPLE: the sample of a multiple of 1.024 ms; the passing of time takes it in the cycle of the multiple. -/
def execSharedCounterSample (s : State) : Out := .next s.sampleShared

/-- A tile group on which nothing is held. -/
def State.groupEmpty (s : State) (g : Nat × Nat) (n : Nat) : Bool :=
  ((List.range n).all fun k => s.columnUsable g.1 (g.2 + k) && decide ((s.freeMull g.1 (g.2 + k)).length = 16))
    && ((s.groupCores g.1 g.2 n).all fun c =>
      decide ((s.core c.2.2).freeSlots.length = 8 ∧ (s.freeBanks c.2.2).length = 48) && (s.core c.2.2).cw.owner.isNone)
    && s.mxs.all fun e => match e.2.reserved with | some h => !groupsMeet g n h (s.colsOf e.1) | none => true

/-- Free tile groups of a size. -/
def State.freeGroups (s : State) (n : Nat) : Nat :=
  ((alignedGroups 0 n ++ alignedGroups 1 n).filter fun g => s.groupEmpty g n).length

/-- Table 17.7. -/
def State.residencyRecord (s : State) : List Byte :=
  let count := fun (p : MxSt → Bool) => (s.mxs.filter fun e => p e.2.st).length
  leBytes 2 Config.deviceNumber ++ leBytes 2 (s.enabledCols 0 + 256 * s.enabledCols 1)
    ++ ([1, 2, 4, 8, 16, 32, 64].flatMap fun n => leBytes 2 (s.freeGroups n))
    ++ leBytes 2 (count fun x => x == .ready || x == .saved) ++ leBytes 2 (count fun x => x == .bound || x == .swapped) ++ leBytes 2 0
    ++ leBytes 8 ((stagingCapacity - s.staging.length) * extBytes) ++ leBytes 8 s.dclk.toNat ++ leBytes 24 0

/-- The fields whose change is reported at once: all but the counts and the time. -/
def reportKey (l : List Byte) : List Byte := sliceBytes l 0 4 ++ sliceBytes l 0x18 8

/-- A report to a node address is due: once every 1.024 ms, and at once on a change. -/
def State.reportDue (s : State) (n : Nat) (r : List Byte) : Bool :=
  match s.residency.find? fun e => e.1 == n with
  | none => true
  | some (_, l) => decide (fieldLe l 0x20 8 / epochCycles < s.dclk.toNat / epochCycles) || reportKey l != reportKey r

/-- RESIDENCY_REPORT: the record to every configured node for which it is due and whose Ethernet port stands in a slot of the system
partition, 64 bytes at 100 bytes a nanosecond. -/
def execResidencyReport (s : State) : Out :=
  let r := s.residencyRecord
  let out := Config.rackNodes.filter fun n => s.reportDue n r && s.mayLeave (20 + Config.nodePort n % 4) 15 1
  .next { s with residency := out.map (fun n => (n, r)) ++ s.residency }

end Sys2Proof.Machine
end

