-- ==== Sys2Proof/Machine/Device.lean ====
section
/-! DEFINITION. The device as a whole: machine checks and retired columns, spares (R413 to R417), readiness (R418), throttling and thermal
records (R419, R420), the host link (R422), scale-up and memory-tier links (R424), and boot (R425). -/

namespace Sys2Proof.Machine

open Sys2Proof

/-! Machine checks and columns -/

/-- MCHECK: the summary and its event; a residue retirement or an uncorrectable error in architected state starts the retirement of the
core's column. -/
def execMcheck (kind unit : Nat) (detail : BitVec 32) (core : Option Nat) (s : State) : Out :=
  if kind = 0 ∨ 8 < kind then .next s
  else
    let s1 := s.machineCheck kind (unit % 256) detail.toNat core
    match core with
    | some c => .next (if kind = 1 ∨ kind = 3 then s1.retireCore c else s1)
    | none => .next s1

/-- The four cores of a logical column. -/
def State.columnCores (s : State) (stack col : Nat) : List Nat := (List.range 4).map fun t => s.coreOf stack t col

/-- A micro-context holds something on a column: a slot, a casement, a region of a shutter store, or a mullion slot. -/
def State.holdsColumn (s : State) (m stack col : Nat) : Bool :=
  ((List.range 16).any fun k =>
      let e := AMap.get MullSlot.reset s.mull (16 * (64 * stack + col) + k)
      e.valid && e.mx == m)
    || (s.columnCores stack col).any fun c =>
      ((s.core c).streams.any fun e => e.2.mx == some m) || (s.core c).cw.owner == some m || (s.core c).shutter.any fun r => r.mx == m

/-- It holds something on a retiring column of its group. -/
def State.holdsRetiring (s : State) (m : Nat) (t : Team) : Bool :=
  (List.range t.lr.tgcols).any fun k => s.retiring.contains (64 * t.stack + t.col + k) && s.holdsColumn m t.stack (t.col + k)

/-- A team that holds resources on a retiring column is acted on by its launch record (R414 step 2), one that a drain or a swap is stopping too. One
that goes to FAULTED has an MCHECK event of its own as its record, with the latest summary (log 56). A swapped team whose image has no checkpoint
to be and may be started again is killed; Table 2.1 gives any other no way out but its return to its cores, where it is acted on as BOUND, and the loss of
its group (`saveLost`, log 57). -/
def State.actOnRetired (s : State) (m : Nat) : State :=
  let x := s.mx m
  match x.team with
  | none => s
  | some t =>
    let fault := (s.queueEvent 0x81 m (s.eventRecord 0x81 0 none 0 s.mcsum.toNat)).goFaulted m
    if !s.groupGone t then s
    else match x.st, x.ending with
      | .bound, none => if t.lr.ckpt then (if s.areaStalls m then s else s.beginSave m .ckpt) else if t.lr.rstrt then s.beginKill m else fault
      | .bound, some k =>
        if k = .drain ∨ k = .swap then
          (if t.lr.ckpt then s.setMx m { x with ending := some .ckpt } else if t.lr.rstrt then s.beginKill m else fault)
        else s
      | .swapped, _ => if s.holdsRetiring m t && !t.lr.ckpt && t.lr.rstrt then s.finishKill m else s
      | _, _ => s

/-- A swapped team becomes SAVED once its image has drained, when its group contains a column that is lost (R415). -/
def State.saveLost (s : State) (m : Nat) : State :=
  let x := s.mx m
  match x.team, x.image with
  | some t, some im =>
    if x.st == .swapped && s.groupLost t && im.drained then
      let s1 := (s.dropShutter m).setMx m { x.advance with st := .saved, image := some { im with inShutter := false } }
      s1.releaseTeam m false none
    else s
  | _, _ => s

/-- The column lies in a group that the dispatcher has reserved: the retirement follows the binding (R414). -/
def State.columnReserved (s : State) (stack col : Nat) : Bool :=
  s.mxs.any fun e => match e.2.reserved with | some g => groupsMeet (stack, col) 1 g (s.colsOf e.1) | none => false

/-- Nothing of a team that `but` does not name is left on a column, in its slots, banks, casements, mullion slots and shutter stores, and nothing waits
for its scrub. -/
def State.columnFreeBut (s : State) (but : Nat → Bool) (stack col : Nat) : Bool :=
  !s.columnReserved stack col
    && ((List.range 16).all fun k =>
      let e := AMap.get MullSlot.reset s.mull (16 * (64 * stack + col) + k)
      !e.valid || but e.mx)
    && (s.columnCores stack col).all fun c =>
      let k := s.core c
      (k.streams.all fun e => e.2.mx.isNone) && k.scrubSlots == [] && k.scrubBanks == [] && !k.scrubCw
        && (match k.cw.owner with | none => true | some m => but m) && (k.shutter.all fun r => but r.mx) && k.scrubShut == 0

/-- Its last resources are released (R414 step 3). -/
def State.columnReleased (s : State) (stack col : Nat) : Bool := s.columnFreeBut (fun _ => false) stack col

/-- Nothing is left on it but what swapped teams hold, which R415 moves once the number has no column. -/
def State.columnLosable (s : State) (stack col : Nat) : Bool := s.columnFreeBut (fun m => (s.mx m).st == .swapped) stack col

/-- Counters of `sparesUsed`: columns of a stack, rows of an HBM stack, lanes of a link, and the channel of an HBM stack. -/
def columnSpare (stack : Nat) : Nat := 4 * stack
def rowSpare (stack : Nat) : Nat := 4 * stack + 1
def laneSpare (link : Nat) : Nat := 4 * link + 2
def channelSpare (stack : Nat) : Nat := 4 * (64 + stack)

def State.spareUsed (s : State) (k : Nat) : Nat := AMap.get 0 s.sparesUsed k
def State.useSpare (s : State) (k : Nat) : State := { s with sparesUsed := s.sparesUsed.put k (s.spareUsed k + 1) }

/-- A SAVED or SWAPPED team's group contains the column. -/
def State.heldByImage (s : State) (stack col : Nat) : Bool :=
  s.mxs.any fun e => (e.2.st == .saved || e.2.st == .swapped) &&
    (match e.2.team with | some t => t.stack == stack && decide (t.col ≤ col ∧ col < t.col + t.lr.tgcols) | none => false)

/-- The first spare column of a stack that is in no use and has no defective core (R13, R413, R414). -/
def State.nextSpare (s : State) (stack : Nat) : Option Nat :=
  ((List.range 8).map (64 + ·)).find? fun p => !s.badCols.contains (128 * stack + p) && (s.colOf (coreNum stack 0 p)).isNone

/-- SPARE_COLUMN_ACTIVATION: with the column's last resources released, a scrubbed spare takes its number; with no spare left the number has
no column, and a team that must move is reported (R415). -/
def execSpareColumnActivation (stack col : Nat) (s : State) : Out :=
  let k := 64 * stack + col
  let old := s.colPos stack col
  let s1 := { s with retiring := s.retiring.filter (· != k), badCols := (128 * stack + old) :: s.badCols }
  if !s.retiring.contains k then .next s
  else
    match s.nextSpare stack with
    | some p =>
      if s.columnReleased stack col then
        .next ({ s1 with colmap := s1.colmap.put k p, cores := s.cores.filter fun (e : Nat × Core) => !(s.columnCores stack col).contains e.1 }.useSpare
          (columnSpare stack))
      else .next s
    | none =>
      if s.columnLosable stack col then
        let s2 := { s1 with lostCols := k :: s1.lostCols }
        .next (if s2.heldByImage stack col then s2.machineCheck 1 (128 * stack) (128 * stack + old) none else s2)
      else .next s

/-- HBM_REMAP: one of the stack's 512 spare rows, or its spare channel, takes the place of the failing one; the data is copied through ECC, so
that it stays as it is. -/
def execHbmRemap (stack : Nat) (place : HbmPlace) (s : State) : Out :=
  let (k, spares) := match place with | .row _ => (rowSpare stack, 512) | .channel _ => (channelSpare stack, 1)
  if s.hbmMap.contains (stack, place) ∨ spares ≤ s.spareUsed k then .next s
  else .next { s.useSpare k with hbmMap := (stack, place) :: s.hbmMap }

/-- LINK_LANE_SWAP: the link's spare lane takes over; the link's word of the health page shows it. -/
def execLinkLaneSwap (link _lane : Nat) (s : State) : Out :=
  if 64 ≤ link ∨ s.spareUsed (laneSpare link) ≠ 0 then .next s
  else .next ({ s with links := s.links.put link (Config.freeValue s.fresh), fresh := s.fresh + 1 }.useSpare (laneSpare link))

/-! Readiness (R418) -/

/-- The unit exists (Table 22.5). -/
def unitExists : UnitId → Bool
  | .column stack col => decide (stack < 2 ∧ col < 64)
  | .hbm i => decide (i < 10)
  | .attnHbm i => decide (i < 6)
  | .flash i => decide (i < 4)
  | .cxlPort i => decide (i < 4)
  | .chiplet => true
  | .ualink i => decide (i < 18)
  | .ether i => decide (i < 4)
  | .hostLink => true

/-! Throttling (R419) and thermal records (R420) -/

/-- The core a sensor belongs to: stack, tier and position in its number; none for the sensors of other units. -/
def sensorCore (n : Nat) : Option Nat :=
  if n % 64 = 0 then some (coreNum (bits n 15 15) (bits n 14 13) (8 * bits n 12 9 + bits n 8 6)) else none

/-- The micro-context bound on a core: the lowest-numbered one. -/
def State.boundOn (s : State) (core : Nat) : Option Nat :=
  (s.mxs.map (·.1)).find? fun m => (s.mx m).st == .bound && (s.core core).streams.any fun e => e.2.mx == some m

/-- The 32 bytes of a record (Table 22.4). -/
def Thermal.bytes (r : Thermal) : List Byte :=
  leBytes 8 r.dclk.toNat ++ leBytes 2 r.sensor.toNat ++ leBytes 2 r.temp.toNat ++ leBytes 1 r.event ++ leBytes 1 r.level ++ leBytes 2 r.mxidx.toNat
    ++ leBytes 4 r.gen.toNat ++ leBytes 4 r.seq ++ leBytes 8 0

/-- The ring that firmware configures at its start (R420): 2^n records, with n from 4 to 16 (log 3). -/
def configuredRing : Nat × Nat := (64 * (Config.thermalBase % (hbmEnd / 64 - 32768)), 2 ^ (4 + Config.thermalLog % 13))

/-- The address of a record of the ring. -/
def thermalSlot (ring : Nat × Nat) (seq : Nat) : Nat := ring.1 + 32 * (seq % ring.2)

/-- The record of a tier, next in number. -/
def State.thermalOf (s : State) (tier sensor : Nat) (temp : BitVec 16) (event : Nat) : Thermal :=
  let m := (sensorCore (sensor % 65536)).bind s.boundOn
  { dclk := s.dclk, sensor := BitVec.ofNat 16 sensor, temp := temp, event := event, level := (s.tier tier).level,
    mxidx := (match m with | some k => BitVec.ofNat 16 (32768 + k) | none => 0), gen := (match m with | some k => (s.mx k).gen | none => 0),
    seq := s.thermals.length }

/-- A thermal record written to the ring; in a frame that is write-locked nothing is written. -/
def State.writeThermal (s : State) (r : Thermal) : State :=
  match s.thermalRing with
  | none => s
  | some g => if s.paUnwritable (thermalSlot g r.seq) 32 then s else s.poke (thermalSlot g r.seq) r.bytes

/-- The home of a record's slot in the ring. -/
def State.thermalHome (s : State) (r : Thermal) : Option UnitId := s.thermalRing.bind fun g => homeUnit (thermalSlot g r.seq)

/-- A new thermal record, written to the ring when the home of its slot is READY (R418). -/
def State.addThermal (s : State) (tier sensor : Nat) (temp : BitVec 16) (event : Nat) : State :=
  let r := s.thermalOf tier sensor temp event
  let s1 := { s with thermals := r :: s.thermals }
  if (s.thermalHome r).any fun u => !s.ready.contains u then s1 else s1.writeThermal r

/-- The records whose writes have waited for a home, oldest first. -/
def State.writeWaiting (s : State) (u : UnitId) : State :=
  (s.thermals.reverse.filter fun r => s.thermalHome r == some u).foldl (fun (t : State) r => t.writeThermal r) s

/-- The last change of L is 8,192 cycles old. -/
def State.mayStep (s : State) (tier : Nat) : Bool :=
  match (s.tier tier).lastStep with
  | some t => decide (t + 8192 ≤ s.dclk.toNat)
  | none => true

/-- L changed by a step, with its record. -/
def State.stepLevel (s : State) (tier level sensor : Nat) (temp : BitVec 16) : State :=
  (s.setTier tier { s.tier tier with level := level, lastStep := some s.dclk.toNat }).addThermal tier sensor temp 4

/-- The sensors of a tier: those of its 72 cores, 9 by 8, the spares included (Tables 1.2 and 22.4). -/
def tierSensors (tier : Nat) : List Nat := (List.range 72).map fun k => 2 ^ 13 * tier + 64 * k

/-- A reading of a sensor 3 °C below its warm threshold. -/
def cooled (sensor : Nat) (temp : BitVec 16) : Bool := decide (temp.toInt + 48 ≤ (Config.warmAt sensor).toInt)

/-- SENSOR_THRESHOLD_CROSSING: its record; upward across the warm threshold raises L by a step, at once or when the next is allowed, and a trip
takes L to 7, with the record of a change, and raises a machine check. -/
def execSensorThresholdCrossing (tier sensor : Nat) (temp : BitVec 16) (ev : SensorEvent) (s : State) : Out :=
  let x := s.tier tier
  let hotter := sensor :: x.hot.filter (· != sensor)
  match ev with
  | .warmUp =>
    if x.level < 7 ∧ s.mayStep tier then .next (((s.setTier tier { x with hot := hotter }).addThermal tier sensor temp 1).stepLevel tier (x.level + 1) sensor temp)
    else .next ((s.setTier tier { x with hot := hotter, due := if x.level < 7 then x.due + 1 else x.due }).addThermal tier sensor temp 1)
  | .warmDown =>
    .next ((s.setTier tier { x with hot := if cooled sensor temp then x.hot.filter (· != sensor) else x.hot }).addThermal tier sensor temp 2)
  | .trip =>
    let s1 := (s.setTier tier { x with level := 7, lastStep := some s.dclk.toNat, hot := hotter, due := 0 }).addThermal tier sensor temp 3
    let s2 := if x.level = 7 then s1 else s1.addThermal tier sensor temp 4
    .next (s2.machineCheck 7 (128 * (tier / 4) + tier % 4) sensor none)

/-- THROTTLE_STEP: a step up that a crossing has asked for, or one step down when every sensor of the tier reads 3 °C below its warm threshold, at
most once in 8,192 cycles. What firmware reads of the tier's sensors is an operand (log 59). -/
def execThrottleStep (tier : Nat) (move : ThrottleMove) (s : State) : Out :=
  let x := s.tier tier
  let (v, s1) := s.free
  -- the record names the tier; which of its sensors, and what it reads, are free values
  let go := fun (t : State) (l : Nat) => t.stepLevel tier l (2 ^ 13 * tier + v.toNat % 2 ^ 13) (BitVec.ofNat 16 (v.toNat / 2 ^ 13))
  if !s.mayStep tier then .next s
  else match move with
    | .up => .next (if 0 < x.due ∧ x.level < 7 then go (s1.setTier tier { x with due := x.due - 1 }) (x.level + 1) else s)
    | .down reads =>
      .next (if ((tierSensors tier ++ x.hot).all fun k => reads.any fun r => r.1 == k && cooled k r.2) ∧ 0 < x.level then
          go (s1.setTier tier { x with hot := [], due := 0 }) (x.level - 1)
        else s)

/-- A record of the tier was written in this period of 1.024 ms. -/
def State.periodicDone (s : State) (sensor : Nat) : Bool :=
  s.thermals.any fun r => r.event == 0 && bits r.sensor.toNat 15 13 == bits sensor 15 13
    && r.dclk.toNat / epochCycles == s.dclk.toNat / epochCycles

/-- THERMAL_RECORD: the periodic record of a throttled tier. -/
def execThermalRecord (tier sensor : Nat) (temp : BitVec 16) (s : State) : Out :=
  .next (if 0 < (s.tier tier).level ∧ bits sensor 15 13 = tier ∧ !s.periodicDone sensor then s.addThermal tier sensor temp 0 else s)

/-- UNIT_READY: the unit's bit is set; a CXL port's expanders populate their part of the CXL region, and the
thermal records that waited for a home are written. DESIGN CHOICE (log 60): the tier's 'up to 16 TB'
(R18) is the 2^44 bytes of its region in Table 7.6; R3 fixes SI units for HBM and flash capacities alone. -/
def execUnitReady (u : UnitId) (s : State) : Out :=
  if !unitExists u || s.ready.contains u then .next s
  else
    let s1 := { s with ready := u :: s.ready }
    match u with
    | .cxlPort _ => .next { s1 with cxlPop := min Config.cxlPopulated (cxlEnd - cxlBase) }
    | _ => .next (s1.writeWaiting u)

/-! The host link (R422) -/

/-- Answers leave by the list of sent messages: a status byte, 0 done and 1 refused, and the data of a read. -/
def State.answer (s : State) (port status : Nat) (data : List Byte) : State :=
  { s with sent := (port, BitVec.ofNat 8 status :: data) :: s.sent }

def hostPort : Nat := 10
def scalePort : Nat := 11

/-- The word a host writes to MBIN queues a DOORBELL event. -/
def State.mailIn (s : State) (data : Word) : State := s.queueEvent 0x83 0 (s.eventRecord 0x83 0 none 0 data.toNat)

/-- MBIN. -/
def execMbin (data : Word) (s : State) : Out := .next (s.mailIn data)

/-- BAR0: the mailbox registers and the message buffer. A read of write-only MBIN gives zero, and a write to read-only MBOUT is ignored
(Table 0.2). Firmware writes MBOUT by means that the spec does not give, so that a read finds a free value there (log 7).

DESIGN CHOICE (log 60): MBIN and MBOUT act on accesses of 8 bytes alone, and others are unsupported; R422 gives no size. -/
def State.bar0 (s : State) (off : Nat) (x : ExtAccess) : State :=
  match x with
  | .read n =>
    if off = 0 ∧ n = 8 then s.answer hostPort 0 (leBytes 8 0)
    else if off = 8 ∧ n = 8 then { s.free.2 with mbout := s.free.1 }.answer hostPort 0 (leBytes 8 s.free.1.toNat)
    else if 0x800 ≤ off ∧ off + n ≤ 0x1000 then s.answer hostPort 0 (s.mbuf.readN off n)
    else s.answer hostPort 1 []
  | .write l =>
    if off = 0 ∧ l.length = 8 then (s.mailIn (BitVec.ofNat 64 (leNat l))).answer hostPort 0 []
    else if off = 8 ∧ l.length = 8 then s.answer hostPort 0 []
    else if 0x800 ≤ off ∧ off + l.length ≤ 0x1000 then { s with mbuf := s.mbuf.writeN off l }.answer hostPort 0 []
    else s.answer hostPort 1 []
  | .atomic .. => s.answer hostPort 1 []

/-- BAR2: the health page, read in 8-byte words; writes are ignored. -/
def State.bar2 (s : State) (off : Nat) (x : ExtAccess) : State :=
  match x with
  | .read n =>
    if off % 8 = 0 ∧ n = 8 ∧ off < 0x1000 then
      let s1 := s.answer hostPort 0 (leBytes 8 (s.healthWord off))
      if off = 0x028 then s1.clearMcsum else s1
    else s.answer hostPort 1 []
  | .write _ => s.answer hostPort 0 []
  | .atomic .. => s.answer hostPort 1 []

/-- An access of an agent outside the device to memory, at its homes. The data of an uncorrectable block is a free value there. -/
def State.extMemory (s : State) (port pa : Nat) (x : ExtAccess) : State :=
  match x with
  | .read n =>
    match s.badIn pa n with
    | some _ => { s with fresh := s.fresh + 1 }.answer port 0 ((List.range n).map fun i => Config.imageByte s.fresh i)
    | none => (s.meets [(pa, n)]).answer port 0 (s.peek pa n)
  | .write l => if s.rangeLocked pa l.length then s.answer port 1 [] else (s.poke pa l).answer port 0 []
  | .atomic op size8 x y =>
    let n := if size8 then 8 else 4
    if s.rangeLocked pa n || (s.badIn pa n).isSome then s.answer port 1 []
    else
      let old := leNat (s.peek pa n)
      ((s.meets [(pa, n)]).poke pa (leBytes n (atomicNew op n old (x.toNat % 2 ^ (8 * n)) (y.toNat % 2 ^ (8 * n))).1)).answer port 0 (leBytes n old)

/-- Bytes of an access from outside. -/
def extSize : ExtAccess → Nat
  | .read n => n
  | .write l => l.length
  | .atomic _ size8 _ _ => if size8 then 8 else 4

/-- The whole access lies in the host's range of compute-side HBM, of 64 GB at most. -/
def hdmCovers (pa n : Nat) : Bool :=
  decide (0 < n ∧ pa + n ≤ hbmEnd ∧ 4096 * Config.hdmPage ≤ pa ∧ pa + n ≤ 4096 * Config.hdmPage + min Config.hdmLength 64000000000)

/-- Every home of the range is up. -/
def State.homesReady (s : State) (pa n : Nat) : Bool := (List.range ((pa + n - 1) / 64 - pa / 64 + 1)).all fun i => s.homeReady (64 * (pa / 64 + i))

/-- HOST_ACCESS: the mailbox, the health page, or the host's range of HBM; any other access is an unsupported request. Its completion leaves the
host link in a slot of the system partition (R345, R346; log 38). -/
def execHostAccess (p : HostPlace) (x : ExtAccess) (s : State) : Out :=
  if !s.hostOpen then .next s
  else match p with
  | .bar0 off => .next (s.bar0 off x)
  | .bar2 off => .next (s.bar2 off x)
  | .hdm pa =>
    match x with
    | .atomic .. => .next (s.answer hostPort 1 [])
    | _ =>
      if !hdmCovers pa (extSize x) then .next (s.answer hostPort 1 [])
      else if !s.homesReady pa (extSize x) then .next s
      else .next (s.extMemory hostPort pa x)

/-- UALINK_ACCESS: a read, write or atomic of another DU5 at HBM or the CXL tier of this one, answered in a slot
of the system partition (log 38), and served in its turn by the CXL home agents (R348); an atomic is never merged. -/
def execUalinkAccess (pa : Nat) (x : ExtAccess) (s : State) : Out :=
  let n := extSize x
  if !s.scaleOpen then .next s
  else if n = 0 ∨ !((decide (pa + n ≤ hbmEnd)) || (isCxl pa && s.populated pa && s.populated (pa + n - 1))) then .next (s.answer scalePort 1 [])
  else if !s.homesReady pa n || !s.turnAt 15 (rangeResources pa n) then .next s
  else .next ((s.extMemory scalePort pa x).servedAll 15 (rangeResources pa n))

/-- CXL_EXPANDER_DOWN: what is homed at the port is uncorrectable from now on. -/
def execCxlExpanderDown (port : Nat) (s : State) : Out :=
  .next (if port < 4 ∧ !s.cxlDown.contains port then { s with cxlDown := port :: s.cxlDown } else s)

/-! Firmware -/

/-- The housekeeping processor at the entry of its verified firmware. -/
def bootHk : Hk := { Hk.reset with pc := Config.firmwareEntry }

/-- FIRMWARE_RESTART: after a fault of its own word, the processor starts again; events and records stay, and late results of what it had
issued are discarded. -/
def execFirmwareRestart (s : State) : Out :=
  if s.hk.phase ≠ .ended then .next s
  else .next { s with
    hk := bootHk
    hkOps := s.hkOps.map fun o => { o with dest := 0 }
    scrubs := s.scrubs.map fun c => if c.dest.isSome then { c with dest := some 0 } else c
    reqs := s.reqs.map fun r => if r.ref.isNone && r.dest.isSome then { r with dest := some 0 } else r }

/-- An image whose SM2 signature over SM3 verifies under a public key whose SM3 hash is fused in the part, and whose version is not below the fused
counter (R425 steps 2 and 3). -/
def imageGood (l : List Byte) : Bool :=
  let k := Config.fwKey l
  let g := Config.fwSignature l
  sm3 (beBytes 64 k.toNat) == Config.fusedKeyHash.toNat
    && sm2Verify (k.toNat / 2 ^ 256) (k.toNat % 2 ^ 256) (sm3Bytes (Config.fwBody l)) (g.toNat / 2 ^ 256) (g.toNat % 2 ^ 256)
    && decide (Config.fusedVersion ≤ Config.fwVersion l)

/-- The image that the boot ROM starts: the one in flash stack 0, else the one in the host mailbox buffer (R425 step 1). -/
def State.bootImage (s : State) : Option (List Byte) := [s.fwImage, s.mbuf.readN 0x800 0x800].find? imageGood

/-- The identity certificate stands in the message buffer, where the host reads it (R425; log 59). -/
def certBuffer : Memory := Memory.writeN [] 0x800 ((List.range 0x800).map Config.certByte)

/-- The quotas of the staging cache as firmware divides its whole GiB, the pool last (R398; log 52). -/
def configuredQuotas : AMap Nat :=
  ((List.range 17).foldl
    (fun (e : AMap Nat × Nat) k => (e.1.put k (min (Config.stagingQuota k) e.2), e.2 - min (Config.stagingQuota k) e.2)) ([], 64000000000 / 2 ^ 30)).1

/-- The cores that fail their self-test at a boot begin the retirement of their columns (R413). -/
def State.selfTest (s : State) : State := ((Config.failedCores s.fresh).filter (· < 1024)).foldl (fun (t : State) c => t.retireCore c) s

/-- What a core keeps through a device reset: the rows that spares have replaced (R413). -/
def Core.afterReset (c : Core) : Core := { Core.reset with rows := c.rows, shutRows := c.shutRows }

/-- DEVICE_RESET: the installs in flight are undone and every register takes its reset value; the boot ROM reads and verifies an image, derives the keys and starts it, with what firmware
configures: the quotas of the staging cache, the peer sources, and the ring of thermal records. Where it refuses every image, no firmware
starts. -/
def execDeviceReset (s0 : State) : Out :=
  let s := s0.installs.foldl (fun (t : State) i => t.undoInstall i) s0
  let s1 : State := { State.reset with
    cur := .hk, agenda := s.agenda, fresh := s.fresh, nextId := s.nextId, mem := s.mem, badBlks := s.badBlks, attnBad := s.attnBad, weak := s.weak, wsegs := s.wsegs,
    devw := s.devw, erase := s.erase, fmap := s.fmap, flashSpare := s.flashSpare, sparesUsed := s.sparesUsed, hbmMap := s.hbmMap,
    colmap := s.colmap, lostCols := s.lostCols, retiring := s.retiring, badCols := s.badCols,
    cores := s.cores.map fun e => (e.1, e.2.afterReset), portDown := s.portDown, cxlDown := s.cxlDown, sent := s.sent, mbuf := s.mbuf,
    fwImage := s.fwImage }
  match s.bootImage with
  | some l =>
    .next { s1.selfTest with
      fresh := s.fresh + 1, booted := true, fwHash := BitVec.ofNat 256 (sm3 l), hk := bootHk, mbuf := certBuffer, quotas := configuredQuotas,
      peerDus := Config.peerDus.take 16, thermalRing := some configuredRing }
  | none => .next { s1 with hk := { Hk.reset with phase := .unbound } }

end Sys2Proof.Machine
end

