-- ==== Sys2Proof/Machine/Issue.lean ====
section
/-! DEFINITION. When a word waits at issue (R98, R101, R158, R179, R203, R239, R243, R275, R331, R338, R346, R360,
R418), which row of the opcode table a word
selected by its descriptor is, and which operations of the device are due. -/

namespace Sys2Proof.Machine

open Sys2Proof

/-! General registers of SC words (R203) -/

/-- The general registers a word reads. -/
def gReads : Instr → List (BitVec 5)
  | .add _ a b | .sub _ a b | .mul _ a b | .mulh _ a b _ | .div _ a b _ | .rem _ a b _ | .and _ a b | .or _ a b | .xor _ a b
  | .andn _ a b | .shl _ a b | .shr _ a b | .sar _ a b | .rol _ a b | .fshlImm _ a b _ | .fshrImm _ a b _ | .min _ a b | .max _ a b
  | .minu _ a b | .maxu _ a b | .sel _ a b _ _ | .cmp _ a b _ | .addx _ a b _ | .sld _ a b _ _ _ | .pbArrive _ a b _ _ _
  | .pbExpect a b _ | .mxbind _ a b | .mxsaveCopy _ a b | .mxsaveFree _ a b | .mxsaveReset _ a b | .mxsaveCkpt _ a b
  | .mxsaveKill _ a b | .mxsaveDrain _ a b | .keyldLoad _ a b | .keyldUnload _ a b => [a, b]
  | .fshl _ a b c | .fshr _ a b c | .madd _ a b c | .sst c a b _ _ _ | .pbInit c a b _ | .tlbi c a b _ _ _ => [a, b, c]
  | .addi _ a _ | .shlImm _ a _ | .shrImm _ a _ | .sarImm _ a _ | .rolImm _ a _ | .clz _ a | .ctz _ a | .popc _ a | .sext _ a _ | .zext _ a _
  | .mov _ a | .movToPred _ a | .ret a | .pbTest _ a _ | .wanyReg _ a | .wallReg _ a | .ffrdyReg _ a | .tensorDef _ a
  | .tensorUndef _ a | .trap a _ | .cwr a _ | .scrubCore _ a | .scrubTenant _ a | .setest a | .perfrd _ a _ | .launch _ a => [a]
  | .amo d a _ op _ _ | .red d a _ op _ _ => if op = 10 then [a, d, d + 1] else [a, d]
  | _ => []

/-- The general register a word writes. -/
def gWrites : Instr → Option (BitVec 5)
  | .add d _ _ | .sub d _ _ | .mul d _ _ | .mulh d _ _ _ | .div d _ _ _ | .rem d _ _ _ | .and d _ _ | .or d _ _ | .xor d _ _
  | .andn d _ _ | .shl d _ _ | .shr d _ _ | .sar d _ _ | .rol d _ _ | .fshlImm d _ _ _ | .fshrImm d _ _ _ | .min d _ _ | .max d _ _
  | .minu d _ _ | .maxu d _ _ | .sel d _ _ _ _ | .addx d _ _ _ | .sld d _ _ _ _ _ | .pbArrive d _ _ _ _ _
  | .mxbind d _ _ | .mxsaveCopy d _ _ | .mxsaveFree d _ _ | .mxsaveReset d _ _ | .mxsaveCkpt d _ _ | .mxsaveKill d _ _
  | .mxsaveDrain d _ _ | .keyldLoad d _ _ | .keyldUnload d _ _ | .fshl d _ _ _ | .fshr d _ _ _ | .madd d _ _ _ | .addi d _ _ | .shlImm d _ _
  | .shrImm d _ _ | .sarImm d _ _ | .rolImm d _ _ | .clz d _ | .ctz d _ | .popc d _ | .sext d _ _ | .zext d _ _ | .mov d _ | .lui d _
  | .movFromPred d _ | .pbTest d _ _ | .ffrdyTm d _ | .ffrdyReg d _ | .tensorDef d _ | .tensorUndef d _ | .crd d _
  | .scrubCore d _ | .scrubTenant d _ | .perfrd d _ _ | .launch d _ | .amo d _ _ _ _ _ => some d
  | .call _ => some 31
  | _ => none

/-- The agent whose word runs, as its requests name it. -/
def State.myAgent (s : State) : Option StreamRef := if s.isHk then none else some s.myRef

/-- A request of the agent whose word runs. -/
def State.mine (s : State) (r : Req) : Bool := r.ref == s.myAgent && !r.isCredit

/-- A result for a register is still to be delivered. -/
def State.regPending (s : State) (r : BitVec 5) : Bool :=
  r != 0 && ((s.reqs.any fun q => s.mine q && q.dest == some r)
    || (s.isHk && ((s.hkOps.any fun o => o.dest == r) || s.scrubs.any fun c => c.dest == some r)))

/-- A value poisoned by an uncorrectable error that the word is the first to consume (R214): its request. -/
def State.poisoned (s : State) (i : Instr) : Option Req :=
  s.reqs.find? fun q => s.mine q && q.err.isSome && (match q.dest with | some d => d != 0 && (gReads i).contains d | none => false)

/-- The word reads or writes a register whose result is late. A poisoned value that is only overwritten delays nothing. -/
def State.regWait (s : State) (i : Instr) : Bool :=
  (gReads i).any s.regPending
    || (match gWrites i with
        | some d => s.regPending d && !(s.reqs.any fun q => s.mine q && q.dest == some d && q.err.isSome)
        | none => false)

/-- CRD and CWR wait for the watch register that a PB.ARRIVE writes late (R221). -/
def State.watchWait (s : State) (i : Instr) : Bool :=
  match i with
  | .crd _ _ | .cwr _ _ | .pbArrive _ _ _ _ true _ => s.reqs.any fun q => s.mine q && q.bw.isSome && !q.performed
  | _ => false

/-! Scratchpad bytes a word touches (R239): window offsets and lengths -/

/-- The rows of a checked copy between G and the scratchpad. -/
def Copy.spRows (c : Copy) : List (Nat × Nat) :=
  match c.kind with
  | .cfill | .cfillPeer => []
  | _ => (List.range c.rows).map fun r => (c.rowS r, c.rowb)

/-- The copy a word starts, when its checks pass. -/
def State.planned (s : State) (i : Instr) : Option Copy :=
  let ok := fun (p : Except FaultInfo Copy) => match p with | .ok c => some c | .error _ => none
  match i with
  | .tload w => ok (s.tilePlan .tload .read w)
  | .tstore w => ok (s.tilePlan .tstore .write w)
  | .tloadx w => ok (s.tensorPlan w)
  | .gather w ai => ok (s.indexPlan .gather .read w ai)
  | .scatter w ai => ok (s.indexPlan .scatter .write w ai)
  | .redm w op => ok (s.redmPlan w op)
  | .cfill w => ok (s.cfillPlan w)
  | .kvRes w bar => (match AMap.get ResEntry.free s.me.res w.rq.toNat with | .done r => ok (s.resPlan w bar r) | _ => none)
  | _ => none

/-- The index list of an indexed copy. -/
def State.indexSpan (s : State) (w : FormT) (ai : BitVec 4) : List (Nat × Nat) := [((s.a ai).toNat % spMod, 4 * (s.h w.h).rows)]

/-- The KV command a word sends, when its checks pass. -/
def kvPlanned (i : Instr) : Option (Nat × FormK × Option (BitVec 4)) :=
  match i with
  | .kvQry w | .kvQryResume w => some (0x30, w, none)
  | .kvAppend w => some (0x31, w, none)
  | .kvSplice w ag => some (0x32, w, some ag)
  | .kvDrop w | .kvDropAll w => some (0x33, w, none)
  | .kvCommit w => some (0x34, w, none)
  | .kvIxlook w => some (0x35, w, none)
  | .kvIxins w => some (0x36, w, none)
  | .kvRepairOpen w | .kvRepairCmp w | .kvRepairApply w | .kvRepairAbort w => some (0x37, w, none)
  | .kvPagein w => some (0x38, w, none)
  | _ => none

/-- The descriptor, CLT and data of a KV command. -/
def State.kvSpans (s : State) (op : Nat) (w : FormK) (ag : Option (BitVec 4)) : List (Nat × Nat) :=
  let o := (s.a w.ad).toNat % spMod
  let d := kvDescOf (s.mySp o 64)
  (o, 64) :: (if op = 0x30 ∧ d.flags.getLsbD 7 then [(d.aux, 16 * (d.nsqm1 + 1))] else [])
    ++ (match s.kvPlan op w ag, s.arenas.find d.arena with
        | .ok k, some x => [(d.data, kvDataBytes op k.d x k.seqs)]
        | _, _ => [])

/-- Rows of blocks. -/
def blockRows (off stride n : Nat) : List (Nat × Nat) := (List.range 64).map fun r => ((off + 64 * stride * r) % spMod, 64 * n)

/-- The scratchpad bytes of an address, when it is an alias. -/
def aliasSpan (va : Word) (n : Nat) : List (Nat × Nat) := match spAlias va.toNat with | some o => [(o, n)] | none => []

/-- The window bytes of a launch's request data. -/
def launchSpSpan (va n : Nat) : List (Nat × Nat) :=
  if n = 0 then []
  else match spAlias va with
    | some o => [(o, n)]
    | none => if va < spAliasBase ∧ spAliasBase < va + n then [(0, va + n - spAliasBase)] else []

/-- The address of an SLD or SST: with ORD the second register is a class mask (R213). -/
def State.eaOf (s : State) (a b : BitVec 5) (ord : Bool) : Word := if ord then s.g a else s.g a + s.g b

/-- The request data that a LAUNCH with a good descriptor reads: its address and length, with the device it goes to when it is REMOTE. -/
def State.launchSpan (s : State) (a : BitVec 5) : Option (Nat × Nat × Option Nat) :=
  match s.scalarRead (s.g a).toNat 64 64 with
  | .error _ => none
  | .ok l =>
    if launchBad l then none
    else some (fieldLe l 8 8, fieldLe l 0x10 4, if bit (fieldLe l 2 1) 0 then some (fieldLe l 4 2) else none)

/-- The micro-context of this DU5 to whose ring a LAUNCH with a good descriptor appends: one of its own tenant and partition. -/
def State.launchTarget (s : State) (a : BitVec 5) : Option Nat :=
  match s.scalarRead (s.g a).toNat 64 64 with
  | .error _ => none
  | .ok l =>
    let y := s.mx (fieldLe l 0 2)
    if launchBad l || bit (fieldLe l 2 1) 0 || y.st == .free || y.st == .faulted || y.tenant != (s.mx s.myMx).tenant
        || y.part != (s.mx s.myMx).part then none
    else some (fieldLe l 0 2)

/-- The addresses of a LAUNCH in G: its descriptor, and one in each page of its request data. -/
def State.launchVas (s : State) (a : BitVec 5) : List Word :=
  s.g a :: (match s.launchSpan a with
    | some (va, n, _) =>
      (List.range (if n = 0 then 0 else (va + n - 1) / 4096 - va / 4096 + 1)).map fun k => BitVec.ofNat 64 (max va ((va / 4096 + k) * 4096))
    | none => [])

/-- The scratchpad bytes that a word reads or writes at its issue. -/
def State.spIssue (s : State) (i : Instr) : List (Nat × Nat) :=
  (match kvPlanned i with | some (_, w, _) => [((s.a w.ad).toNat % spMod, 64)] | none => []) ++
  (match i with
  | .gather w ai | .scatter w ai => s.indexSpan w ai
  | .shapeMem _ _ _ a => aliasSpan (s.a a) 32
  | .movaSp _ _ _ off => [(off.toNat, 8)]
  | .install _ _ ad _ | .installQuery _ _ ad _ | .installRelease _ _ ad _ => [((s.a ad).toNat % spMod, 64)]
  | .sld _ a b _ sz ord | .sst _ a b _ sz ord => aliasSpan (s.eaOf a b ord) (accessBytes sz)
  | .amo _ a sz8 _ _ _ | .red _ a sz8 _ _ _ => aliasSpan (s.g a) (if sz8 then 8 else 4)
  | .pbInit _ a _ _ | .pbArrive _ a _ _ _ _ | .pbExpect a _ _ | .pbTest _ a _ => aliasSpan (s.g a) 16
  | .tensorDef _ a => aliasSpan (s.g a) 32
  | .launch _ a =>
    aliasSpan (s.g a) 64 ++ (match s.launchSpan a with | some (va, n, _) => launchSpSpan va n | none => [])
  | .mma w | .mmaz w => if w.asrc then [] else blockRows (s.cmOff w.a) (w.astrM1.toNat + 1) (w.kgM1.toNat + 1)
  | .mhrot w => if w.asrc then [] else blockRows (s.cmOff w.a) (w.astrM1.toNat + 1) 2
  | .mdrain w => (s.drainWrites w (s.cmOff w.d)).1.map fun e => (e.2.1, e.2.2.length)
  | .maccld w => if w.kind = 0 then [(s.cmOff w.s, imageBytes)] else blockRows (s.cmOff w.s) (w.sstrM1.toNat + 1) 4
  | .vld w | .vst w | .vldu w | .vstu w => (s.activeBytes w).map fun k => (s.cmOff w.a + k, 1)
  | .vgath w | .vscat w => ((List.range (memMoved w)).filter (s.activeM w)).map fun k => (s.elemOff w k, memWidth w / 8)
  | .vbtest w => ((List.range 64).filter (s.activeM w)).map fun k => (s.cmOff w.a + s.laneIndex w k / 8, 1)
  | _ => [])

/-- The scratchpad bytes that a word touches: those of its issue, and of the copy, the command or the reply that it starts. -/
def State.spTouch (s : State) (i : Instr) : List (Nat × Nat) :=
  (match s.planned i with | some c => c.spRows | none => [])
    ++ (match kvPlanned i with | some (op, w, ag) => s.kvSpans op w ag | none => [])
    ++ (match i with | .pktEmit _ _ a _ l _ _ _ => [((s.a a).toNat % spMod, (s.a l).toNat)] | _ => [])
    ++ s.spIssue i

/-- The word touches a GRANTED sill, or wants one. -/
def State.sillWait (s : State) (i : Instr) : Bool :=
  (s.core s.here.core).sills != [] && !s.isHk &&
    (s.spTouch i).any fun e => (s.me.windowFail e.1 e.2).isNone && s.sillBusy s.here.core s.here.slot e.1 e.2

/-! Copy words -/

/-- The tag of a word that has one. -/
def tagOf : Instr → Option (BitVec 6)
  | .tload w | .tloadx w | .gather w _ | .cfill w | .cfillPeer w _ | .tstore w | .scatter w _ | .redm w _ => some w.tag
  | .kvRes w _ | .kvQry w | .kvQryResume w | .kvAppend w | .kvSplice w _ | .kvDrop w | .kvDropAll w | .kvCommit w | .kvIxlook w
  | .kvIxins w | .kvRepairOpen w | .kvRepairCmp w | .kvRepairApply w | .kvRepairAbort w | .kvPagein w => some w.tag
  | .pktEmit _ _ _ _ _ tag _ _ | .install _ _ _ tag | .installQuery _ _ _ tag | .installRelease _ _ _ tag => some tag
  | _ => none

/-- What the running sequencer has in flight. -/
def State.inFlight (s : State) : Nat :=
  (s.copies.filter fun c => c.ref == s.myRef && c.sec == s.here.sec && c.kind != .bt).length
    + (if s.here.sec = .st then (s.kvs.filter fun k => k.ref == s.myRef).length + (s.installs.filter fun k => k.ref == s.myRef).length else 0)

/-- A word with a tag waits for room in the tag's count, and among the operations in flight. -/
def State.copyWait (s : State) (i : Instr) : Bool :=
  match tagOf i with
  | none => false
  | some t => decide (255 ≤ s.me.tagCount t.toNat ∨ 32 ≤ s.inFlight)

/-- KV words wait for the chiplet, for the result entry, and KV.RES for its record. -/
def State.kvWait (s : State) (i : Instr) : Bool :=
  match i with
  | .kvRes w _ => AMap.get ResEntry.free s.me.res w.rq.toNat == .posted
  | _ =>
    match kvPlanned i with
    | none => false
    | some (_, w, _) => !s.ready.contains .chiplet || (!w.ns && AMap.get ResEntry.free s.me.res w.rq.toNat != .free)

/-! Matrix words -/

/-- Cycles an MMA reads the front pane in, from 1 after its issue on; none when its checks stop it first. -/
def State.paneCycles (s : State) (w : FormMma) : Option Nat :=
  match s.frontCheck with
  | some _ => none
  | none => some (mmaCycles w (match s.mmaRows w with | .ok (_, _, sp) => sp | .error _ => false))

/-- Block `i` of the front pane is read by an MMA: as block `b` of a row whose blocks before it hold fewer K-groups than the row takes. -/
def State.readsB (s : State) (w : FormMma) (i : Nat) : Bool :=
  let kg := w.kgM1.toNat + 1
  (List.range 64).any fun r => (List.range kg).any fun b =>
    (w.boff.toNat + (w.bstrM1.toNat + 1) * r + b) % paneBlocks == i
      && (match rowGroups (s.fetchB w.boff.toNat (w.bstrM1.toNat + 1) (w.cbM1.toNat + 1)) r b kg [] 0 with
          | .ok (l, _) => decide (l.length < kg)
          | .error _ => false)

/-- The word is fetched from where its code lies (R397, R398, R416). -/
def State.metFetch (s : State) : State :=
  match s.myCode s.pc.toNat with
  | .ok c => s.meets [(c.pa, s.here.sec.wordBytes)]
  | .error _ => s

/-- Correctable errors of what a word meets at its issue, in the scratchpad, in the front pane, where its code lies, and in the registers and queues
of its core: corrected and counted (R416, log 62). -/
def State.wordMet (s0 : State) (i : Instr) : State :=
  let s := s0.metFetch
  if s.weak = [] then s
  else
    let k := if s.isHk then 1024 else s.here.core
    let s2 := s.correctWords k
    if s.isHk then s2
    else
      let bytes := (s.spIssue i).flatMap fun e => if (s.me.windowFail e.1 e.2).isNone then (List.range e.2).map (e.1 + ·) else []
      let s3 := s2.correctSp k ((bytes.map fun o => s.me.spAddr o / 64).eraseDups)
      let pane := PatrolPlace.pane k (s.core k).cw.front
      let mma := fun (w : FormMma) => ((s.weak.filter fun e => e.1 == patrolCode pane && s.readsB w e.2).map (·.2)).foldl (fun (t : State) b => t.correct pane b) s3
      match i with
      | .mma w => mma w
      | .mmaz w => mma w
      | _ => s3

/-- One of those cycles would fall in a refresh window of the front pane. -/
def State.refreshBlocked (s : State) (i : Instr) : Bool :=
  let blocked := fun (w : FormMma) =>
    match s.paneCycles w with
    | none => false
    | some n => (List.range n).any fun k => inWindow (s.core s.here.core).cw.front (s.refreshTimer s.here.core + k + 1)
  match i with
  | .mma w => blocked w
  | .mmaz w => blocked w
  | _ => false

/-- The class of a word of CM that accesses memory. -/
def cmClass : Instr → Option (BitVec 4)
  | .mma w | .mmaz w => some w.cs.cls
  | .mhrot w => some w.cs.cls
  | .mdrain w => some w.cs.cls
  | .maccld w => some w.cs.cls
  | .vld w | .vst w | .vldu w | .vstu w | .vgath w | .vscat w | .vbtest w => some w.cs.cls
  | _ => none

/-- A casement without an owner whose panes are still to be scrubbed is taken when the scrub has completed (R338, log 44). -/
def State.casementWait (s : State) (i : Instr) : Bool :=
  let c := s.core s.here.core
  match i with
  | .cfill _ | .cfillPeer _ _ | .swing .. => c.cw.owner.isNone && c.scrubCw
  | _ => false

/-- A matrix command of a suspended block, restored without the lease or the leave that it declares, waits for them (R40, R102, log 57). -/
def State.leaseOwed (s : State) (i : Instr) : Bool :=
  i.matrix && !s.isHk && s.here.sec == .cm && s.me.inLease && ((s.core s.here.core).lease.holder != some s.here.slot || s.me.owesLeave)

def State.matrixWait (s : State) (i : Instr) : Bool :=
  s.refreshBlocked i || s.casementWait i || s.leaseOwed i
    || (match i with
        | .mhrot w => w.dg != 0 && (match (s.core s.here.core).signRegen with | some t => decide (s.dclk.toNat < t + 1024) | none => false)
        | _ => false)
    || (s.here.sec == .cm && !s.isHk && (s.me.swing.isSome || (match cmClass i with | some k => s.peerPending k | none => false)))

/-- An INSTALL of the stream and class whose source reads, which later accesses of the class follow (R179), have not all been performed. -/
def State.sourcesPending (s : State) (cls : BitVec 4) : Bool := s.installs.any fun k => k.ref == s.myRef && k.cls == cls && !k.readDone

/-- A word of ST that reads the scratchpad or G at its issue stands after the earlier status writes of PKT.EMIT and source reads of INSTALL of its
class (R179), and one that reads G after the status writes and source reads at the same bytes, whatever their class (R178). -/
def State.emitWait (s : State) (i : Instr) : Bool :=
  let mine := fun (e : Emit) => s.here.sec == .st && e.ref == s.myRef
  let after := fun (cs : Cs) => (s.emits.any fun e => mine e && e.cls == cs.cls) || (s.here.sec == .st && s.sourcesPending cs.cls)
  let meets := fun (va : Word) (n : Nat) =>
    (spAlias va.toNat).isNone &&
      (match s.access (some s.here.core) s.myMx va.toNat .read false with
       | .ok x => (s.emits.any fun e => mine e && decide (e.stat.paOf e.statVa < x.pa + n ∧ x.pa < e.stat.paOf e.statVa + 8))
           || (s.here.sec == .st && s.sourceReads s.myRef s.nextId x.pa n)
       | .error _ => false)
  match i with
  | .shapeMem _ cs _ a => after cs || meets (s.a a) 32
  | .movaSp _ cs _ _ | .install _ cs _ _ | .installQuery _ cs _ _ | .installRelease _ cs _ _ => after cs
  | .scatter w _ => after w.cs
  | .kvSplice w ag => after w.cs || meets (s.a ag) 64
  | _ => (match kvPlanned i with | some (_, w, _) => after w.cs | none => false)

/-! Memory words -/

/-- Requests of the agent that are not performed. -/
def State.ownPending (s : State) : Bool := s.reqs.any fun r => s.mine r && !r.performed

/-- An access through the SP alias is performed at issue: the earlier requests that must precede it come first. -/
def State.aliasWait (s : State) (i : Instr) : Bool :=
  let held := fun (va : Word) (op : ReqOp) (cs : Cs) (acq rel : BitVec 16) =>
    (spAlias va.toNat).isSome && !s.isHk &&
      (let r := s.request op va.toNat none cs acq rel none none
       s.reqs.any fun e => s.mine e && !e.performed && mustPrecede e r)
  match i with
  | .sld _ a b cs sz ord => held (s.eaOf a b ord) (.load (accessBytes sz)) cs (s.classMask ord b) 0
  | .sst _ a b cs sz ord => held (s.eaOf a b ord) (.store (accessBytes sz) 0) cs 0 (s.classMask ord b)
  | .amo _ a sz8 op cs ord => held (s.g a) (.atomic op (if sz8 then 8 else 4) 0 0 true) cs
      (if ord.getLsbD 0 then allClasses else 0) (if ord.getLsbD 1 then allClasses else 0)
  | .red _ a sz8 op cs ord => held (s.g a) (.atomic op (if sz8 then 8 else 4) 0 0 false) cs
      (if ord.getLsbD 0 then allClasses else 0) (if ord.getLsbD 1 then allClasses else 0)
  | _ => false

/-- The addresses of an INSTALL word: its record, and one in each 4 KiB of the source of an OP 0. -/
def State.installVas (s : State) (ad : BitVec 4) : List Nat :=
  match s.installCheck ad with
  | .error _ => []
  | .ok (l, _) =>
    fieldLe l 0x10 8 :: (if fieldLe l 0 1 = 0 ∧ installFault l = none then
      (List.range (16 * fieldLe l 4 4)).map fun k => fieldLe l 8 8 + 4096 * k else [])

/-- The G addresses a memory word of SC uses, or one in each page that a copy, the image of a splice or the source of an install uses. -/
def State.vasOf (s : State) (i : Instr) : List Nat :=
  let at' := fun (va : Word) => if (spAlias va.toNat).isSome || s.isHk then [] else [va.toNat]
  match i with
  | .sld _ a b _ _ ord | .sst _ a b _ _ ord => at' (s.eaOf a b ord)
  | .amo _ a _ _ _ _ | .red _ a _ _ _ _ | .pbInit _ a _ _ | .pbArrive _ a _ _ _ _ | .pbExpect a _ _ | .pbTest _ a _ | .tensorDef _ a => at' (s.g a)
  | .launch _ a => (s.launchVas a).flatMap at'
  | .shapeMem _ _ _ a => at' (s.a a)
  | .pktEmit _ _ _ _ _ _ _ ar => at' (s.a ar)
  | .kvSplice w ag => (match s.kvPlan 0x32 w (some ag) with | .ok k => k.pages.map (·.va) | .error _ => at' (s.a ag))
  | .install _ _ ad _ | .installQuery _ _ ad _ | .installRelease _ _ ad _ => s.installVas ad
  | .pref _ cs h ag => (match s.prefTile cs h ag with | .ok c => c.pages.map (·.va) | .error _ => [])
  | .prefTensor _ cs h ag => (match s.prefTensorTile cs h ag with | .ok c => c.1.pages.map (·.va) | .error _ => [])
  | _ => match s.planned i with | some c => (c.pages ++ c.barPage.toList).map (·.va) | none => []

/-- Their pages. -/
def State.pagesOf (s : State) (i : Instr) : List TlbEntry :=
  (s.vasOf i).flatMap fun va => match s.translation (some s.here.core) s.myMx va with | .ok e => [e] | .error _ => []

/-- An access to a frame of a running exchange, or a save whose area lies in one, waits for its commit (R392). -/
def State.exchangeWait (s : State) (i : Instr) : Bool :=
  match s.exchange with
  | none => false
  | some x => (s.pagesOf i).any x.maps || (match i with
    | .mxsaveCkpt _ a _ | .mxsaveDrain _ a _ => s.saveable (s.saveMx a) && s.areaStalls (s.saveMx a)
    | _ => false)

/-- The physical ranges of G that a word reads or writes at its issue: of a LAUNCH also the entry of its target's ring, of an INSTALL its record, of a
system instruction of the housekeeping processor its PA operand. -/
def State.issueSpans (s : State) (i : Instr) : List (Nat × Nat) :=
  let at' := fun (va : Word) (n : Nat) =>
    if (spAlias va.toNat).isSome then []
    else if s.isHk then (match s.accessPhys va.toNat .read with | .ok x => [(x.pa, n)] | .error _ => [])
    else s.vaSpans (some s.here.core) s.myMx va.toNat n
  match i with
  | .tensorDef _ a => at' (s.g a) 32
  | .launch _ a => (s.launchVas a).flatMap (at' · 1) ++ (match s.launchTarget a with | some m => s.ringSpans m | none => [])
  | .shapeMem _ _ _ a => at' (s.a a) 32
  | .kvSplice _ ag => at' (s.a ag) 64
  | .pktTake _ _ => (List.range (s.mx s.myMx).ringLen).flatMap fun k => s.vaSpans none s.myMx ((s.mx s.myMx).entryVa k) 64
  | .install _ _ ad _ | .installQuery _ _ ad _ | .installRelease _ _ ad _ =>
    at' (BitVec.ofNat 64 (fieldLe (s.mySp ((s.a ad).toNat % spMod) 64) 0x10 8)) 64
  | .mxbind _ a b => ((s.g b).toNat, 256) :: s.bindSpans (s.g a).toNat (s.g b).toNat
  | .mxsaveCopy _ _ b | .mxsaveFree _ _ b | .mxsaveReset _ _ b | .mxsaveCkpt _ _ b | .mxsaveKill _ _ b | .mxsaveDrain _ _ b =>
    [((s.g b).toNat, 256)]
  | .keyldLoad _ _ b => [((s.g b).toNat, 64)]
  | _ => []

/-- A word that translates waits for the homes of its walk, and one that accesses G at its issue until the homes serve it (R328, R346, R348, R418). -/
def State.homeWait (s : State) (i : Instr) : Bool :=
  ((s.vasOf i).any fun va => s.walkStalls (some s.here.core) s.myMx va) || !s.spansOpen s.myAgent (s.issueSpans i)
    || (match i with
        | .launch _ a => (match s.launchTarget a with | some m => !s.ringUp m | none => false)
        | .mxbind _ a b => !s.bindUp (s.g a).toNat (s.g b).toNat || s.writesOwed (s.g a).toNat
        | _ => false)

/-! System words -/

/-- A remote LAUNCH waits for a slot of its partition on the UALink port of its device (R346). -/
def State.launchWait (s : State) (i : Instr) : Bool :=
  match i with
  | .launch _ a =>
    (match s.launchSpan a with
     | some (_, _, some dev) => Config.reachable dev && !s.mayLeave (2 + Config.ualinkPort dev % 18) (s.mx s.myMx).part 1
     | _ => false)
  | _ => false

/-- A system instruction of the housekeeping processor that has not completed; each counts as an access of every class (R360). -/
def State.hkBusy (s : State) : Bool := s.isHk && (s.hkOps != [] || s.scrubs.any fun c => c.dest.isSome)

/-- A word of the housekeeping processor that accesses memory, or counts as an access. -/
def hkAccess : Instr → Bool
  | .sld .. | .sst .. | .amo .. | .red .. | .fence .. | .pbInit .. | .pbArrive .. | .pbExpect .. | .pbTest .. | .tensorDef .. | .tensorUndef ..
  | .tlbi .. | .mxbind .. | .mxsaveCopy .. | .mxsaveFree .. | .mxsaveReset .. | .mxsaveCkpt .. | .mxsaveKill .. | .mxsaveDrain ..
  | .keyldLoad .. | .keyldUnload .. | .scrubCore .. | .scrubTenant .. | .eret => true
  | _ => false

/-- A save holds a translation of its area that an invalidation covers (R385, Table 20.7). -/
def State.drainCovered (s : State) (c : TlbScope) : Bool :=
  s.mxs.any fun e => e.2.savePages.any c.covers || (match e.2.drain with | some d => d.pages.any c.covers | none => false)

/-- An access that holds a covered translation is not performed yet (R331 step 3, R238). -/
def State.covered (s : State) (c : TlbScope) : Bool :=
  (s.reqs.any fun r => !r.performed && (match r.page with | some e => c.covers e | none => false))
    || (s.copies.any fun k => !k.frozen && ((!k.allDone && (k.pages ++ k.dpages).any c.covers) || k.barPage.any c.covers))
    || (s.emits.any fun e => c.covers e.stat)
    || (s.installs.any fun k => c.covers k.crPage || (!k.readDone && k.pages.any c.covers))
    || (s.kvs.any fun k => k.pages.any c.covers)
    || s.drainCovered c

/-- A float addition of the stream still to be acknowledged (R227). -/
def State.faddPending (s : State) : Bool :=
  (s.reqs.any fun r => s.mine r && !r.performed && (match r.op with | .atomic op _ _ _ _ => op == 8 | _ => false))
    || s.copies.any fun c => c.ref == s.myRef && c.kind == .redm 8

/-- The micro-context a save instruction names is still being stopped by a terminal fault. -/
def State.stopping (s : State) (a : BitVec 5) : Bool := (s.mx (s.saveMx a)).ending == some .terminal

/-- A write is in flight to a frame that an MXBIND under SIGCHK is to measure and lock (R376, R51 step 2), or may be made by a registration under
way. -/
def State.bindInFlight (s : State) (a b : BitVec 5) : Bool :=
  let m := (s.g a).toNat
  let pa := (s.g b).toNat
  if 16383 < m ∨ pa % 64 ≠ 0 ∨ s.paFails pa 256 ∨ (s.mx m).st ≠ .free then false
  else
    let img := Mx.reset.ofImage (s.peek pa 256)
    let t := s.setMx m img
    match (if img.sigchk then t.measure m else .error 0) with
    | .ok r =>
      let l := t.framesOf m (r.ranges ++ [(img.sigptr.toNat, 64)])
      s.writeInFlight l || s.scanRecordIn l
    | .error _ => false

def State.systemWait (s : State) (i : Instr) : Bool :=
  match i with
  | .launch _ _ | .tensorDef _ _ => s.ownPending
  | .tensorUndef _ b =>
    s.ownPending || (!s.isHk && s.copies.any fun c => c.kind == .tloadx && c.ref == s.myRef && c.tidx == (s.g b).toNat % 2 ^ 20)
  | .tlbi d a b rng mxe st => s.ownPending || ((s.part ((s.g a).toNat % 16)).active && s.covered (s.tlbScope d a b rng mxe st))
  | .tfence => s.faddPending
  | .mxsaveFree _ a _ | .mxsaveReset _ a _ => s.ownPending || s.stopping a
  | .mxbind _ a b => s.ownPending || s.bindInFlight a b
  | .mxsaveCopy _ _ _ | .mxsaveCkpt _ _ _ | .mxsaveKill _ _ _ | .mxsaveDrain _ _ _ | .keyldLoad _ _ _ | .keyldUnload _ _ _
  | .scrubCore _ _ | .scrubTenant _ _ | .eret => s.ownPending
  | _ => false

/-- The word waits at issue. -/
def State.mustWait (s : State) (i : Instr) : Bool :=
  s.regWait i || s.watchWait i || s.systemWait i || (hkAccess i && s.hkBusy) || s.launchWait i || s.emitWait i || s.aliasWait i || s.copyWait i || s.kvWait i || s.matrixWait i || s.exchangeWait i
    || s.homeWait i || s.sillWait i

/-- A matrix command that waits for the lease asks for it, and with the lease for the leave. -/
def State.askOwed (s : State) (i : Instr) : State :=
  if !s.leaseOwed i then s
  else if (s.core s.here.core).lease.holder != some s.here.slot then s.leaseAsk s.here.core s.here.slot
  else if s.mySeq.leaveAsked.isNone then (s.setMySeq { s.mySeq with leaveAsked := some s.dclk.toNat }).countShared (some s.myMx) 0x104 1
  else s

/-- A word of SC that is performed at its issue and releases earlier accesses: a LAUNCH, or a release to the SP alias. -/
def State.releasesAtIssue (s : State) (i : Instr) : Bool :=
  match i with
  | .launch _ _ => s.systemWait i
  | .sst _ _ b _ _ ord => s.aliasWait i && s.classMask ord b != 0
  | .amo _ _ _ _ _ ord | .red _ _ _ _ _ ord => s.aliasWait i && ord.getLsbD 1
  | _ => false

/-- A release that waits at its issue makes the merge entries with its stream's requests go on (R196). -/
def State.forwardMine (s : State) (i : Instr) : State :=
  if s.releasesAtIssue i then
    { s with reqs := s.reqs.map fun r =>
        if r.merged != [] && !r.performed && (r :: r.merged.filterMap s.req).any s.mine then { r with fwd := true } else r }
  else s

/-- An MMA that meets a refresh window begins to wait for its end (R98). -/
def State.noteWait (s0 : State) (i : Instr) : State :=
  let s := (s0.askOwed i).forwardMine i
  if s.refreshBlocked i && s.me.refreshWait.isNone then s.setMe { s.me with refreshWait := some s.dclk.toNat } else s

/-! Rows that a descriptor selects -/

def State.rowOf (s : State) (i : Instr) : Instr :=
  let byte := fun (ad : BitVec 4) (k : Nat) => fieldLe (s.mySp ((s.a ad).toNat % spMod) 64) k 1
  match i with
  | .kvQry w => if bit (byte w.ad 3) 4 then .kvQryResume w else i
  | .kvDrop w => if bit (byte w.ad 3) 1 then .kvDropAll w else i
  | .kvRepairOpen w =>
    (match byte w.ad 0x23 with
     | 1 => .kvRepairCmp w
     | 2 => .kvRepairApply w
     | 3 => .kvRepairAbort w
     | _ => i)
  | .install y cs ad tag =>
    (match byte ad 0 with
     | 1 => .installQuery y cs ad tag
     | 2 => .installRelease y cs ad tag
     | _ => i)
  | _ => i

/-! What may come next -/

/-- The sequencers of the streams, and the housekeeping processor. -/
def State.agents (s : State) : List Agent :=
  (s.cores.flatMap fun c => (c.2.streams.filter fun k => k.2.mx.isSome).flatMap fun k =>
    [Section.sc, .ld, .cm, .st].map fun e => Agent.seq { core := c.1, slot := k.1, sec := e }) ++ [.hk]

/-- A step of the device: a meaning with its operands, as an arm of `exec` calls it. -/
abbrev Step1 := State → Out

/-- Steps of requests, copies and other operations in flight. -/
def State.flightMoves (s : State) : List Step1 :=
  (s.reqs.flatMap fun r =>
    [execScalarResultDelivery r.id, execMergeEntryForward r.id, execHomeAccess r.id, execAtomicAtHome r.id, execBarrierUpdate [r.id],
     execDoorbell r.id, execRcfgWrite r.id, execRegisterWrite r.id, execIoAccess r.id]) ++ [execMcsumRead]
    ++ (s.copies.flatMap fun c =>
      ((List.range c.units).filter fun n => !c.done.contains n && !c.sent.contains n).map (fun n => execCopyUnitPerformed c.id n)
        ++ [execCopyCompletion c.id, execBtCopyCompletion c.id])
    ++ (s.peers.map fun p => execMpeerDelivery p.id) ++ (s.emits.map fun e => execPktEmitCompletion e.id)
    ++ (s.kvs.flatMap fun k => execKvArenaPerform k.id :: (match k.query with
        | some q => (List.range (q.pages.length * q.units)).map fun n => execPageStateMerge k.id n
        | none => []))
    ++ (s.installs.flatMap fun k => [execInstallSourceReadDone k.id, execInstallCommit k.id])

/-- Steps of arenas: page-ins and shared blocks. -/
def State.arenaMoves (s : State) : List Step1 :=
  s.arenas.flatMap fun e =>
    (e.2.pages.filter fun p => p.2.pagingIn).map (fun p => execPageInComplete e.1 (p.1 / 4096) (p.1 % 4096) true)
      ++ e.2.sbref.map fun b => execSharedBlockFree e.1 b.1

/-- Steps of streams and cores. -/
def State.streamMoves (s : State) : List Step1 :=
  (s.cores.flatMap fun c =>
    (c.2.streams.flatMap fun k =>
      k.2.pushes.flatMap (fun p => [execBlockEndPushSettlement c.1 k.1 p.queue, execPushAfterToken c.1 k.1 p.queue])
        ++ (if k.2.swing.isSome then [execSwingExchange c.1 k.1, execSwingTimeout c.1 k.1] else []))
      ++ [execLeaseTermLimit c.1, execLeaseIdleRelease c.1, execLeaseHoldExpiry c.1])
    ++ (s.agents.flatMap fun a => match a with
      | .seq q =>
        if (s.seqr q).phase == .waiting || (s.seqr q).leaveAsked.isSome then
          [execBlockAdmission q, execLeaveGrant q, execLeaveRequestAging q, execStreamWaitEscape q]
        else []
      | .hk => [])

/-- Steps of micro-contexts. -/
def State.mxMoves (s : State) : List Step1 :=
  (s.mxs.flatMap fun e =>
    [execSaveReport e.1, execSaveDrainComplete e.1, execBinding e.1, execEdfRelease e.1, execOverrun e.1, execTeamSwap e.1,
     execSwappedTeamReturn e.1]
      ++ (if e.2.reserved.isSome ∨ e.2.st = .swapped then [execRestoreImageLoaded e.1] else []))
    ++ [execDispatchDecision] ++ s.mxs.map fun e => execColdStartFill e.1

/-- Management commands, in the order of Table 19.7. -/
def State.commandMoves (s : State) : List Step1 :=
  if s.aperture.busy then
    [execSegreg, execSegwd, execSeghash, execArset, execArdel, execPgout, execDocreg, execDocdel, execIxevict, execPgempty, execFlowset,
     execFlowdel, execPartset, execShtset, execSlotrd, execPpause, execPresume, execPexport, execPimport, execVkset, execQuote, execCmddone]
  else []

/-- The device's own steps. -/
def State.deviceMoves (s : State) : List Step1 :=
  ((s.segs.filter fun e => !e.2.ok).map fun e => execCodeScan e.1) ++ s.commandMoves
    ++ (s.scrubs.map fun c => execScrubComplete c.id) ++ ((s.llc.filter fun e => e.2.retiring).map fun e => execRetiringLineWriteback e.1)
    ++ (s.keys.filter fun e => e.2.st == 2).map (fun e => execKeySlotEmpty e.1)
    ++ (s.retiring.map fun k => execSpareColumnActivation (k / 64) (k % 64)) ++ [execTierExchangeCommit]
    ++ (s.shutPend.map fun e => execShutterTableActivation e.1) ++ [execSharedCounterSample, execResidencyReport]
    ++ s.walks.map fun w => execTranslationWalk w.core w.mx (BitVec.ofNat 64 w.va)

/-- The operations of the device that may be due, in the order in which a device without an agenda tries them (log 2). -/
def State.pendingMoves (s : State) : List Step1 :=
  s.flightMoves ++ s.arenaMoves ++ s.streamMoves ++ s.deviceMoves ++ s.mxMoves

end Sys2Proof.Machine
end

