-- ==== Sys2Proof/Machine/Clock.lean ====
section
/-! DEFINITION. What an agent does next, what the issue of a word and the passing of time change, and what follows by itself after every
step. -/

namespace Sys2Proof.Machine

open Sys2Proof

/-! The next move of an agent -/

/-- What an agent does next. -/
inductive AgentMove where
  /-- A fetched and decoded word of the segment with this number. -/
  | word (segId : Nat) (i : Instr)
  /-- A decoded word that waits at issue. -/
  | wait (i : Instr)
  /-- A move at a block boundary. -/
  | control (i : Instr)
  | stall
  | fault (f : FaultInfo)
  /-- The word is the first to consume a value lost to an uncorrectable error: the load's request. -/
  | poison (r : Req)
  | illegal
  | wrong

/-- Whether a decoded word is one of the agent's (R355, R356). -/
def State.hasWord (s : State) (i : Instr) : Bool := if s.isHk then !i.streamOnly else !i.privileged

/-- The next word of the agent. -/
def State.nextWord (s : State) : AgentMove :=
  match s.fetch with
  | .wait => .stall
  | .fault f => .fault f
  | .word k w =>
    match decodeWord s.here.sec w with
    | none => .illegal
    | some i =>
      if !s.hasWord i then .wrong
      else
        match s.poisoned i with
        | some r => .poison r
        | none => if s.mustWait i then .wait i else .word k (s.rowOf i)

/-- The next move of the agent `cur`. -/
def State.agentMove (s : State) : AgentMove :=
  match s.cur with
  | .hk =>
    match s.hk.phase with
    | .ended => .control .firmwareRestart
    | .unbound => .stall
    | .running => if s.hk.left = 0 then .control .hkEventDelivery else s.nextWord
    | _ => if s.hk.halted && s.events.isEmpty then .stall else .control .hkEventDelivery
  | .seq q =>
    let y := s.seqr q
    match y.phase with
    | .waiting => .control (.blockAdmission q)
    | .running => if y.stopped then .stall else if y.left = 0 then .control (.blockInstanceEnd q) else s.nextWord
    | _ => .stall

/-! Units that are busy (R322) -/

/-- A word of the vector unit. -/
def isVector : Instr → Bool
  | .vadd _ | .vsub _ | .vmul _ | .vmulHi _ | .vfma _ | .vmin _ | .vmax _ | .vand _ | .vor _ | .vxor _ | .vnot _ | .vandMask _
  | .vorMask _ | .vxorMask _ | .vnotMask _ | .vshl _ | .vshr _ | .vsar _ | .vfshl _ | .vfshr _ | .vclz _ | .vpopc _ | .vcmp _ | .vsel _
  | .vmov _ | .vmovFromMask _ | .vmovToMask _ | .vbcast _ | .vperm _ | .vcompress _ | .vexpand _ | .vred _ | .vgred _ | .vscan _ | .vexp2 _
  | .vlog2 _ | .vrcp _ | .vrsq _ | .vcvtRaw _ | .vcvtToDesc _ | .vcvtFromDesc _ | .vcvtDescDesc _ | .vpack _ | .vunpack _ | .vld _ | .vst _
  | .vldu _ | .vstu _ | .vgath _ | .vscat _ | .vbtest _ => true
  | _ => false

/-- A word of the matrix array. -/
def isMatrix : Instr → Bool
  | .mma _ | .mmaz _ | .mhrot _ | .mhrotS256 _ | .mdrain _ | .mbyp _ | .maccld _ | .mclr _ _ _ => true
  | _ => false

/-- Log2 of the elements that a reduction or scan meets, and its steps: four for each under a float addition (Table 6.3). -/
def treeCycles (w : FormV) : Nat := 4 + (if w.tyF && w.sub == 0 then 4 else 1) * Nat.log2 (2048 / w.width)

/-- The cycles in which the matrix array or the vector unit performs a word: the time to its performance that Tables 5.3 and 6.3 give (log 53). -/
def State.wordCycles (s : State) (i : Instr) : Nat :=
  match i with
  | .mma w | .mmaz w => mmaCycles w (match s.mmaRows w with | .ok (_, _, sp) => sp | .error _ => false) + 4
  | .mhrot w => 6 + brickPasses false 2 (w.caM1.toNat + 1) 1
  | .mhrotS256 _ => 70
  | .mdrain _ | .mbyp _ | .maccld _ => 72
  | .mclr _ _ _ => 2
  | .vadd w | .vsub w | .vmin w | .vmax w | .vcmp w => if w.tyF then 4 else 2
  | .vmul w | .vmulHi w | .vfma w => if w.tyF then 4 else 3
  | .vfshl _ | .vfshr _ | .vclz _ | .vpopc _ | .vperm _ | .vcompress _ | .vexpand _ | .vpack _ | .vunpack _ | .vandMask _ | .vorMask _
  | .vxorMask _ | .vnotMask _ | .vst _ | .vstu _ => 3
  | .vred w | .vgred w | .vscan w => treeCycles w
  | .vexp2 _ | .vlog2 _ | .vrcp _ | .vrsq _ => 12
  | .vcvtRaw _ | .vld _ | .vldu _ => 4
  | .vcvtToDesc _ | .vcvtFromDesc _ | .vcvtDescDesc _ => 10
  | .vgath _ | .vscat _ | .vbtest _ => 5
  | _ => 2

/-- `n` idle or busy cycles of a unit in the launch's present phase: that of the highest entry accessed, modulo 64, and 0 before any. -/
def Mx.phaseCount (x : Mx) (unit : Nat) (isBusy : Bool) (n : Nat) : Mx :=
  let k := 16 * ((x.coldHigh - 1) % 64) + 2 * unit + isBusy.toNat
  if n = 0 then x
  else { x with busy := x.busy.put k (BitVec.ofNat 32 (min (2 ^ 32 - 1) ((AMap.get 0 x.busy k).toNat + n))) }

/-! Issue -/

/-- A word issues: it is counted (Table 19.6), a word of the matrix array or the vector unit makes it busy (R322), the misses of its pages are asked
of the walker pool (R166), the homes of what it accesses at its issue have served it (R348), and its segment counts as fetched from.

DESIGN CHOICE (log 49): a micro-context has fetched from a segment (R51) once a word of it has issued; headers that were only read do not
count. -/
def State.issued (s : State) (segId : Nat) (i : Instr) : State :=
  let l := s.issueSpans i
  if s.isHk then (s.wordMet i).spansServed none l
  else
    let m := s.myMx
    let s1 := ((((s.wordMet i).spansServed s.myAgent l).noteFetch segId m).count m 2 1).askWalks s.here.core m (s.pagesOf i)
    let till := s.dclk.toNat + s.wordCycles i
    if isMatrix i then s1.setMx m { s1.mx m with matTo := max till (s1.mx m).matTo }
    else if isVector i then s1.setMx m { s1.mx m with vecTo := max till (s1.mx m).vecTo }
    else s1

/-- The words left in the running block. -/
def State.wordsLeft (s : State) : Nat := match s.cur with | .hk => s.hk.left | .seq q => (s.seqr q).left

/-- A completed word has overwritten a register: a lost value that stood in it has no consumer any more (R214). `s` is the state before it. -/
def State.overwritten (s : State) (i : Instr) (t : State) : State :=
  match gWrites i with
  | some d =>
    if t.wordsLeft < s.wordsLeft then
      { t with reqs := t.reqs.filter fun q => !(s.mine q && q.err.isSome && q.dest == some d && decide (q.id < s.nextId)) }
    else t
  | none => t

/-! Time -/

/-- A sequencer of the team runs an admitted block instance. -/
def State.seqBusy (s : State) (m : Nat) (c : Section) : Bool :=
  (s.teamSlots m).any fun e => ((s.stream e.1 e.2).seqr c).phase == .running && !((s.stream e.1 e.2).seqr c).stopped

/-- Cycles, of `n` from now on, of a slot in which a mullion bus carried something for the team. -/
def State.busCycles (s : State) (m n : Nat) : Nat :=
  let k := s.mullSlot
  let used := fun (e : Nat × Nat × Nat) => e.2.1 == k && decide (0 < e.2.2) && (AMap.get MullSlot.reset s.mull (16 * e.1 + k % 16)).mx == m
  if s.mullUsed.any used then min n (2 * (k + 1) - s.dclk.toNat) else 0

/-- A copy unit carries a copy of the team: a peer fill travels by the mullion, and block transfers have an engine of their own. -/
def State.copyBusy (s : State) (m : Nat) : Bool :=
  s.copies.any fun c => c.ref.mx == m && !c.frozen && !(match c.kind with | .cfillPeer => true | .bt => true | _ => false)

/-- The units of a team over `n` cycles (R322): LD, CM, ST, SC, matrix array, vector unit, mullion bus, copy units. -/
def State.phaseTick (s : State) (m n : Nat) (x : Mx) : Mx :=
  let all := fun (b : Bool) => if b then n else 0
  let l := [all (s.seqBusy m .ld), all (s.seqBusy m .cm), all (s.seqBusy m .st), all (s.seqBusy m .sc), min n (x.matTo - s.dclk.toNat),
    min n (x.vecTo - s.dclk.toNat), s.busCycles m n, all (s.copyBusy m)]
  l.zipIdx.foldl (fun y b => (y.phaseCount b.2 true b.1).phaseCount b.2 false (n - b.1)) x

/-- Throttled tiers of the stack that a bound micro-context's team runs on, each of which counts its throttle cycles (Table 19.6; log 32). -/
def State.throttledFor (s : State) (x : Mx) : Nat :=
  match x.st, x.team with
  | .bound, some t => ((List.range 4).filter fun k => decide (0 < (s.tier (4 * t.stack + k)).level)).length
  | _, _ => 0

/-- The shared counters after `n` cycles: every micro-context's throttle cycles rise. -/
def State.throttle (s : State) (n : Nat) : State :=
  s.mxs.foldl (fun t e => if s.throttledFor e.2 = 0 then t else t.countShared (some e.1) 0x105 (n * s.throttledFor e.2)) s

/-- The samples of the shared counters after `n` cycles, newest first: one for each multiple of 1.024 ms, with the counts as they stand in the cycle
of the multiple (R343). -/
def State.sampledAfter (s : State) (n : Nat) : List (AMap Nat) :=
  let k := s.samples.length
  ((List.range ((s.dclk.toNat + n) / epochCycles - k)).map fun i => (s.throttle ((k + i + 1) * epochCycles - s.dclk.toNat)).shared).reverse ++ s.samples

/-- A micro-context over `n` cycles: its cycles BOUND, its budget and its phase table (R310, R322, Table 19.6). -/
def State.mxTick (s : State) (n : Nat) (e : Nat × Mx) : Nat × Mx :=
  let x := if e.2.st == .bound then s.phaseTick e.1 n (e.2.count 0 n) else e.2
  (e.1, if s.charged e.1 then x.charge n else x)

/-- The clock runs on: DCLK, the link time base, the micro-contexts, the sample of the shared counters when its time comes (R343), and the
SWINGs that wait (R111). -/
def State.tick (s : State) (n : Nat) : State :=
  let s1 := { s with
    dclk := s.dclk + BitVec.ofNat 64 n
    ltb := s.ltb + BitVec.ofNat 64 (5 * (s.dclk.toNat + n) / 4 - 5 * s.dclk.toNat / 4)
    shared := (s.throttle n).shared
    samples := s.sampledAfter n
    mxs := s.mxs.map (s.mxTick n) }
  s1.restartYields.swings n

/-! Simultaneous events (Tables 17.8 and 20.7, R253, R365) -/

/-- The decoded word an agent runs next. -/
def State.wordOf (s : State) (a : Agent) : Option Instr :=
  let u := { s with cur := a }
  let runs : Bool := match a with | .hk => u.hk.phase == .running && decide (0 < u.hk.left) | .seq q => (u.seqr q).phase == .running && decide (0 < (u.seqr q).left)
  if !runs then none else match u.fetch with | .word _ w => decodeWord u.here.sec w | _ => none

/-- The IDLE micro-context that a move appends a request to. -/
def State.appendsTo (s : State) (v : Move) : Option Nat :=
  let m := match v with
    | .event (.requestMessage _ flow msg) => s.msgTarget flow msg
    | .event (.remoteLaunchArrival _ _ desc _) => some (fieldLe desc 0 2 % 16384)
    | .agent (.seq q) =>
      (match s.wordOf (.seq q) with
       | some (.launch _ a) =>
         let u := { s with cur := .seq q }
         (match u.scalarRead (u.g a).toNat 64 64 with | .ok l => some (fieldLe l 0 2 % 16384) | .error _ => none)
       | _ => none)
    | _ => none
  m.filter fun k => (s.mx k).st == .idle

/-- The micro-context that the housekeeping processor's next word saves, resets, kills or frees. -/
def State.hkTakes (s : State) : Option Nat :=
  match s.wordOf .hk with
  | some (.mxsaveCopy _ a _) | some (.mxsaveFree _ a _) | some (.mxsaveReset _ a _) | some (.mxsaveCkpt _ a _)
  | some (.mxsaveKill _ a _) | some (.mxsaveDrain _ a _) => some ((({ s with cur := .hk } : State).g a).toNat % 16384)
  | _ => none

/-- A move of the dispatcher concerns a micro-context: it binds, returns, swaps or ends it, or may choose it. -/
def State.decides (s : State) (v : Move) (m : Nat) : Bool :=
  match v with
  | .event .dispatchDecision => s.waiting m || (s.mx m).st == .bound
  | .event (.binding k) => k == m
  | .event (.swappedTeamReturn k) => k == m
  | .event (.teamSwap k) => k == m
  | .event (.overrun k) => k == m
  | _ => false

/-- The stream whose tile-task a move may help to end: the end of a TEND block, or a push or a peer image that completed blocks may wait for. Other
moves of the cycle may end the rest. -/
def State.mayEndTask (s : State) (v : Move) : Option (Nat × Nat) :=
  let ends := fun (q : SeqId) =>
    let y := s.seqr q
    let word : Bool := match s.wordOf (.seq q) with | some i => i.blockFinal && (y.hdr.tend || i == .halt) | none => y.hdr.tend && y.left == 0
    if y.phase == .running && decide (y.reps ≤ 1) && word then some (q.core, q.slot) else none
  match v with
  | .agent (.seq q) => ends q
  | .event (.blockInstanceEnd q) => ends q
  | .event (.blockEndPushSettlement c k _) => some (c, k)
  | .event (.pushAfterToken c k _) => some (c, k)
  | .event (.mpeerDelivery id) => (s.peers.find? fun p => p.id == id).bind fun p => s.slotOf p.ref
  | _ => none

/-- A move may help to complete a launch: it ends, or helps to end, the last tile-task of a stream. -/
def State.mayComplete (s : State) (v : Move) : Bool :=
  match s.mayEndTask v with
  | none => false
  | some e =>
    let x := s.stream e.1 e.2
    (match v with | .agent a => s.wordOf a == some .halt | _ => false) || x.halted || decide (gridTotal (s.gridOf x) ≤ x.task)

/-- Streams whose tile-task can now end. -/
def State.endTasks (s : State) : State :=
  (s.cores.flatMap fun c => (c.2.streams.filter fun k => k.2.sc.phase == .ended).map fun k => (c.1, k.1)).foldl
    (fun t e => t.taskEnd e.1 e.2) s

/-- An outcome whose next state goes on with `f`. -/
def mapOut (f : State → State) : Out → Out
  | .next s => .next (f s)
  | o => o

/-- The micro-context in whose team a move raises a fault at a header or a boundary (R42, R241). -/
def State.raisesAtHeader (s : State) (v : Move) : Option Nat :=
  let raised := fun (k : Nat × Nat) (o : Out) =>
    match o with
    | .next t => if (t.stream k.1 k.2).held && t.eventCount != s.eventCount then (s.stream k.1 k.2).mx else none
    | _ => none
  let held := fun (q : SeqId) (o : Out) => raised (q.core, q.slot) o
  match v with
  | .event (.blockAdmission q) => held q (execBlockAdmission q s)
  | .event (.blockInstanceEnd q) => held q (execBlockInstanceEnd q s)
  | .event (.blockEndPushSettlement c k n) => raised (c, k) (execBlockEndPushSettlement c k n s)
  | .event (.pushAfterToken c k n) => raised (c, k) (execPushAfterToken c k n s)
  | .event (.mpeerDelivery id) =>
    ((s.peers.find? fun p => p.id == id).bind fun p => s.slotOf p.ref).bind fun k => raised k (mapOut State.endTasks (execMpeerDelivery id s))
  | .agent (.seq q) =>
    (match (s.seqr q).phase with
     | .waiting => held q (execBlockAdmission q s)
     | .running => if (s.seqr q).left = 0 then held q (execBlockInstanceEnd q s) else none
     | _ => none)
  | _ => none

/-- A move stops or ends the team of a micro-context, or may. -/
def State.mayStop (s : State) (v : Move) (m : Nat) : Bool :=
  match v with
  | .agent .hk => s.hkTakes == some m
  | .event .dispatchDecision => true
  | .event (.overrun k) => k == m
  | .event (.teamSwap k) => k == m
  | _ => false

/-- The streams whose control registers a step of the device may update: tags, flags, watch registers. -/
def State.updates (s : State) (v : Move) : List StreamRef :=
  let reqRefs := fun (ids : List Nat) => (ids.flatMap fun id => match s.req id with | some r => r :: r.merged.filterMap s.req | none => []).filterMap (·.ref)
  match v with
  | .event (.copyCompletion id) | .event (.copyUnitPerformed id _) => (s.copy id).toList.map (·.ref)
  | .event (.pktEmitCompletion id) => (s.emits.filter fun e => e.id == id).map (·.ref)
  | .event (.kvArenaPerform id) | .event (.pageStateMerge id _) => (s.kv id).toList.map (·.ref)
  | .event (.pageInComplete _ _ _ _) | .event .pgempty => s.kvs.map (·.ref)
  | .event (.installSourceReadDone id) | .event (.installCommit id) => (s.installs.filter fun i => i.id == id).map (·.ref)
  | .event (.homeAccess id) | .event (.atomicAtHome id) => reqRefs [id]
  | .event (.barrierUpdate ids) => reqRefs ids
  | _ => []

/-- The register, and the stream, that a move of an SC sequencer writes by CWR. -/
def State.writesCtl (s : State) (v : Move) : Option StreamRef :=
  match v with
  | .agent (.seq q) => (match s.wordOf (.seq q) with | some (.cwr _ _) => some (s.strm q).ref | _ => none)
  | _ => none

/-- A CWR of the housekeeping processor to WTH. -/
def State.writesWth (s : State) (v : Move) : Bool :=
  match v with
  | .agent .hk => (match s.wordOf .hk with | some (.cwr _ n) => n == 0x060 | _ => false)
  | _ => false

/-- The sequencer of a stream that a move is of: its next word, or what it does at a header or at the end of its block. -/
def Move.seqOf : Move → Option SeqId
  | .agent (.seq q) => some q
  | .event (.blockAdmission q) => some q
  | .event (.blockInstanceEnd q) => some q
  | _ => none

/-- Of two moves in one cycle the second goes first: a word of the housekeeping processor that takes a micro-context, before an append to it or a
decision about it (Table 17.8, R365); a move that may end a tile-task with which a launch completes, before the decision that may choose its team as a
victim, and an overrun, before the tile-task boundary that is its drain point (Table 17.8); of two sequencers of a stream the earlier of SC, LD, CM, ST,
so that their faults are recorded, and their changes of an LC register made, in that order (Table 20.7, R253); a held fault at a header or a boundary,
before what stops or kills its team, a unit of a copy before the freeze, and an atomic before the commit of an exchange (Table 20.7); a CWR, before
what the device writes to its stream's registers, so that the hardware's update stands and a flag that is set and cleared stays set (R87, R227); and a
swap under the old WTH, before the write that replaces it (R227). -/
def State.goesFirst (s : State) (t u : Move) : Bool :=
  (match s.raisesAtHeader u with | some m => s.mayStop t m | none => false)
    || (match s.writesCtl u with | some r => (s.updates t).contains r | none => false)
    || (match t.seqOf, u.seqOf with
        | some p, some q => p.core == q.core && p.slot == q.slot && decide (q.sec.code < p.sec.code)
        | _, _ => false)
    ||
  match u with
  | .agent .hk => (match s.hkTakes with | some m => s.appendsTo t == some m || s.decides t m | none => false)
  | .event (.overrun m) => (match s.mayEndTask t with | some e => (s.stream e.1 e.2).mx == some m | none => false)
  | .event (.teamSwap _) => s.writesWth t
  | .event (.copyUnitPerformed id _) => (match t with | .event (.saveReport m) => s.copies.any fun c => c.id == id && c.ref.mx == m | _ => false)
  | .event (.atomicAtHome _) => t == .event .tierExchangeCommit
  | _ => t == .event .dispatchDecision && s.mayComplete u

/-- The turns of the agenda's first cycle. -/
def State.thisCycle (s : State) : List Turn :=
  match s.agenda with
  | t :: r => t :: r.takeWhile fun u => u.cycles == 0
  | [] => []

/-- The agenda with the first turn of its first cycle that none of the others goes before put in front. -/
def State.sorted (s : State) : List Turn :=
  match s.agenda with
  | t :: r =>
    match s.thisCycle.findIdx? fun u => s.thisCycle.all fun x => !s.goesFirst u.move x.move with
    | some (i + 1) => { r.getD i t with cycles := t.cycles } :: { t with cycles := 0 } :: r.eraseIdx i
    | _ => t :: r
  | [] => []

/-! What follows by itself (R32, R316, R365, R382, R414, R415) -/

/-- What the step just made leads to at once: tile-tasks that end, teams that have stopped and are discarded, leases of stopped streams, teams on retired columns,
statuses that are ready, router entries that are waited for (R196), SWINGs whose conditions hold now (R111), teams of a resumed partition that find a
tile group, writes of event words and phase tables. -/
def State.settle (s : State) : State :=
  let s1 := s.endTasks.settleStops.restartYields.releaseLeases
  let s2 := if s1.retiring = [] ∧ s1.lostCols = [] then s1
    else ((s1.mxs.map (·.1)).foldl (fun t m => (t.actOnRetired m).saveLost m) s1).settleStops
  let s3 := (s2.deliverHkOps.forwardEntries).swings 0
  let s4 := ((s3.mxs.filter fun e => e.2.homeless).map (·.1)).foldl State.resumeHomeless s3
  ((s4.parts.map (·.1)).foldl State.forwardOne s4).performDevs

end Sys2Proof.Machine
end

