-- ==== Sys2Proof/Machine/Dispatch.lean ====
section
/-! DEFINITION. The meaning of every instruction: one arm a constructor, each a direct call. -/

namespace Sys2Proof.Machine

open Sys2Proof

def exec (i : Instr) (s : State) : Host.Outcome State Fault Refusal :=
  match i with
  | .add d a b => Sys2Proof.Machine.execAdd d a b s
  | .addi d a i0 => Sys2Proof.Machine.execAddi d a i0 s
  | .sub d a b => Sys2Proof.Machine.execSub d a b s
  | .mul d a b => Sys2Proof.Machine.execMul d a b s
  | .mulh d a b sg => Sys2Proof.Machine.execMulh d a b sg s
  | .div d a b u => Sys2Proof.Machine.execDiv d a b u s
  | .rem d a b u => Sys2Proof.Machine.execRem d a b u s
  | .and d a b => Sys2Proof.Machine.execAnd d a b s
  | .or d a b => Sys2Proof.Machine.execOr d a b s
  | .xor d a b => Sys2Proof.Machine.execXor d a b s
  | .andn d a b => Sys2Proof.Machine.execAndn d a b s
  | .shl d a b => Sys2Proof.Machine.execShl d a b s
  | .shlImm d a sh => Sys2Proof.Machine.execShlImm d a sh s
  | .shr d a b => Sys2Proof.Machine.execShr d a b s
  | .shrImm d a sh => Sys2Proof.Machine.execShrImm d a sh s
  | .sar d a b => Sys2Proof.Machine.execSar d a b s
  | .sarImm d a sh => Sys2Proof.Machine.execSarImm d a sh s
  | .rol d a b => Sys2Proof.Machine.execRol d a b s
  | .rolImm d a sh => Sys2Proof.Machine.execRolImm d a sh s
  | .fshl d a b c => Sys2Proof.Machine.execFshl d a b c s
  | .fshlImm d a b sh => Sys2Proof.Machine.execFshlImm d a b sh s
  | .fshr d a b c => Sys2Proof.Machine.execFshr d a b c s
  | .fshrImm d a b sh => Sys2Proof.Machine.execFshrImm d a b sh s
  | .clz d a => Sys2Proof.Machine.execClz d a s
  | .ctz d a => Sys2Proof.Machine.execCtz d a s
  | .popc d a => Sys2Proof.Machine.execPopc d a s
  | .min d a b => Sys2Proof.Machine.execMin d a b s
  | .max d a b => Sys2Proof.Machine.execMax d a b s
  | .minu d a b => Sys2Proof.Machine.execMinu d a b s
  | .maxu d a b => Sys2Proof.Machine.execMaxu d a b s
  | .sext d a n => Sys2Proof.Machine.execSext d a n s
  | .zext d a n => Sys2Proof.Machine.execZext d a n s
  | .lui d i0 => Sys2Proof.Machine.execLui d i0 s
  | .mov d a => Sys2Proof.Machine.execMov d a s
  | .movFromPred d k => Sys2Proof.Machine.execMovFromPred d k s
  | .movToPred p a => Sys2Proof.Machine.execMovToPred p a s
  | .sel d a b neg k => Sys2Proof.Machine.execSel d a b neg k s
  | .cmp p a b cc => Sys2Proof.Machine.execCmp p a b cc s
  | .addx d a b sh => Sys2Proof.Machine.execAddx d a b sh s
  | .madd d a b c => Sys2Proof.Machine.execMadd d a b c s
  | .br off => Sys2Proof.Machine.execBr off s
  | .brc p neg off => Sys2Proof.Machine.execBrc p neg off s
  | .call off => Sys2Proof.Machine.execCall off s
  | .ret a => Sys2Proof.Machine.execRet a s
  | .loop k off => Sys2Proof.Machine.execLoop k off s
  | .sync a b c d => Sys2Proof.Machine.execSync a b c d s
  | .sld d a b cs sz ord => Sys2Proof.Machine.execSld d a b cs sz ord s
  | .sst d a b cs sz ord => Sys2Proof.Machine.execSst d a b cs sz ord s
  | .amo d a sz8 op cs ord => Sys2Proof.Machine.execAmo d a sz8 op cs ord s
  | .red d a sz8 op cs ord => Sys2Proof.Machine.execRed d a sz8 op cs ord s
  | .fence scope mask => Sys2Proof.Machine.execFence scope mask s
  | .pbInit d a b cs => Sys2Proof.Machine.execPbInit d a b cs s
  | .pbArrive d a b cs we k => Sys2Proof.Machine.execPbArrive d a b cs we k s
  | .pbExpect a b cs => Sys2Proof.Machine.execPbExpect a b cs s
  | .pbTest d a cs => Sys2Proof.Machine.execPbTest d a cs s
  | .wanyTm p k => Sys2Proof.Machine.execWanyTm p k s
  | .wanyReg p a => Sys2Proof.Machine.execWanyReg p a s
  | .wallTm p k => Sys2Proof.Machine.execWallTm p k s
  | .wallReg p a => Sys2Proof.Machine.execWallReg p a s
  | .ffrdyTm d k => Sys2Proof.Machine.execFfrdyTm d k s
  | .ffrdyReg d a => Sys2Proof.Machine.execFfrdyReg d a s
  | .tensorDef d a => Sys2Proof.Machine.execTensorDef d a s
  | .tensorUndef d b => Sys2Proof.Machine.execTensorUndef d b s
  | .trap a i0 => Sys2Proof.Machine.execTrap a i0 s
  | .tfence => Sys2Proof.Machine.execTfence s
  | .eret => Sys2Proof.Machine.execEret s
  | .crd d i0 => Sys2Proof.Machine.execCrd d i0 s
  | .cwr a i0 => Sys2Proof.Machine.execCwr a i0 s
  | .tlbi d a b rng mxe st => Sys2Proof.Machine.execTlbi d a b rng mxe st s
  | .mxbind d a b => Sys2Proof.Machine.execMxbind d a b s
  | .mxsaveCopy d a b => Sys2Proof.Machine.execMxsaveCopy d a b s
  | .mxsaveFree d a b => Sys2Proof.Machine.execMxsaveFree d a b s
  | .mxsaveReset d a b => Sys2Proof.Machine.execMxsaveReset d a b s
  | .mxsaveCkpt d a b => Sys2Proof.Machine.execMxsaveCkpt d a b s
  | .mxsaveKill d a b => Sys2Proof.Machine.execMxsaveKill d a b s
  | .mxsaveDrain d a b => Sys2Proof.Machine.execMxsaveDrain d a b s
  | .keyldLoad d a b => Sys2Proof.Machine.execKeyldLoad d a b s
  | .keyldUnload d a b => Sys2Proof.Machine.execKeyldUnload d a b s
  | .scrubCore d a => Sys2Proof.Machine.execScrubCore d a s
  | .scrubTenant d a => Sys2Proof.Machine.execScrubTenant d a s
  | .setest a => Sys2Proof.Machine.execSetest a s
  | .yield => Sys2Proof.Machine.execYield s
  | .halt => Sys2Proof.Machine.execHalt s
  | .perfrd d a i0 => Sys2Proof.Machine.execPerfrd d a i0 s
  | .launch d a => Sys2Proof.Machine.execLaunch d a s
  | .hintPf a i0 => Sys2Proof.Machine.execHintPf a i0 s
  | .hintBl l off => Sys2Proof.Machine.execHintBl l off s
  | .hint0 v => Sys2Proof.Machine.execHint0 v s
  | .hint1 v => Sys2Proof.Machine.execHint1 v s
  | .hint2 v => Sys2Proof.Machine.execHint2 v s
  | .hint3 v => Sys2Proof.Machine.execHint3 v s
  | .hint4 v => Sys2Proof.Machine.execHint4 v s
  | .hint5 v => Sys2Proof.Machine.execHint5 v s
  | .nop cm y => Sys2Proof.Machine.execNop cm y s
  | .shape y hd idx => Sys2Proof.Machine.execShape y hd idx s
  | .shapeMem y cs hd a => Sys2Proof.Machine.execShapeMem y cs hd a s
  | .adda y d a t te sh imm => Sys2Proof.Machine.execAdda y d a t te sh imm s
  | .movaImm y d sh imm => Sys2Proof.Machine.execMovaImm y d sh imm s
  | .movaGpos y d k => Sys2Proof.Machine.execMovaGpos y d k s
  | .movaSp y cs d off => Sys2Proof.Machine.execMovaSp y cs d off s
  | .movaReg y d a => Sys2Proof.Machine.execMovaReg y d a s
  | .loopa y k ar ae step off => Sys2Proof.Machine.execLoopa y k ar ae step off s
  | .pref y cs h ag => Sys2Proof.Machine.execPref y cs h ag s
  | .prefTensor y cs h ag => Sys2Proof.Machine.execPrefTensor y cs h ag s
  | .tload w => Sys2Proof.Machine.execTload w s
  | .tloadx w => Sys2Proof.Machine.execTloadx w s
  | .gather w ai => Sys2Proof.Machine.execGather w ai s
  | .cfill w => Sys2Proof.Machine.execCfill w s
  | .cfillPeer w pt => Sys2Proof.Machine.execCfillPeer w pt s
  | .pktTake y d => Sys2Proof.Machine.execPktTake y d s
  | .kvRes w bar => Sys2Proof.Machine.execKvRes w bar s
  | .tstore w => Sys2Proof.Machine.execTstore w s
  | .scatter w ai => Sys2Proof.Machine.execScatter w ai s
  | .redm w op => Sys2Proof.Machine.execRedm w op s
  | .pktEmit y cs a q l tag fin ar => Sys2Proof.Machine.execPktEmit y cs a q l tag fin ar s
  | .kvQry w => Sys2Proof.Machine.execKvQry w s
  | .kvQryResume w => Sys2Proof.Machine.execKvQryResume w s
  | .kvAppend w => Sys2Proof.Machine.execKvAppend w s
  | .kvSplice w ag => Sys2Proof.Machine.execKvSplice w ag s
  | .kvDrop w => Sys2Proof.Machine.execKvDrop w s
  | .kvDropAll w => Sys2Proof.Machine.execKvDropAll w s
  | .kvCommit w => Sys2Proof.Machine.execKvCommit w s
  | .kvIxlook w => Sys2Proof.Machine.execKvIxlook w s
  | .kvIxins w => Sys2Proof.Machine.execKvIxins w s
  | .kvRepairOpen w => Sys2Proof.Machine.execKvRepairOpen w s
  | .kvRepairCmp w => Sys2Proof.Machine.execKvRepairCmp w s
  | .kvRepairApply w => Sys2Proof.Machine.execKvRepairApply w s
  | .kvRepairAbort w => Sys2Proof.Machine.execKvRepairAbort w s
  | .kvPagein w => Sys2Proof.Machine.execKvPagein w s
  | .install y cs ad tag => Sys2Proof.Machine.execInstall y cs ad tag s
  | .installQuery y cs ad tag => Sys2Proof.Machine.execInstallQuery y cs ad tag s
  | .installRelease y cs ad tag => Sys2Proof.Machine.execInstallRelease y cs ad tag s
  | .mlease y => Sys2Proof.Machine.execMlease y s
  | .mrel y => Sys2Proof.Machine.execMrel y s
  | .mma w => Sys2Proof.Machine.execMma w s
  | .mmaz w => Sys2Proof.Machine.execMmaz w s
  | .mhrot w => Sys2Proof.Machine.execMhrot w s
  | .mhrotS256 y => Sys2Proof.Machine.execMhrotS256 y s
  | .swing y count => Sys2Proof.Machine.execSwing y count s
  | .mdrain w => Sys2Proof.Machine.execMdrain w s
  | .mbyp w => Sys2Proof.Machine.execMbyp w s
  | .mpeer w => Sys2Proof.Machine.execMpeer w s
  | .maccld w => Sys2Proof.Machine.execMaccld w s
  | .mclr y mask byp => Sys2Proof.Machine.execMclr y mask byp s
  | .vadd w => Sys2Proof.Machine.execVadd w s
  | .vsub w => Sys2Proof.Machine.execVsub w s
  | .vmul w => Sys2Proof.Machine.execVmul w s
  | .vmulHi w => Sys2Proof.Machine.execVmulHi w s
  | .vfma w => Sys2Proof.Machine.execVfma w s
  | .vmin w => Sys2Proof.Machine.execVmin w s
  | .vmax w => Sys2Proof.Machine.execVmax w s
  | .vand w => Sys2Proof.Machine.execVand w s
  | .vor w => Sys2Proof.Machine.execVor w s
  | .vxor w => Sys2Proof.Machine.execVxor w s
  | .vnot w => Sys2Proof.Machine.execVnot w s
  | .vandMask w => Sys2Proof.Machine.execVandMask w s
  | .vorMask w => Sys2Proof.Machine.execVorMask w s
  | .vxorMask w => Sys2Proof.Machine.execVxorMask w s
  | .vnotMask w => Sys2Proof.Machine.execVnotMask w s
  | .vshl w => Sys2Proof.Machine.execVshl w s
  | .vshr w => Sys2Proof.Machine.execVshr w s
  | .vsar w => Sys2Proof.Machine.execVsar w s
  | .vfshl w => Sys2Proof.Machine.execVfshl w s
  | .vfshr w => Sys2Proof.Machine.execVfshr w s
  | .vclz w => Sys2Proof.Machine.execVclz w s
  | .vpopc w => Sys2Proof.Machine.execVpopc w s
  | .vcmp w => Sys2Proof.Machine.execVcmp w s
  | .vsel w => Sys2Proof.Machine.execVsel w s
  | .vmov w => Sys2Proof.Machine.execVmov w s
  | .vmovFromMask w => Sys2Proof.Machine.execVmovFromMask w s
  | .vmovToMask w => Sys2Proof.Machine.execVmovToMask w s
  | .vbcast w => Sys2Proof.Machine.execVbcast w s
  | .vperm w => Sys2Proof.Machine.execVperm w s
  | .vcompress w => Sys2Proof.Machine.execVcompress w s
  | .vexpand w => Sys2Proof.Machine.execVexpand w s
  | .vred w => Sys2Proof.Machine.execVred w s
  | .vgred w => Sys2Proof.Machine.execVgred w s
  | .vscan w => Sys2Proof.Machine.execVscan w s
  | .vexp2 w => Sys2Proof.Machine.execVexp2 w s
  | .vlog2 w => Sys2Proof.Machine.execVlog2 w s
  | .vrcp w => Sys2Proof.Machine.execVrcp w s
  | .vrsq w => Sys2Proof.Machine.execVrsq w s
  | .vcvtRaw w => Sys2Proof.Machine.execVcvtRaw w s
  | .vcvtToDesc w => Sys2Proof.Machine.execVcvtToDesc w s
  | .vcvtFromDesc w => Sys2Proof.Machine.execVcvtFromDesc w s
  | .vcvtDescDesc w => Sys2Proof.Machine.execVcvtDescDesc w s
  | .vpack w => Sys2Proof.Machine.execVpack w s
  | .vunpack w => Sys2Proof.Machine.execVunpack w s
  | .vld w => Sys2Proof.Machine.execVld w s
  | .vst w => Sys2Proof.Machine.execVst w s
  | .vldu w => Sys2Proof.Machine.execVldu w s
  | .vstu w => Sys2Proof.Machine.execVstu w s
  | .vgath w => Sys2Proof.Machine.execVgath w s
  | .vscat w => Sys2Proof.Machine.execVscat w s
  | .vbtest w => Sys2Proof.Machine.execVbtest w s
  | .blockAdmission q => Sys2Proof.Machine.execBlockAdmission q s
  | .blockInstanceEnd q => Sys2Proof.Machine.execBlockInstanceEnd q s
  | .blockEndPushSettlement core slot queue => Sys2Proof.Machine.execBlockEndPushSettlement core slot queue s
  | .pushAfterToken core slot queue => Sys2Proof.Machine.execPushAfterToken core slot queue s
  | .leaseTermLimit core => Sys2Proof.Machine.execLeaseTermLimit core s
  | .leaseIdleRelease core => Sys2Proof.Machine.execLeaseIdleRelease core s
  | .leaseHoldExpiry core => Sys2Proof.Machine.execLeaseHoldExpiry core s
  | .leaveGrant q => Sys2Proof.Machine.execLeaveGrant q s
  | .leaveRequestAging q => Sys2Proof.Machine.execLeaveRequestAging q s
  | .streamWaitEscape q => Sys2Proof.Machine.execStreamWaitEscape q s
  | .teamSwap mx => Sys2Proof.Machine.execTeamSwap mx s
  | .swappedTeamReturn mx => Sys2Proof.Machine.execSwappedTeamReturn mx s
  | .copyUnitPerformed id n => Sys2Proof.Machine.execCopyUnitPerformed id n s
  | .copyCompletion id => Sys2Proof.Machine.execCopyCompletion id s
  | .mpeerDelivery id => Sys2Proof.Machine.execMpeerDelivery id s
  | .swingExchange core slot => Sys2Proof.Machine.execSwingExchange core slot s
  | .swingTimeout core slot => Sys2Proof.Machine.execSwingTimeout core slot s
  | .casementRefreshWindow core pane => Sys2Proof.Machine.execCasementRefreshWindow core pane s
  | .signStoreRegeneration core => Sys2Proof.Machine.execSignStoreRegeneration core s
  | .codeScan seg => Sys2Proof.Machine.execCodeScan seg s
  | .translationWalk core mx va => Sys2Proof.Machine.execTranslationWalk core mx va s
  | .llcFill mx tid pa => Sys2Proof.Machine.execLlcFill mx tid pa s
  | .llcWriteback blk => Sys2Proof.Machine.execLlcWriteback blk s
  | .homeAccess id => Sys2Proof.Machine.execHomeAccess id s
  | .atomicAtHome id => Sys2Proof.Machine.execAtomicAtHome id s
  | .routerMerge id into => Sys2Proof.Machine.execRouterMerge id into s
  | .mergeEntryForward id => Sys2Proof.Machine.execMergeEntryForward id s
  | .barrierUpdate ids => Sys2Proof.Machine.execBarrierUpdate ids s
  | .scalarResultDelivery id => Sys2Proof.Machine.execScalarResultDelivery id s
  | .ioAccess id => Sys2Proof.Machine.execIoAccess id s
  | .doorbell id => Sys2Proof.Machine.execDoorbell id s
  | .rcfgWrite id => Sys2Proof.Machine.execRcfgWrite id s
  | .registerWrite id => Sys2Proof.Machine.execRegisterWrite id s
  | .btCopyCompletion id => Sys2Proof.Machine.execBtCopyCompletion id s
  | .pktEmitCompletion id => Sys2Proof.Machine.execPktEmitCompletion id s
  | .kvArenaPerform id => Sys2Proof.Machine.execKvArenaPerform id s
  | .pageStateMerge id page => Sys2Proof.Machine.execPageStateMerge id page s
  | .pageInComplete arena slot page ok => Sys2Proof.Machine.execPageInComplete arena slot page ok s
  | .sharedBlockFree arena blk => Sys2Proof.Machine.execSharedBlockFree arena blk s
  | .requestMessage port flow msg => Sys2Proof.Machine.execRequestMessage port flow msg s
  | .dispatchDecision => Sys2Proof.Machine.execDispatchDecision s
  | .binding mx => Sys2Proof.Machine.execBinding mx s
  | .edfRelease mx => Sys2Proof.Machine.execEdfRelease mx s
  | .overrun mx => Sys2Proof.Machine.execOverrun mx s
  | .coldStartFill mx => Sys2Proof.Machine.execColdStartFill mx s
  | .residencyReport => Sys2Proof.Machine.execResidencyReport s
  | .keySlotEmpty slot => Sys2Proof.Machine.execKeySlotEmpty slot s
  | .scrubComplete id => Sys2Proof.Machine.execScrubComplete id s
  | .retiringLineWriteback blk => Sys2Proof.Machine.execRetiringLineWriteback blk s
  | .sharedCounterSample => Sys2Proof.Machine.execSharedCounterSample s
  | .shutterTableActivation egress => Sys2Proof.Machine.execShutterTableActivation egress s
  | .hkEventDelivery => Sys2Proof.Machine.execHkEventDelivery s
  | .segreg => Sys2Proof.Machine.execSegreg s
  | .segwd => Sys2Proof.Machine.execSegwd s
  | .seghash => Sys2Proof.Machine.execSeghash s
  | .arset => Sys2Proof.Machine.execArset s
  | .ardel => Sys2Proof.Machine.execArdel s
  | .pgout => Sys2Proof.Machine.execPgout s
  | .docreg => Sys2Proof.Machine.execDocreg s
  | .docdel => Sys2Proof.Machine.execDocdel s
  | .ixevict => Sys2Proof.Machine.execIxevict s
  | .pgempty => Sys2Proof.Machine.execPgempty s
  | .flowset => Sys2Proof.Machine.execFlowset s
  | .flowdel => Sys2Proof.Machine.execFlowdel s
  | .partset => Sys2Proof.Machine.execPartset s
  | .shtset => Sys2Proof.Machine.execShtset s
  | .slotrd => Sys2Proof.Machine.execSlotrd s
  | .ppause => Sys2Proof.Machine.execPpause s
  | .presume => Sys2Proof.Machine.execPresume s
  | .pexport => Sys2Proof.Machine.execPexport s
  | .pimport => Sys2Proof.Machine.execPimport s
  | .vkset => Sys2Proof.Machine.execVkset s
  | .quote => Sys2Proof.Machine.execQuote s
  | .cmddone => Sys2Proof.Machine.execCmddone s
  | .saveReport mx => Sys2Proof.Machine.execSaveReport mx s
  | .saveDrainComplete mx => Sys2Proof.Machine.execSaveDrainComplete mx s
  | .restoreImageLoaded mx => Sys2Proof.Machine.execRestoreImageLoaded mx s
  | .tierExchange part a b => Sys2Proof.Machine.execTierExchange part a b s
  | .tierExchangeCommit => Sys2Proof.Machine.execTierExchangeCommit s
  | .installSourceReadDone id => Sys2Proof.Machine.execInstallSourceReadDone id s
  | .installCommit id => Sys2Proof.Machine.execInstallCommit id s
  | .flashRefresh stack blk => Sys2Proof.Machine.execFlashRefresh stack blk s
  | .wearLevelMove stack => Sys2Proof.Machine.execWearLevelMove stack s
  | .stagingFill ext => Sys2Proof.Machine.execStagingFill ext s
  | .flashRefetch ext peer => Sys2Proof.Machine.execFlashRefetch ext peer s
  | .mcheck kind unit detail core => Sys2Proof.Machine.execMcheck kind unit detail core s
  | .spareColumnActivation stack col => Sys2Proof.Machine.execSpareColumnActivation stack col s
  | .hbmRemap stack place => Sys2Proof.Machine.execHbmRemap stack place s
  | .linkLaneSwap link lane => Sys2Proof.Machine.execLinkLaneSwap link lane s
  | .patrolScrub p => Sys2Proof.Machine.execPatrolScrub p s
  | .firmwareRestart => Sys2Proof.Machine.execFirmwareRestart s
  | .unitReady u => Sys2Proof.Machine.execUnitReady u s
  | .sensorThresholdCrossing tier sensor temp ev => Sys2Proof.Machine.execSensorThresholdCrossing tier sensor temp ev s
  | .throttleStep tier move => Sys2Proof.Machine.execThrottleStep tier move s
  | .thermalRecord tier sensor temp => Sys2Proof.Machine.execThermalRecord tier sensor temp s
  | .hostAccess p x => Sys2Proof.Machine.execHostAccess p x s
  | .mbin data => Sys2Proof.Machine.execMbin data s
  | .mcsumRead => Sys2Proof.Machine.execMcsumRead s
  | .ualinkAccess pa x => Sys2Proof.Machine.execUalinkAccess pa x s
  | .cxlExpanderDown port => Sys2Proof.Machine.execCxlExpanderDown port s
  | .deviceReset => Sys2Proof.Machine.execDeviceReset s
  | .peerExtentRequest seg ext => Sys2Proof.Machine.execPeerExtentRequest seg ext s
  | .remoteLaunchArrival tenant part desc data => Sys2Proof.Machine.execRemoteLaunchArrival tenant part desc data s
  | .portOrPathDown port down => Sys2Proof.Machine.execPortOrPathDown port down s

end Sys2Proof.Machine
end

