-- ==== Sys2Proof/Machine/Step.lean ====
section
/-! DEFINITION. One step of the device: the clock, whose move it is (log 2), and the placing of a word where the next step fetches it
(log 5). -/

namespace Sys2Proof.Machine

open Sys2Proof

/-- Carrying a state function into an outcome. -/
def mapNext (f : State → State) : Host.Outcome State Fault Refusal → Host.Outcome State Fault Refusal
  | .next s => .next (f s)
  | .fault x => .fault x
  | .refused x => .refused x

/-- A move of the agent `cur`. -/
def State.runMove (s : State) (m : AgentMove) : Host.Outcome State Fault Refusal :=
  match m with
  | .word k i => mapNext (s.overwritten i) (exec i (s.issued k i))
  | .wait i => .next (s.noteWait i)
  | .control i => exec i s
  | .stall => .next s
  | .fault f => .next (s.raise f)
  | .poison r => .next ((s.dropReq r.id).raise (match r.err with | some e => e.info | none => { code := 6 }))
  | .illegal => .refused .illegalWord
  | .wrong => .refused .wrongAgent

/-- The first of the moves that changes something. -/
def firstMove (s : State) : List Step1 → Host.Outcome State Fault Refusal
  | [] => .next s
  | f :: r =>
    match f s with
    | .next t => if t = s then firstMove s r else .next t
    | o => o

/-- The sequencer's next block instance is admissible and is the one its core would pick (R37, R43). -/
def State.mayBegin (s : State) (q : SeqId) : Bool :=
  !s.unitBusy q.core q.sec && s.admissible q.core q.slot q.sec && s.pick q.core q.sec == some q.slot

/-- An agent that has a word to run, or a block instance to begin. -/
def State.canAct (s : State) (a : Agent) : Bool :=
  match ({ s with cur := a } : State).agentMove with
  | .stall => false
  | .wait _ => false
  | .control (.blockAdmission q) => s.mayBegin q
  | _ => true

/-- The agents in turn, from the one after `cur` on, `cur` itself last. -/
def State.turnOrder (s : State) : List Agent :=
  let l := s.agents
  let i := l.findIdx (· == s.cur) + 1
  l.drop i ++ l.take i

/-- The next agent in turn that can act moves, and becomes `cur`. -/
def State.nextAgent (s : State) : Host.Outcome State Fault Refusal :=
  match s.turnOrder.find? s.canAct with
  | some a => ({ s with cur := a } : State).runMove ({ s with cur := a } : State).agentMove
  | none => .next s

/-- An operation of the device that is due, tried from a place in their list that moves on with the turns. -/
def State.dueMove (s : State) : Host.Outcome State Fault Refusal :=
  let l := s.pendingMoves
  let i := s.turn % max 1 l.length
  firstMove s (l.drop i ++ l.take i)

/-- `f`, or `g` where `f` changes nothing. -/
def State.orElse (s : State) (f g : State → Host.Outcome State Fault Refusal) : Host.Outcome State Fault Refusal :=
  match f s with
  | .next t => if t = s then g s else .next t
  | o => o

/-- Between two block instances of `cur`: an operation that is due, or the next agent in turn, which goes first in every fourth turn. -/
def State.handOver (s : State) : Host.Outcome State Fault Refusal :=
  let s1 := { s with turn := s.turn + 1 }
  if s1.turn % 4 = 0 then s1.orElse State.nextAgent State.dueMove else s1.orElse State.dueMove State.nextAgent

/-- The move of a device whose agenda says nothing: the agent `cur` goes on to the end of its block; at a block boundary, and where it
waits, the turn passes on (log 2). -/
def State.freeMove (s : State) : Host.Outcome State Fault Refusal :=
  match s.agentMove with
  | .stall => s.handOver
  | .wait i => (s.noteWait i).handOver
  | .control (.blockAdmission _) => s.handOver
  | m => s.runMove m

/-- One step of the device. -/
def step (s : State) : Host.Outcome State Fault Refusal :=
  mapNext State.settle
    (match s.sorted with
     | t :: r =>
       let s1 := { s with agenda := r }.tick t.cycles
       match t.move with
       | .event e => exec e s1
       | .notice m g => .next (s1.raiseNotice m g)
       | .agent a => let s2 := { s1 with cur := a }; s2.runMove s2.agentMove
     | [] =>
       let s1 := s.tick 1
       if s.booted then s1.freeMove else if s.bootImage.isSome then exec .deviceReset s1 else .fault .noFirmware)

/-! Placing a word (log 5) -/

/-- Section, address space and word bytes of a table word. -/
def tableSection (nbits w : Nat) : Section :=
  match nbits with
  | 64 => if (decodeWord .ld (w % 2 ^ 64)).isSome then .ld else .st
  | 128 => .cm
  | _ => .sc

/-- The frame, and the segment, of the placed word. -/
def placedSegment (sec : Section) (hk : Bool) : Segment :=
  { mx := 0, sec := sec, level := hk, base := 0x1000, len := 4096, frames := [1], pageVas := [0x1000], ok := true, hash := 0, headers := [], recPa := 0,
    priv := [], badFrame := none, fetched := [] }

/-- A launch with nothing in it, for the slot that runs the placed word. -/
def placedLaunch : LaunchRec :=
  { rstrt := false, ckpt := false, drain := false, tgcols := 1, nstrm := 1, spbanks := 1, codeSc := 0x1000, codeLd := 0x1000,
    codeCm := 0x1000, codeSt := 0x1000, levels := [(1, 0)], shapes := [], lorder := 0, nlayers := 0, est0 := 0 }

/-- A shutter table whose slots one partition owns. -/
def placedSlots (p : Nat) : List (BitVec 32) := List.replicate 64 (BitVec.ofNat 32 (2 ^ 31 + p % 16))

/-- The start of a time slot that a partition owns on the networks of both stacks, with no table to come. -/
def State.inSlotOf (s : State) (p : Nat) : State :=
  { s with ltb := BitVec.ofNat 64 (s.ltb.toNat / 128 * 128), shutPend := [], shut := (s.shut.put 0 (placedSlots p)).put 1 (placedSlots p) }

/-- `s` with a word stored where the next step fetches it: in frame 1 of HBM, registered as code; on stream slot 0 of core 0, in a
running block of a bound micro-context 0, or on the housekeeping processor when the word is of level S, in a time slot of its partition. -/
def State.withFetchWord (s : State) (nbits w : Nat) : State :=
  let sec := tableSection nbits w
  let hk := match decodeTableWord nbits w with | some i => i.privileged | none => false
  let s1 := { s with badBlks := s.badBlks.filter (· != 64) }.poke 0x1000 (leBytes sec.wordBytes w)
  let s2 := { s1 with segs := AMap.put (s1.segs.filter fun e => !e.2.frames.contains 1) 0 (placedSegment sec hk), agenda := [], booted := true,
                      ready := (List.range 10).map UnitId.hbm ++ s1.ready }
  if hk then { s2.inSlotOf 15 with cur := .hk, hk := { s2.hk with phase := .running, pc := 0x1000, left := 1, halted := false } }
  else
    let q : SeqId := { core := 0, slot := 0, sec := sec }
    let e : TlbEntry := { part := (s2.mx 0).part, mx := 0, va := 0x1000, size := 0x1000, ipa := 0x1000, pa := 0x1000, rd := true,
                          w := false, x := true, desc := false, enc := false, page1 := (0x1000, 0x1000), page2 := (0x1000, 0x1000) }
    let s3 := s2.setMx 0 { s2.mx 0 with st := .bound, team := some { lr := placedLaunch, stack := 0, col := 0, layers := [], outer := [] } }
    let s4 := s3.setCore 0 { s3.core 0 with tlb := e :: (s3.core 0).tlb }
    let s5 := { s4.inSlotOf (s4.mx 0).part with cur := .seq q }
    let x := s5.strm q
    s5.setStrm q ({ x with mx := some 0 }.setSeqr sec
      { x.seqr sec with phase := .running, pc := 0x1000, left := 1, reps := 1, stopped := false })

end Sys2Proof.Machine
end

