-- ==== Sys2Proof/Safety.lean ====
section
/-! DEFINITION. The terms claims use: canonical memories, what a word may change, and the exact results of the scalar words. -/

namespace Sys2Proof.Machine

open Sys2Proof

/-- Every memory of the device is in canonical form: addresses rise and no entry is zero. The cached blocks, and the pending shutter tables, are
listed once each, by rising number. -/
def State.memOk (s : State) : Bool :=
  s.mem.wf && s.attn.wf && s.records.wf && s.mbuf.wf && (s.cores.all fun (e : Nat × Core) => e.2.sp.wf && e.2.cw.pane0.wf && e.2.cw.pane1.wf) &&
    AMap.sortedFrom 0 s.llc && AMap.sortedFrom 0 s.shutPend

/-- `t` differs from `s` in one stream of one core alone. -/
def OnlyStream (s t : State) (core slot : Nat) : Prop :=
  t = { s with cores := t.cores } ∧ (∀ c, c ≠ core → t.core c = s.core c) ∧
    t.core core = { s.core core with streams := (t.core core).streams } ∧ ∀ k, k ≠ slot → t.stream core k = s.stream core k

/-- Every byte of physical memory, under every key, and of every scratchpad reads in `t` as in `s`. -/
def SameMemory (s t : State) : Prop :=
  (∀ key pa, t.readPa key pa 1 = s.readPa key pa 1) ∧ ∀ c a, (t.core c).sp.read a = (s.core c).sp.read a

/-- Every byte of physical memory outside the blocks of the ring of thermal records, and of every scratchpad, reads in `t` as in `s`. -/
def SameButThermals (s t : State) : Prop :=
  (∀ key pa, (∀ g k, s.thermalRing = some g → pa / 64 ≠ thermalSlot g k / 64 ∧ pa / 64 ≠ (thermalSlot g k + 31) / 64) → t.readPa key pa 1 = s.readPa key pa 1) ∧
    ∀ c a, (t.core c).sp.read a = (s.core c).sp.read a

/-- The running word is done in `t`: its stream is `x`, with the token queues, the tokens still to be produced and the block's reservations as the
SYNC marks `y` leave those of `s` (R39), and the sequencer past the word; nothing else of the device has changed. -/
def WordDone (s t : State) (y : Sync) (x : Stream) : Prop :=
  match s.cur with
  | .hk => False
  | .seq q =>
    OnlyStream s t q.core q.slot ∧ SameMemory s t ∧
      ∃ u : Stream, u = ((s.popBefore y).pushAfter y).strm q ∧
        t.strm q = { x with tq := u.tq, pushes := u.pushes }.setSeqr q.sec { x.seqr q.sec with
          pc := s.fallThrough, left := (s.seqr q).left - 1
          popP := (u.seqr q.sec).popP, popN := (u.seqr q.sec).popN, pushP := (u.seqr q.sec).pushP, pushN := (u.seqr q.sec).pushN }

/-- The running SC word is done in `t`, and beyond its place the agent's g[d] and p[k] alone may have changed. -/
def ScalarFrame (s t : State) (d : Option (BitVec 5)) (k : Option (BitVec 3)) : Prop :=
  (∀ r, d ≠ some r → t.g r = s.g r) ∧ (∀ j, k ≠ some j → t.p j = s.p j) ∧ SameMemory s t ∧
    match s.cur with
    | .hk => t = { s with hk := { s.hk with g := t.hk.g, p := t.hk.p, pc := s.fallThrough, left := s.hk.left - 1 } }
    | .seq q =>
      OnlyStream s t q.core q.slot ∧
        t.strm q = { s.strm q with g := (t.strm q).g, p := (t.strm q).p }.setSeqr q.sec
          { s.seqr q with pc := s.fallThrough, left := (s.seqr q).left - 1 }

/-- The destination and the exact result of an SC integer word (Table 9.2, R207, R208), before reduction modulo 2^64. -/
def State.exactResult (s : State) : Instr → Option (BitVec 5 × Int)
  | .add d a b => some (d, (s.g a).toInt + (s.g b).toInt)
  | .addi d a i => some (d, (s.g a).toInt + i.toInt)
  | .sub d a b => some (d, (s.g a).toInt - (s.g b).toInt)
  | .mul d a b => some (d, (s.g a).toInt * (s.g b).toInt)
  | .mulh d a b k =>
    if k = 0 then some (d, (s.g a).toInt * (s.g b).toInt / 2 ^ 64)
    else if k = 1 then some (d, ((s.g a).toNat * (s.g b).toNat / 2 ^ 64 : Nat))
    else if k = 2 then some (d, (s.g a).toInt * (s.g b).toNat / 2 ^ 64)
    else none
  | .div d a b u =>
    some (d, if s.g b = 0 then 2 ^ 64 - 1 else if u then ((s.g a).toNat / (s.g b).toNat : Nat) else (s.g a).toInt.tdiv (s.g b).toInt)
  | .rem d a b u =>
    some (d, if s.g b = 0 then (s.g a).toInt else if u then ((s.g a).toNat % (s.g b).toNat : Nat) else (s.g a).toInt.tmod (s.g b).toInt)
  | .and d a b => some (d, (s.g a &&& s.g b).toNat)
  | .or d a b => some (d, (s.g a ||| s.g b).toNat)
  | .xor d a b => some (d, (s.g a ^^^ s.g b).toNat)
  | .andn d a b => some (d, (s.g a &&& ~~~(s.g b)).toNat)
  | .shl d a b => some (d, (s.g a).toNat * 2 ^ (s.g b).toNat)
  | .shlImm d a n => some (d, (s.g a).toNat * 2 ^ n.toNat)
  | .shr d a b => some (d, ((s.g a).toNat / 2 ^ (s.g b).toNat : Nat))
  | .shrImm d a n => some (d, ((s.g a).toNat / 2 ^ n.toNat : Nat))
  | .sar d a b => some (d, (s.g a).toInt / 2 ^ (s.g b).toNat)
  | .sarImm d a n => some (d, (s.g a).toInt / 2 ^ n.toNat)
  | .rol d a b => some (d, (s.g a).toNat * 2 ^ ((s.g b).toNat % 64) + ((s.g a).toNat / 2 ^ (64 - (s.g b).toNat % 64) : Nat))
  | .rolImm d a n => some (d, (s.g a).toNat * 2 ^ n.toNat + ((s.g a).toNat / 2 ^ (64 - n.toNat) : Nat))
  | .fshl d a b c => some (d, (((s.g a).toNat * 2 ^ 64 + (s.g b).toNat) / 2 ^ (64 - (s.g c).toNat % 64) : Nat))
  | .fshlImm d a b n => some (d, (((s.g a).toNat * 2 ^ 64 + (s.g b).toNat) / 2 ^ (64 - n.toNat) : Nat))
  | .fshr d a b c => some (d, (((s.g a).toNat * 2 ^ 64 + (s.g b).toNat) / 2 ^ ((s.g c).toNat % 64) : Nat))
  | .fshrImm d a b n => some (d, (((s.g a).toNat * 2 ^ 64 + (s.g b).toNat) / 2 ^ n.toNat : Nat))
  | .clz d a => some (d, if s.g a = 0 then 64 else 63 - ((s.g a).toNat.log2 : Int))
  | .ctz d a => some (d, (((List.range 64).find? fun k => (s.g a).getLsbD k).getD 64 : Nat))
  | .popc d a => some (d, ((List.range 64).countP fun k => (s.g a).getLsbD k : Nat))
  | .min d a b => some (d, min (s.g a).toInt (s.g b).toInt)
  | .max d a b => some (d, max (s.g a).toInt (s.g b).toInt)
  | .minu d a b => some (d, (min (s.g a).toNat (s.g b).toNat : Nat))
  | .maxu d a b => some (d, (max (s.g a).toNat (s.g b).toNat : Nat))
  | .sext d a n => some (d, ((s.g a).toNat : Int).bmod (2 ^ (n.toNat + 1)))
  | .zext d a n => some (d, ((s.g a).toNat % 2 ^ (n.toNat + 1) : Nat))
  | .lui d i => some (d, i.toInt * 2 ^ 15)
  | .mov d a => some (d, (s.g a).toInt)
  | .movFromPred d k => some (d, if s.p k then 1 else 0)
  | .sel d a b neg k => some (d, if s.p k ≠ neg then (s.g a).toInt else (s.g b).toInt)
  | .addx d a b n => some (d, (s.g a).toInt + (s.g b).toInt * 2 ^ n.toNat)
  | .madd d a b c => some (d, (s.g a).toInt * (s.g b).toInt + (s.g c).toInt)
  | _ => none

/-- The destination and the result of an SC word that writes a predicate (R58, R208). -/
def State.exactPredicate (s : State) : Instr → Option (BitVec 3 × Prop)
  | .cmp p a b cc =>
    match cc.toNat with
    | 0 => some (p, s.g a = s.g b)
    | 1 => some (p, s.g a ≠ s.g b)
    | 2 => some (p, (s.g a).toInt < (s.g b).toInt)
    | 3 => some (p, (s.g b).toInt ≤ (s.g a).toInt)
    | 4 => some (p, (s.g a).toNat < (s.g b).toNat)
    | 5 => some (p, (s.g b).toNat ≤ (s.g a).toNat)
    | _ => none
  | .movToPred p a => some (p, s.g a ≠ 0)
  | _ => none

/-- The agent whose turn it is stands inside a block, with a word to run. -/
def State.midBlock (s : State) : Bool :=
  match s.cur with
  | .hk => s.hk.phase == .running && s.hk.left != 0
  | .seq q => (s.seqr q).phase == .running && !(s.seqr q).stopped && (s.seqr q).left != 0

/-- The bytes at the program counter, in code at the place `c`, decode to `i`, which issues now. -/
def State.issues (s : State) (c : CodePlace) (i : Instr) : Prop :=
  s.midBlock = true ∧ s.myCode s.pc.toNat = .ok c ∧ s.codeHome s.isHk s.myMx c.pa = true ∧ s.badBlk (c.pa / 64) = false ∧
    decodeWord s.here.sec (leNat (s.readPa c.enc c.pa s.here.sec.wordBytes)) = some i ∧ s.hasWord i = true ∧
    s.poisoned i = none ∧ s.mustWait i = false

/-- The running SC word is done in `t`, and beyond its place one more request has been made. -/
def PostFrame (s t : State) : Prop :=
  ∃ u, ScalarFrame s u none none ∧ t = { u with reqs := t.reqs, nextId := s.nextId + 1 }

/-- The value an integer atomic leaves at a location of `w` bits (R216): operands x = g[D] and, for CAS, y = g[D + 1]. -/
def atomicValue (op w old x y : Nat) : Nat :=
  let x := x % 2 ^ w
  match op with
  | 0 => (old + x) % 2 ^ w
  | 1 => old &&& x
  | 2 => old ||| x
  | 3 => old ^^^ x
  | 4 => if sx w x < sx w old then x else old
  | 5 => if sx w old < sx w x then x else old
  | 6 => min old x
  | 7 => max old x
  | 9 => x
  | _ => if old = x then y % 2 ^ w else old

/-! Vector words -/

/-- A vector word that writes v[vd] element by element is done in `t`: each active element of width `w` has the value `f` gives it, the
others are kept, or zero with `mz`; the flags of the active elements are set, and nothing else has changed. -/
def VectorDone (s t : State) (y : Sync) (vd : BitVec 5) (me mz : Bool) (mk : BitVec 3) (w : Nat) (f : Nat → Nat × Flags) : Prop :=
  WordDone s t y { s.me with v := t.me.v, flags := t.me.flags } ∧ (∀ r, r ≠ vd → t.v r = s.v r) ∧
    (∀ i, i < 2048 / w →
      vget w (t.v vd) i = if s.active me mk w i then (f i).1 % 2 ^ w else if mz then 0 else vget w (s.v vd) i) ∧
    ∀ k, k < 7 → (t.me.flags.getLsbD k = true ↔
      s.me.flags.getLsbD k = true ∨ ∃ i, i < 2048 / w ∧ s.active me mk w i = true ∧ (f i).2.word.getLsbD k = true)

/-- A word that writes v[vd] whole and may set flags is done in `t`. -/
def RegisterDone (s t : State) (y : Sync) (vd : BitVec 5) : Prop :=
  WordDone s t y { s.me with v := t.me.v, flags := t.me.flags } ∧ ∀ r, r ≠ vd → t.v r = s.v r

/-- A word that writes m[md] and may set flags is done in `t`. -/
def MaskDone (s t : State) (y : Sync) (md : BitVec 3) : Prop :=
  WordDone s t y { s.me with m := t.me.m, flags := t.me.flags } ∧ ∀ k, k ≠ md → t.m k = s.m k

/-- Element `i` of v[VA]. -/
def State.opA (s : State) (x : FormV) (i : Nat) : Nat := vget x.width (s.v x.va) i
/-- Element `i` of operand b: of v[VB], or the immediate. -/
def State.opB (s : State) (x : FormV) (i : Nat) : Nat := if x.bi then immElem x else vget x.width (s.v x.vb) i
/-- Element `i` of v[VC]. -/
def State.opC (s : State) (x : FormV) (i : Nat) : Nat := vget x.width (s.v x.vc) i

/-- The exact integer an element-wise word gives element `i` (R124, Table 6.4), before it is wrapped or clamped; whether SAT acts. -/
def State.vectorExact (s : State) (i : Nat) : Instr → Option (FormV × Bool × Int)
  | .vadd x => some (x, true, intVal x.ty.toNat (s.opA x i) + intVal x.ty.toNat (s.opB x i))
  | .vsub x => some (x, true, intVal x.ty.toNat (s.opA x i) - intVal x.ty.toNat (s.opB x i))
  | .vmul x => some (x, true, intVal x.ty.toNat (s.opA x i) * intVal x.ty.toNat (s.opB x i))
  | .vmulHi x => some (x, false, intVal x.ty.toNat (s.opA x i) * intVal x.ty.toNat (s.opB x i) / 2 ^ x.width)
  | .vfma x =>
    some (x, true, intVal x.ty.toNat (s.opA x i) * intVal x.ty.toNat (s.opB x i) + intVal x.ty.toNat (s.opC x i))
  | .vmin x => some (x, false, min (intVal x.ty.toNat (s.opA x i)) (intVal x.ty.toNat (s.opB x i)))
  | .vmax x => some (x, false, max (intVal x.ty.toNat (s.opA x i)) (intVal x.ty.toNat (s.opB x i)))
  | .vand x => some (x, false, (s.opA x i &&& s.opB x i : Nat))
  | .vor x => some (x, false, (s.opA x i ||| s.opB x i : Nat))
  | .vxor x => some (x, false, (s.opA x i ^^^ s.opB x i : Nat))
  | .vnot x => some (x, false, 2 ^ x.width - 1 - (s.opA x i : Int))
  | .vshl x => some (x, false, (s.opA x i * 2 ^ s.opB x i : Nat))
  | .vshr x => some (x, false, (s.opA x i / 2 ^ s.opB x i : Nat))
  | .vsar x => some (x, false, sx x.width (s.opA x i) / 2 ^ s.opB x i)
  | .vfshl x =>
    some (x, false, ((s.opA x i * 2 ^ x.width + vget x.width (s.v x.vb) i) /
      2 ^ (x.width - (if x.bi then immElem x else s.opC x i) % x.width) : Nat))
  | .vfshr x =>
    some (x, false, ((s.opA x i * 2 ^ x.width + vget x.width (s.v x.vb) i) /
      2 ^ ((if x.bi then immElem x else s.opC x i) % x.width) : Nat))
  | .vclz x => some (x, false, if s.opA x i = 0 then x.width else x.width - 1 - ((s.opA x i).log2 : Int))
  | .vpopc x => some (x, false, ((List.range x.width).countP fun k => (s.opA x i).testBit k : Nat))
  | .vmov x => some (x, false, if x.bi then immElem x else s.opA x i)
  | .vbcast x => some (x, false, vget x.width (s.v x.va) x.imm.toNat)
  | .vperm x => some (x, false, if s.opB x i < 2048 / x.width then vget x.width (s.v x.va) (s.opB x i) else 0)
  | _ => none

/-- An exact integer in an element of a type (R124): modulo 2^w, or clamped with SA set when it lies outside the type's range. -/
def elemOfInt (x : FormV) (sat : Bool) (v : Int) : Nat × Flags :=
  (((if sat then max (intMin x.ty.toNat) (min (intMax x.ty.toNat) v) else v) % 2 ^ x.width).toNat,
    { sa := sat && (decide (v < intMin x.ty.toNat) || decide (intMax x.ty.toNat < v)) })

/-- The exact value a float element-wise word rounds (R125), with the flags of its operands. -/
def State.vectorFloat (s : State) (i : Nat) : Instr → Option (FormV × (XV × Flags))
  | .vadd x => some (x, XV.add (isRdn x.rnd) (decType x.ty.toNat (s.opA x i)) (decType x.ty.toNat (s.opB x i)))
  | .vsub x => some (x, XV.add (isRdn x.rnd) (decType x.ty.toNat (s.opA x i)) (decType x.ty.toNat (s.opB x i)).flip)
  | .vmul x => some (x, XV.mul (decType x.ty.toNat (s.opA x i)) (decType x.ty.toNat (s.opB x i)))
  | .vfma x =>
    some (x, XV.fma (isRdn x.rnd) (decType x.ty.toNat (s.opA x i)) (decType x.ty.toNat (s.opB x i)) (decType x.ty.toNat (s.opC x i)))
  | _ => none

/-- Table 6.5: the value a function word rounds. -/
def functionOf (x : XV) : Instr → Option (FormV × (XV × Flags))
  | .vexp2 w =>
    some (w, match x with
      | .nan n p sg => (nanOf [.nan n p sg]).getD (XV.canon, {})
      | .inf false => (.inf false, {})
      | .inf true => (XV.zero false, {})
      | .fin n m e _ => (exp2Fin n m e, {}))
  | .vlog2 w =>
    some (w, match x with
      | .nan n p sg => (nanOf [.nan n p sg]).getD (XV.canon, {})
      | .inf false => (.inf false, {})
      | .inf true => (XV.canon, { iv := true })
      | .fin n m e _ => if m = 0 then (.inf true, { dz := true }) else if n then (XV.canon, { iv := true }) else (log2Fin m e, {}))
  | .vrcp w =>
    some (w, match x with
      | .nan n p sg => (nanOf [.nan n p sg]).getD (XV.canon, {})
      | .inf n => (XV.zero n, {})
      | .fin n m e _ => if m = 0 then (.inf n, { dz := true }) else (rcpFin n m e, {}))
  | .vrsq w =>
    some (w, match x with
      | .nan n p sg => (nanOf [.nan n p sg]).getD (XV.canon, {})
      | .inf false => (XV.zero false, {})
      | .inf true => (XV.canon, { iv := true })
      | .fin n m e _ => if m = 0 then (.inf n, { dz := true }) else if n then (XV.canon, { iv := true }) else (rsqFin m e, {}))
  | _ => none

/-- The condition of VCMP between two elements (R128). -/
def cmpHolds (t : Nat) (sub : BitVec 3) (a b : Nat) : Prop :=
  match isIntType t, sub.toNat with
  | true, 0 => intVal t a = intVal t b
  | true, 1 => intVal t a ≠ intVal t b
  | true, 2 => intVal t a < intVal t b
  | true, 3 => intVal t b ≤ intVal t a
  | true, 4 => intVal t a ≤ intVal t b
  | true, 5 => intVal t b < intVal t a
  | true, _ => False
  | false, k =>
    if (decType t a).isNan ∨ (decType t b).isNan then k = 1 ∨ k = 6
    else
      match k, XV.cmp (decType t a) (decType t b) with
      | 0, o => o = .eq
      | 1, o => o ≠ .eq
      | 2, o => o = .lt
      | 3, o => o ≠ .lt
      | 4, o => o ≠ .gt
      | 5, o => o = .gt
      | _, _ => False

/-- Elements below `i` that mask m[MK] selects (R132). -/
def State.rank (s : State) (x : FormV) (i : Nat) : Nat :=
  (List.range i).countP fun k => (s.m x.mq).getLsbD (govBit x.width k)

/-! Accumulators -/

/-- A matrix word that writes accumulators and may set flags is done in `t`; accumulators outside `ns` stand. -/
def AccDone (s t : State) (y : Sync) (ns : List Nat) : Prop :=
  WordDone s t y { s.me with acc := t.me.acc, flags := t.me.flags } ∧
    ∀ n i j, n ∉ ns → i < 64 → j < 64 → t.me.accAt n i j = s.me.accAt n i j

end Sys2Proof.Machine
end

