-- ==== Sys2Proof/Certificates/Slice0/Obligations.lean ====
section
/-! DEFINITION. The statements for the provers: decoding and the step, then the words of each section, then what the device does by itself. -/

open Sys2Proof Sys2Proof.Machine

/-! Decoding, the step, reset -/

/-- Words written out from Tables 3.6 to 3.9, 6.2, 10.4, 11.3 and 19.3 decode to what they stand for. -/
def Obligations.EncodedWordsDecode : Prop :=
  decodeWord .sc 0x04100003 = some (.addi 1 0 3) ∧
    decodeWord .sc 0x525FFFFD = some (.brc 1 false (BitVec.ofInt 21 (-3))) ∧
    decodeWord .sc 0x8C252C00 = some (.mxbind 2 10 11) ∧
    decodeWord .ld 0x1011624624000000 =
      some (.tload { y := { pbp := false, pbn := false, pap := false, pan := true }, cs := { cls := 1, scope := 3 }, h := 1, ag := 2,
                     as' := 3, tag := 4, bar := some 0 }) ∧
    decodeWord .st 0x3002280288000000 =
      some (.kvQry { y := { pbp := false, pbn := false, pap := false, pan := false }, cs := { cls := 2, scope := 1 }, ad := 4, tag := 5,
                     rq := 1, ns := false }) ∧
    decodeWord .cm 0x13000010000000000000000000000000 =
      some (.swing { pbp := false, pbn := false, pap := false, pan := false } 0x8000) ∧
    decodeWord .cm 0x3900031000C002030000000000000000 =
      some (.vgred { y := { pbp := false, pbn := false, pap := false, pan := false }, vd := 3, va := 2, vb := 0, vc := 0, ty := 6,
                     bi := false, mq := 0, me := false, mz := false, rnd := 0, sat := false, sub := 2, md := 0, dk := false, gs := 3,
                     imm := 0 }) ∧
    decodeWord .sc 0 = none

/-- Decoding the encoding of a well-formed instruction gives it back, every operand included; an instruction that shares its word with others, told apart
by a descriptor, gives the row the word names. -/
def Obligations.EncodeDecodeRoundTrip : Prop :=
  ∀ (i : Instr) (n w : Nat), i.wellFormed = true → encode i = some (n, w) → w < 2 ^ n ∧ decodeTableWord n w = some i.carrier

/-- Where the bytes at the program counter of the agent whose turn it is decode to an instruction that issues now, the step is that instruction's
meaning, with the clock moved on before it, the word counted with it, a lost value dropped where it overwrites the register, and what follows by
itself settled after it. The agenda's first turn is the one taken, but for the first turn of the same cycle that none of the others goes before, where
one goes before it: a fault at a header before what stops its team (Table 20.7), a write of a control register before an event that updates the
register (R227), a word of the housekeeping processor, an overrun before the boundary that is its drain point, a team's swap before a write of WTH,
a completion of a launch before the decision that chooses a victim (Table 17.8); a unit of a copy before the freeze, an atomic before the commit of an
exchange (Table 20.7), and of two sequencers, at a word or at a header or end of a block, the one that comes earlier among SC, LD, CM and ST. -/
def Obligations.StepRunsDecodedWord : Prop :=
  (∀ (s u : State) (n : Nat) (a : Agent) (r : List Turn) (c : CodePlace) (i : Instr),
      s.sorted = { cycles := n, move := .agent a } :: r → u = { { s with agenda := r }.tick n with cur := a } → u.issues c i →
      step s = mapNext State.settle (mapNext (u.overwritten (u.rowOf i)) (exec (u.rowOf i) (u.issued c.segId (u.rowOf i))))) ∧
    (∀ (s u : State) (c : CodePlace) (i : Instr),
      s.agenda = [] → s.booted = true → u = s.tick 1 → u.issues c i →
      step s = mapNext State.settle (mapNext (u.overwritten (u.rowOf i)) (exec (u.rowOf i) (u.issued c.segId (u.rowOf i))))) ∧
    (∀ (s : State) (t : Turn), s.agenda = [t] → s.sorted = [t]) ∧
    (∀ (s : State) (t : Turn) (r : List Turn), s.agenda = t :: r →
      (∀ u ∈ r.takeWhile (fun u => u.cycles == 0), s.goesFirst t.move u.move = false) → s.sorted = s.agenda) ∧
    (∀ (s : State) (t u : Turn) (l r : List Turn), s.agenda = t :: (l ++ u :: r) → (∀ x ∈ l, x.cycles = 0) → u.cycles = 0 →
      (∀ x ∈ t :: l, ∃ y ∈ s.thisCycle, s.goesFirst x.move y.move = true) → (∀ y ∈ s.thisCycle, s.goesFirst u.move y.move = false) →
        s.sorted = { u with cycles := t.cycles } :: { t with cycles := 0 } :: (l ++ r)) ∧
    ∀ (s : State) (t u : Move), s.goesFirst t u = true →
      (∃ m, s.raisesAtHeader u = some m ∧ s.mayStop t m = true) ∨ (∃ r, s.writesCtl u = some r ∧ r ∈ s.updates t) ∨
        u = .agent .hk ∨ (∃ m, u = .event (.overrun m)) ∨ (∃ m, u = .event (.teamSwap m) ∧ s.writesWth t = true) ∨
        (t = .event .dispatchDecision ∧ s.mayComplete u = true) ∨
        (∃ m id n, t = .event (.saveReport m) ∧ u = .event (.copyUnitPerformed id n)) ∨
        (t = .event .tierExchangeCommit ∧ ∃ id, u = .event (.atomicAtHome id)) ∨
        ∃ p q : SeqId, t.seqOf = some p ∧ u.seqOf = some q ∧ p.core = q.core ∧ p.slot = q.slot ∧ q.sec.code < p.sec.code

/-- Right after reset: nothing is bound, no unit is ready, every micro-context and key slot is free, no partition is active; registers stand at the values
of their tables. -/
def Obligations.ResetValues : Prop :=
  State.reset.dclk = 0 ∧ State.reset.events = [] ∧ State.reset.hk.ten = false ∧ State.reset.mcsum = 0 ∧ State.reset.ready = [] ∧
    (∀ c, (State.reset.core c).wth = 50000 ∧ (State.reset.core c).cw.owner = none ∧ (State.reset.core c).lease.holder = none) ∧
    (∀ m, (State.reset.mx m).st = .free) ∧ (∀ k, (State.reset.key k).st = 0) ∧ (∀ p, (State.reset.part p).active = false) ∧
    (∀ c k, (State.reset.stream c k).tagrdy = 0 ∧ (State.reset.stream c k).dph = 0 ∧ (State.reset.stream c k).hrseed = 1 ∧
      (State.reset.stream c k).astk = 0 ∧ (State.reset.stream c k).dstep = 17 ∧ (State.reset.stream c k).rpth = 0x3C000000 ∧
      (∀ n, (State.reset.stream c k).tmReg n = 0 ∧ (State.reset.stream c k).bwReg n = 0 ∧ (State.reset.stream c k).lcReg n = 0) ∧
      (State.reset.stream c k).mx = none) ∧
    State.reset.hk.csel = 0 ∧ State.reset.hk.epc = 0 ∧ State.reset.hk.ecauseMx = 0 ∧ State.reset.hk.ecauseCode = 0 ∧ State.reset.hk.erec = 0 ∧
    State.reset.hk.tvec = 0 ∧
    State.reset.exchange = none ∧ State.reset.aperture.busy = false

/-! SC words -/

/-- R205: an integer word delivers its exact result modulo 2^64, to no register if the destination is g0; it changes nothing else, sets no flag and raises
no fault. Nor does an integer word that writes a predicate set a flag or raise a fault. -/
def Obligations.ScalarResultsExact : Prop :=
  (∀ (s : State) (i : Instr) (d : BitVec 5) (x : Int), s.exactResult i = some (d, x) →
    ∃ t : State, exec i s = .next t ∧ t.g d = (if d = 0 then 0 else BitVec.ofInt 64 x) ∧ ScalarFrame s t (some d) none ∧
      t.me.flags = s.me.flags ∧ t.events = s.events) ∧
  ∀ (s : State) (i : Instr) (k : BitVec 3) (c : Prop), s.exactPredicate i = some (k, c) →
    ∃ t : State, exec i s = .next t ∧ (∀ r, t.g r = s.g r) ∧ t.me.flags = s.me.flags ∧ t.events = s.events

/-- CMP under each of its six conditions, and MOV into a predicate: the predicate tells whether the condition holds, and nothing else changes. The hint
words, and a FENCE of no class, pass on to the next word and change nothing else. -/
def Obligations.PredicatesAndHints : Prop :=
  (∀ (s : State) (i : Instr) (k : BitVec 3) (c : Prop), s.exactPredicate i = some (k, c) →
    ∃ t : State, exec i s = .next t ∧ (t.p k = true ↔ c) ∧ ScalarFrame s t none (some k)) ∧
  (∀ (s : State) (i : Instr),
    ((∃ a n, i = .hintPf a n) ∨ (∃ l o, i = .hintBl l o) ∨ (∃ v, i = .hint0 v) ∨ (∃ v, i = .hint1 v) ∨ (∃ v, i = .hint2 v) ∨
        (∃ v, i = .hint3 v) ∨ (∃ v, i = .hint4 v) ∨ (∃ v, i = .hint5 v) ∨ ∃ c, i = .fence c 0) →
      ∃ t : State, exec i s = .next t ∧ ScalarFrame s t none none)

/-- A transfer of a stream ends its block instance towards the header its rule names: BR, BRC, CALL, LOOP and LOOPA by an offset from their own address,
RET by g[S1], YIELD to the header that follows. -/
def Obligations.TransfersOfAStream : Prop :=
  ∀ (s : State) (q : SeqId), s.cur = .seq q →
    (∀ off, exec (.br off) s = .next (s.endInstance q ((s.seqr q).pc + (off.signExtend 64 <<< 2)))) ∧
    (∀ k neg off,
      exec (.brc k neg off) s =
        .next (s.endInstance q (if s.p k ≠ neg then (s.seqr q).pc + (off.signExtend 64 <<< 2) else s.fallThrough))) ∧
    (∀ off, exec (.call off) s = .next ((s.setG 31 s.fallThrough).endInstance q ((s.seqr q).pc + (off.signExtend 64 <<< 2)))) ∧
    (∀ k off, (s.strm q).lcReg k.toNat = 0 → exec (.loop k off) s = .next (s.endInstance q s.fallThrough)) ∧
    (∀ k off, (s.strm q).lcReg k.toNat = 1 → exec (.loop k off) s = .next ((s.setLc k 0).endInstance q s.fallThrough)) ∧
    (∀ k off n, (s.strm q).lcReg k.toNat = n → n ≠ 0 → n ≠ 1 →
      exec (.loop k off) s = .next ((s.setLc k (n - 1)).endInstance q ((s.seqr q).pc + (off.signExtend 64 <<< 2)))) ∧
    (∀ a, s.isHeader false q.core s.myMx q.sec (s.g a).toNat = true → exec (.ret a) s = .next (s.endInstance q (s.g a))) ∧
    (∀ (y : Sync) (k : BitVec 2) (ar : BitVec 4) (ae : Bool) (step : BitVec 16) (off : BitVec 21) (u : State),
      u = ((if ae = true then s.setA ar (s.a ar + (step.signExtend 64 <<< 6)) else s).popBefore y).pushAfter y →
      ((s.strm q).lcReg k.toNat = 0 → exec (.loopa y k ar ae step off) s = .next (u.endInstance q s.fallThrough)) ∧
        ((s.strm q).lcReg k.toNat = 1 → exec (.loopa y k ar ae step off) s = .next ((u.setLc k 0).endInstance q s.fallThrough)) ∧
        ∀ n, (s.strm q).lcReg k.toNat = n → n ≠ 0 → n ≠ 1 → exec (.loopa y k ar ae step off) s =
          .next ((u.setLc k (n - 1)).endInstance q ((s.seqr q).pc + (off.signExtend 64 <<< 3)))) ∧
    (∀ u, u = (s.settleBlock q).setSeqr q { (s.settleBlock q).seqr q with phase := .ended } →
      exec .halt s = .next ((u.setStrm q { u.strm q with halted := true }).taskEnd q.core q.slot)) ∧
    exec .yield s = .next ((s.setSeqr q { s.seqr q with yielded := some s.dclk.toNat }).endInstance q s.fallThrough)

/-- R362 and the transfers of the housekeeping processor: the next block is sought at the target; ERET sets TEN and goes to EPC; HALT waits for an event.
R60: a RET, and an ERET of the housekeeping processor, whose target is no block header raises the control-target fault with the target in ADDR, before
any effect of the word. -/
def Obligations.TransfersOfHousekeeping : Prop :=
  (∀ (s : State), s.cur = .hk →
    (∀ off, exec (.br off) s = .next (s.hkGoto (s.hk.pc + (off.signExtend 64 <<< 2)))) ∧
    (∀ k neg off, exec (.brc k neg off) s = .next (s.hkGoto (if s.p k ≠ neg then s.hk.pc + (off.signExtend 64 <<< 2) else s.hk.pc + 4))) ∧
    (∀ off, exec (.call off) s = .next ((s.setG 31 (s.hk.pc + 4)).hkGoto (s.hk.pc + (off.signExtend 64 <<< 2)))) ∧
    (∀ a, s.isHeader true 0 0 .sc (s.g a).toNat = true → exec (.ret a) s = .next (s.hkGoto (s.g a))) ∧
    (s.isHeader true 0 0 .sc s.hk.epc.toNat = true →
      exec .eret s = .next { s with hk := { s.hk with ten := true, phase := .waiting, pc := s.hk.epc, left := 0 } }) ∧
    exec .halt s = .next { s with hk := { s.hk with halted := true, phase := .waiting, pc := s.hk.pc + 4, left := 0 } }) ∧
  ((∀ (s : State) (a : BitVec 5), s.isHeader s.isHk s.here.core s.myMx s.here.sec (s.g a).toNat = false →
      exec (.ret a) s = .next (s.raise { code := 0x0F, addr := (s.g a).toNat })) ∧
    ∀ (s : State), s.cur = .hk → s.isHeader true 0 0 .sc s.hk.epc.toNat = false →
      exec .eret s = .next (s.raise { code := 0x0F, addr := s.hk.epc.toNat }))

/-- SYNC consumes as many tokens of queues 3 and 4, and produces as many on queues 7 and 0, as it names and the block still holds in reserve; produced
tokens wait for the accesses before the word, and behind earlier ones of their queue. Nothing else of the device changes. -/
def Obligations.SyncMovesTokens : Prop :=
  ∀ (s : State) (q : SeqId) (a b c d : BitVec 2) (na nb nc nd : Nat) (late : Nat → Bool), s.cur = .seq q → q.sec = .sc →
    na = min a.toNat (s.seqr q).popP → nb = min b.toNat (s.seqr q).popN → nc = min c.toNat (s.seqr q).pushP →
    nd = min d.toNat (s.seqr q).pushN →
    (∀ k, late k = (!s.effectsDone q s.nextId || (s.strm q).pushes.any fun p => p.queue == k)) →
    ∃ t : State, exec (.sync a b c d) s = .next t ∧ OnlyStream s t q.core q.slot ∧ SameMemory s t ∧
      t.strm q = { s.strm q with
          tq := (t.strm q).tq
          pushes := (s.strm q).pushes
            ++ (if late 7 = true ∧ nc ≠ 0 then [({ queue := 7, n := nc, settle := false, sec := .sc, before := s.nextId } : Push)] else [])
            ++ (if late 0 = true ∧ nd ≠ 0 then [({ queue := 0, n := nd, settle := false, sec := .sc, before := s.nextId } : Push)] else [])
        }.setSeqr .sc { s.seqr q with
          pc := s.fallThrough, left := (s.seqr q).left - 1, popP := (s.seqr q).popP - na, popN := (s.seqr q).popN - nb
          pushP := (s.seqr q).pushP - nc, pushN := (s.seqr q).pushN - nd } ∧
      ((t.strm q).tok 3) = { (s.strm q).tok 3 with c := ((s.strm q).tok 3).c - na, pr := ((s.strm q).tok 3).pr - na } ∧
      ((t.strm q).tok 4) = { (s.strm q).tok 4 with c := ((s.strm q).tok 4).c - nb, pr := ((s.strm q).tok 4).pr - nb } ∧
      ((t.strm q).tok 7) = (if late 7 then (s.strm q).tok 7
        else { (s.strm q).tok 7 with c := ((s.strm q).tok 7).c + nc, ur := ((s.strm q).tok 7).ur - nc }) ∧
      ((t.strm q).tok 0) = (if late 0 then (s.strm q).tok 0
        else { (s.strm q).tok 0 with c := ((s.strm q).tok 0).c + nd, ur := ((s.strm q).tok 0).ur - nd }) ∧
      ∀ k, k ∉ [0, 3, 4, 7] → (t.strm q).tok k = (s.strm q).tok k

/-- A fault of a stream's word: the word has no effect on registers, memory, requests, copies or other streams; its record goes to the event queue and
the record store; the sequencer stops there and the stream admits no block; a terminal code takes the micro-context to FAULTED, once. A fault of the
housekeeping processor: its record in the record store has VALID.HK, bit 5 of its byte 3; machine check 8 is raised, and the processor stops, to be
started again. -/
def Obligations.FaultsAreRecorded : Prop :=
  (∀ (s : State) (q : SeqId) (f : FaultInfo), s.cur = .seq q → s.events.length < 1024 →
    (s.raise f).events = s.events ++ [{ code := f.code, mx := s.myMx, n := s.eventCount }] ∧
    (s.raise f).eventCount = s.eventCount + 1 ∧
    (∀ k, k < 64 → (s.raise f).records.read (64 * (s.eventCount % 1024) + k) =
      (s.streamRecord q.core q.slot (some q.sec) (s.seqr q).pc f).getD k 0) ∧
    (∀ a, a < 64 * (s.eventCount % 1024) ∨ 64 * (s.eventCount % 1024) + 64 ≤ a → (s.raise f).records.read a = s.records.read a) ∧
    (s.raise f).strm q = { s.strm q with held := true, heldAt := s.dclk.toNat }.setSeqr q.sec { s.seqr q with stopped := true } ∧
    SameMemory s (s.raise f) ∧ (∀ r, (s.raise f).g r = s.g r) ∧ (∀ k, (s.raise f).p k = s.p k) ∧
    (s.raise f).reqs = s.reqs ∧ (s.raise f).copies = s.copies ∧
    (∀ c k, c ≠ q.core ∨ k ≠ q.slot → (s.raise f).stream c k = s.stream c k) ∧
    (∀ m, m ≠ s.myMx → (s.raise f).mx m = s.mx m) ∧
    (terminalCode f.code = false → (s.raise f).mx s.myMx = { s.mx s.myMx with lastAdmit := ((s.raise f).mx s.myMx).lastAdmit }) ∧
    (terminalCode f.code = true → ((s.raise f).mx s.myMx).st = .faulted ∧
      ((s.raise f).mx s.myMx).gen = if (s.mx s.myMx).st = .faulted then (s.mx s.myMx).gen else (s.mx s.myMx).gen + 1)) ∧
  (∀ (s : State) (f : FaultInfo), s.cur = .hk → s.events.length < 1023 →
    (s.raise f).events.map (·.code) = s.events.map (·.code) ++ [f.code, 0x81] ∧ (s.raise f).hk = { s.hk with phase := .ended } ∧
    (∀ k, k < 64 → (s.raise f).records.read (64 * (s.eventCount % 1024) + k) =
      (recordBytes f 0x20 0 s.hk.pc.toNat 0 0 0 s.dclk.toNat).getD k 0) ∧
    ((s.raise f).records.read (64 * (s.eventCount % 1024) + 3)).getLsbD 5 = true ∧
    (s.raise f).mcsum.toNat % 256 = 8 ∧ SameMemory s (s.raise f) ∧ (s.raise f).cores = s.cores ∧ (s.raise f).mxs = s.mxs)

/-- TRAP and a TFENCE that traps: the block instance ends at the word, the stream goes on from the header that follows in fall-through order once it is
released, and the record carries what the word gives. -/
def Obligations.TrapsTakeTheException : Prop :=
  ∀ (s : State) (q : SeqId), s.cur = .seq q → s.events.length < 1024 →
    (∀ a n, ∃ t : State, exec (.trap a n) s = .next t ∧ t.events = s.events ++ [{ code := 0x0D, mx := s.myMx, n := s.eventCount }] ∧
      t.records = s.records.writeN (64 * (s.eventCount % 1024))
        (s.streamRecord q.core q.slot (some q.sec) (s.seqr q).pc { code := 0x0D, c0 := n.toNat, aux := (s.g a).toNat }) ∧
      (t.strm q).held = true ∧ (t.seqr q).stopped = true ∧
      (t.seqr q).pc = (s.seqr q).hdrPc + BitVec.ofNat 64 (((s.seqr q).hdr.len + 1) * q.sec.wordBytes) ∧ (t.seqr q).left = 0) ∧
    (s.me.armed ≠ 0 → ∃ t : State, exec .tfence s = .next t ∧ t.events = s.events ++ [{ code := 0x0C, mx := s.myMx, n := s.eventCount }] ∧
      t.records = s.records.writeN (64 * (s.eventCount % 1024))
        (s.streamRecord q.core q.slot (some q.sec) (s.seqr q).pc { code := 0x0C, aux := s.me.armed.toNat }) ∧
      (t.strm q).held = true ∧ (t.seqr q).stopped = true ∧
      (t.seqr q).pc = (s.seqr q).hdrPc + BitVec.ofNat 64 (((s.seqr q).hdr.len + 1) * q.sec.wordBytes) ∧ (t.seqr q).left = 0) ∧
    (s.me.armed = 0 → ∃ t : State, exec .tfence s = .next t ∧ ScalarFrame s t none none)

/-- SLD from the scratchpad: the bytes at the offset, little-endian and zero-extended, are delivered; nothing else changes; where a block of them is
uncorrectable, the destination waits for an error that the word that consumes it meets. SST to the scratchpad: the low
bytes of g[D] stand at the window's bytes, and nothing else changes. R214: beyond the window, an SLD or SST raises a window fault at the first failing
offset; within it, an offset that is no multiple of the size raises an alignment fault. -/
def Obligations.ScratchpadAccesses : Prop :=
  (∀ (s : State) (q : SeqId) (d a b : BitVec 5) (cs : Cs) (sz : BitVec 2) (ord : Bool) (o : Nat), s.cur = .seq q →
    spAlias (if ord then s.g a else s.g a + s.g b).toNat = some o → o + 2 ^ sz.toNat ≤ (s.strm q).window →
    (if ord then s.g a else s.g a + s.g b).toNat % 2 ^ sz.toNat = 0 →
    (s.spBadIn q.core q.slot o (2 ^ sz.toNat) = none →
      ∃ t : State, exec (.sld d a b cs sz ord) s = .next t ∧ ScalarFrame s t (some d) none ∧
        t.g d = if d = 0 then 0 else BitVec.ofNat 64 (leNat (s.readSp q.core q.slot o (2 ^ sz.toNat)))) ∧
    ∀ b', s.spBadIn q.core q.slot o (2 ^ sz.toNat) = some b' →
      ∃ (t : State) (r : Req) (e : PendErr), exec (.sld d a b cs sz ord) s = .next t ∧ PostFrame s t ∧ t.reqs = s.reqs ++ [r] ∧
        r.performed = true ∧ r.dest = some d ∧ r.err = some e ∧ e.code = 6 ∧ e.baddr = some b') ∧
  (∀ (s : State) (q : SeqId) (d a b : BitVec 5) (cs : Cs) (sz : BitVec 2) (ord : Bool) (o : Nat), s.cur = .seq q →
    spAlias (if ord then s.g a else s.g a + s.g b).toNat = some o → o + 2 ^ sz.toNat ≤ (s.strm q).window →
    (if ord then s.g a else s.g a + s.g b).toNat % 2 ^ sz.toNat = 0 →
    ∃ t : State, exec (.sst d a b cs sz ord) s = .next t ∧ t = { s with cores := t.cores } ∧
      (∀ k, k < 2 ^ sz.toNat → (t.core q.core).sp.read ((s.strm q).spAddr o + k) = BitVec.ofNat 8 ((s.g d).toNat / 256 ^ k)) ∧
      (∀ c e, c ≠ q.core ∨ e < (s.strm q).spAddr o ∨ (s.strm q).spAddr o + 2 ^ sz.toNat ≤ e →
        (t.core c).sp.read e = (s.core c).sp.read e) ∧
      (∀ key pa, t.readPa key pa 1 = s.readPa key pa 1) ∧
      t.strm q = (s.strm q).setSeqr q.sec { s.seqr q with pc := s.fallThrough, left := (s.seqr q).left - 1 } ∧
      ∀ c k, c ≠ q.core ∨ k ≠ q.slot → t.stream c k = s.stream c k) ∧
  (∀ (s : State) (q : SeqId) (d a b : BitVec 5) (cs : Cs) (sz : BitVec 2) (ord : Bool) (o : Nat), s.cur = .seq q →
    spAlias (if ord then s.g a else s.g a + s.g b).toNat = some o →
    ((s.strm q).window < o + 2 ^ sz.toNat →
      exec (.sld d a b cs sz ord) s = .next (s.raise { code := 1, space := 1, addr := max o (s.strm q).window }) ∧
      exec (.sst d a b cs sz ord) s = .next (s.raise { code := 1, space := 1, addr := max o (s.strm q).window })) ∧
    (o + 2 ^ sz.toNat ≤ (s.strm q).window → (if ord then s.g a else s.g a + s.g b).toNat % 2 ^ sz.toNat ≠ 0 →
      exec (.sld d a b cs sz ord) s = .next (s.raise { code := 2, space := 1, addr := o }) ∧
      exec (.sst d a b cs sz ord) s = .next (s.raise { code := 2, space := 1, addr := o })))

/-- Scalar accesses to G and IO space are posted, the word is done, and no register or byte changes yet: loads, stores, atomics, reductions, fences of
some class, and the operations of a phase barrier in any space. -/
def Obligations.ScalarAccessesPosted : Prop :=
  ∀ (s : State) (cs : Cs) (x : Xl) (a b d : BitVec 5),
    (∀ sz ord, s.scalarPlace (if ord then s.g a else s.g a + s.g b).toNat (2 ^ sz.toNat) .read true = .ok (.at' x) →
      ∃ (t : State) (r : Req), exec (.sld d a b cs sz ord) s = .next t ∧ t.reqs = s.reqs ++ [r] ∧ r.op = .load (2 ^ sz.toNat) ∧ r.pa = x.pa ∧
        r.dest = some d ∧ r.performed = false ∧ r.id = s.nextId ∧ PostFrame s t) ∧
    (∀ sz ord, s.scalarPlace (if ord then s.g a else s.g a + s.g b).toNat (2 ^ sz.toNat) .write true = .ok (.at' x) →
      ∃ (t : State) (r : Req), exec (.sst d a b cs sz ord) s = .next t ∧ t.reqs = s.reqs ++ [r] ∧ r.op = .store (2 ^ sz.toNat) (s.g d) ∧ r.pa = x.pa ∧
        r.performed = false ∧ r.id = s.nextId ∧ PostFrame s t) ∧
    (∀ sz8 op ord, s.scalarPlace (s.g a).toNat (if sz8 then 8 else 4) .write false = .ok (.at' x) →
      (∃ (t : State) (r : Req), exec (.amo d a sz8 op cs ord) s = .next t ∧ t.reqs = s.reqs ++ [r] ∧ r.pa = x.pa ∧ r.dest = some d ∧
        r.op = .atomic op (if sz8 then 8 else 4) (BitVec.ofNat 64 (s.atomicOps d (if sz8 then 8 else 4)).1)
          (BitVec.ofNat 64 (s.atomicOps d (if sz8 then 8 else 4)).2) true ∧ PostFrame s t) ∧
      ∃ (t : State) (r : Req), exec (.red d a sz8 op cs ord) s = .next t ∧ t.reqs = s.reqs ++ [r] ∧ r.pa = x.pa ∧ r.dest = none ∧
        r.op = .atomic op (if sz8 then 8 else 4) (BitVec.ofNat 64 (s.atomicOps d (if sz8 then 8 else 4)).1)
          (BitVec.ofNat 64 (s.atomicOps d (if sz8 then 8 else 4)).2) false ∧ PostFrame s t) ∧
    (∀ scope mask, mask ≠ 0 → ∃ (t : State) (r : Req), exec (.fence scope mask) s = .next t ∧ t.reqs = s.reqs ++ [r] ∧ r.op = .fence mask ∧
      r.scope = scope ∧ PostFrame s t) ∧
    (∀ p, s.scalarPlace (s.g a).toNat 16 .write false = .ok p →
      (∃ (t : State) (r : Req), exec (.pbInit d a b cs) s = .next t ∧ t.reqs = s.reqs ++ [r] ∧ PostFrame s t ∧ r.va = (s.g a).toNat ∧
        r.op = .pbInit (s.g b).toNat (s.g d).toNat (decide ((s.g b).toNat = 0 ∨ 65535 < (s.g b).toNat ∨ 2 ^ 31 ≤ (s.g d).toNat))) ∧
      (∀ we k, ∃ (t : State) (r : Req), exec (.pbArrive d a b cs we k) s = .next t ∧ t.reqs = s.reqs ++ [r] ∧ PostFrame s t ∧ r.va = (s.g a).toNat ∧
        r.op = .pbArrive (s.g b).toNat (decide (65535 < (s.g b).toNat)) ∧ r.rel = 0xFFFF ∧ r.dest = some d ∧
        r.bw = if we then some k else none) ∧
      ∃ (t : State) (r : Req), exec (.pbExpect a b cs) s = .next t ∧ t.reqs = s.reqs ++ [r] ∧ PostFrame s t ∧ r.va = (s.g a).toNat ∧
        r.op = .pbExpect (s.g b).toNat (decide (2 ^ 31 ≤ (s.g b).toNat))) ∧
    (∀ p, s.scalarPlace (s.g a).toNat 16 .read false = .ok p →
      ∃ (t : State) (r : Req), exec (.pbTest d a cs) s = .next t ∧ t.reqs = s.reqs ++ [r] ∧ PostFrame s t ∧ r.op = .pbTest ∧ r.acq = 0xFFFF ∧
        r.dest = some d)

/-- AMO and RED at a scratchpad location: the word there takes the new value, AMO delivers the old one, zero-extended, and no other byte changes. FADD
writes the FP32 sum, rounded to nearest, and sets the flags of the sum; the others set none. -/
def Obligations.AtomicsInTheScratchpad : Prop :=
  ∀ (s : State) (q : SeqId) (d a : BitVec 5) (sz8 : Bool) (op : BitVec 4) (cs : Cs) (ord : BitVec 2) (o : Nat), s.cur = .seq q →
    spAlias (s.g a).toNat = some o → o + (if sz8 then 8 else 4) ≤ (s.strm q).window →
    (s.g a).toNat % (if sz8 then 8 else 4) = 0 → op.toNat ≤ 10 → s.spBadIn q.core q.slot o (if sz8 then 8 else 4) = none →
    ∀ (old v : Nat) (f : Flags) (r : XV × Flags), old = leNat (s.readSp q.core q.slot o (if sz8 then 8 else 4)) →
    r = (fFP32.dec old).add false (fFP32.dec ((s.g d).toNat % 2 ^ 32)) →
    (op ≠ 8 → v = atomicValue op.toNat (if sz8 then 64 else 32) old (s.g d).toNat (s.g (d + 1)).toNat ∧ f = {}) →
    (op = 8 → sz8 = false ∧ v = (fFP32.enc Rnd.rne r.1).1 ∧ f = r.2.or (fFP32.enc Rnd.rne r.1).2) →
    ∃ t u : State, exec (.amo d a sz8 op cs ord) s = .next t ∧ exec (.red d a sz8 op cs ord) s = .next u ∧
      t.g d = (if d = 0 then 0 else BitVec.ofNat 64 old) ∧ (∀ r, r ≠ d → t.g r = s.g r) ∧ (∀ r, u.g r = s.g r) ∧
      leNat (t.readSp q.core q.slot o (if sz8 then 8 else 4)) = v % 2 ^ (if sz8 then 64 else 32) ∧
      t.me.flags = s.me.flags ||| f.word ∧ u.me.flags = s.me.flags ||| f.word ∧
      (∀ c e, c ≠ q.core ∨ e < (s.strm q).spAddr o ∨ (s.strm q).spAddr o + (if sz8 then 8 else 4) ≤ e →
        (t.core c).sp.read e = (s.core c).sp.read e) ∧
      (∀ c, (u.core c).sp = (t.core c).sp) ∧ (∀ key pa, t.readPa key pa 1 = s.readPa key pa 1)

/-- WANY, WALL and FFRDY, with no pending error under a tag they meet: the predicate or register tells of the ready tags in the mask, and nothing else
changes. -/
def Obligations.TagQueryResults : Prop :=
  ∀ (s : State) (m : Word), (∀ t < 64, (s.me.tagrdy &&& m).getLsbD t = true → s.me.tagerr.find t = none) →
    (∀ p i, ((∃ k, i = .wanyTm p k ∧ s.me.tmReg k.toNat = m) ∨ ∃ a, i = .wanyReg p a ∧ s.g a = m) →
      ∃ t : State, exec i s = .next t ∧ t.p p = (if (s.me.tagrdy &&& m) = 0 then false else true) ∧ ScalarFrame s t none (some p)) ∧
    (∀ p i, ((∃ k, i = .wallTm p k ∧ s.me.tmReg k.toNat = m) ∨ ∃ a, i = .wallReg p a ∧ s.g a = m) →
      ∃ t : State, exec i s = .next t ∧ t.p p = (if (s.me.tagrdy &&& m) = m then true else false) ∧ ScalarFrame s t none (some p)) ∧
    ∀ d i, ((∃ k, i = .ffrdyTm d k ∧ s.me.tmReg k.toNat = m) ∨ ∃ a, i = .ffrdyReg d a ∧ s.g a = m) →
      ∃ t : State, exec i s = .next t ∧ ScalarFrame s t (some d) none ∧
        ((s.me.tagrdy &&& m) = 0 → t.g d = if d = 0 then 0 else 64) ∧
        (∀ k < 64, (s.me.tagrdy &&& m).getLsbD k = true → (∀ j < k, (s.me.tagrdy &&& m).getLsbD j = false) →
          t.g d = if d = 0 then 0 else BitVec.ofNat 64 k)

/-! Control registers, tensors, launches and the housekeeping processor -/

/-- CRD of each register delivers its value; on the housekeeping processor a per-core register is that of the core CSEL names, 0 where that core is not
enabled, and a register of a stream or a micro-context reads 0. Nothing else changes. PERFRD delivers a counter: of the own micro-context or, on the
housekeeping processor, of the one it names; a shared counter of the micro-context since its MXBIND, in whole 4,096s to a guest; the counters 0x107 to
0x109, whose counts the model leaves open (log 32), likewise: to a guest what they held at the sample before the last. SETEST writes the estimate, at
most 2^32 - 1, and nothing else. -/
def Obligations.ControlRegisterReads : Prop :=
  ((∀ (s : State) (q : SeqId) (d : BitVec 5) (n : BitVec 15) (v : Word), s.cur = .seq q →
      (n.toNat, v) ∈
        [(0x000, (s.strm q).tagrdy), (0x030, (s.strm q).astk), (0x031, BitVec.ofNat 64 (s.strm q).dph.toNat),
          (0x032, BitVec.ofNat 64 (s.strm q).dstep.toNat), (0x033, BitVec.ofNat 64 (s.strm q).hrseed.toNat),
          (0x034, BitVec.ofNat 64 (s.strm q).rpth.toNat), (0x038, (s.core q.core).cw.status (s.strm q).mx),
          (0x039, rfwin (s.refreshTimer q.core)), (0x040, BitVec.ofNat 64 q.core), (0x041, BitVec.ofNat 64 (s.strm q).tsidx),
          (0x042, BitVec.ofNat 64 ((s.dclk - (s.mx s.myMx).toff).toNat / 800)), (0x060, BitVec.ofNat 64 (s.core q.core).wth.toNat)] ∨
        (∃ k, k < 8 ∧ n.toNat = 0x008 + k ∧ v = (s.strm q).tmReg k) ∨ (∃ k, k < 4 ∧ n.toNat = 0x010 + k ∧ v = (s.strm q).bwReg k) ∨
        (∃ k, k < 4 ∧ n.toNat = 0x018 + k ∧ v = BitVec.ofNat 64 ((s.strm q).lcReg k).toNat) ∨
        (∃ k, k < 8 ∧ n.toNat = 0x020 + k ∧ v = BitVec.ofNat 64 (AMap.get (0 : BitVec 24) (s.strm q).gpos k).toNat) →
      ∃ t : State, exec (.crd d n) s = .next t ∧ t.g d = (if d = 0 then 0 else v) ∧ ScalarFrame s t (some d) none) ∧
    ∀ (s : State) (d : BitVec 5) (n : BitVec 15) (v : Word), s.cur = .hk →
      (n.toNat, v) ∈
        [(0x400, BitVec.ofNat 64 s.hk.csel.toNat), (0x401, s.hk.epc),
          (0x402, BitVec.ofNat 64 (s.hk.ecauseMx.toNat * 2 ^ 16 + s.hk.ecauseCode.toNat)), (0x403, s.hk.erec), (0x404, s.hk.tvec),
          (0x405, if s.hk.ten then 1 else 0), (0x410, s.dclk), (0x411, s.ltb),
          (0x039, if s.coreEnabled s.hk.csel.toNat then rfwin (s.refreshTimer s.hk.csel.toNat) else 0),
          (0x040, if s.coreEnabled s.hk.csel.toNat then BitVec.ofNat 64 s.hk.csel.toNat else 0),
          (0x060, if s.coreEnabled s.hk.csel.toNat then BitVec.ofNat 64 (s.core s.hk.csel.toNat).wth.toNat else 0)] ∨
        v = 0 ∧ (n.toNat ∈ [0x000, 0x030, 0x031, 0x032, 0x033, 0x034, 0x038, 0x041, 0x042] ∨ (0x008 ≤ n.toNat ∧ n.toNat ≤ 0x00F) ∨
          (0x010 ≤ n.toNat ∧ n.toNat ≤ 0x013) ∨ (0x018 ≤ n.toNat ∧ n.toNat ≤ 0x01B) ∨ 0x020 ≤ n.toNat ∧ n.toNat ≤ 0x027) →
      ∃ t : State, exec (.crd d n) s = .next t ∧ t.g d = (if d = 0 then 0 else v) ∧ ScalarFrame s t (some d) none) ∧
  ((∀ (s : State) (d a : BitVec 5) (n : BitVec 15), ∃ t : State, exec (.perfrd d a n) s = .next t ∧
      ScalarFrame s t (some d) none ∧
      (0x107 ≤ n.toNat ∧ n.toNat ≤ 0x109 → d ≠ 0 →
        (s.isHk = true → t.g d = s.openCount ((s.g a).toNat % 16384) n.toNat s.dclk.toNat) ∧
        (s.isHk = false → t.g d = BitVec.ofNat 64
          ((s.openCount s.myMx n.toNat ((s.dclk.toNat / 819200 - 1) * 819200)).toNat / 4096 * 4096))) ∧
      (n.toNat < 0x107 ∨ 0x109 < n.toNat →
        (d ≠ 0 → n.toNat < 0x100 → s.isHk = false → t.g d = AMap.get 0 (s.mx s.myMx).cnt n.toNat) ∧
        (d ≠ 0 → n.toNat < 0x100 → s.isHk = true → t.g d = AMap.get 0 (s.mx ((s.g a).toNat % 16384)).cnt n.toNat) ∧
        (d ≠ 0 → 0x100 ≤ n.toNat → s.isHk = true →
          (t.g d).toNat = s.sharedSince ((s.g a).toNat % 16384) n.toNat s.shared % 2 ^ 64) ∧
        (d ≠ 0 → 0x100 ≤ n.toNat → s.isHk = false →
          (t.g d).toNat = s.sharedSince s.myMx n.toNat (s.samples.getD 1 []) / 4096 * 4096 % 2 ^ 64))) ∧
    ∀ (s : State) (q : SeqId) (a : BitVec 5), s.cur = .seq q →
      ∃ t : State, exec (.setest a) s = .next t ∧ ScalarFrame { s with mxs := t.mxs } t none none ∧
        (∀ m, m ≠ s.myMx → t.mx m = s.mx m) ∧
        t.mx s.myMx = { s.mx s.myMx with est := BitVec.ofNat 32 (min (s.g a).toNat (2 ^ 32 - 1)), estSet := true })

/-- CWR of a stream's register: it reads as the written value cut to its field (bit 0 of DSTEP is 1, of a watch register bits 56:0 are kept; in ASTK a
written 1 clears a flag, and the enables are written), and the stream's other registers and all of memory stand. CWR on the housekeeping processor:
TVEC keeps bits 63:2, TEN bit 0, COREID_SEL 16 bits, WTH goes to the selected core; the numbers it cannot write are discarded. -/
def Obligations.ControlRegisterWrites : Prop :=
  (∀ (s : State) (q : SeqId) (a : BitVec 5) (n : BitVec 15) (v : Nat), s.cur = .seq q →
    ((n.toNat = 0x000 ∨ (0x008 ≤ n.toNat ∧ n.toNat ≤ 0x00F)) ∧ v = (s.g a).toNat ∨
      (0x010 ≤ n.toNat ∧ n.toNat ≤ 0x013) ∧ v = (s.g a).toNat % 2 ^ 57 ∨
      ((0x018 ≤ n.toNat ∧ n.toNat ≤ 0x01B) ∨ n.toNat = 0x033 ∨ n.toNat = 0x034) ∧ v = (s.g a).toNat % 2 ^ 32 ∨
      n.toNat = 0x031 ∧ v = (s.g a).toNat % 2 ^ 6 ∨ n.toNat = 0x032 ∧ v = ((s.g a).toNat % 2 ^ 6 ||| 1) ∨
      n.toNat = 0x030 ∧ v = ((s.strm q).flags &&& ~~~((s.g a).setWidth 7)).toNat + 2 ^ 16 * ((s.g a).toNat / 2 ^ 16 % 2 ^ 7)) →
    ∃ t : State, exec (.cwr a n) s = .next t ∧ (t.streamCtl q n.toNat).toNat = v ∧
      (∀ k, k ≠ n.toNat → t.streamCtl q k = s.streamCtl q k) ∧ (∀ r, t.g r = s.g r) ∧ (∀ j, t.p j = s.p j) ∧
      SameMemory s t ∧ t.pc = s.fallThrough ∧ ∀ c, c ≠ q.core → t.core c = s.core c) ∧
  (∀ (s : State) (a : BitVec 5) (n : BitVec 15), s.cur = .hk →
    ∃ t : State, exec (.cwr a n) s = .next t ∧ SameMemory s t ∧ (∀ r, t.g r = s.g r) ∧ t.pc = s.pc + 4 ∧
      t.hk.csel = (if n.toNat = 0x400 then (s.g a).setWidth 16 else s.hk.csel) ∧
      t.hk.epc = (if n.toNat = 0x401 then s.g a else s.hk.epc) ∧
      t.hk.tvec.toNat = (if n.toNat = 0x404 then (s.g a).toNat / 4 * 4 else s.hk.tvec.toNat) ∧
      t.hk.ten = (if n.toNat = 0x405 then (s.g a).getLsbD 0 else s.hk.ten) ∧
      t.hk.ecauseMx = s.hk.ecauseMx ∧ t.hk.ecauseCode = s.hk.ecauseCode ∧ t.hk.erec = s.hk.erec ∧
      ∀ c, (t.core c).wth =
        if n.toNat = 0x060 ∧ c = s.hk.csel.toNat ∧ s.coreEnabled c = true then (s.g a).setWidth 32 else (s.core c).wth)

/-- A declaration is refused with the status of its first failing rule and joins the table otherwise, the micro-context's or, on the housekeeping
processor, that of the device tensors; TENSOR.UNDEF takes the tensor of a TID out of it, and answers 5 when there is none. LAUNCH reads its descriptor
and has the status of Table 9.9 of its first failing rule; a local request whose rules hold joins the target's ring with its four words, from kind 4,
and where the ring's frames do not accept the write nothing is appended; a remote one leaves with its request data for a device in reach, and has
status 4 otherwise. The order among the statuses of TENSOR.DEF (1, 3, 2, 4) and of LAUNCH (3, then 4 or 2, then a fault of the request data, then 1)
is the model's choice (log 63): the spec orders none of them. -/
def Obligations.TensorsAndLaunches : Prop :=
  ((∀ (s : State) (d a : BitVec 5) (l : List Byte) (ts us : List Tensor), s.scalarRead (s.g a).toNat 32 32 = .ok l →
      ts = (if s.isHk then s.devTensors else (s.mx s.myMx).tensors) →
      us = (if declStatus s.isHk ts l = 0 then ts ++ [tensorOf l] else ts) →
      ∃ t : State, exec (.tensorDef d a) s = .next t ∧
        ScalarFrame { s with mxs := t.mxs, devTensors := t.devTensors } t (some d) none ∧
        (∀ m, m ≠ s.myMx → t.mx m = s.mx m) ∧
        (d ≠ 0 → t.g d =
          if (tensorFault s.isHk l).isSome then 1
          else if ∃ x ∈ ts, x.tid = fieldLe l 0 4 then 3
          else if ∃ x ∈ ts, x.base.toNat ≤ (tensorOf l).last ∧ (tensorOf l).base.toNat ≤ x.last then 2
          else if 4096 ≤ ts.length then 4
          else 0) ∧
        (s.isHk = true → t.devTensors = us ∧ t.mx s.myMx = s.mx s.myMx) ∧
        (s.isHk = false → t.devTensors = s.devTensors ∧
          t.mx s.myMx = { s.mx s.myMx with tensors := us, coldHigh := (t.mx s.myMx).coldHigh })) ∧
    ∀ (s : State) (d b : BitVec 5) (ts : List Tensor), d ≠ 0 → ts = (if s.isHk then s.devTensors else (s.mx s.myMx).tensors) →
      ∃ t : State, exec (.tensorUndef d b) s = .next t ∧ (∀ r, r ≠ d → t.g r = s.g r) ∧ t.pc = s.fallThrough ∧
        (if s.isHk then t.devTensors else (t.mx s.myMx).tensors) = ts.filter (fun x => x.tid != (s.g b).toNat % 2 ^ 20) ∧
        t.g d = if ∃ x ∈ ts, x.tid = (s.g b).toNat % 2 ^ 20 then 0 else 5) ∧
  (∀ (s u : State) (d a : BitVec 5) (l : List Byte), s.scalarRead (s.g a).toNat 64 64 = .ok l → u = s.touchMine (s.g a).toNat 64 →
    (launchBad l = true → exec (.launch d a) s = .next (u.setG d 3).done) ∧
    (launchBad l = false → bit (fieldLe l 2 1) 0 = true →
      (Config.reachable (fieldLe l 4 2) = false → exec (.launch d a) s = .next (u.setG d 4).done) ∧
      (Config.reachable (fieldLe l 4 2) = true →
        (∀ b, u.launchData (fieldLe l 8 8) (fieldLe l 0x10 4) = .ok b →
          ∃ v : Word, v.toNat < 3 ∧ exec (.launch d a) s = .next
            ((({ u with sent := (8, l ++ b) :: u.sent, fresh := u.fresh + 1 } : State).touchMine
              (fieldLe l 8 8) (fieldLe l 0x10 4)).setG d v).done) ∧
        ∀ f, u.launchData (fieldLe l 8 8) (fieldLe l 0x10 4) = .error f → exec (.launch d a) s = .next (u.raise f))) ∧
    (launchBad l = false → bit (fieldLe l 2 1) 0 = false →
      (u.mx (fieldLe l 0 2)).st = .free ∨ (u.mx (fieldLe l 0 2)).st = .faulted ∨
        (u.mx (fieldLe l 0 2)).tenant ≠ (u.mx u.myMx).tenant ∨ (u.mx (fieldLe l 0 2)).part ≠ (u.mx u.myMx).part →
      exec (.launch d a) s = .next (u.setG d 2).done) ∧
    (launchBad l = false → bit (fieldLe l 2 1) 0 = false →
      (u.mx (fieldLe l 0 2)).st ≠ .free → (u.mx (fieldLe l 0 2)).st ≠ .faulted →
      (u.mx (fieldLe l 0 2)).tenant = (u.mx u.myMx).tenant → (u.mx (fieldLe l 0 2)).part = (u.mx u.myMx).part →
      (∀ b, u.launchData (fieldLe l 8 8) (fieldLe l 0x10 4) = .ok b →
        (∀ t, u.append (fieldLe l 0 2) 4 b [fieldLe l 0x18 4, fieldLe l 0x1C 4, fieldLe l 0x20 4, fieldLe l 0x24 4] none = .ok t →
          exec (.launch d a) s = .next ((t.touchMine (fieldLe l 8 8) (fieldLe l 0x10 4)).setG d 0).done) ∧
        (u.append (fieldLe l 0 2) 4 b [fieldLe l 0x18 4, fieldLe l 0x1C 4, fieldLe l 0x20 4, fieldLe l 0x24 4] none = .full →
          exec (.launch d a) s = .next ((u.touchMine (fieldLe l 8 8) (fieldLe l 0x10 4)).setG d 1).done) ∧
        (u.append (fieldLe l 0 2) 4 b [fieldLe l 0x18 4, fieldLe l 0x1C 4, fieldLe l 0x20 4, fieldLe l 0x24 4] none = .fault →
          ∃ v : Word, 1 ≤ v.toNat ∧ v.toNat ≤ 4 ∧ exec (.launch d a) s = .next
            (({ u with fresh := u.fresh + 1 } : State).touchMine (fieldLe l 8 8) (fieldLe l 0x10 4) |>.setG d v).done)) ∧
      ∀ f, u.launchData (fieldLe l 8 8) (fieldLe l 0x10 4) = .error f → exec (.launch d a) s = .next (u.raise f)))

/-- R331, R363: after a TLBI of an active partition no core holds a translation, or an entry of a walk cache, that it covers, and every other one is where
it was. -/
def Obligations.TlbiRemovesTheCovered : Prop :=
  ∀ (s : State) (d a b : BitVec 5) (rng mxe : Bool) (st : BitVec 2), s.cur = .hk →
    ∃ t : State, exec (.tlbi d a b rng mxe st) s = .next t ∧ SameMemory s t ∧ t.hk = { s.hk with pc := s.pc + 4, left := s.hk.left - 1 } ∧
      t.mxs = s.mxs ∧
      (∀ (c : Nat) (e : WalkEntry), e ∈ (t.core c).wcache ↔
        e ∈ (s.core c).wcache ∧ ¬ ((s.part ((s.g a).toNat % 16)).active = true ∧ (s.tlbScope d a b rng mxe st).coversWalk e = true)) ∧
      ∀ (c : Nat) (e : TlbEntry), e ∈ (t.core c).tlb ↔
        e ∈ (s.core c).tlb ∧ ¬ ((s.part ((s.g a).toNat % 16)).active = true ∧ e.part = (s.g a).toNat % 16 ∧
          (st.getLsbD 0 = true ∧ (mxe = true → e.mx = (s.g a).toNat / 2 ^ 16 % 2 ^ 14) ∧
              (rng = true → 0 < (s.g d).toNat ∧ e.page1.1 < (s.g b).toNat + (s.g d).toNat ∧ (s.g b).toNat < e.page1.1 + e.page1.2) ∨
            st.getLsbD 1 = true ∧
              (rng = true → 0 < (s.g d).toNat ∧ e.page2.1 < (s.g b).toNat + (s.g d).toNat ∧ (s.g b).toNat < e.page2.1 + e.page2.2)))

/-- KEYLD: a key import that opens fills an EMPTY slot, whose generation rises by one, and is refused with its status otherwise; unload makes a LOADED
slot RETIRING. Every other slot stands. -/
def Obligations.KeySlots : Prop :=
  (∀ (s : State) (d a b : BitVec 5), (s.g b).toNat % 64 = 0 → s.paFails (s.g b).toNat 64 = false →
      fieldLe (s.peek (s.g b).toNat 64) 12 4 = 0 →
      ∃ t : State, exec (.keyldLoad d a b) s = .next t ∧ (∀ k, k ≠ (s.g a).toNat % 4096 → t.key k = s.key k) ∧ t.mem = s.mem ∧ t.llc = s.llc ∧
        ((s.key ((s.g a).toNat % 4096)).st = 0 →
          match gcmOpen keyImportKey (beNat ((s.peek (s.g b).toNat 64).take 12))
              (leBytes 2 ((s.g a).toNat % 4096) ++ leBytes 2 ((s.g a).toNat / 2 ^ 16 % 2 ^ 16))
              (sliceBytes (s.peek (s.g b).toNat 64) 0x10 32) (beNat (sliceBytes (s.peek (s.g b).toNat 64) 0x30 16)) with
          | some p =>
            (t.key ((s.g a).toNat % 4096)).st = 1 ∧
              (t.key ((s.g a).toNat % 4096)).kgen = (s.key ((s.g a).toNat % 4096)).kgen + 1 ∧
              (t.key ((s.g a).toNat % 4096)).k1 = BitVec.ofNat 128 (beNat (p.take 16)) ∧
              (t.key ((s.g a).toNat % 4096)).k2 = BitVec.ofNat 128 (beNat (sliceBytes p 16 16)) ∧ (d ≠ 0 → t.g d = 0)
          | none => t.key ((s.g a).toNat % 4096) = s.key ((s.g a).toNat % 4096) ∧ (d ≠ 0 → t.g d = 11)) ∧
        ((s.key ((s.g a).toNat % 4096)).st ≠ 0 →
          t.key ((s.g a).toNat % 4096) = s.key ((s.g a).toNat % 4096) ∧ (d ≠ 0 → t.g d = 8))) ∧
    ∀ (s : State) (d a b : BitVec 5), ∃ t : State, exec (.keyldUnload d a b) s = .next t ∧
      (∀ k, k ≠ (s.g a).toNat % 4096 → t.key k = s.key k) ∧ SameMemory s t ∧
      t.key ((s.g a).toNat % 4096) =
        (if (s.key ((s.g a).toNat % 4096)).st = 1 then { s.key ((s.g a).toNat % 4096) with st := 2 }
         else s.key ((s.g a).toNat % 4096)) ∧
      (d ≠ 0 → t.g d = if (s.key ((s.g a).toNat % 4096)).st = 1 then 0 else 8)

/-- SCRUB: of an enabled core, every bank no window holds and no scrub clears, every free unit of its shutter store, and the casement's panes where no team
owns them, go to a scrub that will deliver the status; of no such core, status BADARG at once; of a tenant, the cache step. -/
def Obligations.ScrubsBegin : Prop :=
  ∀ (s : State) (d a : BitVec 5), s.cur = .hk →
    (s.coreEnabled ((s.g a).toNat % 2 ^ 16) = false → exec (.scrubCore d a) s = .next (s.setG d 2).done) ∧
    (s.coreEnabled ((s.g a).toNat % 2 ^ 16) = true → ∃ (t : State) (r : Scrub), exec (.scrubCore d a) s = .next t ∧
      t.scrubs = s.scrubs ++ [r] ∧ r.dest = some d ∧ r.cache = false ∧ r.start = s.dclk.toNat ∧
      (∀ c b, (c, b) ∈ r.banks ↔ c = (s.g a).toNat % 2 ^ 16 ∧ b < 48 ∧ b ∉ (s.core c).scrubBanks ∧
        ∀ e ∈ (s.core c).streams, e.2.mx.isSome = true → b ∉ e.2.banks.map (·.bank)) ∧
      (r.cws = if (s.core ((s.g a).toNat % 2 ^ 16)).cw.owner = none ∧ (s.core ((s.g a).toNat % 2 ^ 16)).scrubCw = false
        then [(s.g a).toNat % 2 ^ 16] else []) ∧
      r.shuts = [((s.g a).toNat % 2 ^ 16, (s.core ((s.g a).toNat % 2 ^ 16)).shutFree)] ∧
      (t.core ((s.g a).toNat % 2 ^ 16)).shutFree = 0 ∧
      SameMemory s t ∧ (∀ x, t.g x = s.g x) ∧ t.hk = { s.hk with pc := s.pc + 4, left := s.hk.left - 1 }) ∧
    ∃ (t : State) (r : Scrub), exec (.scrubTenant d a) s = .next t ∧
      t = ({ s with scrubs := s.scrubs ++ [r], nextId := s.nextId + 1 } : State).done ∧ r.cache = true ∧ r.dest = some d ∧
      r.tenant = (s.g a).setWidth 16 ∧ r.banks = [] ∧ r.cws = []

/-- MXBIND: the first failing rule gives the status, those of partition, home column, key and signature among them, and nothing else changes then; where
every rule holds, the micro-context takes the image's fields, IDLE, with the next generation, its budget whole and its deadline one period from now, and
its record is fetched. -/
def Obligations.MxbindOutcomes : Prop :=
  ∀ (s : State) (d a b : BitVec 5),
    ((16383 < (s.g a).toNat ∨ (s.g b).toNat % 64 ≠ 0) → exec (.mxbind d a b) s = .next (s.setG d 2).done) ∧
    ((s.g a).toNat ≤ 16383 → (s.g b).toNat % 64 = 0 → s.paFails (s.g b).toNat 256 = true →
      exec (.mxbind d a b) s = .next (s.setG d 7).done) ∧
    ((s.g a).toNat ≤ 16383 → (s.g b).toNat % 64 = 0 → s.paFails (s.g b).toNat 256 = false → (s.mx (s.g a).toNat).st ≠ .free →
      exec (.mxbind d a b) s = .next (s.setG d 8).done) ∧
    ((s.g a).toNat ≤ 16383 → (s.g b).toNat % 64 = 0 → s.paFails (s.g b).toNat 256 = false → (s.mx (s.g a).toNat).st = .free →
      (∀ o, imageFault (s.peek (s.g b).toNat 256) = some o →
        exec (.mxbind d a b) s = .next (s.setG d (BitVec.ofNat 64 (2 + o * 2 ^ 8))).done) ∧
      (∀ e, imageFault (s.peek (s.g b).toNat 256) = none →
        (s.setMx (s.g a).toNat (Mx.reset.ofImage (s.peek (s.g b).toNat 256))).bindChecks (s.g a).toNat = .error e →
        exec (.mxbind d a b) s = .next (s.setG d e).done) ∧
      ∀ h l i, i = s.peek (s.g b).toNat 256 → imageFault i = none →
        (s.setMx (s.g a).toNat (Mx.reset.ofImage i)).bindChecks (s.g a).toNat = .ok (h, l) →
        ∃ u t : State, exec (.mxbind d a b) s = .next (t.setG d 0).done ∧ t = u.prefetchRecord (s.g a).toNat ∧
          (u.mx (s.g a).toNat).st = .idle ∧ (u.mx (s.g a).toNat).gen = (s.mx (s.g a).toNat).gen + 1 ∧
          (u.mx (s.g a).toNat).t0 = s.dclk ∧ (u.mx (s.g a).toNat).meas = BitVec.ofNat 256 h ∧
          (u.mx (s.g a).toNat).locks = l ∧ (u.mx (s.g a).toNat).part = fieldLe i 2 1 ∧ (u.mx (s.g a).toNat).prio = fieldLe i 3 1 ∧
          (u.mx (s.g a).toNat).tenant.toNat = fieldLe i 4 2 ∧ (u.mx (s.g a).toNat).kslot = fieldLe i 6 2 ∧
          (u.mx (s.g a).toNat).lrptr.toNat = fieldLe i 0x18 8 ∧ (u.mx (s.g a).toNat).savea.toNat = fieldLe i 0x70 8 ∧
          (u.mx (s.g a).toNat).period.toNat = fieldLe i 0x30 4 ∧ (u.mx (s.g a).toNat).budget.toNat = fieldLe i 0x34 4 ∧
          (u.mx (s.g a).toNat).rem.toNat = fieldLe i 0x34 4 ∧
          (u.mx (s.g a).toNat).deadline = s.dclk + BitVec.ofNat 64 (64 * fieldLe i 0x30 4) ∧ ∀ m, m ≠ (s.g a).toNat → u.mx m = s.mx m)

/-- MXSAVE: a misaligned address (2), an unwritable one (7) and a state the mode does not accept (8) are refused with their statuses; the order among them
is the model's choice (log 63). Accepted, `.copy` and the modes of a micro-context with no team write the record of the state they leave at once, `.free`
of a SAVED one with its image discarded and the next generation; `.ckpt`, `.drain` and `.kill` of a team, and `.free` of a PAUSED one, begin their
transition and deliver the status later; `.drain` of a team with a held stream acts as `.ckpt`. -/
def Obligations.MxsaveModes : Prop :=
  ∀ (s : State) (d a b : BitVec 5) (i : Instr),
    i ∈ [Instr.mxsaveCopy d a b, .mxsaveFree d a b, .mxsaveReset d a b, .mxsaveCkpt d a b, .mxsaveKill d a b, .mxsaveDrain d a b] →
    ((s.g b).toNat % 64 ≠ 0 → exec i s = .next (s.setG d 2).done) ∧
    ((s.g b).toNat % 64 = 0 → s.paUnwritable (s.g b).toNat 256 = true → exec i s = .next (s.setG d 7).done) ∧
    ((s.g b).toNat % 64 = 0 → s.paUnwritable (s.g b).toNat 256 = false →
      (i = .mxsaveCopy d a b →
        exec i s = .next ((s.poke (s.g b).toNat (s.mx (s.saveMx a)).record).setG d 0).done) ∧
      ((i = .mxsaveFree d a b ∧ ((s.mx (s.saveMx a)).st = .free ∨
            (s.mx (s.saveMx a)).st = .paused ∧ (s.mx (s.saveMx a)).exported = false) ∨ i = .mxsaveReset d a b ∧ (s.mx (s.saveMx a)).st ≠ .faulted ∨
          (i = .mxsaveCkpt d a b ∨ i = .mxsaveDrain d a b) ∧ s.saveable (s.saveMx a) = false ∨
          i = .mxsaveKill d a b ∧ (s.mx (s.saveMx a)).st ≠ .bound ∧ (s.mx (s.saveMx a)).st ≠ .swapped) →
        exec i s = .next (s.setG d 8).done) ∧
      (i = .mxsaveFree d a b → (s.mx (s.saveMx a)).st = .idle ∨ (s.mx (s.saveMx a)).st = .ready ∨ (s.mx (s.saveMx a)).st = .faulted →
        exec i s = .next (((s.becomeFree (s.saveMx a)).poke (s.g b).toNat
          ((s.becomeFree (s.saveMx a)).mx (s.saveMx a)).record).setG d 0).done) ∧
      (i = .mxsaveFree d a b → (s.mx (s.saveMx a)).st = .saved → ∃ u v : State, u = s.discardImage (s.saveMx a) ∧
        v = (u.setMx (s.saveMx a) { u.mx (s.saveMx a) with gen := (u.mx (s.saveMx a)).gen + 1 }).becomeFree (s.saveMx a) ∧
        exec i s = .next ((v.poke (s.g b).toNat (v.mx (s.saveMx a)).record).setG d 0).done) ∧
      (i = .mxsaveReset d a b → (s.mx (s.saveMx a)).st = .faulted → ∃ u : State,
        exec i s = .next ((u.poke (s.g b).toNat (u.mx (s.saveMx a)).record).setG d 0).done ∧
        ∃ v : State, v = (s.setMx (s.saveMx a) { s.mx (s.saveMx a) with st := .idle }).prefetchRecord (s.saveMx a) ∧
          u = v.postEvent (s.saveMx a) evRst (v.mx (s.saveMx a)).gen.toNat) ∧
      ∀ (n : Nat) (f : State → State),
        (i = .mxsaveCkpt d a b ∧ s.saveable (s.saveMx a) = true ∧ n = 3 ∧ f = (fun t : State => t.beginSave (s.saveMx a) .ckpt) ∨
          i = .mxsaveDrain d a b ∧ s.saveable (s.saveMx a) = true ∧ n = 5 ∧
            f = (fun t : State => t.beginSave (s.saveMx a) (if t.anyHeld (s.saveMx a) then .ckpt else .drain)) ∨
          i = .mxsaveKill d a b ∧ (s.mx (s.saveMx a)).st = .bound ∧ n = 4 ∧ f = (fun t : State => t.beginKill (s.saveMx a)) ∨
          i = .mxsaveKill d a b ∧ (s.mx (s.saveMx a)).st = .swapped ∧ n = 4 ∧ f = (fun t : State => t.finishKill (s.saveMx a)) ∨
          i = .mxsaveFree d a b ∧ (s.mx (s.saveMx a)).st = .bound ∧ n = 1 ∧ f = (fun t : State => t.beginKill (s.saveMx a)) ∨
          i = .mxsaveFree d a b ∧ (s.mx (s.saveMx a)).st = .swapped ∧ n = 1 ∧ f = (fun t : State => t.finishKill (s.saveMx a)) ∨
          i = .mxsaveFree d a b ∧ (s.mx (s.saveMx a)).st = .paused ∧ (s.mx (s.saveMx a)).exported = true ∧ n = 1 ∧
            ∀ t u : State, u = (((t.freeResumes (s.saveMx a)).dropTeam (s.saveMx a)).releaseTeam (s.saveMx a) false none).clearTeam (s.saveMx a) →
              f t = ((u.setMx (s.saveMx a) { u.mx (s.saveMx a) with gen := (u.mx (s.saveMx a)).gen + 1 }).becomeFree (s.saveMx a)).snapshot (s.saveMx a)) →
        exec i s = .next (f { s with hkOps := s.hkOps ++
          [{ mode := n, mx := s.saveMx a, pa := (s.g b).toNat, dest := d, scrub := none, ok := false }] }).done)

/-! LD and ST words -/

/-- The words that write an address register: its new value is exact, modulo 2^64; the marks act, and nothing else changes. NOP changes nothing but by
its marks, nor does a PREF that would fault; another PREF fills its tile into the last-level cache, through the staging cache for flash. MOVA of the
scratchpad faults at the first offset beyond the window, and on an uncorrectable block. SHAPE of a launch declaration and of a declaration in memory:
the register holds the declaration; one that does not exist, or the first rule of Table 10.2 it breaks, is a shape fault of that reason. -/
def Obligations.AddressRegistersAndShapes : Prop :=
  (∀ (s : State) (q : SeqId) (y : Sync) (d : BitVec 4), s.cur = .seq q →
    (∀ (i : Instr) (v : Word),
      ((∃ a e te sh imm, i = .adda y d a e te sh imm ∧
          v = BitVec.ofInt 64 ((s.a a).toInt + (if te then (s.a e).toInt * 2 ^ sh.toNat else 0) + imm.toInt)) ∨
        (∃ sh imm, i = .movaImm y d sh imm ∧ v = BitVec.ofInt 64 (imm.toInt * 2 ^ (8 * sh.toNat))) ∨
        (∃ k, i = .movaGpos y d k ∧ v = BitVec.ofNat 64 (AMap.get (0 : BitVec 24) (s.strm q).gpos k.toNat).toNat) ∨
        (∃ cs off, i = .movaSp y cs d off ∧ off.toNat + 8 ≤ (s.strm q).window ∧ s.spBadIn q.core q.slot off.toNat 8 = none ∧
          v = BitVec.ofNat 64 (leNat (s.readSp q.core q.slot off.toNat 8))) ∨
        ∃ a, i = .movaReg y d a ∧ v = s.a a) →
      ∃ t : State, exec i s = .next t ∧
        WordDone s t y ((s.strm q).setSeqr q.sec { s.seqr q with a := (s.seqr q).a.put d.toNat v })) ∧
    (∀ cs off, (s.strm q).window < off.toNat + 8 →
      exec (.movaSp y cs d off) s = .next (s.raise { code := 1, space := 1, addr := max off.toNat (s.strm q).window })) ∧
    (∀ cs off b, off.toNat + 8 ≤ (s.strm q).window → s.spBadIn q.core q.slot off.toNat 8 = some b →
      exec (.movaSp y cs d off) s = .next (s.raise { code := 6, space := 1, addr := b, baddr := some b })) ∧
    (∀ c, ∃ t : State, exec (.nop c y) s = .next t ∧ WordDone s t y (s.strm q)) ∧
    ∀ (cs : Cs) (h g : BitVec 4) (i : Instr) (p : Except FaultInfo (Copy × Option Tensor)),
      (i = .pref y cs h g ∧ p = (s.prefTile cs h g).map (fun c => (c, none)) ∨
        i = .prefTensor y cs h g ∧ p = (s.prefTensorTile cs h g).map (fun c => (c.1, some c.2))) →
      (∀ f, p = .error f → ∃ t : State, exec i s = .next t ∧ WordDone s t y (s.strm q)) ∧
      ∀ c x, p = .ok (c, x) → exec i s = .next ((s.prefetch c x).doneY y) ∧
        ∃ u : State, u = s.prefetch c x ∧ WordDone u (u.doneY y) y (s.strm q) ∧
          u = { s with mem := u.mem, llc := u.llc, llcBad := u.llcBad, shared := u.shared, staging := u.staging, stageBad := u.stageBad,
                       ahead := u.ahead, erase := u.erase, turns := u.turns }) ∧
  (∀ (s : State) (q : SeqId) (y : Sync) (cs : Cs) (d a : BitVec 4), s.cur = .seq q →
    (∀ (r : Team) (x : Shape), (s.mx s.myMx).team = some r → r.lr.shapes[a.toNat]? = some x →
      ∃ t : State, exec (.shape y d a) s = .next t ∧
        WordDone s t y ((s.strm q).setSeqr q.sec { s.seqr q with h := (s.seqr q).h.put d.toNat { x with loaded := true } })) ∧
    (∀ r : Team, (s.mx s.myMx).team = some r → r.lr.shapes.length ≤ a.toNat →
      exec (.shape y d a) s = .next (s.raise { code := 8, reason := 2, opnd := 4, c0 := d.toNat, c1 := a.toNat })) ∧
    ∀ l, s.scalarRead (s.a a).toNat 32 32 = .ok l →
      (∀ n o, shapeFault l = some (n, o) →
        exec (.shapeMem y cs d a) s = .next (s.raise { code := 8, reason := n, opnd := 4, c0 := d.toNat })) ∧
      (shapeFault l = none → ∃ t : State, exec (.shapeMem y cs d a) s = .next t ∧ (∀ m, m ≠ s.myMx → t.mx m = s.mx m) ∧
        t.mx s.myMx = { s.mx s.myMx with coldHigh := (t.mx s.myMx).coldHigh } ∧
        WordDone { s with mxs := t.mxs } t y ((s.strm q).setSeqr q.sec
          { s.seqr q with
            h := (s.seqr q).h.put d.toNat
              { loaded := true, gpitch := fieldLe l 0 4, spitch := fieldLe l 4 4, rowb := fieldLe l 8 4, rows := fieldLe l 0xC 2,
                fmt := BitVec.ofNat 8 (fieldLe l 0xE 1) } })))

/-- A copy word whose checks pass starts one copy, under the next operation number, with its tag issued: not ready, one operation more; no byte of memory
or scratchpad moves yet. One whose checks fail raises the fault of the first. A copy's geometry (R244, R246): rows, pitches and bases of its shape
register and address registers; the checks that passed; a pass of every check has left the index list and the barrier's watch register in the copy. -/
def Obligations.CopyWordsStart : Prop :=
  (∀ (s : State) (q : SeqId) (w : FormT) (ai op : BitVec 4) (i : Instr) (r : Except FaultInfo Copy), s.cur = .seq q →
    (i = .tload w ∧ r = s.tilePlan .tload .read w ∨ i = .tstore w ∧ r = s.tilePlan .tstore .write w ∨
      i = .gather w ai ∧ r = s.indexPlan .gather .read w ai ∨ i = .scatter w ai ∧ r = s.indexPlan .scatter .write w ai ∨
      i = .redm w op ∧ r = s.redmPlan w op ∨ i = .tloadx w ∧ r = s.tensorPlan w) →
    (∀ f, r = .error f → exec i s = .next (s.raise f)) ∧
    ∀ c, r = .ok c →
      ∃ t : State, exec i s = .next t ∧ t.copies = s.copies ++ [c] ∧ c.id = s.nextId ∧ c.tag = w.tag.toNat ∧ t.nextId = s.nextId + 1 ∧
        (t.strm q).tagCount w.tag.toNat = (s.strm q).tagCount w.tag.toNat + 1 ∧
        (t.strm q).tagrdy = (s.strm q).tagrdy &&& ~~~(BitVec.ofNat 64 (2 ^ w.tag.toNat)) ∧ SameMemory s t ∧
        t.events = s.events ∧ t.mxs = s.mxs ∧ (∀ c, c ≠ q.core → t.core c = s.core c) ∧ (t.seqr q).pc = s.fallThrough ∧
        (t.seqr q).a = (s.seqr q).a ∧ (t.seqr q).h = (s.seqr q).h ∧ (t.strm q).v = (s.strm q).v ∧ (t.strm q).g = (s.strm q).g) ∧
  (∀ (s : State) (q : SeqId) (w : FormT) (c : Copy), s.cur = .seq q →
    (∀ k n, s.tilePlan k n w = .ok c →
      (s.h w.h).loaded = true ∧ c.rows = (s.h w.h).rows ∧ c.rowb = (s.h w.h).rowb ∧ c.gpitch = (s.h w.h).gpitch ∧
      c.spitch = (s.h w.h).spitch ∧ c.gbase = (s.a w.ag).toNat ∧ c.sbase = (s.a w.as').toNat % 2 ^ 22 ∧ c.gbase % 64 = 0 ∧
      c.sbase % 64 = 0 ∧ (∀ r, r < c.rows → (c.sbase + r * c.spitch) % 2 ^ 22 + c.rowb ≤ (s.strm q).window) ∧
      c.bytes = c.rows * c.rowb ∧ c.bar = w.bar.map fun b => (s.strm q).bwReg b.toNat) ∧
    ∀ k n ai, s.indexPlan k n w ai = .ok c →
      (s.a ai).toNat % 4 = 0 ∧ (s.a ai).toNat % 2 ^ 22 + 4 * c.rows ≤ (s.strm q).window ∧ c.idx.length = (s.h w.h).rows ∧
      ∀ r, r < (s.h w.h).rows → c.idx.getD r 0 = leNat (s.readSp q.core q.slot ((s.a ai).toNat % 2 ^ 22 + 4 * r) 4))

/-- CFILL: of a free casement, or one the team owns, the core's back pane takes the copy; a free casement is taken, with no fill counted and neither pane
valid. Another team's is a matrix fault of reason 1. From a peer: its own tier, no mullion entry, a casement it does not own, and a front pane that is
not valid are matrix faults 5, 6, 1 and 2, in this order. -/
def Obligations.CasementFills : Prop :=
  ∀ (s : State) (q : SeqId) (w : FormT) (pt : BitVec 2), s.cur = .seq q →
    (∀ c, s.cfillPlan w = .ok c → (s.core q.core).cw.owner = none ∨ (s.core q.core).cw.owner = some s.myMx →
      ∃ t : State, exec (.cfill w) s = .next t ∧ t.copies = s.copies ++ [c] ∧ c.pane = !(s.core q.core).cw.front ∧ SameMemory s t ∧
        (t.core q.core).cw.owner = some s.myMx ∧ (t.seqr q).pc = s.fallThrough ∧
        ((s.core q.core).cw.owner = none → (t.core q.core).cw.fcnt = 0 ∧ (t.core q.core).cw.valF = false ∧ (t.core q.core).cw.valB = false) ∧
        ((s.core q.core).cw.owner ≠ none → (t.core q.core).cw = (s.core q.core).cw)) ∧
    (∀ c o, s.cfillPlan w = .ok c → (s.core q.core).cw.owner = some o → o ≠ s.myMx →
      exec (.cfill w) s = .next (s.raise { code := 9, reason := 1, opnd := 1 })) ∧
    ((s.h w.h).loaded = true → (s.core q.core).cw.owner = none ∨ (s.core q.core).cw.owner = some s.myMx →
      (pt.toNat = q.core / 128 % 4 → exec (.cfillPeer w pt) s = .next (s.raise { code := 9, reason := 5 })) ∧
      (pt.toNat ≠ q.core / 128 % 4 →
        (s.mullSlots (s.peerCore pt.toNat).2.1 (s.peerCore pt.toNat).2.2 pt.toNat s.myMx = 0 →
          exec (.cfillPeer w pt) s = .next (s.raise { code := 9, reason := 6 })) ∧
        (s.mullSlots (s.peerCore pt.toNat).2.1 (s.peerCore pt.toNat).2.2 pt.toNat s.myMx ≠ 0 →
          ((s.core (s.peerCore pt.toNat).1).cw.owner ≠ some s.myMx →
            exec (.cfillPeer w pt) s = .next (s.raise { code := 9, reason := 1 })) ∧
          ((s.core (s.peerCore pt.toNat).1).cw.owner = some s.myMx → (s.core (s.peerCore pt.toNat).1).cw.valF = false →
            exec (.cfillPeer w pt) s = .next (s.raise { code := 9, reason := 2 })) ∧
          ((s.core (s.peerCore pt.toNat).1).cw.owner = some s.myMx → (s.core (s.peerCore pt.toNat).1).cw.valF = true →
            ∃ (t : State) (c : Copy), exec (.cfillPeer w pt) s = .next t ∧ t.copies = s.copies ++ [c] ∧
              c.peer = (s.peerCore pt.toNat).1 ∧ c.pane = (!(s.core q.core).cw.front) ∧ SameMemory s t ∧
              (t.core q.core).cw.owner = some s.myMx))))

/-- PKT.TAKE: the address of the oldest untaken entry, which is taken then and counted; 0 with nothing changed where there is none or a header cannot be
read. PKT.EMIT, the KV words and KV.RES of a DONE record at issue: the checks in their order give the fault; passed, the operation is pending, its tag
is issued, a KV word's result entry is POSTED and a taken one FREE; no memory changes yet. -/
def Obligations.CommandWordsPost : Prop :=
  (∀ (s : State) (q : SeqId) (y : Sync) (d : BitVec 4), s.cur = .seq q →
    ((s.ringReadable s.myMx = false ∨ s.oldestFilled s.myMx = none) → ∃ t : State, exec (.pktTake y d) s = .next t ∧
      WordDone s t y ((s.strm q).setSeqr q.sec { s.seqr q with a := (s.seqr q).a.put d.toNat 0 })) ∧
    ∀ i e u, s.ringReadable s.myMx = true → s.oldestFilled s.myMx = some (i, e) →
      s.writeVa none s.myMx ((s.mx s.myMx).entryVa i) [2] = .ok u →
      exec (.pktTake y d) s =
        .next (((u.setMx s.myMx ((u.mx s.myMx).bump 1 1)).setA d (BitVec.ofNat 64 ((s.mx s.myMx).entryVa i))).doneY y)) ∧
  (∀ (s : State) (q : SeqId), s.cur = .seq q →
    (∀ y cs a c l tag fin ar,
      (∀ f, s.emitPlan cs a c l ar tag fin = .error f → exec (.pktEmit y cs a c l tag fin ar) s = .next (s.raise f)) ∧
      ∀ e, s.emitPlan cs a c l ar tag fin = .ok e → ∃ t : State, exec (.pktEmit y cs a c l tag fin ar) s = .next t ∧
        t.emits = s.emits ++ [e] ∧ (t.strm q).tagCount e.tag = (s.strm q).tagCount e.tag + 1 ∧ SameMemory s t ∧
        (t.seqr q).pc = s.fallThrough) ∧
    (∀ (w : FormK) (ag : BitVec 4) (i : Instr) (op : Nat) (x : Option (BitVec 4)),
      (op = 0x30 ∧ x = none ∧ (i = .kvQry w ∨ i = .kvQryResume w) ∨ op = 0x31 ∧ x = none ∧ i = .kvAppend w ∨
        op = 0x32 ∧ x = some ag ∧ i = .kvSplice w ag ∨ op = 0x33 ∧ x = none ∧ (i = .kvDrop w ∨ i = .kvDropAll w) ∨
        op = 0x34 ∧ x = none ∧ i = .kvCommit w ∨ op = 0x35 ∧ x = none ∧ i = .kvIxlook w ∨ op = 0x36 ∧ x = none ∧ i = .kvIxins w ∨
        op = 0x37 ∧ x = none ∧ (i = .kvRepairOpen w ∨ i = .kvRepairCmp w ∨ i = .kvRepairApply w ∨ i = .kvRepairAbort w) ∨
        op = 0x38 ∧ x = none ∧ i = .kvPagein w) →
      (∀ f, s.kvPlan op w x = .error f → exec i s = .next (s.raise f)) ∧
      ∀ k, s.kvPlan op w x = .ok k → ∃ t : State, exec i s = .next t ∧ t.kvs = s.kvs ++ [k] ∧ k.op = op ∧ k.tag = w.tag.toNat ∧
        (t.strm q).tagCount w.tag.toNat = (s.strm q).tagCount w.tag.toNat + 1 ∧
        (w.ns = false → AMap.get ResEntry.free (t.strm q).res w.rq.toNat = .posted) ∧
        (w.ns = true → (t.strm q).res = (s.strm q).res) ∧ SameMemory s t ∧ (t.seqr q).pc = s.fallThrough ∧
        (∀ a, t.arenas.find k.d.arena = some a → s.myMx ∈ a.users) ∧ ∀ n, n ≠ k.d.arena → t.arenas.find n = s.arenas.find n) ∧
    ∀ w bar,
      (AMap.get ResEntry.free (s.strm q).res w.rq.toNat = .free →
        exec (.kvRes w bar) s = .next (s.raise { code := 0xB, reason := 5, space := 4 })) ∧
      ∀ r c, AMap.get ResEntry.free (s.strm q).res w.rq.toNat = .done r → s.resPlan w bar r = .ok c →
        ∃ t : State, exec (.kvRes w bar) s = .next t ∧ t.copies = s.copies ++ [c] ∧ c.data = r ∧
          AMap.get ResEntry.free (t.strm q).res w.rq.toNat = .free ∧ SameMemory s t ∧ (t.seqr q).pc = s.fallThrough)

/-! CM words -/

/-- R131 and the rest of Table 6.4 on integers: an element-wise word, and every logic, shift, count and move word, gives each active element its exact
value, modulo 2^w or clamped with SA under SAT; inactive elements are kept or zeroed, and nothing else changes. -/
def Obligations.VectorIntegerResults : Prop :=
  ∀ (s : State) (q : SeqId) (i : Instr) (w : FormV) (m : Bool) (f : Nat → Int), s.cur = .seq q →
    (∀ e, s.vectorExact e i = some (w, m, f e)) →
    ((i = .vadd w ∨ i = .vsub w ∨ i = .vmul w ∨ i = .vfma w ∨ i = .vmin w ∨ i = .vmax w) → isIntType w.ty.toNat = true) →
    ∃ t : State, exec i s = .next t ∧ VectorDone s t w.y w.vd w.me w.mz w.mq w.width fun e => elemOfInt w (m && w.sat) (f e)

/-- R125: a float element-wise word rounds the exact result once, with the phase of the stream and the element's place in its quarter; VMIN and VMAX give
one of their operands, unrounded, unless one is a NaN. R137, Table 6.5: VEXP2, VLOG2, VRCP and VRSQ of each active element: the table's value of the
operand, rounded once. -/
def Obligations.VectorFloatResults : Prop :=
  (∀ (s : State) (q : SeqId) (i : Instr) (w : FormV), s.cur = .seq q → isIntType w.ty.toNat = false →
    (∀ f : Nat → XV × Flags, (∀ e, s.vectorFloat e i = some (w, f e)) →
      ∃ t : State, exec i s = .next t ∧ VectorDone s t w.y w.vd w.me w.mz w.mq w.width fun e =>
        floatPut w.ty.toNat { mode := w.rnd.toNat, idx := e % (512 / w.width), dph := s.me.dph.toNat } (f e)) ∧
    ((i = .vmin w ∨ i = .vmax w) →
      ∃ t : State, exec i s = .next t ∧ (VectorDone s t w.y w.vd w.me w.mz w.mq w.width fun e =>
        floatMinMax w.ty.toNat (decide (i = .vmax w)) (s.opA w e) (s.opB w e)) ∧
        ∀ e, (decType w.ty.toNat (s.opA w e)).isNan = false → (decType w.ty.toNat (s.opB w e)).isNan = false →
          (floatMinMax w.ty.toNat (decide (i = .vmax w)) (s.opA w e) (s.opB w e)).1 ∈ [s.opA w e, s.opB w e] ∧
          (XV.cmp (decType w.ty.toNat (s.opA w e)) (decType w.ty.toNat (s.opB w e)) = .lt →
            (floatMinMax w.ty.toNat (decide (i = .vmax w)) (s.opA w e) (s.opB w e)).1 =
              if i = .vmax w then s.opB w e else s.opA w e))) ∧
  (∀ (s : State) (q : SeqId) (i : Instr) (w : FormV) (f : Nat → XV × Flags), s.cur = .seq q →
    (∀ e, functionOf (decType w.ty.toNat (s.opA w e)) i = some (w, f e)) →
    ∃ t : State, exec i s = .next t ∧ VectorDone s t w.y w.vd w.me w.mz w.mq w.width fun e =>
      floatPut w.ty.toNat { mode := w.rnd.toNat, idx := e % (512 / w.width), dph := s.me.dph.toNat } (f e))

/-- R127, R128, R129: mask logic, VCMP into a register or a mask, and VSEL. -/
def Obligations.MasksAndComparisons : Prop :=
  ∀ (s : State) (q : SeqId) (w : FormV), s.cur = .seq q →
    (∀ i x, (i = .vandMask w ∧ x = s.m (w.va.setWidth 3) &&& s.m (w.vb.setWidth 3) ∨
        i = .vorMask w ∧ x = s.m (w.va.setWidth 3) ||| s.m (w.vb.setWidth 3) ∨
        i = .vxorMask w ∧ x = s.m (w.va.setWidth 3) ^^^ s.m (w.vb.setWidth 3) ∨ i = .vnotMask w ∧ x = ~~~(s.m (w.va.setWidth 3)) ∨
        i = .vmovToMask w ∧ x = BitVec.ofNat 64 (s.v w.va).toNat) →
      ∃ t : State, exec i s = .next t ∧ t.m w.md = x ∧ MaskDone s t w.y w.md ∧ t.me.flags = s.me.flags) ∧
    (∀ a b, (cmpElem w.ty.toNat w.sub a b).1 = true ↔ cmpHolds w.ty.toNat w.sub a b) ∧
    (w.dk = false → ∃ t : State, exec (.vcmp w) s = .next t ∧ VectorDone s t w.y w.vd w.me w.mz w.mq w.width fun e =>
      (if (cmpElem w.ty.toNat w.sub (s.opA w e) (s.opB w e)).1 then 2 ^ w.width - 1 else 0,
        (cmpElem w.ty.toNat w.sub (s.opA w e) (s.opB w e)).2)) ∧
    (w.dk = true → w.width = 32 ∨ w.width = 64 → ∃ t : State, exec (.vcmp w) s = .next t ∧ MaskDone s t w.y w.md ∧
      ∀ e b, e < 2048 / w.width → b = govBit w.width e ∨ (w.width = 64 ∧ b = 2 * e + 1) →
        (t.m w.md).getLsbD b =
          if s.active w.me w.mq w.width e then (cmpElem w.ty.toNat w.sub (s.opA w e) (s.opB w e)).1
          else if w.mz then false else (s.m w.md).getLsbD b) ∧
    ∃ t : State, exec (.vsel w) s = .next t ∧ VectorDone s t w.y w.vd false false 0 w.width fun e =>
      (if (if w.dk then (s.m w.mq).getLsbD (govBit w.width e) else (s.opC w e).testBit (w.width - 1)) then s.opA w e else s.opB w e, {})

/-- VMOV from a mask, VCOMPRESS and VEXPAND: element i of VA goes to the place of its rank among the selected elements, or comes from there; the places
they do not name are kept, or zeroed with MZ. -/
def Obligations.MovesAndRearrangements : Prop :=
  ∀ (s : State) (q : SeqId) (w : FormV), s.cur = .seq q →
    (∃ t : State, exec (.vmovFromMask w) s = .next t ∧ (t.v w.vd).toNat = (s.m w.mq).toNat ∧ RegisterDone s t w.y w.vd ∧ t.me.flags = s.me.flags) ∧
    (w.width = 32 ∨ w.width = 64 →
      (∃ t : State, exec (.vcompress w) s = .next t ∧ RegisterDone s t w.y w.vd ∧ t.me.flags = s.me.flags ∧
        (∀ e, e < 2048 / w.width → (s.m w.mq).getLsbD (govBit w.width e) = true → vget w.width (t.v w.vd) (s.rank w e) = s.opA w e) ∧
        ∀ e, e < 2048 / w.width → s.rank w (2048 / w.width) ≤ e →
          vget w.width (t.v w.vd) e = if w.mz then 0 else vget w.width (s.v w.vd) e) ∧
      ∃ t : State, exec (.vexpand w) s = .next t ∧ RegisterDone s t w.y w.vd ∧ t.me.flags = s.me.flags ∧
        ∀ e, e < 2048 / w.width → vget w.width (t.v w.vd) e =
          if (s.m w.mq).getLsbD (govBit w.width e) then s.opA w (s.rank w e) else if w.mz then 0 else vget w.width (s.v w.vd) e)

/-- R134 and its neighbours: VRED, VGRED and VSCAN by the pairwise tree and the passes at doubled distances, absent values for inactive elements, the
operator's identity for an absent result; elements above the results are zero. An integer add of VRED, VGRED or VSCAN is the exact sum of the active
elements of the register, the group or the prefix, modulo 2^w; or without any, zero. No flag is set. -/
def Obligations.ReductionsAndSums : Prop :=
  (∀ (s : State) (q : SeqId) (w : FormV) (n : Nat), s.cur = .seq q → w.width ∈ [8, 16, 32, 64] → n = 2048 / w.width →
    (∃ t : State, exec (.vred w) s = .next t ∧ RegisterDone s t w.y w.vd ∧
      (vget w.width (t.v w.vd) 0 =
        ((tree w.ty.toNat w.sub (s.nodeRnd w) n.log2 (s.present w)).1.getD (identElem w.ty.toNat w.sub)) % 2 ^ w.width) ∧
      (∀ e, 0 < e → e < n → vget w.width (t.v w.vd) e = 0) ∧
      t.me.flags = s.me.flags ||| (tree w.ty.toNat w.sub (s.nodeRnd w) n.log2 (s.present w)).2.word) ∧
    (∃ t : State, exec (.vgred w) s = .next t ∧ RegisterDone s t w.y w.vd ∧
      (∀ e, e < n / 2 ^ w.gs.toNat → vget w.width (t.v w.vd) e =
        ((tree w.ty.toNat w.sub (s.nodeRnd w) w.gs.toNat (((s.present w).drop (2 ^ w.gs.toNat * e)).take (2 ^ w.gs.toNat))).1.getD
          (identElem w.ty.toNat w.sub)) % 2 ^ w.width) ∧
      ∀ e, n / 2 ^ w.gs.toNat ≤ e → e < n → vget w.width (t.v w.vd) e = 0) ∧
    ∃ t : State, exec (.vscan w) s = .next t ∧ RegisterDone s t w.y w.vd ∧
      ∀ e, e < n → vget w.width (t.v w.vd) e =
        (if w.gs.getLsbD 0 then (if e = 0 then identElem w.ty.toNat w.sub
            else ((scan w.ty.toNat w.sub (s.nodeRnd w) n.log2 (s.present w)).1.getD (e - 1) none).getD (identElem w.ty.toNat w.sub))
          else ((scan w.ty.toNat w.sub (s.nodeRnd w) n.log2 (s.present w)).1.getD e none).getD (identElem w.ty.toNat w.sub)) % 2 ^ w.width) ∧
  (∀ (s : State) (q : SeqId) (w : FormV), s.cur = .seq q → isIntType w.ty.toNat = true → w.sub = 0 →
    (∀ t : State, exec (.vred w) s = .next t → t.me.flags = s.me.flags ∧
      vget w.width (t.v w.vd) 0 =
        (((List.range (2048 / w.width)).filter (s.active w.me w.mq w.width)).map (s.opA w)).sum % 2 ^ w.width) ∧
    (∀ t : State, exec (.vgred w) s = .next t → 2 ^ w.gs.toNat ≤ 2048 / w.width → t.me.flags = s.me.flags ∧
      ∀ e, e < 2048 / w.width / 2 ^ w.gs.toNat → vget w.width (t.v w.vd) e =
        ((((List.range (2 ^ w.gs.toNat)).map (e * 2 ^ w.gs.toNat + ·)).filter (s.active w.me w.mq w.width)).map (s.opA w)).sum %
          2 ^ w.width) ∧
    ∀ t : State, exec (.vscan w) s = .next t → t.me.flags = s.me.flags ∧
      ∀ e, e < 2048 / w.width → vget w.width (t.v w.vd) e =
        (((List.range (if w.gs.getLsbD 0 then e else e + 1)).filter (s.active w.me w.mq w.width)).map (s.opA w)).sum % 2 ^ w.width)

/-- VPACK, VUNPACK and VCVT. A conversion rounds each value, or each block, once; a described source block of a format the word does not take is a format
fault at its place. -/
def Obligations.WidthsAndConversions : Prop :=
  ∀ (s : State) (q : SeqId), s.cur = .seq q →
    (∀ w : FormV, w.width ∈ [16, 32, 64] →
      (∃ t : State, exec (.vpack w) s = .next t ∧ RegisterDone s t w.y w.vd ∧
        ∀ e, e < 4096 / w.width → vget (w.width / 2) (t.v w.vd) e =
          (intPut (w.ty.toNat - 1) w.sat (intVal w.ty.toNat (if e < 2048 / w.width then s.opA w e
            else vget w.width (s.v w.vb) (e - 2048 / w.width)))).1 % 2 ^ (w.width / 2)) ∧
      ∃ t : State, exec (.vunpack w) s = .next t ∧ VectorDone s t w.y w.vd w.me w.mz w.mq w.width fun e =>
        intPut w.ty.toNat false (intVal (w.ty.toNat - 1)
          (vget (w.width / 2) (s.v w.va) ((if w.gs.getLsbD 0 then 2048 / w.width else 0) + e)))) ∧
    ∀ w : FormC,
      (∀ n lo, typeBits w.fd.toNat ∈ [8, 16, 32, 64] → n = 2048 / max (typeBits w.fs.toNat) (typeBits w.fd.toNat) → lo = w.pd.toNat * n →
        ∃ t : State, exec (.vcvtRaw w) s = .next t ∧ RegisterDone s t w.y w.vd ∧
          ∀ e, e < 2048 / typeBits w.fd.toNat → vget (typeBits w.fd.toNat) (t.v w.vd) e =
            if e < lo ∨ lo + n ≤ e then vget (typeBits w.fd.toNat) (s.v w.vd) e
            else if s.active w.me w.mq (typeBits w.fd.toNat) e then
              (encType w.fd.toNat (s.rndOf w.rnd (typeBits w.fd.toNat) e)
                (decType w.fs.toNat (vget (typeBits w.fs.toNat) (s.v w.va) (w.ps.toNat * n + (e - lo))))).1 % 2 ^ typeBits w.fd.toNat
            else if w.mz then 0 else vget (typeBits w.fd.toNat) (s.v w.vd) e) ∧
      (∀ r, r = (List.range (w.nb.toNat + 1)).map (fun k => encBlk w.fd.toNat { mode := w.rnd.toNat, dph := s.me.dph.toNat } w.dist.toNat
            ((List.range (elemsOf w.fd.toNat)).map fun i =>
              decType w.fs.toNat (vget (typeBits w.fs.toNat)
                (s.v (w.va + BitVec.ofNat 5 ((w.se.toNat + k * elemsOf w.fd.toNat + i) / vcount (typeBits w.fs.toNat))))
                ((w.se.toNat + k * elemsOf w.fd.toNat + i) % vcount (typeBits w.fs.toNat))))) →
        ∃ t : State, exec (.vcvtToDesc w) s = .next t ∧ RegisterDone s t w.y w.vd ∧
          ∀ k, k < 4 → vget 512 (t.v w.vd) k =
            if w.ds.toNat ≤ k ∧ k < w.ds.toNat + r.length then (r.getD (k - w.ds.toNat) (0, {})).1.toNat else vget 512 (s.v w.vd) k) ∧
      (∀ f, s.cvtBlocks w = .error f →
        exec (.vcvtFromDesc w) s = .next (s.raise f) ∧ exec (.vcvtDescDesc w) s = .next (s.raise f)) ∧
      ∀ l, s.cvtBlocks w = .ok l →
        (typeBits w.fd.toNat ∈ [8, 16, 32, 64] → ∃ t : State, exec (.vcvtFromDesc w) s = .next t ∧
          WordDone s t w.y { s.me with v := t.me.v, flags := t.me.flags } ∧
          (∀ r, (∀ k, k < 4 → r ≠ w.vd + BitVec.ofNat 5 k) → t.v r = s.v r) ∧
          ∀ k e, k < 4 → e < 2048 / typeBits w.fd.toNat → vget (typeBits w.fd.toNat) (t.v (w.vd + BitVec.ofNat 5 k)) e =
            match (l.flatMap blkValues)[k * (2048 / typeBits w.fd.toNat) + e - w.de.toNat]? with
            | some x =>
              if w.de.toNat ≤ k * (2048 / typeBits w.fd.toNat) + e then
                (encType w.fd.toNat (s.rndOf w.rnd (typeBits w.fd.toNat) e) x).1 % 2 ^ typeBits w.fd.toNat
              else vget (typeBits w.fd.toNat) (s.v (w.vd + BitVec.ofNat 5 k)) e
            | none => vget (typeBits w.fd.toNat) (s.v (w.vd + BitVec.ofNat 5 k)) e) ∧
        ∀ r, r = (List.range (ceilDiv (l.flatMap blkValues).length (elemsOf w.fd.toNat))).map (fun k =>
            encBlk w.fd.toNat { mode := w.rnd.toNat, dph := s.me.dph.toNat } w.dist.toNat
              (((l.flatMap blkValues).drop (elemsOf w.fd.toNat * k)).take (elemsOf w.fd.toNat))) →
          ∃ t : State, exec (.vcvtDescDesc w) s = .next t ∧ RegisterDone s t w.y w.vd ∧
            ∀ k, k < 4 → vget 512 (t.v w.vd) k =
              if w.ds.toNat ≤ k ∧ k < w.ds.toNat + r.length then (r.getD (k - w.ds.toNat) (0, {})).1.toNat else vget 512 (s.v w.vd) k

/-- VLD, VLDU, VGATH and VBTEST: a misaligned offset, or an active byte, element or bit outside the window or, of a load, in an uncorrectable block, faults
before any effect; else the active parts of the register take the window's bytes. -/
def Obligations.VectorLoads : Prop :=
  ∀ (s : State) (q : SeqId) (w : FormM), s.cur = .seq q →
    (s.cmOff w.a % 64 ≠ 0 →
      exec (.vld w) s = .next (s.raise { code := 2, space := 1, addr := s.cmOff w.a }) ∧
      exec (.vst w) s = .next (s.raise { code := 2, space := 1, addr := s.cmOff w.a })) ∧
    (∀ k, k ≤ w.lenM1.toNat → s.activeM w (k / 4) = true → (∀ j, j < k → s.activeM w (j / 4) = true → s.cmOff w.a + j < (s.strm q).window) →
      (s.strm q).window ≤ s.cmOff w.a + k → ∀ i, (i = .vld w ∧ s.cmOff w.a % 64 = 0 ∨ i = .vldu w) →
      exec i s = .next (s.raise { code := 1, c0 := k, space := 1, addr := s.cmOff w.a + k })) ∧
    ((∀ k, k ≤ w.lenM1.toNat → s.activeM w (k / 4) = true → s.cmOff w.a + k < (s.strm q).window) →
      (∀ k b, k ≤ w.lenM1.toNat → s.activeM w (k / 4) = true → s.spBadIn q.core q.slot (s.cmOff w.a + k) 1 = some b →
        (∀ j, j < k → s.activeM w (j / 4) = true → s.spBadIn q.core q.slot (s.cmOff w.a + j) 1 = none) →
        ∀ i, (i = .vld w ∧ s.cmOff w.a % 64 = 0 ∨ i = .vldu w) → exec i s = .next (s.raise { code := 6, c0 := k, space := 1, addr := b, baddr := some b })) ∧
      ((∀ k, k ≤ w.lenM1.toNat → s.activeM w (k / 4) = true → s.spBadIn q.core q.slot (s.cmOff w.a + k) 1 = none) →
      ∀ i, (i = .vld w ∧ s.cmOff w.a % 64 = 0 ∨ i = .vldu w) → ∃ t : State, exec i s = .next t ∧ RegisterDone s t w.y w.vd ∧
        ∀ k, k < 256 → vget 8 (t.v w.vd) k =
          if w.lenM1.toNat < k then vget 8 (s.v w.vd) k
          else if s.activeM w (k / 4) then ((s.core q.core).sp.read ((s.strm q).spAddr (s.cmOff w.a + k))).toNat
          else if w.mz then 0 else vget 8 (s.v w.vd) k)) ∧
    (∀ f, s.elemFault w = some f → exec (.vgath w) s = .next (s.raise f) ∧ exec (.vscat w) s = .next (s.raise f)) ∧
    (∀ f, s.elemFault w = none → s.elemBad w = some f → exec (.vgath w) s = .next (s.raise f)) ∧
    (memWidth w ∈ [8, 16, 32, 64] → s.elemFault w = none → s.elemBad w = none → ∃ t : State, exec (.vgath w) s = .next t ∧ RegisterDone s t w.y w.vd ∧
      ∀ e, e < 2048 / memWidth w → vget (memWidth w) (t.v w.vd) e =
        if memMoved w ≤ e then 0
        else if s.activeM w e then leNat (s.readSp q.core q.slot (s.elemOff w e) (memWidth w / 8))
        else if w.mz then 0 else vget (memWidth w) (s.v w.vd) e) ∧
    (∀ e, e < 64 → s.activeM w e = true → (s.strm q).window ≤ s.cmOff w.a + s.laneIndex w e / 8 →
      (∀ j, j < e → s.activeM w j = true → s.cmOff w.a + s.laneIndex w j / 8 < (s.strm q).window) →
      exec (.vbtest w) s = .next (s.raise { code := 1, opnd := 1, c0 := e, space := 1, addr := s.cmOff w.a + s.laneIndex w e / 8 })) ∧
    ((∀ e, e < 64 → s.activeM w e = true → s.cmOff w.a + s.laneIndex w e / 8 < (s.strm q).window) →
      ∀ e b, e < 64 → s.activeM w e = true → s.spBadIn q.core q.slot (s.cmOff w.a + s.laneIndex w e / 8) 1 = some b →
      (∀ j, j < e → s.activeM w j = true → s.spBadIn q.core q.slot (s.cmOff w.a + s.laneIndex w j / 8) 1 = none) →
      exec (.vbtest w) s = .next (s.raise { code := 6, opnd := 1, c0 := e, space := 1, addr := b, baddr := some b })) ∧
    ((∀ e, e < 64 → s.activeM w e = true → s.cmOff w.a + s.laneIndex w e / 8 < (s.strm q).window ∧
        s.spBadIn q.core q.slot (s.cmOff w.a + s.laneIndex w e / 8) 1 = none) →
      (w.dk = true → ∃ t : State, exec (.vbtest w) s = .next t ∧ MaskDone s t w.y w.md ∧ ∀ e, e < 64 →
        (t.m w.md).getLsbD e = if s.activeM w e then
            ((s.core q.core).sp.read ((s.strm q).spAddr (s.cmOff w.a + s.laneIndex w e / 8))).getLsbD (s.laneIndex w e % 8)
          else if w.mz then false else (s.m w.md).getLsbD e) ∧
      (w.dk = false → ∃ t : State, exec (.vbtest w) s = .next t ∧ RegisterDone s t w.y w.vd ∧ ∀ e, e < 64 →
        vget 32 (t.v w.vd) e = if s.activeM w e then
            (if ((s.core q.core).sp.read ((s.strm q).spAddr (s.cmOff w.a + s.laneIndex w e / 8))).getLsbD (s.laneIndex w e % 8)
              then 2 ^ 32 - 1 else 0)
          else if w.mz then 0 else vget 32 (s.v w.vd) e))

/-- VST, VSTU and VSCAT: with every active byte inside the window, the active bytes of the register stand at the window's bytes, a later byte or element
over an earlier one; every other byte of memory, and every register, stands. The first active byte of VST or VSTU outside the window faults. -/
def Obligations.VectorStores : Prop :=
  ∀ (s : State) (q : SeqId) (w : FormM) (i : Instr) (act : Nat → Prop) (at' : Nat → Nat), s.cur = .seq q →
    ((i = .vst w ∧ s.cmOff w.a % 64 = 0 ∧ (∀ k, act k ↔ k ≤ w.lenM1.toNat ∧ s.activeM w (k / 4) = true) ∧ at' = (s.cmOff w.a + ·)) ∨
      (i = .vstu w ∧ (∀ k, act k ↔ k ≤ w.lenM1.toNat ∧ s.activeM w (k / 4) = true ∧ (w.be = true → (s.v w.vc).getLsbD k = true)) ∧
        at' = (s.cmOff w.a + ·)) ∨
      (i = .vscat w ∧ memWidth w ∈ [8, 16, 32, 64] ∧ s.elemFault w = none ∧
        (∀ k, act k ↔ k / (memWidth w / 8) < memMoved w ∧ s.activeM w (k / (memWidth w / 8)) = true) ∧
        at' = fun k => s.elemOff w (k / (memWidth w / 8)) + k % (memWidth w / 8))) →
    ((i = .vst w ∨ i = .vstu w) → ∀ k, act k → (∀ j, act j → j < k → at' j < (s.strm q).window) → (s.strm q).window ≤ at' k →
      exec i s = .next (s.raise { code := 1, c0 := k, space := 1, addr := at' k })) ∧
    ((∀ k, act k → at' k < (s.strm q).window) →
    ∃ t : State, exec i s = .next t ∧ t = { s with cores := t.cores } ∧ (∀ key pa, t.readPa key pa 1 = s.readPa key pa 1) ∧
      (∀ c, c ≠ q.core → t.core c = s.core c) ∧ (∀ r, t.v r = s.v r) ∧ (∀ r, t.g r = s.g r) ∧ (∀ k, t.m k = s.m k) ∧
      (t.seqr q).pc = s.fallThrough ∧
      (∀ k, act k → (∀ j, act j → k < j → (s.strm q).spAddr (at' j) ≠ (s.strm q).spAddr (at' k)) →
        ((t.core q.core).sp.read ((s.strm q).spAddr (at' k))).toNat = vget 8 (s.v w.vd) k) ∧
      ∀ a, (∀ k, act k → (s.strm q).spAddr (at' k) ≠ a) → (t.core q.core).sp.read a = (s.core q.core).sp.read a)

/-- MMA and MMAZ: a front pane the team does not own, or that is not valid, faults; else each element of the accumulator takes its K-groups in order, from
its old value or from zero, and its flags are set. MHROT by its rotation. No other accumulator changes. -/
def Obligations.MatrixProducts : Prop :=
  ∀ (s : State) (q : SeqId), s.cur = .seq q → (s.core q.core).upset = 0 → s.me.refreshWait = none →
    (∀ w : FormMma, ∀ i, (i = .mma w ∨ i = .mmaz w) →
      ((s.core q.core).cw.owner ≠ some s.myMx → exec i s = .next (s.raise { code := 9, reason := 1, opnd := 1 })) ∧
      ((s.core q.core).cw.owner = some s.myMx → (s.core q.core).cw.valF = false →
        exec i s = .next (s.raise { code := 9, reason := 2, opnd := 1 })) ∧
      ((s.core q.core).cw.owner = some s.myMx → (s.core q.core).cw.valF = true →
        (∀ f, s.mmaRows w = .error f → exec i s = .next (s.raise f)) ∧
        ∀ as bs sp, s.mmaRows w = .ok (as, bs, sp) → ∃ t : State, exec i s = .next t ∧ AccDone s t w.y [w.acc.toNat] ∧
          (∀ a b, a < 64 → b < 64 → t.me.accAt w.acc.toNat a b =
            (accumulateAll (if i = .mmaz w then 0 else s.me.accAt w.acc.toNat a b) (as.getD a []) (bs.getD b [])).1) ∧
          ∀ k, k < 7 → (t.me.flags.getLsbD k = true ↔ s.me.flags.getLsbD k = true ∨ ∃ a b, a < 64 ∧ b < 64 ∧
            (accumulateAll (if i = .mmaz w then 0 else s.me.accAt w.acc.toNat a b) (as.getD a []) (bs.getD b [])).2.word.getLsbD k = true))) ∧
    (∀ (w : FormMhrot) (rows : List (List KGroup)),
      s.rowsA w.asrc w.a (w.astrM1.toNat + 1) (w.caM1.toNat + 1) 2 = .ok rows →
      ∃ t : State, exec (.mhrot w) s = .next t ∧ AccDone s t w.y [w.acc.toNat] ∧
        ∀ a b, a < 64 → b < 64 → t.me.accAt w.acc.toNat a b =
          ((mhrotResult rows (if w.ord64 then 64 else 16) (if w.ord64 then -3 else -2) (fun k => w.dg != 0 &&
            signNeg (s.core q.core).signSeed (256 * (w.dg.toNat - 1) + 64 * w.koff.toNat + k))).1.getD (64 * a + b) 0)) ∧
    ∀ y, ∃ t : State, exec (.mhrotS256 y) s = .next t ∧ AccDone s t y [0, 1, 2, 3] ∧
      ∀ a c, a < 64 → c < 256 → t.me.accAt (c / 64) a (c % 64) =
        (s256Elem ((List.range 16).map fun k => s.me.accAt ((16 * k + c % 16) / 64) a ((16 * k + c % 16) % 64)) (c / 16)).1

/-- MDRAIN, MBYP, MACCLD, MCLR and MPEER: what they read of the accumulators they convert or send, what they write, and what stands. -/
def Obligations.AccumulatorWords : Prop :=
  ∀ (s : State) (q : SeqId), s.cur = .seq q →
    (∀ (w : FormMdrain) (o : Nat), s.drainOff w = .ok o → s.windowOf 1 (s.drainWrites w o).1 = none →
      ∃ t : State, exec (.mdrain w) s = .next t ∧ t = { s with cores := t.cores } ∧
        (t.core q.core).sp = (s.drainWrites w o).1.foldl (fun m e => spWrite (s.strm q) m e.2.1 e.2.2) (s.core q.core).sp ∧
        (∀ c, c ≠ q.core → t.core c = s.core c) ∧ (t.strm q).dph = (s.strm q).dph + (s.strm q).dstep ∧
        (t.strm q).flags = (s.strm q).flags ||| (s.drainWrites w o).2.word ∧
        (∀ n a b, n < 4 → a < 64 → b < 64 → t.me.accAt n a b = if w.clr = true ∧ n = w.acc.toNat then 0 else s.me.accAt n a b) ∧
        (∀ r, t.v r = s.v r) ∧ (t.seqr q).pc = s.fallThrough) ∧
    (∀ w : FormMbyp, ∃ t : State, exec (.mbyp w) s = .next t ∧
      WordDone s t w.y { s.me with byp := t.me.byp, acc := t.me.acc, flags := t.me.flags } ∧
      (∀ a b, a < 64 → b < 2 → AMap.get 0 t.me.byp (2 * a + b) =
        (((s.me.drained w.acc.toNat w.fmt.toNat 0 w.rnd w.dist.toNat).getD a []).getD b (0, {})).1) ∧
      ∀ n a b, n < 4 → a < 64 → b < 64 → t.me.accAt n a b = if w.clr = true ∧ n = w.acc.toNat then 0 else s.me.accAt n a b) ∧
    (∀ (w : FormMaccld) (o : Nat) (l : List Acc48) (f : Flags), s.cmBlockOff w.s 0 = .ok o → s.maccldResult w o = .ok (l, f) →
      ∃ t : State, exec (.maccld w) s = .next t ∧ AccDone s t w.y [w.acc.toNat] ∧ t.me.flags = s.me.flags ||| f.word ∧
        ∀ a b, a < 64 → b < 64 → t.me.accAt w.acc.toNat a b = l.getD (64 * a + b) 0) ∧
    (∀ y mask byp, ∃ t : State, exec (.mclr y mask byp) s = .next t ∧
      WordDone s t y { s.me with acc := t.me.acc, byp := if byp then [] else s.me.byp } ∧
      ∀ n a b, n < 4 → a < 64 → b < 64 → t.me.accAt n a b = if mask.getLsbD n then 0 else s.me.accAt n a b) ∧
    ∀ w : FormMpeer,
      (w.tier.toNat = q.core / 128 % 4 → exec (.mpeer w) s = .next (s.raise { code := 9, reason := 5 })) ∧
      ∀ o, s.peerPlan w = .ok o → ∃ (t : State) (p : PeerImg), exec (.mpeer w) s = .next t ∧ t.peers = s.peers ++ [p] ∧ p.off = o ∧
        p.img = s.me.image w.acc.toNat ∧ p.dest = { s.me.ref with tier := w.tier.toNat } ∧ p.bar = w.bar.map (·.toNat) ∧
        t.nextId = s.nextId + 1 ∧ WordDone { s with peers := t.peers, nextId := t.nextId } t w.y s.me

/-- MLEASE asks for the lease, which a core where no other asks grants at once; MREL ends the holder's term with its block and withdraws another's
posted request; SWING of a free casement, which it takes, or of one the team owns, consumes what its marks pop, exchanges the panes at once where its
conditions hold, and waits where they do not; beyond its count, and of another team's casement, it faults. -/
def Obligations.LeaseAndSwingWords : Prop :=
  ∀ (s : State) (q : SeqId) (y : Sync), s.cur = .seq q →
    ((s.core q.core).lease.holder = some q.slot → ∃ t : State, exec (.mlease y) s = .next t ∧ WordDone s t y (s.strm q)) ∧
    (∀ h, (s.core q.core).lease.holder = some h → h ≠ q.slot → ∃ t : State, exec (.mlease y) s = .next t ∧
      q.slot ∈ (t.core q.core).lease.posted ∧ (t.core q.core).lease.holder = some h ∧ SameMemory s t ∧ (t.seqr q).pc = s.fallThrough) ∧
    ((s.core q.core).lease.holder = none → (s.core q.core).lease.wants = [] → ∃ t : State, exec (.mlease y) s = .next t ∧
      (t.core q.core).lease.holder = some q.slot ∧ (t.core q.core).lease.posted = [] ∧
      ((s.strm q).inLease = false → (t.core q.core).lease.count = 0) ∧ (t.core q.core).lease.start = s.dclk.toNat ∧
      SameMemory s t ∧ (t.seqr q).pc = s.fallThrough) ∧
    (∃ t : State, exec (.mrel y) s = .next t ∧ SameMemory s t ∧ (t.seqr q).pc = s.fallThrough ∧
      (t.core q.core).lease.holder = (s.core q.core).lease.holder ∧
      ((s.core q.core).lease.holder = some q.slot → (t.core q.core).lease.release = true) ∧
      ((s.core q.core).lease.holder ≠ some q.slot → q.slot ∉ (t.core q.core).lease.posted) ∧
      (t.core q.core).lease.asks = (s.core q.core).lease.asks) ∧
    ∀ n, (∀ o, (s.core q.core).cw.owner = some o → o ≠ s.myMx →
        exec (.swing y n) s = .next (s.raise { code := 9, reason := 1, opnd := 1 })) ∧
      ((s.core q.core).cw.owner = some s.myMx → n.toNat < (s.core q.core).cw.fcnt →
        exec (.swing y n) s = .next (s.raise { code := 9, reason := 3, opnd := 1, c0 := (s.core q.core).cw.fcnt })) ∧
      ∀ (u : State) (r : Bool), u = s.popBefore y →
        r = (!s.frontRead q.core && (if (s.core q.core).cw.owner = none then 0 else (s.core q.core).cw.fcnt) == n.toNat &&
          !inWindow false (s.refreshTimer q.core) && !inWindow true (s.refreshTimer q.core)) →
        (s.core q.core).cw.owner = none ∨ ((s.core q.core).cw.owner = some s.myMx ∧ (s.core q.core).cw.fcnt ≤ n.toNat) →
        (r = true → ∃ t : State, exec (.swing y n) s = .next t ∧
          (t.core q.core).cw = { (s.core q.core).cw with
            owner := some s.myMx, front := !(s.core q.core).cw.front, valF := true,
            valB := decide ((s.core q.core).cw.owner = some s.myMx) && (s.core q.core).cw.valF, fcnt := 0,
            swings := (s.core q.core).cw.swings + 1 } ∧
          (t.strm q).swing = none ∧ (t.strm q).tq = ((u.pushAfter y).strm q).tq ∧ (t.strm q).pushes = ((u.pushAfter y).strm q).pushes ∧
          SameMemory s t ∧ (t.seqr q).pc = s.fallThrough) ∧
        (r = false → ∃ (t : State) (w : SwingWait), exec (.swing y n) s = .next t ∧ SameMemory s t ∧ t.pc = s.pc ∧
          ((s.core q.core).cw.owner ≠ none → (t.core q.core).cw = (s.core q.core).cw) ∧
          ((s.core q.core).cw.owner = none →
            (t.core q.core).cw = { (s.core q.core).cw with owner := some s.myMx, fcnt := 0, valF := false, valB := false }) ∧
          (t.strm q).swing = some w ∧ w.y = y ∧ w.count = n.toNat ∧ w.start = s.dclk.toNat ∧ w.took = (s.core q.core).cw.owner.isNone ∧
          (t.strm q).tq = (u.strm q).tq ∧ (t.strm q).pushes = (s.strm q).pushes ∧
          (t.seqr q).popP + w.popP = (s.seqr q).popP ∧ (t.seqr q).popN + w.popN = (s.seqr q).popN)

/-! What the device does by itself: blocks, leases, teams, copies, memory -/

/-- R37, R38: a header whose token or tag conditions fail is not admitted; with every condition met, the lease of a LEASE header held and the leave of
a LEAVE header granted among them, and the choice of the sequencer, the block instance starts at its first word with its pops and pushes reserved, and
counter 1 of its micro-context and, of a LEASE block, the count of the lease rise; without the lease, and then without the leave, the header asks for
it and waits. A failed wait withdraws what the header had asked for. The end of a block instance: the pops it has left are consumed, the pushes it has
left produced, or kept for when the accesses made so far have been performed; it runs again from its header while repetitions are left, and the
sequencer stands behind it, or its tile-task ends, when they are not. Late tokens are produced oldest first, once what stood before them has been
performed. -/
def Obligations.BlockAdmissionAndEnds : Prop :=
  (∀ (s s' : State) (q : SeqId) (h : Header), s.mayLook (s.strm q) q.sec = true → (s.seqr q).reached = true → (s.seqr q).hdr = h →
    s' = s.setSeqr q { s.seqr q with since := some ((s.seqr q).since.getD s.dclk.toNat) } →
    ((tokensOk (s.strm q) q.sec h = false ∨ tagsOk (s.strm q) h = false ∨ s.barrierWait q.core q.slot h = .no) →
      exec (.blockAdmission q) s = .next (s.withdrawSeq q.core q.slot q.sec)) ∧
    (tokensOk (s.strm q) q.sec h = true → tagsOk (s.strm q) h = true →
      (∀ f, s.barrierWait q.core q.slot h = .fault f → exec (.blockAdmission q) s = .next (s.raiseHeader q f)) ∧
      (s.barrierWait q.core q.slot h = .ok → (s.needLease q h).leaseOk q.core q.slot h = false →
        exec (.blockAdmission q) s = .next ((s.needLease q h).setSeqr q
          { (s.needLease q h).seqr q with leaveAsked := none, leaveAged := false, since := none, escape := false })) ∧
      (s.barrierWait q.core q.slot h = .ok → s.leaseOk q.core q.slot h = true → h.leave ≠ 0 → (s.seqr q).leaveHeld ≠ some h.leave →
        exec (.blockAdmission q) s = .next (if (s.seqr q).leaveAsked.isSome then s
          else (s.setSeqr q { s.seqr q with leaveAsked := some s.dclk.toNat, since := none, escape := false }).countShared (s.strm q).mx 0x104 1)) ∧
      (s.barrierWait q.core q.slot h = .ok → s.leaseOk q.core q.slot h = true → (h.leave = 0 ∨ (s.seqr q).leaveHeld = some h.leave) →
        s'.unitBusy q.core q.sec = false →
        s'.pick q.core q.sec = some q.slot → (s.strm q).pendingOf (consumedTags (s.strm q) h) = none →
        ∃ t : State, exec (.blockAdmission q) s = .next t ∧ SameMemory s t ∧ (t.seqr q).phase = .running ∧ (t.seqr q).left = h.len ∧
          (t.mx ((s.strm q).mx.getD 0)).cnt = (s.mx ((s.strm q).mx.getD 0)).cnt.put 1 (AMap.get 0 (s.mx ((s.strm q).mx.getD 0)).cnt 1 + 1) ∧
          (t.mx ((s.strm q).mx.getD 0)).lastAdmit = s.dclk.toNat ∧ (∀ m, m ≠ (s.strm q).mx.getD 0 → t.mx m = s.mx m) ∧
          (t.core q.core).lease.holder = (s.core q.core).lease.holder ∧
          (t.core q.core).lease.count = (s.core q.core).lease.count + (if h.lease then h.mcnt else 0) ∧
          (t.seqr q).pc = (s.seqr q).hdrPc + BitVec.ofNat 64 q.sec.wordBytes ∧
          (t.seqr q).popP = h.popp ∧ (t.seqr q).popN = h.popn ∧ (t.seqr q).pushP = h.pushp ∧ (t.seqr q).pushN = h.pushn ∧
          ((t.strm q).tok (popQueues q.sec).1).pr = ((s.strm q).tok (popQueues q.sec).1).pr + h.popp ∧
          ((t.strm q).tok (popQueues q.sec).2).pr = ((s.strm q).tok (popQueues q.sec).2).pr + h.popn ∧
          ((t.strm q).tok (pushQueues q.sec).1).ur = ((s.strm q).tok (pushQueues q.sec).1).ur + h.pushp ∧
          ((t.strm q).tok (pushQueues q.sec).2).ur = ((s.strm q).tok (pushQueues q.sec).2).ur + h.pushn ∧
          (∀ r, (t.strm q).tok r = (s.strm q).tok r ∨ r = (popQueues q.sec).1 ∨ r = (popQueues q.sec).2 ∨ r = (pushQueues q.sec).1 ∨
            r = (pushQueues q.sec).2)))) ∧
  ((∀ (s : State) (q : SeqId), (s.seqr q).phase = .running → (s.seqr q).left = 0 → (s.seqr q).stopped = false →
      (1 < (s.seqr q).reps → ∃ t : State, exec (.blockInstanceEnd q) s = .next t ∧ (t.seqr q).phase = .waiting ∧
        (t.seqr q).pc = (s.seqr q).hdrPc ∧ (t.seqr q).reps = (s.seqr q).reps - 1 ∧ SameMemory s t ∧
        (t.strm q).tq = ((s.settleBlock q).strm q).tq ∧ (t.strm q).pushes = ((s.settleBlock q).strm q).pushes ∧
        ((t.strm q).tok (popQueues q.sec).1).c = ((s.strm q).tok (popQueues q.sec).1).c - (s.seqr q).popP ∧
        ((t.strm q).tok (popQueues q.sec).2).c = ((s.strm q).tok (popQueues q.sec).2).c - (s.seqr q).popN) ∧
      ((s.seqr q).reps ≤ 1 → (s.seqr q).hdr.tend = true → exec (.blockInstanceEnd q) s =
        .next (((s.settleBlock q).setSeqr q { (s.settleBlock q).seqr q with phase := .ended }).taskEnd q.core q.slot)) ∧
      ((s.seqr q).reps ≤ 1 → (s.seqr q).hdr.tend = false →
        exec (.blockInstanceEnd q) s = .next ((s.settleBlock q).reach q (s.seqr q).pc))) ∧
    (∀ (s : State) (q : SeqId) (k n : Nat), n ≠ 0 →
      (k = (pushQueues q.sec).1 ∧ n = (s.seqr q).pushP ∨ k = (pushQueues q.sec).2 ∧ n = (s.seqr q).pushN) →
      (s.effectsDone q s.nextId = true → (∀ p ∈ (s.strm q).pushes, p.queue ≠ k) →
        ((s.settleBlock q).strm q).tok k = { (s.strm q).tok k with c := ((s.strm q).tok k).c + n, ur := ((s.strm q).tok k).ur - n }) ∧
      (s.effectsDone q s.nextId = false ∨ (∃ p ∈ (s.strm q).pushes, p.queue = k) →
        ({ queue := k, n := n, settle := true, sec := q.sec, before := s.nextId } : Push) ∈ ((s.settleBlock q).strm q).pushes ∧
        ((s.settleBlock q).strm q).tok k = (s.strm q).tok k)) ∧
    ∀ (s : State) (c k n : Nat) (i : Instr) (p : Push), (s.stream c k).pushes.find? (fun p => p.queue == n) = some p →
      s.effectsDone { core := c, slot := k, sec := p.sec } p.before = true →
      (i = .blockEndPushSettlement c k n ∧ p.settle = true ∨ i = .pushAfterToken c k n ∧ p.settle = false) →
      exec i s = .next ((s.setStream c k
        (({ s.stream c k with pushes := eraseFirst p (s.stream c k).pushes } : Stream).produce n p.n)).taskEnd c k))

/-- The lease's term ends after 16,384 cycles, at its block's end if one runs; after 64 cycles without a block while another asks; and 64 cycles after its
block was withdrawn. A leave is granted when the tier's budget covers it and no request before it is covered, or has waited for 2,048 cycles (the
model's choice, log 34); a request ages after 65,536 cycles, and
a wait escapes after 4,096. R110, R111: a waiting SWING whose count is reached meets a cycle outside the windows with no peer reading the pane, and
the panes change places; after 16,384 cycles it faults; the sign store is whole again after its regeneration. In a refresh window a row of the pane, or
of the shutter store, with an uncorrectable block that no spare row has taken over as it was, or with 16 corrected errors in an hour, takes a spare
row while one of 64 is left; which blocks share
a row the model leaves open (log 62). -/
def Obligations.LeavesAndSwings : Prop :=
  ((∀ (s : State) (c k : Nat), (s.core c).lease.holder = some k →
      ((s.core c).lease.start + 16384 ≤ s.dclk.toNat → s.leaseInUse c = true →
        ∃ t : State, exec (.leaseTermLimit c) s = .next t ∧ (t.core c).lease = { (s.core c).lease with release := true } ∧ SameMemory s t) ∧
      ∀ i, ((i = .leaseTermLimit c ∧ (s.core c).lease.start + 16384 ≤ s.dclk.toNat ∧ s.leaseInUse c = false) ∨
          (i = .leaseIdleRelease c ∧ (s.core c).lease.wants ≠ [] ∧ s.leaseInUse c = false ∧
            ∃ n, (s.core c).lease.idleSince = some n ∧ n + 64 ≤ s.dclk.toNat) ∨
          (i = .leaseHoldExpiry c ∧ ∃ n, (s.core c).lease.holdSince = some n ∧ n + 64 ≤ s.dclk.toNat)) →
        ∃ t : State, exec i s = .next t ∧ SameMemory s t ∧
          ((s.core c).lease.wants = [] → (t.core c).lease.holder = none) ∧
          ∀ j, (s.core c).lease.wants = [j] → (t.core c).lease.holder = some j ∧ (t.core c).lease.start = s.dclk.toNat ∧
            (t.core c).lease.count = if (s.stream c j).inLease then (s.stream c j).cm.hdr.mcnt else 0) ∧
    ∀ (s : State) (q : SeqId),
      ((s.seqr q).leaveAsked.isSome = true → s.beforeLeave q = true → s.leaveFits q = true →
        (∀ o ∈ s.tierSeqs (tierOf q.core), ∀ n, (s.seqr o).leaveAsked = some n → s.leaveBefore o q = true →
          s.beforeLeave o = false ∨ (s.leaveFits o = false ∧ s.dclk.toNat < n + 2048)) →
        exec (.leaveGrant q) s =
          .next (s.setSeqr q { s.seqr q with leaveHeld := some (s.seqr q).hdr.leave, leaveAsked := none, leaveAged := false })) ∧
      ((s.seqr q).leaveAsked.isSome = true → s.beforeLeave q = true → s.leaveFits q = false →
        (∀ o ∈ s.tierSeqs (tierOf q.core), ∀ n, (s.seqr o).leaveAsked = some n → s.leaveBefore o q = true →
          s.beforeLeave o = false ∨ (s.leaveFits o = false ∧ s.dclk.toNat < n + 2048)) →
        exec (.leaveGrant q) s = .next (if (s.core q.core).lease.holder = some q.slot then s.leaseEnd q.core else s)) ∧
      (∀ n, (s.seqr q).leaveAsked = some n → exec (.leaveRequestAging q) s =
        .next (if n + 65536 ≤ s.dclk.toNat then s.setSeqr q { s.seqr q with leaveAged := true } else s)) ∧
      ∀ n, (s.seqr q).since = some n → exec (.streamWaitEscape q) s =
        .next (if n + 4096 ≤ s.dclk.toNat ∧ s.admissible q.core q.slot q.sec = true then s.setSeqr q { s.seqr q with escape := true } else s)) ∧
  ((∀ (s : State) (c k : Nat) (w : SwingWait), (s.stream c k).swing = some w →
      (s.cwTaken c ((s.stream c k).mx.getD 0) = false → s.dclk.toNat ≤ w.start + 16384 →
        s.swingReady c w.count (s.refreshTimer c) = true →
        ∀ i, (i = .swingExchange c k ∨ ∃ p x, i = .casementRefreshWindow c p ∧ (s.core c).streams = [(k, x)]) →
        ∃ t : State, exec i s = .next t ∧ (t.core c).cw.front = (!(s.core c).cw.front) ∧ (t.core c).cw.valF = true ∧
          (t.core c).cw.owner = (s.core c).cw.owner ∧ (t.core c).cw.valB = (s.core c).cw.valF ∧ (t.core c).cw.fcnt = 0 ∧ (t.stream c k).swing = none ∧ t.cur = s.cur ∧ SameMemory s t ∧
          (t.stream c k).cm.pc = (s.stream c k).cm.pc + 16) ∧
      (s.cwTaken c ((s.stream c k).mx.getD 0) = false → (s.core c).cw.fcnt ≤ w.count → s.dclk.toNat < w.start + 16384 →
        s.swingReady c w.count (s.refreshTimer c) = false → exec (.swingExchange c k) s = .next s) ∧
      (w.start + 16384 < s.dclk.toNat ∨
          (w.start + 16384 = s.dclk.toNat ∧ s.swingReady c w.count (s.refreshTimer c) = false) →
        s.events.length < 1024 → ∃ t : State, exec (.swingTimeout c k) s = .next t ∧
        (t.stream c k).swing = none ∧ (t.stream c k).held = true ∧ SameMemory s t ∧
        (t.stream c k).cm.popP = (s.stream c k).cm.popP + w.popP ∧ (t.stream c k).cm.popN = (s.stream c k).cm.popN + w.popN ∧
        (w.took = false → (t.core c).cw = (s.core c).cw) ∧
        (w.took = true → (∀ e ∈ (s.core c).streams, e.1 ≠ k → e.2.swing = none) → (t.core c).cw = { (s.core c).cw with owner := none }) ∧
        t.events = s.events ++ [{ code := 9, mx := (s.stream c k).mx.getD 0, n := s.eventCount }]) ∧
      (s.dclk.toNat < w.start + 16384 → exec (.swingTimeout c k) s = .next s)) ∧
    (∀ (s : State) (c p : Nat), (∀ e ∈ (s.core c).streams, e.2.swing = none) →
      (inWindow (p == 1) (s.refreshTimer c) = false → exec (.casementRefreshWindow c p) s = .next s) ∧
      (inWindow (p == 1) (s.refreshTimer c) = true → (s.core c).cw.bad (p == 1) = [] → (s.core c).rowErrs = [] →
        ((s.core c).shutBad = [] → (s.core c).shutErrs = [] → exec (.casementRefreshWindow c p) s = .next s) ∧
        (∀ b l, (s.core c).shutBad = b :: l → (s.core c).shutErrs = [] → (s.core c).shutRows.length < 64 → (s.core c).shutCarried.contains b = false →
          exec (.casementRefreshWindow c p) s =
            .next (s.setCore c { s.core c with
              shutRows := Config.eramRow b :: (s.core c).shutRows, shutCarried := carriedIn (b :: l) (s.core c).shutCarried (Config.eramRow b) })) ∧
        (∀ r n, (s.core c).shutBad = [] → (s.core c).shutErrs = List.replicate 16 (r, n) → s.dclk.toNat < n + 3600 * 800000000 →
          (s.core c).shutRows.length < 64 →
          exec (.casementRefreshWindow c p) s =
            .next (s.setCore c { s.core c with shutRows := r :: (s.core c).shutRows, shutErrs := [], shutCarried := [] })) ∧
        ∀ r n, (s.core c).shutBad = [] → (s.core c).shutErrs = List.replicate 15 (r, n) → exec (.casementRefreshWindow c p) s = .next s) ∧
      (inWindow (p == 1) (s.refreshTimer c) = true → (s.core c).shutBad = [] → (s.core c).shutErrs = [] →
        ∀ spent, spent = ((s.core c).rows.filter fun r => r.1 == (p == 1)).map (·.2) →
        (∀ b l, (s.core c).cw.bad (p == 1) = b :: l → (s.core c).rowErrs = [] → spent.length < 64 → ((s.core c).cw.carried (p == 1)).contains b = false →
          exec (.casementRefreshWindow c p) s = .next (s.setCore c { s.core c with
            rows := (p == 1, Config.eramRow b) :: (s.core c).rows
            cw := (s.core c).cw.setCarried (p == 1) (carriedIn (b :: l) ((s.core c).cw.carried (p == 1)) (Config.eramRow b)) })) ∧
        (∀ r n, (s.core c).cw.bad (p == 1) = [] → (s.core c).rowErrs = List.replicate 16 (p == 1, r, n) → s.dclk.toNat < n + 3600 * 800000000 →
          spent.length < 64 →
          exec (.casementRefreshWindow c p) s = .next (s.setCore c { s.core c with
            rows := (p == 1, r) :: (s.core c).rows, rowErrs := [], cw := (s.core c).cw.setCarried (p == 1) [] })) ∧
        (∀ r n, (s.core c).cw.bad (p == 1) = [] → (s.core c).rowErrs = List.replicate 15 (p == 1, r, n) →
          exec (.casementRefreshWindow c p) s = .next s) ∧
        (64 ≤ spent.length → exec (.casementRefreshWindow c p) s = .next s))) ∧
    ∀ (s : State) (c : Nat), exec (.signStoreRegeneration c) s = .next (s.setCore c { s.core c with signRegen := none }))

/-- A team's save: its report, where the shutter stores have room, takes the image, the generation and the transition; the drain writes the image, and last the header
of Table 20.4, to the save area through the pages that the save holds, and frees the stores; an image that does not stand in the stores of the group the team is to run on is read back there when its header agrees; a swapped team
returns to its cores ahead of waiting entries of no more tokens; a team idle beyond the threshold swaps out when another needs
its place. -/
def Obligations.SavesAndReturns : Prop :=
  ∀ (s : State) (m : Nat),
    (∀ k, (s.mx m).ending = some k → (s.mx m).st = .bound → k.saves = true → s.teamStopped m (k == .drain) = true → s.stopPending m = false →
      s.accessPending m = false → s.completing m = false → (s.mx m).drain = none → ∀ tm, (s.mx m).team = some tm → s.shutRoom tm = true →
      ∃ (u : State) (x : Mx) (im : Image), exec (.saveReport m) s =
          .next (((u.setMx m x).releaseTeam m (k == .swap) none).snapshot m) ∧ u = (s.freezeCopies m).takeShutter m tm ∧
        x.st = (if k = .swap then .swapped else .saved) ∧ x.gen = (s.mx m).gen + 1 ∧ x.ending = none ∧ x.image = some im ∧
        x.team = some tm ∧ x.savea = (s.mx m).savea ∧ x.savePages = [] ∧
        (∃ d, x.drain = some d ∧ d.pages = (s.mx m).savePages ∧ d.kind = k ∧ d.gen = (s.mx m).gen + 1 ∧ d.stamp = s.dclk.toNat ∧
          d.bytes + 4096 = saveSize tm.lr) ∧
        im.panes = [] ∧ im.homeless = false ∧ im.kind = k ∧ im.inShutter = true ∧ im.drained = false ∧ im.gen = (s.mx m).gen + 1 ∧ im.stamp = s.dclk.toNat ∧
        im.streams = u.teamImage m) ∧
    (∀ d a v0 v1 v2 b0, (s.mx m).drain = some d → a = (s.mx m).savea.toNat → s.areaOpen m (heldSpans d.pages a (d.bytes + 4096)) = true →
      v0 = ({ s with fresh := s.fresh + 2 } : State).writeHeld m d.pages none a [0] →
      v1 = (v0.writeHeld m d.pages (some (s.mx m).kslot) (a + 4096) (opaqueBytes d.bytes s.fresh)).writeHeld m d.pages none (a + 64)
        (opaqueBytes 4032 (s.fresh + 1)) →
      b0 = BitVec.ofNat 8 ((if s.shutBad m then 0 else 1) + 2 * d.kind.code) →
      v2 = (v1.writeHeld m d.pages none a (saveHeader 0 d.gen.toNat d.stamp d.bytes d.tgrp)).writeHeld m d.pages none a [b0] →
      ∃ u : State, exec (.saveDrainComplete m) s = .next u ∧ (∀ key pa, u.readPa key pa 1 = v2.readPa key pa 1) ∧
        (∀ e, a % 4096 = 0 → d.pages.find? (fun e => decide (e.va ≤ a ∧ a < e.va + e.size)) = some e → e.enc = false → e.paOf a % 64 = 0 →
          (s.part (s.mx m).part).dlog = false → u.readPa none (e.paOf a) 1 = [b0] ∧
          ∀ j, 0 < j → j < 64 → u.readPa none (e.paOf a + j) 1 = [(saveHeader 0 d.gen.toNat d.stamp d.bytes d.tgrp).getD j 0]) ∧
        (u.mx m).drain = none ∧ (u.mx m).savePages = (s.mx m).savePages ∧
        (u.mx m).image = (s.mx m).image.map (fun im => { im with inShutter := false, drained := true }) ∧
        u.fresh = s.fresh + 2 ∧ (∀ c, (u.core c).shutter = (s.core c).shutter.filter (fun r => r.mx != m)) ∧
        (∀ c, (u.core c).sp = (s.core c).sp) ∧ ∀ k, k ≠ m → u.mx k = s.mx k) ∧
    (∀ im l t0 tm ps, (s.mx m).image = some im → (s.mx m).team = some t0 → tm = (s.mx m).target t0 → (s.mx m).imageAtHand im t0 = false →
      (s.mx m).drain = none → (s.mx m).st = .saved ∨ (s.mx m).st = .swapped →
      s.vaUp none m (s.mx m).savea.toNat (saveSize tm.lr) = true →
      s.areaOpen m (s.vaSpans none m (s.mx m).savea.toNat (saveSize tm.lr)) = true → s.saveAreaPages m .read = .ok ps →
      s.readVa none m (s.mx m).savea.toNat 8 = .ok l →
      exec (.restoreImageLoaded m) s =
        if bit (fieldLe l 0 1) 0 = true ∧ fieldLe l 4 4 = im.gen.toNat then
          (match s.areaBad ps (saveSize tm.lr / 4096) (s.mx m).savea.toNat with
           | some a => .next (s.saveFault m 3 a)
           | none =>
             let v := (s.devServed m (s.mx m).savea.toNat (saveSize tm.lr)).dropShutter m
             if v.shutRoom tm = true then
               .next ((v.takeShutter m tm).setMx m { s.mx m with team := some tm, image := some { im with inShutter := true } })
             else .next s)
        else .next (s.saveFault m 3 (s.mx m).savea.toNat)) ∧
    (∀ im t, (s.mx m).image = some im → (s.mx m).team = some t → (s.mx m).st = .swapped → im.inShutter = true →
      (s.part (s.mx m).part).pausing = false → s.groupLost t = false → s.groupHolds t.stack t.col t.lr.tgcols t.lr.nstrm t.lr.spbanks = true →
      s.reservedAbove m t = false → s.placeFirst m = false →
      (s.shutBad m = false → exec (.swappedTeamReturn m) s = .next ((s.readShutter m).restoreTeam m)) ∧
      (s.shutBad m = true → exec (.swappedTeamReturn m) s = .next (s.saveFault m 3 (s.mx m).savea.toNat))) ∧
    ∀ t n, (s.mx m).team = some t → n = swapThreshold (s.core (s.coreOf t.stack 0 t.col)).wth → n ≠ 0 → n < s.dclk.toNat - (s.mx m).lastAdmit →
      (s.mx m).st = .bound → (s.mx m).ending = none → (s.part (s.mx m).part).pausing = false →
      (∀ r, (s.mx m).returnedAt = some r → r + n ≤ s.dclk.toNat) → s.teamIdle m = true → s.areaStalls m = false → s.neededByOther m t = true →
      exec (.teamSwap m) s = .next (s.beginSave m .swap)

/-- A unit of a copy: 64 bytes read at its source stand at its destination and the unit is done; a changed owner tag, an uncorrectable block and a
refused write leave it done without effect, the first error kept; the elements of a REDM go to their homes. A unit not in flight changes nothing.
R245, R244: unit n of a TLOAD is block n mod (ROWB / 64) of row n / (ROWB / 64): its 64 bytes of G land in the bank that carries the owner tag the
copy took with it, and no other byte of any scratchpad or of memory changes. -/
def Obligations.CopyUnits : Prop :=
  (∀ (s : State) (id n : Nat) (c : Copy), s.copy id = some c →
    ((c.frozen = true ∨ c.units ≤ n ∨ n ∈ c.done ∨ n ∈ c.sent ∨ c.lowest + 256 ≤ n) → exec (.copyUnitPerformed id n) s = .next s) ∧
    (c.kind ≠ .bt → s.unitReady c n = true → s.unitTurn c n = true → c.overwritten n = false →
      (∀ l p t, s.readUnit c n = .bytes l p → s.writeUnit c n l p = .ok t →
        exec (.copyUnitPerformed id n) s = .next (((t.unitServed c n).setCopy (c.mark n true)).freeSill (c.mark n true) n)) ∧
      (∀ l p t, s.readUnit c n = .bytes l p → s.writeUnit c n l p = .sent t →
        exec (.copyUnitPerformed id n) s = .next ((t.unitServed c n).setCopy { c with sent := n :: c.sent })) ∧
      (s.readUnit c n = .stale → exec (.copyUnitPerformed id n) s = .next ((s.setCopy (c.markStale n)).freeSill (c.markStale n) n)) ∧
      ∀ (o k va code : Nat) (d : Copy),
        (s.readUnit c n = .bad o k va ∧ code = 6 ∨
          (∃ l p, s.readUnit c n = .bytes l p ∧ s.writeUnit c n l p = .refused va) ∧ code = 4 ∧ o = 0 ∧ k = spG) →
        d = { c.mark n false with
          err := some (c.err.getD { code := code, reason := 0, opnd := o, stglv := 0, coord0 := n / (c.rowb / 64),
                                    coord1 := 64 * (n % (c.rowb / 64)), space := k, addr := va, baddr := some (va / 64 * 64) }) } →
        exec (.copyUnitPerformed id n) s = .next (((s.unitServed c n).setCopy d).freeSill d n))) ∧
  (∀ (s : State) (id n r b g sp k a : Nat) (c : Copy) (e : TlbEntry), s.copy id = some c → c.kind = .tload →
    s.unitReady c n = true → s.unitTurn c n = true → r = n / (c.rowb / 64) → b = n % (c.rowb / 64) →
    g = ((c.gbase + r * c.gpitch) % 2 ^ 64 + 64 * b) % 2 ^ 64 → sp = ((c.sbase + r * c.spitch) % 2 ^ 22 + 64 * b) % 2 ^ 22 →
    pageOf c.pages g = some e → s.badBlk (e.paOf g / 64) = false →
    s.refCore c.ref = some k → s.ownedAt k c.gens sp = some a →
    ∃ t : State, exec (.copyUnitPerformed id n) s = .next t ∧
      (∀ j, j < 64 → [(t.core k).sp.read (a + j)] = s.readPa (if e.enc then some c.kslot else none) (e.paOf g + j) 1) ∧
      (∀ i x, i ≠ k ∨ x < a ∨ a + 64 ≤ x → (t.core i).sp.read x = (s.core i).sp.read x) ∧
      ∀ key pa, t.readPa key pa 1 = s.readPa key pa 1)

/-- R240 to R242: a copy whose units are all done credits its barrier with its bytes, keeps its error for its tag, and completes the tag; one that met a
changed owner tag ends alone. A peer image lands, in the slots of its sender's tier, in the window that still owns its banks, and credits its barrier
after its last byte. R260, R261: the end of a block transfer: with its
record written, RHEAD rises and INFLT falls; with WAKE its barrier gets an arrival. -/
def Obligations.CopyEnds : Prop :=
  ((∀ (s : State) (id : Nat) (c : Copy), s.copy id = some c → c.kind ≠ .bt → c.frozen = false → (∀ n, n < c.units → n ∈ c.done) →
      (c.stale ≠ [] → exec (.copyCompletion id) s = .next ((s.ungrant c).dropCopy id)) ∧
      (c.stale = [] → c.err = none → c.bar = none → c.kind ≠ .kvRes → ∀ k j, s.slotOf c.ref = some (k, j) →
        ∃ t : State, exec (.copyCompletion id) s = .next t ∧ t.copy id = none ∧ SameMemory s t ∧
          (t.stream k j).tagCount c.tag = (s.stream k j).tagCount c.tag - 1 ∧
          (c.tag < 64 → (s.stream k j).tagCount c.tag ≤ 1 → (t.stream k j).tagrdy.getLsbD c.tag = true)) ∧
      (c.stale = [] → c.err = none → ∀ w, c.bar = some w → c.kind ≠ .kvRes → exec (.copyCompletion id) s =
        .next (((((s.ungrant c).dropCopy id).credit c.ref w c.bytes c.barPage c.cls c.scope).updRef c.ref fun x => x.tagDone c.tag).count c.ref.mx 6 1)) ∧
      (c.stale = [] → ∀ e, c.err = some e → c.bar = none → c.kind ≠ .kvRes → exec (.copyCompletion id) s =
        .next (((((s.ungrant c).dropCopy id).tagError c.ref c.tag e).updRef c.ref fun x => x.tagDone c.tag).count c.ref.mx 6 1)) ∧
      (c.stale = [] → c.err = none → c.bar = none → c.kind = .kvRes → exec (.copyCompletion id) s =
        .next (((((s.ungrant c).dropCopy id).updRef c.ref fun x => { x with flags := x.flags ||| c.sflg }).updRef c.ref
          fun x => x.tagDone c.tag).count c.ref.mx 6 1))) ∧
    ∀ (s u : State) (id c k n : Nat) (p : PeerImg), s.peers.find? (fun p => p.id == id) = some p → s.slotOf p.dest = some (c, k) →
      n = s.peerPiece p →
      u = (s.writeSp c k (p.off + p.sent) (sliceBytes p.img p.sent n)).mullTake (s.busOf c) (ceilDiv n 64) →
      (0 < n → n ≤ 256 ∧ n ≤ 24576 - p.sent ∧ s.peerFirst p = false ∧
        ∃ b j, s.slotOf p.ref = some (b, j) ∧ s.mullOwn (s.busOf b) (b / 128 % 4) p.ref.mx = true) ∧
      (n = 0 ∨ s.sillOlder c k (p.off + p.sent) n p.id = true → exec (.mpeerDelivery id) s = .next s) ∧
      (0 < n → s.sillOlder c k (p.off + p.sent) n p.id = false →
        ((∃ j, j < n ∧ s.ownedAt c p.gens (p.off + p.sent + j) = none) →
          exec (.mpeerDelivery id) s = .next { s with peers := s.peers.filter fun q => q.id != id }) ∧
        ((∀ j, j < n → (s.ownedAt c p.gens (p.off + p.sent + j)).isSome = true) →
          (p.sent + n < 24576 → exec (.mpeerDelivery id) s =
            .next { u with peers := u.peers.map fun q => if q.id = id then { q with sent := q.sent + n } else q }) ∧
          (24576 ≤ p.sent + n → p.bar = none →
            exec (.mpeerDelivery id) s = .next { u with peers := u.peers.filter fun q => q.id != id }) ∧
          (24576 ≤ p.sent + n → ∀ b, p.bar = some b → exec (.mpeerDelivery id) s =
            .next (({ u with peers := u.peers.filter fun q => q.id != id } : State).credit p.dest (bwOf (spAliasBase + b) 2 false) 24576
              none p.cls 2))))) ∧
  (∀ (s u v : State) (id : Nat) (c : Copy) (x y : Chan) (at' : List (Nat × Nat)), s.copy id = some c → c.kind = .bt → c.frozen = false → c.btOver = true →
    x = (s.mx c.ref.mx).chan c.chan → y = { x with rhead := x.rhead + 1, inflt := x.inflt - 1 } →
    at' = s.vaSpans none c.ref.mx (x.rbase.toNat + 32 * (x.rhead.toNat % x.ringLen)) 32 → s.spansOpen (some c.ref) at' = true →
    s.recordWaits c.ref.mx (x.rbase.toNat + 32 * (x.rhead.toNat % x.ringLen)) at' = false →
    (((s.ungrant c).dropCopy id).spansServed (some c.ref) at').writeVa none c.ref.mx (x.rbase.toNat + 32 * (x.rhead.toNat % x.ringLen)) (c.btRecord x) = .ok u →
    v = (u.setChan c.ref.mx c.chan y).count c.ref.mx 6 1 →
    ∃ t : State, exec (.btCopyCompletion id) s = .next t ∧ t.copy id = none ∧ t.mem = u.mem ∧ t.llc = u.llc ∧
      (t.mx c.ref.mx).chan c.chan = y ∧ (x.wake = false → t.reqs = u.reqs) ∧
      (x.wake = true →
        ((spAlias x.wbar.toNat = none ∧ ∃ e, v.access none c.ref.mx x.wbar.toNat .write false = .ok e) ∨
          (∃ o st, spAlias x.wbar.toNat = some o ∧ v.refStream c.ref = some st ∧ st.windowFail o 16 = none)) →
        ∃ r : Req, t.reqs = u.reqs ++ [r] ∧ r.op = .pbWake 1 false ∧ r.va = x.wbar.toNat ∧ r.ref = some c.ref ∧ r.rel = 0xFFFF ∧ r.scope = 5))

/-- A due load takes its bytes as its result; with dirty logging off, a due store leaves its bytes at its address and no other byte of memory changes; a
fence is gone; a performed result is delivered to its register. Bytes written at a physical address read back, and every other
byte reads as before, cached or not. -/
def Obligations.HomeAccessesPerform : Prop :=
  (∀ (s : State) (id : Nat) (r : Req), s.req id = some r →
    (s.due r = true → r.io = false →
      (∀ n, r.op = .load n → r.dest.isSome = true → s.badIn r.pa n = none → ∃ t : State, exec (.homeAccess id) s = .next t ∧ SameMemory s t ∧
        t.req id = some { r with performed := true, result := BitVec.ofNat 64 (leNat (s.readPa (s.reqKey r) r.pa n)) }) ∧
      (∀ n d, r.op = .store n d → n ≤ 8 → r.enc = false → r.dest = none → (s.part (s.reqPart r)).dlog = false →
        ∃ t : State, exec (.homeAccess id) s = .next t ∧ t.req id = none ∧ t.cores = s.cores ∧
          ∀ a, t.readPa none a 1 =
            if r.pa ≤ a ∧ a < r.pa + n then [BitVec.ofNat 8 (d.toNat / 256 ^ (a - r.pa))] else s.readPa none a 1) ∧
      (∀ m, r.op = .fence m → r.dest = none → r.unit = none → exec (.homeAccess id) s = .next (s.dropReq id))) ∧
    (r.performed = true → r.err = none →
      (r.ref = none → ∃ t : State, exec (.scalarResultDelivery id) s = .next t ∧ t.req id = none ∧ t.cores = s.cores ∧ SameMemory s t ∧
        ∀ k, AMap.get 0 t.hk.g k = if k ≠ 0 ∧ r.dest = some (BitVec.ofNat 5 k) ∧ k < 32 then r.result else AMap.get 0 s.hk.g k) ∧
      ∀ x c j, r.ref = some x → s.slotOf x = some (c, j) → ∃ t : State, exec (.scalarResultDelivery id) s = .next t ∧ t.req id = none ∧
        SameMemory s t ∧ t.hk = s.hk ∧
        ∀ k, AMap.get 0 (t.stream c j).g k =
          if k ≠ 0 ∧ r.dest = some (BitVec.ofNat 5 k) ∧ k < 32 then r.result else AMap.get 0 (s.stream c j).g k)) ∧
  (∀ (s : State) (pa : Nat) (l : List Byte),
    (∀ k, k < l.length → (s.writePa none pa l).readPa none (pa + k) 1 = [l.getD k 0]) ∧
    (∀ a, a < pa ∨ pa + l.length ≤ a → (s.writePa none pa l).readPa none a 1 = s.readPa none a 1) ∧
    (s.writePa none pa l).cores = s.cores ∧ (s.writePa none pa l).reqs = s.reqs)

/-- R193 to R196: an atomic at its home reads and writes its location in one step and is given the old value; a merged request enters the entry of another
with the same operator, size and address, with all that its own entry holds and under the wider scope, a float addition rounded there; and an entry goes
on towards its home. -/
def Obligations.AtomicsAtTheHome : Prop :=
  (∀ (s : State) (id n : Nat) (r : Req) (op : BitVec 4) (x y : Word) (ret : Bool), s.req id = some r → r.op = .atomic op n x y ret → n = 4 ∨ n = 8 →
      s.due r = true → r.merged = [] → s.badIn r.pa n = none → r.enc = false → r.dest.isSome = true → op ≠ 8 → op.toNat ≤ 10 → x.toNat < 2 ^ (8 * n) →
      (s.part (s.reqPart r)).dlog = false →
      ∃ t : State, exec (.atomicAtHome id) s = .next t ∧ t.cores = s.cores ∧
        t.req id = some { r with performed := true, result := BitVec.ofNat 64 (leNat (s.readPa none r.pa n)) } ∧
        leNat (t.readPa none r.pa n) = atomicValue op.toNat (8 * n) (leNat (s.readPa none r.pa n)) x.toNat y.toNat ∧
        ∀ a, a < r.pa ∨ r.pa + n ≤ a → t.readPa none a 1 = s.readPa none a 1) ∧
    (∀ (s : State) (id n : Nat) (r : Req) (x y : Word) (ret : Bool), s.req id = some r → r.op = .atomic 8 n x y ret → s.due r = true → r.merged = [] →
      s.badIn r.pa n = none → exec (.atomicAtHome id) s = .next (((((s.reached r).writePa (s.reqKey r) r.pa
          (leBytes n (atomicNew 8 n (leNat (s.readPa (s.reqKey r) r.pa n)) x.toNat y.toNat).1)).logDirty (s.reqPart r) r.ipa).ackFlags r
          ((atomicNew 8 n (leNat (s.readPa (s.reqKey r) r.pa n)) x.toNat y.toNat).2.word ||| r.result.setWidth 7)).perform r
          (leNat (s.readPa (s.reqKey r) r.pa n)))) ∧
    (∀ (s : State) (id into : Nat) (r e : Req) (op : BitVec 4) (n : Nat) (x y x' y' : Word) (ret ret' : Bool), s.req id = some r →
      s.req into = some e → s.mayMerge r e = true → r.op = .atomic op n x y ret → e.op = .atomic op n x' y' ret' →
      ∃ t : State, exec (.routerMerge id into) s = .next t ∧ SameMemory s t ∧
        (op ≠ 8 → t.req into = some { e with
            merged := e.merged ++ (id :: r.merged), scope := if r.scope.toNat < e.scope.toNat then e.scope else r.scope } ∧
          t.req id = some { r with into := some into, merged := [], fwd := false } ∧
          ∀ k, k ≠ id → k ≠ into → t.req k =
            if k ∈ r.merged then (s.req k).map (fun q => { q with into := some into, merged := [], fwd := false }) else s.req k) ∧
        (op = 8 → ∃ q, t.req into = some q ∧ q.merged = e.merged ++ (id :: r.merged) ∧
          q.op = .atomic 8 n (BitVec.ofNat 64 (atomicNew 8 n x'.toNat x.toNat 0).1) y' ret' ∧
          q.scope = if r.scope.toNat < e.scope.toNat then e.scope else r.scope)) ∧
    ∀ (s : State) (id : Nat) (r : Req), s.req id = some r → r.merged ≠ [] → r.performed = false →
      ∃ t : State, exec (.mergeEntryForward id) s = .next t ∧ t.req id = some { r with fwd := true } ∧ ∀ k, k ≠ id → t.req k = s.req k

/-- R198, R199: one update of a barrier: an error is recorded for a bad argument, an object that is none, too many arrivals or a byte count out of range;
the phase turns, and both counts are reloaded, exactly when no arrival and no byte is pending then; a barrier in error stands. An arrival in the
scratchpad answers the flags before it; a test answers the object and changes no byte. -/
def Obligations.BarrierUpdates : Prop :=
  (∀ (o : Barrier) (n b c : Nat) (bad : Bool),
      (o.err = true → o.update n b c bad = o) ∧
      (o.err = false → (bad = true ∨ o.expa = 0 ∨ o.rsvd ≠ 0 ∨ o.penda < n ∨ o.pendb + (b : Int) - (c : Int) < -2 ^ 31 ∨
          2 ^ 31 ≤ o.pendb + (b : Int) - (c : Int)) → o.update n b c bad = { o with err := true }) ∧
      (o.err = false → bad = false → o.expa ≠ 0 → o.rsvd = 0 → n ≤ o.penda → -2 ^ 31 ≤ o.pendb + (b : Int) - (c : Int) →
        o.pendb + (b : Int) - (c : Int) < 2 ^ 31 →
        ((o.update n b c bad).phase ≠ o.phase ↔ o.penda - n = 0 ∧ o.pendb + (b : Int) - (c : Int) = 0) ∧
        ((o.update n b c bad).phase ≠ o.phase →
          (o.update n b c bad).penda = o.expa ∧ (o.update n b c bad).pendb = (o.expb : Int)) ∧
        ((o.update n b c bad).phase = o.phase →
          (o.update n b c bad).penda = o.penda - n ∧ (o.update n b c bad).pendb = o.pendb + (b : Int) - (c : Int)))) ∧
    ∀ (s : State) (id c k o : Nat) (r : Req) (x : StreamRef) (old : Barrier), s.req id = some r → r.ref = some x → r.unit = none →
      r.dest.isSome = true → r.bw = none → s.due r = true → spAlias r.va = some o → s.slotOf x = some (c, k) →
      (s.core c).spBad.contains ((s.stream c k).spAddr o / 64) = false →
      old = barrierOf ((s.core c).sp.readN ((s.stream c k).spAddr o) 16) →
      (∀ n, r.op = .pbArrive n false → ∃ t : State, exec (.barrierUpdate [id]) s = .next t ∧
        (t.core c).sp = (s.core c).sp.writeN ((s.stream c k).spAddr o) (old.update n 0 0 false).bytes ∧
        t.req id = some { r with performed := true, result := BitVec.ofNat 64 old.flags } ∧
        ∀ key pa, t.readPa key pa 1 = s.readPa key pa 1) ∧
      (r.op = .pbTest → ∃ t : State, exec (.barrierUpdate [id]) s = .next t ∧ SameMemory s t ∧
        t.req id = some { r with performed := true, result := BitVec.ofNat 64 old.test.toNat })

/-- The cache and the scrubber: a served walk's translation enters the core's TLB; a fill takes its blocks from below, in a way of the accessing
partition's; a written-back line leaves the cache with its dirty blocks stored; the patrol scrubber changes no byte, and a correctable error it meets
in memory, a pane or a shutter store is counted, for its row too in embedded DRAM, and gone; a scanned segment is executable with its headers and
hash, or refused. -/
def Obligations.CachesAndScans : Prop :=
  (∀ (s : State) (c m : Nat) (va : Word) (e : TlbEntry) (w : Walk),
      (s.walks.find? fun w => w.core == c && w.mx == m && w.va == va.toNat / 4096 * 4096) = some w → s.walkDue w = true →
      s.homeServes w.part = true → s.translation (some c) m va.toNat = .ok e →
      ∃ t : State, exec (.translationWalk c m va) s = .next t ∧ e ∈ (t.core c).tlb ∧ (∀ x ∈ (s.core c).tlb, x ∈ (t.core c).tlb) ∧
        t.walks = s.walks.erase w ∧ SameMemory s t ∧ ∀ k, k ≠ c → t.core k = s.core k) ∧
    (∀ (s : State) (m pa w : Nat) (e : TlbEntry) (k : Option Nat), s.pageAtPa m pa = some e → s.homeReady pa = true →
      s.homeReady (64 * (pa / 64)) = true → s.homeServes (s.mx m).part = true →
      s.turnAt (s.mx m).part (rangeResources pa 1) = true → s.llc.find (pa / 64) = none → isIo pa = false → s.badBlk (pa / 64) = false →
      k = (if e.enc then some (s.mx m).kslot else none) → s.fillWay (frameLine pa) (s.part e.part).waymask = some w →
      ∃ t : State, exec (.llcFill m 0 pa) s = .next t ∧ (s.part e.part).waymask.getLsbD w = true ∧ t.cores = s.cores ∧
        t.llc.find (pa / 64) = some
          { mx := 0, tid := 0, tile := 0, way := w, used := s.dclk.toNat, data := s.storedBlk (pa / 64) k, dirty := false, enc := k,
            retiring := false, outgoing := 0 }) ∧
    (∀ (s : State) (b : Nat) (l : LlcBlk), s.llc.find b = some l → AMap.sortedFrom 0 s.llc = true → s.homeReady (64 * b) = true →
      s.wayServed l.way (dirtyResources (s.llc.filter fun e => e.2.line e.1 == l.line b)) = true →
      ∃ t : State, exec (.llcWriteback b) s = .next t ∧ t.llc = s.llc.filter (fun e => decide (e.2.line e.1 ≠ l.line b)) ∧ t.cores = s.cores ∧
        (l.dirty = true → l.enc = none → t.mem.readN (64 * b) 64 = blkBytes l.data)) ∧
    (∀ (s : State) (b : Nat) (l : LlcBlk), s.llc.find b = some l → l.retiring = true → s.homeReady (64 * b) = true →
      s.homeServes (s.tenantPart l.outgoing) = true → s.turnAt (s.tenantPart l.outgoing) (dirtyResources [(b, l)]) = true →
      ∃ t : State, exec (.retiringLineWriteback b) s = .next t ∧ t.llc = s.llc.erase b ∧ t.cores = s.cores ∧
        (l.dirty = true → l.enc = none → t.mem.readN (64 * b) 64 = blkBytes l.data) ∧ (l.dirty = false → t.mem = s.mem)) ∧
    (∀ (s : State) (p : PatrolPlace) (b : Nat), ∃ t : State, exec (.patrolScrub { store := p, blk := b }) s = .next t ∧ SameMemory s t ∧
      (∀ a, t.attn.read a = s.attn.read a) ∧
      (∀ c h a, ((t.core c).cw.pane h).read a = ((s.core c).cw.pane h).read a) ∧ (∀ e ∈ t.weak, e ∈ s.weak) ∧
      (p = .mem → s.badBlk b = false → (0, b) ∉ t.weak ∧
        AMap.get 0 t.corrected 0 = AMap.get 0 s.corrected 0 + if (0, b) ∈ s.weak then 1 else 0) ∧
      (∀ c h, p = .pane c h → ((s.core c).cw.bad h).contains b = false → (16 * (2 * c + h.toNat) + 3, b) ∉ t.weak ∧
        AMap.get 0 t.corrected (16 * (2 * c + h.toNat) + 3) =
          AMap.get 0 s.corrected (16 * (2 * c + h.toNat) + 3) + (if (16 * (2 * c + h.toNat) + 3, b) ∈ s.weak then 1 else 0) ∧
        (t.core c).rowErrs =
          if (16 * (2 * c + h.toNat) + 3, b) ∈ s.weak then (h, Config.eramRow b, s.dclk.toNat) :: (s.core c).rowErrs else (s.core c).rowErrs) ∧
      ∀ c, p = .shutter c → (s.core c).shutBad.contains b = false → (16 * c + 4, b) ∉ t.weak ∧
        AMap.get 0 t.corrected (16 * c + 4) = AMap.get 0 s.corrected (16 * c + 4) + (if (16 * c + 4, b) ∈ s.weak then 1 else 0) ∧
        (t.core c).shutErrs =
          if (16 * c + 4, b) ∈ s.weak then (Config.eramRow b, s.dclk.toNat) :: (s.core c).shutErrs else (s.core c).shutErrs) ∧
    ∀ (s : State) (id : Nat) (g : Segment), s.segs.find id = some g → g.ok = false → s.writeInFlight g.frames = false →
      (∀ f ∈ g.frames, s.homeReady (4096 * f) = true) → (∀ f ∈ g.frames, s.badIn (4096 * f) 4096 = none) →
      (s.paUp g.recPa 64 = true → ∀ b, scanSegment g.sec g.level (wordsOf g.sec.wordBytes (g.len / g.sec.wordBytes) (s.segBytes g))
          (g.badFrame.map fun k => 4096 * k / g.sec.wordBytes) = .error b →
        exec (.codeScan id) s = .next ((s.meets (g.frames.map fun f => (4096 * f, 4096))).refuseSegment id g b.1 b.2)) ∧
      ∀ hs, scanSegment g.sec g.level (wordsOf g.sec.wordBytes (g.len / g.sec.wordBytes) (s.segBytes g))
          (g.badFrame.map fun k => 4096 * k / g.sec.wordBytes) = .ok hs →
        ∃ t : State, exec (.codeScan id) s = .next t ∧
          t.segs.find id = some { g with ok := true, headers := hs, hash := BitVec.ofNat 256 (sm3 (s.segBytes g)) } ∧
          (∀ k, k ≠ id → t.segs.find k = s.segs.find k) ∧ t.mem = s.mem ∧ t.aperture.ran = true ∧ t.aperture.status = 0 ∧ t.aperture.result = id

/-- IO loads and stores at their apertures: the value of the register, the command aperture's words and GO, which the housekeeping processor alone
writes, a channel's registers, the doorbell, and the summary word, whose count the read clears. -/
def Obligations.IoAccesses : Prop :=
  ∀ (s : State) (id : Nat) (r : Req), s.req id = some r → s.due r = true → r.io = true →
    (s.dueChanStore id = none → ∀ n, r.op = .load n → ioPlace r.pa ≠ .health 0x28 → r.dest.isSome = true →
      ∃ t : State, exec (.ioAccess id) s = .next t ∧ SameMemory s t ∧ t.aperture = s.aperture ∧
        t.req id = some { r with performed := true, result := BitVec.ofNat 64 (s.ioRead r) }) ∧
    (∀ n d off, r.op = .store n d → ioPlace r.pa = .aperture off → r.dest = none → ∃ t : State, exec (.ioAccess id) s = .next t ∧ t.req id = none ∧
      SameMemory s t ∧ (r.ref ≠ none → t.aperture = s.aperture) ∧
      (r.ref = none →
        (off < 0x40 → t.aperture = { s.aperture with cmd := s.aperture.cmd.put (off / 8) (if off / 8 = 0 then d &&& 0xFF else d) }) ∧
        (off = 0x40 → s.aperture.busy = false → t.aperture = { s.aperture with words := s.aperture.cmd, busy := true, ran := false }) ∧
        (off = 0x40 → s.aperture.busy = true → t.aperture = s.aperture) ∧ (0x40 < off → t.aperture = s.aperture))) ∧
    (∀ ch off d, s.dueChanStore id = some (r, ch, off, d) →
      (off ≠ 0 → off ≠ 0x18 → exec (.registerWrite id) s =
        .next ((s.setChan r.mx ch (((s.mx r.mx).chan ch).writeReg off d)).perform r 0)) ∧
      (off = 0x18 → exec (.rcfgWrite id) s = .next ((s.setChan r.mx ch
        (if ((s.mx r.mx).chan ch).inflt = 0 then
          { (s.mx r.mx).chan ch with wake := d.getLsbD 8, logn := d.toNat % 16, rhead := 0, rtail := 0 }
         else (s.mx r.mx).chan ch)).perform r 0)) ∧
      ∀ x, r.ref = some x → off = 0 → r.unit = none → s.bellOpen r.mx ch d = true → ∃ t : State, exec (.doorbell id) s = .next t ∧
        ((((s.mx r.mx).chan ch).ringLen : Int) ≤ (((s.mx r.mx).chan ch).inflt : Int) +
            ((((s.mx r.mx).chan ch).rhead.toNat : Int) - (((s.mx r.mx).chan ch).rtail.toNat : Int)) ∨ d.toNat / 2 ^ 8 % 2 ^ 24 ≠ 0 →
          ((t.mx r.mx).chan ch).ovf = ((s.mx r.mx).chan ch).ovf + 1 ∧ t.copies = s.copies) ∧
        ((((s.mx r.mx).chan ch).inflt : Int) + ((((s.mx r.mx).chan ch).rhead.toNat : Int) - (((s.mx r.mx).chan ch).rtail.toNat : Int)) <
            ((s.mx r.mx).chan ch).ringLen →
          d.toNat / 2 ^ 8 % 2 ^ 24 = 0 → ((t.mx r.mx).chan ch).inflt = ((s.mx r.mx).chan ch).inflt + 1 ∧
            ∃ c : Copy, t.copies = s.copies ++ [c] ∧ c.kind = .bt ∧ c.chan = ch ∧ c.tidx = d.toNat % 256)) ∧
    ∀ n, r.op = .load n → ioPlace r.pa = .health 0x28 → r.dest.isSome = true →
      (s.reqs.find? fun r => r.io && s.due r && ioPlace r.pa == .health 0x28 && (match r.op with | .load _ => true | _ => false)) = some r →
      ∃ t : State, exec .mcsumRead s = .next t ∧ t.req id = some { r with performed := true, result := s.mcsum } ∧
        t.mcsum.toNat = s.mcsum.toNat / 2 ^ 32 * 2 ^ 32 + s.mcsum.toNat % 2 ^ 16

/-- Messages: the drops of the parse in their order, the hold for a paused partition, and the append; the answer to another DU5's launch; a port that goes down; a reply that finds its
entry, length, port and window leaves by its port under the next count of its session, and one whose entry is not live leaves with status 1. -/
def Obligations.RequestsAndReplies : Prop :=
  (∀ (s : State) (p m : Nat) (f : BitVec 320) (l : List Byte), s.portDown.contains p = false → p < 4 →
      (msgHdrBad l = true → exec (.requestMessage p f l) s = .next (s.dropMsg p .hdr)) ∧
      (msgHdrBad l = false → s.msgTarget f l = none → exec (.requestMessage p f l) s = .next (s.dropMsg p .nomx)) ∧
      (msgHdrBad l = false → s.msgTarget f l = some m →
        ((s.mx m).st = .free ∨ (s.mx m).st = .faulted → exec (.requestMessage p f l) s = .next (s.dropMsg p .nomx)) ∧
        ((s.mx m).st ≠ .free → (s.mx m).st ≠ .faulted → (s.part (s.mx m).part).paused = true →
          exec (.requestMessage p f l) s = .next (s.holdMsg (s.mx m).part p f l)) ∧
        ((s.mx m).st ≠ .free → (s.mx m).st ≠ .faulted → (s.part (s.mx m).part).paused = false → s.ringUp m = true →
          (s.msgOpen m l = none → exec (.requestMessage p f l) s = .next (s.dropMsg p .auth)) ∧
          ∀ b, s.msgOpen m l = some b → msgFwd l = false →
            (∀ t, s.append m p b [] (some { port := p, flow := f, sess := fieldLe l 8 8 }) = .ok t → exec (.requestMessage p f l) s = .next t) ∧
            (s.append m p b [] (some { port := p, flow := f, sess := fieldLe l 8 8 }) = .fault →
              exec (.requestMessage p f l) s = .next (s.dropMsg p .ringFault)) ∧
            (s.append m p b [] (some { port := p, flow := f, sess := fieldLe l 8 8 }) = .full →
              exec (.requestMessage p f l) s = .next ((s.setMx m ((s.mx m).bump 7 1)).dropMsg p .full))))) ∧
    (∀ (s : State) (tn p m : Nat) (d l : List Byte), m = fieldLe d 0 2 % 16384 →
      (s.scaleOpenFor (if (s.mx m).st = .free then 15 else (s.mx m).part) = true →
        (s.mx m).st = .free ∨ (s.mx m).st = .faulted ∨
          ((s.part (s.mx m).part).paused = false ∧ ((s.mx m).tenant.toNat ≠ tn ∨ (s.mx m).part ≠ p)) →
        exec (.remoteLaunchArrival tn p d l) s = .next { s with sent := (8, [2]) :: s.sent }) ∧
      ((s.mx m).st ≠ .free → (s.mx m).st ≠ .faulted → (s.part (s.mx m).part).paused = true →
        exec (.remoteLaunchArrival tn p d l) s = .next (s.hold (s.mx m).part (heldLaunch tn p d l))) ∧
      ((s.mx m).st ≠ .free → (s.mx m).st ≠ .faulted → (s.part (s.mx m).part).paused = false → (s.mx m).tenant.toNat = tn → (s.mx m).part = p →
        s.scaleOpenFor (s.mx m).part = true → s.ringUp m = true →
        (∀ t, s.append m 5 l [fieldLe d 0x18 4, fieldLe d 0x1C 4, fieldLe d 0x20 4, fieldLe d 0x24 4] none = .ok t →
          exec (.remoteLaunchArrival tn p d l) s = .next { t with sent := (8, [0]) :: t.sent }) ∧
        (s.append m 5 l [fieldLe d 0x18 4, fieldLe d 0x1C 4, fieldLe d 0x20 4, fieldLe d 0x24 4] none = .full →
          exec (.remoteLaunchArrival tn p d l) s = .next { s with sent := (8, [1]) :: s.sent }))) ∧
    (∀ (s : State) (p : Nat) (b : Bool), ∃ t : State, exec (.portOrPathDown p b) s = .next t ∧ t = { s with portDown := t.portDown } ∧
      ∀ k, k ∈ t.portDown ↔ if k = p then b = true else k ∈ s.portDown) ∧
    ∀ (s : State) (id c k : Nat) (e : Emit), s.emits.find? (fun e => e.id == id) = some e → s.statusReady e = true → s.replySlot e = true →
      s.slotOf e.ref = some (c, k) →
      ∃ t : State, exec (.pktEmitCompletion id) s = .next t ∧ (∀ x ∈ t.emits, x.id ≠ id) ∧
        (t.stream c k).tagCount e.tag = (s.stream c k).tagCount e.tag - 1 ∧
        (s.liveEntry e.ref.mx e.entry = none → t.sent = s.sent ∧
          (e.fin = false → s.frameSealed (e.stat.paOf e.statVa / 4096) = false → e.stat.enc = false →
            (s.part (s.mx e.ref.mx).part).dlog = false →
            t.readPa none (e.stat.paOf e.statVa) 8 = leBytes 8 1)) ∧
        ∀ i o pt, s.liveEntry e.ref.mx e.entry = some i → 0 < e.n → e.n ≤ 9216 → AMap.find (s.mx e.ref.mx).origins i = some o →
          s.portDown.contains o.port = false → s.spOwned e.ref e.gens e.off e.n = some pt →
          t.sent = (o.port, replyMsg (s.key (s.mx e.ref.mx).kslot).kg.toNat e.ref.mx o.sess
            (AMap.get 0 (s.key (s.mx e.ref.mx).kslot).ivs (o.sess % 2 ^ 31)) pt) :: s.sent

/-- R278 to R280: KV.DROP clears the positions its mask names and completes; with ALL it waits for the pins of the slot's pages, then clears every
position of the slot and its NPOS, ends its repair, and completes; a command whose arena is gone is aborted; every completed command leaves its
result entry DONE. A shared block that nothing refers to and no query reads is free. A page state is merged for one row and head, unless one of its
rows holds an uncorrectable block, which ends the query with the pending error of its tag and a free status (log 47); a page-in gives
a page its kind. -/
def Obligations.KvCommandsPerform : Prop :=
  (∀ (s : State) (id p : Nat) (k : KvCmd), s.kv id = some k → k.started = false → s.kvReady k = true → p = (s.mx k.ref.mx).part →
      s.hasTurn 4 p s.kvParts = true →
      (s.arenas.find k.d.arena = none → exec (.kvArenaPerform id) s = .next ((s.kvComplete k { status := 15 }).served 4 p)) ∧
      ∀ x, s.arenas.find k.d.arena = some x →
        (k.op ≠ 0x33 → exec (.kvArenaPerform id) s = .next
          (((s.kvMet k (s.performKv x k) fun u => u.recMet (x.kvReads k)).served 4 p).spansServed (some k.ref) (s.kvSpansG k))) ∧
        (k.op = 0x33 → k.d.flags.getLsbD 1 = false →
          ((∃ i, i < 64 ∧ k.d.mask.getLsbD i = true ∧ (x.maxpos ≤ k.d.pos + i ∨ (x.kindOf k.d.slot (k.d.pos + i)).isShared = true)) →
            exec (.kvArenaPerform id) s = .next ((s.kvComplete k { status := 5 }).served 4 p)) ∧
          (x.maxpos ≤ 2 ^ 20 → (∀ i, i < 64 → k.d.mask.getLsbD i = true → k.d.pos + i < x.maxpos ∧ (x.kindOf k.d.slot (k.d.pos + i)).isShared = false) →
            ∃ (t : State) (y : Arena), exec (.kvArenaPerform id) s = .next t ∧
              t = ((s.setArena k.d.arena y).kvComplete k { status := 0 }).served 4 p ∧ t.arenas.find k.d.arena = some y ∧ SameMemory s t ∧
              (∀ p, p < 2 ^ 20 → y.valid k.d.slot p = (x.valid k.d.slot p &&
                !(decide (k.d.pos ≤ p) && decide (p < k.d.pos + 64) && k.d.mask.getLsbD (p - k.d.pos)))) ∧
              (∀ v p, v ≠ k.d.slot → p < 2 ^ 20 → y.valid v p = x.valid v p) ∧ ∀ n, n ≠ k.d.arena → t.arenas.find n = s.arenas.find n)) ∧
        (k.op = 0x33 → k.d.flags.getLsbD 1 = true →
          (x.pinned k.d.slot (x.slotPages k.d.slot) = true → exec (.kvArenaPerform id) s = .next (s.served 4 p)) ∧
          (x.pinned k.d.slot (x.slotPages k.d.slot) = false → ∃ (v : State) (y : Arena),
            exec (.kvArenaPerform id) s = .next ((v.kvComplete k { status := 0 }).served 4 p) ∧
            v = ((s.kvs.filter fun e => e.id != k.id).map (·.id)).foldl (fun t i =>
              (x.slotPages k.d.slot).foldl (fun u j => u.afterPageIn k.d.arena k.d.slot j true i) t) (s.setArena k.d.arena y) ∧
            (∀ p, p < 2 ^ 20 → y.valid k.d.slot p = false) ∧ (∀ v p, v ≠ k.d.slot → p < 2 ^ 20 → y.valid v p = x.valid v p) ∧
            y.nposOf k.d.slot = 0 ∧ y.repair.find k.d.slot = none))) ∧
    (∀ (s : State) (k : KvCmd) (r : KvDone) (c j : Nat), s.slotOf k.ref = some (c, j) → k.ns = false → kvOkStatus r.status = true →
      AMap.get ResEntry.free ((s.kvComplete k r).stream c j).res k.rq = .done (kvRecord k.op r) ∧
      ((s.kvComplete k r).stream c j).tagCount k.tag = (s.stream c j).tagCount k.tag - 1 ∧ SameMemory s (s.kvComplete k r)) ∧
    (∀ (s : State) (a b : Nat) (x : Arena), s.arenas.find a = some x → (x.sbref.find b).isSome = true → x.refs b = 0 →
      (∀ k ∈ s.kvs, ∀ q, k.query = some q → q.reads a b = false) → (∀ e ∈ s.mxs, ∀ r ∈ e.2.resumes, r.2.q.reads a b = false) →
      exec (.sharedBlockFree a b) s = .next (s.setArena a { x with sbref := x.sbref.erase b })) ∧
    (∀ (s : State) (id n i u p : Nat) (k : KvCmd) (q q1 : Query) (g : QPage) (x : Arena), s.kv id = some k → k.query = some q →
      s.arenas.find q.arena = some x → k.started = true → i = n / max 1 q.units → u = n % max 1 q.units → p = (s.mx k.ref.mx).part →
      q.takeable i u = true → s.hasTurn 10 p s.engineParts = true → q.pages[i]? = some g → q1 = s.mergeUnit (s.mx k.ref.mx).kslot x q i u →
      ((q.spans x i u).any s.recBad = false → exec (.pageStateMerge id n) s =
        .next ((((if g.left.filter (· != u) = [] then s.unpin q.arena g.slot g.page else s).served 10 p).recMet
          (q.spans x i u)).queryStep { k with query := some q1 } q1)) ∧
      ((q.spans x i u).any s.recBad = true → exec (.pageStateMerge id n) s = .next ((s.queryBad k q).served 10 p))) ∧
    ∀ (s : State) (a v p pa : Nat) (ok : Bool) (x : Arena), s.arenas.find a = some x → (x.page v p).kind = .tier pa → (x.page v p).pagingIn = true →
      s.paUp pa (256 * x.recBytes) = true → s.hasTurn 9 (s.tenantPart x.tenant) s.copyPathParts = true →
      s.turnAt (s.tenantPart x.tenant) (rangeResources pa (256 * x.recBytes)) = true →
      (∀ k ∈ s.kvs, k.started = false ∨ k.d.arena ≠ a) → ∃ (t : State) (y : Arena), exec (.pageInComplete a v p ok) s = .next t ∧
        t.arenas.find a = some y ∧ (y.page v p).pagingIn = false ∧ (y.page v p).vmask = (x.page v p).vmask ∧
        (y.page v p).kind = if ok = true ∧ s.tierBad x pa = false then .loc else .tier pa

/-- Dispatch: the first waiting micro-context that can be taken up is; a reserved group binds it, unless a swapped team goes first or its key slot is
RETIRING; an EDF release sets REM and the next deadline; an overrun, REM at 0 while BOUND, is reported once a period, and its team ends once its group
is wanted; the cold-start engine goes on while its team is not being stopped; samples and reports at their times. -/
def Obligations.DispatchAndReports : Prop :=
  (∀ (s : State), s.waitingOrder = [] → exec .dispatchDecision s = .next s) ∧
    (∀ (s : State) (m : Nat) (l : List Nat), s.waitingOrder = m :: l → ∀ t, s.takeUp m = some t → exec .dispatchDecision s = .next t) ∧
    (∀ (s : State) (m : Nat) (g : Nat × Nat), (s.part (s.mx m).part).pausing = false → s.returnFirst m = false →
      (s.key (s.mx m).kslot).st ≠ 2 → (s.mx m).reserved = some g →
      (∀ r, (s.mx m).st = .ready → (s.mx m).team = none → (s.mx m).lr = some r → s.groupFits m r g = true → s.holdsRequest m = true →
        s.bindOpen m r = true → exec (.binding m) s = .next (s.bindFresh m r g)) ∧
      (∀ t u im, (s.mx m).st = .saved → (s.mx m).team = some t → s.groupFits m t.lr g = true → (s.mx m).image = some im → im.inShutter = true →
        u = { t with stack := g.1, col := g.2 } → im.homeless = true ∨ u = t →
        exec (.binding m) s = .next (((s.setMx m { s.mx m with team := some u }).takeMull m u).restoreImage m))) ∧
    (∀ (s : State) (m : Nat), (s.mx m).st ≠ .free → (s.mx m).edf = true → (s.mx m).deadline.toNat ≤ s.dclk.toNat →
      exec (.edfRelease m) s = .next (s.setMx m { s.mx m with
        rem := (s.mx m).budget, deadline := (s.mx m).deadline + BitVec.ofNat 64 (64 * (s.mx m).period.toNat), ranOut := false, overran := false, remFrac := 0 })) ∧
    (∀ (s : State) (m : Nat), (s.mx m).ranOut = false → exec (.overrun m) s = .next s) ∧
    (∀ (s v : State) (m : Nat), (s.mx m).st = .bound → (s.mx m).edf = true → (s.mx m).rem = 0 → (s.mx m).ranOut = true →
      (s.mx m).overran = false → v = s.overrunTrap m →
      exec (.overrun m) s = .next (if v.wantedByOther m = true ∧ (s.mx m).ending = none then
        (match v.permitted m with | some a => v.startAct m a | none => v) else v) ∧
      ∃ u : State, v = u.postEvent m evOvr (s.mx m).gen.toNat ∧ (u.mx m).overran = true ∧ u.events.length = min (s.events.length + 1) (max s.events.length 1024) ∧ ∀ k, k ≠ m → u.mx k = s.mx k) ∧
    (∀ (s : State) (m : Nat) (a : VictimAct), (s.mx m).st = .bound → (s.mx m).edf = true → (s.mx m).rem = 0 → (s.mx m).ranOut = true →
      (s.mx m).overran = true → (s.mx m).ending = none → s.wantedByOther m = true → s.permitted m = some a → exec (.overrun m) s = .next (s.startAct m a)) ∧
    (∀ (s : State) (m : Nat) (t : Team), (s.mx m).st = .bound → (s.mx m).team = some t → (s.mx m).ending = none →
      t.mayFill (s.mx m).coldHigh (s.mx m).coldNext = true →
      (t.layers.getD (s.mx m).coldNext none = none ∨
        ∃ va n, t.layers.getD (s.mx m).coldNext none = some (va, n) ∧ s.layerPages m (n / 4096) va = none) →
      exec (.coldStartFill m) s = .next (s.setMx m { ((s.mx m).bump 2 1) with coldNext := (s.mx m).coldNext + 1 })) ∧
    (∀ (s : State) (m va n : Nat) (t : Team) (ps todo : List Xl), (s.mx m).st = .bound → (s.mx m).team = some t → (s.mx m).ending = none →
      t.mayFill (s.mx m).coldHigh (s.mx m).coldNext = true → t.layers.getD (s.mx m).coldNext none = some (va, n) →
      s.layerPages m (n / 4096) va = some ps →
      todo = (if ps.all (fun p => isFlash p.pa) = true then ps else (ps.take 1024).filter fun p => !isFlash p.pa) →
      (∀ p ∈ todo, s.layerWaits p = false) → s.homeServes (s.mx m).part = true →
      s.turnAt (s.mx m).part (spanResources (todo.map fun p => (p.pa, 4096))) = true →
      ∃ u : State, exec (.coldStartFill m) s = .next u ∧ (u.mx m).coldNext = (s.mx m).coldNext + 1 ∧ ∀ k, k ≠ m → u.mx k = s.mx k) ∧
    (∀ (s : State) (m : Nat), (s.mx m).ending ≠ none → exec (.coldStartFill m) s = .next s) ∧
    (∀ (s : State), ∃ t : State, exec .sharedCounterSample s = .next t ∧ t = { s with samples := t.samples } ∧
      t.samples = List.replicate (s.dclk.toNat / 819200 - s.samples.length) s.shared ++ s.samples) ∧
    ∀ (s : State), ∃ t : State, exec .residencyReport s = .next t ∧ t = { s with residency := t.residency } ∧
      ∀ n x, (n, x) ∈ t.residency ↔ (n, x) ∈ s.residency ∨
        (x = s.residencyRecord ∧ n ∈ Config.rackNodes ∧ s.mayLeave (20 + Config.nodePort n % 4) 15 1 = true ∧
          ∀ y, s.residency.find? (fun e => e.1 == n) = some (n, y) →
            fieldLe y 0x20 8 / 819200 < s.dclk.toNat / 819200 ∨ reportKey y ≠ reportKey x)

/-- R339 to R341, R332, R358: a scrub whose cycles have passed leaves its slots empty, its banks all zero, and its casements' panes when all are named,
with the control register of its cores at its reset value, and delivers its status; a RETIRING key slot nothing uses is EMPTY; the oldest event is
delivered to TVEC with its registers; a notice of system software joins the pending events of a micro-context that is not BOUND, at its generation
alone; pending shutter tables whose frame has begun are the tables of their egresses, all at once. -/
def Obligations.ScrubsKeysAndEvents : Prop :=
  (∀ (s : State) (id : Nat) (c : Scrub), s.scrubs.find? (fun c => c.id == id) = some c →
      (s.dclk.toNat - c.start < c.least → exec (.scrubComplete id) s = .next s) ∧
      (c.least ≤ s.dclk.toNat - c.start → ∃ t : State, exec (.scrubComplete id) s = .next t ∧ (∀ x ∈ t.scrubs, x.id ≠ id) ∧
        (∀ k b, (k, b) ∈ c.banks → ∀ a, a / 65536 = b → (t.core k).sp.read a = 0) ∧
        (∀ k a, (k, a / 65536) ∉ c.banks → (t.core k).sp.read a = (s.core k).sp.read a) ∧
        (∀ k j, (k, j) ∈ c.slots → t.stream k j = Stream.reset) ∧
        (∀ k, k ∈ c.cws → c.allPanes = true → (t.core k).cw.pane0 = [] ∧ (t.core k).cw.pane1 = []) ∧
        (∀ k, k ∈ c.cores → (t.core k).wth = 0xC350) ∧ t.mem = s.mem ∧
        ∀ d, c.dest = some d → d ≠ 0 → AMap.get 0 t.hk.g d.toNat = 0)) ∧
    (∀ (s : State) (k : Nat), (s.key k).st = 2 → (∀ e ∈ s.mxs, e.2.st = .free ∨ e.2.kslot ≠ k) → (∀ e ∈ s.llc, e.2.enc ≠ some k) →
      (∀ e ∈ s.llc, ¬ (e.2.retiring = true ∧ e.2.outgoing = (s.key k).tenant)) →
      exec (.keySlotEmpty k) s = .next (s.setKey k { s.key k with st := 0 })) ∧
    (∀ (s : State) (e : HkEvent) (r : List HkEvent), s.events = e :: r → s.hk.ten = true → s.hk.phase = .waiting →
      exec .hkEventDelivery s = .next { s with
        events := r
        hk := { s.hk with
          epc := s.hk.pc, ecauseMx := BitVec.ofNat 14 e.mx, ecauseCode := BitVec.ofNat 16 e.code,
          erec := BitVec.ofNat 64 (0xFFF000010000 + 64 * (e.n % 1024)), ten := false, pc := s.hk.tvec, phase := .waiting, left := 0,
          halted := false } }) ∧
    (∀ (s : State), s.events = [] → s.hk.halted = true → exec .hkEventDelivery s = .next s) ∧
    (∀ (s : State) (m g n : Nat) (r : List Turn), m < 16384 → s.booted = true → s.sorted = { cycles := n, move := .notice m g } :: r →
      step s = .next ((({ s with agenda := r } : State).tick n).raiseNotice m g).settle) ∧
    (∀ (s : State) (m g : Nat), m < 16384 → s.booted = true →
      ((s.mx m).st = .free ∨ (s.mx m).st = .faulted ∨ (s.mx m).gen.toNat ≠ g → s.raiseNotice m g = s) ∧
      ((s.mx m).st ≠ .free → (s.mx m).st ≠ .faulted → (s.mx m).st ≠ .bound → (s.mx m).gen.toNat = g →
        ∃ t : State, s.raiseNotice m g = t ∧ t.mx m = { s.mx m with pebits := (s.mx m).pebits ||| 1, pegen := BitVec.ofNat 16 g } ∧
          (∀ k, k ≠ m → t.mx k = s.mx k) ∧ SameMemory s t)) ∧
    ∀ (s : State) (e f : Nat) (l : List (BitVec 32)), s.shutPend.find e = some (l, f) → AMap.sortedFrom 0 s.shutPend = true →
      ∃ t : State, exec (.shutterTableActivation e) s = .next t ∧ t = { s with shut := t.shut, shutPend := t.shutPend } ∧
        (∀ k, t.shutTable k = s.shutTable k) ∧
        ∀ k l' f', s.shutPend.find k = some (l', f') →
          (f' ≤ s.ltb.toNat / 8192 → AMap.get [] t.shut k = l' ∧ t.shutPend.find k = none) ∧
          (s.ltb.toNat / 8192 < f' → AMap.get [] t.shut k = AMap.get [] s.shut k ∧ t.shutPend.find k = some (l', f'))

/-- Management commands with arguments their rules accept: each has its effect and ends with status OK and its result; one that is not running changes
nothing. PGOUT of a page that is not LOCAL ends with STATE; that of a LOCAL page into a write-locked frame ends with FAULT, detail the offset of the PA:
the model's choice (log 68), for which no rule names a status. -/
def Obligations.ManagementCommands : Prop :=
  (∀ (s : State) (i : Instr) (c : Nat),
      (i, c) ∈ [(Instr.segreg, 0x01), (.segwd, 0x02), (.seghash, 0x03), (.arset, 0x10), (.ardel, 0x11), (.pgout, 0x12), (.docreg, 0x13), (.docdel, 0x14),
        (.ixevict, 0x15), (.pgempty, 0x16), (.flowset, 0x20), (.flowdel, 0x21), (.partset, 0x30), (.shtset, 0x31), (.slotrd, 0x32), (.ppause, 0x33),
        (.presume, 0x34), (.pexport, 0x35), (.pimport, 0x36), (.vkset, 0x40), (.quote, 0x41)] →
      s.running c = false → exec i s = .next s) ∧
    (∀ (s : State) (g : Segment), s.running 0x02 = true → s.segs.find (s.argA 0) = some g → (∀ m ∈ g.fetched, (s.mx m).st.inUse = false) →
      exec .segwd s = .next (({ s with segs := s.segs.erase (s.argA 0) } : State).cmdEnd 0 0)) ∧
    (∀ (s : State) (g : Segment), s.running 0x03 = true → s.segs.find (s.argA 0) = some g → s.paUnwritable (s.argA 1) 32 = false →
      exec .seghash s = .next ((s.poke (s.argA 1) (beBytes 32 g.hash.toNat)).cmdEnd 0 0)) ∧
    (∀ (s : State) (ps : List SegPage), s.running 0x01 = true → (∀ e ∈ s.segs, e.2.ok = true) → s.segs.length < 4096 →
      s.paUnwritable (s.argA 3) 64 = false → segIllFormed (sectionOf (s.argA 0 / 2 ^ 16 % 4)) (s.argA 1) (s.argA 2) = false →
      (bit (s.argA 0) 20 = true ∨
        ∀ k, k < ceilDiv (s.argA 2) 4096 → s.walkStalls none (s.argA 0 % 16384) (s.argA 1 + 4096 * k) = false) →
      s.segPages (s.argA 0 % 16384) (bit (s.argA 0) 20) (ceilDiv (s.argA 2) 4096) (s.argA 1) = some ps →
      ∀ id, pickFree 4096 (s.segs.map (·.1)) (s.segs.length + 1) (Config.freeValue s.fresh).toNat = some id →
        ∃ (t : State) (g : Segment), exec .segreg s = .next t ∧ t = { s with segs := s.segs.put id g, fresh := s.fresh + 1 } ∧ g.ok = false ∧
          g.frames = ps.map (·.frame) ∧ g.pageVas = ps.map (·.va) ∧ g.base.toNat = s.argA 1 % 2 ^ 64 ∧ g.len = s.argA 2 ∧ g.mx = s.argA 0 % 16384) ∧
    (∀ (s : State), s.running 0x10 = true → s.argA 0 < 4096 → s.paFails (s.argA 1) 128 = false → arenaFault (s.peek (s.argA 1) 128) = none →
      (∀ x, s.arenas.find (s.argA 0) = some x → s.arenaInUse x = false) →
      exec .arset s = .next ((s.setArena (s.argA 0) (s.newArena (s.argA 0) (s.peek (s.argA 1) 128))).cmdEnd 0 0)) ∧
    (∀ (s : State) (x : Arena), s.arenas.find (s.argA 0) = some x →
      (s.running 0x11 = true → s.arenaInUse x = false →
        exec .ardel s = .next (({ s with arenas := s.arenas.erase (s.argA 0) } : State).cmdEnd 0 0)) ∧
      (s.running 0x13 = true → x.docs.contains (BitVec.ofNat 64 (s.argA 1)) = false → x.docs.length < 16384 →
        exec .docreg s = .next ((s.setArena (s.argA 0) { x with docs := BitVec.ofNat 64 (s.argA 1) :: x.docs }).cmdEnd 0 0)) ∧
      (s.running 0x14 = true → x.docs.contains (BitVec.ofNat 64 (s.argA 1)) = true →
        (∀ k ∈ s.kvs, k.op = 0x32 → k.d.arena = s.argA 0 → k.doch ≠ BitVec.ofNat 64 (s.argA 1)) →
        exec .docdel s = .next ((s.setArena (s.argA 0) { x with docs := x.docs.filter (· != BitVec.ofNat 64 (s.argA 1)) }).cmdEnd 0 0)) ∧
      (s.running 0x15 = true → 1 ≤ s.argA 1 → s.argA 1 ≤ 262144 → exec .ixevict s =
        .next ((s.evictIndex (s.argA 0) (min (s.argA 1) s.index.length) 0).1.cmdEnd 0
          (s.evictIndex (s.argA 0) (min (s.argA 1) s.index.length) 0).2))) ∧
    (∀ (s : State) (x : Arena) (v p : Nat), s.arenas.find (s.argA 0 % 4096) = some x → v = s.argA 0 / 2 ^ 12 % 2 ^ 16 → p = s.argA 0 / 2 ^ 28 % 2 ^ 12 →
      x.inside v p = true → x.pagePinned v p = false →
      (s.running 0x12 = true → s.argA 1 % 4096 = 0 → isCxl (s.argA 1) = true → s.populated (s.argA 1) = true →
        s.populated (s.argA 1 + 256 * x.recBytes - 1) = true →
        ((x.page v p).kind ≠ .loc → exec .pgout s = .next (s.cmdEnd 8 0)) ∧
        ((x.page v p).kind = .loc → (∃ i, i < ceilDiv (256 * x.recBytes) 4096 ∧ s.frameLocked (s.argA 1 / 4096 + i) = true) →
          exec .pgout s = .next (s.cmdEnd (BitVec.ofNat 64 (7 + 2 ^ 12)) 0)) ∧
        ((∀ i, i < ceilDiv (256 * x.recBytes) 4096 → s.frameLocked (s.argA 1 / 4096 + i) = false) → (x.page v p).kind = .loc →
          s.paUp (s.argA 1) (256 * x.recBytes) = true → s.hasTurn 9 15 (15 :: s.copyPathParts) = true →
          s.turnAt 15 (rangeResources (s.argA 1) (256 * x.recBytes)) = true → (x.pageRecs v p).any s.recBad = false →
        ∃ t : State, exec .pgout s = .next t ∧ t.arenas.find (s.argA 0 % 4096) = some (x.setKind v p (.tier (s.argA 1))) ∧ t.aperture.ran = true ∧
          t.aperture.status = 0 ∧ t.cores = s.cores)) ∧
      (s.running 0x16 = true → x.repair.find v = none → (x.page v p).pagingIn = false →
        ∃ (t : State) (y : Arena), exec .pgempty s = .next t ∧ t.arenas.find (s.argA 0 % 4096) = some y ∧ (y.page v p).kind = .empty ∧
          (y.page v p).vmask = 0 ∧ t.aperture.ran = true ∧ t.aperture.status = 0 ∧ SameMemory s t))

/-- The commands for flows, partitions, shutter tables, slots, keys, quotes and migration, and the end of a command: its aperture is free and its event
queued. -/
def Obligations.SystemCommands : Prop :=
  (∀ (s : State) (l : List (BitVec 320 × Nat)), l = AMap.get [] s.flows (flowBucket s.flowArg) →
      (s.running 0x20 = true → s.argA 0 < 16384 → s.flowArg.toNat / 2 ^ 8 % 2 ^ 24 = 0 → (∀ e ∈ l, e.1 ≠ s.flowArg) → l.length < 4 →
        ∃ t : State, exec .flowset s = .next t ∧ t.flowFind s.flowArg = some (s.argA 0) ∧ t.aperture.status = 0 ∧ SameMemory s t) ∧
      (s.running 0x21 = true → (∃ e ∈ l, e.1 = s.flowArg) →
        ∃ t : State, exec .flowdel s = .next t ∧ t.flowFind s.flowArg = none ∧ t.aperture.status = 0 ∧ SameMemory s t)) ∧
    (∀ (s : State) (b : List Byte), s.running 0x30 = true → s.argA 0 < 16 → s.paFails (s.argA 1) 56 = false → b = s.peek (s.argA 1) 56 → partFault b = none →
      (∀ e ∈ s.parts, e.1 ≠ s.argA 0 → e.2.active = true →
        e.2.cola &&& BitVec.ofNat 64 (fieldLe b 0x10 8) = 0 ∧ e.2.colb &&& BitVec.ofNat 64 (fieldLe b 0x18 8) = 0) →
      ∃ t : State, exec .partset s = .next t ∧ (t.part (s.argA 0)).active = (fieldLe b 0 8 == 1) ∧
        (t.part (s.argA 0)).cola = BitVec.ofNat 64 (fieldLe b 0x10 8) ∧ (t.part (s.argA 0)).colb = BitVec.ofNat 64 (fieldLe b 0x18 8) ∧
        (t.part (s.argA 0)).s2root = BitVec.ofNat 64 (fieldLe b 8 8) ∧ (∀ p, p ≠ s.argA 0 → t.part p = s.part p) ∧ t.aperture.status = 0 ∧
        (fieldLe b 0x22 2 = 1 → (s.part (s.argA 0)).dlog = false →
          ∀ e ∈ s.arenasOf (s.argA 0), ∀ y, t.arenas.find e.1 = some y → y.moved.isSome = true ∧ ∀ g ∈ y.pages, g.2.dirty = false)) ∧
    (∀ (s : State), s.running 0x31 = true → s.argA 0 < 25 → s.paFails (s.argA 1) 256 = false →
      (∀ i, i < 64 → fieldLe (s.peek (s.argA 1) 256) (4 * i) 4 / 2 ^ 4 % 2 ^ 27 = 0) →
      ∀ l : List (BitVec 32), l = (List.range 64).map (fun i => BitVec.ofNat 32 (fieldLe (s.peek (s.argA 1) 256) (4 * i) 4)) →
      exec .shtset s = .next (({ s.settleShut with shutPend := s.settleShut.shutPend.put (s.argA 0) (l, s.shutFrom (s.argA 2)) } : State).cmdEnd 0 0)) ∧
    (∀ (s : State), s.running 0x32 = true → s.paUnwritable (s.argA 1) 64 = false → exec .slotrd s =
        .next ((s.poke (s.argA 1) ((List.range 16).flatMap fun k => leBytes 4
          (AMap.get MullSlot.reset s.mull (16 * (64 * (s.argA 0 / 2 ^ 8 % 2) + s.argA 0 % 2 ^ 6) + k)).word)).cmdEnd 0 0)) ∧
    (∀ (s : State), s.running 0x40 = true → s.argA 0 < 2 ^ 16 → s.paFails (s.argA 1) 64 = false → exec .vkset s =
        .next (({ s with vkeys := s.vkeys.put (s.argA 0) (BitVec.ofNat 512 (beNat (s.peek (s.argA 1) 64))) } : State).cmdEnd 0 0)) ∧
    (∀ (s : State), s.running 0x41 = true → s.argA 0 < 16384 → s.paFails (s.argA 1) 32 = false → s.paUnwritable (s.argA 2) 192 = false →
      ∃ (t : State) (sig : List Byte), exec .quote s = .next t ∧ t.aperture.status = 0 ∧ t.aperture.ran = true ∧ t.fresh = s.fresh + 1 ∧ sig.length = 64 ∧
        t.mem = (({ s with fresh := s.fresh + 1 } : State).poke (s.argA 2) (s.quoteBody (s.argA 0) (s.peek (s.argA 1) 32) ++ sig)).mem) ∧
    (∀ (s : State) (p : Nat), s.migPart = some p →
      (s.running 0x33 = true → (s.part p).paused = false → (s.part p).pausing = false →
        exec .ppause s = .next ((s.arenasRound p).setPart p { s.part p with pausing := true })) ∧
      (s.running 0x34 = true → (s.part p).paused = true → s.mxsOf p = [] → (s.part p).heldMsgs = [] →
        exec .presume s = .next ((s.setPart p { s.part p with paused := false, imported := false, heldMsgs := [], forwarding := false }).cmdEnd 0 0)) ∧
      (s.running 0x35 = true → (s.part p).paused = true → s.mxsOf p = [] → s.paUp (s.argA 1) (Config.migLength s.fresh) = true → exec .pexport s = .next
        (if s.paUnwritable (s.argA 1) (Config.migLength s.fresh) then s.cmdEnd (BitVec.ofNat 64 (7 + 2 ^ 12)) 0
         else (({ s with fresh := s.fresh + 1, exports := s.migImage p :: s.exports } : State).poke (s.argA 1) (migBytes s.fresh)).cmdEnd 0 0)) ∧
      ∀ im, im = s.imageAt (s.argA 1) → s.running 0x36 = true → s.paUp (s.argA 1) (Config.migLength im.num) = true →
        ∃ t : State, exec .pimport s = .next t ∧ SameMemory s t ∧
          if s.paFails (s.argA 1) (Config.migLength im.num) then t = s.cmdEnd (BitVec.ofNat 64 (7 + 2 ^ 12)) 0
          else if (∃ e ∈ im.mxs, (s.mx e.1).st ≠ .free) ∨ ∃ e ∈ im.arenas, (s.arenas.find e.1).isSome = true then t = s.cmdEnd 3 0
          else (t.part p).paused = true ∧ (t.part p).imported = true ∧ (t.part p).s2root = im.s2root ∧ t.attn = im.attnOver s.attn ∧
            t.copies.length = s.copies.length + im.copies.length ∧ t.reqs.length = s.reqs.length + im.lost.length ∧
            t.aperture.status = 0) ∧
    (∀ (s : State), s.aperture.busy = true → s.aperture.ran = false → s.cmdArg 0 ∉ assignedCodes → ∃ t : State, exec .cmddone s = .next t ∧
      t.aperture.busy = false ∧ t.aperture.status = 1 ∧ SameMemory s t) ∧
    ∀ (s : State), s.aperture.busy = true → s.aperture.ran = true → s.events.length < 1024 → ∃ t : State, exec .cmddone s = .next t ∧
      t.aperture = { s.aperture with busy := false, ran := false } ∧ t.events = s.events ++ [{ code := 0x82, mx := 0, n := s.eventCount }] ∧
      SameMemory s t

/-- INSTALL words: a fault of the descriptor's checks; an operation that its descriptor, the segment or the space refuses ends at its issue with its
record, a RELEASE with a reference less, never below the pending counts (log 62); an accepted one is pending under its tag. Its source read ends in a record of a mismatch, or leaves it to be committed. -/
def Obligations.Installs : Prop :=
  (∀ (s : State) (q : SeqId) (y : Sync) (cs : Cs) (ad : BitVec 4) (tag : BitVec 6) (i : Instr), s.cur = .seq q →
      (i = .install y cs ad tag ∨ i = .installQuery y cs ad tag ∨ i = .installRelease y cs ad tag) →
      (∀ f, s.installCheck ad = .error f → exec i s = .next (s.raise f)) ∧
      ∀ l cp, s.installCheck ad = .ok (l, cp) →
        (∀ o, installFault l = some o → exec i s =
          .next (s.installNow (s.installOf cs tag l cp) { status := 7, op := fieldLe l 0 1, reason := o } y)) ∧
        (installFault l = none → fieldLe l 0 1 ≠ 0 → fieldLe l 2 2 ≠ 0xFFFF →
          (s.segFor s.myMx (fieldLe l 2 2) = none → exec i s =
            .next (s.installNow (s.installOf cs tag l cp) { status := 7, op := fieldLe l 0 1, reason := 2 } y)) ∧
          ∀ w, s.segFor s.myMx (fieldLe l 2 2) = some w →
            (fieldLe l 0 1 = 1 → exec i s = .next (s.installNow (s.installOf cs tag l cp)
              (({ status := 0, op := 1 } : InstallDone).ofSeg (fieldLe l 2 2) w) y)) ∧
            (fieldLe l 0 1 = 2 → exec i s = .next ((s.releaseSeg (fieldLe l 2 2)).installNow (s.installOf cs tag l cp)
              (({ status := 0, op := 2 } : InstallDone).ofSeg (fieldLe l 2 2)
                { w with refs := max (s.pendingRefs (fieldLe l 2 2)) (w.refs - 1) }) y))) ∧
        (installFault l = none → fieldLe l 0 1 = 0 → ∀ ps,
          s.translateRows (some q.core) s.myMx .read 0 (fieldLe l 4 4 * extBytes) [(0, fieldLe l 8 8)] [] = .ok ps →
          (∀ n w, s.segWithHash s.myMx (fieldLe l 1 1 % 4) (BitVec.ofNat 256 (beNat (sliceBytes l 0x20 32))) = some (n, w) →
            ∃ (t : State) (j : Install), exec i s = .next t ∧ t.installs = s.installs ++ [j] ∧ j.share = some n ∧ j.tag = tag.toNat ∧
              t.wsegs = s.wsegs.put n { w with refs := w.refs + 1 } ∧
              (t.strm q).tagCount tag.toNat = (s.strm q).tagCount tag.toNat + 1 ∧ SameMemory s t) ∧
          (s.segWithHash s.myMx (fieldLe l 1 1 % 4) (BitVec.ofNat 256 (beNat (sliceBytes l 0x20 32))) = none →
            (s.reserve (fieldLe l 4 4) = none → exec i s =
              .next (s.installNow { s.installOf cs tag l cp with pages := ps } { status := 2, op := 0 } y)) ∧
            ∀ n fpa, s.reserve (fieldLe l 4 4) = some (n, fpa) →
              (62259 < s.devUseAfter (fieldLe l 4 4 * extBytes) → exec i s =
                .next (s.installNow { s.installOf cs tag l cp with pages := ps } { status := 3, op := 0 } y)) ∧
              (s.devUseAfter (fieldLe l 4 4 * extBytes) ≤ 62259 → ∃ (t : State) (j : Install), exec i s = .next t ∧
                t.installs = s.installs ++ [j] ∧ j.share = none ∧ j.wsn = n ∧ j.fpa = fpa ∧ j.lenu = fieldLe l 4 4 ∧ j.tag = tag.toNat ∧
                t.wsegs = s.wsegs ∧ t.fresh = s.fresh + 2 ∧ (t.strm q).tagCount tag.toNat = (s.strm q).tagCount tag.toNat + 1 ∧
                SameMemory s t)))) ∧
    (∀ (s u : State) (id : Nat) (i j : Install) (l : List Byte), s.installs.find? (fun i => i.id == id) = some i → i.abort = 0 → i.readDone = false →
      s.recordOpen i = true → s.sourceOpen i = true → u = s.touchInstall i → u.installSource i = .ok l →
      (∀ n, i.share = some n → j = { i with readDone := true, data := l } →
        (BitVec.ofNat 256 (sm3 l) = i.hash → exec (.installSourceReadDone id) s =
          .next ((u.setInstall j).updRef i.ref fun x => x.tagDone i.tag)) ∧
        (BitVec.ofNat 256 (sm3 l) ≠ i.hash → exec (.installSourceReadDone id) s =
          .next (((u.setInstall j).updRef i.ref fun x => x.tagDone i.tag).failInstall j 4 0))) ∧
      (∀ t ps failed, i.share = none → u.programAll [] false (extentKeys i.fpa i.lenu) = .ok t ps failed →
        j = { i with readDone := true, data := l, placed := ps, bytes := i.lenu * extBytes, relocated := failed } →
        (BitVec.ofNat 256 (sm3 l) = i.hash → exec (.installSourceReadDone id) s =
          .next ((t.setInstall j).updRef i.ref fun x => x.tagDone i.tag)) ∧
        (BitVec.ofNat 256 (sm3 l) ≠ i.hash → exec (.installSourceReadDone id) s =
          .next (((t.setInstall j).updRef i.ref fun x => x.tagDone i.tag).failInstall j 4 0))) ∧
      ∀ t ps, i.share = none → u.programAll [] false (extentKeys i.fpa i.lenu) = .noSpare t ps →
        j = { i with readDone := true, placed := ps, bytes := t.devw - u.devw } → exec (.installSourceReadDone id) s =
          .next (((t.setInstall j).updRef i.ref fun x => x.tagDone i.tag).failInstall j 5 1)) ∧
    (∀ (s : State) (id : Nat) (i : Install), s.installs.find? (fun i => i.id == id) = some i → i.abort = 0 → i.readDone = true →
      s.recordOpen i = true → i.share = none →
      (s.verifyFail ≠ 0 → exec (.installCommit id) s = .next ({ s with verifyFail := s.verifyFail - 1 }.failInstall i 5 2)) ∧
      (s.verifyFail = 0 → s.segWithHash i.ref.mx i.iscope i.hash = none →
        ∃ (t : State) (w : WSeg), exec (.installCommit id) s = .next t ∧ t.wsegs.find i.wsn = some w ∧ w.hash = i.hash ∧ w.refs = 1 ∧
          w.fpa = i.fpa ∧ w.lenu = i.lenu ∧ w.scope = i.iscope ∧ ∀ x ∈ t.installs, x.id ≠ id)) ∧
    ∀ (s : State) (id n r : Nat) (i : Install) (w : WSeg), s.installs.find? (fun i => i.id == id) = some i → i.abort = 0 → i.readDone = true →
      s.recordOpen i = true → s.rewriteWaits i w = false →
      ((i.share = some n ∧ s.wsegs.find n = some w ∧ r = w.refs) ∨
        (i.share = none ∧ s.verifyFail = 0 ∧ s.segWithHash i.ref.mx i.iscope i.hash = some (n, w) ∧ r = w.refs + 1)) →
      (w.lost = [] → ∃ t : State, exec (.installCommit id) s = .next t ∧ t.wsegs.find n = some { w with refs := r } ∧
        (∀ k, k ≠ n → t.wsegs.find k = s.wsegs.find k) ∧ ∀ x ∈ t.installs, x.id ≠ id) ∧
      (w.lost ≠ [] →
        (∀ t ps, s.programAll [] false w.lostKeys = .noSpare t ps → exec (.installCommit id) s =
          .next ((t.freePages ps).failInstall { i with bytes := i.bytes + (t.devw - s.devw) } 5 1)) ∧
        ∀ u ps failed, s.programAll [] false w.lostKeys = .ok u ps failed → s.verifyFail = 0 →
          ∃ t : State, exec (.installCommit id) s = .next t ∧ t.wsegs.find n = some { w with
            refs := r, lost := [], segw := w.segw + ps.length * pageBytes, segrfr := w.segrfr + w.lost.length } ∧
            (∀ k, k ≠ n → t.wsegs.find k = s.wsegs.find k) ∧ ∀ x ∈ t.installs, x.id ≠ id)

/-- Tiers and flash: an exchange freezes two frames of one size in different tiers, and its commit changes both leaves; a block read 500,000 times is
refreshed, with erase counts more than 200 apart the least-erased block that holds data moves into the most-erased free one; the staging cache takes a
clean extent within its partition's share and turn; peers are asked, in a slot of the system partition, for what flash cannot give, and a block none of
them gives is LOST, with a machine check; an extent a peer may have is sent to it. -/
def Obligations.TiersAndFlash : Prop :=
  (∀ (s : State) (p x y a b n : Nat) (oa ob : List Nat) (ea eb : Bool) (wa wb : Nat), s.exchange = none → s.leafAt x = some (a, n, ea, wa) → s.leafAt y = some (b, n, eb, wb) →
      (s.part p).active = true → a < hbmEnd → isCxl b = true → a ≠ b → s.anyLocked a n = false → s.anyLocked b n = false →
      s.frameLocked (x / 4096) = false → s.frameLocked (y / 4096) = false → s.engineOpen p [(x, 8), (y, 8)] = true →
      ∃ t : State, exec (.tierExchange p { leaf := x, owners := oa } { leaf := y, owners := ob }) s = .next t ∧ SameMemory s t ∧
        t.exchange = some { part := p, leafA := x, leafB := y, frameA := a, frameB := b, size := n, ownerA := oa, ownerB := ob }) ∧
    (∀ (s : State), s.exchange = none → exec .tierExchangeCommit s = .next s) ∧
    (∀ (s : State) (x : Exchange), s.exchange = some x → s.leafAt x.leafA = none → exec .tierExchangeCommit s = .next { s with exchange := none }) ∧
    (∀ (s : State) (x : Exchange) (na nb : Nat) (ba bb : Nat) (ea eb : Bool) (wa wb : Nat), s.exchange = some x → s.leafAt x.leafA = some (ba, na, ea, wa) →
      s.leafAt x.leafB = some (bb, nb, eb, wb) → s.exchangeHeld x = false → s.engineOpen x.part x.spans = true →
      ∃ t : State, exec .tierExchangeCommit s = .next t ∧ t.exchange = none ∧
        (∀ p ∈ replicas x.leafB x.size, t.readPa none p 8 = leBytes 8 (leafWith wb x.frameA)) ∧
        ∀ p ∈ replicas x.leafA x.size, (∀ q ∈ replicas x.leafB x.size, p + 8 ≤ q ∨ q + 8 ≤ p) →
          t.readPa none p 8 = leBytes 8 (leafWith wa x.frameB)) ∧
    (∀ leaf size : Nat, leaf % 8 = 0 → 4096 ≤ size → leaf ∈ replicas leaf size) ∧
    (∀ (s : State) (k b : Nat),
      ((s.eraseBlk k b).reads < 500000 → exec (.flashRefresh k b) s = .next s) ∧
      (500000 ≤ (s.eraseBlk k b).reads → s.extentsIn k b ≠ [] →
        exec (.flashRefresh k b) s = .next ((s.countRewrite (s.extentsIn k b) true).moveBlk k b none))) ∧
    (∀ (s : State) (k : Nat), s.wornUnevenly k = false → exec (.wearLevelMove k) s = .next s) ∧
    (∀ (s : State) (k b d : Nat) (x y : EraseBlk), (b, x) ∈ s.usedBlks k → s.extentsIn k b ≠ [] →
      (∀ e ∈ s.usedBlks k, s.extentsIn k e.1 ≠ [] → e = (b, x) ∨ x.erases < e.2.erases) →
      (d, y) ∈ s.usedBlks k → y.bad = false → y.next = 0 →
      (∀ e ∈ s.usedBlks k, e.2.bad = false → e.2.next = 0 → e = (d, y) ∨ e.2.erases < y.erases) → s.wornUnevenly k = true →
      exec (.wearLevelMove k) s = .next ((s.countRewrite (s.extentsIn k b) false).moveBlk k b (some d))) ∧
    (∀ (s : State) (e n : Nat) (w : WSeg), s.segOfExtent e = some (n, w) →
      (s.flashUp = true → s.badOf e = [] → s.staging.contains e = false → s.turnAt (s.stagePart e) flashResources = true →
        exec (.stagingFill e) s = .next (((s.countReads e).stage e).servedAll (s.stagePart e) flashResources)) ∧
      (s.peerDus ≠ [] → s.scaleOpen = false → ∀ d, exec (.flashRefetch e d) s = .next s) ∧
      (s.staging.contains e = true ∨ (s.flashUp = true ∧ s.badOf e = []) → ∀ d, exec (.flashRefetch e d) s = .next s) ∧
      (∀ l k, s.flashUp = false → s.staging.contains e = false → s.peerDus ≠ [] → s.scaleOpen = true → l.length = 65536 → k = e - (w.fpa - flashBase) / 65536 →
        w.checks.find k = some (checkValue l) →
        exec (.flashRefetch e (some l)) s =
          .next { (s.askPeers w k).stageFor e with mem := s.mem.writeN (flashBase + 65536 * e) l }) ∧
      (s.flashUp = true → s.badOf e ≠ [] → s.staging.contains e = false → (s.peerDus ≠ [] → s.scaleOpen = true) → s.events.length < 1024 →
        ∃ t : State, exec (.flashRefetch e none) s = .next t ∧ SameMemory s t ∧ t.mcsum.toNat % 256 = 5 ∧
          t.sent = s.peerDus.map (fun _ => (8, peerRequest w (e - (w.fpa - flashBase) / 65536))) ++ s.sent ∧
          (t.wsegs.find n).isSome = true ∧ (∀ b ∈ s.badOf e, b ∉ t.badBlks) ∧ ∀ b, b ∉ s.badOf e → (b ∈ t.badBlks ↔ b ∈ s.badBlks))) ∧
    (∀ (s : State) (e x : Nat), x ∈ s.staging → s.stageShare x ≠ s.stageShare e → x ∈ (s.stage e).staging) ∧
    ∀ (s u : State) (h : BitVec 256) (sc key e n : Nat) (w : WSeg), s.scaleOpen = true → s.turnAt 15 flashResources = true →
      u = (s.readBelow ((List.range 1024).map ((w.fpa + e * 65536) / 64 + ·))).servedAll 15 flashResources →
      s.wsegs.find? (fun x => x.2.hash == h && decide (e < x.2.lenu) && (x.2.scope == 2 || (x.2.scope == sc && x.2.key == key))) = some (n, w) →
      (∀ i, i < 16 → s.flashLost (w.fpa + e * 65536 + 4096 * i) = false) → (∀ i, i < 1024 → s.homeReady (w.fpa + e * 65536 + 64 * i) = true) →
      exec (.peerExtentRequest { hash := h, scope := sc, key := key } e) s =
        .next { u with sent := (9, s.peek (w.fpa + e * 65536) 65536) :: u.sent }

/-- Hardware events: machine checks, spares, readiness, throttling and its records, the mailbox, an expander that is down, and the two restarts: at a
device reset the columns of cores that fail their self-test, which ones the model leaves open (log 62), begin their retirement, or, where they are in no
use, are never brought into use; no spare column with a defective core takes a number (R13). -/
def Obligations.HardwareEvents : Prop :=
  (∀ (s : State) (k u : Nat) (d : BitVec 32), 1 ≤ k → k ≤ 8 → s.events.length < 1024 → ∃ t : State, exec (.mcheck k u d none) s = .next t ∧
      t.mcsum.toNat % 2 ^ 8 = k ∧ t.mcsum.toNat / 2 ^ 8 % 2 ^ 8 = u % 2 ^ 8 ∧ t.mcsum.toNat / 2 ^ 32 = d.toNat ∧ SameMemory s t ∧
      t.events.map (·.code) = s.events.map (·.code) ++ [0x81] ∧ AMap.get 0 t.mccnt k = AMap.get 0 s.mccnt k + 1) ∧
    (∀ (s : State) (k c p : Nat), s.retiring.contains (64 * k + c) = true → s.columnReleased k c = true → s.nextSpare k = some p →
      128 * k + p ∉ s.badCols ∧
      ∃ t : State, exec (.spareColumnActivation k c) s = .next t ∧ t.colmap.find (64 * k + c) = some p ∧ t.badCols = (128 * k + s.colPos k c) :: s.badCols ∧
        t.spareUsed (4 * k) = s.spareUsed (4 * k) + 1 ∧ (64 * k + c) ∉ t.retiring ∧ t.lostCols = s.lostCols ∧ t.mem = s.mem) ∧
    (∀ (s : State) (k c : Nat), s.retiring.contains (64 * k + c) = true → s.columnLosable k c = true → s.nextSpare k = none →
      ∃ t : State, exec (.spareColumnActivation k c) s = .next t ∧ (64 * k + c) ∈ t.lostCols ∧ (64 * k + c) ∉ t.retiring ∧ t.cores = s.cores ∧ t.mem = s.mem) ∧
    (∀ (s : State) (k r n c : Nat) (p : HbmPlace), (p = .row r ∧ n = 4 * k + 1 ∧ c = 512) ∨ (p = .channel r ∧ n = 4 * (64 + k) ∧ c = 1) →
      ((k, p) ∈ s.hbmMap ∨ c ≤ s.spareUsed n → exec (.hbmRemap k p) s = .next s) ∧
      ((k, p) ∉ s.hbmMap → s.spareUsed n < c → ∃ t : State, exec (.hbmRemap k p) s = .next t ∧
        t = { s with sparesUsed := t.sparesUsed, hbmMap := (k, p) :: s.hbmMap } ∧ t.spareUsed n = s.spareUsed n + 1 ∧
        ∀ j, j ≠ n → t.spareUsed j = s.spareUsed j)) ∧
    (∀ (s : State) (l n : Nat), l < 64 → s.spareUsed (4 * l + 2) = 0 → ∃ (t : State) (w : Word), exec (.linkLaneSwap l n) s = .next t ∧
      t.links.find l = some w ∧ t.spareUsed (4 * l + 2) = 1 ∧ SameMemory s t) ∧
    (∀ (s : State) (u : UnitId), unitExists u = true → ∃ t : State, exec (.unitReady u) s = .next t ∧ u ∈ t.ready ∧
      (∀ v, v ∈ t.ready ↔ v = u ∨ v ∈ s.ready) ∧ SameButThermals s t ∧
      (u ∉ s.ready → (∀ r ∈ s.thermals, s.thermalHome r ≠ some u) → SameMemory s t)) ∧
    (∀ (s : State) (k n : Nat) (x : BitVec 16) (e : SensorEvent), ∃ t : State, exec (.sensorThresholdCrossing k n x e) s = .next t ∧ SameButThermals s t ∧
      (∃ r l, t.thermals = l ++ r :: s.thermals ∧ r.sensor = BitVec.ofNat 16 n ∧ r.temp = x ∧ r.dclk = s.dclk ∧ r.seq = s.thermals.length ∧
        r.event = (match e with | .warmUp => 1 | .warmDown => 2 | .trip => 3)) ∧
      ((t.tier k).level = match e with
        | .trip => 7
        | .warmDown => (s.tier k).level
        | .warmUp => if (s.tier k).level < 7 ∧ s.mayStep k = true then (s.tier k).level + 1 else (s.tier k).level) ∧
      ((t.tier k).level ≠ (s.tier k).level → ∃ r r', t.thermals = r :: r' :: s.thermals ∧ r.event = 4 ∧ r.level = (t.tier k).level) ∧
      (e = .warmUp → (s.tier k).level < 7 → s.mayStep k = false → (t.tier k).due = (s.tier k).due + 1) ∧
      (n ∈ (t.tier k).hot ↔ e ≠ .warmDown ∨ (n ∈ (s.tier k).hot ∧ cooled n x = false))) ∧
    (∀ (s : State) (k : Nat) (m : ThrottleMove), ∃ t : State, exec (.throttleStep k m) s = .next t ∧ SameButThermals s t ∧
      ((t.tier k).level ≠ (s.tier k).level → ∃ r, t.thermals = r :: s.thermals ∧ r.event = 4 ∧ r.level = (t.tier k).level) ∧
      (s.mayStep k = false → (t.tier k).level = (s.tier k).level) ∧
      (s.mayStep k = true →
        (m = .up → (t.tier k).level = if 0 < (s.tier k).due ∧ (s.tier k).level < 7 then (s.tier k).level + 1 else (s.tier k).level) ∧
        ∀ reads, m = .down reads → (t.tier k).level =
          if ((tierSensors k ++ (s.tier k).hot).all fun j => reads.any fun r => r.1 == j && cooled j r.2) = true then (s.tier k).level - 1
          else (s.tier k).level)) ∧
    (∀ (s : State) (k n : Nat) (x : BitVec 16), ∃ t : State, exec (.thermalRecord k n x) s = .next t ∧ SameButThermals s t ∧
      ((s.tier k).level = 0 → t = s) ∧
      (0 < (s.tier k).level → n / 2 ^ 13 % 8 = k → s.periodicDone n = false →
        t.thermals = s.thermalOf k n x 0 :: s.thermals ∧
        ∀ g, s.thermalRing = some g → s.paUnwritable (thermalSlot g s.thermals.length) 32 = false →
          (∀ h, homeUnit (thermalSlot g s.thermals.length) = some h → h ∈ s.ready) →
          t.peek (thermalSlot g s.thermals.length) 32 = (s.thermalOf k n x 0).bytes)) ∧
    (∀ (s : State) (k n v : Nat) (x : BitVec 16), (s.thermalOf k n x v).dclk = s.dclk ∧ (s.thermalOf k n x v).sensor = BitVec.ofNat 16 n ∧
      (s.thermalOf k n x v).temp = x ∧ (s.thermalOf k n x v).event = v ∧ (s.thermalOf k n x v).level = (s.tier k).level ∧
      (s.thermalOf k n x v).seq = s.thermals.length ∧
      (∀ c m, sensorCore (n % 65536) = some c → s.boundOn c = some m → m < 16384 →
        (s.thermalOf k n x v).mxidx.toNat = 32768 + m ∧ (s.thermalOf k n x v).gen = (s.mx m).gen) ∧
      ((sensorCore (n % 65536)).bind s.boundOn = none → (s.thermalOf k n x v).mxidx = 0 ∧ (s.thermalOf k n x v).gen = 0)) ∧
    (∀ (s : State) (d : Word), s.events.length < 1024 → ∃ t : State, exec (.mbin d) s = .next t ∧ SameMemory s t ∧
      t.events = s.events ++ [{ code := 0x83, mx := 0, n := s.eventCount }]) ∧
    (∀ (s : State) (p : Nat), ∃ t : State, exec (.cxlExpanderDown p) s = .next t ∧ t = { s with cxlDown := t.cxlDown } ∧ (p < 4 → p ∈ t.cxlDown)) ∧
    (∀ (s : State), s.hk.phase = .ended → ∃ t : State, exec .firmwareRestart s = .next t ∧ t.hk = { Hk.reset with pc := Config.firmwareEntry } ∧
      t.events = s.events ∧ SameMemory s t ∧ t.mxs = s.mxs) ∧
    ∀ (s : State), ∃ t : State, exec .deviceReset s = .next t ∧ (s.installs = [] → ∀ c, t.core c = (s.core c).afterReset) ∧ t.mxs = State.reset.mxs ∧ t.events = [] ∧
      t.mem = (s.installs.foldl (fun (u : State) i => u.undoInstall i) s).mem ∧ (s.installs = [] → t.mem = s.mem) ∧
      (t.booted = false → s.installs = [] → t.retiring = s.retiring ∧ t.badCols = s.badCols) ∧
      (t.booted = true → ∀ k c, k < 1024 → k ∈ Config.failedCores s.fresh → s.installs = [] → t.colOf k = some c →
        (64 * (k / 512) + c) ∈ t.retiring) ∧
      (t.booted = true → ∀ k, k < 1024 → k ∈ Config.failedCores s.fresh → s.installs = [] → t.colOf k = none → physCol k ∈ t.badCols) ∧ t.booted = s.bootImage.isSome ∧ t.hk.ten = false ∧ t.dclk = 0 ∧
      (t.booted = true → t.hk = { Hk.reset with pc := Config.firmwareEntry }) ∧ (t.booted = false → t.hk.phase = .unbound)

/-- Accesses from outside: a write at an open, unlocked, ready place leaves its bytes there and is answered; a read is answered with the bytes; an address
out of the agent's range is refused, and nothing changes. A host access waits for a slot of the system partition on the host link; write-only MBIN reads
zero, and a write to read-only MBOUT is ignored; a read of MBOUT, which firmware writes, finds a free value (log 7). -/
def Obligations.OutsideAccesses : Prop :=
  ∀ (s : State) (pa : Nat) (l : List Byte) (n : Nat),
    (s.hostOpen = false → ∀ (p : HostPlace) (x : ExtAccess), exec (.hostAccess p x) s = .next s) ∧
    (s.hostOpen = true →
      (s.homesReady pa l.length = true → s.rangeLocked pa l.length = false →
        exec (.hostAccess (.hdm pa) (.write l)) s = .next
          (if hdmCovers pa l.length then ({ s.poke pa l with sent := (10, [0]) :: (s.poke pa l).sent } : State)
           else { s with sent := (10, [1]) :: s.sent })) ∧
      (s.homesReady pa n = true → s.badIn pa n = none →
        exec (.hostAccess (.hdm pa) (.read n)) s = .next
          (if hdmCovers pa n then ({ s.meets [(pa, n)] with sent := (10, 0 :: s.peek pa n) :: s.sent } : State)
           else { s with sent := (10, [1]) :: s.sent })) ∧
      (hbmEnd < pa + n → exec (.hostAccess (.hdm pa) (.read n)) s = .next { s with sent := (10, [1]) :: s.sent }) ∧
      exec (.hostAccess (.bar0 8) (.read 8)) s = .next { s with
        fresh := s.fresh + 1, mbout := Config.freeValue s.fresh, sent := (10, 0 :: leBytes 8 (Config.freeValue s.fresh).toNat) :: s.sent } ∧
      exec (.hostAccess (.bar0 0) (.read 8)) s = .next { s with sent := (10, [0, 0, 0, 0, 0, 0, 0, 0, 0]) :: s.sent } ∧
      (l.length = 8 → exec (.hostAccess (.bar0 8) (.write l)) s = .next { s with sent := (10, [0]) :: s.sent })) ∧
    (s.scaleOpen = false → ∀ x : ExtAccess, exec (.ualinkAccess pa x) s = .next s) ∧
    (s.scaleOpen = true → 0 < l.length → pa + l.length ≤ hbmEnd → s.homesReady pa l.length = true → s.rangeLocked pa l.length = false →
      s.turnAt 15 (rangeResources pa l.length) = true →
      exec (.ualinkAccess pa (.write l)) s = .next
        (({ s.poke pa l with sent := (11, [0]) :: (s.poke pa l).sent } : State).servedAll 15 (rangeResources pa l.length))) ∧
    (s.scaleOpen = true → 0 < n → pa + n ≤ hbmEnd → s.homesReady pa n = true → s.badIn pa n = none →
      s.turnAt 15 (rangeResources pa n) = true →
      exec (.ualinkAccess pa (.read n)) s =
        .next (({ s.meets [(pa, n)] with sent := (11, 0 :: s.peek pa n) :: s.sent } : State).servedAll 15 (rangeResources pa n))) ∧
    (s.scaleOpen = true → hbmEnd < pa + n → isCxl pa = false → exec (.ualinkAccess pa (.read n)) s = .next { s with sent := (11, [1]) :: s.sent })

/-! The whole machine -/

/-- Right after reset every memory of the device is in canonical form: addresses rise and no entry is zero; and the cached blocks and the pending shutter
tables are listed once each, by rising number. -/
def Obligations.ResetMemOk : Prop :=
  State.reset.memOk = true

/-- Every step keeps every memory of the device in canonical form, with the cached blocks and the pending shutter tables listed once each. -/
def Obligations.StepKeepsMemoryCanonical : Prop :=
  ∀ s t : State, s.memOk = true → step s = .next t → t.memOk = true
end

