-- ==== Sys2Proof/Laws/Flash.lean ====
section
/-! SUPPORT. What the shared operations of flash and of the staging cache may change: each equation says that every other field stands. -/

namespace Sys2Proof.Machine

theorem State.stage_frame (s : State) (e : Nat) :
    s.stage e = { s with staging := (s.stage e).staging, ahead := (s.stage e).ahead, stageBad := (s.stage e).stageBad } := by
  simp only [State.stage]
  split
  · rfl
  · split
    · rfl
    · split <;> rfl

theorem State.setEraseBlk_frame (s : State) (k b : Nat) (x : EraseBlk) : s.setEraseBlk k b x = { s with erase := (s.setEraseBlk k b x).erase } := rfl

theorem State.eraseIfEmpty_frame (s : State) (k b : Nat) : s.eraseIfEmpty k b = { s with erase := (s.eraseIfEmpty k b).erase } := by
  simp only [State.eraseIfEmpty]
  split <;> rfl

theorem State.programIn_frame (s : State) (k b : Nat) :
    (s.programIn k b).2 = { s with erase := (s.programIn k b).2.erase, devw := s.devw + pageBytes } := rfl

/-- Pages freed change the erase blocks alone. -/
theorem State.freePages_frame (l : List (Nat × Nat)) : ∀ s : State, s.freePages l = { s with erase := (s.freePages l).erase } := by
  induction l with
  | nil => exact fun _ => rfl
  | cons e r ih =>
    intro s
    have h : s.freePages (e :: r) = (s.eraseIfEmpty (e.1 % 4) (e.2 / pagesPerBlk)).freePages r := rfl
    rw [h, ih, State.eraseIfEmpty_frame]

/-- Pages entered in the map change it and the erase blocks alone. -/
theorem State.mapPages_frame (l : List (Nat × Nat)) (s : State) :
    s.mapPages l = { s with fmap := (s.mapPages l).fmap, erase := (s.mapPages l).erase } := by
  simp only [State.mapPages]
  rw [State.freePages_frame]

/-- The state that programming leaves. -/
def Programmed.state : Programmed → State
  | .ok t _ _ => t
  | .noSpare t _ => t

/-- Programming one page changes the erase blocks, DEVW, the failures to come and the spares alone. -/
theorem State.programPage_frame (key : Nat) (l : List (Nat × Nat)) : ∀ (n : Nat) (b : Bool) (s : State),
    ∃ t : State, (s.programPage key l n b).state = t ∧
      t = { s with erase := t.erase, devw := t.devw, progFail := t.progFail, flashSpare := t.flashSpare, sparesUsed := t.sparesUsed } := by
  intro n
  induction n with
  | zero => exact fun _ s => ⟨s, rfl, rfl⟩
  | succ n ih =>
    intro b s
    simp only [State.programPage]
    split
    · exact ⟨s, rfl, rfl⟩
    · split
      · exact ⟨_, rfl, rfl⟩
      · split
        · exact ⟨_, rfl, rfl⟩
        · obtain ⟨t, h1, h2⟩ := ih true _
          refine ⟨t, h1, ?_⟩
          rw [h2]
          rfl

/-- Programming pages in order likewise. -/
theorem State.programAll_frame (keys : List Nat) : ∀ (s : State) (l : List (Nat × Nat)) (b : Bool),
    ∃ t : State, (s.programAll l b keys).state = t ∧
      t = { s with erase := t.erase, devw := t.devw, progFail := t.progFail, flashSpare := t.flashSpare, sparesUsed := t.sparesUsed } := by
  induction keys with
  | nil => exact fun s _ _ => ⟨s, rfl, rfl⟩
  | cons k r ih =>
    intro s l b
    obtain ⟨t, h1, h2⟩ := State.programPage_frame k l (s.progFail + 1) b s
    simp only [State.programAll]
    split
    · next u l1 f e =>
      rw [e] at h1
      obtain ⟨v, g1, g2⟩ := ih u l1 f
      have hu : u = t := h1
      rw [← hu] at h2
      refine ⟨v, g1, g2.trans ?_⟩
      rw [h2]
    · next u l1 e =>
      rw [e] at h1
      exact ⟨t, h1, h2⟩

end Sys2Proof.Machine
end

