-- ==== Sys2Proof/Laws/Maps.lean ====
section
/-! SUPPORT. Sparse maps and memory: a read after a write to the same place gives what was written, a write leaves every other place
alone, and every operation keeps the canonical form. -/

namespace Sys2Proof.Machine

/-! Maps -/

@[simp] theorem AMap.get_put_self {β : Type} (d v : β) (m : AMap β) (k : Nat) : AMap.get d (m.put k v) k = v := by
  induction m with
  | nil => simp [AMap.put, AMap.get]
  | cons e r ih =>
    obtain ⟨k', v'⟩ := e
    simp only [AMap.put]
    split
    · simp [AMap.get]
    · split
      · simp [AMap.get]
      · simp [AMap.get, *]

theorem AMap.get_put_ne {β : Type} (d v : β) (m : AMap β) {k j : Nat} (h : j ≠ k) : AMap.get d (m.put k v) j = AMap.get d m j := by
  induction m with
  | nil => simp [AMap.put, AMap.get, h]
  | cons e r ih =>
    obtain ⟨k', v'⟩ := e
    simp only [AMap.put]
    split
    · simp [AMap.get, h]
    · split
      · subst_vars; simp [AMap.get, h]
      · simp [AMap.get, ih]

@[simp] theorem AMap.get_erase_self {β : Type} (d : β) (m : AMap β) (k : Nat) : AMap.get d (m.erase k) k = d := by
  induction m with
  | nil => rfl
  | cons e r ih =>
    obtain ⟨k', v'⟩ := e
    simp only [AMap.erase]
    split
    · exact ih
    · simp [AMap.get, *]

theorem AMap.get_erase_ne {β : Type} (d : β) (m : AMap β) {k j : Nat} (h : j ≠ k) : AMap.get d (m.erase k) j = AMap.get d m j := by
  induction m with
  | nil => rfl
  | cons e r ih =>
    obtain ⟨k', v'⟩ := e
    simp only [AMap.erase]
    split
    · subst_vars; simp [AMap.get, h, ih]
    · simp [AMap.get, ih]

@[simp] theorem AMap.get_set_self {β : Type} [DecidableEq β] (d v : β) (m : AMap β) (k : Nat) : AMap.get d (m.set d k v) k = v := by
  unfold AMap.set; split <;> simp [*]

theorem AMap.get_set_ne {β : Type} [DecidableEq β] (d v : β) (m : AMap β) {k j : Nat} (h : j ≠ k) :
    AMap.get d (m.set d k v) j = AMap.get d m j := by
  unfold AMap.set; split
  · exact AMap.get_erase_ne d m h
  · exact AMap.get_put_ne d v m h

@[simp] theorem AMap.find_put_self {β : Type} (v : β) (m : AMap β) (k : Nat) : AMap.find (m.put k v) k = some v := by
  induction m with
  | nil => simp [AMap.put, AMap.find]
  | cons e r ih =>
    obtain ⟨k', v'⟩ := e
    simp only [AMap.put]
    split
    · simp [AMap.find]
    · split
      · simp [AMap.find]
      · simp [AMap.find, *]

theorem AMap.find_put_ne {β : Type} (v : β) (m : AMap β) {k j : Nat} (h : j ≠ k) : AMap.find (m.put k v) j = AMap.find m j := by
  induction m with
  | nil => simp [AMap.put, AMap.find, h]
  | cons e r ih =>
    obtain ⟨k', v'⟩ := e
    simp only [AMap.put]
    split
    · simp [AMap.find, h]
    · split
      · subst_vars; simp [AMap.find, h]
      · simp [AMap.find, ih]

@[simp] theorem AMap.find_erase_self {β : Type} (m : AMap β) (k : Nat) : AMap.find (m.erase k) k = none := by
  induction m with
  | nil => rfl
  | cons e r ih =>
    obtain ⟨k', v'⟩ := e
    simp only [AMap.erase]
    split
    · exact ih
    · simp [AMap.find, *]

theorem AMap.find_erase_ne {β : Type} (m : AMap β) {k j : Nat} (h : j ≠ k) : AMap.find (m.erase k) j = AMap.find m j := by
  induction m with
  | nil => rfl
  | cons e r ih =>
    obtain ⟨k', v'⟩ := e
    simp only [AMap.erase]
    split
    · subst_vars; simp [AMap.find, h, ih]
    · simp [AMap.find, ih]

/-- `get` in terms of `find`. -/
theorem AMap.get_eq_find {β : Type} (d : β) (m : AMap β) (k : Nat) : AMap.get d m k = (m.find k).getD d := by
  induction m with
  | nil => rfl
  | cons e r ih =>
    obtain ⟨k', v'⟩ := e
    by_cases h : k = k' <;> simp [AMap.get, AMap.find, h, ih]

/-! Rising keys -/

theorem AMap.sortedFrom_mono {β : Type} (m : AMap β) {a b : Nat} (h : a ≤ b) (hs : AMap.sortedFrom b m = true) :
    AMap.sortedFrom a m = true := by
  cases m with
  | nil => rfl
  | cons e r =>
    obtain ⟨k, v⟩ := e
    simp only [AMap.sortedFrom, Bool.and_eq_true, decide_eq_true_eq] at hs ⊢
    exact ⟨by omega, hs.2⟩

theorem AMap.sortedFrom_put {β : Type} (m : AMap β) (lo k : Nat) (v : β) (hl : lo ≤ k) (hs : AMap.sortedFrom lo m = true) :
    AMap.sortedFrom lo (m.put k v) = true := by
  induction m generalizing lo with
  | nil => simp [AMap.put, AMap.sortedFrom, hl]
  | cons e r ih =>
    obtain ⟨k', v'⟩ := e
    simp only [AMap.sortedFrom, Bool.and_eq_true, decide_eq_true_eq] at hs
    simp only [AMap.put]
    split
    · simp only [AMap.sortedFrom, Bool.and_eq_true, decide_eq_true_eq]
      exact ⟨hl, by omega, hs.2⟩
    · split
      · subst_vars
        simp only [AMap.sortedFrom, Bool.and_eq_true, decide_eq_true_eq]
        exact hs
      · simp only [AMap.sortedFrom, Bool.and_eq_true, decide_eq_true_eq]
        exact ⟨hs.1, ih (k' + 1) (by omega) hs.2⟩

theorem AMap.sortedFrom_erase {β : Type} (m : AMap β) (lo k : Nat) (hs : AMap.sortedFrom lo m = true) :
    AMap.sortedFrom lo (m.erase k) = true := by
  induction m generalizing lo with
  | nil => rfl
  | cons e r ih =>
    obtain ⟨k', v'⟩ := e
    simp only [AMap.sortedFrom, Bool.and_eq_true, decide_eq_true_eq] at hs
    simp only [AMap.erase]
    split
    · exact ih lo (AMap.sortedFrom_mono r (by omega) hs.2)
    · simp only [AMap.sortedFrom, Bool.and_eq_true, decide_eq_true_eq]
      exact ⟨hs.1, ih (k' + 1) hs.2⟩

theorem AMap.mem_put {β : Type} (m : AMap β) (k : Nat) (v : β) {e : Nat × β} (h : e ∈ m.put k v) : e = (k, v) ∨ e ∈ m := by
  induction m with
  | nil => simpa [AMap.put] using h
  | cons f r ih =>
    obtain ⟨k', v'⟩ := f
    simp only [AMap.put] at h
    split at h
    · simpa using h
    · split at h
      · simp only [List.mem_cons] at h ⊢
        rcases h with h | h
        · exact .inl h
        · exact .inr (.inr h)
      · simp only [List.mem_cons] at h ⊢
        rcases h with h | h
        · exact .inr (.inl h)
        · rcases ih h with h | h
          · exact .inl h
          · exact .inr (.inr h)

theorem AMap.mem_erase {β : Type} (m : AMap β) (k : Nat) {e : Nat × β} (h : e ∈ m.erase k) : e ∈ m := by
  induction m with
  | nil => exact h
  | cons f r ih =>
    obtain ⟨k', v'⟩ := f
    simp only [AMap.erase] at h
    split at h
    · exact List.mem_cons_of_mem _ (ih h)
    · simp only [List.mem_cons] at h ⊢
      rcases h with h | h
      · exact .inl h
      · exact .inr (ih h)

/-- Writing keeps the canonical form. -/
theorem AMap.wf_set {β : Type} [DecidableEq β] (d v : β) (m : AMap β) (k : Nat) (h : AMap.wf d m = true) :
    AMap.wf d (m.set d k v) = true := by
  simp only [AMap.wf, Bool.and_eq_true, List.all_eq_true, decide_eq_true_eq] at h ⊢
  unfold AMap.set
  split
  · exact ⟨AMap.sortedFrom_erase m 0 k h.1, fun e he => h.2 e (AMap.mem_erase m k he)⟩
  · refine ⟨AMap.sortedFrom_put m 0 k v (Nat.zero_le k) h.1, fun e he => ?_⟩
    rcases AMap.mem_put m k v he with rfl | he
    · assumption
    · exact h.2 e he

/-! Memory -/

@[simp] theorem Memory.read_write_self (m : Memory) (a : Nat) (b : Byte) : (m.write a b).read a = b := AMap.get_set_self 0 b m a

theorem Memory.read_write_ne (m : Memory) (b : Byte) {a c : Nat} (h : c ≠ a) : (m.write a b).read c = m.read c :=
  AMap.get_set_ne 0 b m h

theorem Memory.wf_write (m : Memory) (a : Nat) (b : Byte) (h : m.wf = true) : (m.write a b).wf = true := AMap.wf_set 0 b m a h

theorem Memory.wf_writeN (m : Memory) (a : Nat) (l : List Byte) (h : m.wf = true) : (m.writeN a l).wf = true := by
  induction l generalizing m a with
  | nil => exact h
  | cons b r ih => exact ih _ _ (Memory.wf_write m a b h)

/-- Bytes outside a write read as before. -/
theorem Memory.read_writeN_out (m : Memory) (a : Nat) (l : List Byte) {c : Nat} (h : c < a ∨ a + l.length ≤ c) :
    (m.writeN a l).read c = m.read c := by
  induction l generalizing m a with
  | nil => rfl
  | cons b r ih =>
    have hc : c ≠ a := by simp only [List.length_cons] at h; omega
    rw [Memory.writeN, ih (m.write a b) (a + 1) (by simp only [List.length_cons] at h; omega), Memory.read_write_ne m b hc]

/-- Bytes inside a write read as written. -/
theorem Memory.read_writeN_in (m : Memory) (a : Nat) (l : List Byte) (k : Nat) (h : k < l.length) :
    (m.writeN a l).read (a + k) = l[k] := by
  induction l generalizing m a k with
  | nil => simp at h
  | cons b r ih =>
    cases k with
    | zero => rw [Memory.writeN, Memory.read_writeN_out _ _ _ (.inl (by omega))]; simp
    | succ j =>
      rw [Memory.writeN, show a + (j + 1) = (a + 1) + j by omega, ih (m.write a b) (a + 1) j (by simpa using h)]
      simp

@[simp] theorem Memory.length_readN (m : Memory) (a n : Nat) : (m.readN a n).length = n := by
  induction n generalizing a with
  | zero => rfl
  | succ n ih => simp [Memory.readN, ih]

theorem Memory.getElem_readN (m : Memory) (a n k : Nat) (h : k < (m.readN a n).length) : (m.readN a n)[k] = m.read (a + k) := by
  induction n generalizing a k with
  | zero => simp [Memory.readN] at h
  | succ n ih =>
    cases k with
    | zero => rfl
    | succ j =>
      simp only [Memory.readN, List.getElem_cons_succ]
      rw [ih (a + 1) j (by simpa [Memory.readN] using h), show a + 1 + j = a + (j + 1) by omega]

/-- A range read after it has been written. -/
theorem Memory.readN_writeN_self (m : Memory) (a : Nat) (l : List Byte) : (m.writeN a l).readN a l.length = l := by
  apply List.ext_getElem
  · simp
  · intro k h1 h2
    rw [Memory.getElem_readN, Memory.read_writeN_in m a l k h2]

/-- A range read that a write does not meet. -/
theorem Memory.readN_writeN_out (m : Memory) (a c n : Nat) (l : List Byte) (h : c + n ≤ a ∨ a + l.length ≤ c) :
    (m.writeN a l).readN c n = m.readN c n := by
  apply List.ext_getElem
  · simp
  · intro k h1 h2
    simp only [Memory.length_readN] at h1
    rw [Memory.getElem_readN, Memory.getElem_readN, Memory.read_writeN_out m a l (by omega)]

end Sys2Proof.Machine
end

