-- ==== Sys2Proof/Laws/State.lean ====
section
/-! SUPPORT. What each update of the state leaves: one lemma per field per update. -/

namespace Sys2Proof.Machine

/-! setCore -/

@[simp] theorem State.setCore_cur (s : State) (c : Nat) (x : Core) : (s.setCore c x).cur = s.cur := rfl
@[simp] theorem State.setCore_agenda (s : State) (c : Nat) (x : Core) : (s.setCore c x).agenda = s.agenda := rfl
@[simp] theorem State.setCore_turn (s : State) (c : Nat) (x : Core) : (s.setCore c x).turn = s.turn := rfl
@[simp] theorem State.setCore_fresh (s : State) (c : Nat) (x : Core) : (s.setCore c x).fresh = s.fresh := rfl
@[simp] theorem State.setCore_nextId (s : State) (c : Nat) (x : Core) : (s.setCore c x).nextId = s.nextId := rfl
@[simp] theorem State.setCore_dclk (s : State) (c : Nat) (x : Core) : (s.setCore c x).dclk = s.dclk := rfl
@[simp] theorem State.setCore_ltb (s : State) (c : Nat) (x : Core) : (s.setCore c x).ltb = s.ltb := rfl
@[simp] theorem State.setCore_booted (s : State) (c : Nat) (x : Core) : (s.setCore c x).booted = s.booted := rfl
@[simp] theorem State.setCore_fwImage (s : State) (c : Nat) (x : Core) : (s.setCore c x).fwImage = s.fwImage := rfl
@[simp] theorem State.setCore_fwHash (s : State) (c : Nat) (x : Core) : (s.setCore c x).fwHash = s.fwHash := rfl
@[simp] theorem State.setCore_mem (s : State) (c : Nat) (x : Core) : (s.setCore c x).mem = s.mem := rfl
@[simp] theorem State.setCore_attn (s : State) (c : Nat) (x : Core) : (s.setCore c x).attn = s.attn := rfl
@[simp] theorem State.setCore_badBlks (s : State) (c : Nat) (x : Core) : (s.setCore c x).badBlks = s.badBlks := rfl
@[simp] theorem State.setCore_attnBad (s : State) (c : Nat) (x : Core) : (s.setCore c x).attnBad = s.attnBad := rfl
@[simp] theorem State.setCore_weak (s : State) (c : Nat) (x : Core) : (s.setCore c x).weak = s.weak := rfl
@[simp] theorem State.setCore_corrected (s : State) (c : Nat) (x : Core) : (s.setCore c x).corrected = s.corrected := rfl
@[simp] theorem State.setCore_llc (s : State) (c : Nat) (x : Core) : (s.setCore c x).llc = s.llc := rfl
@[simp] theorem State.setCore_llcBad (s : State) (c : Nat) (x : Core) : (s.setCore c x).llcBad = s.llcBad := rfl
@[simp] theorem State.setCore_stageBad (s : State) (c : Nat) (x : Core) : (s.setCore c x).stageBad = s.stageBad := rfl
@[simp] theorem State.setCore_staging (s : State) (c : Nat) (x : Core) : (s.setCore c x).staging = s.staging := rfl
@[simp] theorem State.setCore_ahead (s : State) (c : Nat) (x : Core) : (s.setCore c x).ahead = s.ahead := rfl
@[simp] theorem State.setCore_quotas (s : State) (c : Nat) (x : Core) : (s.setCore c x).quotas = s.quotas := rfl
@[simp] theorem State.setCore_walks (s : State) (c : Nat) (x : Core) : (s.setCore c x).walks = s.walks := rfl
@[simp] theorem State.setCore_turns (s : State) (c : Nat) (x : Core) : (s.setCore c x).turns = s.turns := rfl
@[simp] theorem State.setCore_devTensors (s : State) (c : Nat) (x : Core) : (s.setCore c x).devTensors = s.devTensors := rfl
@[simp] theorem State.setCore_cores (s : State) (c : Nat) (x : Core) : (s.setCore c x).cores = s.cores.put c x := rfl
@[simp] theorem State.setCore_tiers (s : State) (c : Nat) (x : Core) : (s.setCore c x).tiers = s.tiers := rfl
@[simp] theorem State.setCore_mull (s : State) (c : Nat) (x : Core) : (s.setCore c x).mull = s.mull := rfl
@[simp] theorem State.setCore_mullUsed (s : State) (c : Nat) (x : Core) : (s.setCore c x).mullUsed = s.mullUsed := rfl
@[simp] theorem State.setCore_colmap (s : State) (c : Nat) (x : Core) : (s.setCore c x).colmap = s.colmap := rfl
@[simp] theorem State.setCore_lostCols (s : State) (c : Nat) (x : Core) : (s.setCore c x).lostCols = s.lostCols := rfl
@[simp] theorem State.setCore_retiring (s : State) (c : Nat) (x : Core) : (s.setCore c x).retiring = s.retiring := rfl
@[simp] theorem State.setCore_badCols (s : State) (c : Nat) (x : Core) : (s.setCore c x).badCols = s.badCols := rfl
@[simp] theorem State.setCore_sparesUsed (s : State) (c : Nat) (x : Core) : (s.setCore c x).sparesUsed = s.sparesUsed := rfl
@[simp] theorem State.setCore_hbmMap (s : State) (c : Nat) (x : Core) : (s.setCore c x).hbmMap = s.hbmMap := rfl
@[simp] theorem State.setCore_mxs (s : State) (c : Nat) (x : Core) : (s.setCore c x).mxs = s.mxs := rfl
@[simp] theorem State.setCore_parts (s : State) (c : Nat) (x : Core) : (s.setCore c x).parts = s.parts := rfl
@[simp] theorem State.setCore_keys (s : State) (c : Nat) (x : Core) : (s.setCore c x).keys = s.keys := rfl
@[simp] theorem State.setCore_segs (s : State) (c : Nat) (x : Core) : (s.setCore c x).segs = s.segs := rfl
@[simp] theorem State.setCore_flows (s : State) (c : Nat) (x : Core) : (s.setCore c x).flows = s.flows := rfl
@[simp] theorem State.setCore_vkeys (s : State) (c : Nat) (x : Core) : (s.setCore c x).vkeys = s.vkeys := rfl
@[simp] theorem State.setCore_arenas (s : State) (c : Nat) (x : Core) : (s.setCore c x).arenas = s.arenas := rfl
@[simp] theorem State.setCore_index (s : State) (c : Nat) (x : Core) : (s.setCore c x).index = s.index := rfl
@[simp] theorem State.setCore_reqs (s : State) (c : Nat) (x : Core) : (s.setCore c x).reqs = s.reqs := rfl
@[simp] theorem State.setCore_copies (s : State) (c : Nat) (x : Core) : (s.setCore c x).copies = s.copies := rfl
@[simp] theorem State.setCore_peers (s : State) (c : Nat) (x : Core) : (s.setCore c x).peers = s.peers := rfl
@[simp] theorem State.setCore_emits (s : State) (c : Nat) (x : Core) : (s.setCore c x).emits = s.emits := rfl
@[simp] theorem State.setCore_kvs (s : State) (c : Nat) (x : Core) : (s.setCore c x).kvs = s.kvs := rfl
@[simp] theorem State.setCore_installs (s : State) (c : Nat) (x : Core) : (s.setCore c x).installs = s.installs := rfl
@[simp] theorem State.setCore_scrubs (s : State) (c : Nat) (x : Core) : (s.setCore c x).scrubs = s.scrubs := rfl
@[simp] theorem State.setCore_hkOps (s : State) (c : Nat) (x : Core) : (s.setCore c x).hkOps = s.hkOps := rfl
@[simp] theorem State.setCore_hk (s : State) (c : Nat) (x : Core) : (s.setCore c x).hk = s.hk := rfl
@[simp] theorem State.setCore_events (s : State) (c : Nat) (x : Core) : (s.setCore c x).events = s.events := rfl
@[simp] theorem State.setCore_eventCount (s : State) (c : Nat) (x : Core) : (s.setCore c x).eventCount = s.eventCount := rfl
@[simp] theorem State.setCore_records (s : State) (c : Nat) (x : Core) : (s.setCore c x).records = s.records := rfl
@[simp] theorem State.setCore_aperture (s : State) (c : Nat) (x : Core) : (s.setCore c x).aperture = s.aperture := rfl
@[simp] theorem State.setCore_wsegs (s : State) (c : Nat) (x : Core) : (s.setCore c x).wsegs = s.wsegs := rfl
@[simp] theorem State.setCore_devw (s : State) (c : Nat) (x : Core) : (s.setCore c x).devw = s.devw := rfl
@[simp] theorem State.setCore_peerDus (s : State) (c : Nat) (x : Core) : (s.setCore c x).peerDus = s.peerDus := rfl
@[simp] theorem State.setCore_erase (s : State) (c : Nat) (x : Core) : (s.setCore c x).erase = s.erase := rfl
@[simp] theorem State.setCore_fmap (s : State) (c : Nat) (x : Core) : (s.setCore c x).fmap = s.fmap := rfl
@[simp] theorem State.setCore_flashSpare (s : State) (c : Nat) (x : Core) : (s.setCore c x).flashSpare = s.flashSpare := rfl
@[simp] theorem State.setCore_progFail (s : State) (c : Nat) (x : Core) : (s.setCore c x).progFail = s.progFail := rfl
@[simp] theorem State.setCore_verifyFail (s : State) (c : Nat) (x : Core) : (s.setCore c x).verifyFail = s.verifyFail := rfl
@[simp] theorem State.setCore_lostRecords (s : State) (c : Nat) (x : Core) : (s.setCore c x).lostRecords = s.lostRecords := rfl
@[simp] theorem State.setCore_shutPend (s : State) (c : Nat) (x : Core) : (s.setCore c x).shutPend = s.shutPend := rfl
@[simp] theorem State.setCore_shut (s : State) (c : Nat) (x : Core) : (s.setCore c x).shut = s.shut := rfl
@[simp] theorem State.setCore_exchange (s : State) (c : Nat) (x : Core) : (s.setCore c x).exchange = s.exchange := rfl
@[simp] theorem State.setCore_devWrites (s : State) (c : Nat) (x : Core) : (s.setCore c x).devWrites = s.devWrites := rfl
@[simp] theorem State.setCore_ready (s : State) (c : Nat) (x : Core) : (s.setCore c x).ready = s.ready := rfl
@[simp] theorem State.setCore_cxlPop (s : State) (c : Nat) (x : Core) : (s.setCore c x).cxlPop = s.cxlPop := rfl
@[simp] theorem State.setCore_portDown (s : State) (c : Nat) (x : Core) : (s.setCore c x).portDown = s.portDown := rfl
@[simp] theorem State.setCore_cxlDown (s : State) (c : Nat) (x : Core) : (s.setCore c x).cxlDown = s.cxlDown := rfl
@[simp] theorem State.setCore_mcsum (s : State) (c : Nat) (x : Core) : (s.setCore c x).mcsum = s.mcsum := rfl
@[simp] theorem State.setCore_mccnt (s : State) (c : Nat) (x : Core) : (s.setCore c x).mccnt = s.mccnt := rfl
@[simp] theorem State.setCore_drops (s : State) (c : Nat) (x : Core) : (s.setCore c x).drops = s.drops := rfl
@[simp] theorem State.setCore_foreign (s : State) (c : Nat) (x : Core) : (s.setCore c x).foreign = s.foreign := rfl
@[simp] theorem State.setCore_links (s : State) (c : Nat) (x : Core) : (s.setCore c x).links = s.links := rfl
@[simp] theorem State.setCore_mbout (s : State) (c : Nat) (x : Core) : (s.setCore c x).mbout = s.mbout := rfl
@[simp] theorem State.setCore_mbuf (s : State) (c : Nat) (x : Core) : (s.setCore c x).mbuf = s.mbuf := rfl
@[simp] theorem State.setCore_thermals (s : State) (c : Nat) (x : Core) : (s.setCore c x).thermals = s.thermals := rfl
@[simp] theorem State.setCore_thermalRing (s : State) (c : Nat) (x : Core) : (s.setCore c x).thermalRing = s.thermalRing := rfl
@[simp] theorem State.setCore_sent (s : State) (c : Nat) (x : Core) : (s.setCore c x).sent = s.sent := rfl
@[simp] theorem State.setCore_residency (s : State) (c : Nat) (x : Core) : (s.setCore c x).residency = s.residency := rfl
@[simp] theorem State.setCore_shared (s : State) (c : Nat) (x : Core) : (s.setCore c x).shared = s.shared := rfl
@[simp] theorem State.setCore_samples (s : State) (c : Nat) (x : Core) : (s.setCore c x).samples = s.samples := rfl
@[simp] theorem State.setCore_exports (s : State) (c : Nat) (x : Core) : (s.setCore c x).exports = s.exports := rfl

/-! setStream -/

@[simp] theorem State.setStream_cur (s : State) (c k : Nat) (x : Stream) : (s.setStream c k x).cur = s.cur := rfl
@[simp] theorem State.setStream_agenda (s : State) (c k : Nat) (x : Stream) : (s.setStream c k x).agenda = s.agenda := rfl
@[simp] theorem State.setStream_turn (s : State) (c k : Nat) (x : Stream) : (s.setStream c k x).turn = s.turn := rfl
@[simp] theorem State.setStream_fresh (s : State) (c k : Nat) (x : Stream) : (s.setStream c k x).fresh = s.fresh := rfl
@[simp] theorem State.setStream_nextId (s : State) (c k : Nat) (x : Stream) : (s.setStream c k x).nextId = s.nextId := rfl
@[simp] theorem State.setStream_dclk (s : State) (c k : Nat) (x : Stream) : (s.setStream c k x).dclk = s.dclk := rfl
@[simp] theorem State.setStream_ltb (s : State) (c k : Nat) (x : Stream) : (s.setStream c k x).ltb = s.ltb := rfl
@[simp] theorem State.setStream_booted (s : State) (c k : Nat) (x : Stream) : (s.setStream c k x).booted = s.booted := rfl
@[simp] theorem State.setStream_fwImage (s : State) (c k : Nat) (x : Stream) : (s.setStream c k x).fwImage = s.fwImage := rfl
@[simp] theorem State.setStream_fwHash (s : State) (c k : Nat) (x : Stream) : (s.setStream c k x).fwHash = s.fwHash := rfl
@[simp] theorem State.setStream_mem (s : State) (c k : Nat) (x : Stream) : (s.setStream c k x).mem = s.mem := rfl
@[simp] theorem State.setStream_attn (s : State) (c k : Nat) (x : Stream) : (s.setStream c k x).attn = s.attn := rfl
@[simp] theorem State.setStream_badBlks (s : State) (c k : Nat) (x : Stream) : (s.setStream c k x).badBlks = s.badBlks := rfl
@[simp] theorem State.setStream_attnBad (s : State) (c k : Nat) (x : Stream) : (s.setStream c k x).attnBad = s.attnBad := rfl
@[simp] theorem State.setStream_weak (s : State) (c k : Nat) (x : Stream) : (s.setStream c k x).weak = s.weak := rfl
@[simp] theorem State.setStream_corrected (s : State) (c k : Nat) (x : Stream) : (s.setStream c k x).corrected = s.corrected := rfl
@[simp] theorem State.setStream_llc (s : State) (c k : Nat) (x : Stream) : (s.setStream c k x).llc = s.llc := rfl
@[simp] theorem State.setStream_llcBad (s : State) (c k : Nat) (x : Stream) : (s.setStream c k x).llcBad = s.llcBad := rfl
@[simp] theorem State.setStream_stageBad (s : State) (c k : Nat) (x : Stream) : (s.setStream c k x).stageBad = s.stageBad := rfl
@[simp] theorem State.setStream_staging (s : State) (c k : Nat) (x : Stream) : (s.setStream c k x).staging = s.staging := rfl
@[simp] theorem State.setStream_ahead (s : State) (c k : Nat) (x : Stream) : (s.setStream c k x).ahead = s.ahead := rfl
@[simp] theorem State.setStream_quotas (s : State) (c k : Nat) (x : Stream) : (s.setStream c k x).quotas = s.quotas := rfl
@[simp] theorem State.setStream_walks (s : State) (c k : Nat) (x : Stream) : (s.setStream c k x).walks = s.walks := rfl
@[simp] theorem State.setStream_turns (s : State) (c k : Nat) (x : Stream) : (s.setStream c k x).turns = s.turns := rfl
@[simp] theorem State.setStream_devTensors (s : State) (c k : Nat) (x : Stream) : (s.setStream c k x).devTensors = s.devTensors := rfl
@[simp] theorem State.setStream_tiers (s : State) (c k : Nat) (x : Stream) : (s.setStream c k x).tiers = s.tiers := rfl
@[simp] theorem State.setStream_mull (s : State) (c k : Nat) (x : Stream) : (s.setStream c k x).mull = s.mull := rfl
@[simp] theorem State.setStream_mullUsed (s : State) (c k : Nat) (x : Stream) : (s.setStream c k x).mullUsed = s.mullUsed := rfl
@[simp] theorem State.setStream_colmap (s : State) (c k : Nat) (x : Stream) : (s.setStream c k x).colmap = s.colmap := rfl
@[simp] theorem State.setStream_lostCols (s : State) (c k : Nat) (x : Stream) : (s.setStream c k x).lostCols = s.lostCols := rfl
@[simp] theorem State.setStream_retiring (s : State) (c k : Nat) (x : Stream) : (s.setStream c k x).retiring = s.retiring := rfl
@[simp] theorem State.setStream_badCols (s : State) (c k : Nat) (x : Stream) : (s.setStream c k x).badCols = s.badCols := rfl
@[simp] theorem State.setStream_sparesUsed (s : State) (c k : Nat) (x : Stream) : (s.setStream c k x).sparesUsed = s.sparesUsed := rfl
@[simp] theorem State.setStream_hbmMap (s : State) (c k : Nat) (x : Stream) : (s.setStream c k x).hbmMap = s.hbmMap := rfl
@[simp] theorem State.setStream_mxs (s : State) (c k : Nat) (x : Stream) : (s.setStream c k x).mxs = s.mxs := rfl
@[simp] theorem State.setStream_parts (s : State) (c k : Nat) (x : Stream) : (s.setStream c k x).parts = s.parts := rfl
@[simp] theorem State.setStream_keys (s : State) (c k : Nat) (x : Stream) : (s.setStream c k x).keys = s.keys := rfl
@[simp] theorem State.setStream_segs (s : State) (c k : Nat) (x : Stream) : (s.setStream c k x).segs = s.segs := rfl
@[simp] theorem State.setStream_flows (s : State) (c k : Nat) (x : Stream) : (s.setStream c k x).flows = s.flows := rfl
@[simp] theorem State.setStream_vkeys (s : State) (c k : Nat) (x : Stream) : (s.setStream c k x).vkeys = s.vkeys := rfl
@[simp] theorem State.setStream_arenas (s : State) (c k : Nat) (x : Stream) : (s.setStream c k x).arenas = s.arenas := rfl
@[simp] theorem State.setStream_index (s : State) (c k : Nat) (x : Stream) : (s.setStream c k x).index = s.index := rfl
@[simp] theorem State.setStream_reqs (s : State) (c k : Nat) (x : Stream) : (s.setStream c k x).reqs = s.reqs := rfl
@[simp] theorem State.setStream_copies (s : State) (c k : Nat) (x : Stream) : (s.setStream c k x).copies = s.copies := rfl
@[simp] theorem State.setStream_peers (s : State) (c k : Nat) (x : Stream) : (s.setStream c k x).peers = s.peers := rfl
@[simp] theorem State.setStream_emits (s : State) (c k : Nat) (x : Stream) : (s.setStream c k x).emits = s.emits := rfl
@[simp] theorem State.setStream_kvs (s : State) (c k : Nat) (x : Stream) : (s.setStream c k x).kvs = s.kvs := rfl
@[simp] theorem State.setStream_installs (s : State) (c k : Nat) (x : Stream) : (s.setStream c k x).installs = s.installs := rfl
@[simp] theorem State.setStream_scrubs (s : State) (c k : Nat) (x : Stream) : (s.setStream c k x).scrubs = s.scrubs := rfl
@[simp] theorem State.setStream_hkOps (s : State) (c k : Nat) (x : Stream) : (s.setStream c k x).hkOps = s.hkOps := rfl
@[simp] theorem State.setStream_hk (s : State) (c k : Nat) (x : Stream) : (s.setStream c k x).hk = s.hk := rfl
@[simp] theorem State.setStream_events (s : State) (c k : Nat) (x : Stream) : (s.setStream c k x).events = s.events := rfl
@[simp] theorem State.setStream_eventCount (s : State) (c k : Nat) (x : Stream) : (s.setStream c k x).eventCount = s.eventCount := rfl
@[simp] theorem State.setStream_records (s : State) (c k : Nat) (x : Stream) : (s.setStream c k x).records = s.records := rfl
@[simp] theorem State.setStream_aperture (s : State) (c k : Nat) (x : Stream) : (s.setStream c k x).aperture = s.aperture := rfl
@[simp] theorem State.setStream_wsegs (s : State) (c k : Nat) (x : Stream) : (s.setStream c k x).wsegs = s.wsegs := rfl
@[simp] theorem State.setStream_devw (s : State) (c k : Nat) (x : Stream) : (s.setStream c k x).devw = s.devw := rfl
@[simp] theorem State.setStream_peerDus (s : State) (c k : Nat) (x : Stream) : (s.setStream c k x).peerDus = s.peerDus := rfl
@[simp] theorem State.setStream_erase (s : State) (c k : Nat) (x : Stream) : (s.setStream c k x).erase = s.erase := rfl
@[simp] theorem State.setStream_fmap (s : State) (c k : Nat) (x : Stream) : (s.setStream c k x).fmap = s.fmap := rfl
@[simp] theorem State.setStream_flashSpare (s : State) (c k : Nat) (x : Stream) : (s.setStream c k x).flashSpare = s.flashSpare := rfl
@[simp] theorem State.setStream_progFail (s : State) (c k : Nat) (x : Stream) : (s.setStream c k x).progFail = s.progFail := rfl
@[simp] theorem State.setStream_verifyFail (s : State) (c k : Nat) (x : Stream) : (s.setStream c k x).verifyFail = s.verifyFail := rfl
@[simp] theorem State.setStream_lostRecords (s : State) (c k : Nat) (x : Stream) : (s.setStream c k x).lostRecords = s.lostRecords := rfl
@[simp] theorem State.setStream_shutPend (s : State) (c k : Nat) (x : Stream) : (s.setStream c k x).shutPend = s.shutPend := rfl
@[simp] theorem State.setStream_shut (s : State) (c k : Nat) (x : Stream) : (s.setStream c k x).shut = s.shut := rfl
@[simp] theorem State.setStream_exchange (s : State) (c k : Nat) (x : Stream) : (s.setStream c k x).exchange = s.exchange := rfl
@[simp] theorem State.setStream_devWrites (s : State) (c k : Nat) (x : Stream) : (s.setStream c k x).devWrites = s.devWrites := rfl
@[simp] theorem State.setStream_ready (s : State) (c k : Nat) (x : Stream) : (s.setStream c k x).ready = s.ready := rfl
@[simp] theorem State.setStream_cxlPop (s : State) (c k : Nat) (x : Stream) : (s.setStream c k x).cxlPop = s.cxlPop := rfl
@[simp] theorem State.setStream_portDown (s : State) (c k : Nat) (x : Stream) : (s.setStream c k x).portDown = s.portDown := rfl
@[simp] theorem State.setStream_cxlDown (s : State) (c k : Nat) (x : Stream) : (s.setStream c k x).cxlDown = s.cxlDown := rfl
@[simp] theorem State.setStream_mcsum (s : State) (c k : Nat) (x : Stream) : (s.setStream c k x).mcsum = s.mcsum := rfl
@[simp] theorem State.setStream_mccnt (s : State) (c k : Nat) (x : Stream) : (s.setStream c k x).mccnt = s.mccnt := rfl
@[simp] theorem State.setStream_drops (s : State) (c k : Nat) (x : Stream) : (s.setStream c k x).drops = s.drops := rfl
@[simp] theorem State.setStream_foreign (s : State) (c k : Nat) (x : Stream) : (s.setStream c k x).foreign = s.foreign := rfl
@[simp] theorem State.setStream_links (s : State) (c k : Nat) (x : Stream) : (s.setStream c k x).links = s.links := rfl
@[simp] theorem State.setStream_mbout (s : State) (c k : Nat) (x : Stream) : (s.setStream c k x).mbout = s.mbout := rfl
@[simp] theorem State.setStream_mbuf (s : State) (c k : Nat) (x : Stream) : (s.setStream c k x).mbuf = s.mbuf := rfl
@[simp] theorem State.setStream_thermals (s : State) (c k : Nat) (x : Stream) : (s.setStream c k x).thermals = s.thermals := rfl
@[simp] theorem State.setStream_thermalRing (s : State) (c k : Nat) (x : Stream) : (s.setStream c k x).thermalRing = s.thermalRing := rfl
@[simp] theorem State.setStream_sent (s : State) (c k : Nat) (x : Stream) : (s.setStream c k x).sent = s.sent := rfl
@[simp] theorem State.setStream_residency (s : State) (c k : Nat) (x : Stream) : (s.setStream c k x).residency = s.residency := rfl
@[simp] theorem State.setStream_shared (s : State) (c k : Nat) (x : Stream) : (s.setStream c k x).shared = s.shared := rfl
@[simp] theorem State.setStream_samples (s : State) (c k : Nat) (x : Stream) : (s.setStream c k x).samples = s.samples := rfl
@[simp] theorem State.setStream_exports (s : State) (c k : Nat) (x : Stream) : (s.setStream c k x).exports = s.exports := rfl

/-! setStrm -/

@[simp] theorem State.setStrm_cur (s : State) (q : SeqId) (x : Stream) : (s.setStrm q x).cur = s.cur := rfl
@[simp] theorem State.setStrm_agenda (s : State) (q : SeqId) (x : Stream) : (s.setStrm q x).agenda = s.agenda := rfl
@[simp] theorem State.setStrm_turn (s : State) (q : SeqId) (x : Stream) : (s.setStrm q x).turn = s.turn := rfl
@[simp] theorem State.setStrm_fresh (s : State) (q : SeqId) (x : Stream) : (s.setStrm q x).fresh = s.fresh := rfl
@[simp] theorem State.setStrm_nextId (s : State) (q : SeqId) (x : Stream) : (s.setStrm q x).nextId = s.nextId := rfl
@[simp] theorem State.setStrm_dclk (s : State) (q : SeqId) (x : Stream) : (s.setStrm q x).dclk = s.dclk := rfl
@[simp] theorem State.setStrm_ltb (s : State) (q : SeqId) (x : Stream) : (s.setStrm q x).ltb = s.ltb := rfl
@[simp] theorem State.setStrm_booted (s : State) (q : SeqId) (x : Stream) : (s.setStrm q x).booted = s.booted := rfl
@[simp] theorem State.setStrm_fwImage (s : State) (q : SeqId) (x : Stream) : (s.setStrm q x).fwImage = s.fwImage := rfl
@[simp] theorem State.setStrm_fwHash (s : State) (q : SeqId) (x : Stream) : (s.setStrm q x).fwHash = s.fwHash := rfl
@[simp] theorem State.setStrm_mem (s : State) (q : SeqId) (x : Stream) : (s.setStrm q x).mem = s.mem := rfl
@[simp] theorem State.setStrm_attn (s : State) (q : SeqId) (x : Stream) : (s.setStrm q x).attn = s.attn := rfl
@[simp] theorem State.setStrm_badBlks (s : State) (q : SeqId) (x : Stream) : (s.setStrm q x).badBlks = s.badBlks := rfl
@[simp] theorem State.setStrm_attnBad (s : State) (q : SeqId) (x : Stream) : (s.setStrm q x).attnBad = s.attnBad := rfl
@[simp] theorem State.setStrm_weak (s : State) (q : SeqId) (x : Stream) : (s.setStrm q x).weak = s.weak := rfl
@[simp] theorem State.setStrm_corrected (s : State) (q : SeqId) (x : Stream) : (s.setStrm q x).corrected = s.corrected := rfl
@[simp] theorem State.setStrm_llc (s : State) (q : SeqId) (x : Stream) : (s.setStrm q x).llc = s.llc := rfl
@[simp] theorem State.setStrm_llcBad (s : State) (q : SeqId) (x : Stream) : (s.setStrm q x).llcBad = s.llcBad := rfl
@[simp] theorem State.setStrm_stageBad (s : State) (q : SeqId) (x : Stream) : (s.setStrm q x).stageBad = s.stageBad := rfl
@[simp] theorem State.setStrm_staging (s : State) (q : SeqId) (x : Stream) : (s.setStrm q x).staging = s.staging := rfl
@[simp] theorem State.setStrm_ahead (s : State) (q : SeqId) (x : Stream) : (s.setStrm q x).ahead = s.ahead := rfl
@[simp] theorem State.setStrm_quotas (s : State) (q : SeqId) (x : Stream) : (s.setStrm q x).quotas = s.quotas := rfl
@[simp] theorem State.setStrm_walks (s : State) (q : SeqId) (x : Stream) : (s.setStrm q x).walks = s.walks := rfl
@[simp] theorem State.setStrm_turns (s : State) (q : SeqId) (x : Stream) : (s.setStrm q x).turns = s.turns := rfl
@[simp] theorem State.setStrm_devTensors (s : State) (q : SeqId) (x : Stream) : (s.setStrm q x).devTensors = s.devTensors := rfl
@[simp] theorem State.setStrm_tiers (s : State) (q : SeqId) (x : Stream) : (s.setStrm q x).tiers = s.tiers := rfl
@[simp] theorem State.setStrm_mull (s : State) (q : SeqId) (x : Stream) : (s.setStrm q x).mull = s.mull := rfl
@[simp] theorem State.setStrm_mullUsed (s : State) (q : SeqId) (x : Stream) : (s.setStrm q x).mullUsed = s.mullUsed := rfl
@[simp] theorem State.setStrm_colmap (s : State) (q : SeqId) (x : Stream) : (s.setStrm q x).colmap = s.colmap := rfl
@[simp] theorem State.setStrm_lostCols (s : State) (q : SeqId) (x : Stream) : (s.setStrm q x).lostCols = s.lostCols := rfl
@[simp] theorem State.setStrm_retiring (s : State) (q : SeqId) (x : Stream) : (s.setStrm q x).retiring = s.retiring := rfl
@[simp] theorem State.setStrm_badCols (s : State) (q : SeqId) (x : Stream) : (s.setStrm q x).badCols = s.badCols := rfl
@[simp] theorem State.setStrm_sparesUsed (s : State) (q : SeqId) (x : Stream) : (s.setStrm q x).sparesUsed = s.sparesUsed := rfl
@[simp] theorem State.setStrm_hbmMap (s : State) (q : SeqId) (x : Stream) : (s.setStrm q x).hbmMap = s.hbmMap := rfl
@[simp] theorem State.setStrm_mxs (s : State) (q : SeqId) (x : Stream) : (s.setStrm q x).mxs = s.mxs := rfl
@[simp] theorem State.setStrm_parts (s : State) (q : SeqId) (x : Stream) : (s.setStrm q x).parts = s.parts := rfl
@[simp] theorem State.setStrm_keys (s : State) (q : SeqId) (x : Stream) : (s.setStrm q x).keys = s.keys := rfl
@[simp] theorem State.setStrm_segs (s : State) (q : SeqId) (x : Stream) : (s.setStrm q x).segs = s.segs := rfl
@[simp] theorem State.setStrm_flows (s : State) (q : SeqId) (x : Stream) : (s.setStrm q x).flows = s.flows := rfl
@[simp] theorem State.setStrm_vkeys (s : State) (q : SeqId) (x : Stream) : (s.setStrm q x).vkeys = s.vkeys := rfl
@[simp] theorem State.setStrm_arenas (s : State) (q : SeqId) (x : Stream) : (s.setStrm q x).arenas = s.arenas := rfl
@[simp] theorem State.setStrm_index (s : State) (q : SeqId) (x : Stream) : (s.setStrm q x).index = s.index := rfl
@[simp] theorem State.setStrm_reqs (s : State) (q : SeqId) (x : Stream) : (s.setStrm q x).reqs = s.reqs := rfl
@[simp] theorem State.setStrm_copies (s : State) (q : SeqId) (x : Stream) : (s.setStrm q x).copies = s.copies := rfl
@[simp] theorem State.setStrm_peers (s : State) (q : SeqId) (x : Stream) : (s.setStrm q x).peers = s.peers := rfl
@[simp] theorem State.setStrm_emits (s : State) (q : SeqId) (x : Stream) : (s.setStrm q x).emits = s.emits := rfl
@[simp] theorem State.setStrm_kvs (s : State) (q : SeqId) (x : Stream) : (s.setStrm q x).kvs = s.kvs := rfl
@[simp] theorem State.setStrm_installs (s : State) (q : SeqId) (x : Stream) : (s.setStrm q x).installs = s.installs := rfl
@[simp] theorem State.setStrm_scrubs (s : State) (q : SeqId) (x : Stream) : (s.setStrm q x).scrubs = s.scrubs := rfl
@[simp] theorem State.setStrm_hkOps (s : State) (q : SeqId) (x : Stream) : (s.setStrm q x).hkOps = s.hkOps := rfl
@[simp] theorem State.setStrm_hk (s : State) (q : SeqId) (x : Stream) : (s.setStrm q x).hk = s.hk := rfl
@[simp] theorem State.setStrm_events (s : State) (q : SeqId) (x : Stream) : (s.setStrm q x).events = s.events := rfl
@[simp] theorem State.setStrm_eventCount (s : State) (q : SeqId) (x : Stream) : (s.setStrm q x).eventCount = s.eventCount := rfl
@[simp] theorem State.setStrm_records (s : State) (q : SeqId) (x : Stream) : (s.setStrm q x).records = s.records := rfl
@[simp] theorem State.setStrm_aperture (s : State) (q : SeqId) (x : Stream) : (s.setStrm q x).aperture = s.aperture := rfl
@[simp] theorem State.setStrm_wsegs (s : State) (q : SeqId) (x : Stream) : (s.setStrm q x).wsegs = s.wsegs := rfl
@[simp] theorem State.setStrm_devw (s : State) (q : SeqId) (x : Stream) : (s.setStrm q x).devw = s.devw := rfl
@[simp] theorem State.setStrm_peerDus (s : State) (q : SeqId) (x : Stream) : (s.setStrm q x).peerDus = s.peerDus := rfl
@[simp] theorem State.setStrm_erase (s : State) (q : SeqId) (x : Stream) : (s.setStrm q x).erase = s.erase := rfl
@[simp] theorem State.setStrm_fmap (s : State) (q : SeqId) (x : Stream) : (s.setStrm q x).fmap = s.fmap := rfl
@[simp] theorem State.setStrm_flashSpare (s : State) (q : SeqId) (x : Stream) : (s.setStrm q x).flashSpare = s.flashSpare := rfl
@[simp] theorem State.setStrm_progFail (s : State) (q : SeqId) (x : Stream) : (s.setStrm q x).progFail = s.progFail := rfl
@[simp] theorem State.setStrm_verifyFail (s : State) (q : SeqId) (x : Stream) : (s.setStrm q x).verifyFail = s.verifyFail := rfl
@[simp] theorem State.setStrm_lostRecords (s : State) (q : SeqId) (x : Stream) : (s.setStrm q x).lostRecords = s.lostRecords := rfl
@[simp] theorem State.setStrm_shutPend (s : State) (q : SeqId) (x : Stream) : (s.setStrm q x).shutPend = s.shutPend := rfl
@[simp] theorem State.setStrm_shut (s : State) (q : SeqId) (x : Stream) : (s.setStrm q x).shut = s.shut := rfl
@[simp] theorem State.setStrm_exchange (s : State) (q : SeqId) (x : Stream) : (s.setStrm q x).exchange = s.exchange := rfl
@[simp] theorem State.setStrm_devWrites (s : State) (q : SeqId) (x : Stream) : (s.setStrm q x).devWrites = s.devWrites := rfl
@[simp] theorem State.setStrm_ready (s : State) (q : SeqId) (x : Stream) : (s.setStrm q x).ready = s.ready := rfl
@[simp] theorem State.setStrm_cxlPop (s : State) (q : SeqId) (x : Stream) : (s.setStrm q x).cxlPop = s.cxlPop := rfl
@[simp] theorem State.setStrm_portDown (s : State) (q : SeqId) (x : Stream) : (s.setStrm q x).portDown = s.portDown := rfl
@[simp] theorem State.setStrm_cxlDown (s : State) (q : SeqId) (x : Stream) : (s.setStrm q x).cxlDown = s.cxlDown := rfl
@[simp] theorem State.setStrm_mcsum (s : State) (q : SeqId) (x : Stream) : (s.setStrm q x).mcsum = s.mcsum := rfl
@[simp] theorem State.setStrm_mccnt (s : State) (q : SeqId) (x : Stream) : (s.setStrm q x).mccnt = s.mccnt := rfl
@[simp] theorem State.setStrm_drops (s : State) (q : SeqId) (x : Stream) : (s.setStrm q x).drops = s.drops := rfl
@[simp] theorem State.setStrm_foreign (s : State) (q : SeqId) (x : Stream) : (s.setStrm q x).foreign = s.foreign := rfl
@[simp] theorem State.setStrm_links (s : State) (q : SeqId) (x : Stream) : (s.setStrm q x).links = s.links := rfl
@[simp] theorem State.setStrm_mbout (s : State) (q : SeqId) (x : Stream) : (s.setStrm q x).mbout = s.mbout := rfl
@[simp] theorem State.setStrm_mbuf (s : State) (q : SeqId) (x : Stream) : (s.setStrm q x).mbuf = s.mbuf := rfl
@[simp] theorem State.setStrm_thermals (s : State) (q : SeqId) (x : Stream) : (s.setStrm q x).thermals = s.thermals := rfl
@[simp] theorem State.setStrm_thermalRing (s : State) (q : SeqId) (x : Stream) : (s.setStrm q x).thermalRing = s.thermalRing := rfl
@[simp] theorem State.setStrm_sent (s : State) (q : SeqId) (x : Stream) : (s.setStrm q x).sent = s.sent := rfl
@[simp] theorem State.setStrm_residency (s : State) (q : SeqId) (x : Stream) : (s.setStrm q x).residency = s.residency := rfl
@[simp] theorem State.setStrm_shared (s : State) (q : SeqId) (x : Stream) : (s.setStrm q x).shared = s.shared := rfl
@[simp] theorem State.setStrm_samples (s : State) (q : SeqId) (x : Stream) : (s.setStrm q x).samples = s.samples := rfl
@[simp] theorem State.setStrm_exports (s : State) (q : SeqId) (x : Stream) : (s.setStrm q x).exports = s.exports := rfl

/-! setSeqr -/

@[simp] theorem State.setSeqr_cur (s : State) (q : SeqId) (y : Seqr) : (s.setSeqr q y).cur = s.cur := rfl
@[simp] theorem State.setSeqr_agenda (s : State) (q : SeqId) (y : Seqr) : (s.setSeqr q y).agenda = s.agenda := rfl
@[simp] theorem State.setSeqr_turn (s : State) (q : SeqId) (y : Seqr) : (s.setSeqr q y).turn = s.turn := rfl
@[simp] theorem State.setSeqr_fresh (s : State) (q : SeqId) (y : Seqr) : (s.setSeqr q y).fresh = s.fresh := rfl
@[simp] theorem State.setSeqr_nextId (s : State) (q : SeqId) (y : Seqr) : (s.setSeqr q y).nextId = s.nextId := rfl
@[simp] theorem State.setSeqr_dclk (s : State) (q : SeqId) (y : Seqr) : (s.setSeqr q y).dclk = s.dclk := rfl
@[simp] theorem State.setSeqr_ltb (s : State) (q : SeqId) (y : Seqr) : (s.setSeqr q y).ltb = s.ltb := rfl
@[simp] theorem State.setSeqr_booted (s : State) (q : SeqId) (y : Seqr) : (s.setSeqr q y).booted = s.booted := rfl
@[simp] theorem State.setSeqr_fwImage (s : State) (q : SeqId) (y : Seqr) : (s.setSeqr q y).fwImage = s.fwImage := rfl
@[simp] theorem State.setSeqr_fwHash (s : State) (q : SeqId) (y : Seqr) : (s.setSeqr q y).fwHash = s.fwHash := rfl
@[simp] theorem State.setSeqr_mem (s : State) (q : SeqId) (y : Seqr) : (s.setSeqr q y).mem = s.mem := rfl
@[simp] theorem State.setSeqr_attn (s : State) (q : SeqId) (y : Seqr) : (s.setSeqr q y).attn = s.attn := rfl
@[simp] theorem State.setSeqr_badBlks (s : State) (q : SeqId) (y : Seqr) : (s.setSeqr q y).badBlks = s.badBlks := rfl
@[simp] theorem State.setSeqr_attnBad (s : State) (q : SeqId) (y : Seqr) : (s.setSeqr q y).attnBad = s.attnBad := rfl
@[simp] theorem State.setSeqr_weak (s : State) (q : SeqId) (y : Seqr) : (s.setSeqr q y).weak = s.weak := rfl
@[simp] theorem State.setSeqr_corrected (s : State) (q : SeqId) (y : Seqr) : (s.setSeqr q y).corrected = s.corrected := rfl
@[simp] theorem State.setSeqr_llc (s : State) (q : SeqId) (y : Seqr) : (s.setSeqr q y).llc = s.llc := rfl
@[simp] theorem State.setSeqr_llcBad (s : State) (q : SeqId) (y : Seqr) : (s.setSeqr q y).llcBad = s.llcBad := rfl
@[simp] theorem State.setSeqr_stageBad (s : State) (q : SeqId) (y : Seqr) : (s.setSeqr q y).stageBad = s.stageBad := rfl
@[simp] theorem State.setSeqr_staging (s : State) (q : SeqId) (y : Seqr) : (s.setSeqr q y).staging = s.staging := rfl
@[simp] theorem State.setSeqr_ahead (s : State) (q : SeqId) (y : Seqr) : (s.setSeqr q y).ahead = s.ahead := rfl
@[simp] theorem State.setSeqr_quotas (s : State) (q : SeqId) (y : Seqr) : (s.setSeqr q y).quotas = s.quotas := rfl
@[simp] theorem State.setSeqr_walks (s : State) (q : SeqId) (y : Seqr) : (s.setSeqr q y).walks = s.walks := rfl
@[simp] theorem State.setSeqr_turns (s : State) (q : SeqId) (y : Seqr) : (s.setSeqr q y).turns = s.turns := rfl
@[simp] theorem State.setSeqr_devTensors (s : State) (q : SeqId) (y : Seqr) : (s.setSeqr q y).devTensors = s.devTensors := rfl
@[simp] theorem State.setSeqr_tiers (s : State) (q : SeqId) (y : Seqr) : (s.setSeqr q y).tiers = s.tiers := rfl
@[simp] theorem State.setSeqr_mull (s : State) (q : SeqId) (y : Seqr) : (s.setSeqr q y).mull = s.mull := rfl
@[simp] theorem State.setSeqr_mullUsed (s : State) (q : SeqId) (y : Seqr) : (s.setSeqr q y).mullUsed = s.mullUsed := rfl
@[simp] theorem State.setSeqr_colmap (s : State) (q : SeqId) (y : Seqr) : (s.setSeqr q y).colmap = s.colmap := rfl
@[simp] theorem State.setSeqr_lostCols (s : State) (q : SeqId) (y : Seqr) : (s.setSeqr q y).lostCols = s.lostCols := rfl
@[simp] theorem State.setSeqr_retiring (s : State) (q : SeqId) (y : Seqr) : (s.setSeqr q y).retiring = s.retiring := rfl
@[simp] theorem State.setSeqr_badCols (s : State) (q : SeqId) (y : Seqr) : (s.setSeqr q y).badCols = s.badCols := rfl
@[simp] theorem State.setSeqr_sparesUsed (s : State) (q : SeqId) (y : Seqr) : (s.setSeqr q y).sparesUsed = s.sparesUsed := rfl
@[simp] theorem State.setSeqr_hbmMap (s : State) (q : SeqId) (y : Seqr) : (s.setSeqr q y).hbmMap = s.hbmMap := rfl
@[simp] theorem State.setSeqr_mxs (s : State) (q : SeqId) (y : Seqr) : (s.setSeqr q y).mxs = s.mxs := rfl
@[simp] theorem State.setSeqr_parts (s : State) (q : SeqId) (y : Seqr) : (s.setSeqr q y).parts = s.parts := rfl
@[simp] theorem State.setSeqr_keys (s : State) (q : SeqId) (y : Seqr) : (s.setSeqr q y).keys = s.keys := rfl
@[simp] theorem State.setSeqr_segs (s : State) (q : SeqId) (y : Seqr) : (s.setSeqr q y).segs = s.segs := rfl
@[simp] theorem State.setSeqr_flows (s : State) (q : SeqId) (y : Seqr) : (s.setSeqr q y).flows = s.flows := rfl
@[simp] theorem State.setSeqr_vkeys (s : State) (q : SeqId) (y : Seqr) : (s.setSeqr q y).vkeys = s.vkeys := rfl
@[simp] theorem State.setSeqr_arenas (s : State) (q : SeqId) (y : Seqr) : (s.setSeqr q y).arenas = s.arenas := rfl
@[simp] theorem State.setSeqr_index (s : State) (q : SeqId) (y : Seqr) : (s.setSeqr q y).index = s.index := rfl
@[simp] theorem State.setSeqr_reqs (s : State) (q : SeqId) (y : Seqr) : (s.setSeqr q y).reqs = s.reqs := rfl
@[simp] theorem State.setSeqr_copies (s : State) (q : SeqId) (y : Seqr) : (s.setSeqr q y).copies = s.copies := rfl
@[simp] theorem State.setSeqr_peers (s : State) (q : SeqId) (y : Seqr) : (s.setSeqr q y).peers = s.peers := rfl
@[simp] theorem State.setSeqr_emits (s : State) (q : SeqId) (y : Seqr) : (s.setSeqr q y).emits = s.emits := rfl
@[simp] theorem State.setSeqr_kvs (s : State) (q : SeqId) (y : Seqr) : (s.setSeqr q y).kvs = s.kvs := rfl
@[simp] theorem State.setSeqr_installs (s : State) (q : SeqId) (y : Seqr) : (s.setSeqr q y).installs = s.installs := rfl
@[simp] theorem State.setSeqr_scrubs (s : State) (q : SeqId) (y : Seqr) : (s.setSeqr q y).scrubs = s.scrubs := rfl
@[simp] theorem State.setSeqr_hkOps (s : State) (q : SeqId) (y : Seqr) : (s.setSeqr q y).hkOps = s.hkOps := rfl
@[simp] theorem State.setSeqr_hk (s : State) (q : SeqId) (y : Seqr) : (s.setSeqr q y).hk = s.hk := rfl
@[simp] theorem State.setSeqr_events (s : State) (q : SeqId) (y : Seqr) : (s.setSeqr q y).events = s.events := rfl
@[simp] theorem State.setSeqr_eventCount (s : State) (q : SeqId) (y : Seqr) : (s.setSeqr q y).eventCount = s.eventCount := rfl
@[simp] theorem State.setSeqr_records (s : State) (q : SeqId) (y : Seqr) : (s.setSeqr q y).records = s.records := rfl
@[simp] theorem State.setSeqr_aperture (s : State) (q : SeqId) (y : Seqr) : (s.setSeqr q y).aperture = s.aperture := rfl
@[simp] theorem State.setSeqr_wsegs (s : State) (q : SeqId) (y : Seqr) : (s.setSeqr q y).wsegs = s.wsegs := rfl
@[simp] theorem State.setSeqr_devw (s : State) (q : SeqId) (y : Seqr) : (s.setSeqr q y).devw = s.devw := rfl
@[simp] theorem State.setSeqr_peerDus (s : State) (q : SeqId) (y : Seqr) : (s.setSeqr q y).peerDus = s.peerDus := rfl
@[simp] theorem State.setSeqr_erase (s : State) (q : SeqId) (y : Seqr) : (s.setSeqr q y).erase = s.erase := rfl
@[simp] theorem State.setSeqr_fmap (s : State) (q : SeqId) (y : Seqr) : (s.setSeqr q y).fmap = s.fmap := rfl
@[simp] theorem State.setSeqr_flashSpare (s : State) (q : SeqId) (y : Seqr) : (s.setSeqr q y).flashSpare = s.flashSpare := rfl
@[simp] theorem State.setSeqr_progFail (s : State) (q : SeqId) (y : Seqr) : (s.setSeqr q y).progFail = s.progFail := rfl
@[simp] theorem State.setSeqr_verifyFail (s : State) (q : SeqId) (y : Seqr) : (s.setSeqr q y).verifyFail = s.verifyFail := rfl
@[simp] theorem State.setSeqr_lostRecords (s : State) (q : SeqId) (y : Seqr) : (s.setSeqr q y).lostRecords = s.lostRecords := rfl
@[simp] theorem State.setSeqr_shutPend (s : State) (q : SeqId) (y : Seqr) : (s.setSeqr q y).shutPend = s.shutPend := rfl
@[simp] theorem State.setSeqr_shut (s : State) (q : SeqId) (y : Seqr) : (s.setSeqr q y).shut = s.shut := rfl
@[simp] theorem State.setSeqr_exchange (s : State) (q : SeqId) (y : Seqr) : (s.setSeqr q y).exchange = s.exchange := rfl
@[simp] theorem State.setSeqr_devWrites (s : State) (q : SeqId) (y : Seqr) : (s.setSeqr q y).devWrites = s.devWrites := rfl
@[simp] theorem State.setSeqr_ready (s : State) (q : SeqId) (y : Seqr) : (s.setSeqr q y).ready = s.ready := rfl
@[simp] theorem State.setSeqr_cxlPop (s : State) (q : SeqId) (y : Seqr) : (s.setSeqr q y).cxlPop = s.cxlPop := rfl
@[simp] theorem State.setSeqr_portDown (s : State) (q : SeqId) (y : Seqr) : (s.setSeqr q y).portDown = s.portDown := rfl
@[simp] theorem State.setSeqr_cxlDown (s : State) (q : SeqId) (y : Seqr) : (s.setSeqr q y).cxlDown = s.cxlDown := rfl
@[simp] theorem State.setSeqr_mcsum (s : State) (q : SeqId) (y : Seqr) : (s.setSeqr q y).mcsum = s.mcsum := rfl
@[simp] theorem State.setSeqr_mccnt (s : State) (q : SeqId) (y : Seqr) : (s.setSeqr q y).mccnt = s.mccnt := rfl
@[simp] theorem State.setSeqr_drops (s : State) (q : SeqId) (y : Seqr) : (s.setSeqr q y).drops = s.drops := rfl
@[simp] theorem State.setSeqr_foreign (s : State) (q : SeqId) (y : Seqr) : (s.setSeqr q y).foreign = s.foreign := rfl
@[simp] theorem State.setSeqr_links (s : State) (q : SeqId) (y : Seqr) : (s.setSeqr q y).links = s.links := rfl
@[simp] theorem State.setSeqr_mbout (s : State) (q : SeqId) (y : Seqr) : (s.setSeqr q y).mbout = s.mbout := rfl
@[simp] theorem State.setSeqr_mbuf (s : State) (q : SeqId) (y : Seqr) : (s.setSeqr q y).mbuf = s.mbuf := rfl
@[simp] theorem State.setSeqr_thermals (s : State) (q : SeqId) (y : Seqr) : (s.setSeqr q y).thermals = s.thermals := rfl
@[simp] theorem State.setSeqr_thermalRing (s : State) (q : SeqId) (y : Seqr) : (s.setSeqr q y).thermalRing = s.thermalRing := rfl
@[simp] theorem State.setSeqr_sent (s : State) (q : SeqId) (y : Seqr) : (s.setSeqr q y).sent = s.sent := rfl
@[simp] theorem State.setSeqr_residency (s : State) (q : SeqId) (y : Seqr) : (s.setSeqr q y).residency = s.residency := rfl
@[simp] theorem State.setSeqr_shared (s : State) (q : SeqId) (y : Seqr) : (s.setSeqr q y).shared = s.shared := rfl
@[simp] theorem State.setSeqr_samples (s : State) (q : SeqId) (y : Seqr) : (s.setSeqr q y).samples = s.samples := rfl
@[simp] theorem State.setSeqr_exports (s : State) (q : SeqId) (y : Seqr) : (s.setSeqr q y).exports = s.exports := rfl

/-! setMx -/

@[simp] theorem State.setMx_cur (s : State) (m : Nat) (x : Mx) : (s.setMx m x).cur = s.cur := rfl
@[simp] theorem State.setMx_agenda (s : State) (m : Nat) (x : Mx) : (s.setMx m x).agenda = s.agenda := rfl
@[simp] theorem State.setMx_turn (s : State) (m : Nat) (x : Mx) : (s.setMx m x).turn = s.turn := rfl
@[simp] theorem State.setMx_fresh (s : State) (m : Nat) (x : Mx) : (s.setMx m x).fresh = s.fresh := rfl
@[simp] theorem State.setMx_nextId (s : State) (m : Nat) (x : Mx) : (s.setMx m x).nextId = s.nextId := rfl
@[simp] theorem State.setMx_dclk (s : State) (m : Nat) (x : Mx) : (s.setMx m x).dclk = s.dclk := rfl
@[simp] theorem State.setMx_ltb (s : State) (m : Nat) (x : Mx) : (s.setMx m x).ltb = s.ltb := rfl
@[simp] theorem State.setMx_booted (s : State) (m : Nat) (x : Mx) : (s.setMx m x).booted = s.booted := rfl
@[simp] theorem State.setMx_fwImage (s : State) (m : Nat) (x : Mx) : (s.setMx m x).fwImage = s.fwImage := rfl
@[simp] theorem State.setMx_fwHash (s : State) (m : Nat) (x : Mx) : (s.setMx m x).fwHash = s.fwHash := rfl
@[simp] theorem State.setMx_mem (s : State) (m : Nat) (x : Mx) : (s.setMx m x).mem = s.mem := rfl
@[simp] theorem State.setMx_attn (s : State) (m : Nat) (x : Mx) : (s.setMx m x).attn = s.attn := rfl
@[simp] theorem State.setMx_badBlks (s : State) (m : Nat) (x : Mx) : (s.setMx m x).badBlks = s.badBlks := rfl
@[simp] theorem State.setMx_attnBad (s : State) (m : Nat) (x : Mx) : (s.setMx m x).attnBad = s.attnBad := rfl
@[simp] theorem State.setMx_weak (s : State) (m : Nat) (x : Mx) : (s.setMx m x).weak = s.weak := rfl
@[simp] theorem State.setMx_corrected (s : State) (m : Nat) (x : Mx) : (s.setMx m x).corrected = s.corrected := rfl
@[simp] theorem State.setMx_llc (s : State) (m : Nat) (x : Mx) : (s.setMx m x).llc = s.llc := rfl
@[simp] theorem State.setMx_llcBad (s : State) (m : Nat) (x : Mx) : (s.setMx m x).llcBad = s.llcBad := rfl
@[simp] theorem State.setMx_stageBad (s : State) (m : Nat) (x : Mx) : (s.setMx m x).stageBad = s.stageBad := rfl
@[simp] theorem State.setMx_staging (s : State) (m : Nat) (x : Mx) : (s.setMx m x).staging = s.staging := rfl
@[simp] theorem State.setMx_ahead (s : State) (m : Nat) (x : Mx) : (s.setMx m x).ahead = s.ahead := rfl
@[simp] theorem State.setMx_quotas (s : State) (m : Nat) (x : Mx) : (s.setMx m x).quotas = s.quotas := rfl
@[simp] theorem State.setMx_walks (s : State) (m : Nat) (x : Mx) : (s.setMx m x).walks = s.walks := rfl
@[simp] theorem State.setMx_turns (s : State) (m : Nat) (x : Mx) : (s.setMx m x).turns = s.turns := rfl
@[simp] theorem State.setMx_devTensors (s : State) (m : Nat) (x : Mx) : (s.setMx m x).devTensors = s.devTensors := rfl
@[simp] theorem State.setMx_cores (s : State) (m : Nat) (x : Mx) : (s.setMx m x).cores = s.cores := rfl
@[simp] theorem State.setMx_tiers (s : State) (m : Nat) (x : Mx) : (s.setMx m x).tiers = s.tiers := rfl
@[simp] theorem State.setMx_mull (s : State) (m : Nat) (x : Mx) : (s.setMx m x).mull = s.mull := rfl
@[simp] theorem State.setMx_mullUsed (s : State) (m : Nat) (x : Mx) : (s.setMx m x).mullUsed = s.mullUsed := rfl
@[simp] theorem State.setMx_colmap (s : State) (m : Nat) (x : Mx) : (s.setMx m x).colmap = s.colmap := rfl
@[simp] theorem State.setMx_lostCols (s : State) (m : Nat) (x : Mx) : (s.setMx m x).lostCols = s.lostCols := rfl
@[simp] theorem State.setMx_retiring (s : State) (m : Nat) (x : Mx) : (s.setMx m x).retiring = s.retiring := rfl
@[simp] theorem State.setMx_badCols (s : State) (m : Nat) (x : Mx) : (s.setMx m x).badCols = s.badCols := rfl
@[simp] theorem State.setMx_sparesUsed (s : State) (m : Nat) (x : Mx) : (s.setMx m x).sparesUsed = s.sparesUsed := rfl
@[simp] theorem State.setMx_hbmMap (s : State) (m : Nat) (x : Mx) : (s.setMx m x).hbmMap = s.hbmMap := rfl
@[simp] theorem State.setMx_mxs (s : State) (m : Nat) (x : Mx) : (s.setMx m x).mxs = s.mxs.put m x := rfl
@[simp] theorem State.setMx_parts (s : State) (m : Nat) (x : Mx) : (s.setMx m x).parts = s.parts := rfl
@[simp] theorem State.setMx_keys (s : State) (m : Nat) (x : Mx) : (s.setMx m x).keys = s.keys := rfl
@[simp] theorem State.setMx_segs (s : State) (m : Nat) (x : Mx) : (s.setMx m x).segs = s.segs := rfl
@[simp] theorem State.setMx_flows (s : State) (m : Nat) (x : Mx) : (s.setMx m x).flows = s.flows := rfl
@[simp] theorem State.setMx_vkeys (s : State) (m : Nat) (x : Mx) : (s.setMx m x).vkeys = s.vkeys := rfl
@[simp] theorem State.setMx_arenas (s : State) (m : Nat) (x : Mx) : (s.setMx m x).arenas = s.arenas := rfl
@[simp] theorem State.setMx_index (s : State) (m : Nat) (x : Mx) : (s.setMx m x).index = s.index := rfl
@[simp] theorem State.setMx_reqs (s : State) (m : Nat) (x : Mx) : (s.setMx m x).reqs = s.reqs := rfl
@[simp] theorem State.setMx_copies (s : State) (m : Nat) (x : Mx) : (s.setMx m x).copies = s.copies := rfl
@[simp] theorem State.setMx_peers (s : State) (m : Nat) (x : Mx) : (s.setMx m x).peers = s.peers := rfl
@[simp] theorem State.setMx_emits (s : State) (m : Nat) (x : Mx) : (s.setMx m x).emits = s.emits := rfl
@[simp] theorem State.setMx_kvs (s : State) (m : Nat) (x : Mx) : (s.setMx m x).kvs = s.kvs := rfl
@[simp] theorem State.setMx_installs (s : State) (m : Nat) (x : Mx) : (s.setMx m x).installs = s.installs := rfl
@[simp] theorem State.setMx_scrubs (s : State) (m : Nat) (x : Mx) : (s.setMx m x).scrubs = s.scrubs := rfl
@[simp] theorem State.setMx_hkOps (s : State) (m : Nat) (x : Mx) : (s.setMx m x).hkOps = s.hkOps := rfl
@[simp] theorem State.setMx_hk (s : State) (m : Nat) (x : Mx) : (s.setMx m x).hk = s.hk := rfl
@[simp] theorem State.setMx_events (s : State) (m : Nat) (x : Mx) : (s.setMx m x).events = s.events := rfl
@[simp] theorem State.setMx_eventCount (s : State) (m : Nat) (x : Mx) : (s.setMx m x).eventCount = s.eventCount := rfl
@[simp] theorem State.setMx_records (s : State) (m : Nat) (x : Mx) : (s.setMx m x).records = s.records := rfl
@[simp] theorem State.setMx_aperture (s : State) (m : Nat) (x : Mx) : (s.setMx m x).aperture = s.aperture := rfl
@[simp] theorem State.setMx_wsegs (s : State) (m : Nat) (x : Mx) : (s.setMx m x).wsegs = s.wsegs := rfl
@[simp] theorem State.setMx_devw (s : State) (m : Nat) (x : Mx) : (s.setMx m x).devw = s.devw := rfl
@[simp] theorem State.setMx_peerDus (s : State) (m : Nat) (x : Mx) : (s.setMx m x).peerDus = s.peerDus := rfl
@[simp] theorem State.setMx_erase (s : State) (m : Nat) (x : Mx) : (s.setMx m x).erase = s.erase := rfl
@[simp] theorem State.setMx_fmap (s : State) (m : Nat) (x : Mx) : (s.setMx m x).fmap = s.fmap := rfl
@[simp] theorem State.setMx_flashSpare (s : State) (m : Nat) (x : Mx) : (s.setMx m x).flashSpare = s.flashSpare := rfl
@[simp] theorem State.setMx_progFail (s : State) (m : Nat) (x : Mx) : (s.setMx m x).progFail = s.progFail := rfl
@[simp] theorem State.setMx_verifyFail (s : State) (m : Nat) (x : Mx) : (s.setMx m x).verifyFail = s.verifyFail := rfl
@[simp] theorem State.setMx_lostRecords (s : State) (m : Nat) (x : Mx) : (s.setMx m x).lostRecords = s.lostRecords := rfl
@[simp] theorem State.setMx_shutPend (s : State) (m : Nat) (x : Mx) : (s.setMx m x).shutPend = s.shutPend := rfl
@[simp] theorem State.setMx_shut (s : State) (m : Nat) (x : Mx) : (s.setMx m x).shut = s.shut := rfl
@[simp] theorem State.setMx_exchange (s : State) (m : Nat) (x : Mx) : (s.setMx m x).exchange = s.exchange := rfl
@[simp] theorem State.setMx_devWrites (s : State) (m : Nat) (x : Mx) : (s.setMx m x).devWrites = s.devWrites := rfl
@[simp] theorem State.setMx_ready (s : State) (m : Nat) (x : Mx) : (s.setMx m x).ready = s.ready := rfl
@[simp] theorem State.setMx_cxlPop (s : State) (m : Nat) (x : Mx) : (s.setMx m x).cxlPop = s.cxlPop := rfl
@[simp] theorem State.setMx_portDown (s : State) (m : Nat) (x : Mx) : (s.setMx m x).portDown = s.portDown := rfl
@[simp] theorem State.setMx_cxlDown (s : State) (m : Nat) (x : Mx) : (s.setMx m x).cxlDown = s.cxlDown := rfl
@[simp] theorem State.setMx_mcsum (s : State) (m : Nat) (x : Mx) : (s.setMx m x).mcsum = s.mcsum := rfl
@[simp] theorem State.setMx_mccnt (s : State) (m : Nat) (x : Mx) : (s.setMx m x).mccnt = s.mccnt := rfl
@[simp] theorem State.setMx_drops (s : State) (m : Nat) (x : Mx) : (s.setMx m x).drops = s.drops := rfl
@[simp] theorem State.setMx_foreign (s : State) (m : Nat) (x : Mx) : (s.setMx m x).foreign = s.foreign := rfl
@[simp] theorem State.setMx_links (s : State) (m : Nat) (x : Mx) : (s.setMx m x).links = s.links := rfl
@[simp] theorem State.setMx_mbout (s : State) (m : Nat) (x : Mx) : (s.setMx m x).mbout = s.mbout := rfl
@[simp] theorem State.setMx_mbuf (s : State) (m : Nat) (x : Mx) : (s.setMx m x).mbuf = s.mbuf := rfl
@[simp] theorem State.setMx_thermals (s : State) (m : Nat) (x : Mx) : (s.setMx m x).thermals = s.thermals := rfl
@[simp] theorem State.setMx_thermalRing (s : State) (m : Nat) (x : Mx) : (s.setMx m x).thermalRing = s.thermalRing := rfl
@[simp] theorem State.setMx_sent (s : State) (m : Nat) (x : Mx) : (s.setMx m x).sent = s.sent := rfl
@[simp] theorem State.setMx_residency (s : State) (m : Nat) (x : Mx) : (s.setMx m x).residency = s.residency := rfl
@[simp] theorem State.setMx_shared (s : State) (m : Nat) (x : Mx) : (s.setMx m x).shared = s.shared := rfl
@[simp] theorem State.setMx_samples (s : State) (m : Nat) (x : Mx) : (s.setMx m x).samples = s.samples := rfl
@[simp] theorem State.setMx_exports (s : State) (m : Nat) (x : Mx) : (s.setMx m x).exports = s.exports := rfl

/-! setPart -/

@[simp] theorem State.setPart_cur (s : State) (p : Nat) (x : Partition) : (s.setPart p x).cur = s.cur := rfl
@[simp] theorem State.setPart_agenda (s : State) (p : Nat) (x : Partition) : (s.setPart p x).agenda = s.agenda := rfl
@[simp] theorem State.setPart_turn (s : State) (p : Nat) (x : Partition) : (s.setPart p x).turn = s.turn := rfl
@[simp] theorem State.setPart_fresh (s : State) (p : Nat) (x : Partition) : (s.setPart p x).fresh = s.fresh := rfl
@[simp] theorem State.setPart_nextId (s : State) (p : Nat) (x : Partition) : (s.setPart p x).nextId = s.nextId := rfl
@[simp] theorem State.setPart_dclk (s : State) (p : Nat) (x : Partition) : (s.setPart p x).dclk = s.dclk := rfl
@[simp] theorem State.setPart_ltb (s : State) (p : Nat) (x : Partition) : (s.setPart p x).ltb = s.ltb := rfl
@[simp] theorem State.setPart_booted (s : State) (p : Nat) (x : Partition) : (s.setPart p x).booted = s.booted := rfl
@[simp] theorem State.setPart_fwImage (s : State) (p : Nat) (x : Partition) : (s.setPart p x).fwImage = s.fwImage := rfl
@[simp] theorem State.setPart_fwHash (s : State) (p : Nat) (x : Partition) : (s.setPart p x).fwHash = s.fwHash := rfl
@[simp] theorem State.setPart_mem (s : State) (p : Nat) (x : Partition) : (s.setPart p x).mem = s.mem := rfl
@[simp] theorem State.setPart_attn (s : State) (p : Nat) (x : Partition) : (s.setPart p x).attn = s.attn := rfl
@[simp] theorem State.setPart_badBlks (s : State) (p : Nat) (x : Partition) : (s.setPart p x).badBlks = s.badBlks := rfl
@[simp] theorem State.setPart_attnBad (s : State) (p : Nat) (x : Partition) : (s.setPart p x).attnBad = s.attnBad := rfl
@[simp] theorem State.setPart_weak (s : State) (p : Nat) (x : Partition) : (s.setPart p x).weak = s.weak := rfl
@[simp] theorem State.setPart_corrected (s : State) (p : Nat) (x : Partition) : (s.setPart p x).corrected = s.corrected := rfl
@[simp] theorem State.setPart_llc (s : State) (p : Nat) (x : Partition) : (s.setPart p x).llc = s.llc := rfl
@[simp] theorem State.setPart_llcBad (s : State) (p : Nat) (x : Partition) : (s.setPart p x).llcBad = s.llcBad := rfl
@[simp] theorem State.setPart_stageBad (s : State) (p : Nat) (x : Partition) : (s.setPart p x).stageBad = s.stageBad := rfl
@[simp] theorem State.setPart_staging (s : State) (p : Nat) (x : Partition) : (s.setPart p x).staging = s.staging := rfl
@[simp] theorem State.setPart_ahead (s : State) (p : Nat) (x : Partition) : (s.setPart p x).ahead = s.ahead := rfl
@[simp] theorem State.setPart_quotas (s : State) (p : Nat) (x : Partition) : (s.setPart p x).quotas = s.quotas := rfl
@[simp] theorem State.setPart_walks (s : State) (p : Nat) (x : Partition) : (s.setPart p x).walks = s.walks := rfl
@[simp] theorem State.setPart_turns (s : State) (p : Nat) (x : Partition) : (s.setPart p x).turns = s.turns := rfl
@[simp] theorem State.setPart_devTensors (s : State) (p : Nat) (x : Partition) : (s.setPart p x).devTensors = s.devTensors := rfl
@[simp] theorem State.setPart_cores (s : State) (p : Nat) (x : Partition) : (s.setPart p x).cores = s.cores := rfl
@[simp] theorem State.setPart_tiers (s : State) (p : Nat) (x : Partition) : (s.setPart p x).tiers = s.tiers := rfl
@[simp] theorem State.setPart_mull (s : State) (p : Nat) (x : Partition) : (s.setPart p x).mull = s.mull := rfl
@[simp] theorem State.setPart_mullUsed (s : State) (p : Nat) (x : Partition) : (s.setPart p x).mullUsed = s.mullUsed := rfl
@[simp] theorem State.setPart_colmap (s : State) (p : Nat) (x : Partition) : (s.setPart p x).colmap = s.colmap := rfl
@[simp] theorem State.setPart_lostCols (s : State) (p : Nat) (x : Partition) : (s.setPart p x).lostCols = s.lostCols := rfl
@[simp] theorem State.setPart_retiring (s : State) (p : Nat) (x : Partition) : (s.setPart p x).retiring = s.retiring := rfl
@[simp] theorem State.setPart_badCols (s : State) (p : Nat) (x : Partition) : (s.setPart p x).badCols = s.badCols := rfl
@[simp] theorem State.setPart_sparesUsed (s : State) (p : Nat) (x : Partition) : (s.setPart p x).sparesUsed = s.sparesUsed := rfl
@[simp] theorem State.setPart_hbmMap (s : State) (p : Nat) (x : Partition) : (s.setPart p x).hbmMap = s.hbmMap := rfl
@[simp] theorem State.setPart_mxs (s : State) (p : Nat) (x : Partition) : (s.setPart p x).mxs = s.mxs := rfl
@[simp] theorem State.setPart_parts (s : State) (p : Nat) (x : Partition) : (s.setPart p x).parts = s.parts.put p x := rfl
@[simp] theorem State.setPart_keys (s : State) (p : Nat) (x : Partition) : (s.setPart p x).keys = s.keys := rfl
@[simp] theorem State.setPart_segs (s : State) (p : Nat) (x : Partition) : (s.setPart p x).segs = s.segs := rfl
@[simp] theorem State.setPart_flows (s : State) (p : Nat) (x : Partition) : (s.setPart p x).flows = s.flows := rfl
@[simp] theorem State.setPart_vkeys (s : State) (p : Nat) (x : Partition) : (s.setPart p x).vkeys = s.vkeys := rfl
@[simp] theorem State.setPart_arenas (s : State) (p : Nat) (x : Partition) : (s.setPart p x).arenas = s.arenas := rfl
@[simp] theorem State.setPart_index (s : State) (p : Nat) (x : Partition) : (s.setPart p x).index = s.index := rfl
@[simp] theorem State.setPart_reqs (s : State) (p : Nat) (x : Partition) : (s.setPart p x).reqs = s.reqs := rfl
@[simp] theorem State.setPart_copies (s : State) (p : Nat) (x : Partition) : (s.setPart p x).copies = s.copies := rfl
@[simp] theorem State.setPart_peers (s : State) (p : Nat) (x : Partition) : (s.setPart p x).peers = s.peers := rfl
@[simp] theorem State.setPart_emits (s : State) (p : Nat) (x : Partition) : (s.setPart p x).emits = s.emits := rfl
@[simp] theorem State.setPart_kvs (s : State) (p : Nat) (x : Partition) : (s.setPart p x).kvs = s.kvs := rfl
@[simp] theorem State.setPart_installs (s : State) (p : Nat) (x : Partition) : (s.setPart p x).installs = s.installs := rfl
@[simp] theorem State.setPart_scrubs (s : State) (p : Nat) (x : Partition) : (s.setPart p x).scrubs = s.scrubs := rfl
@[simp] theorem State.setPart_hkOps (s : State) (p : Nat) (x : Partition) : (s.setPart p x).hkOps = s.hkOps := rfl
@[simp] theorem State.setPart_hk (s : State) (p : Nat) (x : Partition) : (s.setPart p x).hk = s.hk := rfl
@[simp] theorem State.setPart_events (s : State) (p : Nat) (x : Partition) : (s.setPart p x).events = s.events := rfl
@[simp] theorem State.setPart_eventCount (s : State) (p : Nat) (x : Partition) : (s.setPart p x).eventCount = s.eventCount := rfl
@[simp] theorem State.setPart_records (s : State) (p : Nat) (x : Partition) : (s.setPart p x).records = s.records := rfl
@[simp] theorem State.setPart_aperture (s : State) (p : Nat) (x : Partition) : (s.setPart p x).aperture = s.aperture := rfl
@[simp] theorem State.setPart_wsegs (s : State) (p : Nat) (x : Partition) : (s.setPart p x).wsegs = s.wsegs := rfl
@[simp] theorem State.setPart_devw (s : State) (p : Nat) (x : Partition) : (s.setPart p x).devw = s.devw := rfl
@[simp] theorem State.setPart_peerDus (s : State) (p : Nat) (x : Partition) : (s.setPart p x).peerDus = s.peerDus := rfl
@[simp] theorem State.setPart_erase (s : State) (p : Nat) (x : Partition) : (s.setPart p x).erase = s.erase := rfl
@[simp] theorem State.setPart_fmap (s : State) (p : Nat) (x : Partition) : (s.setPart p x).fmap = s.fmap := rfl
@[simp] theorem State.setPart_flashSpare (s : State) (p : Nat) (x : Partition) : (s.setPart p x).flashSpare = s.flashSpare := rfl
@[simp] theorem State.setPart_progFail (s : State) (p : Nat) (x : Partition) : (s.setPart p x).progFail = s.progFail := rfl
@[simp] theorem State.setPart_verifyFail (s : State) (p : Nat) (x : Partition) : (s.setPart p x).verifyFail = s.verifyFail := rfl
@[simp] theorem State.setPart_lostRecords (s : State) (p : Nat) (x : Partition) : (s.setPart p x).lostRecords = s.lostRecords := rfl
@[simp] theorem State.setPart_shutPend (s : State) (p : Nat) (x : Partition) : (s.setPart p x).shutPend = s.shutPend := rfl
@[simp] theorem State.setPart_shut (s : State) (p : Nat) (x : Partition) : (s.setPart p x).shut = s.shut := rfl
@[simp] theorem State.setPart_exchange (s : State) (p : Nat) (x : Partition) : (s.setPart p x).exchange = s.exchange := rfl
@[simp] theorem State.setPart_devWrites (s : State) (p : Nat) (x : Partition) : (s.setPart p x).devWrites = s.devWrites := rfl
@[simp] theorem State.setPart_ready (s : State) (p : Nat) (x : Partition) : (s.setPart p x).ready = s.ready := rfl
@[simp] theorem State.setPart_cxlPop (s : State) (p : Nat) (x : Partition) : (s.setPart p x).cxlPop = s.cxlPop := rfl
@[simp] theorem State.setPart_portDown (s : State) (p : Nat) (x : Partition) : (s.setPart p x).portDown = s.portDown := rfl
@[simp] theorem State.setPart_cxlDown (s : State) (p : Nat) (x : Partition) : (s.setPart p x).cxlDown = s.cxlDown := rfl
@[simp] theorem State.setPart_mcsum (s : State) (p : Nat) (x : Partition) : (s.setPart p x).mcsum = s.mcsum := rfl
@[simp] theorem State.setPart_mccnt (s : State) (p : Nat) (x : Partition) : (s.setPart p x).mccnt = s.mccnt := rfl
@[simp] theorem State.setPart_drops (s : State) (p : Nat) (x : Partition) : (s.setPart p x).drops = s.drops := rfl
@[simp] theorem State.setPart_foreign (s : State) (p : Nat) (x : Partition) : (s.setPart p x).foreign = s.foreign := rfl
@[simp] theorem State.setPart_links (s : State) (p : Nat) (x : Partition) : (s.setPart p x).links = s.links := rfl
@[simp] theorem State.setPart_mbout (s : State) (p : Nat) (x : Partition) : (s.setPart p x).mbout = s.mbout := rfl
@[simp] theorem State.setPart_mbuf (s : State) (p : Nat) (x : Partition) : (s.setPart p x).mbuf = s.mbuf := rfl
@[simp] theorem State.setPart_thermals (s : State) (p : Nat) (x : Partition) : (s.setPart p x).thermals = s.thermals := rfl
@[simp] theorem State.setPart_thermalRing (s : State) (p : Nat) (x : Partition) : (s.setPart p x).thermalRing = s.thermalRing := rfl
@[simp] theorem State.setPart_sent (s : State) (p : Nat) (x : Partition) : (s.setPart p x).sent = s.sent := rfl
@[simp] theorem State.setPart_residency (s : State) (p : Nat) (x : Partition) : (s.setPart p x).residency = s.residency := rfl
@[simp] theorem State.setPart_shared (s : State) (p : Nat) (x : Partition) : (s.setPart p x).shared = s.shared := rfl
@[simp] theorem State.setPart_samples (s : State) (p : Nat) (x : Partition) : (s.setPart p x).samples = s.samples := rfl
@[simp] theorem State.setPart_exports (s : State) (p : Nat) (x : Partition) : (s.setPart p x).exports = s.exports := rfl

/-! setKey -/

@[simp] theorem State.setKey_cur (s : State) (k : Nat) (x : KeySlot) : (s.setKey k x).cur = s.cur := rfl
@[simp] theorem State.setKey_agenda (s : State) (k : Nat) (x : KeySlot) : (s.setKey k x).agenda = s.agenda := rfl
@[simp] theorem State.setKey_turn (s : State) (k : Nat) (x : KeySlot) : (s.setKey k x).turn = s.turn := rfl
@[simp] theorem State.setKey_fresh (s : State) (k : Nat) (x : KeySlot) : (s.setKey k x).fresh = s.fresh := rfl
@[simp] theorem State.setKey_nextId (s : State) (k : Nat) (x : KeySlot) : (s.setKey k x).nextId = s.nextId := rfl
@[simp] theorem State.setKey_dclk (s : State) (k : Nat) (x : KeySlot) : (s.setKey k x).dclk = s.dclk := rfl
@[simp] theorem State.setKey_ltb (s : State) (k : Nat) (x : KeySlot) : (s.setKey k x).ltb = s.ltb := rfl
@[simp] theorem State.setKey_booted (s : State) (k : Nat) (x : KeySlot) : (s.setKey k x).booted = s.booted := rfl
@[simp] theorem State.setKey_fwImage (s : State) (k : Nat) (x : KeySlot) : (s.setKey k x).fwImage = s.fwImage := rfl
@[simp] theorem State.setKey_fwHash (s : State) (k : Nat) (x : KeySlot) : (s.setKey k x).fwHash = s.fwHash := rfl
@[simp] theorem State.setKey_mem (s : State) (k : Nat) (x : KeySlot) : (s.setKey k x).mem = s.mem := rfl
@[simp] theorem State.setKey_attn (s : State) (k : Nat) (x : KeySlot) : (s.setKey k x).attn = s.attn := rfl
@[simp] theorem State.setKey_badBlks (s : State) (k : Nat) (x : KeySlot) : (s.setKey k x).badBlks = s.badBlks := rfl
@[simp] theorem State.setKey_attnBad (s : State) (k : Nat) (x : KeySlot) : (s.setKey k x).attnBad = s.attnBad := rfl
@[simp] theorem State.setKey_weak (s : State) (k : Nat) (x : KeySlot) : (s.setKey k x).weak = s.weak := rfl
@[simp] theorem State.setKey_corrected (s : State) (k : Nat) (x : KeySlot) : (s.setKey k x).corrected = s.corrected := rfl
@[simp] theorem State.setKey_llc (s : State) (k : Nat) (x : KeySlot) : (s.setKey k x).llc = s.llc := rfl
@[simp] theorem State.setKey_llcBad (s : State) (k : Nat) (x : KeySlot) : (s.setKey k x).llcBad = s.llcBad := rfl
@[simp] theorem State.setKey_stageBad (s : State) (k : Nat) (x : KeySlot) : (s.setKey k x).stageBad = s.stageBad := rfl
@[simp] theorem State.setKey_staging (s : State) (k : Nat) (x : KeySlot) : (s.setKey k x).staging = s.staging := rfl
@[simp] theorem State.setKey_ahead (s : State) (k : Nat) (x : KeySlot) : (s.setKey k x).ahead = s.ahead := rfl
@[simp] theorem State.setKey_quotas (s : State) (k : Nat) (x : KeySlot) : (s.setKey k x).quotas = s.quotas := rfl
@[simp] theorem State.setKey_walks (s : State) (k : Nat) (x : KeySlot) : (s.setKey k x).walks = s.walks := rfl
@[simp] theorem State.setKey_turns (s : State) (k : Nat) (x : KeySlot) : (s.setKey k x).turns = s.turns := rfl
@[simp] theorem State.setKey_devTensors (s : State) (k : Nat) (x : KeySlot) : (s.setKey k x).devTensors = s.devTensors := rfl
@[simp] theorem State.setKey_cores (s : State) (k : Nat) (x : KeySlot) : (s.setKey k x).cores = s.cores := rfl
@[simp] theorem State.setKey_tiers (s : State) (k : Nat) (x : KeySlot) : (s.setKey k x).tiers = s.tiers := rfl
@[simp] theorem State.setKey_mull (s : State) (k : Nat) (x : KeySlot) : (s.setKey k x).mull = s.mull := rfl
@[simp] theorem State.setKey_mullUsed (s : State) (k : Nat) (x : KeySlot) : (s.setKey k x).mullUsed = s.mullUsed := rfl
@[simp] theorem State.setKey_colmap (s : State) (k : Nat) (x : KeySlot) : (s.setKey k x).colmap = s.colmap := rfl
@[simp] theorem State.setKey_lostCols (s : State) (k : Nat) (x : KeySlot) : (s.setKey k x).lostCols = s.lostCols := rfl
@[simp] theorem State.setKey_retiring (s : State) (k : Nat) (x : KeySlot) : (s.setKey k x).retiring = s.retiring := rfl
@[simp] theorem State.setKey_badCols (s : State) (k : Nat) (x : KeySlot) : (s.setKey k x).badCols = s.badCols := rfl
@[simp] theorem State.setKey_sparesUsed (s : State) (k : Nat) (x : KeySlot) : (s.setKey k x).sparesUsed = s.sparesUsed := rfl
@[simp] theorem State.setKey_hbmMap (s : State) (k : Nat) (x : KeySlot) : (s.setKey k x).hbmMap = s.hbmMap := rfl
@[simp] theorem State.setKey_mxs (s : State) (k : Nat) (x : KeySlot) : (s.setKey k x).mxs = s.mxs := rfl
@[simp] theorem State.setKey_parts (s : State) (k : Nat) (x : KeySlot) : (s.setKey k x).parts = s.parts := rfl
@[simp] theorem State.setKey_keys (s : State) (k : Nat) (x : KeySlot) : (s.setKey k x).keys = s.keys.put k x := rfl
@[simp] theorem State.setKey_segs (s : State) (k : Nat) (x : KeySlot) : (s.setKey k x).segs = s.segs := rfl
@[simp] theorem State.setKey_flows (s : State) (k : Nat) (x : KeySlot) : (s.setKey k x).flows = s.flows := rfl
@[simp] theorem State.setKey_vkeys (s : State) (k : Nat) (x : KeySlot) : (s.setKey k x).vkeys = s.vkeys := rfl
@[simp] theorem State.setKey_arenas (s : State) (k : Nat) (x : KeySlot) : (s.setKey k x).arenas = s.arenas := rfl
@[simp] theorem State.setKey_index (s : State) (k : Nat) (x : KeySlot) : (s.setKey k x).index = s.index := rfl
@[simp] theorem State.setKey_reqs (s : State) (k : Nat) (x : KeySlot) : (s.setKey k x).reqs = s.reqs := rfl
@[simp] theorem State.setKey_copies (s : State) (k : Nat) (x : KeySlot) : (s.setKey k x).copies = s.copies := rfl
@[simp] theorem State.setKey_peers (s : State) (k : Nat) (x : KeySlot) : (s.setKey k x).peers = s.peers := rfl
@[simp] theorem State.setKey_emits (s : State) (k : Nat) (x : KeySlot) : (s.setKey k x).emits = s.emits := rfl
@[simp] theorem State.setKey_kvs (s : State) (k : Nat) (x : KeySlot) : (s.setKey k x).kvs = s.kvs := rfl
@[simp] theorem State.setKey_installs (s : State) (k : Nat) (x : KeySlot) : (s.setKey k x).installs = s.installs := rfl
@[simp] theorem State.setKey_scrubs (s : State) (k : Nat) (x : KeySlot) : (s.setKey k x).scrubs = s.scrubs := rfl
@[simp] theorem State.setKey_hkOps (s : State) (k : Nat) (x : KeySlot) : (s.setKey k x).hkOps = s.hkOps := rfl
@[simp] theorem State.setKey_hk (s : State) (k : Nat) (x : KeySlot) : (s.setKey k x).hk = s.hk := rfl
@[simp] theorem State.setKey_events (s : State) (k : Nat) (x : KeySlot) : (s.setKey k x).events = s.events := rfl
@[simp] theorem State.setKey_eventCount (s : State) (k : Nat) (x : KeySlot) : (s.setKey k x).eventCount = s.eventCount := rfl
@[simp] theorem State.setKey_records (s : State) (k : Nat) (x : KeySlot) : (s.setKey k x).records = s.records := rfl
@[simp] theorem State.setKey_aperture (s : State) (k : Nat) (x : KeySlot) : (s.setKey k x).aperture = s.aperture := rfl
@[simp] theorem State.setKey_wsegs (s : State) (k : Nat) (x : KeySlot) : (s.setKey k x).wsegs = s.wsegs := rfl
@[simp] theorem State.setKey_devw (s : State) (k : Nat) (x : KeySlot) : (s.setKey k x).devw = s.devw := rfl
@[simp] theorem State.setKey_peerDus (s : State) (k : Nat) (x : KeySlot) : (s.setKey k x).peerDus = s.peerDus := rfl
@[simp] theorem State.setKey_erase (s : State) (k : Nat) (x : KeySlot) : (s.setKey k x).erase = s.erase := rfl
@[simp] theorem State.setKey_fmap (s : State) (k : Nat) (x : KeySlot) : (s.setKey k x).fmap = s.fmap := rfl
@[simp] theorem State.setKey_flashSpare (s : State) (k : Nat) (x : KeySlot) : (s.setKey k x).flashSpare = s.flashSpare := rfl
@[simp] theorem State.setKey_progFail (s : State) (k : Nat) (x : KeySlot) : (s.setKey k x).progFail = s.progFail := rfl
@[simp] theorem State.setKey_verifyFail (s : State) (k : Nat) (x : KeySlot) : (s.setKey k x).verifyFail = s.verifyFail := rfl
@[simp] theorem State.setKey_lostRecords (s : State) (k : Nat) (x : KeySlot) : (s.setKey k x).lostRecords = s.lostRecords := rfl
@[simp] theorem State.setKey_shutPend (s : State) (k : Nat) (x : KeySlot) : (s.setKey k x).shutPend = s.shutPend := rfl
@[simp] theorem State.setKey_shut (s : State) (k : Nat) (x : KeySlot) : (s.setKey k x).shut = s.shut := rfl
@[simp] theorem State.setKey_exchange (s : State) (k : Nat) (x : KeySlot) : (s.setKey k x).exchange = s.exchange := rfl
@[simp] theorem State.setKey_devWrites (s : State) (k : Nat) (x : KeySlot) : (s.setKey k x).devWrites = s.devWrites := rfl
@[simp] theorem State.setKey_ready (s : State) (k : Nat) (x : KeySlot) : (s.setKey k x).ready = s.ready := rfl
@[simp] theorem State.setKey_cxlPop (s : State) (k : Nat) (x : KeySlot) : (s.setKey k x).cxlPop = s.cxlPop := rfl
@[simp] theorem State.setKey_portDown (s : State) (k : Nat) (x : KeySlot) : (s.setKey k x).portDown = s.portDown := rfl
@[simp] theorem State.setKey_cxlDown (s : State) (k : Nat) (x : KeySlot) : (s.setKey k x).cxlDown = s.cxlDown := rfl
@[simp] theorem State.setKey_mcsum (s : State) (k : Nat) (x : KeySlot) : (s.setKey k x).mcsum = s.mcsum := rfl
@[simp] theorem State.setKey_mccnt (s : State) (k : Nat) (x : KeySlot) : (s.setKey k x).mccnt = s.mccnt := rfl
@[simp] theorem State.setKey_drops (s : State) (k : Nat) (x : KeySlot) : (s.setKey k x).drops = s.drops := rfl
@[simp] theorem State.setKey_foreign (s : State) (k : Nat) (x : KeySlot) : (s.setKey k x).foreign = s.foreign := rfl
@[simp] theorem State.setKey_links (s : State) (k : Nat) (x : KeySlot) : (s.setKey k x).links = s.links := rfl
@[simp] theorem State.setKey_mbout (s : State) (k : Nat) (x : KeySlot) : (s.setKey k x).mbout = s.mbout := rfl
@[simp] theorem State.setKey_mbuf (s : State) (k : Nat) (x : KeySlot) : (s.setKey k x).mbuf = s.mbuf := rfl
@[simp] theorem State.setKey_thermals (s : State) (k : Nat) (x : KeySlot) : (s.setKey k x).thermals = s.thermals := rfl
@[simp] theorem State.setKey_thermalRing (s : State) (k : Nat) (x : KeySlot) : (s.setKey k x).thermalRing = s.thermalRing := rfl
@[simp] theorem State.setKey_sent (s : State) (k : Nat) (x : KeySlot) : (s.setKey k x).sent = s.sent := rfl
@[simp] theorem State.setKey_residency (s : State) (k : Nat) (x : KeySlot) : (s.setKey k x).residency = s.residency := rfl
@[simp] theorem State.setKey_shared (s : State) (k : Nat) (x : KeySlot) : (s.setKey k x).shared = s.shared := rfl
@[simp] theorem State.setKey_samples (s : State) (k : Nat) (x : KeySlot) : (s.setKey k x).samples = s.samples := rfl
@[simp] theorem State.setKey_exports (s : State) (k : Nat) (x : KeySlot) : (s.setKey k x).exports = s.exports := rfl

/-! setTier -/

@[simp] theorem State.setTier_cur (s : State) (k : Nat) (x : Tier) : (s.setTier k x).cur = s.cur := rfl
@[simp] theorem State.setTier_agenda (s : State) (k : Nat) (x : Tier) : (s.setTier k x).agenda = s.agenda := rfl
@[simp] theorem State.setTier_turn (s : State) (k : Nat) (x : Tier) : (s.setTier k x).turn = s.turn := rfl
@[simp] theorem State.setTier_fresh (s : State) (k : Nat) (x : Tier) : (s.setTier k x).fresh = s.fresh := rfl
@[simp] theorem State.setTier_nextId (s : State) (k : Nat) (x : Tier) : (s.setTier k x).nextId = s.nextId := rfl
@[simp] theorem State.setTier_dclk (s : State) (k : Nat) (x : Tier) : (s.setTier k x).dclk = s.dclk := rfl
@[simp] theorem State.setTier_ltb (s : State) (k : Nat) (x : Tier) : (s.setTier k x).ltb = s.ltb := rfl
@[simp] theorem State.setTier_booted (s : State) (k : Nat) (x : Tier) : (s.setTier k x).booted = s.booted := rfl
@[simp] theorem State.setTier_fwImage (s : State) (k : Nat) (x : Tier) : (s.setTier k x).fwImage = s.fwImage := rfl
@[simp] theorem State.setTier_fwHash (s : State) (k : Nat) (x : Tier) : (s.setTier k x).fwHash = s.fwHash := rfl
@[simp] theorem State.setTier_mem (s : State) (k : Nat) (x : Tier) : (s.setTier k x).mem = s.mem := rfl
@[simp] theorem State.setTier_attn (s : State) (k : Nat) (x : Tier) : (s.setTier k x).attn = s.attn := rfl
@[simp] theorem State.setTier_badBlks (s : State) (k : Nat) (x : Tier) : (s.setTier k x).badBlks = s.badBlks := rfl
@[simp] theorem State.setTier_attnBad (s : State) (k : Nat) (x : Tier) : (s.setTier k x).attnBad = s.attnBad := rfl
@[simp] theorem State.setTier_weak (s : State) (k : Nat) (x : Tier) : (s.setTier k x).weak = s.weak := rfl
@[simp] theorem State.setTier_corrected (s : State) (k : Nat) (x : Tier) : (s.setTier k x).corrected = s.corrected := rfl
@[simp] theorem State.setTier_llc (s : State) (k : Nat) (x : Tier) : (s.setTier k x).llc = s.llc := rfl
@[simp] theorem State.setTier_llcBad (s : State) (k : Nat) (x : Tier) : (s.setTier k x).llcBad = s.llcBad := rfl
@[simp] theorem State.setTier_stageBad (s : State) (k : Nat) (x : Tier) : (s.setTier k x).stageBad = s.stageBad := rfl
@[simp] theorem State.setTier_staging (s : State) (k : Nat) (x : Tier) : (s.setTier k x).staging = s.staging := rfl
@[simp] theorem State.setTier_ahead (s : State) (k : Nat) (x : Tier) : (s.setTier k x).ahead = s.ahead := rfl
@[simp] theorem State.setTier_quotas (s : State) (k : Nat) (x : Tier) : (s.setTier k x).quotas = s.quotas := rfl
@[simp] theorem State.setTier_walks (s : State) (k : Nat) (x : Tier) : (s.setTier k x).walks = s.walks := rfl
@[simp] theorem State.setTier_turns (s : State) (k : Nat) (x : Tier) : (s.setTier k x).turns = s.turns := rfl
@[simp] theorem State.setTier_devTensors (s : State) (k : Nat) (x : Tier) : (s.setTier k x).devTensors = s.devTensors := rfl
@[simp] theorem State.setTier_cores (s : State) (k : Nat) (x : Tier) : (s.setTier k x).cores = s.cores := rfl
@[simp] theorem State.setTier_tiers (s : State) (k : Nat) (x : Tier) : (s.setTier k x).tiers = s.tiers.put k x := rfl
@[simp] theorem State.setTier_mull (s : State) (k : Nat) (x : Tier) : (s.setTier k x).mull = s.mull := rfl
@[simp] theorem State.setTier_mullUsed (s : State) (k : Nat) (x : Tier) : (s.setTier k x).mullUsed = s.mullUsed := rfl
@[simp] theorem State.setTier_colmap (s : State) (k : Nat) (x : Tier) : (s.setTier k x).colmap = s.colmap := rfl
@[simp] theorem State.setTier_lostCols (s : State) (k : Nat) (x : Tier) : (s.setTier k x).lostCols = s.lostCols := rfl
@[simp] theorem State.setTier_retiring (s : State) (k : Nat) (x : Tier) : (s.setTier k x).retiring = s.retiring := rfl
@[simp] theorem State.setTier_badCols (s : State) (k : Nat) (x : Tier) : (s.setTier k x).badCols = s.badCols := rfl
@[simp] theorem State.setTier_sparesUsed (s : State) (k : Nat) (x : Tier) : (s.setTier k x).sparesUsed = s.sparesUsed := rfl
@[simp] theorem State.setTier_hbmMap (s : State) (k : Nat) (x : Tier) : (s.setTier k x).hbmMap = s.hbmMap := rfl
@[simp] theorem State.setTier_mxs (s : State) (k : Nat) (x : Tier) : (s.setTier k x).mxs = s.mxs := rfl
@[simp] theorem State.setTier_parts (s : State) (k : Nat) (x : Tier) : (s.setTier k x).parts = s.parts := rfl
@[simp] theorem State.setTier_keys (s : State) (k : Nat) (x : Tier) : (s.setTier k x).keys = s.keys := rfl
@[simp] theorem State.setTier_segs (s : State) (k : Nat) (x : Tier) : (s.setTier k x).segs = s.segs := rfl
@[simp] theorem State.setTier_flows (s : State) (k : Nat) (x : Tier) : (s.setTier k x).flows = s.flows := rfl
@[simp] theorem State.setTier_vkeys (s : State) (k : Nat) (x : Tier) : (s.setTier k x).vkeys = s.vkeys := rfl
@[simp] theorem State.setTier_arenas (s : State) (k : Nat) (x : Tier) : (s.setTier k x).arenas = s.arenas := rfl
@[simp] theorem State.setTier_index (s : State) (k : Nat) (x : Tier) : (s.setTier k x).index = s.index := rfl
@[simp] theorem State.setTier_reqs (s : State) (k : Nat) (x : Tier) : (s.setTier k x).reqs = s.reqs := rfl
@[simp] theorem State.setTier_copies (s : State) (k : Nat) (x : Tier) : (s.setTier k x).copies = s.copies := rfl
@[simp] theorem State.setTier_peers (s : State) (k : Nat) (x : Tier) : (s.setTier k x).peers = s.peers := rfl
@[simp] theorem State.setTier_emits (s : State) (k : Nat) (x : Tier) : (s.setTier k x).emits = s.emits := rfl
@[simp] theorem State.setTier_kvs (s : State) (k : Nat) (x : Tier) : (s.setTier k x).kvs = s.kvs := rfl
@[simp] theorem State.setTier_installs (s : State) (k : Nat) (x : Tier) : (s.setTier k x).installs = s.installs := rfl
@[simp] theorem State.setTier_scrubs (s : State) (k : Nat) (x : Tier) : (s.setTier k x).scrubs = s.scrubs := rfl
@[simp] theorem State.setTier_hkOps (s : State) (k : Nat) (x : Tier) : (s.setTier k x).hkOps = s.hkOps := rfl
@[simp] theorem State.setTier_hk (s : State) (k : Nat) (x : Tier) : (s.setTier k x).hk = s.hk := rfl
@[simp] theorem State.setTier_events (s : State) (k : Nat) (x : Tier) : (s.setTier k x).events = s.events := rfl
@[simp] theorem State.setTier_eventCount (s : State) (k : Nat) (x : Tier) : (s.setTier k x).eventCount = s.eventCount := rfl
@[simp] theorem State.setTier_records (s : State) (k : Nat) (x : Tier) : (s.setTier k x).records = s.records := rfl
@[simp] theorem State.setTier_aperture (s : State) (k : Nat) (x : Tier) : (s.setTier k x).aperture = s.aperture := rfl
@[simp] theorem State.setTier_wsegs (s : State) (k : Nat) (x : Tier) : (s.setTier k x).wsegs = s.wsegs := rfl
@[simp] theorem State.setTier_devw (s : State) (k : Nat) (x : Tier) : (s.setTier k x).devw = s.devw := rfl
@[simp] theorem State.setTier_peerDus (s : State) (k : Nat) (x : Tier) : (s.setTier k x).peerDus = s.peerDus := rfl
@[simp] theorem State.setTier_erase (s : State) (k : Nat) (x : Tier) : (s.setTier k x).erase = s.erase := rfl
@[simp] theorem State.setTier_fmap (s : State) (k : Nat) (x : Tier) : (s.setTier k x).fmap = s.fmap := rfl
@[simp] theorem State.setTier_flashSpare (s : State) (k : Nat) (x : Tier) : (s.setTier k x).flashSpare = s.flashSpare := rfl
@[simp] theorem State.setTier_progFail (s : State) (k : Nat) (x : Tier) : (s.setTier k x).progFail = s.progFail := rfl
@[simp] theorem State.setTier_verifyFail (s : State) (k : Nat) (x : Tier) : (s.setTier k x).verifyFail = s.verifyFail := rfl
@[simp] theorem State.setTier_lostRecords (s : State) (k : Nat) (x : Tier) : (s.setTier k x).lostRecords = s.lostRecords := rfl
@[simp] theorem State.setTier_shutPend (s : State) (k : Nat) (x : Tier) : (s.setTier k x).shutPend = s.shutPend := rfl
@[simp] theorem State.setTier_shut (s : State) (k : Nat) (x : Tier) : (s.setTier k x).shut = s.shut := rfl
@[simp] theorem State.setTier_exchange (s : State) (k : Nat) (x : Tier) : (s.setTier k x).exchange = s.exchange := rfl
@[simp] theorem State.setTier_devWrites (s : State) (k : Nat) (x : Tier) : (s.setTier k x).devWrites = s.devWrites := rfl
@[simp] theorem State.setTier_ready (s : State) (k : Nat) (x : Tier) : (s.setTier k x).ready = s.ready := rfl
@[simp] theorem State.setTier_cxlPop (s : State) (k : Nat) (x : Tier) : (s.setTier k x).cxlPop = s.cxlPop := rfl
@[simp] theorem State.setTier_portDown (s : State) (k : Nat) (x : Tier) : (s.setTier k x).portDown = s.portDown := rfl
@[simp] theorem State.setTier_cxlDown (s : State) (k : Nat) (x : Tier) : (s.setTier k x).cxlDown = s.cxlDown := rfl
@[simp] theorem State.setTier_mcsum (s : State) (k : Nat) (x : Tier) : (s.setTier k x).mcsum = s.mcsum := rfl
@[simp] theorem State.setTier_mccnt (s : State) (k : Nat) (x : Tier) : (s.setTier k x).mccnt = s.mccnt := rfl
@[simp] theorem State.setTier_drops (s : State) (k : Nat) (x : Tier) : (s.setTier k x).drops = s.drops := rfl
@[simp] theorem State.setTier_foreign (s : State) (k : Nat) (x : Tier) : (s.setTier k x).foreign = s.foreign := rfl
@[simp] theorem State.setTier_links (s : State) (k : Nat) (x : Tier) : (s.setTier k x).links = s.links := rfl
@[simp] theorem State.setTier_mbout (s : State) (k : Nat) (x : Tier) : (s.setTier k x).mbout = s.mbout := rfl
@[simp] theorem State.setTier_mbuf (s : State) (k : Nat) (x : Tier) : (s.setTier k x).mbuf = s.mbuf := rfl
@[simp] theorem State.setTier_thermals (s : State) (k : Nat) (x : Tier) : (s.setTier k x).thermals = s.thermals := rfl
@[simp] theorem State.setTier_thermalRing (s : State) (k : Nat) (x : Tier) : (s.setTier k x).thermalRing = s.thermalRing := rfl
@[simp] theorem State.setTier_sent (s : State) (k : Nat) (x : Tier) : (s.setTier k x).sent = s.sent := rfl
@[simp] theorem State.setTier_residency (s : State) (k : Nat) (x : Tier) : (s.setTier k x).residency = s.residency := rfl
@[simp] theorem State.setTier_shared (s : State) (k : Nat) (x : Tier) : (s.setTier k x).shared = s.shared := rfl
@[simp] theorem State.setTier_samples (s : State) (k : Nat) (x : Tier) : (s.setTier k x).samples = s.samples := rfl
@[simp] theorem State.setTier_exports (s : State) (k : Nat) (x : Tier) : (s.setTier k x).exports = s.exports := rfl

/-! setArena -/

@[simp] theorem State.setArena_cur (s : State) (k : Nat) (x : Arena) : (s.setArena k x).cur = s.cur := rfl
@[simp] theorem State.setArena_agenda (s : State) (k : Nat) (x : Arena) : (s.setArena k x).agenda = s.agenda := rfl
@[simp] theorem State.setArena_turn (s : State) (k : Nat) (x : Arena) : (s.setArena k x).turn = s.turn := rfl
@[simp] theorem State.setArena_fresh (s : State) (k : Nat) (x : Arena) : (s.setArena k x).fresh = s.fresh := rfl
@[simp] theorem State.setArena_nextId (s : State) (k : Nat) (x : Arena) : (s.setArena k x).nextId = s.nextId := rfl
@[simp] theorem State.setArena_dclk (s : State) (k : Nat) (x : Arena) : (s.setArena k x).dclk = s.dclk := rfl
@[simp] theorem State.setArena_ltb (s : State) (k : Nat) (x : Arena) : (s.setArena k x).ltb = s.ltb := rfl
@[simp] theorem State.setArena_booted (s : State) (k : Nat) (x : Arena) : (s.setArena k x).booted = s.booted := rfl
@[simp] theorem State.setArena_fwImage (s : State) (k : Nat) (x : Arena) : (s.setArena k x).fwImage = s.fwImage := rfl
@[simp] theorem State.setArena_fwHash (s : State) (k : Nat) (x : Arena) : (s.setArena k x).fwHash = s.fwHash := rfl
@[simp] theorem State.setArena_mem (s : State) (k : Nat) (x : Arena) : (s.setArena k x).mem = s.mem := rfl
@[simp] theorem State.setArena_attn (s : State) (k : Nat) (x : Arena) : (s.setArena k x).attn = s.attn := rfl
@[simp] theorem State.setArena_badBlks (s : State) (k : Nat) (x : Arena) : (s.setArena k x).badBlks = s.badBlks := rfl
@[simp] theorem State.setArena_attnBad (s : State) (k : Nat) (x : Arena) : (s.setArena k x).attnBad = s.attnBad := rfl
@[simp] theorem State.setArena_weak (s : State) (k : Nat) (x : Arena) : (s.setArena k x).weak = s.weak := rfl
@[simp] theorem State.setArena_corrected (s : State) (k : Nat) (x : Arena) : (s.setArena k x).corrected = s.corrected := rfl
@[simp] theorem State.setArena_llc (s : State) (k : Nat) (x : Arena) : (s.setArena k x).llc = s.llc := rfl
@[simp] theorem State.setArena_llcBad (s : State) (k : Nat) (x : Arena) : (s.setArena k x).llcBad = s.llcBad := rfl
@[simp] theorem State.setArena_stageBad (s : State) (k : Nat) (x : Arena) : (s.setArena k x).stageBad = s.stageBad := rfl
@[simp] theorem State.setArena_staging (s : State) (k : Nat) (x : Arena) : (s.setArena k x).staging = s.staging := rfl
@[simp] theorem State.setArena_ahead (s : State) (k : Nat) (x : Arena) : (s.setArena k x).ahead = s.ahead := rfl
@[simp] theorem State.setArena_quotas (s : State) (k : Nat) (x : Arena) : (s.setArena k x).quotas = s.quotas := rfl
@[simp] theorem State.setArena_walks (s : State) (k : Nat) (x : Arena) : (s.setArena k x).walks = s.walks := rfl
@[simp] theorem State.setArena_turns (s : State) (k : Nat) (x : Arena) : (s.setArena k x).turns = s.turns := rfl
@[simp] theorem State.setArena_devTensors (s : State) (k : Nat) (x : Arena) : (s.setArena k x).devTensors = s.devTensors := rfl
@[simp] theorem State.setArena_cores (s : State) (k : Nat) (x : Arena) : (s.setArena k x).cores = s.cores := rfl
@[simp] theorem State.setArena_tiers (s : State) (k : Nat) (x : Arena) : (s.setArena k x).tiers = s.tiers := rfl
@[simp] theorem State.setArena_mull (s : State) (k : Nat) (x : Arena) : (s.setArena k x).mull = s.mull := rfl
@[simp] theorem State.setArena_mullUsed (s : State) (k : Nat) (x : Arena) : (s.setArena k x).mullUsed = s.mullUsed := rfl
@[simp] theorem State.setArena_colmap (s : State) (k : Nat) (x : Arena) : (s.setArena k x).colmap = s.colmap := rfl
@[simp] theorem State.setArena_lostCols (s : State) (k : Nat) (x : Arena) : (s.setArena k x).lostCols = s.lostCols := rfl
@[simp] theorem State.setArena_retiring (s : State) (k : Nat) (x : Arena) : (s.setArena k x).retiring = s.retiring := rfl
@[simp] theorem State.setArena_badCols (s : State) (k : Nat) (x : Arena) : (s.setArena k x).badCols = s.badCols := rfl
@[simp] theorem State.setArena_sparesUsed (s : State) (k : Nat) (x : Arena) : (s.setArena k x).sparesUsed = s.sparesUsed := rfl
@[simp] theorem State.setArena_hbmMap (s : State) (k : Nat) (x : Arena) : (s.setArena k x).hbmMap = s.hbmMap := rfl
@[simp] theorem State.setArena_mxs (s : State) (k : Nat) (x : Arena) : (s.setArena k x).mxs = s.mxs := rfl
@[simp] theorem State.setArena_parts (s : State) (k : Nat) (x : Arena) : (s.setArena k x).parts = s.parts := rfl
@[simp] theorem State.setArena_keys (s : State) (k : Nat) (x : Arena) : (s.setArena k x).keys = s.keys := rfl
@[simp] theorem State.setArena_segs (s : State) (k : Nat) (x : Arena) : (s.setArena k x).segs = s.segs := rfl
@[simp] theorem State.setArena_flows (s : State) (k : Nat) (x : Arena) : (s.setArena k x).flows = s.flows := rfl
@[simp] theorem State.setArena_vkeys (s : State) (k : Nat) (x : Arena) : (s.setArena k x).vkeys = s.vkeys := rfl
@[simp] theorem State.setArena_arenas (s : State) (k : Nat) (x : Arena) : (s.setArena k x).arenas = s.arenas.put k x := rfl
@[simp] theorem State.setArena_index (s : State) (k : Nat) (x : Arena) : (s.setArena k x).index = s.index := rfl
@[simp] theorem State.setArena_reqs (s : State) (k : Nat) (x : Arena) : (s.setArena k x).reqs = s.reqs := rfl
@[simp] theorem State.setArena_copies (s : State) (k : Nat) (x : Arena) : (s.setArena k x).copies = s.copies := rfl
@[simp] theorem State.setArena_peers (s : State) (k : Nat) (x : Arena) : (s.setArena k x).peers = s.peers := rfl
@[simp] theorem State.setArena_emits (s : State) (k : Nat) (x : Arena) : (s.setArena k x).emits = s.emits := rfl
@[simp] theorem State.setArena_kvs (s : State) (k : Nat) (x : Arena) : (s.setArena k x).kvs = s.kvs := rfl
@[simp] theorem State.setArena_installs (s : State) (k : Nat) (x : Arena) : (s.setArena k x).installs = s.installs := rfl
@[simp] theorem State.setArena_scrubs (s : State) (k : Nat) (x : Arena) : (s.setArena k x).scrubs = s.scrubs := rfl
@[simp] theorem State.setArena_hkOps (s : State) (k : Nat) (x : Arena) : (s.setArena k x).hkOps = s.hkOps := rfl
@[simp] theorem State.setArena_hk (s : State) (k : Nat) (x : Arena) : (s.setArena k x).hk = s.hk := rfl
@[simp] theorem State.setArena_events (s : State) (k : Nat) (x : Arena) : (s.setArena k x).events = s.events := rfl
@[simp] theorem State.setArena_eventCount (s : State) (k : Nat) (x : Arena) : (s.setArena k x).eventCount = s.eventCount := rfl
@[simp] theorem State.setArena_records (s : State) (k : Nat) (x : Arena) : (s.setArena k x).records = s.records := rfl
@[simp] theorem State.setArena_aperture (s : State) (k : Nat) (x : Arena) : (s.setArena k x).aperture = s.aperture := rfl
@[simp] theorem State.setArena_wsegs (s : State) (k : Nat) (x : Arena) : (s.setArena k x).wsegs = s.wsegs := rfl
@[simp] theorem State.setArena_devw (s : State) (k : Nat) (x : Arena) : (s.setArena k x).devw = s.devw := rfl
@[simp] theorem State.setArena_peerDus (s : State) (k : Nat) (x : Arena) : (s.setArena k x).peerDus = s.peerDus := rfl
@[simp] theorem State.setArena_erase (s : State) (k : Nat) (x : Arena) : (s.setArena k x).erase = s.erase := rfl
@[simp] theorem State.setArena_fmap (s : State) (k : Nat) (x : Arena) : (s.setArena k x).fmap = s.fmap := rfl
@[simp] theorem State.setArena_flashSpare (s : State) (k : Nat) (x : Arena) : (s.setArena k x).flashSpare = s.flashSpare := rfl
@[simp] theorem State.setArena_progFail (s : State) (k : Nat) (x : Arena) : (s.setArena k x).progFail = s.progFail := rfl
@[simp] theorem State.setArena_verifyFail (s : State) (k : Nat) (x : Arena) : (s.setArena k x).verifyFail = s.verifyFail := rfl
@[simp] theorem State.setArena_lostRecords (s : State) (k : Nat) (x : Arena) : (s.setArena k x).lostRecords = s.lostRecords := rfl
@[simp] theorem State.setArena_shutPend (s : State) (k : Nat) (x : Arena) : (s.setArena k x).shutPend = s.shutPend := rfl
@[simp] theorem State.setArena_shut (s : State) (k : Nat) (x : Arena) : (s.setArena k x).shut = s.shut := rfl
@[simp] theorem State.setArena_exchange (s : State) (k : Nat) (x : Arena) : (s.setArena k x).exchange = s.exchange := rfl
@[simp] theorem State.setArena_devWrites (s : State) (k : Nat) (x : Arena) : (s.setArena k x).devWrites = s.devWrites := rfl
@[simp] theorem State.setArena_ready (s : State) (k : Nat) (x : Arena) : (s.setArena k x).ready = s.ready := rfl
@[simp] theorem State.setArena_cxlPop (s : State) (k : Nat) (x : Arena) : (s.setArena k x).cxlPop = s.cxlPop := rfl
@[simp] theorem State.setArena_portDown (s : State) (k : Nat) (x : Arena) : (s.setArena k x).portDown = s.portDown := rfl
@[simp] theorem State.setArena_cxlDown (s : State) (k : Nat) (x : Arena) : (s.setArena k x).cxlDown = s.cxlDown := rfl
@[simp] theorem State.setArena_mcsum (s : State) (k : Nat) (x : Arena) : (s.setArena k x).mcsum = s.mcsum := rfl
@[simp] theorem State.setArena_mccnt (s : State) (k : Nat) (x : Arena) : (s.setArena k x).mccnt = s.mccnt := rfl
@[simp] theorem State.setArena_drops (s : State) (k : Nat) (x : Arena) : (s.setArena k x).drops = s.drops := rfl
@[simp] theorem State.setArena_foreign (s : State) (k : Nat) (x : Arena) : (s.setArena k x).foreign = s.foreign := rfl
@[simp] theorem State.setArena_links (s : State) (k : Nat) (x : Arena) : (s.setArena k x).links = s.links := rfl
@[simp] theorem State.setArena_mbout (s : State) (k : Nat) (x : Arena) : (s.setArena k x).mbout = s.mbout := rfl
@[simp] theorem State.setArena_mbuf (s : State) (k : Nat) (x : Arena) : (s.setArena k x).mbuf = s.mbuf := rfl
@[simp] theorem State.setArena_thermals (s : State) (k : Nat) (x : Arena) : (s.setArena k x).thermals = s.thermals := rfl
@[simp] theorem State.setArena_thermalRing (s : State) (k : Nat) (x : Arena) : (s.setArena k x).thermalRing = s.thermalRing := rfl
@[simp] theorem State.setArena_sent (s : State) (k : Nat) (x : Arena) : (s.setArena k x).sent = s.sent := rfl
@[simp] theorem State.setArena_residency (s : State) (k : Nat) (x : Arena) : (s.setArena k x).residency = s.residency := rfl
@[simp] theorem State.setArena_shared (s : State) (k : Nat) (x : Arena) : (s.setArena k x).shared = s.shared := rfl
@[simp] theorem State.setArena_samples (s : State) (k : Nat) (x : Arena) : (s.setArena k x).samples = s.samples := rfl
@[simp] theorem State.setArena_exports (s : State) (k : Nat) (x : Arena) : (s.setArena k x).exports = s.exports := rfl

/-! setKv -/

@[simp] theorem State.setKv_cur (s : State) (k : KvCmd) : (s.setKv k).cur = s.cur := rfl
@[simp] theorem State.setKv_agenda (s : State) (k : KvCmd) : (s.setKv k).agenda = s.agenda := rfl
@[simp] theorem State.setKv_turn (s : State) (k : KvCmd) : (s.setKv k).turn = s.turn := rfl
@[simp] theorem State.setKv_fresh (s : State) (k : KvCmd) : (s.setKv k).fresh = s.fresh := rfl
@[simp] theorem State.setKv_nextId (s : State) (k : KvCmd) : (s.setKv k).nextId = s.nextId := rfl
@[simp] theorem State.setKv_dclk (s : State) (k : KvCmd) : (s.setKv k).dclk = s.dclk := rfl
@[simp] theorem State.setKv_ltb (s : State) (k : KvCmd) : (s.setKv k).ltb = s.ltb := rfl
@[simp] theorem State.setKv_booted (s : State) (k : KvCmd) : (s.setKv k).booted = s.booted := rfl
@[simp] theorem State.setKv_fwImage (s : State) (k : KvCmd) : (s.setKv k).fwImage = s.fwImage := rfl
@[simp] theorem State.setKv_fwHash (s : State) (k : KvCmd) : (s.setKv k).fwHash = s.fwHash := rfl
@[simp] theorem State.setKv_mem (s : State) (k : KvCmd) : (s.setKv k).mem = s.mem := rfl
@[simp] theorem State.setKv_attn (s : State) (k : KvCmd) : (s.setKv k).attn = s.attn := rfl
@[simp] theorem State.setKv_badBlks (s : State) (k : KvCmd) : (s.setKv k).badBlks = s.badBlks := rfl
@[simp] theorem State.setKv_attnBad (s : State) (k : KvCmd) : (s.setKv k).attnBad = s.attnBad := rfl
@[simp] theorem State.setKv_weak (s : State) (k : KvCmd) : (s.setKv k).weak = s.weak := rfl
@[simp] theorem State.setKv_corrected (s : State) (k : KvCmd) : (s.setKv k).corrected = s.corrected := rfl
@[simp] theorem State.setKv_llc (s : State) (k : KvCmd) : (s.setKv k).llc = s.llc := rfl
@[simp] theorem State.setKv_llcBad (s : State) (k : KvCmd) : (s.setKv k).llcBad = s.llcBad := rfl
@[simp] theorem State.setKv_stageBad (s : State) (k : KvCmd) : (s.setKv k).stageBad = s.stageBad := rfl
@[simp] theorem State.setKv_staging (s : State) (k : KvCmd) : (s.setKv k).staging = s.staging := rfl
@[simp] theorem State.setKv_ahead (s : State) (k : KvCmd) : (s.setKv k).ahead = s.ahead := rfl
@[simp] theorem State.setKv_quotas (s : State) (k : KvCmd) : (s.setKv k).quotas = s.quotas := rfl
@[simp] theorem State.setKv_walks (s : State) (k : KvCmd) : (s.setKv k).walks = s.walks := rfl
@[simp] theorem State.setKv_turns (s : State) (k : KvCmd) : (s.setKv k).turns = s.turns := rfl
@[simp] theorem State.setKv_devTensors (s : State) (k : KvCmd) : (s.setKv k).devTensors = s.devTensors := rfl
@[simp] theorem State.setKv_cores (s : State) (k : KvCmd) : (s.setKv k).cores = s.cores := rfl
@[simp] theorem State.setKv_tiers (s : State) (k : KvCmd) : (s.setKv k).tiers = s.tiers := rfl
@[simp] theorem State.setKv_mull (s : State) (k : KvCmd) : (s.setKv k).mull = s.mull := rfl
@[simp] theorem State.setKv_mullUsed (s : State) (k : KvCmd) : (s.setKv k).mullUsed = s.mullUsed := rfl
@[simp] theorem State.setKv_colmap (s : State) (k : KvCmd) : (s.setKv k).colmap = s.colmap := rfl
@[simp] theorem State.setKv_lostCols (s : State) (k : KvCmd) : (s.setKv k).lostCols = s.lostCols := rfl
@[simp] theorem State.setKv_retiring (s : State) (k : KvCmd) : (s.setKv k).retiring = s.retiring := rfl
@[simp] theorem State.setKv_badCols (s : State) (k : KvCmd) : (s.setKv k).badCols = s.badCols := rfl
@[simp] theorem State.setKv_sparesUsed (s : State) (k : KvCmd) : (s.setKv k).sparesUsed = s.sparesUsed := rfl
@[simp] theorem State.setKv_hbmMap (s : State) (k : KvCmd) : (s.setKv k).hbmMap = s.hbmMap := rfl
@[simp] theorem State.setKv_mxs (s : State) (k : KvCmd) : (s.setKv k).mxs = s.mxs := rfl
@[simp] theorem State.setKv_parts (s : State) (k : KvCmd) : (s.setKv k).parts = s.parts := rfl
@[simp] theorem State.setKv_keys (s : State) (k : KvCmd) : (s.setKv k).keys = s.keys := rfl
@[simp] theorem State.setKv_segs (s : State) (k : KvCmd) : (s.setKv k).segs = s.segs := rfl
@[simp] theorem State.setKv_flows (s : State) (k : KvCmd) : (s.setKv k).flows = s.flows := rfl
@[simp] theorem State.setKv_vkeys (s : State) (k : KvCmd) : (s.setKv k).vkeys = s.vkeys := rfl
@[simp] theorem State.setKv_arenas (s : State) (k : KvCmd) : (s.setKv k).arenas = s.arenas := rfl
@[simp] theorem State.setKv_index (s : State) (k : KvCmd) : (s.setKv k).index = s.index := rfl
@[simp] theorem State.setKv_reqs (s : State) (k : KvCmd) : (s.setKv k).reqs = s.reqs := rfl
@[simp] theorem State.setKv_copies (s : State) (k : KvCmd) : (s.setKv k).copies = s.copies := rfl
@[simp] theorem State.setKv_peers (s : State) (k : KvCmd) : (s.setKv k).peers = s.peers := rfl
@[simp] theorem State.setKv_emits (s : State) (k : KvCmd) : (s.setKv k).emits = s.emits := rfl
@[simp] theorem State.setKv_kvs (s : State) (k : KvCmd) : (s.setKv k).kvs = s.kvs.map fun x => if x.id = k.id then k else x := rfl
@[simp] theorem State.setKv_installs (s : State) (k : KvCmd) : (s.setKv k).installs = s.installs := rfl
@[simp] theorem State.setKv_scrubs (s : State) (k : KvCmd) : (s.setKv k).scrubs = s.scrubs := rfl
@[simp] theorem State.setKv_hkOps (s : State) (k : KvCmd) : (s.setKv k).hkOps = s.hkOps := rfl
@[simp] theorem State.setKv_hk (s : State) (k : KvCmd) : (s.setKv k).hk = s.hk := rfl
@[simp] theorem State.setKv_events (s : State) (k : KvCmd) : (s.setKv k).events = s.events := rfl
@[simp] theorem State.setKv_eventCount (s : State) (k : KvCmd) : (s.setKv k).eventCount = s.eventCount := rfl
@[simp] theorem State.setKv_records (s : State) (k : KvCmd) : (s.setKv k).records = s.records := rfl
@[simp] theorem State.setKv_aperture (s : State) (k : KvCmd) : (s.setKv k).aperture = s.aperture := rfl
@[simp] theorem State.setKv_wsegs (s : State) (k : KvCmd) : (s.setKv k).wsegs = s.wsegs := rfl
@[simp] theorem State.setKv_devw (s : State) (k : KvCmd) : (s.setKv k).devw = s.devw := rfl
@[simp] theorem State.setKv_peerDus (s : State) (k : KvCmd) : (s.setKv k).peerDus = s.peerDus := rfl
@[simp] theorem State.setKv_erase (s : State) (k : KvCmd) : (s.setKv k).erase = s.erase := rfl
@[simp] theorem State.setKv_fmap (s : State) (k : KvCmd) : (s.setKv k).fmap = s.fmap := rfl
@[simp] theorem State.setKv_flashSpare (s : State) (k : KvCmd) : (s.setKv k).flashSpare = s.flashSpare := rfl
@[simp] theorem State.setKv_progFail (s : State) (k : KvCmd) : (s.setKv k).progFail = s.progFail := rfl
@[simp] theorem State.setKv_verifyFail (s : State) (k : KvCmd) : (s.setKv k).verifyFail = s.verifyFail := rfl
@[simp] theorem State.setKv_lostRecords (s : State) (k : KvCmd) : (s.setKv k).lostRecords = s.lostRecords := rfl
@[simp] theorem State.setKv_shutPend (s : State) (k : KvCmd) : (s.setKv k).shutPend = s.shutPend := rfl
@[simp] theorem State.setKv_shut (s : State) (k : KvCmd) : (s.setKv k).shut = s.shut := rfl
@[simp] theorem State.setKv_exchange (s : State) (k : KvCmd) : (s.setKv k).exchange = s.exchange := rfl
@[simp] theorem State.setKv_devWrites (s : State) (k : KvCmd) : (s.setKv k).devWrites = s.devWrites := rfl
@[simp] theorem State.setKv_ready (s : State) (k : KvCmd) : (s.setKv k).ready = s.ready := rfl
@[simp] theorem State.setKv_cxlPop (s : State) (k : KvCmd) : (s.setKv k).cxlPop = s.cxlPop := rfl
@[simp] theorem State.setKv_portDown (s : State) (k : KvCmd) : (s.setKv k).portDown = s.portDown := rfl
@[simp] theorem State.setKv_cxlDown (s : State) (k : KvCmd) : (s.setKv k).cxlDown = s.cxlDown := rfl
@[simp] theorem State.setKv_mcsum (s : State) (k : KvCmd) : (s.setKv k).mcsum = s.mcsum := rfl
@[simp] theorem State.setKv_mccnt (s : State) (k : KvCmd) : (s.setKv k).mccnt = s.mccnt := rfl
@[simp] theorem State.setKv_drops (s : State) (k : KvCmd) : (s.setKv k).drops = s.drops := rfl
@[simp] theorem State.setKv_foreign (s : State) (k : KvCmd) : (s.setKv k).foreign = s.foreign := rfl
@[simp] theorem State.setKv_links (s : State) (k : KvCmd) : (s.setKv k).links = s.links := rfl
@[simp] theorem State.setKv_mbout (s : State) (k : KvCmd) : (s.setKv k).mbout = s.mbout := rfl
@[simp] theorem State.setKv_mbuf (s : State) (k : KvCmd) : (s.setKv k).mbuf = s.mbuf := rfl
@[simp] theorem State.setKv_thermals (s : State) (k : KvCmd) : (s.setKv k).thermals = s.thermals := rfl
@[simp] theorem State.setKv_thermalRing (s : State) (k : KvCmd) : (s.setKv k).thermalRing = s.thermalRing := rfl
@[simp] theorem State.setKv_sent (s : State) (k : KvCmd) : (s.setKv k).sent = s.sent := rfl
@[simp] theorem State.setKv_residency (s : State) (k : KvCmd) : (s.setKv k).residency = s.residency := rfl
@[simp] theorem State.setKv_shared (s : State) (k : KvCmd) : (s.setKv k).shared = s.shared := rfl
@[simp] theorem State.setKv_samples (s : State) (k : KvCmd) : (s.setKv k).samples = s.samples := rfl
@[simp] theorem State.setKv_exports (s : State) (k : KvCmd) : (s.setKv k).exports = s.exports := rfl

/-! setReq -/

@[simp] theorem State.setReq_cur (s : State) (r : Req) : (s.setReq r).cur = s.cur := rfl
@[simp] theorem State.setReq_agenda (s : State) (r : Req) : (s.setReq r).agenda = s.agenda := rfl
@[simp] theorem State.setReq_turn (s : State) (r : Req) : (s.setReq r).turn = s.turn := rfl
@[simp] theorem State.setReq_fresh (s : State) (r : Req) : (s.setReq r).fresh = s.fresh := rfl
@[simp] theorem State.setReq_nextId (s : State) (r : Req) : (s.setReq r).nextId = s.nextId := rfl
@[simp] theorem State.setReq_dclk (s : State) (r : Req) : (s.setReq r).dclk = s.dclk := rfl
@[simp] theorem State.setReq_ltb (s : State) (r : Req) : (s.setReq r).ltb = s.ltb := rfl
@[simp] theorem State.setReq_booted (s : State) (r : Req) : (s.setReq r).booted = s.booted := rfl
@[simp] theorem State.setReq_fwImage (s : State) (r : Req) : (s.setReq r).fwImage = s.fwImage := rfl
@[simp] theorem State.setReq_fwHash (s : State) (r : Req) : (s.setReq r).fwHash = s.fwHash := rfl
@[simp] theorem State.setReq_mem (s : State) (r : Req) : (s.setReq r).mem = s.mem := rfl
@[simp] theorem State.setReq_attn (s : State) (r : Req) : (s.setReq r).attn = s.attn := rfl
@[simp] theorem State.setReq_badBlks (s : State) (r : Req) : (s.setReq r).badBlks = s.badBlks := rfl
@[simp] theorem State.setReq_attnBad (s : State) (r : Req) : (s.setReq r).attnBad = s.attnBad := rfl
@[simp] theorem State.setReq_weak (s : State) (r : Req) : (s.setReq r).weak = s.weak := rfl
@[simp] theorem State.setReq_corrected (s : State) (r : Req) : (s.setReq r).corrected = s.corrected := rfl
@[simp] theorem State.setReq_llc (s : State) (r : Req) : (s.setReq r).llc = s.llc := rfl
@[simp] theorem State.setReq_llcBad (s : State) (r : Req) : (s.setReq r).llcBad = s.llcBad := rfl
@[simp] theorem State.setReq_stageBad (s : State) (r : Req) : (s.setReq r).stageBad = s.stageBad := rfl
@[simp] theorem State.setReq_staging (s : State) (r : Req) : (s.setReq r).staging = s.staging := rfl
@[simp] theorem State.setReq_ahead (s : State) (r : Req) : (s.setReq r).ahead = s.ahead := rfl
@[simp] theorem State.setReq_quotas (s : State) (r : Req) : (s.setReq r).quotas = s.quotas := rfl
@[simp] theorem State.setReq_walks (s : State) (r : Req) : (s.setReq r).walks = s.walks := rfl
@[simp] theorem State.setReq_turns (s : State) (r : Req) : (s.setReq r).turns = s.turns := rfl
@[simp] theorem State.setReq_devTensors (s : State) (r : Req) : (s.setReq r).devTensors = s.devTensors := rfl
@[simp] theorem State.setReq_cores (s : State) (r : Req) : (s.setReq r).cores = s.cores := rfl
@[simp] theorem State.setReq_tiers (s : State) (r : Req) : (s.setReq r).tiers = s.tiers := rfl
@[simp] theorem State.setReq_mull (s : State) (r : Req) : (s.setReq r).mull = s.mull := rfl
@[simp] theorem State.setReq_mullUsed (s : State) (r : Req) : (s.setReq r).mullUsed = s.mullUsed := rfl
@[simp] theorem State.setReq_colmap (s : State) (r : Req) : (s.setReq r).colmap = s.colmap := rfl
@[simp] theorem State.setReq_lostCols (s : State) (r : Req) : (s.setReq r).lostCols = s.lostCols := rfl
@[simp] theorem State.setReq_retiring (s : State) (r : Req) : (s.setReq r).retiring = s.retiring := rfl
@[simp] theorem State.setReq_badCols (s : State) (r : Req) : (s.setReq r).badCols = s.badCols := rfl
@[simp] theorem State.setReq_sparesUsed (s : State) (r : Req) : (s.setReq r).sparesUsed = s.sparesUsed := rfl
@[simp] theorem State.setReq_hbmMap (s : State) (r : Req) : (s.setReq r).hbmMap = s.hbmMap := rfl
@[simp] theorem State.setReq_mxs (s : State) (r : Req) : (s.setReq r).mxs = s.mxs := rfl
@[simp] theorem State.setReq_parts (s : State) (r : Req) : (s.setReq r).parts = s.parts := rfl
@[simp] theorem State.setReq_keys (s : State) (r : Req) : (s.setReq r).keys = s.keys := rfl
@[simp] theorem State.setReq_segs (s : State) (r : Req) : (s.setReq r).segs = s.segs := rfl
@[simp] theorem State.setReq_flows (s : State) (r : Req) : (s.setReq r).flows = s.flows := rfl
@[simp] theorem State.setReq_vkeys (s : State) (r : Req) : (s.setReq r).vkeys = s.vkeys := rfl
@[simp] theorem State.setReq_arenas (s : State) (r : Req) : (s.setReq r).arenas = s.arenas := rfl
@[simp] theorem State.setReq_index (s : State) (r : Req) : (s.setReq r).index = s.index := rfl
@[simp] theorem State.setReq_reqs (s : State) (r : Req) : (s.setReq r).reqs = s.reqs.map fun x => if x.id = r.id then r else x := rfl
@[simp] theorem State.setReq_copies (s : State) (r : Req) : (s.setReq r).copies = s.copies := rfl
@[simp] theorem State.setReq_peers (s : State) (r : Req) : (s.setReq r).peers = s.peers := rfl
@[simp] theorem State.setReq_emits (s : State) (r : Req) : (s.setReq r).emits = s.emits := rfl
@[simp] theorem State.setReq_kvs (s : State) (r : Req) : (s.setReq r).kvs = s.kvs := rfl
@[simp] theorem State.setReq_installs (s : State) (r : Req) : (s.setReq r).installs = s.installs := rfl
@[simp] theorem State.setReq_scrubs (s : State) (r : Req) : (s.setReq r).scrubs = s.scrubs := rfl
@[simp] theorem State.setReq_hkOps (s : State) (r : Req) : (s.setReq r).hkOps = s.hkOps := rfl
@[simp] theorem State.setReq_hk (s : State) (r : Req) : (s.setReq r).hk = s.hk := rfl
@[simp] theorem State.setReq_events (s : State) (r : Req) : (s.setReq r).events = s.events := rfl
@[simp] theorem State.setReq_eventCount (s : State) (r : Req) : (s.setReq r).eventCount = s.eventCount := rfl
@[simp] theorem State.setReq_records (s : State) (r : Req) : (s.setReq r).records = s.records := rfl
@[simp] theorem State.setReq_aperture (s : State) (r : Req) : (s.setReq r).aperture = s.aperture := rfl
@[simp] theorem State.setReq_wsegs (s : State) (r : Req) : (s.setReq r).wsegs = s.wsegs := rfl
@[simp] theorem State.setReq_devw (s : State) (r : Req) : (s.setReq r).devw = s.devw := rfl
@[simp] theorem State.setReq_peerDus (s : State) (r : Req) : (s.setReq r).peerDus = s.peerDus := rfl
@[simp] theorem State.setReq_erase (s : State) (r : Req) : (s.setReq r).erase = s.erase := rfl
@[simp] theorem State.setReq_fmap (s : State) (r : Req) : (s.setReq r).fmap = s.fmap := rfl
@[simp] theorem State.setReq_flashSpare (s : State) (r : Req) : (s.setReq r).flashSpare = s.flashSpare := rfl
@[simp] theorem State.setReq_progFail (s : State) (r : Req) : (s.setReq r).progFail = s.progFail := rfl
@[simp] theorem State.setReq_verifyFail (s : State) (r : Req) : (s.setReq r).verifyFail = s.verifyFail := rfl
@[simp] theorem State.setReq_lostRecords (s : State) (r : Req) : (s.setReq r).lostRecords = s.lostRecords := rfl
@[simp] theorem State.setReq_shutPend (s : State) (r : Req) : (s.setReq r).shutPend = s.shutPend := rfl
@[simp] theorem State.setReq_shut (s : State) (r : Req) : (s.setReq r).shut = s.shut := rfl
@[simp] theorem State.setReq_exchange (s : State) (r : Req) : (s.setReq r).exchange = s.exchange := rfl
@[simp] theorem State.setReq_devWrites (s : State) (r : Req) : (s.setReq r).devWrites = s.devWrites := rfl
@[simp] theorem State.setReq_ready (s : State) (r : Req) : (s.setReq r).ready = s.ready := rfl
@[simp] theorem State.setReq_cxlPop (s : State) (r : Req) : (s.setReq r).cxlPop = s.cxlPop := rfl
@[simp] theorem State.setReq_portDown (s : State) (r : Req) : (s.setReq r).portDown = s.portDown := rfl
@[simp] theorem State.setReq_cxlDown (s : State) (r : Req) : (s.setReq r).cxlDown = s.cxlDown := rfl
@[simp] theorem State.setReq_mcsum (s : State) (r : Req) : (s.setReq r).mcsum = s.mcsum := rfl
@[simp] theorem State.setReq_mccnt (s : State) (r : Req) : (s.setReq r).mccnt = s.mccnt := rfl
@[simp] theorem State.setReq_drops (s : State) (r : Req) : (s.setReq r).drops = s.drops := rfl
@[simp] theorem State.setReq_foreign (s : State) (r : Req) : (s.setReq r).foreign = s.foreign := rfl
@[simp] theorem State.setReq_links (s : State) (r : Req) : (s.setReq r).links = s.links := rfl
@[simp] theorem State.setReq_mbout (s : State) (r : Req) : (s.setReq r).mbout = s.mbout := rfl
@[simp] theorem State.setReq_mbuf (s : State) (r : Req) : (s.setReq r).mbuf = s.mbuf := rfl
@[simp] theorem State.setReq_thermals (s : State) (r : Req) : (s.setReq r).thermals = s.thermals := rfl
@[simp] theorem State.setReq_thermalRing (s : State) (r : Req) : (s.setReq r).thermalRing = s.thermalRing := rfl
@[simp] theorem State.setReq_sent (s : State) (r : Req) : (s.setReq r).sent = s.sent := rfl
@[simp] theorem State.setReq_residency (s : State) (r : Req) : (s.setReq r).residency = s.residency := rfl
@[simp] theorem State.setReq_shared (s : State) (r : Req) : (s.setReq r).shared = s.shared := rfl
@[simp] theorem State.setReq_samples (s : State) (r : Req) : (s.setReq r).samples = s.samples := rfl
@[simp] theorem State.setReq_exports (s : State) (r : Req) : (s.setReq r).exports = s.exports := rfl

/-! dropReq -/

@[simp] theorem State.dropReq_cur (s : State) (n : Nat) : (s.dropReq n).cur = s.cur := rfl
@[simp] theorem State.dropReq_agenda (s : State) (n : Nat) : (s.dropReq n).agenda = s.agenda := rfl
@[simp] theorem State.dropReq_turn (s : State) (n : Nat) : (s.dropReq n).turn = s.turn := rfl
@[simp] theorem State.dropReq_fresh (s : State) (n : Nat) : (s.dropReq n).fresh = s.fresh := rfl
@[simp] theorem State.dropReq_nextId (s : State) (n : Nat) : (s.dropReq n).nextId = s.nextId := rfl
@[simp] theorem State.dropReq_dclk (s : State) (n : Nat) : (s.dropReq n).dclk = s.dclk := rfl
@[simp] theorem State.dropReq_ltb (s : State) (n : Nat) : (s.dropReq n).ltb = s.ltb := rfl
@[simp] theorem State.dropReq_booted (s : State) (n : Nat) : (s.dropReq n).booted = s.booted := rfl
@[simp] theorem State.dropReq_fwImage (s : State) (n : Nat) : (s.dropReq n).fwImage = s.fwImage := rfl
@[simp] theorem State.dropReq_fwHash (s : State) (n : Nat) : (s.dropReq n).fwHash = s.fwHash := rfl
@[simp] theorem State.dropReq_mem (s : State) (n : Nat) : (s.dropReq n).mem = s.mem := rfl
@[simp] theorem State.dropReq_attn (s : State) (n : Nat) : (s.dropReq n).attn = s.attn := rfl
@[simp] theorem State.dropReq_badBlks (s : State) (n : Nat) : (s.dropReq n).badBlks = s.badBlks := rfl
@[simp] theorem State.dropReq_attnBad (s : State) (n : Nat) : (s.dropReq n).attnBad = s.attnBad := rfl
@[simp] theorem State.dropReq_weak (s : State) (n : Nat) : (s.dropReq n).weak = s.weak := rfl
@[simp] theorem State.dropReq_corrected (s : State) (n : Nat) : (s.dropReq n).corrected = s.corrected := rfl
@[simp] theorem State.dropReq_llc (s : State) (n : Nat) : (s.dropReq n).llc = s.llc := rfl
@[simp] theorem State.dropReq_llcBad (s : State) (n : Nat) : (s.dropReq n).llcBad = s.llcBad := rfl
@[simp] theorem State.dropReq_stageBad (s : State) (n : Nat) : (s.dropReq n).stageBad = s.stageBad := rfl
@[simp] theorem State.dropReq_staging (s : State) (n : Nat) : (s.dropReq n).staging = s.staging := rfl
@[simp] theorem State.dropReq_ahead (s : State) (n : Nat) : (s.dropReq n).ahead = s.ahead := rfl
@[simp] theorem State.dropReq_quotas (s : State) (n : Nat) : (s.dropReq n).quotas = s.quotas := rfl
@[simp] theorem State.dropReq_walks (s : State) (n : Nat) : (s.dropReq n).walks = s.walks := rfl
@[simp] theorem State.dropReq_turns (s : State) (n : Nat) : (s.dropReq n).turns = s.turns := rfl
@[simp] theorem State.dropReq_devTensors (s : State) (n : Nat) : (s.dropReq n).devTensors = s.devTensors := rfl
@[simp] theorem State.dropReq_cores (s : State) (n : Nat) : (s.dropReq n).cores = s.cores := rfl
@[simp] theorem State.dropReq_tiers (s : State) (n : Nat) : (s.dropReq n).tiers = s.tiers := rfl
@[simp] theorem State.dropReq_mull (s : State) (n : Nat) : (s.dropReq n).mull = s.mull := rfl
@[simp] theorem State.dropReq_mullUsed (s : State) (n : Nat) : (s.dropReq n).mullUsed = s.mullUsed := rfl
@[simp] theorem State.dropReq_colmap (s : State) (n : Nat) : (s.dropReq n).colmap = s.colmap := rfl
@[simp] theorem State.dropReq_lostCols (s : State) (n : Nat) : (s.dropReq n).lostCols = s.lostCols := rfl
@[simp] theorem State.dropReq_retiring (s : State) (n : Nat) : (s.dropReq n).retiring = s.retiring := rfl
@[simp] theorem State.dropReq_badCols (s : State) (n : Nat) : (s.dropReq n).badCols = s.badCols := rfl
@[simp] theorem State.dropReq_sparesUsed (s : State) (n : Nat) : (s.dropReq n).sparesUsed = s.sparesUsed := rfl
@[simp] theorem State.dropReq_hbmMap (s : State) (n : Nat) : (s.dropReq n).hbmMap = s.hbmMap := rfl
@[simp] theorem State.dropReq_mxs (s : State) (n : Nat) : (s.dropReq n).mxs = s.mxs := rfl
@[simp] theorem State.dropReq_parts (s : State) (n : Nat) : (s.dropReq n).parts = s.parts := rfl
@[simp] theorem State.dropReq_keys (s : State) (n : Nat) : (s.dropReq n).keys = s.keys := rfl
@[simp] theorem State.dropReq_segs (s : State) (n : Nat) : (s.dropReq n).segs = s.segs := rfl
@[simp] theorem State.dropReq_flows (s : State) (n : Nat) : (s.dropReq n).flows = s.flows := rfl
@[simp] theorem State.dropReq_vkeys (s : State) (n : Nat) : (s.dropReq n).vkeys = s.vkeys := rfl
@[simp] theorem State.dropReq_arenas (s : State) (n : Nat) : (s.dropReq n).arenas = s.arenas := rfl
@[simp] theorem State.dropReq_index (s : State) (n : Nat) : (s.dropReq n).index = s.index := rfl
@[simp] theorem State.dropReq_reqs (s : State) (n : Nat) : (s.dropReq n).reqs = s.reqs.filter fun x => x.id != n := rfl
@[simp] theorem State.dropReq_copies (s : State) (n : Nat) : (s.dropReq n).copies = s.copies := rfl
@[simp] theorem State.dropReq_peers (s : State) (n : Nat) : (s.dropReq n).peers = s.peers := rfl
@[simp] theorem State.dropReq_emits (s : State) (n : Nat) : (s.dropReq n).emits = s.emits := rfl
@[simp] theorem State.dropReq_kvs (s : State) (n : Nat) : (s.dropReq n).kvs = s.kvs := rfl
@[simp] theorem State.dropReq_installs (s : State) (n : Nat) : (s.dropReq n).installs = s.installs := rfl
@[simp] theorem State.dropReq_scrubs (s : State) (n : Nat) : (s.dropReq n).scrubs = s.scrubs := rfl
@[simp] theorem State.dropReq_hkOps (s : State) (n : Nat) : (s.dropReq n).hkOps = s.hkOps := rfl
@[simp] theorem State.dropReq_hk (s : State) (n : Nat) : (s.dropReq n).hk = s.hk := rfl
@[simp] theorem State.dropReq_events (s : State) (n : Nat) : (s.dropReq n).events = s.events := rfl
@[simp] theorem State.dropReq_eventCount (s : State) (n : Nat) : (s.dropReq n).eventCount = s.eventCount := rfl
@[simp] theorem State.dropReq_records (s : State) (n : Nat) : (s.dropReq n).records = s.records := rfl
@[simp] theorem State.dropReq_aperture (s : State) (n : Nat) : (s.dropReq n).aperture = s.aperture := rfl
@[simp] theorem State.dropReq_wsegs (s : State) (n : Nat) : (s.dropReq n).wsegs = s.wsegs := rfl
@[simp] theorem State.dropReq_devw (s : State) (n : Nat) : (s.dropReq n).devw = s.devw := rfl
@[simp] theorem State.dropReq_peerDus (s : State) (n : Nat) : (s.dropReq n).peerDus = s.peerDus := rfl
@[simp] theorem State.dropReq_erase (s : State) (n : Nat) : (s.dropReq n).erase = s.erase := rfl
@[simp] theorem State.dropReq_fmap (s : State) (n : Nat) : (s.dropReq n).fmap = s.fmap := rfl
@[simp] theorem State.dropReq_flashSpare (s : State) (n : Nat) : (s.dropReq n).flashSpare = s.flashSpare := rfl
@[simp] theorem State.dropReq_progFail (s : State) (n : Nat) : (s.dropReq n).progFail = s.progFail := rfl
@[simp] theorem State.dropReq_verifyFail (s : State) (n : Nat) : (s.dropReq n).verifyFail = s.verifyFail := rfl
@[simp] theorem State.dropReq_lostRecords (s : State) (n : Nat) : (s.dropReq n).lostRecords = s.lostRecords := rfl
@[simp] theorem State.dropReq_shutPend (s : State) (n : Nat) : (s.dropReq n).shutPend = s.shutPend := rfl
@[simp] theorem State.dropReq_shut (s : State) (n : Nat) : (s.dropReq n).shut = s.shut := rfl
@[simp] theorem State.dropReq_exchange (s : State) (n : Nat) : (s.dropReq n).exchange = s.exchange := rfl
@[simp] theorem State.dropReq_devWrites (s : State) (n : Nat) : (s.dropReq n).devWrites = s.devWrites := rfl
@[simp] theorem State.dropReq_ready (s : State) (n : Nat) : (s.dropReq n).ready = s.ready := rfl
@[simp] theorem State.dropReq_cxlPop (s : State) (n : Nat) : (s.dropReq n).cxlPop = s.cxlPop := rfl
@[simp] theorem State.dropReq_portDown (s : State) (n : Nat) : (s.dropReq n).portDown = s.portDown := rfl
@[simp] theorem State.dropReq_cxlDown (s : State) (n : Nat) : (s.dropReq n).cxlDown = s.cxlDown := rfl
@[simp] theorem State.dropReq_mcsum (s : State) (n : Nat) : (s.dropReq n).mcsum = s.mcsum := rfl
@[simp] theorem State.dropReq_mccnt (s : State) (n : Nat) : (s.dropReq n).mccnt = s.mccnt := rfl
@[simp] theorem State.dropReq_drops (s : State) (n : Nat) : (s.dropReq n).drops = s.drops := rfl
@[simp] theorem State.dropReq_foreign (s : State) (n : Nat) : (s.dropReq n).foreign = s.foreign := rfl
@[simp] theorem State.dropReq_links (s : State) (n : Nat) : (s.dropReq n).links = s.links := rfl
@[simp] theorem State.dropReq_mbout (s : State) (n : Nat) : (s.dropReq n).mbout = s.mbout := rfl
@[simp] theorem State.dropReq_mbuf (s : State) (n : Nat) : (s.dropReq n).mbuf = s.mbuf := rfl
@[simp] theorem State.dropReq_thermals (s : State) (n : Nat) : (s.dropReq n).thermals = s.thermals := rfl
@[simp] theorem State.dropReq_thermalRing (s : State) (n : Nat) : (s.dropReq n).thermalRing = s.thermalRing := rfl
@[simp] theorem State.dropReq_sent (s : State) (n : Nat) : (s.dropReq n).sent = s.sent := rfl
@[simp] theorem State.dropReq_residency (s : State) (n : Nat) : (s.dropReq n).residency = s.residency := rfl
@[simp] theorem State.dropReq_shared (s : State) (n : Nat) : (s.dropReq n).shared = s.shared := rfl
@[simp] theorem State.dropReq_samples (s : State) (n : Nat) : (s.dropReq n).samples = s.samples := rfl
@[simp] theorem State.dropReq_exports (s : State) (n : Nat) : (s.dropReq n).exports = s.exports := rfl

/-! setCopy -/

@[simp] theorem State.setCopy_cur (s : State) (c : Copy) : (s.setCopy c).cur = s.cur := rfl
@[simp] theorem State.setCopy_agenda (s : State) (c : Copy) : (s.setCopy c).agenda = s.agenda := rfl
@[simp] theorem State.setCopy_turn (s : State) (c : Copy) : (s.setCopy c).turn = s.turn := rfl
@[simp] theorem State.setCopy_fresh (s : State) (c : Copy) : (s.setCopy c).fresh = s.fresh := rfl
@[simp] theorem State.setCopy_nextId (s : State) (c : Copy) : (s.setCopy c).nextId = s.nextId := rfl
@[simp] theorem State.setCopy_dclk (s : State) (c : Copy) : (s.setCopy c).dclk = s.dclk := rfl
@[simp] theorem State.setCopy_ltb (s : State) (c : Copy) : (s.setCopy c).ltb = s.ltb := rfl
@[simp] theorem State.setCopy_booted (s : State) (c : Copy) : (s.setCopy c).booted = s.booted := rfl
@[simp] theorem State.setCopy_fwImage (s : State) (c : Copy) : (s.setCopy c).fwImage = s.fwImage := rfl
@[simp] theorem State.setCopy_fwHash (s : State) (c : Copy) : (s.setCopy c).fwHash = s.fwHash := rfl
@[simp] theorem State.setCopy_mem (s : State) (c : Copy) : (s.setCopy c).mem = s.mem := rfl
@[simp] theorem State.setCopy_attn (s : State) (c : Copy) : (s.setCopy c).attn = s.attn := rfl
@[simp] theorem State.setCopy_badBlks (s : State) (c : Copy) : (s.setCopy c).badBlks = s.badBlks := rfl
@[simp] theorem State.setCopy_attnBad (s : State) (c : Copy) : (s.setCopy c).attnBad = s.attnBad := rfl
@[simp] theorem State.setCopy_weak (s : State) (c : Copy) : (s.setCopy c).weak = s.weak := rfl
@[simp] theorem State.setCopy_corrected (s : State) (c : Copy) : (s.setCopy c).corrected = s.corrected := rfl
@[simp] theorem State.setCopy_llc (s : State) (c : Copy) : (s.setCopy c).llc = s.llc := rfl
@[simp] theorem State.setCopy_llcBad (s : State) (c : Copy) : (s.setCopy c).llcBad = s.llcBad := rfl
@[simp] theorem State.setCopy_stageBad (s : State) (c : Copy) : (s.setCopy c).stageBad = s.stageBad := rfl
@[simp] theorem State.setCopy_staging (s : State) (c : Copy) : (s.setCopy c).staging = s.staging := rfl
@[simp] theorem State.setCopy_ahead (s : State) (c : Copy) : (s.setCopy c).ahead = s.ahead := rfl
@[simp] theorem State.setCopy_quotas (s : State) (c : Copy) : (s.setCopy c).quotas = s.quotas := rfl
@[simp] theorem State.setCopy_walks (s : State) (c : Copy) : (s.setCopy c).walks = s.walks := rfl
@[simp] theorem State.setCopy_turns (s : State) (c : Copy) : (s.setCopy c).turns = s.turns := rfl
@[simp] theorem State.setCopy_devTensors (s : State) (c : Copy) : (s.setCopy c).devTensors = s.devTensors := rfl
@[simp] theorem State.setCopy_cores (s : State) (c : Copy) : (s.setCopy c).cores = s.cores := rfl
@[simp] theorem State.setCopy_tiers (s : State) (c : Copy) : (s.setCopy c).tiers = s.tiers := rfl
@[simp] theorem State.setCopy_mull (s : State) (c : Copy) : (s.setCopy c).mull = s.mull := rfl
@[simp] theorem State.setCopy_mullUsed (s : State) (c : Copy) : (s.setCopy c).mullUsed = s.mullUsed := rfl
@[simp] theorem State.setCopy_colmap (s : State) (c : Copy) : (s.setCopy c).colmap = s.colmap := rfl
@[simp] theorem State.setCopy_lostCols (s : State) (c : Copy) : (s.setCopy c).lostCols = s.lostCols := rfl
@[simp] theorem State.setCopy_retiring (s : State) (c : Copy) : (s.setCopy c).retiring = s.retiring := rfl
@[simp] theorem State.setCopy_badCols (s : State) (c : Copy) : (s.setCopy c).badCols = s.badCols := rfl
@[simp] theorem State.setCopy_sparesUsed (s : State) (c : Copy) : (s.setCopy c).sparesUsed = s.sparesUsed := rfl
@[simp] theorem State.setCopy_hbmMap (s : State) (c : Copy) : (s.setCopy c).hbmMap = s.hbmMap := rfl
@[simp] theorem State.setCopy_mxs (s : State) (c : Copy) : (s.setCopy c).mxs = s.mxs := rfl
@[simp] theorem State.setCopy_parts (s : State) (c : Copy) : (s.setCopy c).parts = s.parts := rfl
@[simp] theorem State.setCopy_keys (s : State) (c : Copy) : (s.setCopy c).keys = s.keys := rfl
@[simp] theorem State.setCopy_segs (s : State) (c : Copy) : (s.setCopy c).segs = s.segs := rfl
@[simp] theorem State.setCopy_flows (s : State) (c : Copy) : (s.setCopy c).flows = s.flows := rfl
@[simp] theorem State.setCopy_vkeys (s : State) (c : Copy) : (s.setCopy c).vkeys = s.vkeys := rfl
@[simp] theorem State.setCopy_arenas (s : State) (c : Copy) : (s.setCopy c).arenas = s.arenas := rfl
@[simp] theorem State.setCopy_index (s : State) (c : Copy) : (s.setCopy c).index = s.index := rfl
@[simp] theorem State.setCopy_reqs (s : State) (c : Copy) : (s.setCopy c).reqs = s.reqs := rfl
@[simp] theorem State.setCopy_copies (s : State) (c : Copy) : (s.setCopy c).copies = s.copies.map fun x => if x.id = c.id then c else x := rfl
@[simp] theorem State.setCopy_peers (s : State) (c : Copy) : (s.setCopy c).peers = s.peers := rfl
@[simp] theorem State.setCopy_emits (s : State) (c : Copy) : (s.setCopy c).emits = s.emits := rfl
@[simp] theorem State.setCopy_kvs (s : State) (c : Copy) : (s.setCopy c).kvs = s.kvs := rfl
@[simp] theorem State.setCopy_installs (s : State) (c : Copy) : (s.setCopy c).installs = s.installs := rfl
@[simp] theorem State.setCopy_scrubs (s : State) (c : Copy) : (s.setCopy c).scrubs = s.scrubs := rfl
@[simp] theorem State.setCopy_hkOps (s : State) (c : Copy) : (s.setCopy c).hkOps = s.hkOps := rfl
@[simp] theorem State.setCopy_hk (s : State) (c : Copy) : (s.setCopy c).hk = s.hk := rfl
@[simp] theorem State.setCopy_events (s : State) (c : Copy) : (s.setCopy c).events = s.events := rfl
@[simp] theorem State.setCopy_eventCount (s : State) (c : Copy) : (s.setCopy c).eventCount = s.eventCount := rfl
@[simp] theorem State.setCopy_records (s : State) (c : Copy) : (s.setCopy c).records = s.records := rfl
@[simp] theorem State.setCopy_aperture (s : State) (c : Copy) : (s.setCopy c).aperture = s.aperture := rfl
@[simp] theorem State.setCopy_wsegs (s : State) (c : Copy) : (s.setCopy c).wsegs = s.wsegs := rfl
@[simp] theorem State.setCopy_devw (s : State) (c : Copy) : (s.setCopy c).devw = s.devw := rfl
@[simp] theorem State.setCopy_peerDus (s : State) (c : Copy) : (s.setCopy c).peerDus = s.peerDus := rfl
@[simp] theorem State.setCopy_erase (s : State) (c : Copy) : (s.setCopy c).erase = s.erase := rfl
@[simp] theorem State.setCopy_fmap (s : State) (c : Copy) : (s.setCopy c).fmap = s.fmap := rfl
@[simp] theorem State.setCopy_flashSpare (s : State) (c : Copy) : (s.setCopy c).flashSpare = s.flashSpare := rfl
@[simp] theorem State.setCopy_progFail (s : State) (c : Copy) : (s.setCopy c).progFail = s.progFail := rfl
@[simp] theorem State.setCopy_verifyFail (s : State) (c : Copy) : (s.setCopy c).verifyFail = s.verifyFail := rfl
@[simp] theorem State.setCopy_lostRecords (s : State) (c : Copy) : (s.setCopy c).lostRecords = s.lostRecords := rfl
@[simp] theorem State.setCopy_shutPend (s : State) (c : Copy) : (s.setCopy c).shutPend = s.shutPend := rfl
@[simp] theorem State.setCopy_shut (s : State) (c : Copy) : (s.setCopy c).shut = s.shut := rfl
@[simp] theorem State.setCopy_exchange (s : State) (c : Copy) : (s.setCopy c).exchange = s.exchange := rfl
@[simp] theorem State.setCopy_devWrites (s : State) (c : Copy) : (s.setCopy c).devWrites = s.devWrites := rfl
@[simp] theorem State.setCopy_ready (s : State) (c : Copy) : (s.setCopy c).ready = s.ready := rfl
@[simp] theorem State.setCopy_cxlPop (s : State) (c : Copy) : (s.setCopy c).cxlPop = s.cxlPop := rfl
@[simp] theorem State.setCopy_portDown (s : State) (c : Copy) : (s.setCopy c).portDown = s.portDown := rfl
@[simp] theorem State.setCopy_cxlDown (s : State) (c : Copy) : (s.setCopy c).cxlDown = s.cxlDown := rfl
@[simp] theorem State.setCopy_mcsum (s : State) (c : Copy) : (s.setCopy c).mcsum = s.mcsum := rfl
@[simp] theorem State.setCopy_mccnt (s : State) (c : Copy) : (s.setCopy c).mccnt = s.mccnt := rfl
@[simp] theorem State.setCopy_drops (s : State) (c : Copy) : (s.setCopy c).drops = s.drops := rfl
@[simp] theorem State.setCopy_foreign (s : State) (c : Copy) : (s.setCopy c).foreign = s.foreign := rfl
@[simp] theorem State.setCopy_links (s : State) (c : Copy) : (s.setCopy c).links = s.links := rfl
@[simp] theorem State.setCopy_mbout (s : State) (c : Copy) : (s.setCopy c).mbout = s.mbout := rfl
@[simp] theorem State.setCopy_mbuf (s : State) (c : Copy) : (s.setCopy c).mbuf = s.mbuf := rfl
@[simp] theorem State.setCopy_thermals (s : State) (c : Copy) : (s.setCopy c).thermals = s.thermals := rfl
@[simp] theorem State.setCopy_thermalRing (s : State) (c : Copy) : (s.setCopy c).thermalRing = s.thermalRing := rfl
@[simp] theorem State.setCopy_sent (s : State) (c : Copy) : (s.setCopy c).sent = s.sent := rfl
@[simp] theorem State.setCopy_residency (s : State) (c : Copy) : (s.setCopy c).residency = s.residency := rfl
@[simp] theorem State.setCopy_shared (s : State) (c : Copy) : (s.setCopy c).shared = s.shared := rfl
@[simp] theorem State.setCopy_samples (s : State) (c : Copy) : (s.setCopy c).samples = s.samples := rfl
@[simp] theorem State.setCopy_exports (s : State) (c : Copy) : (s.setCopy c).exports = s.exports := rfl

/-! dropCopy -/

@[simp] theorem State.dropCopy_cur (s : State) (n : Nat) : (s.dropCopy n).cur = s.cur := rfl
@[simp] theorem State.dropCopy_agenda (s : State) (n : Nat) : (s.dropCopy n).agenda = s.agenda := rfl
@[simp] theorem State.dropCopy_turn (s : State) (n : Nat) : (s.dropCopy n).turn = s.turn := rfl
@[simp] theorem State.dropCopy_fresh (s : State) (n : Nat) : (s.dropCopy n).fresh = s.fresh := rfl
@[simp] theorem State.dropCopy_nextId (s : State) (n : Nat) : (s.dropCopy n).nextId = s.nextId := rfl
@[simp] theorem State.dropCopy_dclk (s : State) (n : Nat) : (s.dropCopy n).dclk = s.dclk := rfl
@[simp] theorem State.dropCopy_ltb (s : State) (n : Nat) : (s.dropCopy n).ltb = s.ltb := rfl
@[simp] theorem State.dropCopy_booted (s : State) (n : Nat) : (s.dropCopy n).booted = s.booted := rfl
@[simp] theorem State.dropCopy_fwImage (s : State) (n : Nat) : (s.dropCopy n).fwImage = s.fwImage := rfl
@[simp] theorem State.dropCopy_fwHash (s : State) (n : Nat) : (s.dropCopy n).fwHash = s.fwHash := rfl
@[simp] theorem State.dropCopy_mem (s : State) (n : Nat) : (s.dropCopy n).mem = s.mem := rfl
@[simp] theorem State.dropCopy_attn (s : State) (n : Nat) : (s.dropCopy n).attn = s.attn := rfl
@[simp] theorem State.dropCopy_badBlks (s : State) (n : Nat) : (s.dropCopy n).badBlks = s.badBlks := rfl
@[simp] theorem State.dropCopy_attnBad (s : State) (n : Nat) : (s.dropCopy n).attnBad = s.attnBad := rfl
@[simp] theorem State.dropCopy_weak (s : State) (n : Nat) : (s.dropCopy n).weak = s.weak := rfl
@[simp] theorem State.dropCopy_corrected (s : State) (n : Nat) : (s.dropCopy n).corrected = s.corrected := rfl
@[simp] theorem State.dropCopy_llc (s : State) (n : Nat) : (s.dropCopy n).llc = s.llc := rfl
@[simp] theorem State.dropCopy_llcBad (s : State) (n : Nat) : (s.dropCopy n).llcBad = s.llcBad := rfl
@[simp] theorem State.dropCopy_stageBad (s : State) (n : Nat) : (s.dropCopy n).stageBad = s.stageBad := rfl
@[simp] theorem State.dropCopy_staging (s : State) (n : Nat) : (s.dropCopy n).staging = s.staging := rfl
@[simp] theorem State.dropCopy_ahead (s : State) (n : Nat) : (s.dropCopy n).ahead = s.ahead := rfl
@[simp] theorem State.dropCopy_quotas (s : State) (n : Nat) : (s.dropCopy n).quotas = s.quotas := rfl
@[simp] theorem State.dropCopy_walks (s : State) (n : Nat) : (s.dropCopy n).walks = s.walks := rfl
@[simp] theorem State.dropCopy_turns (s : State) (n : Nat) : (s.dropCopy n).turns = s.turns := rfl
@[simp] theorem State.dropCopy_devTensors (s : State) (n : Nat) : (s.dropCopy n).devTensors = s.devTensors := rfl
@[simp] theorem State.dropCopy_cores (s : State) (n : Nat) : (s.dropCopy n).cores = s.cores := rfl
@[simp] theorem State.dropCopy_tiers (s : State) (n : Nat) : (s.dropCopy n).tiers = s.tiers := rfl
@[simp] theorem State.dropCopy_mull (s : State) (n : Nat) : (s.dropCopy n).mull = s.mull := rfl
@[simp] theorem State.dropCopy_mullUsed (s : State) (n : Nat) : (s.dropCopy n).mullUsed = s.mullUsed := rfl
@[simp] theorem State.dropCopy_colmap (s : State) (n : Nat) : (s.dropCopy n).colmap = s.colmap := rfl
@[simp] theorem State.dropCopy_lostCols (s : State) (n : Nat) : (s.dropCopy n).lostCols = s.lostCols := rfl
@[simp] theorem State.dropCopy_retiring (s : State) (n : Nat) : (s.dropCopy n).retiring = s.retiring := rfl
@[simp] theorem State.dropCopy_badCols (s : State) (n : Nat) : (s.dropCopy n).badCols = s.badCols := rfl
@[simp] theorem State.dropCopy_sparesUsed (s : State) (n : Nat) : (s.dropCopy n).sparesUsed = s.sparesUsed := rfl
@[simp] theorem State.dropCopy_hbmMap (s : State) (n : Nat) : (s.dropCopy n).hbmMap = s.hbmMap := rfl
@[simp] theorem State.dropCopy_mxs (s : State) (n : Nat) : (s.dropCopy n).mxs = s.mxs := rfl
@[simp] theorem State.dropCopy_parts (s : State) (n : Nat) : (s.dropCopy n).parts = s.parts := rfl
@[simp] theorem State.dropCopy_keys (s : State) (n : Nat) : (s.dropCopy n).keys = s.keys := rfl
@[simp] theorem State.dropCopy_segs (s : State) (n : Nat) : (s.dropCopy n).segs = s.segs := rfl
@[simp] theorem State.dropCopy_flows (s : State) (n : Nat) : (s.dropCopy n).flows = s.flows := rfl
@[simp] theorem State.dropCopy_vkeys (s : State) (n : Nat) : (s.dropCopy n).vkeys = s.vkeys := rfl
@[simp] theorem State.dropCopy_arenas (s : State) (n : Nat) : (s.dropCopy n).arenas = s.arenas := rfl
@[simp] theorem State.dropCopy_index (s : State) (n : Nat) : (s.dropCopy n).index = s.index := rfl
@[simp] theorem State.dropCopy_reqs (s : State) (n : Nat) : (s.dropCopy n).reqs = s.reqs := rfl
@[simp] theorem State.dropCopy_copies (s : State) (n : Nat) : (s.dropCopy n).copies = s.copies.filter fun c => c.id != n := rfl
@[simp] theorem State.dropCopy_peers (s : State) (n : Nat) : (s.dropCopy n).peers = s.peers := rfl
@[simp] theorem State.dropCopy_emits (s : State) (n : Nat) : (s.dropCopy n).emits = s.emits := rfl
@[simp] theorem State.dropCopy_kvs (s : State) (n : Nat) : (s.dropCopy n).kvs = s.kvs := rfl
@[simp] theorem State.dropCopy_installs (s : State) (n : Nat) : (s.dropCopy n).installs = s.installs := rfl
@[simp] theorem State.dropCopy_scrubs (s : State) (n : Nat) : (s.dropCopy n).scrubs = s.scrubs := rfl
@[simp] theorem State.dropCopy_hkOps (s : State) (n : Nat) : (s.dropCopy n).hkOps = s.hkOps := rfl
@[simp] theorem State.dropCopy_hk (s : State) (n : Nat) : (s.dropCopy n).hk = s.hk := rfl
@[simp] theorem State.dropCopy_events (s : State) (n : Nat) : (s.dropCopy n).events = s.events := rfl
@[simp] theorem State.dropCopy_eventCount (s : State) (n : Nat) : (s.dropCopy n).eventCount = s.eventCount := rfl
@[simp] theorem State.dropCopy_records (s : State) (n : Nat) : (s.dropCopy n).records = s.records := rfl
@[simp] theorem State.dropCopy_aperture (s : State) (n : Nat) : (s.dropCopy n).aperture = s.aperture := rfl
@[simp] theorem State.dropCopy_wsegs (s : State) (n : Nat) : (s.dropCopy n).wsegs = s.wsegs := rfl
@[simp] theorem State.dropCopy_devw (s : State) (n : Nat) : (s.dropCopy n).devw = s.devw := rfl
@[simp] theorem State.dropCopy_peerDus (s : State) (n : Nat) : (s.dropCopy n).peerDus = s.peerDus := rfl
@[simp] theorem State.dropCopy_erase (s : State) (n : Nat) : (s.dropCopy n).erase = s.erase := rfl
@[simp] theorem State.dropCopy_fmap (s : State) (n : Nat) : (s.dropCopy n).fmap = s.fmap := rfl
@[simp] theorem State.dropCopy_flashSpare (s : State) (n : Nat) : (s.dropCopy n).flashSpare = s.flashSpare := rfl
@[simp] theorem State.dropCopy_progFail (s : State) (n : Nat) : (s.dropCopy n).progFail = s.progFail := rfl
@[simp] theorem State.dropCopy_verifyFail (s : State) (n : Nat) : (s.dropCopy n).verifyFail = s.verifyFail := rfl
@[simp] theorem State.dropCopy_lostRecords (s : State) (n : Nat) : (s.dropCopy n).lostRecords = s.lostRecords := rfl
@[simp] theorem State.dropCopy_shutPend (s : State) (n : Nat) : (s.dropCopy n).shutPend = s.shutPend := rfl
@[simp] theorem State.dropCopy_shut (s : State) (n : Nat) : (s.dropCopy n).shut = s.shut := rfl
@[simp] theorem State.dropCopy_exchange (s : State) (n : Nat) : (s.dropCopy n).exchange = s.exchange := rfl
@[simp] theorem State.dropCopy_devWrites (s : State) (n : Nat) : (s.dropCopy n).devWrites = s.devWrites := rfl
@[simp] theorem State.dropCopy_ready (s : State) (n : Nat) : (s.dropCopy n).ready = s.ready := rfl
@[simp] theorem State.dropCopy_cxlPop (s : State) (n : Nat) : (s.dropCopy n).cxlPop = s.cxlPop := rfl
@[simp] theorem State.dropCopy_portDown (s : State) (n : Nat) : (s.dropCopy n).portDown = s.portDown := rfl
@[simp] theorem State.dropCopy_cxlDown (s : State) (n : Nat) : (s.dropCopy n).cxlDown = s.cxlDown := rfl
@[simp] theorem State.dropCopy_mcsum (s : State) (n : Nat) : (s.dropCopy n).mcsum = s.mcsum := rfl
@[simp] theorem State.dropCopy_mccnt (s : State) (n : Nat) : (s.dropCopy n).mccnt = s.mccnt := rfl
@[simp] theorem State.dropCopy_drops (s : State) (n : Nat) : (s.dropCopy n).drops = s.drops := rfl
@[simp] theorem State.dropCopy_foreign (s : State) (n : Nat) : (s.dropCopy n).foreign = s.foreign := rfl
@[simp] theorem State.dropCopy_links (s : State) (n : Nat) : (s.dropCopy n).links = s.links := rfl
@[simp] theorem State.dropCopy_mbout (s : State) (n : Nat) : (s.dropCopy n).mbout = s.mbout := rfl
@[simp] theorem State.dropCopy_mbuf (s : State) (n : Nat) : (s.dropCopy n).mbuf = s.mbuf := rfl
@[simp] theorem State.dropCopy_thermals (s : State) (n : Nat) : (s.dropCopy n).thermals = s.thermals := rfl
@[simp] theorem State.dropCopy_thermalRing (s : State) (n : Nat) : (s.dropCopy n).thermalRing = s.thermalRing := rfl
@[simp] theorem State.dropCopy_sent (s : State) (n : Nat) : (s.dropCopy n).sent = s.sent := rfl
@[simp] theorem State.dropCopy_residency (s : State) (n : Nat) : (s.dropCopy n).residency = s.residency := rfl
@[simp] theorem State.dropCopy_shared (s : State) (n : Nat) : (s.dropCopy n).shared = s.shared := rfl
@[simp] theorem State.dropCopy_samples (s : State) (n : Nat) : (s.dropCopy n).samples = s.samples := rfl
@[simp] theorem State.dropCopy_exports (s : State) (n : Nat) : (s.dropCopy n).exports = s.exports := rfl

/-! setInstall -/

@[simp] theorem State.setInstall_cur (s : State) (i : Install) : (s.setInstall i).cur = s.cur := rfl
@[simp] theorem State.setInstall_agenda (s : State) (i : Install) : (s.setInstall i).agenda = s.agenda := rfl
@[simp] theorem State.setInstall_turn (s : State) (i : Install) : (s.setInstall i).turn = s.turn := rfl
@[simp] theorem State.setInstall_fresh (s : State) (i : Install) : (s.setInstall i).fresh = s.fresh := rfl
@[simp] theorem State.setInstall_nextId (s : State) (i : Install) : (s.setInstall i).nextId = s.nextId := rfl
@[simp] theorem State.setInstall_dclk (s : State) (i : Install) : (s.setInstall i).dclk = s.dclk := rfl
@[simp] theorem State.setInstall_ltb (s : State) (i : Install) : (s.setInstall i).ltb = s.ltb := rfl
@[simp] theorem State.setInstall_booted (s : State) (i : Install) : (s.setInstall i).booted = s.booted := rfl
@[simp] theorem State.setInstall_fwImage (s : State) (i : Install) : (s.setInstall i).fwImage = s.fwImage := rfl
@[simp] theorem State.setInstall_fwHash (s : State) (i : Install) : (s.setInstall i).fwHash = s.fwHash := rfl
@[simp] theorem State.setInstall_mem (s : State) (i : Install) : (s.setInstall i).mem = s.mem := rfl
@[simp] theorem State.setInstall_attn (s : State) (i : Install) : (s.setInstall i).attn = s.attn := rfl
@[simp] theorem State.setInstall_badBlks (s : State) (i : Install) : (s.setInstall i).badBlks = s.badBlks := rfl
@[simp] theorem State.setInstall_attnBad (s : State) (i : Install) : (s.setInstall i).attnBad = s.attnBad := rfl
@[simp] theorem State.setInstall_weak (s : State) (i : Install) : (s.setInstall i).weak = s.weak := rfl
@[simp] theorem State.setInstall_corrected (s : State) (i : Install) : (s.setInstall i).corrected = s.corrected := rfl
@[simp] theorem State.setInstall_llc (s : State) (i : Install) : (s.setInstall i).llc = s.llc := rfl
@[simp] theorem State.setInstall_llcBad (s : State) (i : Install) : (s.setInstall i).llcBad = s.llcBad := rfl
@[simp] theorem State.setInstall_stageBad (s : State) (i : Install) : (s.setInstall i).stageBad = s.stageBad := rfl
@[simp] theorem State.setInstall_staging (s : State) (i : Install) : (s.setInstall i).staging = s.staging := rfl
@[simp] theorem State.setInstall_ahead (s : State) (i : Install) : (s.setInstall i).ahead = s.ahead := rfl
@[simp] theorem State.setInstall_quotas (s : State) (i : Install) : (s.setInstall i).quotas = s.quotas := rfl
@[simp] theorem State.setInstall_walks (s : State) (i : Install) : (s.setInstall i).walks = s.walks := rfl
@[simp] theorem State.setInstall_turns (s : State) (i : Install) : (s.setInstall i).turns = s.turns := rfl
@[simp] theorem State.setInstall_devTensors (s : State) (i : Install) : (s.setInstall i).devTensors = s.devTensors := rfl
@[simp] theorem State.setInstall_cores (s : State) (i : Install) : (s.setInstall i).cores = s.cores := rfl
@[simp] theorem State.setInstall_tiers (s : State) (i : Install) : (s.setInstall i).tiers = s.tiers := rfl
@[simp] theorem State.setInstall_mull (s : State) (i : Install) : (s.setInstall i).mull = s.mull := rfl
@[simp] theorem State.setInstall_mullUsed (s : State) (i : Install) : (s.setInstall i).mullUsed = s.mullUsed := rfl
@[simp] theorem State.setInstall_colmap (s : State) (i : Install) : (s.setInstall i).colmap = s.colmap := rfl
@[simp] theorem State.setInstall_lostCols (s : State) (i : Install) : (s.setInstall i).lostCols = s.lostCols := rfl
@[simp] theorem State.setInstall_retiring (s : State) (i : Install) : (s.setInstall i).retiring = s.retiring := rfl
@[simp] theorem State.setInstall_badCols (s : State) (i : Install) : (s.setInstall i).badCols = s.badCols := rfl
@[simp] theorem State.setInstall_sparesUsed (s : State) (i : Install) : (s.setInstall i).sparesUsed = s.sparesUsed := rfl
@[simp] theorem State.setInstall_hbmMap (s : State) (i : Install) : (s.setInstall i).hbmMap = s.hbmMap := rfl
@[simp] theorem State.setInstall_mxs (s : State) (i : Install) : (s.setInstall i).mxs = s.mxs := rfl
@[simp] theorem State.setInstall_parts (s : State) (i : Install) : (s.setInstall i).parts = s.parts := rfl
@[simp] theorem State.setInstall_keys (s : State) (i : Install) : (s.setInstall i).keys = s.keys := rfl
@[simp] theorem State.setInstall_segs (s : State) (i : Install) : (s.setInstall i).segs = s.segs := rfl
@[simp] theorem State.setInstall_flows (s : State) (i : Install) : (s.setInstall i).flows = s.flows := rfl
@[simp] theorem State.setInstall_vkeys (s : State) (i : Install) : (s.setInstall i).vkeys = s.vkeys := rfl
@[simp] theorem State.setInstall_arenas (s : State) (i : Install) : (s.setInstall i).arenas = s.arenas := rfl
@[simp] theorem State.setInstall_index (s : State) (i : Install) : (s.setInstall i).index = s.index := rfl
@[simp] theorem State.setInstall_reqs (s : State) (i : Install) : (s.setInstall i).reqs = s.reqs := rfl
@[simp] theorem State.setInstall_copies (s : State) (i : Install) : (s.setInstall i).copies = s.copies := rfl
@[simp] theorem State.setInstall_peers (s : State) (i : Install) : (s.setInstall i).peers = s.peers := rfl
@[simp] theorem State.setInstall_emits (s : State) (i : Install) : (s.setInstall i).emits = s.emits := rfl
@[simp] theorem State.setInstall_kvs (s : State) (i : Install) : (s.setInstall i).kvs = s.kvs := rfl
@[simp] theorem State.setInstall_installs (s : State) (i : Install) : (s.setInstall i).installs = s.installs.map fun x => if x.id = i.id then i else x := rfl
@[simp] theorem State.setInstall_scrubs (s : State) (i : Install) : (s.setInstall i).scrubs = s.scrubs := rfl
@[simp] theorem State.setInstall_hkOps (s : State) (i : Install) : (s.setInstall i).hkOps = s.hkOps := rfl
@[simp] theorem State.setInstall_hk (s : State) (i : Install) : (s.setInstall i).hk = s.hk := rfl
@[simp] theorem State.setInstall_events (s : State) (i : Install) : (s.setInstall i).events = s.events := rfl
@[simp] theorem State.setInstall_eventCount (s : State) (i : Install) : (s.setInstall i).eventCount = s.eventCount := rfl
@[simp] theorem State.setInstall_records (s : State) (i : Install) : (s.setInstall i).records = s.records := rfl
@[simp] theorem State.setInstall_aperture (s : State) (i : Install) : (s.setInstall i).aperture = s.aperture := rfl
@[simp] theorem State.setInstall_wsegs (s : State) (i : Install) : (s.setInstall i).wsegs = s.wsegs := rfl
@[simp] theorem State.setInstall_devw (s : State) (i : Install) : (s.setInstall i).devw = s.devw := rfl
@[simp] theorem State.setInstall_peerDus (s : State) (i : Install) : (s.setInstall i).peerDus = s.peerDus := rfl
@[simp] theorem State.setInstall_erase (s : State) (i : Install) : (s.setInstall i).erase = s.erase := rfl
@[simp] theorem State.setInstall_fmap (s : State) (i : Install) : (s.setInstall i).fmap = s.fmap := rfl
@[simp] theorem State.setInstall_flashSpare (s : State) (i : Install) : (s.setInstall i).flashSpare = s.flashSpare := rfl
@[simp] theorem State.setInstall_progFail (s : State) (i : Install) : (s.setInstall i).progFail = s.progFail := rfl
@[simp] theorem State.setInstall_verifyFail (s : State) (i : Install) : (s.setInstall i).verifyFail = s.verifyFail := rfl
@[simp] theorem State.setInstall_lostRecords (s : State) (i : Install) : (s.setInstall i).lostRecords = s.lostRecords := rfl
@[simp] theorem State.setInstall_shutPend (s : State) (i : Install) : (s.setInstall i).shutPend = s.shutPend := rfl
@[simp] theorem State.setInstall_shut (s : State) (i : Install) : (s.setInstall i).shut = s.shut := rfl
@[simp] theorem State.setInstall_exchange (s : State) (i : Install) : (s.setInstall i).exchange = s.exchange := rfl
@[simp] theorem State.setInstall_devWrites (s : State) (i : Install) : (s.setInstall i).devWrites = s.devWrites := rfl
@[simp] theorem State.setInstall_ready (s : State) (i : Install) : (s.setInstall i).ready = s.ready := rfl
@[simp] theorem State.setInstall_cxlPop (s : State) (i : Install) : (s.setInstall i).cxlPop = s.cxlPop := rfl
@[simp] theorem State.setInstall_portDown (s : State) (i : Install) : (s.setInstall i).portDown = s.portDown := rfl
@[simp] theorem State.setInstall_cxlDown (s : State) (i : Install) : (s.setInstall i).cxlDown = s.cxlDown := rfl
@[simp] theorem State.setInstall_mcsum (s : State) (i : Install) : (s.setInstall i).mcsum = s.mcsum := rfl
@[simp] theorem State.setInstall_mccnt (s : State) (i : Install) : (s.setInstall i).mccnt = s.mccnt := rfl
@[simp] theorem State.setInstall_drops (s : State) (i : Install) : (s.setInstall i).drops = s.drops := rfl
@[simp] theorem State.setInstall_foreign (s : State) (i : Install) : (s.setInstall i).foreign = s.foreign := rfl
@[simp] theorem State.setInstall_links (s : State) (i : Install) : (s.setInstall i).links = s.links := rfl
@[simp] theorem State.setInstall_mbout (s : State) (i : Install) : (s.setInstall i).mbout = s.mbout := rfl
@[simp] theorem State.setInstall_mbuf (s : State) (i : Install) : (s.setInstall i).mbuf = s.mbuf := rfl
@[simp] theorem State.setInstall_thermals (s : State) (i : Install) : (s.setInstall i).thermals = s.thermals := rfl
@[simp] theorem State.setInstall_thermalRing (s : State) (i : Install) : (s.setInstall i).thermalRing = s.thermalRing := rfl
@[simp] theorem State.setInstall_sent (s : State) (i : Install) : (s.setInstall i).sent = s.sent := rfl
@[simp] theorem State.setInstall_residency (s : State) (i : Install) : (s.setInstall i).residency = s.residency := rfl
@[simp] theorem State.setInstall_shared (s : State) (i : Install) : (s.setInstall i).shared = s.shared := rfl
@[simp] theorem State.setInstall_samples (s : State) (i : Install) : (s.setInstall i).samples = s.samples := rfl
@[simp] theorem State.setInstall_exports (s : State) (i : Install) : (s.setInstall i).exports = s.exports := rfl

/-! dropInstall -/

@[simp] theorem State.dropInstall_cur (s : State) (n : Nat) : (s.dropInstall n).cur = s.cur := rfl
@[simp] theorem State.dropInstall_agenda (s : State) (n : Nat) : (s.dropInstall n).agenda = s.agenda := rfl
@[simp] theorem State.dropInstall_turn (s : State) (n : Nat) : (s.dropInstall n).turn = s.turn := rfl
@[simp] theorem State.dropInstall_fresh (s : State) (n : Nat) : (s.dropInstall n).fresh = s.fresh := rfl
@[simp] theorem State.dropInstall_nextId (s : State) (n : Nat) : (s.dropInstall n).nextId = s.nextId := rfl
@[simp] theorem State.dropInstall_dclk (s : State) (n : Nat) : (s.dropInstall n).dclk = s.dclk := rfl
@[simp] theorem State.dropInstall_ltb (s : State) (n : Nat) : (s.dropInstall n).ltb = s.ltb := rfl
@[simp] theorem State.dropInstall_booted (s : State) (n : Nat) : (s.dropInstall n).booted = s.booted := rfl
@[simp] theorem State.dropInstall_fwImage (s : State) (n : Nat) : (s.dropInstall n).fwImage = s.fwImage := rfl
@[simp] theorem State.dropInstall_fwHash (s : State) (n : Nat) : (s.dropInstall n).fwHash = s.fwHash := rfl
@[simp] theorem State.dropInstall_mem (s : State) (n : Nat) : (s.dropInstall n).mem = s.mem := rfl
@[simp] theorem State.dropInstall_attn (s : State) (n : Nat) : (s.dropInstall n).attn = s.attn := rfl
@[simp] theorem State.dropInstall_badBlks (s : State) (n : Nat) : (s.dropInstall n).badBlks = s.badBlks := rfl
@[simp] theorem State.dropInstall_attnBad (s : State) (n : Nat) : (s.dropInstall n).attnBad = s.attnBad := rfl
@[simp] theorem State.dropInstall_weak (s : State) (n : Nat) : (s.dropInstall n).weak = s.weak := rfl
@[simp] theorem State.dropInstall_corrected (s : State) (n : Nat) : (s.dropInstall n).corrected = s.corrected := rfl
@[simp] theorem State.dropInstall_llc (s : State) (n : Nat) : (s.dropInstall n).llc = s.llc := rfl
@[simp] theorem State.dropInstall_llcBad (s : State) (n : Nat) : (s.dropInstall n).llcBad = s.llcBad := rfl
@[simp] theorem State.dropInstall_stageBad (s : State) (n : Nat) : (s.dropInstall n).stageBad = s.stageBad := rfl
@[simp] theorem State.dropInstall_staging (s : State) (n : Nat) : (s.dropInstall n).staging = s.staging := rfl
@[simp] theorem State.dropInstall_ahead (s : State) (n : Nat) : (s.dropInstall n).ahead = s.ahead := rfl
@[simp] theorem State.dropInstall_quotas (s : State) (n : Nat) : (s.dropInstall n).quotas = s.quotas := rfl
@[simp] theorem State.dropInstall_walks (s : State) (n : Nat) : (s.dropInstall n).walks = s.walks := rfl
@[simp] theorem State.dropInstall_turns (s : State) (n : Nat) : (s.dropInstall n).turns = s.turns := rfl
@[simp] theorem State.dropInstall_devTensors (s : State) (n : Nat) : (s.dropInstall n).devTensors = s.devTensors := rfl
@[simp] theorem State.dropInstall_cores (s : State) (n : Nat) : (s.dropInstall n).cores = s.cores := rfl
@[simp] theorem State.dropInstall_tiers (s : State) (n : Nat) : (s.dropInstall n).tiers = s.tiers := rfl
@[simp] theorem State.dropInstall_mull (s : State) (n : Nat) : (s.dropInstall n).mull = s.mull := rfl
@[simp] theorem State.dropInstall_mullUsed (s : State) (n : Nat) : (s.dropInstall n).mullUsed = s.mullUsed := rfl
@[simp] theorem State.dropInstall_colmap (s : State) (n : Nat) : (s.dropInstall n).colmap = s.colmap := rfl
@[simp] theorem State.dropInstall_lostCols (s : State) (n : Nat) : (s.dropInstall n).lostCols = s.lostCols := rfl
@[simp] theorem State.dropInstall_retiring (s : State) (n : Nat) : (s.dropInstall n).retiring = s.retiring := rfl
@[simp] theorem State.dropInstall_badCols (s : State) (n : Nat) : (s.dropInstall n).badCols = s.badCols := rfl
@[simp] theorem State.dropInstall_sparesUsed (s : State) (n : Nat) : (s.dropInstall n).sparesUsed = s.sparesUsed := rfl
@[simp] theorem State.dropInstall_hbmMap (s : State) (n : Nat) : (s.dropInstall n).hbmMap = s.hbmMap := rfl
@[simp] theorem State.dropInstall_mxs (s : State) (n : Nat) : (s.dropInstall n).mxs = s.mxs := rfl
@[simp] theorem State.dropInstall_parts (s : State) (n : Nat) : (s.dropInstall n).parts = s.parts := rfl
@[simp] theorem State.dropInstall_keys (s : State) (n : Nat) : (s.dropInstall n).keys = s.keys := rfl
@[simp] theorem State.dropInstall_segs (s : State) (n : Nat) : (s.dropInstall n).segs = s.segs := rfl
@[simp] theorem State.dropInstall_flows (s : State) (n : Nat) : (s.dropInstall n).flows = s.flows := rfl
@[simp] theorem State.dropInstall_vkeys (s : State) (n : Nat) : (s.dropInstall n).vkeys = s.vkeys := rfl
@[simp] theorem State.dropInstall_arenas (s : State) (n : Nat) : (s.dropInstall n).arenas = s.arenas := rfl
@[simp] theorem State.dropInstall_index (s : State) (n : Nat) : (s.dropInstall n).index = s.index := rfl
@[simp] theorem State.dropInstall_reqs (s : State) (n : Nat) : (s.dropInstall n).reqs = s.reqs := rfl
@[simp] theorem State.dropInstall_copies (s : State) (n : Nat) : (s.dropInstall n).copies = s.copies := rfl
@[simp] theorem State.dropInstall_peers (s : State) (n : Nat) : (s.dropInstall n).peers = s.peers := rfl
@[simp] theorem State.dropInstall_emits (s : State) (n : Nat) : (s.dropInstall n).emits = s.emits := rfl
@[simp] theorem State.dropInstall_kvs (s : State) (n : Nat) : (s.dropInstall n).kvs = s.kvs := rfl
@[simp] theorem State.dropInstall_installs (s : State) (n : Nat) : (s.dropInstall n).installs = s.installs.filter fun i => i.id != n := rfl
@[simp] theorem State.dropInstall_scrubs (s : State) (n : Nat) : (s.dropInstall n).scrubs = s.scrubs := rfl
@[simp] theorem State.dropInstall_hkOps (s : State) (n : Nat) : (s.dropInstall n).hkOps = s.hkOps := rfl
@[simp] theorem State.dropInstall_hk (s : State) (n : Nat) : (s.dropInstall n).hk = s.hk := rfl
@[simp] theorem State.dropInstall_events (s : State) (n : Nat) : (s.dropInstall n).events = s.events := rfl
@[simp] theorem State.dropInstall_eventCount (s : State) (n : Nat) : (s.dropInstall n).eventCount = s.eventCount := rfl
@[simp] theorem State.dropInstall_records (s : State) (n : Nat) : (s.dropInstall n).records = s.records := rfl
@[simp] theorem State.dropInstall_aperture (s : State) (n : Nat) : (s.dropInstall n).aperture = s.aperture := rfl
@[simp] theorem State.dropInstall_wsegs (s : State) (n : Nat) : (s.dropInstall n).wsegs = s.wsegs := rfl
@[simp] theorem State.dropInstall_devw (s : State) (n : Nat) : (s.dropInstall n).devw = s.devw := rfl
@[simp] theorem State.dropInstall_peerDus (s : State) (n : Nat) : (s.dropInstall n).peerDus = s.peerDus := rfl
@[simp] theorem State.dropInstall_erase (s : State) (n : Nat) : (s.dropInstall n).erase = s.erase := rfl
@[simp] theorem State.dropInstall_fmap (s : State) (n : Nat) : (s.dropInstall n).fmap = s.fmap := rfl
@[simp] theorem State.dropInstall_flashSpare (s : State) (n : Nat) : (s.dropInstall n).flashSpare = s.flashSpare := rfl
@[simp] theorem State.dropInstall_progFail (s : State) (n : Nat) : (s.dropInstall n).progFail = s.progFail := rfl
@[simp] theorem State.dropInstall_verifyFail (s : State) (n : Nat) : (s.dropInstall n).verifyFail = s.verifyFail := rfl
@[simp] theorem State.dropInstall_lostRecords (s : State) (n : Nat) : (s.dropInstall n).lostRecords = s.lostRecords := rfl
@[simp] theorem State.dropInstall_shutPend (s : State) (n : Nat) : (s.dropInstall n).shutPend = s.shutPend := rfl
@[simp] theorem State.dropInstall_shut (s : State) (n : Nat) : (s.dropInstall n).shut = s.shut := rfl
@[simp] theorem State.dropInstall_exchange (s : State) (n : Nat) : (s.dropInstall n).exchange = s.exchange := rfl
@[simp] theorem State.dropInstall_devWrites (s : State) (n : Nat) : (s.dropInstall n).devWrites = s.devWrites := rfl
@[simp] theorem State.dropInstall_ready (s : State) (n : Nat) : (s.dropInstall n).ready = s.ready := rfl
@[simp] theorem State.dropInstall_cxlPop (s : State) (n : Nat) : (s.dropInstall n).cxlPop = s.cxlPop := rfl
@[simp] theorem State.dropInstall_portDown (s : State) (n : Nat) : (s.dropInstall n).portDown = s.portDown := rfl
@[simp] theorem State.dropInstall_cxlDown (s : State) (n : Nat) : (s.dropInstall n).cxlDown = s.cxlDown := rfl
@[simp] theorem State.dropInstall_mcsum (s : State) (n : Nat) : (s.dropInstall n).mcsum = s.mcsum := rfl
@[simp] theorem State.dropInstall_mccnt (s : State) (n : Nat) : (s.dropInstall n).mccnt = s.mccnt := rfl
@[simp] theorem State.dropInstall_drops (s : State) (n : Nat) : (s.dropInstall n).drops = s.drops := rfl
@[simp] theorem State.dropInstall_foreign (s : State) (n : Nat) : (s.dropInstall n).foreign = s.foreign := rfl
@[simp] theorem State.dropInstall_links (s : State) (n : Nat) : (s.dropInstall n).links = s.links := rfl
@[simp] theorem State.dropInstall_mbout (s : State) (n : Nat) : (s.dropInstall n).mbout = s.mbout := rfl
@[simp] theorem State.dropInstall_mbuf (s : State) (n : Nat) : (s.dropInstall n).mbuf = s.mbuf := rfl
@[simp] theorem State.dropInstall_thermals (s : State) (n : Nat) : (s.dropInstall n).thermals = s.thermals := rfl
@[simp] theorem State.dropInstall_thermalRing (s : State) (n : Nat) : (s.dropInstall n).thermalRing = s.thermalRing := rfl
@[simp] theorem State.dropInstall_sent (s : State) (n : Nat) : (s.dropInstall n).sent = s.sent := rfl
@[simp] theorem State.dropInstall_residency (s : State) (n : Nat) : (s.dropInstall n).residency = s.residency := rfl
@[simp] theorem State.dropInstall_shared (s : State) (n : Nat) : (s.dropInstall n).shared = s.shared := rfl
@[simp] theorem State.dropInstall_samples (s : State) (n : Nat) : (s.dropInstall n).samples = s.samples := rfl
@[simp] theorem State.dropInstall_exports (s : State) (n : Nat) : (s.dropInstall n).exports = s.exports := rfl

/-! setEraseBlk -/

@[simp] theorem State.setEraseBlk_cur (s : State) (k b : Nat) (x : EraseBlk) : (s.setEraseBlk k b x).cur = s.cur := rfl
@[simp] theorem State.setEraseBlk_agenda (s : State) (k b : Nat) (x : EraseBlk) : (s.setEraseBlk k b x).agenda = s.agenda := rfl
@[simp] theorem State.setEraseBlk_turn (s : State) (k b : Nat) (x : EraseBlk) : (s.setEraseBlk k b x).turn = s.turn := rfl
@[simp] theorem State.setEraseBlk_fresh (s : State) (k b : Nat) (x : EraseBlk) : (s.setEraseBlk k b x).fresh = s.fresh := rfl
@[simp] theorem State.setEraseBlk_nextId (s : State) (k b : Nat) (x : EraseBlk) : (s.setEraseBlk k b x).nextId = s.nextId := rfl
@[simp] theorem State.setEraseBlk_dclk (s : State) (k b : Nat) (x : EraseBlk) : (s.setEraseBlk k b x).dclk = s.dclk := rfl
@[simp] theorem State.setEraseBlk_ltb (s : State) (k b : Nat) (x : EraseBlk) : (s.setEraseBlk k b x).ltb = s.ltb := rfl
@[simp] theorem State.setEraseBlk_booted (s : State) (k b : Nat) (x : EraseBlk) : (s.setEraseBlk k b x).booted = s.booted := rfl
@[simp] theorem State.setEraseBlk_fwImage (s : State) (k b : Nat) (x : EraseBlk) : (s.setEraseBlk k b x).fwImage = s.fwImage := rfl
@[simp] theorem State.setEraseBlk_fwHash (s : State) (k b : Nat) (x : EraseBlk) : (s.setEraseBlk k b x).fwHash = s.fwHash := rfl
@[simp] theorem State.setEraseBlk_mem (s : State) (k b : Nat) (x : EraseBlk) : (s.setEraseBlk k b x).mem = s.mem := rfl
@[simp] theorem State.setEraseBlk_attn (s : State) (k b : Nat) (x : EraseBlk) : (s.setEraseBlk k b x).attn = s.attn := rfl
@[simp] theorem State.setEraseBlk_badBlks (s : State) (k b : Nat) (x : EraseBlk) : (s.setEraseBlk k b x).badBlks = s.badBlks := rfl
@[simp] theorem State.setEraseBlk_attnBad (s : State) (k b : Nat) (x : EraseBlk) : (s.setEraseBlk k b x).attnBad = s.attnBad := rfl
@[simp] theorem State.setEraseBlk_weak (s : State) (k b : Nat) (x : EraseBlk) : (s.setEraseBlk k b x).weak = s.weak := rfl
@[simp] theorem State.setEraseBlk_corrected (s : State) (k b : Nat) (x : EraseBlk) : (s.setEraseBlk k b x).corrected = s.corrected := rfl
@[simp] theorem State.setEraseBlk_llc (s : State) (k b : Nat) (x : EraseBlk) : (s.setEraseBlk k b x).llc = s.llc := rfl
@[simp] theorem State.setEraseBlk_llcBad (s : State) (k b : Nat) (x : EraseBlk) : (s.setEraseBlk k b x).llcBad = s.llcBad := rfl
@[simp] theorem State.setEraseBlk_stageBad (s : State) (k b : Nat) (x : EraseBlk) : (s.setEraseBlk k b x).stageBad = s.stageBad := rfl
@[simp] theorem State.setEraseBlk_staging (s : State) (k b : Nat) (x : EraseBlk) : (s.setEraseBlk k b x).staging = s.staging := rfl
@[simp] theorem State.setEraseBlk_ahead (s : State) (k b : Nat) (x : EraseBlk) : (s.setEraseBlk k b x).ahead = s.ahead := rfl
@[simp] theorem State.setEraseBlk_quotas (s : State) (k b : Nat) (x : EraseBlk) : (s.setEraseBlk k b x).quotas = s.quotas := rfl
@[simp] theorem State.setEraseBlk_walks (s : State) (k b : Nat) (x : EraseBlk) : (s.setEraseBlk k b x).walks = s.walks := rfl
@[simp] theorem State.setEraseBlk_turns (s : State) (k b : Nat) (x : EraseBlk) : (s.setEraseBlk k b x).turns = s.turns := rfl
@[simp] theorem State.setEraseBlk_devTensors (s : State) (k b : Nat) (x : EraseBlk) : (s.setEraseBlk k b x).devTensors = s.devTensors := rfl
@[simp] theorem State.setEraseBlk_cores (s : State) (k b : Nat) (x : EraseBlk) : (s.setEraseBlk k b x).cores = s.cores := rfl
@[simp] theorem State.setEraseBlk_tiers (s : State) (k b : Nat) (x : EraseBlk) : (s.setEraseBlk k b x).tiers = s.tiers := rfl
@[simp] theorem State.setEraseBlk_mull (s : State) (k b : Nat) (x : EraseBlk) : (s.setEraseBlk k b x).mull = s.mull := rfl
@[simp] theorem State.setEraseBlk_mullUsed (s : State) (k b : Nat) (x : EraseBlk) : (s.setEraseBlk k b x).mullUsed = s.mullUsed := rfl
@[simp] theorem State.setEraseBlk_colmap (s : State) (k b : Nat) (x : EraseBlk) : (s.setEraseBlk k b x).colmap = s.colmap := rfl
@[simp] theorem State.setEraseBlk_lostCols (s : State) (k b : Nat) (x : EraseBlk) : (s.setEraseBlk k b x).lostCols = s.lostCols := rfl
@[simp] theorem State.setEraseBlk_retiring (s : State) (k b : Nat) (x : EraseBlk) : (s.setEraseBlk k b x).retiring = s.retiring := rfl
@[simp] theorem State.setEraseBlk_badCols (s : State) (k b : Nat) (x : EraseBlk) : (s.setEraseBlk k b x).badCols = s.badCols := rfl
@[simp] theorem State.setEraseBlk_sparesUsed (s : State) (k b : Nat) (x : EraseBlk) : (s.setEraseBlk k b x).sparesUsed = s.sparesUsed := rfl
@[simp] theorem State.setEraseBlk_hbmMap (s : State) (k b : Nat) (x : EraseBlk) : (s.setEraseBlk k b x).hbmMap = s.hbmMap := rfl
@[simp] theorem State.setEraseBlk_mxs (s : State) (k b : Nat) (x : EraseBlk) : (s.setEraseBlk k b x).mxs = s.mxs := rfl
@[simp] theorem State.setEraseBlk_parts (s : State) (k b : Nat) (x : EraseBlk) : (s.setEraseBlk k b x).parts = s.parts := rfl
@[simp] theorem State.setEraseBlk_keys (s : State) (k b : Nat) (x : EraseBlk) : (s.setEraseBlk k b x).keys = s.keys := rfl
@[simp] theorem State.setEraseBlk_segs (s : State) (k b : Nat) (x : EraseBlk) : (s.setEraseBlk k b x).segs = s.segs := rfl
@[simp] theorem State.setEraseBlk_flows (s : State) (k b : Nat) (x : EraseBlk) : (s.setEraseBlk k b x).flows = s.flows := rfl
@[simp] theorem State.setEraseBlk_vkeys (s : State) (k b : Nat) (x : EraseBlk) : (s.setEraseBlk k b x).vkeys = s.vkeys := rfl
@[simp] theorem State.setEraseBlk_arenas (s : State) (k b : Nat) (x : EraseBlk) : (s.setEraseBlk k b x).arenas = s.arenas := rfl
@[simp] theorem State.setEraseBlk_index (s : State) (k b : Nat) (x : EraseBlk) : (s.setEraseBlk k b x).index = s.index := rfl
@[simp] theorem State.setEraseBlk_reqs (s : State) (k b : Nat) (x : EraseBlk) : (s.setEraseBlk k b x).reqs = s.reqs := rfl
@[simp] theorem State.setEraseBlk_copies (s : State) (k b : Nat) (x : EraseBlk) : (s.setEraseBlk k b x).copies = s.copies := rfl
@[simp] theorem State.setEraseBlk_peers (s : State) (k b : Nat) (x : EraseBlk) : (s.setEraseBlk k b x).peers = s.peers := rfl
@[simp] theorem State.setEraseBlk_emits (s : State) (k b : Nat) (x : EraseBlk) : (s.setEraseBlk k b x).emits = s.emits := rfl
@[simp] theorem State.setEraseBlk_kvs (s : State) (k b : Nat) (x : EraseBlk) : (s.setEraseBlk k b x).kvs = s.kvs := rfl
@[simp] theorem State.setEraseBlk_installs (s : State) (k b : Nat) (x : EraseBlk) : (s.setEraseBlk k b x).installs = s.installs := rfl
@[simp] theorem State.setEraseBlk_scrubs (s : State) (k b : Nat) (x : EraseBlk) : (s.setEraseBlk k b x).scrubs = s.scrubs := rfl
@[simp] theorem State.setEraseBlk_hkOps (s : State) (k b : Nat) (x : EraseBlk) : (s.setEraseBlk k b x).hkOps = s.hkOps := rfl
@[simp] theorem State.setEraseBlk_hk (s : State) (k b : Nat) (x : EraseBlk) : (s.setEraseBlk k b x).hk = s.hk := rfl
@[simp] theorem State.setEraseBlk_events (s : State) (k b : Nat) (x : EraseBlk) : (s.setEraseBlk k b x).events = s.events := rfl
@[simp] theorem State.setEraseBlk_eventCount (s : State) (k b : Nat) (x : EraseBlk) : (s.setEraseBlk k b x).eventCount = s.eventCount := rfl
@[simp] theorem State.setEraseBlk_records (s : State) (k b : Nat) (x : EraseBlk) : (s.setEraseBlk k b x).records = s.records := rfl
@[simp] theorem State.setEraseBlk_aperture (s : State) (k b : Nat) (x : EraseBlk) : (s.setEraseBlk k b x).aperture = s.aperture := rfl
@[simp] theorem State.setEraseBlk_wsegs (s : State) (k b : Nat) (x : EraseBlk) : (s.setEraseBlk k b x).wsegs = s.wsegs := rfl
@[simp] theorem State.setEraseBlk_devw (s : State) (k b : Nat) (x : EraseBlk) : (s.setEraseBlk k b x).devw = s.devw := rfl
@[simp] theorem State.setEraseBlk_peerDus (s : State) (k b : Nat) (x : EraseBlk) : (s.setEraseBlk k b x).peerDus = s.peerDus := rfl
@[simp] theorem State.setEraseBlk_erase (s : State) (k b : Nat) (x : EraseBlk) : (s.setEraseBlk k b x).erase = s.erase.put (65536 * k + b) x := rfl
@[simp] theorem State.setEraseBlk_fmap (s : State) (k b : Nat) (x : EraseBlk) : (s.setEraseBlk k b x).fmap = s.fmap := rfl
@[simp] theorem State.setEraseBlk_flashSpare (s : State) (k b : Nat) (x : EraseBlk) : (s.setEraseBlk k b x).flashSpare = s.flashSpare := rfl
@[simp] theorem State.setEraseBlk_progFail (s : State) (k b : Nat) (x : EraseBlk) : (s.setEraseBlk k b x).progFail = s.progFail := rfl
@[simp] theorem State.setEraseBlk_verifyFail (s : State) (k b : Nat) (x : EraseBlk) : (s.setEraseBlk k b x).verifyFail = s.verifyFail := rfl
@[simp] theorem State.setEraseBlk_lostRecords (s : State) (k b : Nat) (x : EraseBlk) : (s.setEraseBlk k b x).lostRecords = s.lostRecords := rfl
@[simp] theorem State.setEraseBlk_shutPend (s : State) (k b : Nat) (x : EraseBlk) : (s.setEraseBlk k b x).shutPend = s.shutPend := rfl
@[simp] theorem State.setEraseBlk_shut (s : State) (k b : Nat) (x : EraseBlk) : (s.setEraseBlk k b x).shut = s.shut := rfl
@[simp] theorem State.setEraseBlk_exchange (s : State) (k b : Nat) (x : EraseBlk) : (s.setEraseBlk k b x).exchange = s.exchange := rfl
@[simp] theorem State.setEraseBlk_devWrites (s : State) (k b : Nat) (x : EraseBlk) : (s.setEraseBlk k b x).devWrites = s.devWrites := rfl
@[simp] theorem State.setEraseBlk_ready (s : State) (k b : Nat) (x : EraseBlk) : (s.setEraseBlk k b x).ready = s.ready := rfl
@[simp] theorem State.setEraseBlk_cxlPop (s : State) (k b : Nat) (x : EraseBlk) : (s.setEraseBlk k b x).cxlPop = s.cxlPop := rfl
@[simp] theorem State.setEraseBlk_portDown (s : State) (k b : Nat) (x : EraseBlk) : (s.setEraseBlk k b x).portDown = s.portDown := rfl
@[simp] theorem State.setEraseBlk_cxlDown (s : State) (k b : Nat) (x : EraseBlk) : (s.setEraseBlk k b x).cxlDown = s.cxlDown := rfl
@[simp] theorem State.setEraseBlk_mcsum (s : State) (k b : Nat) (x : EraseBlk) : (s.setEraseBlk k b x).mcsum = s.mcsum := rfl
@[simp] theorem State.setEraseBlk_mccnt (s : State) (k b : Nat) (x : EraseBlk) : (s.setEraseBlk k b x).mccnt = s.mccnt := rfl
@[simp] theorem State.setEraseBlk_drops (s : State) (k b : Nat) (x : EraseBlk) : (s.setEraseBlk k b x).drops = s.drops := rfl
@[simp] theorem State.setEraseBlk_foreign (s : State) (k b : Nat) (x : EraseBlk) : (s.setEraseBlk k b x).foreign = s.foreign := rfl
@[simp] theorem State.setEraseBlk_links (s : State) (k b : Nat) (x : EraseBlk) : (s.setEraseBlk k b x).links = s.links := rfl
@[simp] theorem State.setEraseBlk_mbout (s : State) (k b : Nat) (x : EraseBlk) : (s.setEraseBlk k b x).mbout = s.mbout := rfl
@[simp] theorem State.setEraseBlk_mbuf (s : State) (k b : Nat) (x : EraseBlk) : (s.setEraseBlk k b x).mbuf = s.mbuf := rfl
@[simp] theorem State.setEraseBlk_thermals (s : State) (k b : Nat) (x : EraseBlk) : (s.setEraseBlk k b x).thermals = s.thermals := rfl
@[simp] theorem State.setEraseBlk_thermalRing (s : State) (k b : Nat) (x : EraseBlk) : (s.setEraseBlk k b x).thermalRing = s.thermalRing := rfl
@[simp] theorem State.setEraseBlk_sent (s : State) (k b : Nat) (x : EraseBlk) : (s.setEraseBlk k b x).sent = s.sent := rfl
@[simp] theorem State.setEraseBlk_residency (s : State) (k b : Nat) (x : EraseBlk) : (s.setEraseBlk k b x).residency = s.residency := rfl
@[simp] theorem State.setEraseBlk_shared (s : State) (k b : Nat) (x : EraseBlk) : (s.setEraseBlk k b x).shared = s.shared := rfl
@[simp] theorem State.setEraseBlk_samples (s : State) (k b : Nat) (x : EraseBlk) : (s.setEraseBlk k b x).samples = s.samples := rfl
@[simp] theorem State.setEraseBlk_exports (s : State) (k b : Nat) (x : EraseBlk) : (s.setEraseBlk k b x).exports = s.exports := rfl

/-! setWseg -/

@[simp] theorem State.setWseg_cur (s : State) (n : Nat) (w : WSeg) : (s.setWseg n w).cur = s.cur := rfl
@[simp] theorem State.setWseg_agenda (s : State) (n : Nat) (w : WSeg) : (s.setWseg n w).agenda = s.agenda := rfl
@[simp] theorem State.setWseg_turn (s : State) (n : Nat) (w : WSeg) : (s.setWseg n w).turn = s.turn := rfl
@[simp] theorem State.setWseg_fresh (s : State) (n : Nat) (w : WSeg) : (s.setWseg n w).fresh = s.fresh := rfl
@[simp] theorem State.setWseg_nextId (s : State) (n : Nat) (w : WSeg) : (s.setWseg n w).nextId = s.nextId := rfl
@[simp] theorem State.setWseg_dclk (s : State) (n : Nat) (w : WSeg) : (s.setWseg n w).dclk = s.dclk := rfl
@[simp] theorem State.setWseg_ltb (s : State) (n : Nat) (w : WSeg) : (s.setWseg n w).ltb = s.ltb := rfl
@[simp] theorem State.setWseg_booted (s : State) (n : Nat) (w : WSeg) : (s.setWseg n w).booted = s.booted := rfl
@[simp] theorem State.setWseg_fwImage (s : State) (n : Nat) (w : WSeg) : (s.setWseg n w).fwImage = s.fwImage := rfl
@[simp] theorem State.setWseg_fwHash (s : State) (n : Nat) (w : WSeg) : (s.setWseg n w).fwHash = s.fwHash := rfl
@[simp] theorem State.setWseg_mem (s : State) (n : Nat) (w : WSeg) : (s.setWseg n w).mem = s.mem := rfl
@[simp] theorem State.setWseg_attn (s : State) (n : Nat) (w : WSeg) : (s.setWseg n w).attn = s.attn := rfl
@[simp] theorem State.setWseg_badBlks (s : State) (n : Nat) (w : WSeg) : (s.setWseg n w).badBlks = s.badBlks := rfl
@[simp] theorem State.setWseg_attnBad (s : State) (n : Nat) (w : WSeg) : (s.setWseg n w).attnBad = s.attnBad := rfl
@[simp] theorem State.setWseg_weak (s : State) (n : Nat) (w : WSeg) : (s.setWseg n w).weak = s.weak := rfl
@[simp] theorem State.setWseg_corrected (s : State) (n : Nat) (w : WSeg) : (s.setWseg n w).corrected = s.corrected := rfl
@[simp] theorem State.setWseg_llc (s : State) (n : Nat) (w : WSeg) : (s.setWseg n w).llc = s.llc := rfl
@[simp] theorem State.setWseg_llcBad (s : State) (n : Nat) (w : WSeg) : (s.setWseg n w).llcBad = s.llcBad := rfl
@[simp] theorem State.setWseg_stageBad (s : State) (n : Nat) (w : WSeg) : (s.setWseg n w).stageBad = s.stageBad := rfl
@[simp] theorem State.setWseg_staging (s : State) (n : Nat) (w : WSeg) : (s.setWseg n w).staging = s.staging := rfl
@[simp] theorem State.setWseg_ahead (s : State) (n : Nat) (w : WSeg) : (s.setWseg n w).ahead = s.ahead := rfl
@[simp] theorem State.setWseg_quotas (s : State) (n : Nat) (w : WSeg) : (s.setWseg n w).quotas = s.quotas := rfl
@[simp] theorem State.setWseg_walks (s : State) (n : Nat) (w : WSeg) : (s.setWseg n w).walks = s.walks := rfl
@[simp] theorem State.setWseg_turns (s : State) (n : Nat) (w : WSeg) : (s.setWseg n w).turns = s.turns := rfl
@[simp] theorem State.setWseg_devTensors (s : State) (n : Nat) (w : WSeg) : (s.setWseg n w).devTensors = s.devTensors := rfl
@[simp] theorem State.setWseg_cores (s : State) (n : Nat) (w : WSeg) : (s.setWseg n w).cores = s.cores := rfl
@[simp] theorem State.setWseg_tiers (s : State) (n : Nat) (w : WSeg) : (s.setWseg n w).tiers = s.tiers := rfl
@[simp] theorem State.setWseg_mull (s : State) (n : Nat) (w : WSeg) : (s.setWseg n w).mull = s.mull := rfl
@[simp] theorem State.setWseg_mullUsed (s : State) (n : Nat) (w : WSeg) : (s.setWseg n w).mullUsed = s.mullUsed := rfl
@[simp] theorem State.setWseg_colmap (s : State) (n : Nat) (w : WSeg) : (s.setWseg n w).colmap = s.colmap := rfl
@[simp] theorem State.setWseg_lostCols (s : State) (n : Nat) (w : WSeg) : (s.setWseg n w).lostCols = s.lostCols := rfl
@[simp] theorem State.setWseg_retiring (s : State) (n : Nat) (w : WSeg) : (s.setWseg n w).retiring = s.retiring := rfl
@[simp] theorem State.setWseg_badCols (s : State) (n : Nat) (w : WSeg) : (s.setWseg n w).badCols = s.badCols := rfl
@[simp] theorem State.setWseg_sparesUsed (s : State) (n : Nat) (w : WSeg) : (s.setWseg n w).sparesUsed = s.sparesUsed := rfl
@[simp] theorem State.setWseg_hbmMap (s : State) (n : Nat) (w : WSeg) : (s.setWseg n w).hbmMap = s.hbmMap := rfl
@[simp] theorem State.setWseg_mxs (s : State) (n : Nat) (w : WSeg) : (s.setWseg n w).mxs = s.mxs := rfl
@[simp] theorem State.setWseg_parts (s : State) (n : Nat) (w : WSeg) : (s.setWseg n w).parts = s.parts := rfl
@[simp] theorem State.setWseg_keys (s : State) (n : Nat) (w : WSeg) : (s.setWseg n w).keys = s.keys := rfl
@[simp] theorem State.setWseg_segs (s : State) (n : Nat) (w : WSeg) : (s.setWseg n w).segs = s.segs := rfl
@[simp] theorem State.setWseg_flows (s : State) (n : Nat) (w : WSeg) : (s.setWseg n w).flows = s.flows := rfl
@[simp] theorem State.setWseg_vkeys (s : State) (n : Nat) (w : WSeg) : (s.setWseg n w).vkeys = s.vkeys := rfl
@[simp] theorem State.setWseg_arenas (s : State) (n : Nat) (w : WSeg) : (s.setWseg n w).arenas = s.arenas := rfl
@[simp] theorem State.setWseg_index (s : State) (n : Nat) (w : WSeg) : (s.setWseg n w).index = s.index := rfl
@[simp] theorem State.setWseg_reqs (s : State) (n : Nat) (w : WSeg) : (s.setWseg n w).reqs = s.reqs := rfl
@[simp] theorem State.setWseg_copies (s : State) (n : Nat) (w : WSeg) : (s.setWseg n w).copies = s.copies := rfl
@[simp] theorem State.setWseg_peers (s : State) (n : Nat) (w : WSeg) : (s.setWseg n w).peers = s.peers := rfl
@[simp] theorem State.setWseg_emits (s : State) (n : Nat) (w : WSeg) : (s.setWseg n w).emits = s.emits := rfl
@[simp] theorem State.setWseg_kvs (s : State) (n : Nat) (w : WSeg) : (s.setWseg n w).kvs = s.kvs := rfl
@[simp] theorem State.setWseg_installs (s : State) (n : Nat) (w : WSeg) : (s.setWseg n w).installs = s.installs := rfl
@[simp] theorem State.setWseg_scrubs (s : State) (n : Nat) (w : WSeg) : (s.setWseg n w).scrubs = s.scrubs := rfl
@[simp] theorem State.setWseg_hkOps (s : State) (n : Nat) (w : WSeg) : (s.setWseg n w).hkOps = s.hkOps := rfl
@[simp] theorem State.setWseg_hk (s : State) (n : Nat) (w : WSeg) : (s.setWseg n w).hk = s.hk := rfl
@[simp] theorem State.setWseg_events (s : State) (n : Nat) (w : WSeg) : (s.setWseg n w).events = s.events := rfl
@[simp] theorem State.setWseg_eventCount (s : State) (n : Nat) (w : WSeg) : (s.setWseg n w).eventCount = s.eventCount := rfl
@[simp] theorem State.setWseg_records (s : State) (n : Nat) (w : WSeg) : (s.setWseg n w).records = s.records := rfl
@[simp] theorem State.setWseg_aperture (s : State) (n : Nat) (w : WSeg) : (s.setWseg n w).aperture = s.aperture := rfl
@[simp] theorem State.setWseg_wsegs (s : State) (n : Nat) (w : WSeg) : (s.setWseg n w).wsegs = s.wsegs.put n w := rfl
@[simp] theorem State.setWseg_devw (s : State) (n : Nat) (w : WSeg) : (s.setWseg n w).devw = s.devw := rfl
@[simp] theorem State.setWseg_peerDus (s : State) (n : Nat) (w : WSeg) : (s.setWseg n w).peerDus = s.peerDus := rfl
@[simp] theorem State.setWseg_erase (s : State) (n : Nat) (w : WSeg) : (s.setWseg n w).erase = s.erase := rfl
@[simp] theorem State.setWseg_fmap (s : State) (n : Nat) (w : WSeg) : (s.setWseg n w).fmap = s.fmap := rfl
@[simp] theorem State.setWseg_flashSpare (s : State) (n : Nat) (w : WSeg) : (s.setWseg n w).flashSpare = s.flashSpare := rfl
@[simp] theorem State.setWseg_progFail (s : State) (n : Nat) (w : WSeg) : (s.setWseg n w).progFail = s.progFail := rfl
@[simp] theorem State.setWseg_verifyFail (s : State) (n : Nat) (w : WSeg) : (s.setWseg n w).verifyFail = s.verifyFail := rfl
@[simp] theorem State.setWseg_lostRecords (s : State) (n : Nat) (w : WSeg) : (s.setWseg n w).lostRecords = s.lostRecords := rfl
@[simp] theorem State.setWseg_shutPend (s : State) (n : Nat) (w : WSeg) : (s.setWseg n w).shutPend = s.shutPend := rfl
@[simp] theorem State.setWseg_shut (s : State) (n : Nat) (w : WSeg) : (s.setWseg n w).shut = s.shut := rfl
@[simp] theorem State.setWseg_exchange (s : State) (n : Nat) (w : WSeg) : (s.setWseg n w).exchange = s.exchange := rfl
@[simp] theorem State.setWseg_devWrites (s : State) (n : Nat) (w : WSeg) : (s.setWseg n w).devWrites = s.devWrites := rfl
@[simp] theorem State.setWseg_ready (s : State) (n : Nat) (w : WSeg) : (s.setWseg n w).ready = s.ready := rfl
@[simp] theorem State.setWseg_cxlPop (s : State) (n : Nat) (w : WSeg) : (s.setWseg n w).cxlPop = s.cxlPop := rfl
@[simp] theorem State.setWseg_portDown (s : State) (n : Nat) (w : WSeg) : (s.setWseg n w).portDown = s.portDown := rfl
@[simp] theorem State.setWseg_cxlDown (s : State) (n : Nat) (w : WSeg) : (s.setWseg n w).cxlDown = s.cxlDown := rfl
@[simp] theorem State.setWseg_mcsum (s : State) (n : Nat) (w : WSeg) : (s.setWseg n w).mcsum = s.mcsum := rfl
@[simp] theorem State.setWseg_mccnt (s : State) (n : Nat) (w : WSeg) : (s.setWseg n w).mccnt = s.mccnt := rfl
@[simp] theorem State.setWseg_drops (s : State) (n : Nat) (w : WSeg) : (s.setWseg n w).drops = s.drops := rfl
@[simp] theorem State.setWseg_foreign (s : State) (n : Nat) (w : WSeg) : (s.setWseg n w).foreign = s.foreign := rfl
@[simp] theorem State.setWseg_links (s : State) (n : Nat) (w : WSeg) : (s.setWseg n w).links = s.links := rfl
@[simp] theorem State.setWseg_mbout (s : State) (n : Nat) (w : WSeg) : (s.setWseg n w).mbout = s.mbout := rfl
@[simp] theorem State.setWseg_mbuf (s : State) (n : Nat) (w : WSeg) : (s.setWseg n w).mbuf = s.mbuf := rfl
@[simp] theorem State.setWseg_thermals (s : State) (n : Nat) (w : WSeg) : (s.setWseg n w).thermals = s.thermals := rfl
@[simp] theorem State.setWseg_thermalRing (s : State) (n : Nat) (w : WSeg) : (s.setWseg n w).thermalRing = s.thermalRing := rfl
@[simp] theorem State.setWseg_sent (s : State) (n : Nat) (w : WSeg) : (s.setWseg n w).sent = s.sent := rfl
@[simp] theorem State.setWseg_residency (s : State) (n : Nat) (w : WSeg) : (s.setWseg n w).residency = s.residency := rfl
@[simp] theorem State.setWseg_shared (s : State) (n : Nat) (w : WSeg) : (s.setWseg n w).shared = s.shared := rfl
@[simp] theorem State.setWseg_samples (s : State) (n : Nat) (w : WSeg) : (s.setWseg n w).samples = s.samples := rfl
@[simp] theorem State.setWseg_exports (s : State) (n : Nat) (w : WSeg) : (s.setWseg n w).exports = s.exports := rfl

/-! countShared -/

@[simp] theorem State.countShared_cur (s : State) (m : Option Nat) (k n : Nat) : (s.countShared m k n).cur = s.cur := rfl
@[simp] theorem State.countShared_agenda (s : State) (m : Option Nat) (k n : Nat) : (s.countShared m k n).agenda = s.agenda := rfl
@[simp] theorem State.countShared_turn (s : State) (m : Option Nat) (k n : Nat) : (s.countShared m k n).turn = s.turn := rfl
@[simp] theorem State.countShared_fresh (s : State) (m : Option Nat) (k n : Nat) : (s.countShared m k n).fresh = s.fresh := rfl
@[simp] theorem State.countShared_nextId (s : State) (m : Option Nat) (k n : Nat) : (s.countShared m k n).nextId = s.nextId := rfl
@[simp] theorem State.countShared_dclk (s : State) (m : Option Nat) (k n : Nat) : (s.countShared m k n).dclk = s.dclk := rfl
@[simp] theorem State.countShared_ltb (s : State) (m : Option Nat) (k n : Nat) : (s.countShared m k n).ltb = s.ltb := rfl
@[simp] theorem State.countShared_booted (s : State) (m : Option Nat) (k n : Nat) : (s.countShared m k n).booted = s.booted := rfl
@[simp] theorem State.countShared_fwImage (s : State) (m : Option Nat) (k n : Nat) : (s.countShared m k n).fwImage = s.fwImage := rfl
@[simp] theorem State.countShared_fwHash (s : State) (m : Option Nat) (k n : Nat) : (s.countShared m k n).fwHash = s.fwHash := rfl
@[simp] theorem State.countShared_mem (s : State) (m : Option Nat) (k n : Nat) : (s.countShared m k n).mem = s.mem := rfl
@[simp] theorem State.countShared_attn (s : State) (m : Option Nat) (k n : Nat) : (s.countShared m k n).attn = s.attn := rfl
@[simp] theorem State.countShared_badBlks (s : State) (m : Option Nat) (k n : Nat) : (s.countShared m k n).badBlks = s.badBlks := rfl
@[simp] theorem State.countShared_attnBad (s : State) (m : Option Nat) (k n : Nat) : (s.countShared m k n).attnBad = s.attnBad := rfl
@[simp] theorem State.countShared_weak (s : State) (m : Option Nat) (k n : Nat) : (s.countShared m k n).weak = s.weak := rfl
@[simp] theorem State.countShared_corrected (s : State) (m : Option Nat) (k n : Nat) : (s.countShared m k n).corrected = s.corrected := rfl
@[simp] theorem State.countShared_llc (s : State) (m : Option Nat) (k n : Nat) : (s.countShared m k n).llc = s.llc := rfl
@[simp] theorem State.countShared_llcBad (s : State) (m : Option Nat) (k n : Nat) : (s.countShared m k n).llcBad = s.llcBad := rfl
@[simp] theorem State.countShared_stageBad (s : State) (m : Option Nat) (k n : Nat) : (s.countShared m k n).stageBad = s.stageBad := rfl
@[simp] theorem State.countShared_staging (s : State) (m : Option Nat) (k n : Nat) : (s.countShared m k n).staging = s.staging := rfl
@[simp] theorem State.countShared_ahead (s : State) (m : Option Nat) (k n : Nat) : (s.countShared m k n).ahead = s.ahead := rfl
@[simp] theorem State.countShared_quotas (s : State) (m : Option Nat) (k n : Nat) : (s.countShared m k n).quotas = s.quotas := rfl
@[simp] theorem State.countShared_walks (s : State) (m : Option Nat) (k n : Nat) : (s.countShared m k n).walks = s.walks := rfl
@[simp] theorem State.countShared_turns (s : State) (m : Option Nat) (k n : Nat) : (s.countShared m k n).turns = s.turns := rfl
@[simp] theorem State.countShared_devTensors (s : State) (m : Option Nat) (k n : Nat) : (s.countShared m k n).devTensors = s.devTensors := rfl
@[simp] theorem State.countShared_cores (s : State) (m : Option Nat) (k n : Nat) : (s.countShared m k n).cores = s.cores := rfl
@[simp] theorem State.countShared_tiers (s : State) (m : Option Nat) (k n : Nat) : (s.countShared m k n).tiers = s.tiers := rfl
@[simp] theorem State.countShared_mull (s : State) (m : Option Nat) (k n : Nat) : (s.countShared m k n).mull = s.mull := rfl
@[simp] theorem State.countShared_mullUsed (s : State) (m : Option Nat) (k n : Nat) : (s.countShared m k n).mullUsed = s.mullUsed := rfl
@[simp] theorem State.countShared_colmap (s : State) (m : Option Nat) (k n : Nat) : (s.countShared m k n).colmap = s.colmap := rfl
@[simp] theorem State.countShared_lostCols (s : State) (m : Option Nat) (k n : Nat) : (s.countShared m k n).lostCols = s.lostCols := rfl
@[simp] theorem State.countShared_retiring (s : State) (m : Option Nat) (k n : Nat) : (s.countShared m k n).retiring = s.retiring := rfl
@[simp] theorem State.countShared_badCols (s : State) (m : Option Nat) (k n : Nat) : (s.countShared m k n).badCols = s.badCols := rfl
@[simp] theorem State.countShared_sparesUsed (s : State) (m : Option Nat) (k n : Nat) : (s.countShared m k n).sparesUsed = s.sparesUsed := rfl
@[simp] theorem State.countShared_hbmMap (s : State) (m : Option Nat) (k n : Nat) : (s.countShared m k n).hbmMap = s.hbmMap := rfl
@[simp] theorem State.countShared_mxs (s : State) (m : Option Nat) (k n : Nat) : (s.countShared m k n).mxs = s.mxs := rfl
@[simp] theorem State.countShared_parts (s : State) (m : Option Nat) (k n : Nat) : (s.countShared m k n).parts = s.parts := rfl
@[simp] theorem State.countShared_keys (s : State) (m : Option Nat) (k n : Nat) : (s.countShared m k n).keys = s.keys := rfl
@[simp] theorem State.countShared_segs (s : State) (m : Option Nat) (k n : Nat) : (s.countShared m k n).segs = s.segs := rfl
@[simp] theorem State.countShared_flows (s : State) (m : Option Nat) (k n : Nat) : (s.countShared m k n).flows = s.flows := rfl
@[simp] theorem State.countShared_vkeys (s : State) (m : Option Nat) (k n : Nat) : (s.countShared m k n).vkeys = s.vkeys := rfl
@[simp] theorem State.countShared_arenas (s : State) (m : Option Nat) (k n : Nat) : (s.countShared m k n).arenas = s.arenas := rfl
@[simp] theorem State.countShared_index (s : State) (m : Option Nat) (k n : Nat) : (s.countShared m k n).index = s.index := rfl
@[simp] theorem State.countShared_reqs (s : State) (m : Option Nat) (k n : Nat) : (s.countShared m k n).reqs = s.reqs := rfl
@[simp] theorem State.countShared_copies (s : State) (m : Option Nat) (k n : Nat) : (s.countShared m k n).copies = s.copies := rfl
@[simp] theorem State.countShared_peers (s : State) (m : Option Nat) (k n : Nat) : (s.countShared m k n).peers = s.peers := rfl
@[simp] theorem State.countShared_emits (s : State) (m : Option Nat) (k n : Nat) : (s.countShared m k n).emits = s.emits := rfl
@[simp] theorem State.countShared_kvs (s : State) (m : Option Nat) (k n : Nat) : (s.countShared m k n).kvs = s.kvs := rfl
@[simp] theorem State.countShared_installs (s : State) (m : Option Nat) (k n : Nat) : (s.countShared m k n).installs = s.installs := rfl
@[simp] theorem State.countShared_scrubs (s : State) (m : Option Nat) (k n : Nat) : (s.countShared m k n).scrubs = s.scrubs := rfl
@[simp] theorem State.countShared_hkOps (s : State) (m : Option Nat) (k n : Nat) : (s.countShared m k n).hkOps = s.hkOps := rfl
@[simp] theorem State.countShared_hk (s : State) (m : Option Nat) (k n : Nat) : (s.countShared m k n).hk = s.hk := rfl
@[simp] theorem State.countShared_events (s : State) (m : Option Nat) (k n : Nat) : (s.countShared m k n).events = s.events := rfl
@[simp] theorem State.countShared_eventCount (s : State) (m : Option Nat) (k n : Nat) : (s.countShared m k n).eventCount = s.eventCount := rfl
@[simp] theorem State.countShared_records (s : State) (m : Option Nat) (k n : Nat) : (s.countShared m k n).records = s.records := rfl
@[simp] theorem State.countShared_aperture (s : State) (m : Option Nat) (k n : Nat) : (s.countShared m k n).aperture = s.aperture := rfl
@[simp] theorem State.countShared_wsegs (s : State) (m : Option Nat) (k n : Nat) : (s.countShared m k n).wsegs = s.wsegs := rfl
@[simp] theorem State.countShared_devw (s : State) (m : Option Nat) (k n : Nat) : (s.countShared m k n).devw = s.devw := rfl
@[simp] theorem State.countShared_peerDus (s : State) (m : Option Nat) (k n : Nat) : (s.countShared m k n).peerDus = s.peerDus := rfl
@[simp] theorem State.countShared_erase (s : State) (m : Option Nat) (k n : Nat) : (s.countShared m k n).erase = s.erase := rfl
@[simp] theorem State.countShared_fmap (s : State) (m : Option Nat) (k n : Nat) : (s.countShared m k n).fmap = s.fmap := rfl
@[simp] theorem State.countShared_flashSpare (s : State) (m : Option Nat) (k n : Nat) : (s.countShared m k n).flashSpare = s.flashSpare := rfl
@[simp] theorem State.countShared_progFail (s : State) (m : Option Nat) (k n : Nat) : (s.countShared m k n).progFail = s.progFail := rfl
@[simp] theorem State.countShared_verifyFail (s : State) (m : Option Nat) (k n : Nat) : (s.countShared m k n).verifyFail = s.verifyFail := rfl
@[simp] theorem State.countShared_lostRecords (s : State) (m : Option Nat) (k n : Nat) : (s.countShared m k n).lostRecords = s.lostRecords := rfl
@[simp] theorem State.countShared_shutPend (s : State) (m : Option Nat) (k n : Nat) : (s.countShared m k n).shutPend = s.shutPend := rfl
@[simp] theorem State.countShared_shut (s : State) (m : Option Nat) (k n : Nat) : (s.countShared m k n).shut = s.shut := rfl
@[simp] theorem State.countShared_exchange (s : State) (m : Option Nat) (k n : Nat) : (s.countShared m k n).exchange = s.exchange := rfl
@[simp] theorem State.countShared_devWrites (s : State) (m : Option Nat) (k n : Nat) : (s.countShared m k n).devWrites = s.devWrites := rfl
@[simp] theorem State.countShared_ready (s : State) (m : Option Nat) (k n : Nat) : (s.countShared m k n).ready = s.ready := rfl
@[simp] theorem State.countShared_cxlPop (s : State) (m : Option Nat) (k n : Nat) : (s.countShared m k n).cxlPop = s.cxlPop := rfl
@[simp] theorem State.countShared_portDown (s : State) (m : Option Nat) (k n : Nat) : (s.countShared m k n).portDown = s.portDown := rfl
@[simp] theorem State.countShared_cxlDown (s : State) (m : Option Nat) (k n : Nat) : (s.countShared m k n).cxlDown = s.cxlDown := rfl
@[simp] theorem State.countShared_mcsum (s : State) (m : Option Nat) (k n : Nat) : (s.countShared m k n).mcsum = s.mcsum := rfl
@[simp] theorem State.countShared_mccnt (s : State) (m : Option Nat) (k n : Nat) : (s.countShared m k n).mccnt = s.mccnt := rfl
@[simp] theorem State.countShared_drops (s : State) (m : Option Nat) (k n : Nat) : (s.countShared m k n).drops = s.drops := rfl
@[simp] theorem State.countShared_foreign (s : State) (m : Option Nat) (k n : Nat) : (s.countShared m k n).foreign = s.foreign := rfl
@[simp] theorem State.countShared_links (s : State) (m : Option Nat) (k n : Nat) : (s.countShared m k n).links = s.links := rfl
@[simp] theorem State.countShared_mbout (s : State) (m : Option Nat) (k n : Nat) : (s.countShared m k n).mbout = s.mbout := rfl
@[simp] theorem State.countShared_mbuf (s : State) (m : Option Nat) (k n : Nat) : (s.countShared m k n).mbuf = s.mbuf := rfl
@[simp] theorem State.countShared_thermals (s : State) (m : Option Nat) (k n : Nat) : (s.countShared m k n).thermals = s.thermals := rfl
@[simp] theorem State.countShared_thermalRing (s : State) (m : Option Nat) (k n : Nat) : (s.countShared m k n).thermalRing = s.thermalRing := rfl
@[simp] theorem State.countShared_sent (s : State) (m : Option Nat) (k n : Nat) : (s.countShared m k n).sent = s.sent := rfl
@[simp] theorem State.countShared_residency (s : State) (m : Option Nat) (k n : Nat) : (s.countShared m k n).residency = s.residency := rfl
@[simp] theorem State.countShared_shared (s : State) (m : Option Nat) (k n : Nat) : (s.countShared m k n).shared = match m with
      | some x => s.shared.put (sharedKey x k) (AMap.get 0 s.shared (sharedKey x k) + n)
      | none => s.shared := rfl
@[simp] theorem State.countShared_samples (s : State) (m : Option Nat) (k n : Nat) : (s.countShared m k n).samples = s.samples := rfl
@[simp] theorem State.countShared_exports (s : State) (m : Option Nat) (k n : Nat) : (s.countShared m k n).exports = s.exports := rfl

/-! hkGoto -/

@[simp] theorem State.hkGoto_cur (s : State) (va : Word) : (s.hkGoto va).cur = s.cur := rfl
@[simp] theorem State.hkGoto_agenda (s : State) (va : Word) : (s.hkGoto va).agenda = s.agenda := rfl
@[simp] theorem State.hkGoto_turn (s : State) (va : Word) : (s.hkGoto va).turn = s.turn := rfl
@[simp] theorem State.hkGoto_fresh (s : State) (va : Word) : (s.hkGoto va).fresh = s.fresh := rfl
@[simp] theorem State.hkGoto_nextId (s : State) (va : Word) : (s.hkGoto va).nextId = s.nextId := rfl
@[simp] theorem State.hkGoto_dclk (s : State) (va : Word) : (s.hkGoto va).dclk = s.dclk := rfl
@[simp] theorem State.hkGoto_ltb (s : State) (va : Word) : (s.hkGoto va).ltb = s.ltb := rfl
@[simp] theorem State.hkGoto_booted (s : State) (va : Word) : (s.hkGoto va).booted = s.booted := rfl
@[simp] theorem State.hkGoto_fwImage (s : State) (va : Word) : (s.hkGoto va).fwImage = s.fwImage := rfl
@[simp] theorem State.hkGoto_fwHash (s : State) (va : Word) : (s.hkGoto va).fwHash = s.fwHash := rfl
@[simp] theorem State.hkGoto_mem (s : State) (va : Word) : (s.hkGoto va).mem = s.mem := rfl
@[simp] theorem State.hkGoto_attn (s : State) (va : Word) : (s.hkGoto va).attn = s.attn := rfl
@[simp] theorem State.hkGoto_badBlks (s : State) (va : Word) : (s.hkGoto va).badBlks = s.badBlks := rfl
@[simp] theorem State.hkGoto_attnBad (s : State) (va : Word) : (s.hkGoto va).attnBad = s.attnBad := rfl
@[simp] theorem State.hkGoto_weak (s : State) (va : Word) : (s.hkGoto va).weak = s.weak := rfl
@[simp] theorem State.hkGoto_corrected (s : State) (va : Word) : (s.hkGoto va).corrected = s.corrected := rfl
@[simp] theorem State.hkGoto_llc (s : State) (va : Word) : (s.hkGoto va).llc = s.llc := rfl
@[simp] theorem State.hkGoto_llcBad (s : State) (va : Word) : (s.hkGoto va).llcBad = s.llcBad := rfl
@[simp] theorem State.hkGoto_stageBad (s : State) (va : Word) : (s.hkGoto va).stageBad = s.stageBad := rfl
@[simp] theorem State.hkGoto_staging (s : State) (va : Word) : (s.hkGoto va).staging = s.staging := rfl
@[simp] theorem State.hkGoto_ahead (s : State) (va : Word) : (s.hkGoto va).ahead = s.ahead := rfl
@[simp] theorem State.hkGoto_quotas (s : State) (va : Word) : (s.hkGoto va).quotas = s.quotas := rfl
@[simp] theorem State.hkGoto_walks (s : State) (va : Word) : (s.hkGoto va).walks = s.walks := rfl
@[simp] theorem State.hkGoto_turns (s : State) (va : Word) : (s.hkGoto va).turns = s.turns := rfl
@[simp] theorem State.hkGoto_devTensors (s : State) (va : Word) : (s.hkGoto va).devTensors = s.devTensors := rfl
@[simp] theorem State.hkGoto_cores (s : State) (va : Word) : (s.hkGoto va).cores = s.cores := rfl
@[simp] theorem State.hkGoto_tiers (s : State) (va : Word) : (s.hkGoto va).tiers = s.tiers := rfl
@[simp] theorem State.hkGoto_mull (s : State) (va : Word) : (s.hkGoto va).mull = s.mull := rfl
@[simp] theorem State.hkGoto_mullUsed (s : State) (va : Word) : (s.hkGoto va).mullUsed = s.mullUsed := rfl
@[simp] theorem State.hkGoto_colmap (s : State) (va : Word) : (s.hkGoto va).colmap = s.colmap := rfl
@[simp] theorem State.hkGoto_lostCols (s : State) (va : Word) : (s.hkGoto va).lostCols = s.lostCols := rfl
@[simp] theorem State.hkGoto_retiring (s : State) (va : Word) : (s.hkGoto va).retiring = s.retiring := rfl
@[simp] theorem State.hkGoto_badCols (s : State) (va : Word) : (s.hkGoto va).badCols = s.badCols := rfl
@[simp] theorem State.hkGoto_sparesUsed (s : State) (va : Word) : (s.hkGoto va).sparesUsed = s.sparesUsed := rfl
@[simp] theorem State.hkGoto_hbmMap (s : State) (va : Word) : (s.hkGoto va).hbmMap = s.hbmMap := rfl
@[simp] theorem State.hkGoto_mxs (s : State) (va : Word) : (s.hkGoto va).mxs = s.mxs := rfl
@[simp] theorem State.hkGoto_parts (s : State) (va : Word) : (s.hkGoto va).parts = s.parts := rfl
@[simp] theorem State.hkGoto_keys (s : State) (va : Word) : (s.hkGoto va).keys = s.keys := rfl
@[simp] theorem State.hkGoto_segs (s : State) (va : Word) : (s.hkGoto va).segs = s.segs := rfl
@[simp] theorem State.hkGoto_flows (s : State) (va : Word) : (s.hkGoto va).flows = s.flows := rfl
@[simp] theorem State.hkGoto_vkeys (s : State) (va : Word) : (s.hkGoto va).vkeys = s.vkeys := rfl
@[simp] theorem State.hkGoto_arenas (s : State) (va : Word) : (s.hkGoto va).arenas = s.arenas := rfl
@[simp] theorem State.hkGoto_index (s : State) (va : Word) : (s.hkGoto va).index = s.index := rfl
@[simp] theorem State.hkGoto_reqs (s : State) (va : Word) : (s.hkGoto va).reqs = s.reqs := rfl
@[simp] theorem State.hkGoto_copies (s : State) (va : Word) : (s.hkGoto va).copies = s.copies := rfl
@[simp] theorem State.hkGoto_peers (s : State) (va : Word) : (s.hkGoto va).peers = s.peers := rfl
@[simp] theorem State.hkGoto_emits (s : State) (va : Word) : (s.hkGoto va).emits = s.emits := rfl
@[simp] theorem State.hkGoto_kvs (s : State) (va : Word) : (s.hkGoto va).kvs = s.kvs := rfl
@[simp] theorem State.hkGoto_installs (s : State) (va : Word) : (s.hkGoto va).installs = s.installs := rfl
@[simp] theorem State.hkGoto_scrubs (s : State) (va : Word) : (s.hkGoto va).scrubs = s.scrubs := rfl
@[simp] theorem State.hkGoto_hkOps (s : State) (va : Word) : (s.hkGoto va).hkOps = s.hkOps := rfl
@[simp] theorem State.hkGoto_hk (s : State) (va : Word) : (s.hkGoto va).hk = { s.hk with phase := .waiting, pc := va, left := 0 } := rfl
@[simp] theorem State.hkGoto_events (s : State) (va : Word) : (s.hkGoto va).events = s.events := rfl
@[simp] theorem State.hkGoto_eventCount (s : State) (va : Word) : (s.hkGoto va).eventCount = s.eventCount := rfl
@[simp] theorem State.hkGoto_records (s : State) (va : Word) : (s.hkGoto va).records = s.records := rfl
@[simp] theorem State.hkGoto_aperture (s : State) (va : Word) : (s.hkGoto va).aperture = s.aperture := rfl
@[simp] theorem State.hkGoto_wsegs (s : State) (va : Word) : (s.hkGoto va).wsegs = s.wsegs := rfl
@[simp] theorem State.hkGoto_devw (s : State) (va : Word) : (s.hkGoto va).devw = s.devw := rfl
@[simp] theorem State.hkGoto_peerDus (s : State) (va : Word) : (s.hkGoto va).peerDus = s.peerDus := rfl
@[simp] theorem State.hkGoto_erase (s : State) (va : Word) : (s.hkGoto va).erase = s.erase := rfl
@[simp] theorem State.hkGoto_fmap (s : State) (va : Word) : (s.hkGoto va).fmap = s.fmap := rfl
@[simp] theorem State.hkGoto_flashSpare (s : State) (va : Word) : (s.hkGoto va).flashSpare = s.flashSpare := rfl
@[simp] theorem State.hkGoto_progFail (s : State) (va : Word) : (s.hkGoto va).progFail = s.progFail := rfl
@[simp] theorem State.hkGoto_verifyFail (s : State) (va : Word) : (s.hkGoto va).verifyFail = s.verifyFail := rfl
@[simp] theorem State.hkGoto_lostRecords (s : State) (va : Word) : (s.hkGoto va).lostRecords = s.lostRecords := rfl
@[simp] theorem State.hkGoto_shutPend (s : State) (va : Word) : (s.hkGoto va).shutPend = s.shutPend := rfl
@[simp] theorem State.hkGoto_shut (s : State) (va : Word) : (s.hkGoto va).shut = s.shut := rfl
@[simp] theorem State.hkGoto_exchange (s : State) (va : Word) : (s.hkGoto va).exchange = s.exchange := rfl
@[simp] theorem State.hkGoto_devWrites (s : State) (va : Word) : (s.hkGoto va).devWrites = s.devWrites := rfl
@[simp] theorem State.hkGoto_ready (s : State) (va : Word) : (s.hkGoto va).ready = s.ready := rfl
@[simp] theorem State.hkGoto_cxlPop (s : State) (va : Word) : (s.hkGoto va).cxlPop = s.cxlPop := rfl
@[simp] theorem State.hkGoto_portDown (s : State) (va : Word) : (s.hkGoto va).portDown = s.portDown := rfl
@[simp] theorem State.hkGoto_cxlDown (s : State) (va : Word) : (s.hkGoto va).cxlDown = s.cxlDown := rfl
@[simp] theorem State.hkGoto_mcsum (s : State) (va : Word) : (s.hkGoto va).mcsum = s.mcsum := rfl
@[simp] theorem State.hkGoto_mccnt (s : State) (va : Word) : (s.hkGoto va).mccnt = s.mccnt := rfl
@[simp] theorem State.hkGoto_drops (s : State) (va : Word) : (s.hkGoto va).drops = s.drops := rfl
@[simp] theorem State.hkGoto_foreign (s : State) (va : Word) : (s.hkGoto va).foreign = s.foreign := rfl
@[simp] theorem State.hkGoto_links (s : State) (va : Word) : (s.hkGoto va).links = s.links := rfl
@[simp] theorem State.hkGoto_mbout (s : State) (va : Word) : (s.hkGoto va).mbout = s.mbout := rfl
@[simp] theorem State.hkGoto_mbuf (s : State) (va : Word) : (s.hkGoto va).mbuf = s.mbuf := rfl
@[simp] theorem State.hkGoto_thermals (s : State) (va : Word) : (s.hkGoto va).thermals = s.thermals := rfl
@[simp] theorem State.hkGoto_thermalRing (s : State) (va : Word) : (s.hkGoto va).thermalRing = s.thermalRing := rfl
@[simp] theorem State.hkGoto_sent (s : State) (va : Word) : (s.hkGoto va).sent = s.sent := rfl
@[simp] theorem State.hkGoto_residency (s : State) (va : Word) : (s.hkGoto va).residency = s.residency := rfl
@[simp] theorem State.hkGoto_shared (s : State) (va : Word) : (s.hkGoto va).shared = s.shared := rfl
@[simp] theorem State.hkGoto_samples (s : State) (va : Word) : (s.hkGoto va).samples = s.samples := rfl
@[simp] theorem State.hkGoto_exports (s : State) (va : Word) : (s.hkGoto va).exports = s.exports := rfl

end Sys2Proof.Machine
end

