-- ==== Sys2Proof/Laws/Ops.lean ====
section
/-! SUPPORT. One lemma for each thing the shared operations leave or set: registers of the running word, the end of a word, requests. -/

namespace Sys2Proof.Machine

open Sys2Proof

/-! Cores, streams, micro-contexts -/

@[simp] theorem State.core_setCore (s : State) (c : Nat) (x : Core) : (s.setCore c x).core c = x := by
  simp [State.core, State.setCore]

theorem State.core_setCore_ne (s : State) (x : Core) {c d : Nat} (h : d ≠ c) : (s.setCore c x).core d = s.core d := by
  simp [State.core, State.setCore, AMap.get_put_ne _ _ _ h]

@[simp] theorem State.stream_setStream (s : State) (c k : Nat) (x : Stream) : (s.setStream c k x).stream c k = x := by
  simp [State.stream, State.setStream]

theorem State.stream_setStream_ne (s : State) (x : Stream) {c k d j : Nat} (h : d ≠ c ∨ j ≠ k) :
    (s.setStream c k x).stream d j = s.stream d j := by
  unfold State.setStream State.stream
  by_cases hd : d = c
  · subst hd
    rw [State.core_setCore, AMap.get_put_ne _ _ _ (h.resolve_left (fun e => e rfl))]
  · rw [State.core_setCore_ne _ _ hd]

theorem State.core_setStream (s : State) (c k : Nat) (x : Stream) :
    (s.setStream c k x).core c = { s.core c with streams := (s.core c).streams.put k x } := by simp [State.setStream]

theorem State.core_setStream_ne (s : State) (x : Stream) {c k d : Nat} (h : d ≠ c) : (s.setStream c k x).core d = s.core d := by
  simp [State.setStream, State.core_setCore_ne _ _ h]

@[simp] theorem State.strm_setStrm (s : State) (q : SeqId) (x : Stream) : (s.setStrm q x).strm q = x := State.stream_setStream ..

@[simp] theorem State.mx_setMx (s : State) (m : Nat) (x : Mx) : (s.setMx m x).mx m = x := by simp [State.mx, State.setMx]

theorem State.mx_setMx_ne (s : State) (x : Mx) {m n : Nat} (h : n ≠ m) : (s.setMx m x).mx n = s.mx n := by
  simp [State.mx, State.setMx, AMap.get_put_ne _ _ _ h]

@[simp] theorem State.part_setPart (s : State) (p : Nat) (x : Partition) : (s.setPart p x).part p = x := by
  simp [State.part, State.setPart]

@[simp] theorem State.key_setKey (s : State) (k : Nat) (x : KeySlot) : (s.setKey k x).key k = x := by simp [State.key, State.setKey]

@[simp] theorem Stream.seqr_setSeqr (x : Stream) (c : Section) (y : Seqr) : (x.setSeqr c y).seqr c = y := by cases c <;> rfl

theorem Stream.seqr_setSeqr_ne (x : Stream) (y : Seqr) {c d : Section} (h : d ≠ c) : (x.setSeqr c y).seqr d = x.seqr d := by
  cases c <;> cases d <;> first | rfl | exact absurd rfl h

@[simp] theorem Stream.setSeqr_seqr (x : Stream) (c : Section) : x.setSeqr c (x.seqr c) = x := by cases c <;> rfl

@[simp] theorem Stream.setSeqr_setSeqr (x : Stream) (c : Section) (y z : Seqr) : (x.setSeqr c y).setSeqr c z = x.setSeqr c z := by
  cases c <;> rfl

@[simp] theorem State.seqr_setSeqr (s : State) (q : SeqId) (y : Seqr) : (s.setSeqr q y).seqr q = y := by
  simp [State.seqr, State.setSeqr]

theorem AMap.put_put {β : Type} (m : AMap β) (k : Nat) (v w : β) : (m.put k v).put k w = m.put k w := by
  induction m with
  | nil => simp [AMap.put]
  | cons e r ih =>
    obtain ⟨k', v'⟩ := e
    simp only [AMap.put]
    split
    · simp [AMap.put]
    · split
      · simp [AMap.put]
      · rename_i h1 h2
        simp [AMap.put, h1, h2, ih]

@[simp] theorem State.setStrm_setStrm (s : State) (q : SeqId) (x y : Stream) : (s.setStrm q x).setStrm q y = s.setStrm q y := by
  simp [State.setStrm, State.setStream, State.setCore, State.core, AMap.put_put]

/-! Registers of the running word, and its end -/

theorem State.here_of_seq (s : State) (q) (h : s.cur = .seq q) : s.here = q := by simp [State.here, h]

theorem SameMemory.of_cores (s t : State) (h : t = { s with cores := t.cores }) (hc : ∀ c, (t.core c).sp = (s.core c).sp) : SameMemory s t := by
  refine ⟨fun key pa => ?_, fun c a => by rw [hc]⟩
  rw [h]; rfl

theorem OnlyStream.setStrm (s : State) (q : SeqId) (x : Stream) : OnlyStream s (s.setStrm q x) q.core q.slot := by
  refine ⟨rfl, fun c hc => State.core_setStream_ne _ _ hc, ?_, fun k hk => State.stream_setStream_ne _ _ (.inr hk)⟩
  simp [State.setStrm, State.core_setStream]

theorem State.sp_setStrm (s : State) (q : SeqId) (x : Stream) (c : Nat) : ((s.setStrm q x).core c).sp = (s.core c).sp := by
  by_cases h : c = q.core
  · subst h; simp [State.setStrm, State.core_setStream]
  · simp [State.setStrm, State.core_setStream_ne _ _ h]

theorem SameMemory.setStrm (s : State) (q : SeqId) (x : Stream) : SameMemory s (s.setStrm q x) :=
  SameMemory.of_cores _ _ rfl (State.sp_setStrm s q x)

theorem State.g_setG (s : State) (d v r) : (s.setG d v).g r = if r = 0 then 0 else if r = d then v else s.g r := by
  unfold State.setG State.g
  by_cases hd : d = 0
  · subst hd; simp only [↓reduceIte]; split
    · rfl
    · rfl
  · simp only [hd, ↓reduceIte]
    cases hc : s.cur with
    | hk =>
      simp only
      by_cases hr : r = 0
      · simp [hr]
      · simp only [hr, ↓reduceIte]
        by_cases h2 : r = d
        · subst h2; simp
        · have : r.toNat ≠ d.toNat := fun e => h2 (BitVec.eq_of_toNat_eq e)
          simp [h2, AMap.get_put_ne _ _ _ this]
    | seq q =>
      by_cases hr : r = 0
      · simp [hr]
      · have e1 : (s.setStrm q { s.strm q with g := (s.strm q).g.put d.toNat v }).cur = .seq q := hc
        simp only [hr, ↓reduceIte, e1]
        by_cases h2 : r = d
        · subst h2; simp
        · have : r.toNat ≠ d.toNat := fun e => h2 (BitVec.eq_of_toNat_eq e)
          simp [h2, AMap.get_put_ne _ _ _ this]

theorem Stream.setSeqr_g (x : Stream) (c y) : (x.setSeqr c y).g = x.g := by cases c <;> rfl
theorem Stream.setSeqr_p (x : Stream) (c y) : (x.setSeqr c y).p = x.p := by cases c <;> rfl
theorem Stream.setSeqr_flags (x : Stream) (c y) : (x.setSeqr c y).flags = x.flags := by cases c <;> rfl

theorem State.g_done (s : State) (r) : s.done.g r = s.g r := by
  unfold State.done State.g
  cases hc : s.cur with
  | hk => simp
  | seq q =>
    have e1 : ∀ y, (s.setSeqr q y).cur = .seq q := fun _ => hc
    simp only [e1]
    simp [State.setSeqr, Stream.setSeqr_g]

theorem State.p_done (s : State) (r) : s.done.p r = s.p r := by
  unfold State.done State.p
  cases hc : s.cur with
  | hk => simp
  | seq q =>
    have e1 : ∀ y, (s.setSeqr q y).cur = .seq q := fun _ => hc
    simp only [e1]
    simp [State.setSeqr, Stream.setSeqr_p]

theorem State.p_setG (s : State) (d v j) : (s.setG d v).p j = s.p j := by
  unfold State.setG State.p
  by_cases hd : d = 0
  · simp [hd]
  · simp only [hd, ↓reduceIte]
    cases hc : s.cur with
    | hk => simp
    | seq q =>
      have e1 : ∀ y, (s.setStrm q y).cur = .seq q := fun _ => hc
      simp only [e1, State.strm_setStrm]

/-- The end of a word that writes g[d]. -/
theorem ScalarFrame.setG_done (s : State) (d v) : ScalarFrame s (s.setG d v).done (some d) none := by
  refine ⟨fun r hr => ?_, fun j _ => by rw [State.p_done, State.p_setG], ?_⟩
  · rw [State.g_done, State.g_setG]
    have : r ≠ d := fun e => hr (by rw [e])
    by_cases h0 : r = 0
    · subst h0; simp [State.g]
    · rw [if_neg h0, if_neg this]
  · cases hc : s.cur with
    | hk =>
      unfold State.setG State.done
      by_cases hd : d = 0
      · simp only [hd, ↓reduceIte, hc]
        refine ⟨⟨fun key pa => rfl, fun c a => rfl⟩, ?_⟩
        simp [State.fallThrough, State.pc, hc, State.here, Section.wordBytes]
      · simp only [hd, ↓reduceIte, hc]
        refine ⟨⟨fun key pa => rfl, fun c a => rfl⟩, ?_⟩
        simp [State.fallThrough, State.pc, hc, State.here, Section.wordBytes]
    | seq q =>
      have hpc : s.fallThrough = (s.seqr q).pc + BitVec.ofNat 64 q.sec.wordBytes := by simp [State.fallThrough, State.pc, State.here, hc]
      have key : ∃ x, (s.setG d v).done = s.setStrm q (x.setSeqr q.sec { x.seqr q.sec with pc := (x.seqr q.sec).pc + BitVec.ofNat 64 q.sec.wordBytes, left := (x.seqr q.sec).left - 1 }) ∧ (∃ g, x = { s.strm q with g := g }) := by
        by_cases hd : d = 0
        · refine ⟨s.strm q, ?_, _, rfl⟩
          simp [State.setG, hd, State.done, hc, State.setSeqr, State.seqr]
        · refine ⟨{ s.strm q with g := (s.strm q).g.put d.toNat v }, ?_, _, rfl⟩
          have e1 : ∀ y, (s.setStrm q y).cur = .seq q := fun _ => hc
          simp only [State.setG, hd, ↓reduceIte, hc, State.done, e1, State.setSeqr, State.seqr, State.strm_setStrm, State.setStrm_setStrm]
      obtain ⟨x, e, g, hx⟩ := key
      have hsq : x.seqr q.sec = (s.strm q).seqr q.sec := by subst hx; cases q.sec <;> rfl
      rw [e]
      refine ⟨SameMemory.setStrm .., OnlyStream.setStrm .., ?_⟩
      simp only [State.strm_setStrm, hsq, hpc, State.seqr, Stream.setSeqr_g, Stream.setSeqr_p]
      subst hx
      cases q.sec <;> rfl

theorem State.flags_setG_done (s : State) (d v) : (s.setG d v).done.me.flags = s.me.flags ∧ (s.setG d v).done.events = s.events := by
  unfold State.setG State.done
  by_cases hd : d = 0
  · simp only [hd, ↓reduceIte]
    cases hc : s.cur with
    | hk => exact ⟨by simp [State.me, hc], rfl⟩
    | seq q =>
      refine ⟨?_, rfl⟩
      simp [State.me, hc, State.setSeqr, Stream.setSeqr_flags]
  · simp only [hd, ↓reduceIte]
    cases hc : s.cur with
    | hk => exact ⟨by simp [State.me, hc], by simp⟩
    | seq q =>
      have e1 : ∀ y, (s.setStrm q y).cur = .seq q := fun _ => hc
      simp only [e1]
      refine ⟨?_, rfl⟩
      simp [State.me, hc, State.setSeqr, Stream.setSeqr_flags]


end Sys2Proof.Machine
end

