-- ==== Sys2Proof/Laws/Serve.lean ====
section
/-! SUPPORT. What serving and meeting an access may change: the turns, the order of the staging cache with what is kept ahead, the reads counted for
erase blocks, and the correctable errors met. Each equation says that every other field stands. -/

namespace Sys2Proof.Machine

theorem State.served_frame (s : State) (k p : Nat) : s.served k p = { s with turns := (s.served k p).turns } := rfl

theorem State.servedAll_frame (p : Nat) (l : List Nat) : ∀ s : State, s.servedAll p l = { s with turns := (s.servedAll p l).turns } := by
  induction l with
  | nil => exact fun _ => rfl
  | cons k l ih =>
    intro s
    have e : s.servedAll p (k :: l) = (s.served k p).servedAll p l := rfl
    rw [e]
    exact ih (s.served k p)

theorem State.countPageReads_frame (s : State) (e k n : Nat) : s.countPageReads e k n = { s with erase := (s.countPageReads e k n).erase } := by
  simp only [State.countPageReads]
  split <;> rfl

theorem State.useStaged_frame (s : State) (pa : Nat) :
    s.useStaged pa = { s with staging := (s.useStaged pa).staging, ahead := (s.useStaged pa).ahead, erase := (s.useStaged pa).erase } := by
  simp only [State.useStaged]
  split
  · rfl
  · rw [State.countPageReads_frame]

theorem State.useStaged_all_frame (f : Nat → Nat) (l : List Nat) : ∀ s : State,
    l.foldl (fun (t : State) x => t.useStaged (f x)) s =
      { s with
        staging := (l.foldl (fun (t : State) x => t.useStaged (f x)) s).staging
        ahead := (l.foldl (fun (t : State) x => t.useStaged (f x)) s).ahead
        erase := (l.foldl (fun (t : State) x => t.useStaged (f x)) s).erase } := by
  induction l with
  | nil => exact fun _ => rfl
  | cons x l ih =>
    intro s
    rw [List.foldl_cons, ih (s.useStaged (f x)), State.useStaged_frame s (f x)]

theorem State.correctAt_frame (s : State) (c b : Nat) :
    s.correctAt c b = { s with weak := (s.correctAt c b).weak, corrected := (s.correctAt c b).corrected } := by
  simp only [State.correctAt]
  try split <;> rfl

/-- In embedded DRAM a corrected error counts for its row too; elsewhere it touches nothing else. -/
theorem State.correct_frame (s : State) {p : PatrolPlace} (b : Nat) (h : p = .mem ∨ p = .attn ∨ p = .cache) :
    s.correct p b = { s with weak := (s.correct p b).weak, corrected := (s.correct p b).corrected } := by
  rcases h with rfl | rfl | rfl <;> (simp only [State.correct]; split; rfl; exact State.correctAt_frame ..)

theorem State.correctBlks_frame (s : State) (l : List Nat) :
    s.correctBlks l = { s with weak := (s.correctBlks l).weak, corrected := (s.correctBlks l).corrected } := by
  unfold State.correctBlks
  split
  · rfl
  · clear * -
    induction l generalizing s with
    | nil => rfl
    | cons b l ih =>
      rw [List.foldl_cons]
      split
      · rw [ih (s.correct .cache b), State.correct_frame s b (.inr (.inr rfl))]
      · split
        · exact ih s
        · rw [ih (s.correct .mem b), State.correct_frame s b (.inl rfl)]

/-- Ranges that a word, a walk or a unit of the device reads: what R397, R398 and R416 have the read change, and nothing else. -/
theorem State.meets_frame (s : State) (l : List (Nat × Nat)) :
    s.meets l = { s with
      staging := (s.meets l).staging, ahead := (s.meets l).ahead, erase := (s.meets l).erase
      weak := (s.meets l).weak, corrected := (s.meets l).corrected } := by
  simp only [State.meets, State.readBelow]
  rw [State.correctBlks_frame, State.useStaged_all_frame (fun f => 4096 * f)]

@[simp] theorem State.meets_mem (s : State) (l : List (Nat × Nat)) : (s.meets l).mem = s.mem := by rw [State.meets_frame]
@[simp] theorem State.meets_cores (s : State) (l : List (Nat × Nat)) : (s.meets l).cores = s.cores := by rw [State.meets_frame]
@[simp] theorem State.meets_mxs (s : State) (l : List (Nat × Nat)) : (s.meets l).mxs = s.mxs := by rw [State.meets_frame]
@[simp] theorem State.servedAll_mem (s : State) (p : Nat) (l : List Nat) : (s.servedAll p l).mem = s.mem := by rw [State.servedAll_frame]
@[simp] theorem State.servedAll_cores (s : State) (p : Nat) (l : List Nat) : (s.servedAll p l).cores = s.cores := by rw [State.servedAll_frame]
@[simp] theorem State.servedAll_mxs (s : State) (p : Nat) (l : List Nat) : (s.servedAll p l).mxs = s.mxs := by rw [State.servedAll_frame]

theorem State.spansServed_frame (s : State) (r : Option StreamRef) (l : List (Nat × Nat)) :
    s.spansServed r l = { s with
      turns := (s.spansServed r l).turns, staging := (s.spansServed r l).staging, ahead := (s.spansServed r l).ahead
      erase := (s.spansServed r l).erase, weak := (s.spansServed r l).weak, corrected := (s.spansServed r l).corrected } := by
  simp only [State.spansServed]
  rw [State.meets_frame, State.servedAll_frame]

theorem State.devServed_frame (s : State) (m va n : Nat) :
    s.devServed m va n = { s with
      turns := (s.devServed m va n).turns, staging := (s.devServed m va n).staging, ahead := (s.devServed m va n).ahead
      erase := (s.devServed m va n).erase, weak := (s.devServed m va n).weak, corrected := (s.devServed m va n).corrected } := by
  simp only [State.devServed]
  rw [State.meets_frame, State.servedAll_frame]

theorem State.correctAttn_frame (l : List Nat) : ∀ s : State,
    l.foldl (fun (u : State) b => u.correct .attn b) s =
      { s with
        weak := (l.foldl (fun (u : State) b => u.correct .attn b) s).weak
        corrected := (l.foldl (fun (u : State) b => u.correct .attn b) s).corrected } := by
  induction l with
  | nil => exact fun _ => rfl
  | cons b l ih =>
    intro s
    rw [List.foldl_cons, ih (s.correct .attn b), State.correct_frame s b (.inr (.inl rfl))]

/-- The same of position records, in attention-side HBM or in the CXL tier. -/
theorem State.recMet_frame (s : State) (l : List (RecPlace × Nat)) :
    s.recMet l = { s with
      staging := (s.recMet l).staging, ahead := (s.recMet l).ahead, erase := (s.recMet l).erase
      weak := (s.recMet l).weak, corrected := (s.recMet l).corrected } := by
  unfold State.recMet
  split
  · rfl
  · clear * -
    induction l generalizing s with
    | nil => rfl
    | cons w l ih =>
      rw [List.foldl_cons]
      obtain ⟨a | pa, n⟩ := w
      · simp only []
        rw [ih, State.correctAttn_frame]
      · simp only []
        rw [ih, State.meets_frame]

end Sys2Proof.Machine
end

