-- ==== Sys2Proof/Tests/Slice0.lean ====
section
/-! SUPPORT. The model's own tests: words the spec prints decode to what they stand for, reserved encodings and ill-formed terms are refused, results
the spec prints come out, and for every statement with hypotheses a state and operands meet them. -/

set_option Elab.async false

open Sys2Proof Sys2Proof.Machine

namespace Sys2Proof.Tests

/-! Decoding: the encodings the spec prints beside its own listings -/

def noSync : Sync := { pbp := false, pbn := false, pap := false, pan := false }
def panSync : Sync := { noSync with pan := true }
/-- Class `c`, scope `s`. -/
def cs (c : BitVec 4) (s : BitVec 3) : Cs := { cls := c, scope := s }
/-- A form V word with every field zero. -/
def formV : FormV :=
  { y := noSync, vd := 0, va := 0, vb := 0, vc := 0, ty := 0, bi := false, mq := 0, me := false, mz := false, rnd := 0, sat := false,
    sub := 0, md := 0, dk := false, gs := 0, imm := 0 }
/-- A form M word with every field zero. -/
def formM : FormM :=
  { y := noSync, cs := cs 0 0, vd := 0, vb := 0, vc := 0, ty := 0, mq := 0, me := false, mz := false, a := ⟨0, false, 0⟩, lenM1 := 0,
    sc := false, md := 0, dk := false, be := false }
/-- A form T word with every field zero. -/
def formT : FormT := { y := noSync, cs := cs 0 0, h := 0, ag := 0, as' := 0, tag := 0, bar := none }
/-- A form K word with every field zero. -/
def formK : FormK := { y := noSync, cs := cs 0 0, ad := 0, tag := 0, rq := 0, ns := false }
/-- A form C word with every field zero. -/
def formC : FormC :=
  { y := noSync, vd := 0, va := 0, fs := 0, fd := 0, rnd := 0, dist := 0, mq := 0, me := false, mz := false, ps := 0, pd := 0, ss := 0,
    ds := 0, nb := 0, se := 0, de := 0 }

/-- Chapter 03, the listing of R60: SC words. -/
theorem test_decode_sc_listing :
    decodeWord .sc 0x0410FFFF = some (.addi 1 1 0x7FFF) ∧ decodeWord .sc 0x3C108001 = some (.cmp 1 1 0 1) ∧
      decodeWord .sc 0xF4000000 = some (.hint0 0) := by decide

/-- Chapter 09, the listing after R232. -/
theorem test_decode_sc_memory :
    decodeWord .sc 0x86400021 = some (.crd 4 0x021) ∧ decodeWord .sc 0x36100008 = some (.lui 1 8) ∧
      decodeWord .sc 0x18620203 = some (.shlImm 6 4 3) ∧ decodeWord .sc 0x02709800 = some (.add 7 1 6) ∧
      decodeWord .sc 0x6253801E = some (.sst 5 7 0 (cs 0 3) 3 false) ∧
      decodeWord .sc 0x6C010C1C = some (.pbArrive 0 2 3 (cs 0 3) true 0) ∧
      decodeWord .sc 0x60D0A41E = some (.sld 13 1 9 (cs 0 3) 3 false) ∧ decodeWord .sc 0x69400003 = some (.fence 5 3) := by decide

/-- Chapter 19, after R363. -/
theorem test_decode_system : decodeWord .sc 0x8A32140A = some (.tlbi 3 4 5 true false 2) := by decide

/-- Chapters 03, 16 and 23: words of the LD section. -/
theorem test_decode_ld :
    decodeWord .ld 0x0180000000000000 = some (.nop false { noSync with pbp := true }) ∧
      decodeWord .ld 0x1200224610400000 = some (.gather { formT with cs := cs 0 1, h := 1, ag := 2, as' := 3, tag := 2 } 4) ∧
      decodeWord .ld 0x1800020000000000 = some (.pktTake noSync 1) ∧
      decodeWord .ld 0x19002C0308000000 = some (.kvRes { formK with cs := cs 0 1, ad := 6, tag := 6, rq := 1 } none) := by decide

/-- Chapters 15, 16 and 23: words of the ST section. -/
theorem test_decode_st :
    decodeWord .st 0x3200204404000000 = some (.kvSplice { formK with cs := cs 0 1, tag := 8, ns := true } 2) ∧
      decodeWord .st 0x3000220488000000 = some (.kvQry { formK with cs := cs 0 1, ad := 1, tag := 9, rq := 1 }) ∧
      decodeWord .st 0x2800224615000000 = some (.pktEmit noSync (cs 0 1) 1 2 3 2 true 4) := by decide

/-- Table 12.2 and the example of R106: matrix words. -/
theorem test_decode_matrix :
    decodeWord .cm 0x10003200800010027008000000000000 =
        some (.mma { y := noSync, cs := cs 0 1, acc := 2, caM1 := 4, cbM1 := 0, kgM1 := 1, asrc := false, astrM1 := 0,
                     a := ⟨0x400, true, 7⟩, boff := 0x100, bstrM1 := 0 }) ∧
      decodeWord .cm 0x12002A20000000000000000000000000 =
        some (.mhrot { y := noSync, cs := cs 0 1, acc := 1, caM1 := 4, ord64 := true, dg := 0, koff := 0, asrc := false, astrM1 := 0,
                       a := ⟨0, false, 0⟩ }) ∧
      decodeWord .cm 0x15000810500000000000000000000000 =
        some (.mbyp { y := noSync, acc := 1, fmt := 2, rnd := 0, dist := 5, clr := false }) ∧
      decodeWord .cm 0x16004001000000080040000000000000 =
        some (.mpeer { y := noSync, cs := cs 0 2, acc := 0, tier := 0, d := ⟨0x2000, false, 0⟩, bar := some 0x1000 }) ∧
      decodeWord .cm 0x17002400020000000000000000000000 =
        some (.maccld { y := noSync, cs := cs 0 1, acc := 0, add := true, kind := 0, sstrM1 := 0, s := ⟨0x2000, false, 0⟩ }) ∧
      decodeWord .cm 0x1410200C100028000000000000000000 =
        some (.mdrain { y := panSync, cs := cs 0 1, acc := 0, fmt := 1, rnd := 4, dist := 1, lay := 0, clr := false, dstrM1 := 0,
                        d := ⟨0x14000, false, 0⟩ }) := by decide

/-- Chapters 13, 14 and 23: vector words. -/
theorem test_decode_vector :
    decodeWord .cm 0x2D000B6090C000000000000000000000 = some (.vfshl { formV with vd := 11, va := 12, vb := 2, vc := 8, ty := 6 }) ∧
      decodeWord .cm 0x35000719804000000000000000000000 = some (.vperm { formV with vd := 7, va := 3, vb := 6, ty := 2 }) ∧
      decodeWord .cm 0x4A002D0000002000D3FE000000000000 =
        some (.vldu { formM with cs := cs 0 1, vd := 13, a := ⟨0x4001, true, 9⟩, lenM1 := 255 }) ∧
      decodeWord .cm 0x4B002603C000200001FE080000000000 =
        some (.vstu { formM with cs := cs 0 1, vd := 6, vc := 15, a := ⟨0x4000, false, 0⟩, lenM1 := 255, be := true }) ∧
      decodeWord .cm 0x4E002040000040000000300000000000 =
        some (.vbtest { formM with cs := cs 0 1, vb := 8, a := ⟨0x8000, false, 0⟩, md := 1, dk := true }) ∧
      decodeWord .cm 0x4C002D502B6000000001000000000000 =
        some (.vgath { formM with cs := cs 0 1, vd := 13, vb := 10, ty := 10, mq := 6, me := true, mz := true, sc := true }) ∧
      decodeWord .cm 0x3F000710141800040000000000000000 = some (.vcvtRaw { formC with vd := 7, va := 2, fs := 10, fd := 12, ps := 1 }) := by
  decide

/-- Block headers of the listings: chapter 03 (the LD header of three instances), chapter 13 (REP = LC1), chapter 16 (ST waits). -/
theorem test_decode_headers :
    ((rawHeader .ld 0x0004400000008000).map fun r => (r.len, r.popp, r.repk, r.repv)) = some (1, 1, 0, 2) ∧
      ((rawHeader .cm 0x00380000004040000000000000000000).map fun r => (r.len, r.repk, r.repv)) = some (14, 1, 1) ∧
      ((rawHeader .st 0x0038044220000000).map fun r => (r.len, r.popn, r.pushp, r.wtm)) = some (14, 1, 1, 1) ∧
      ((rawHeader .sc 0x00500021).map fun r => (r.len, r.wbar, r.tend)) = some (10, 4, true) := by decide

/-! Reserved encodings are refused, and each well-formedness check refuses an instruction that breaks it -/

/-- Opcode 0, an SC opcode without an entry, and set reserved bits. -/
theorem test_decode_reserved :
    decodeWord .sc 0 = none ∧ decodeWord .ld 0 = none ∧ decodeWord .cm 0 = none ∧ decodeWord .sc 0x02709801 = none ∧
      decodeWord .st 0x3200204404000001 = none := by decide

/-- Fields an entry does not use must be zero. -/
theorem test_wellFormed_unused :
    (Instr.vadd { formV with ty := 6, vc := 1 }).wellFormed = false ∧ (Instr.vnot { formV with ty := 6, vb := 1 }).wellFormed = false ∧
      (Instr.vandMask { formV with dk := true, vd := 1 }).wellFormed = false ∧
      (Instr.vcvtRaw { formC with fs := 10, fd := 12, dist := 1 }).wellFormed = false ∧
      (Instr.vld { formM with lenM1 := 63, vb := 1 }).wellFormed = false ∧
      (Instr.kvRes { formK with ns := true } none).wellFormed = false ∧ (Instr.loopa noSync 0 1 false 0 0).wellFormed = false ∧
      (Instr.adda noSync 0 0 1 false 0 0).wellFormed = false ∧ (Instr.cfill { formT with bar := some 0 }).wellFormed = false ∧
      (Instr.pbArrive 0 0 0 (cs 0 0) false 1).wellFormed = false ∧
      (Instr.mma { y := noSync, cs := cs 0 1, acc := 0, caM1 := 0, cbM1 := 0, kgM1 := 0, asrc := true, astrM1 := 0, a := ⟨0, false, 0⟩,
                   boff := 0, bstrM1 := 0 }).wellFormed = false := by decide

/-- The static limits of an entry, scalar and LD/ST words. -/
theorem test_wellFormed_limits_scalar :
    (Instr.mulh 1 2 3 3).wellFormed = false ∧ (Instr.addx 1 2 3 7).wellFormed = false ∧ (Instr.cmp 1 2 3 6).wellFormed = false ∧
      (Instr.amo 1 2 false 11 (cs 0 0) 0).wellFormed = false ∧ (Instr.amo 1 2 true 8 (cs 0 0) 0).wellFormed = false ∧
      (Instr.amo 1 2 true 10 (cs 0 0) 0).wellFormed = false ∧ (Instr.red 1 2 true 9 (cs 0 0) 0).wellFormed = false ∧
      (Instr.red 1 2 true 0 (cs 0 0) 1).wellFormed = false ∧ (Instr.crd 1 1).wellFormed = false ∧ (Instr.cwr 1 0x38).wellFormed = false ∧
      (Instr.tlbi 1 2 3 false false 0).wellFormed = false ∧ (Instr.perfrd 1 2 9).wellFormed = false ∧
      (Instr.movaSp noSync (cs 0 0) 1 4).wellFormed = false ∧ (Instr.movaSp noSync (cs 0 3) 1 8).wellFormed = false ∧
      (Instr.redm formT 9).wellFormed = false ∧ (Instr.kvAppend { formK with ns := true, rq := 1 }).wellFormed = false ∧
      (Instr.kvRes { formK with cs := cs 0 3 } none).wellFormed = false := by decide

/-- The static limits of an entry, CM words. -/
theorem test_wellFormed_limits_cm :
    (Instr.swing noSync 1).wellFormed = false ∧ (Instr.swing noSync 8388672).wellFormed = false ∧
      (Instr.mpeer { y := noSync, cs := cs 0 1, acc := 0, tier := 0, d := ⟨0, false, 0⟩, bar := none }).wellFormed = false ∧
      (Instr.mpeer { y := noSync, cs := cs 0 2, acc := 0, tier := 0, d := ⟨0, false, 0⟩, bar := some 8 }).wellFormed = false ∧
      (Instr.mbyp { y := noSync, acc := 0, fmt := 0x12, rnd := 0, dist := 0, clr := false }).wellFormed = false ∧
      (Instr.mbyp { y := noSync, acc := 0, fmt := 2, rnd := 5, dist := 5, clr := false }).wellFormed = false ∧
      (Instr.maccld { y := noSync, cs := cs 0 1, acc := 0, add := false, kind := 3, sstrM1 := 0, s := ⟨0, false, 0⟩ }).wellFormed = false ∧
      (Instr.vadd { formV with ty := 8 }).wellFormed = false ∧ (Instr.vmulHi { formV with ty := 6, sub := 1, sat := true }).wellFormed = false ∧
      (Instr.vadd { formV with ty := 0, bi := true, imm := 200 }).wellFormed = false ∧
      (Instr.vand { formV with ty := 12 }).wellFormed = false ∧ (Instr.vcmp { formV with ty := 5, dk := true }).wellFormed = false ∧
      (Instr.vbcast { formV with ty := 6, imm := 64 }).wellFormed = false ∧ (Instr.vcompress { formV with ty := 6 }).wellFormed = false ∧
      (Instr.vgred { formV with ty := 6, gs := 7 }).wellFormed = false ∧ (Instr.vexp2 { formV with ty := 6 }).wellFormed = false ∧
      (Instr.vpack { formV with ty := 4 }).wellFormed = false ∧
      (Instr.vcvtToDesc { formC with fs := 12, fd := 2 }).wellFormed = false ∧
      (Instr.vld { formM with cs := cs 0 3, lenM1 := 63 }).wellFormed = false ∧ (Instr.vld { formM with lenM1 := 62 }).wellFormed = false ∧
      (Instr.vgath { formM with ty := 13 }).wellFormed = false := by decide


/-! States for one step: a stream at work on core 0, or the housekeeping processor, with pages 1 to 3 mapped to themselves -/

/-- Page `a` of a micro-context 0, mapped to itself, readable and writable. -/
def page (a : Nat) : TlbEntry :=
  { part := 0, mx := 0, va := a, size := 4096, ipa := a, pa := a, rd := true, w := true, x := false, desc := false, enc := false,
    page1 := (a, 4096), page2 := (a, 4096) }

def seqAt : Seqr := { Seqr.reset with phase := .running, pc := 0x1004, hdrPc := 0x1000, reached := true, left := 2, reps := 1 }

/-- A stream of micro-context 0 with a window of one bank; its four sequencers run. -/
def stream0 : Stream := { Stream.reset with mx := some 0, banks := [⟨0, 0, 0⟩], sc := seqAt, ld := seqAt, cm := seqAt, st := seqAt }

def core0 : Core := { Core.reset with streams := [(0, stream0)], tlb := [page 0x2000, page 0x3000] }

/-- Micro-context 0, BOUND with one stream. -/
def bound0 : Mx := { Mx.reset with st := .bound, team := some { lr := placedLaunch, stack := 0, col := 0, outer := [], layers := [] } }

def seqOf (c : Section) : SeqId := { core := 0, slot := 0, sec := c }

/-- A shutter table whose 64 slots one partition owns. -/
def ownedBy (p : Nat) : List (BitVec 32) := List.replicate 64 (BitVec.ofNat 32 (2 ^ 31 + p))
/-- The network of stack A, a UALink port and an Ethernet port are partition 0's; the network of stack B, a UALink port and the host link the
system partition's. -/
def slotted : AMap (List (BitVec 32)) :=
  [(0, ownedBy 0), (1, ownedBy 15), (2, ownedBy 15), (3, ownedBy 0), (22, ownedBy 0), (24, ownedBy 15)]

/-- The word of section `c` of the stream on core 0 runs; every HBM stack is ready. -/
def onStream (c : Section) : State :=
  { State.reset with
    cur := .seq (seqOf c), booted := true, dclk := 100000, cores := [(0, core0)], mxs := [(0, bound0)],
    ready := (List.range 10).map .hbm, shut := slotted }

/-- A word of the housekeeping processor runs. -/
def onHk : State :=
  { State.reset with
    booted := true, dclk := 100000, ready := (List.range 10).map .hbm, shut := slotted,
    hk := { Hk.reset with phase := .running, pc := 0x1004, hdrPc := 0x1000, left := 2 } }

/-- g[r] of the running stream, or of the housekeeping processor, set. -/
def withG (s : State) (l : List (BitVec 5 × Word)) : State := l.foldl (fun t e => t.setG e.1 e.2) s
/-- a[r] of the running sequencer set. -/
def withA (s : State) (l : List (BitVec 4 × Word)) : State := l.foldl (fun t e => t.setA e.1 e.2) s
/-- The casement of core 0. -/
def withCw (s : State) (f : Casement → Casement) : State := s.setCore 0 { s.core 0 with cw := f (s.core 0).cw }
/-- The lease of core 0. -/
def withLease (s : State) (f : Lease → Lease) : State := s.setCore 0 { s.core 0 with lease := f (s.core 0).lease }
/-- The running stream. -/
def withMe (s : State) (f : Stream → Stream) : State := s.setMe (f s.me)
/-- A command of code `c` with its arguments runs in the aperture. -/
def commanded (s : State) (c : Nat) (l : List Nat) : State :=
  { s with aperture := { Aperture.reset with
      busy := true, words := (c :: l).zipIdx.map fun e => (e.2, BitVec.ofNat 64 e.1) } }

/-! Witnesses: for every statement with hypotheses, a state and operands that meet them together -/

theorem witness_EncodeDecodeRoundTrip :
    (Instr.addi 1 0 3).wellFormed = true ∧ encode (.addi 1 0 3) = some (32, 0x04100003) ∧
      (Instr.swing noSync 0x8000).wellFormed = true ∧ (encode (.swing noSync 0x8000)).isSome = true := by decide

/-- `State.issues` for some place of code, as a check. -/
def issuesHere (s : State) (i : Instr) : Bool :=
  match s.myCode s.pc.toNat with
  | .ok c =>
    s.midBlock && s.codeHome s.isHk s.myMx c.pa && !s.badBlk (c.pa / 64) &&
      decide (decodeWord s.here.sec (leNat (s.readPa c.enc c.pa s.here.sec.wordBytes)) = some i) && s.hasWord i &&
      (s.poisoned i).isNone && !s.mustWait i
  | .error _ => false

theorem issues_of_check {s : State} {i : Instr} (h : issuesHere s i = true) : ∃ c, s.issues c i := by
  unfold issuesHere at h
  split at h
  · next c hc =>
    simp only [Bool.and_eq_true, decide_eq_true_eq, Bool.not_eq_true', Option.isNone_iff_eq_none] at h
    exact ⟨c, h.1.1.1.1.1.1, hc, h.1.1.1.1.1.2, h.1.1.1.1.2, h.1.1.1.2, h.1.1.2, h.1.2, h.2⟩
  · cases h

/-- A state in which the next word, placed in memory, decodes and issues now. -/
def placed : State := State.reset.withFetchWord 32 0x04100003

theorem witness_StepRunsDecodedWord :
    (∃ c, (placed.tick 1).issues c (.addi 1 0 3)) ∧ placed.agenda = [] ∧ placed.booted = true ∧
      ∃ c, ({ ({ placed with agenda := [] } : State).tick 3 with cur := .seq (seqOf .sc) } : State).issues c (.addi 1 0 3) :=
  ⟨issues_of_check (by decide +kernel), by decide, by decide, issues_of_check (by decide +kernel)⟩

/-- Two turns of one cycle, the second of a sequencer that comes first. -/
theorem witness_StepRunsDecodedWord_order :
    State.reset.goesFirst (.agent (.seq (seqOf .st))) (.agent (.seq (seqOf .sc))) = true ∧
      State.reset.goesFirst (.agent (.seq (seqOf .sc))) (.agent (.seq (seqOf .st))) = false := by decide

theorem witness_ScalarResultsExact :
    (onStream .sc).exactResult (.addi 1 0 3) = some (1, 3) ∧ onHk.exactResult (.div 0 1 2 false) = some (0, 2 ^ 64 - 1) := by decide

theorem witness_PredicatesAndHints :
    ∃ c, (withG (onStream .sc) [(1, 5)]).exactPredicate (.cmp 1 1 0 3) = some (1, c) ∧ c := ⟨_, rfl, by decide⟩

theorem witness_TransfersOfAStream :
    (onStream .sc).cur = .seq (seqOf .sc) ∧ ((onStream .sc).strm (seqOf .sc)).lcReg 0 = 0 ∧
      (((onStream .sc).setLc 1 1).strm (seqOf .sc)).lcReg 1 = 1 ∧ (((onStream .ld).setLc 2 7).strm (seqOf .ld)).lcReg 2 = 7 := by decide

theorem ok_of_check {ε α : Type} {x : Except ε α} (h : x.isOk = true) : ∃ y, x = .ok y := by
  cases x with
  | ok y => exact ⟨y, rfl⟩
  | error e => cases h

theorem error_of_check {ε α : Type} {x : Except ε α} (h : x.isOk = false) : ∃ e, x = .error e := by
  cases x with
  | ok y => cases h
  | error e => exact ⟨e, rfl⟩

/-- Code of micro-context 0 at 0x2000, with one header, mapped executable. -/
def coded (hk : Bool) (s : State) : State :=
  { s with segs := [(0, { placedSegment .sc hk with frames := [2], base := 0x2000, headers := [0] })],
           mem := [(0x2002, 8)] }

theorem witness_TransfersOfAStream_ret :
    (withG (coded false ((onStream .sc).setCore 0 { core0 with tlb := [{ page 0x2000 with x := true }] })) [(1, 0x2000)]).isHeader
      false 0 0 .sc 0x2000 = true := by decide +kernel

theorem witness_TransfersOfHousekeeping :
    (withG (coded true onHk) [(1, 0x2000)]).isHeader true 0 0 .sc ((withG (coded true onHk) [(1, 0x2000)]).g 1).toNat = true ∧
      ({ coded true onHk with hk := { onHk.hk with epc := 0x2000 } } : State).isHeader true 0 0 .sc 0x2000 = true ∧
      onHk.isHeader true 0 0 .sc 0x3000 = false ∧ onHk.cur = .hk := by decide +kernel

/-- SYNC with a block that holds one token of each queue reserved. -/
def synced : State :=
  withMe (onStream .sc) fun x =>
    { x with sc := { x.sc with popP := 1, popN := 1, pushP := 1, pushN := 1 },
             tq := [(0, ⟨0, 0, 1⟩), (3, ⟨1, 1, 0⟩), (4, ⟨1, 1, 0⟩), (7, ⟨0, 0, 1⟩)] }

theorem witness_SyncMovesTokens :
    synced.cur = .seq (seqOf .sc) ∧ synced.effectsDone (seqOf .sc) synced.nextId = true ∧ (synced.strm (seqOf .sc)).pushes = [] ∧
      1 ≤ (synced.seqr (seqOf .sc)).popP ∧ 1 ≤ (synced.seqr (seqOf .sc)).popN ∧ 1 ≤ (synced.seqr (seqOf .sc)).pushP ∧
      1 ≤ (synced.seqr (seqOf .sc)).pushN ∧ (seqOf .sc).sec = .sc ∧
      (∃ late : Nat → Bool, ∀ k, late k = (!synced.effectsDone (seqOf .sc) synced.nextId || (synced.strm (seqOf .sc)).pushes.any fun p => p.queue == k)) := by
  refine ⟨by decide, by decide, by decide, by decide, by decide, by decide, by decide, rfl, ⟨_, fun _ => rfl⟩⟩

theorem witness_FaultsAreRecorded :
    (onStream .sc).cur = .seq (seqOf .sc) ∧ (onStream .sc).events.length < 1024 ∧ onHk.cur = .hk ∧ onHk.events.length < 1023 ∧
      terminalCode 0x0E = true ∧ terminalCode 1 = false := by decide

theorem witness_TrapsTakeTheException :
    (onStream .sc).me.armed = 0 ∧ (withMe (onStream .sc) fun x => { x with flags := 1, flagEn := 1 }).me.armed ≠ 0 ∧
      (onStream .sc).events.length < 1024 := by decide

/-- The last block of the window's bank is uncorrectable. -/
def spoiled (s : State) : State := s.setCore 0 { s.core 0 with spBad := [1023] }

/-- The last aligned word of the window, the first byte beyond it, and an offset that is misaligned; a bank without and with an uncorrectable block. -/
theorem witness_ScratchpadAccesses :
    spAlias (withG (onStream .sc) [(1, 0x01FFFFFFFFC0FFF8)] |>.g 1).toNat = some 0xFFF8 ∧ ((onStream .sc).strm (seqOf .sc)).window = 65536 ∧
      0xFFF8 + 2 ^ 3 ≤ 65536 ∧ (0x01FFFFFFFFC0FFF8 : Nat) % 2 ^ 3 = 0 ∧ spAlias 0x01FFFFFFFFC0FFFF = some 0xFFFF ∧
      65536 < 0xFFFF + 2 ^ 1 ∧ spAlias 0x01FFFFFFFFC00001 = some 1 ∧ (0x01FFFFFFFFC00001 : Nat) % 2 ^ 1 ≠ 0 ∧
      (onStream .sc).spBadIn 0 0 0xFFF8 8 = none ∧ (spoiled (onStream .sc)).spBadIn 0 0 0xFFF8 8 = some 0xFFC0 := by decide +kernel

theorem witness_ScalarAccessesPosted :
    (∃ x, (onStream .sc).scalarPlace 0x2FF8 8 .read true = .ok (.at' x)) ∧ (∃ x, (onStream .sc).scalarPlace 0x2FF8 8 .write true = .ok (.at' x)) ∧
      (∃ x, onHk.scalarPlace 0x2FFC 4 .write false = .ok (.at' x)) ∧
      (∃ p, (onStream .sc).scalarPlace 0x2FF0 16 .write false = .ok p) ∧
      ∃ p, (onStream .sc).scalarPlace 0x01FFFFFFFFC0FFF0 16 .read false = .ok p :=
  ⟨⟨_, rfl⟩, ⟨_, rfl⟩, ⟨_, rfl⟩, ⟨_, rfl⟩, ⟨_, rfl⟩⟩

theorem witness_AtomicsInTheScratchpad :
    spAlias (withG (onStream .sc) [(2, 0x01FFFFFFFFC0FFF8)] |>.g 2).toNat = some 0xFFF8 ∧
      0xFFF8 + 8 ≤ ((withG (onStream .sc) [(2, 0x01FFFFFFFFC0FFF8)]).strm (seqOf .sc)).window ∧ (0x01FFFFFFFFC0FFF8 : Nat) % 8 = 0 ∧
      (10 : BitVec 4) ≠ 8 ∧ (10 : BitVec 4).toNat ≤ 10 ∧ (8 : BitVec 4).toNat ≤ 10 ∧ 0xFFFC + 4 ≤ 65536 ∧ (withG (onStream .sc) [(2, 0x01FFFFFFFFC0FFF8)]).spBadIn 0 0 0xFFF8 8 = none := by
  decide +kernel

theorem witness_TagQueryResults :
    (∀ t < 64, ((withMe (onStream .sc) fun x => { x with tagrdy := 6 }).me.tagrdy &&& 12).getLsbD t = true →
        (withMe (onStream .sc) fun x => { x with tagrdy := 6 }).me.tagerr.find t = none) ∧
      (withG (onStream .sc) [(1, 12)]).g 1 = 12 := by decide


/-! Page tables: the first GiB mapped to itself at both stages, for what the device reads and writes by itself -/

def tables : Memory :=
  [(0x10000, 0x01), (0x10001, 0x10), (0x10002, 0x01), (0x11000, 0x0F), (0x11001, 0x09), (0x12000, 0x01), (0x12001, 0x30), (0x12002, 0x01),
   (0x13000, 0x01), (0x13001, 0x40), (0x13002, 0x01), (0x14000, 0x0F), (0x14001, 0x09)]

def active0 : Partition := { Partition.reset with active := true, s2root := 0x10000 }

/-- Micro-context 0 with the tables, a ring of one entry at 0x8000 and its save area at 0x20000. -/
def mapped (s : State) : State :=
  ({ s with mem := tables, parts := [(0, active0)] }).setMx 0
    { s.mx 0 with s1root := 0x12000, rbase := 0x8000, evaddr := 0x9000, savea := 0x20000 }

/-- Bytes placed in memory. -/
def placedAt (s : State) (pa : Nat) (l : List Byte) : State := { s with mem := s.mem.writeN pa l }
/-- Bytes placed in the scratchpad of core 0. -/
def inSp (s : State) (o : Nat) (l : List Byte) : State := s.setCore 0 { s.core 0 with sp := (s.core 0).sp.writeN o l }
/-- The tables, the pages in the TLB, and a private key slot 0 of tenant 0. -/
def keyed (s : State) : State := { s with keys := [(0, { KeySlot.reset with st := 1 })] }

theorem witness_ControlRegisterReads :
    (∃ k, k < 4 ∧ (0x01B : BitVec 15).toNat = 0x018 + k) ∧ (∃ k, k < 8 ∧ (0x027 : BitVec 15).toNat = 0x020 + k) ∧
      ((0x060 : BitVec 15).toNat, (50000 : Word)) ∈ [(0x060, BitVec.ofNat 64 ((onStream .sc).core 0).wth.toNat)] ∧
      0x107 ≤ (0x107 : BitVec 15).toNat ∧ (0x109 : BitVec 15).toNat ≤ 0x109 ∧ (onStream .sc).isHk = false ∧ onHk.isHk = true := by decide

theorem witness_ControlRegisterWrites :
    (onStream .sc).cur = .seq (seqOf .sc) ∧ (0x00F : BitVec 15).toNat ≤ 0x00F ∧ (0x013 : BitVec 15).toNat ≤ 0x013 ∧
      (0x034 : BitVec 15).toNat = 0x034 ∧ (0x031 : BitVec 15).toNat = 0x031 ∧ (0x032 : BitVec 15).toNat = 0x032 ∧
      (0x030 : BitVec 15).toNat = 0x030 := by decide

/-- A declaration in memory, and launch descriptors: local to micro-context 0, local to one that is FREE, remote. -/
theorem witness_TensorsAndLaunches :
    (onStream .sc).scalarRead 0x2000 32 32 = .ok (List.replicate 32 0) ∧
      (onStream .sc).scalarRead 0x2000 64 64 = .ok (List.replicate 64 0) ∧ launchBad (List.replicate 64 0) = false ∧
      launchBad (1 :: 64 :: List.replicate 62 0) = true ∧
      bit (fieldLe (List.replicate 64 0) 2 1) 0 = false ∧ ((onStream .sc).mx 0).st ≠ .free ∧ ((onStream .sc).mx 0).st ≠ .faulted ∧
      (onStream .sc).launchData 0 0 = .ok [] ∧
      launchBad (0 :: 0 :: 1 :: List.replicate 61 0) = false ∧ bit (fieldLe (0 :: 0 :: 1 :: List.replicate 61 0) 2 1) 0 = true ∧
      ((onStream .sc).mx (fieldLe (1 :: List.replicate 63 0) 0 2)).st = .free := by decide +kernel

/-- Whether an append would be made, or finds the ring full. -/
def Appended.isOk : Appended → Bool
  | .ok _ => true
  | _ => false
def Appended.isFull : Appended → Bool
  | .full => true
  | _ => false
theorem append_of_check {x : Appended} (h : Appended.isOk x = true) : ∃ t, x = .ok t := by
  cases x with
  | ok t => exact ⟨t, rfl⟩
  | full => cases h
  | fault => cases h
theorem full_of_check {x : Appended} (h : Appended.isFull x = true) : x = .full := by
  cases x with
  | ok t => cases h
  | full => rfl
  | fault => cases h

def Appended.isFault : Appended → Bool
  | .fault => true
  | _ => false
theorem fault_of_check {x : Appended} (h : Appended.isFault x = true) : x = .fault := by
  cases x with
  | ok t => cases h
  | full => cases h
  | fault => rfl

/-- A ring in no frame of memory, and request data that does not translate. -/
theorem witness_TensorsAndLaunches_faults :
    (onStream .sc).append 0 4 [] [0, 0, 0, 0] none = .fault ∧ ∃ f, (onStream .sc).launchData 0x40000000 64 = .error f :=
  ⟨fault_of_check (by decide +kernel), error_of_check (by decide +kernel)⟩

theorem witness_TensorsAndLaunches_ring :
    (∃ t, (mapped (onStream .sc)).append 0 4 [] [0, 0, 0, 0] none = .ok t) ∧
      (placedAt (mapped (onStream .sc)) 0x8000 [1]).append 0 4 [] [0, 0, 0, 0] none = .full :=
  ⟨append_of_check (by decide +kernel), full_of_check (by decide +kernel)⟩

theorem witness_TlbiRemovesTheCovered : onHk.cur = .hk ∧ ((mapped onHk).part 0).active = true := by decide

theorem witness_KeySlots :
    ((withG onHk [(2, 0x2000)]).g 2).toNat % 64 = 0 ∧ (withG onHk [(2, 0x2000)]).paFails 0x2000 64 = false ∧
      fieldLe ((withG onHk [(2, 0x2000)]).peek 0x2000 64) 12 4 = 0 ∧ ((withG onHk [(2, 0x2000)]).key 0).st = 0 ∧
      ((keyed onHk).key 0).st = 1 := by decide +kernel

theorem witness_ScrubsBegin : onHk.coreEnabled 0 = true ∧ onHk.coreEnabled 0x48 = false ∧ onHk.cur = .hk := by decide +kernel

/-- A hole, an occupied micro-context, and an image of zeros for micro-context 1 with its key slot. -/
theorem witness_MxbindOutcomes :
    onHk.paFails 0x10000000000 256 = true ∧ onHk.paFails 0x3000 256 = false ∧ ((onStream .sc).mx 0).st ≠ .free ∧
      imageFault (onHk.peek 0x3000 256) = none ∧ imageFault (0 :: 8 :: List.replicate 254 0) = some 1 ∧
      (∃ r, ((keyed (mapped onHk)).setMx 1 (Mx.reset.ofImage ((keyed (mapped onHk)).peek 0x3000 256))).bindChecks 1 = .ok r) ∧
      ∃ e, ((mapped onHk).setMx 1 (Mx.reset.ofImage ((mapped onHk).peek 0x3000 256))).bindChecks 1 = .error e :=
  ⟨by decide +kernel, by decide +kernel, by decide, by decide +kernel, by decide +kernel, ok_of_check (by decide +kernel),
    error_of_check (by decide +kernel)⟩

theorem witness_MxsaveModes :
    onHk.paUnwritable 0x10000000000 256 = true ∧ (onStream .sc).paUnwritable 0x3000 256 = false ∧ (onStream .sc).saveable 0 = true ∧
      onHk.saveable 0 = false ∧ ((onStream .sc).mx 0).st = .bound ∧ ((onHk.setMx 0 { Mx.reset with st := .swapped }).mx 0).st = .swapped ∧
      ((onHk.setMx 0 { Mx.reset with st := .faulted }).mx 0).st = .faulted ∧ ((onHk.setMx 0 { Mx.reset with st := .idle }).mx 0).st = .idle ∧
      onHk.saveMx 0 = 0 ∧ (0x3000 : Nat) % 64 = 0 ∧ (withMe (onStream .sc) fun x => { x with held := true }).anyHeld 0 = true ∧
      (withMe (onStream .sc) fun x => { x with held := true }).saveable 0 = true ∧ (onStream .sc).anyHeld 0 = false := by decide +kernel

/-! LD and ST words -/

/-- A shape of two rows of 64 bytes. -/
def shape0 : Shape := { loaded := true, gpitch := 64, spitch := 64, rowb := 64, rows := 2, fmt := 2 }
/-- The running sequencer with that shape in h0 and a0 on page 2. -/
def shaped (s : State) : State := withA (s.setH 0 shape0) [(0, 0x2000), (1, 0)]

theorem witness_AddressRegistersAndShapes :
    (65528 : BitVec 22).toNat + 8 ≤ ((onStream .ld).strm (seqOf .ld)).window ∧ (onStream .ld).spBadIn 0 0 65528 8 = none ∧
      ((spoiled (onStream .ld)).spBadIn 0 0 65528 8).isSome = true ∧
      ((onStream .ld).strm (seqOf .ld)).window < (65536 : BitVec 22).toNat + 8 ∧
      (placedLaunch.shapes.length ≤ (0 : BitVec 4).toNat) ∧ ((onStream .ld).mx (onStream .ld).myMx).team.isSome = true ∧
      [shape0][(0 : BitVec 4).toNat]? = some shape0 ∧
      (withA (onStream .ld) [(0, 0x2000)]).scalarRead ((withA (onStream .ld) [(0, 0x2000)]).a 0).toNat 32 32 = .ok (List.replicate 32 0) ∧
      shapeFault (List.replicate 32 0) = some (4, 8) ∧
      shapeFault ([64, 0, 0, 0, 64, 0, 0, 0, 64, 0, 0, 0, 2, 0, 2] ++ List.replicate 17 0) = none := by decide +kernel

/-- A tile that PREF fills, a shape register that is empty, and a tensor's tile. -/
theorem witness_AddressRegistersAndShapes_prefetch :
    (∃ c, (shaped (onStream .ld)).prefTile (cs 0 0) 0 0 = .ok c) ∧ (∃ f, (onStream .ld).prefTile (cs 0 0) 15 0 = .error f) ∧
      (∃ f, (shaped (onStream .ld)).prefTensorTile (cs 0 0) 0 0 = .error f) ∧
      ∃ c, (({ shaped (onStream .ld) with
          mxs := [(0, { bound0 with tensors := [{ tid := 0x2000, shape := 0, base := 0x2000, pitch := 64, rowb := 64, rows := 1 }] })] } :
            State)).prefTensorTile (cs 0 0) 0 0 = .ok c :=
  ⟨ok_of_check (by decide +kernel), error_of_check (by decide +kernel), error_of_check (by decide +kernel), ok_of_check (by decide +kernel)⟩

/-- Plans that pass, of a tile, of an indexed copy, of a reduction and of a tensor; and one of an empty shape register. -/
theorem witness_CopyWordsStart :
    (∃ c, (shaped (onStream .ld)).tilePlan .tload .read { formT with as' := 1 } = .ok c) ∧
      (∃ c, (shaped (onStream .st)).indexPlan .scatter .write { formT with as' := 1 } 1 = .ok c) ∧
      (∃ c, (shaped (onStream .st)).redmPlan { formT with as' := 1 } 0 = .ok c) ∧
      (∃ f, (onStream .ld).tilePlan .tload .read { formT with h := 15 } = .error f) ∧
      (∃ c, (({ shaped (onStream .ld) with
          mxs := [(0, { bound0 with tensors := [{ tid := 0x2000, shape := 0, base := 0x2000, pitch := 64, rowb := 64, rows := 1 }] })] } :
            State)).tensorPlan { formT with as' := 1 } = .ok c) :=
  ⟨ok_of_check (by decide +kernel), ok_of_check (by decide +kernel), ok_of_check (by decide +kernel), ⟨_, rfl⟩,
    ok_of_check (by decide +kernel)⟩

theorem witness_CasementFills :
    (∃ c, (shaped (onStream .ld)).cfillPlan { formT with as' := 1 } = .ok c) ∧
      ((shaped (onStream .ld)).core 0).cw.owner = none ∧
      ((withCw (shaped (onStream .ld)) fun c => { c with owner := some 0 }).core 0).cw.owner = some 0 ∧
      ((withCw (shaped (onStream .ld)) fun c => { c with owner := some 1 }).core 0).cw.owner = some 1 ∧
      ((shaped (onStream .ld)).h 0).loaded = true ∧ (shaped (onStream .ld)).mullSlots 0 0 1 0 = 0 :=
  ⟨ok_of_check (by decide +kernel), by decide, by decide, by decide, by decide, by decide⟩

/-- A fill from tier 1, whose core owns a valid front pane, with a mullion entry for it. -/
def peered : State :=
  { shaped (onStream .ld) with
    mull := [(0, { valid := true, tier := 1, mx := 0 })],
    cores := (shaped (onStream .ld)).cores ++
      [(128, { Core.reset with cw := { Casement.reset with owner := some 0, valF := true } })] }

theorem witness_CasementFills_peer :
    (1 : BitVec 2).toNat ≠ 0 / 128 % 4 ∧ peered.mullSlots (peered.peerCore 1).2.1 (peered.peerCore 1).2.2 1 peered.myMx ≠ 0 ∧
      (peered.core (peered.peerCore 1).1).cw.owner = some peered.myMx ∧ (peered.core (peered.peerCore 1).1).cw.valF = true ∧
      (peered.h 0).loaded = true := by decide +kernel

/-- An arena of one layer, one head and one slot of a page. -/
def arena0 : Arena :=
  { model := 1, mver := 1, nl := 1, kc := 2, hk := 1, qg := 1, hd := 64, rope := false, scl := 0x3F800000, ropeb := 0x461C4000,
    tenant := 0, base := 0, sstr := 32768, pstr := 128, maxpos := 256, nslot := 1, sbbase := 65536, nsb := 1, pages := [], npos := [],
    prov := [], repair := [], docs := [], sbref := [], users := [] }

def withArena (s : State) (x : Arena) : State := { s with arenas := [(0, x)] }

theorem witness_CommandWordsPost :
    (onStream .ld).ringReadable 0 = false ∧ (mapped (onStream .ld)).ringReadable 0 = true ∧ (mapped (onStream .ld)).oldestFilled 0 = none ∧
      (placedAt (mapped (onStream .ld)) 0x8000 [1]).oldestFilled 0 = some (0, 0) ∧
      (∃ u, (placedAt (mapped (onStream .ld)) 0x8000 [1]).writeVa none 0 0x8000 [2] = .ok u) ∧
      (∃ e, (withA (onStream .st) [(3, 64), (4, 0x2000)]).emitPlan (cs 0 1) 1 2 3 4 2 true = .ok e) ∧
      (∃ f, (withA (onStream .st) [(4, 0x2001)]).emitPlan (cs 0 1) 1 2 3 4 2 true = .error f) ∧
      (∃ k, (withArena (onStream .st) arena0).kvPlan 0x33 formK none = .ok k) ∧
      (∃ f, (onStream .st).kvPlan 0x33 formK none = .error f) ∧
      AMap.get ResEntry.free ((onStream .ld).strm (seqOf .ld)).res 0 = .free ∧
      ∃ c, (onStream .ld).resPlan formK none (List.replicate 64 0) = .ok c :=
  ⟨by decide +kernel, by decide +kernel, by decide +kernel, by decide +kernel, ok_of_check (by decide +kernel),
    ok_of_check (by decide +kernel), ⟨_, rfl⟩, ok_of_check (by decide +kernel), ⟨_, rfl⟩, by decide, ok_of_check (by decide +kernel)⟩


/-! CM words -/

theorem witness_VectorIntegerResults :
    (∀ e, (onStream .cm).vectorExact e (.vadd { formV with ty := 7, sat := true }) =
        some ({ formV with ty := 7, sat := true }, true,
          intVal 7 ((onStream .cm).opA { formV with ty := 7, sat := true } e) + intVal 7 ((onStream .cm).opB { formV with ty := 7, sat := true } e))) ∧
      isIntType ({ formV with ty := 7 } : FormV).ty.toNat = true ∧
      ∃ f : Nat → Int, ∀ e, (onStream .cm).vectorExact e (.vclz { formV with ty := 0 }) = some ({ formV with ty := 0 }, false, f e) :=
  ⟨fun _ => rfl, by decide, ⟨_, fun _ => rfl⟩⟩

theorem witness_VectorFloatResults :
    isIntType ({ formV with ty := 12 } : FormV).ty.toNat = false ∧
      (∃ f : Nat → XV × Flags, ∀ e, (onStream .cm).vectorFloat e (.vmul { formV with ty := 12 }) = some ({ formV with ty := 12 }, f e)) ∧
      ∃ f : Nat → XV × Flags, ∀ e, functionOf (decType 12 ((onStream .cm).opA { formV with ty := 12 } e)) (.vrcp { formV with ty := 12 }) =
        some ({ formV with ty := 12 }, f e) :=
  ⟨by decide, ⟨_, fun _ => rfl⟩, ⟨_, fun _ => rfl⟩⟩

theorem witness_MasksAndComparisons :
    ({ formV with ty := 6, dk := true } : FormV).dk = true ∧ ({ formV with ty := 6, dk := true } : FormV).width = 32 ∧
      ({ formV with ty := 7, dk := true } : FormV).width = 64 ∧ formV.dk = false ∧ (onStream .cm).cur = .seq (seqOf .cm) := by decide

theorem witness_MovesAndRearrangements :
    ({ formV with ty := 12, me := true } : FormV).width = 32 ∧ ({ formV with ty := 3, me := true } : FormV).width = 64 ∧
      (2048 / 64 - 1) < 2048 / 64 := by decide

theorem witness_ReductionsAndSums :
    ({ formV with ty := 7 } : FormV).width ∈ [8, 16, 32, 64] ∧ isIntType 7 = true ∧ formV.sub = 0 ∧
      2 ^ (5 : BitVec 4).toNat ≤ 2048 / ({ formV with ty := 7 } : FormV).width ∧
      (∃ t, exec (.vred { formV with ty := 7 }) (onStream .cm) = .next t) ∧ (∃ t, exec (.vgred { formV with ty := 7, gs := 5 }) (onStream .cm) = .next t) ∧
      ∃ t, exec (.vscan { formV with ty := 7 }) (onStream .cm) = .next t :=
  ⟨by decide, by decide, by decide, by decide, ⟨_, rfl⟩, ⟨_, rfl⟩, ⟨_, rfl⟩⟩

/-- A stream whose window is described, with blocks of format 0x01 at the first 64 places of the window. -/
def described (s : State) : State :=
  (withMe s fun x => { x with desc := true }).setCore 0
    { (withMe s fun x => { x with desc := true }).core 0 with sp := (List.range 64).map fun i => (64 * i, 1) }

theorem witness_WidthsAndConversions :
    ({ formV with ty := 5 } : FormV).width ∈ [16, 32, 64] ∧ typeBits ({ formC with fs := 10, fd := 12 } : FormC).fd.toNat ∈ [8, 16, 32, 64] ∧
      (∃ f, (onStream .cm).cvtBlocks { formC with fs := 1, fd := 12 } = .error f) ∧
      ∃ l, ((onStream .cm).setV 0 1).cvtBlocks { formC with fs := 1, fd := 12 } = .ok l :=
  ⟨by decide, by decide, error_of_check (by decide +kernel), ok_of_check (by decide +kernel)⟩

/-- The last block of the window, an offset that is misaligned, and a byte beyond the window's end. -/
theorem witness_VectorLoads :
    (onStream .cm).cmOff (CmOff.mk 1 false 0) % 64 ≠ 0 ∧ (onStream .cm).cmOff (CmOff.mk 65472 false 0) % 64 = 0 ∧
      (∀ k, k ≤ (63 : BitVec 8).toNat → (onStream .cm).cmOff (CmOff.mk 65472 false 0) + k < ((onStream .cm).strm (seqOf .cm)).window) ∧
      ((onStream .cm).strm (seqOf .cm)).window ≤ (onStream .cm).cmOff (CmOff.mk 65535 false 0) + 1 ∧
      (onStream .cm).activeM { formM with a := CmOff.mk 65535 false 0, lenM1 := 1 } 0 = true ∧
      memWidth { formM with ty := 6 } ∈ [8, 16, 32, 64] ∧ (onStream .cm).elemFault { formM with ty := 6 } = none ∧
      ((onStream .cm).elemFault { formM with ty := 6, a := CmOff.mk 65535 false 0 }).isSome = true ∧
      ∀ e, e < 64 → (onStream .cm).cmOff formM.a + (onStream .cm).laneIndex formM e / 8 < ((onStream .cm).strm (seqOf .cm)).window :=
  ⟨by decide, by decide, by decide, by decide, by decide, by decide, by decide +kernel, by decide +kernel, by decide +kernel⟩

/-- Blocks without an uncorrectable error, and, for the first byte and the first element, one with it. -/
theorem witness_VectorLoads_uncorrectable :
    (∀ k, k ≤ (63 : BitVec 8).toNat → (onStream .cm).spBadIn 0 0 ((onStream .cm).cmOff (CmOff.mk 65472 false 0) + k) 1 = none) ∧
      ((spoiled (onStream .cm)).spBadIn 0 0 ((spoiled (onStream .cm)).cmOff (CmOff.mk 65472 false 0) + 0) 1).isSome = true ∧
      (spoiled (onStream .cm)).elemFault { formM with ty := 6, a := CmOff.mk 65472 false 0 } = none ∧
      ((spoiled (onStream .cm)).elemBad { formM with ty := 6, a := CmOff.mk 65472 false 0 }).isSome = true ∧
      (onStream .cm).elemBad { formM with ty := 6 } = none ∧
      (∀ e, e < 64 → (onStream .cm).spBadIn 0 0 ((onStream .cm).cmOff formM.a + (onStream .cm).laneIndex formM e / 8) 1 = none) := by
  decide +kernel

/-- The first byte of VLD beyond the window, and the first lane of VBTEST beyond it or in an uncorrectable block. -/
theorem witness_VectorLoads_window :
    (onStream .cm).cmOff (CmOff.mk 65536 false 0) % 64 = 0 ∧ ((onStream .cm).strm (seqOf .cm)).window ≤ (onStream .cm).cmOff (CmOff.mk 65536 false 0) + 0 ∧
      (onStream .cm).activeM { formM with a := CmOff.mk 65536 false 0 } (0 / 4) = true ∧
      ((onStream .cm).strm (seqOf .cm)).window ≤
        (onStream .cm).cmOff (CmOff.mk 65536 false 0) + (onStream .cm).laneIndex { formM with a := CmOff.mk 65536 false 0 } 0 / 8 ∧
      (∀ e, e < 64 → (spoiled (onStream .cm)).cmOff (CmOff.mk 65472 false 0) + (spoiled (onStream .cm)).laneIndex formM e / 8 <
        ((spoiled (onStream .cm)).strm (seqOf .cm)).window) ∧
      ((spoiled (onStream .cm)).spBadIn 0 0
        ((spoiled (onStream .cm)).cmOff (CmOff.mk 65472 false 0) + (spoiled (onStream .cm)).laneIndex formM 0 / 8) 1).isSome = true := by
  decide +kernel

theorem witness_VectorStores :
    (onStream .cm).cmOff (CmOff.mk 65472 false 0) % 64 = 0 ∧
      (∀ k, k < 64 → (onStream .cm).cmOff (CmOff.mk 65472 false 0) + k < ((onStream .cm).strm (seqOf .cm)).window) ∧
      ((onStream .cm).v 0).getLsbD 0 = false ∧ (onStream .cm).elemFault { formM with ty := 6 } = none ∧
      ((onStream .cm).strm (seqOf .cm)).window ≤ (onStream .cm).cmOff (CmOff.mk 65536 false 0) + 0 ∧
      (onStream .cm).cmOff (CmOff.mk 65536 false 0) % 64 = 0 := by decide +kernel

def mma0 : FormMma :=
  { y := noSync, cs := cs 0 0, acc := 0, caM1 := 0, cbM1 := 0, kgM1 := 0, asrc := true, astrM1 := 0, a := ⟨0, false, 0⟩, boff := 0, bstrM1 := 0 }

/-- Operands of an MMA: blocks of format 0x01 in the A-bypass slots and in the front pane of the owned casement. -/
def matrixReady : State :=
  withCw (withMe (onStream .cm) fun x => { x with byp := (List.range 64).map fun i => (2 * i, 1) })
    fun c => { c with owner := some 0, valF := true, pane0 := (List.range 64).map fun i => (64 * i, 1) }

def mhrot0 : FormMhrot :=
  { y := noSync, cs := cs 0 0, acc := 0, caM1 := 0, ord64 := false, dg := 0, koff := 0, asrc := true, astrM1 := 0, a := ⟨0, false, 0⟩ }

theorem rowGroups_one {fetch : RowFetch} {r : Nat} (h : (fetch r 0 0).isOk = true) : (rowGroups fetch r 1 1 [] 0).isOk = true := by
  obtain ⟨x, hx⟩ := ok_of_check h
  simp [rowGroups, hx, Except.isOk, Except.toBool]

theorem allRows_one {fetch : RowFetch} (h : ∀ r, r < 64 → (fetch r 0 0).isOk = true) :
    ∀ n r, r + n ≤ 64 → (allRows fetch 1 n r).isOk = true
  | 0, _, _ => rfl
  | n + 1, r, hr => by
    obtain ⟨x, hx⟩ := ok_of_check (rowGroups_one (h r (by omega)))
    obtain ⟨y, hy⟩ := ok_of_check (allRows_one h n (r + 1) (by omega))
    simp [allRows, hx, hy, Except.isOk, Except.toBool]

theorem firstByte (m : Memory) (a : Nat) : Blk.f (blkOfBytes (m.readN a 64)) = (m.read a).toNat := by
  have h : ∀ (b : Byte) (l : List Byte), leNat (b :: l) % 2 ^ 512 % 256 = b.toNat := by
    intro b l
    have := b.isLt
    simp only [leNat]
    omega
  have e : m.readN a 64 = m.read a :: m.readN (a + 1) 63 := rfl
  rw [e]
  simp only [Blk.f, blkOfBytes, BitVec.toNat_ofNat]
  exact h _ _

theorem matrixReady_a (r : Nat) (hr : r < 64) : (matrixReady.fetchByp 1 r 0 0).isOk = true := by
  have h : ∀ r, r < 64 → AMap.get (0 : Blk) ((List.range 64).map fun i => (2 * i, (1 : Blk))) (2 * r + 0) = 1 := by decide +kernel
  have e : matrixReady.me.byp = (List.range 64).map fun i => (2 * i, (1 : Blk)) := rfl
  have f : bricksReason (Blk.f (1 : Blk)) false 1 = none := by decide +kernel
  unfold State.fetchByp
  simp only [e, h r hr, Nat.zero_lt_two, if_true, f]
  rfl

theorem matrixReady_b (r : Nat) (hr : r < 64) : (matrixReady.fetchB 0 1 1 r 0 0).isOk = true := by
  have h : ∀ r, r < 64 → (Memory.read ((List.range 64).map fun i => (64 * i, (1 : Byte))) (64 * ((0 + 1 * r + 0) % paneBlocks))).toNat = 1 := by
    decide +kernel
  have e : (matrixReady.core matrixReady.here.core).cw.pane (matrixReady.core matrixReady.here.core).cw.front =
      (List.range 64).map fun i => (64 * i, (1 : Byte)) := rfl
  have f : bricksReason 1 true 1 = none := by decide +kernel
  unfold State.fetchB
  simp only [e, firstByte, h r hr, f]
  rfl

theorem mmaRows_of {s : State} {w : FormMma} (hs : w.asrc = true) (hk : w.kgM1.toNat + 1 = 1)
    (ha : ∀ r, r < 64 → (s.fetchByp (w.caM1.toNat + 1) r 0 0).isOk = true)
    (hb : ∀ r, r < 64 → (s.fetchB w.boff.toNat (w.bstrM1.toNat + 1) (w.cbM1.toNat + 1) r 0 0).isOk = true) :
    ∃ r, s.mmaRows w = .ok r := by
  obtain ⟨x, hx⟩ := ok_of_check (allRows_one ha 64 0 (by decide))
  obtain ⟨y, hy⟩ := ok_of_check (allRows_one hb 64 0 (by decide))
  refine ⟨(x.1, y.1, y.2), ?_⟩
  simp only [State.mmaRows, State.rowsA, hs, hk, if_true, hx, hy, Except.map]

theorem matrixReady_rows : ∃ r, matrixReady.mmaRows mma0 = .ok r := mmaRows_of rfl rfl matrixReady_a matrixReady_b

theorem witness_MatrixProducts :
    (matrixReady.core 0).upset = 0 ∧ matrixReady.me.refreshWait = none ∧ (matrixReady.core 0).cw.owner = some matrixReady.myMx ∧
      (matrixReady.core 0).cw.valF = true ∧ (∃ r, matrixReady.mmaRows mma0 = .ok r) ∧
      (∃ f, (onStream .cm).mmaRows mma0 = .error f) ∧
      ∃ r, matrixReady.rowsA mhrot0.asrc mhrot0.a (mhrot0.astrM1.toNat + 1) (mhrot0.caM1.toNat + 1) 2 = .ok r :=
  ⟨by decide, by decide, by decide, by decide, matrixReady_rows, error_of_check (by decide +kernel), ok_of_check (by decide +kernel)⟩

def drain0 : FormMdrain :=
  { y := noSync, cs := cs 0 0, acc := 0, fmt := 1, rnd := 0, dist := 1, lay := 0, clr := false, dstrM1 := 0, d := ⟨0, false, 0⟩ }
def load0 : FormMaccld := { y := noSync, cs := cs 0 0, acc := 0, add := false, kind := 0, sstrM1 := 0, s := ⟨0, false, 0⟩ }
def peer0 : FormMpeer := { y := noSync, cs := cs 0 2, acc := 0, tier := 1, d := ⟨0, false, 0⟩, bar := none }

theorem witness_AccumulatorWords :
    (described (onStream .cm)).drainOff drain0 = .ok 0 ∧ (described (onStream .cm)).windowOf 1 ((described (onStream .cm)).drainWrites drain0 0).1 = none ∧
      (onStream .cm).cmBlockOff load0.s 0 = .ok 0 ∧ (∃ r, (onStream .cm).maccldResult load0 0 = .ok r) ∧
      (0 : BitVec 2).toNat = 0 / 128 % 4 ∧
      (({ onStream .cm with mull := [(0, { valid := true, tier := 0, mx := 0 })] } : State)).peerPlan peer0 = .ok 0 :=
  ⟨by decide +kernel, by decide +kernel, by decide, ok_of_check (by decide +kernel), by decide, by decide +kernel⟩

/-- A lease held by the stream, by another, and free; casements of the team, of another and free; cycle 100,000 is outside the refresh
windows. -/
theorem witness_LeaseAndSwingWords :
    ((withLease (onStream .cm) fun l => { l with holder := some 0 }).core 0).lease.holder = some 0 ∧
      ((withLease (onStream .cm) fun l => { l with holder := some 1 }).core 0).lease.holder = some 1 ∧
      ((onStream .cm).core 0).lease.holder = none ∧ ((onStream .cm).core 0).lease.wants = [] ∧
      (!(onStream .cm).frontRead 0 && (if ((onStream .cm).core 0).cw.owner = none then 0 else ((onStream .cm).core 0).cw.fcnt) == (0 : BitVec 24).toNat &&
        !inWindow false ((onStream .cm).refreshTimer 0) && !inWindow true ((onStream .cm).refreshTimer 0)) = true ∧
      ((withCw (onStream .cm) fun c => { c with owner := some 1 }).core 0).cw.owner = some 1 ∧ ((onStream .cm).core 0).cw.owner = none ∧
      (0 : BitVec 24).toNat < ((withCw (onStream .cm) fun c => { c with owner := some 0, fcnt := 1 }).core 0).cw.fcnt ∧
      (withCw (onStream .cm) fun c => { c with owner := some 0, fcnt := 64 }).swingReady 0 64
        ((withCw (onStream .cm) fun c => { c with owner := some 0, fcnt := 64 }).refreshTimer 0) = true ∧
      (withCw (onStream .cm) fun c => { c with owner := some 0, fcnt := 63 }).swingReady 0 64
        ((withCw (onStream .cm) fun c => { c with owner := some 0, fcnt := 63 }).refreshTimer 0) = false ∧
      ((withCw (onStream .cm) fun c => { c with owner := some 0, fcnt := 64 }).core 0).cw.fcnt < (8388608 : BitVec 24).toNat := by decide +kernel


/-! What the device does by itself -/

/-- A header that asks for nothing. -/
def header0 : Header := { Header.none with len := 1 }
/-- The stream of core 0 with its SC sequencer before a header. -/
def waiting (h : Header) (f : Stream → Stream) : State :=
  withMe (onStream .sc) fun x => f { x with sc := { seqAt with phase := .waiting, left := 0, hdr := h }, ld := Seqr.reset, cm := Seqr.reset,
                                            st := Seqr.reset }

/-- A block that may begin; one that lacks a token, and one whose barrier is not chosen. -/
theorem witness_BlockAdmissionAndEnds :
    (waiting header0 id).mayLook ((waiting header0 id).strm (seqOf .sc)) .sc = true ∧ ((waiting header0 id).seqr (seqOf .sc)).reached = true ∧
      tokensOk ((waiting header0 id).strm (seqOf .sc)) .sc header0 = true ∧ tagsOk ((waiting header0 id).strm (seqOf .sc)) header0 = true ∧
      (waiting header0 id).barrierWait 0 0 header0 = .ok ∧ (waiting header0 id).unitBusy 0 .sc = false ∧
      ((waiting header0 id).setSeqr (seqOf .sc)
        { (waiting header0 id).seqr (seqOf .sc) with
          since := some (((waiting header0 id).seqr (seqOf .sc)).since.getD (waiting header0 id).dclk.toNat) }).pick 0 .sc = some 0 ∧
      ((waiting header0 id).strm (seqOf .sc)).pendingOf (consumedTags ((waiting header0 id).strm (seqOf .sc)) header0) = none ∧
      tokensOk ((waiting { header0 with popp := 1 } id).strm (seqOf .sc)) .sc { header0 with popp := 1 } = false := by decide +kernel

/-- Ends of a block instance: with repetitions left, with TEND, and with neither; a token produced late. -/
theorem witness_BlockAdmissionAndEnds_end :
    ((withMe (onStream .sc) fun x => { x with sc := { seqAt with left := 0, reps := 2 } }).seqr (seqOf .sc)).left = 0 ∧
      1 < ((withMe (onStream .sc) fun x => { x with sc := { seqAt with left := 0, reps := 2 } }).seqr (seqOf .sc)).reps ∧
      ((onStream .sc).seqr (seqOf .sc)).reps ≤ 1 ∧ ((onStream .sc).seqr (seqOf .sc)).phase = .running ∧
      (((withMe (onStream .sc) fun x => { x with pushes := [⟨7, 1, true, .sc, 0⟩] }).stream 0 0).pushes.find? fun p => p.queue == 7) =
        some ⟨7, 1, true, .sc, 0⟩ ∧
      (withMe (onStream .sc) fun x => { x with pushes := [⟨7, 1, true, .sc, 0⟩] }).effectsDone (seqOf .sc) 0 = true := by decide

/-- A barrier wait that faults: a watch register whose object lies beyond the window. -/
theorem witness_BlockAdmissionAndEnds_fault :
    ∃ f, (waiting { header0 with wbar := some 0 } fun x => { x with bw := [(0, 0x01FFFFFFFFD00000)] }).barrierWait 0 0
      { header0 with wbar := some 0 } = .fault f := ⟨_, rfl⟩

theorem witness_LeavesAndSwings :
    ((withLease (onStream .cm) fun l => { l with holder := some 0, start := 83616 }).core 0).lease.start + 16384 ≤
        (withLease (onStream .cm) fun l => { l with holder := some 0, start := 83616 }).dclk.toNat ∧
      (withLease (withMe (onStream .cm) fun x => { x with cm := { seqAt with hdr := { header0 with lease := true } } }) fun l =>
        { l with holder := some 0, start := 83616 }).leaseInUse 0 = true ∧
      (withLease (withMe (onStream .cm) fun x => { x with cm := Seqr.reset }) fun l =>
        { l with holder := some 0, asks := [1], idleSince := some 99936 }).leaseInUse 0 = false ∧ 99936 + 64 ≤ 100000 ∧
      ((withLease (onStream .cm) fun l => { l with holder := some 0, posted := [1] }).core 0).lease.wants = [1] ∧
      ((waiting { header0 with leave := 1 } fun x => { x with sc := { x.sc with leaveAsked := some 34464, since := some 95904 } }).seqr
        (seqOf .sc)).leaveAsked.isSome = true ∧
      (waiting { header0 with leave := 1 } fun x => { x with sc := { x.sc with leaveAsked := some 34464 } }).beforeLeave (seqOf .sc) = true ∧
      (waiting { header0 with leave := 1 } fun x => { x with sc := { x.sc with leaveAsked := some 34464 } }).leaveFits (seqOf .sc) = true ∧
      (∀ o ∈ (waiting { header0 with leave := 1 } fun x => { x with sc := { x.sc with leaveAsked := some 34464 } }).tierSeqs (tierOf 0),
        (waiting { header0 with leave := 1 } fun x => { x with sc := { x.sc with leaveAsked := some 34464 } }).leaveBefore o (seqOf .sc) = true →
        ((waiting { header0 with leave := 1 } fun x => { x with sc := { x.sc with leaveAsked := some 34464 } }).seqr o).leaveAsked = none) := by
  decide +kernel

/-- A leave that the budget of a tier at its highest level does not cover, asked alone. -/
theorem witness_LeavesAndSwings_denied :
    let s : State := { waiting { header0 with leave := 3 } (fun x => { x with sc := { x.sc with leaveAsked := some 34464 } }) with
      tiers := [(0, { Tier.reset with level := 8 })] }
    (s.seqr (seqOf .sc)).leaveAsked.isSome = true ∧ s.beforeLeave (seqOf .sc) = true ∧ s.leaveFits (seqOf .sc) = false ∧
      ∀ o ∈ s.tierSeqs (tierOf 0), ∀ n, (s.seqr o).leaveAsked = some n → s.leaveBefore o (seqOf .sc) = true →
        s.beforeLeave o = false ∨ (s.leaveFits o = false ∧ s.dclk.toNat < n + 2048) := by
  refine ⟨by decide +kernel, by decide +kernel, by decide +kernel, ?_⟩
  have h : ∀ o ∈ (State.tierSeqs { waiting { header0 with leave := 3 } (fun x => { x with sc := { x.sc with leaveAsked := some 34464 } }) with
      tiers := [(0, { Tier.reset with level := 8 })] } (tierOf 0)),
      State.leaveBefore { waiting { header0 with leave := 3 } (fun x => { x with sc := { x.sc with leaveAsked := some 34464 } }) with
      tiers := [(0, { Tier.reset with level := 8 })] } o (seqOf .sc) = true →
      (State.seqr { waiting { header0 with leave := 3 } (fun x => { x with sc := { x.sc with leaveAsked := some 34464 } }) with
      tiers := [(0, { Tier.reset with level := 8 })] } o).leaveAsked = none := by decide +kernel
  intro o ho n hn hb
  rw [h o ho hb] at hn
  cases hn

/-- A SWING that waits: its count is reached, or 16,384 cycles have passed. -/
def swinging (fcnt start : Nat) : State :=
  withCw (withMe (onStream .cm) fun x => { x with swing := some { y := noSync, count := 64, start := start, popP := 0, popN := 0, took := false } })
    fun c => { c with owner := some 0, fcnt := fcnt }

theorem witness_LeavesAndSwings_swing :
    ((swinging 64 0).stream 0 0).swing = some { y := noSync, count := 64, start := 0, popP := 0, popN := 0, took := false } ∧ ((swinging 64 0).core 0).cw.fcnt = 64 ∧
      (swinging 64 83616).swingReady 0 64 ((swinging 64 83616).refreshTimer 0) = true ∧ (swinging 64 83616).cwTaken 0 0 = false ∧
      (swinging 64 83616).dclk.toNat ≤ 83616 + 16384 ∧
      (swinging 63 83616).swingReady 0 64 ((swinging 63 83616).refreshTimer 0) = false ∧ (∃ x, ((swinging 64 0).core 0).streams = [(0, x)]) ∧ ((swinging 63 0).core 0).cw.fcnt < 64 ∧
      83616 + 16384 ≤ (swinging 63 83616).dclk.toNat ∧ (swinging 63 83617).dclk.toNat < 83617 + 16384 ∧
      (∀ e ∈ ((onStream .cm).core 0).streams, e.2.swing = none) :=
  ⟨by decide, by decide, by decide +kernel, by decide +kernel, by decide, by decide +kernel, ⟨_, rfl⟩, by decide, by decide, by decide, by decide⟩

/-- A team whose sequencers have stopped and whose save is ordered. -/
def stopping (k : EndKind) : State :=
  (mapped (withMe (onStream .sc) fun x => { x with sc := { seqAt with phase := .waiting }, ld := { seqAt with phase := .waiting },
                                                    cm := { seqAt with phase := .waiting }, st := { seqAt with phase := .waiting } })).setMx 0
    { (mapped (onStream .sc)).mx 0 with ending := some k }

def image0 : Image := { kind := .ckpt, streams := [], inShutter := true, drained := false, gen := 0, stamp := 0, panes := [], homeless := false }

/-- Micro-context 0 in another state, with an image. -/
def imaged (st : MxSt) (im : Image) : State := (mapped (onStream .sc)).setMx 0 { (mapped (onStream .sc)).mx 0 with st := st, image := some im }

theorem witness_SavesAndReturns :
    ((stopping .ckpt).mx 0).ending = some .ckpt ∧ ((stopping .ckpt).mx 0).st = .bound ∧ EndKind.saves .ckpt = true ∧
      (stopping .ckpt).teamStopped 0 (EndKind.ckpt == .drain) = true ∧ (stopping .ckpt).stopPending 0 = false ∧
      (stopping .ckpt).accessPending 0 = false ∧ ((stopping .ckpt).mx 0).drain = none ∧
      (stopping .ckpt).shutRoom { lr := placedLaunch, stack := 0, col := 0, outer := [], layers := [] } = true ∧
      (mapped (onStream .sc)).areaOpen 0 (heldSpans [page 0x20000] 0x20000 4096) = true ∧ (stopping .ckpt).completing 0 = false ∧
      ({ (stopping .ckpt).mx 0 with drain := some { pages := [], kind := .ckpt, gen := 1, stamp := 0, bytes := 0, tgrp := 0 } } : Mx).drain.isSome = true ∧
      ((imaged .saved image0).mx 0).team.isSome = true ∧ ((imaged .saved image0).mx 0).image = some image0 := by decide +kernel

/-- A saved micro-context whose save area is one page: its team has no stream. -/
def savedPage : State :=
  (imaged .saved { image0 with inShutter := false, drained := true }).setMx 0
    { (imaged .saved { image0 with inShutter := false, drained := true }).mx 0 with
      team := some { lr := { placedLaunch with nstrm := 0 }, stack := 0, col := 0, outer := [], layers := [] } }

theorem witness_SavesAndReturns_load :
    (savedPage.mx 0).image = some { image0 with inShutter := false, drained := true } ∧ (savedPage.mx 0).st = .saved ∧
      (∃ ps, savedPage.saveAreaPages 0 .read = .ok ps) ∧ (∃ l, savedPage.readVa none 0 (savedPage.mx 0).savea.toNat 8 = .ok l) ∧
      savedPage.shutRoom { lr := { placedLaunch with nstrm := 0 }, stack := 0, col := 0, outer := [], layers := [] } = true ∧
      (savedPage.mx 0).imageAtHand { image0 with inShutter := false, drained := true }
        { lr := { placedLaunch with nstrm := 0 }, stack := 0, col := 0, outer := [], layers := [] } = false ∧ (savedPage.mx 0).drain = none ∧
      savedPage.vaUp none 0 (savedPage.mx 0).savea.toNat 4096 = true ∧
      savedPage.areaBad [page 0] 1 0 = none ∧ ({ savedPage with badBlks := [7] } : State).areaBad [page 0] 1 0 = some (64 * 7) :=
  ⟨by decide +kernel, by decide +kernel, ok_of_check (by decide +kernel), ok_of_check (by decide +kernel), by decide +kernel, by decide +kernel, by decide +kernel, by decide +kernel,
    by decide +kernel, by decide +kernel⟩

theorem witness_SavesAndReturns_return :
    ((imaged .swapped image0).part ((imaged .swapped image0).mx 0).part).pausing = false ∧
      (imaged .swapped image0).groupLost { lr := placedLaunch, stack := 0, col := 0, outer := [], layers := [] } = false ∧
      ((imaged .swapped image0).setStream 0 0 Stream.reset).groupHolds 0 0 1 1 1 = true ∧
      (imaged .swapped image0).reservedAbove 0 { lr := placedLaunch, stack := 0, col := 0, outer := [], layers := [] } = false ∧
      (imaged .swapped image0).placeFirst 0 = false ∧ (imaged .swapped image0).shutBad 0 = false ∧
      ((imaged .swapped image0).setCore 0 { core0 with shutter := [{ mx := 0, units := 1, base := 0 }], shutBad := [3] }).shutBad 0 = true := by
  decide +kernel


/-- Beside the team, which has stopped, micro-context 1 waits for its group and needs all eight slots of a core. -/
def crowded : State :=
  ({ stopping .swap with parts := [(0, { active0 with cola := 1 })] }.setMx 0 { (stopping .swap).mx 0 with ending := none }).setMx 1
    { Mx.reset with st := .ready, lr := some { placedLaunch with nstrm := 8 } }

theorem witness_SavesAndReturns_swap :
    (crowded.mx 0).team = some { lr := placedLaunch, stack := 0, col := 0, outer := [], layers := [] } ∧ swapThreshold (crowded.core (crowded.coreOf 0 0 0)).wth = 50000 ∧
      50000 < crowded.dclk.toNat - (crowded.mx 0).lastAdmit ∧ (crowded.mx 0).st = .bound ∧ (crowded.mx 0).ending = none ∧
      (crowded.part (crowded.mx 0).part).pausing = false ∧ (crowded.mx 0).returnedAt = none ∧ crowded.teamIdle 0 = true ∧
      crowded.areaStalls 0 = false ∧
      crowded.neededByOther 0 { lr := placedLaunch, stack := 0, col := 0, outer := [], layers := [] } = true := by decide +kernel

/-! Copies, requests at their homes, barriers, the cache and IO -/

def ref0 : StreamRef := { mx := 0, tier := 0, coff := 0, ts := 0, launch := 0 }

/-- A TLOAD of one row of 64 bytes from page 2 to the window's bank, of generation 1. -/
def copy0 : Copy :=
  { id := 5, kind := .tload, ref := ref0, sec := .ld, cls := 0, scope := 0, tag := 3, bar := none, wordPc := 0x1000, rows := 1, rowb := 64,
    gpitch := 64, spitch := 64, gbase := 0x2000, sbase := 0, idx := [], fmt := 2, vcols := 64, vrows := 1, bytes := 64, barPage := none, data := [],
    pages := [page 0x2000], dpages := [], gens := [⟨0, 0, 1⟩], pane := false, swings := 0, peer := 0, kslot := 0, units := 1, done := [], sent := [], stale := [],
    frozen := false, err := none, chan := 0, tidx := 0, mult := 1, before := 0, spSrc := false, spDst := false, status := 0, fcode := 0, fva := 0,
    granted := false, sflg := 0, res := 0 }

/-- Copies in flight, with the window's bank at generation 1. -/
def copying (l : List Copy) : State :=
  { mapped ((onStream .ld).setCore 0 { core0 with tags := [(0, { valid := true, slot := 0, gen := 1 })] }) with copies := l }

def SrcRead.isStale : SrcRead → Bool
  | .stale => true
  | _ => false
/-- The unit's bytes are read, and what their write answers: 0 done, 1 refused. -/
def unitAnswer (s : State) (c : Copy) (n : Nat) : Option Nat :=
  match s.readUnit c n with
  | .bytes l p => (match s.writeUnit c n l p with | .ok _ => some 0 | .refused _ => some 1 | _ => none)
  | _ => none

theorem unit_of_answer {s : State} {c : Copy} {n k : Nat} (h : unitAnswer s c n = some k) :
    ∃ l p, s.readUnit c n = .bytes l p ∧ ((k = 0 ∧ ∃ t, s.writeUnit c n l p = .ok t) ∨ (k = 1 ∧ ∃ va, s.writeUnit c n l p = .refused va)) := by
  unfold unitAnswer at h
  split at h
  · next l p e =>
    refine ⟨l, p, e, ?_⟩
    split at h
    · next t e2 => exact .inl ⟨(Option.some.inj h).symm, t, e2⟩
    · next va e2 => exact .inr ⟨(Option.some.inj h).symm, va, e2⟩
    · cases h
  · cases h

theorem witness_CopyUnits :
    (copying [copy0]).copy 5 = some copy0 ∧ (copying [copy0]).landWaits copy0 0 = false ∧ copy0.overwritten 0 = false ∧
      unitAnswer (copying [copy0]) copy0 0 = some 0 ∧
      unitAnswer (copying [{ copy0 with kind := .tstore, pages := [] }]) { copy0 with kind := .tstore, pages := [] } 0 = some 1 ∧
      SrcRead.isStale ((copying [copy0]).readUnit { copy0 with kind := .tstore, gens := [⟨0, 0, 2⟩] } 0) = true ∧
      (copying [copy0]).readUnit { copy0 with pages := [] } 0 = .bad 0 spG 0x2000 := by
  exact ⟨rfl, by decide +kernel, rfl, by decide +kernel, rfl, by decide +kernel, rfl⟩

/-- The unit may be performed now; and the elements of a reduction go to their homes. -/
theorem witness_CopyUnits_ready :
    (copying [copy0]).unitReady copy0 0 = true ∧ (copying [copy0]).unitTurn copy0 0 = true ∧
      (copying [{ copy0 with kind := .redm 0 }]).unitReady { copy0 with kind := .redm 0 } 0 = true ∧
      (match (copying [{ copy0 with kind := .redm 0 }]).readUnit { copy0 with kind := .redm 0 } 0 with
        | .bytes l p => (match (copying [{ copy0 with kind := .redm 0 }]).writeUnit { copy0 with kind := .redm 0 } 0 l p with
          | .sent _ => true
          | _ => false)
        | _ => false) = true := by decide +kernel

theorem witness_CopyUnits_tload :
    pageOf copy0.pages 0x2000 = some (page 0x2000) ∧ (copying [copy0]).homeReady ((page 0x2000).paOf 0x2000) = true ∧
      (copying [copy0]).badBlk ((page 0x2000).paOf 0x2000 / 64) = false ∧ (copying [copy0]).refCore copy0.ref = some 0 ∧
      (copying [copy0]).ownedAt 0 copy0.gens 0 = some 0 := by decide +kernel

/-- A peer image of zeros for the stream's window. -/
def peerImg0 : PeerImg :=
  { id := 8, ref := ref0, dest := ref0, cls := 0, off := 0, img := List.replicate 24576 0, bar := none, gens := [⟨0, 0, 1⟩], sent := 0 }

theorem inBank (gens : List BankUse) (s : State) (hg : gens = [⟨0, 0, 1⟩])
    (ht : (s.core 0).tags = [(0, { valid := true, slot := 0, gen := 1 })]) (j : Nat) (hj : j < 65536) : (s.ownedAt 0 gens j).isSome = true := by
  have e : j / 65536 = 0 := by omega
  simp [State.ownedAt, hg, e, ht, AMap.get]

/-- It travels: the running mullion slot is its tier's. -/
def delivering : State := { copying [] with peers := [peerImg0], mull := [(0, { valid := true, tier := 0, mx := 0 })] }

theorem witness_CopyEnds :
    (∀ n, n < copy0.units → n ∈ ({ copy0 with done := [0] } : Copy).done) ∧ (copying [copy0]).slotOf copy0.ref = some (0, 0) ∧
      delivering.peers.find? (fun p => p.id == 8) = some peerImg0 ∧ delivering.slotOf peerImg0.dest = some (0, 0) ∧
      delivering.peerPiece peerImg0 = 256 ∧ delivering.sillOlder 0 0 0 256 8 = false ∧ delivering.mullOwn (delivering.busOf 0) (0 / 128 % 4) 0 = true ∧
      delivering.peerPiece { peerImg0 with sent := 24320 } = 256 ∧ 24576 ≤ 24320 + 256 ∧ (∀ j, j < 24576 → (delivering.ownedAt 0 peerImg0.gens (0 + j)).isSome = true) ∧
      ((onStream .ld).ownedAt 0 peerImg0.gens (0 + 24575)).isSome = false :=
  ⟨by decide, by decide, rfl, by decide, by decide +kernel, rfl, by decide +kernel, rfl, by decide,
    fun j hj => inBank _ _ rfl rfl _ (by omega), by decide⟩

/-- A block transfer whose units are done; its ring is on page 2. -/
def transfer0 : Copy := { copy0 with kind := .bt, units := 0, tag := 64 }
def transferred : State :=
  (copying [transfer0]).setMx 0 { (copying []).mx 0 with chans := [(0, { Chan.reset with rbase := 0x2000, inflt := 1 })] }

/-- The same with WAKE and a barrier at `b`. -/
def waking (b : Word) : State :=
  transferred.setMx 0 { transferred.mx 0 with chans := [(0, { Chan.reset with rbase := 0x2000, inflt := 1, wake := true, wbar := b })] }

theorem witness_CopyEnds_transfer :
    transferred.copy 5 = some transfer0 ∧ transfer0.btOver = true ∧ (((transferred.mx 0).chan 0).wake) = false ∧
      (waking 0x2040).copy 5 = some transfer0 ∧ (((waking 0x2040).mx 0).chan 0).wake = true ∧ spAlias (((waking 0x2040).mx 0).chan 0).wbar.toNat = none ∧
      (∃ e, (waking 0x2040).access none 0 0x2040 .write false = .ok e) ∧ spAlias (((waking 0x01FFFFFFFFC0FFF0).mx 0).chan 0).wbar.toNat = some 0xFFF0 ∧
      (∃ st, (waking 0x01FFFFFFFFC0FFF0).refStream transfer0.ref = some st ∧ st.windowFail 0xFFF0 16 = none) ∧
      transferred.spansOpen (some transfer0.ref) (transferred.vaSpans none 0 0x2000 32) = true ∧
      transferred.recordWaits 0 0x2000 (transferred.vaSpans none 0 0x2000 32) = false ∧
      (waking 0x2040).recordWaits 0 0x2000 ((waking 0x2040).vaSpans none 0 0x2000 32) = false ∧
      ∃ u, (((transferred.ungrant transfer0).dropCopy 5).spansServed (some transfer0.ref) (transferred.vaSpans none 0 0x2000 32)).writeVa none transfer0.ref.mx
        (((transferred.mx transfer0.ref.mx).chan transfer0.chan).rbase.toNat +
          32 * (((transferred.mx transfer0.ref.mx).chan transfer0.chan).rhead.toNat % ((transferred.mx transfer0.ref.mx).chan transfer0.chan).ringLen))
        (transfer0.btRecord ((transferred.mx transfer0.ref.mx).chan transfer0.chan)) = .ok u :=
  ⟨by decide, by decide, by decide, by decide, by decide, by decide, ok_of_check (by decide +kernel), by decide, ⟨_, rfl, by decide⟩,
    by decide +kernel, by decide +kernel, by decide +kernel, ok_of_check (by decide +kernel)⟩

/-- A scalar request of the stream, to its home at `pa`. -/
def req0 (op : ReqOp) (pa : Nat) (dest : Option (BitVec 5)) : Req :=
  { id := 1, ref := some ref0, mx := 0, op := op, va := pa, pa := pa, ipa := pa, enc := false, page := none, io := false, cls := 0, scope := 0, acq := 0,
    rel := 0, win := [], dest := dest, bw := none, performed := false, result := 0, err := none, unit := none, merged := [], into := none, fwd := false }
def requested (l : List Req) : State := { onStream .sc with reqs := l }

theorem witness_HomeAccessesPerform :
    (requested [req0 (.load 8) 0x2FF8 (some 1)]).req 1 = some (req0 (.load 8) 0x2FF8 (some 1)) ∧
      (requested [req0 (.load 8) 0x2FF8 (some 1)]).due (req0 (.load 8) 0x2FF8 (some 1)) = true ∧
      (requested [req0 (.load 8) 0x2FF8 (some 1)]).badIn 0x2FF8 8 = none ∧
      (requested [req0 (.store 8 7) 0x2FF8 none]).due (req0 (.store 8 7) 0x2FF8 none) = true ∧
      ((requested []).part ((requested []).reqPart (req0 (.store 8 7) 0x2FF8 none))).dlog = false ∧
      (requested [req0 (.fence 1) 0 none]).due (req0 (.fence 1) 0 none) = true ∧ (requested []).slotOf ref0 = some (0, 0) := by decide +kernel

theorem witness_AtomicsAtTheHome :
    (requested [req0 (.atomic 0 8 1 0 true) 0x2FF8 (some 1)]).due (req0 (.atomic 0 8 1 0 true) 0x2FF8 (some 1)) = true ∧
      (requested [req0 (.atomic 10 4 1 0 true) 0x2FFC (some 1)]).due (req0 (.atomic 10 4 1 0 true) 0x2FFC (some 1)) = true ∧
      (1 : Word).toNat < 2 ^ (8 * 4) ∧ (requested [req0 (.atomic 8 4 1 0 true) 0x2FFC (some 1)]).due (req0 (.atomic 8 4 1 0 true) 0x2FFC (some 1)) = true ∧
      (requested [req0 (.atomic 0 8 1 0 false) 0x2FF8 none, { req0 (.atomic 0 8 2 0 false) 0x2FF8 none with id := 2, ref := none }]).mayMerge
        { req0 (.atomic 0 8 2 0 false) 0x2FF8 none with id := 2, ref := none } (req0 (.atomic 0 8 1 0 false) 0x2FF8 none) = true ∧
      (requested [req0 (.atomic 8 4 1 0 false) 0x2FF8 none, { req0 (.atomic 8 4 2 0 false) 0x2FF8 none with id := 2, ref := none }]).mayMerge
        { req0 (.atomic 8 4 2 0 false) 0x2FF8 none with id := 2, ref := none } (req0 (.atomic 8 4 1 0 false) 0x2FF8 none) = true ∧
      (requested [{ req0 (.atomic 0 8 1 0 false) 0x2FF8 none with merged := [2] }]).req 1 =
        some { req0 (.atomic 0 8 1 0 false) 0x2FF8 none with merged := [2] } := by decide +kernel

/-- A barrier in error; one of too few arrivals; both ends of the byte count; a turn and no turn of the phase. -/
theorem witness_BarrierUpdates :
    let o : Barrier := { pendb := 2 ^ 31 - 1, expb := 64, penda := 1, expa := 1, phase := false, err := false, rsvd := 0 }
    ({ o with err := true } : Barrier).err = true ∧ o.penda < 2 ∧ 2 ^ 31 ≤ o.pendb + ((1 : Nat) : Int) - ((0 : Nat) : Int) ∧
      ({ o with pendb := -2 ^ 31 } : Barrier).pendb + ((0 : Nat) : Int) - ((1 : Nat) : Int) < -2 ^ 31 ∧
      1 ≤ o.penda ∧ -2 ^ 31 ≤ o.pendb + ((0 : Nat) : Int) - ((2 ^ 31 - 1 : Nat) : Int) ∧
      ({ o with pendb := 0 }.update 1 0 0 false).phase = true ∧ (o.update 1 0 0 false).phase = false := by decide

theorem witness_BarrierUpdates_arrival :
    let r : Req := { req0 (.pbArrive 1 false) 0x01FFFFFFFFC0FFF0 (some 1) with pa := 0 }
    (requested [r]).req 1 = some r ∧ (requested [r]).due r = true ∧ spAlias r.va = some 0xFFF0 ∧ (requested [r]).slotOf ref0 = some (0, 0) ∧
      ((requested [r]).core 0).spBad.contains (((requested [r]).stream 0 0).spAddr 0xFFF0 / 64) = false ∧
      (requested [{ r with op := .pbTest }]).due { r with op := .pbTest } = true := by
  decide +kernel

/-- A line of the cache, clean or dirty. -/
def line0 (d : Bool) : LlcBlk := { mx := 0, tid := 0, tile := 0, way := 0, used := 0, data := 5, dirty := d, enc := none, retiring := true, outgoing := 0 }
def cached (d : Bool) : State := { mapped (onStream .sc) with llc := [(0x80, line0 d)] }

/-- A segment of one SC block: a header of one word, and that word. -/
def toScan : Segment := { placedSegment .sc false with frames := [3], base := 0x3000, len := 8, ok := false, headers := [] }
def scanned (l : List Byte) : State := { placedAt (onStream .sc) 0x3000 l with segs := [(0, toScan)] }

theorem witness_CachesAndScans :
    ((onStream .sc).core 0).streams = [(0, stream0)] ∧ stream0.mx = some 0 ∧
      (∃ e, (onStream .sc).translation (some 0) 0 (0x2008 : Word).toNat = .ok e) ∧
      (onStream .sc).pageAtPa 0 0x2000 = some (page 0x2000) ∧ (onStream .sc).llc.find (0x2000 / 64) = none ∧ isIo 0x2000 = false ∧
      (onStream .sc).homeReady 0x2000 = true ∧
      (onStream .sc).homeServes ((onStream .sc).mx 0).part = true ∧ (cached true).homeServes ((cached true).tenantPart 0) = true ∧
      (onStream .sc).badBlk 5 = false ∧ (0, 5) ∈ ({ onStream .sc with weak := [(0, 5)] } : State).weak ∧
      (cached true).llc.find 0x80 = some (line0 true) ∧ (line0 false).retiring = true ∧ (cached true).homeReady (64 * 0x80) = true ∧
      AMap.sortedFrom 0 (cached true).llc = true ∧
      (∃ w, ({ onStream .sc with parts := [(0, { Partition.reset with waymask := 0xFFFF })] } : State).fillWay (frameLine 0x2000) 0xFFFF = some w) :=
  have way : ∃ w, ({ onStream .sc with parts := [(0, { Partition.reset with waymask := 0xFFFF })] } : State).fillWay (frameLine 0x2000) 0xFFFF = some w :=
    ⟨0, rfl⟩
  by
    refine ⟨rfl, rfl, ok_of_check (by decide +kernel), ?_⟩
    and_intros
    all_goals first | exact way | decide +kernel

/-- A miss that waits at the walker pool of its stack, whose turn it is. -/
theorem witness_CachesAndScans_walk :
    let w : Walk := { stack := 0, core := 0, part := 0, mx := 0, va := 0x2000 }
    (({ onStream .sc with walks := [w] } : State).walks.find? fun w => w.core == 0 && w.mx == 0 && w.va == (0x2008 : Word).toNat / 4096 * 4096) = some w ∧
      ({ onStream .sc with walks := [w] } : State).walkDue w = true ∧ ({ onStream .sc with walks := [w] } : State).homeServes w.part = true := by
  decide +kernel

def scanOf (s : State) (g : Segment) : Except (Nat × Nat) (List Nat) :=
  scanSegment g.sec g.level (wordsOf g.sec.wordBytes (g.len / g.sec.wordBytes) (s.segBytes g)) (g.badFrame.map fun k => 4096 * k / g.sec.wordBytes)

theorem witness_CachesAndScans_scan :
    (scanned []).segs.find 0 = some toScan ∧ (scanned []).writeInFlight toScan.frames = false ∧
      (∀ f ∈ toScan.frames, (scanned []).homeReady (4096 * f) = true) ∧ (∀ f ∈ toScan.frames, (scanned []).badIn (4096 * f) 4096 = none) ∧
      (scanned []).paUp toScan.recPa 64 = true ∧ (∃ b, scanOf (scanned [0xFF, 0xFF, 0xFF, 0xFF]) toScan = .error b) ∧
      ∃ hs, scanOf (scanned [0x01, 0x00, 0x08, 0x00, 0x03, 0x00, 0x10, 0x04]) toScan = .ok hs :=
  ⟨by decide, by decide +kernel, by decide +kernel, by decide +kernel, by decide +kernel, error_of_check (by decide +kernel), ok_of_check (by decide +kernel)⟩

/-- A request to an IO page. -/
def ioReq (op : ReqOp) (pa : Nat) (dest : Option (BitVec 5)) : Req := { req0 op pa dest with io := true }

/-- A load and a store of the aperture, stores to a channel page of micro-context 0 at offsets 0, 8 and 0x18, and a load of MCSUM. -/
theorem witness_IoAccesses :
    (requested [ioReq (.load 8) (apertureBase + 0x48) (some 1)]).due (ioReq (.load 8) (apertureBase + 0x48) (some 1)) = true ∧
      (requested [ioReq (.load 8) (apertureBase + 0x48) (some 1)]).dueChanStore 1 = none ∧
      ioPlace apertureBase = .aperture 0 ∧ ioPlace (apertureBase + 0x40) = .aperture 0x40 ∧
      (requested [ioReq (.store 8 1) (apertureBase + 0x40) none]).due (ioReq (.store 8 1) (apertureBase + 0x40) none) = true ∧
      (requested [{ ioReq (.store 8 1) (apertureBase + 0x40) none with ref := none }]).due
        { ioReq (.store 8 1) (apertureBase + 0x40) none with ref := none } = true ∧
      (requested [ioReq (.store 8 0) ioBase none]).dueChanStore 1 = some (ioReq (.store 8 0) ioBase none, 0, 0, 0) ∧
      (requested [ioReq (.store 8 5) (ioBase + 8) none]).dueChanStore 1 = some (ioReq (.store 8 5) (ioBase + 8) none, 0, 8, 5) ∧
      (requested [ioReq (.store 8 5) (ioBase + 0x18) none]).dueChanStore 1 = some (ioReq (.store 8 5) (ioBase + 0x18) none, 0, 0x18, 5) ∧
      (256 : Word).toNat / 2 ^ 8 % 2 ^ 24 ≠ 0 ∧ ioPlace (healthBase + 0x28) = .health 0x28 ∧
      ((requested [ioReq (.load 8) (healthBase + 0x28) (some 1)]).reqs.find? fun r => r.io &&
        (requested [ioReq (.load 8) (healthBase + 0x28) (some 1)]).due r && ioPlace r.pa == .health 0x28 &&
          (match r.op with | .load _ => true | _ => false)) = some (ioReq (.load 8) (healthBase + 0x28) (some 1)) := by decide +kernel

/-- A doorbell that is refused at once, and one whose template's page translates and whose home serves. -/
theorem witness_IoAccesses_bell :
    (requested []).bellOpen 0 0 256 = true ∧ (((requested []).mx 0).chan 0).refuses 0 = false ∧
      (waking 0x2040).bellOpen 0 0 0 = true ∧ (((waking 0x2040).mx 0).chan 0).refuses 0 = false ∧ (requested []).bellOpen 0 0 0 = true := by
  decide +kernel

/-! Messages, arenas, dispatch, scrubs and events -/

/-- An empty request for micro-context 0 and its tag under the key and IV of zeros (chapter 14). -/
def hello : List Byte :=
  [0x00, 0x80, 0, 0, 28, 0, 0, 0, 0, 0, 0, 0, 0, 0, 0, 0, 0, 0, 0, 0, 0, 0, 0, 0, 0, 0, 0, 0,
   68, 158, 180, 168, 223, 18, 193, 225, 10, 166, 75, 190, 90, 69, 28, 40]

theorem witness_RequestsAndReplies :
    msgHdrBad (1 :: hello) = true ∧ msgHdrBad hello = false ∧ (onStream .sc).msgTarget 0 hello = some 0 ∧
      (onStream .sc).msgTarget 0 (0 :: 0 :: hello.drop 2) = none ∧ ((onStream .sc).mx 0).st ≠ .free ∧ ((onStream .sc).mx 0).st ≠ .faulted ∧
      ((onStream .sc).part 0).paused = false ∧ (onStream .sc).msgOpen 0 hello = some [] ∧ (onStream .sc).msgOpen 0 (hello.take 43 ++ [41]) = none ∧
      msgFwd hello = false ∧ (onStream .sc).portDown.contains 3 = false ∧
      (({ onStream .sc with parts := [(0, { Partition.reset with paused := true })] } : State).part 0).paused = true := by decide +kernel

theorem witness_RequestsAndReplies_append :
    (∃ t, (mapped (onStream .sc)).append 0 3 [] [] (some { port := 3, flow := 0, sess := 0 }) = .ok t) ∧
      (placedAt (mapped (onStream .sc)) 0x8000 [1]).append 0 3 [] [] (some { port := 3, flow := 0, sess := 0 }) = .full ∧
      (∃ t, (mapped (onStream .sc)).append 0 5 [] [0, 0, 0, 0] none = .ok t) ∧
      (placedAt (mapped (onStream .sc)) 0x8000 [1]).append 0 5 [] [0, 0, 0, 0] none = .full ∧
      (mapped (onStream .sc)).ringUp 0 = true ∧ (mapped (onStream .sc)).scaleOpenFor 0 = true ∧ (mapped (onStream .sc)).scaleOpenFor 15 = true :=
  ⟨append_of_check (by decide +kernel), full_of_check (by decide +kernel), append_of_check (by decide +kernel), full_of_check (by decide +kernel),
    by decide +kernel, by decide +kernel, by decide +kernel⟩

theorem witness_RequestsAndReplies_fault :
    Appended.isFault ((onStream .sc).append 0 3 [] [] (some { port := 3, flow := 0, sess := 0 })) = true := by decide +kernel

/-- A reply of 64 bytes from the window's first bytes, with its status word on page 2. -/
def emit0 : Emit :=
  { id := 6, ref := ref0, cls := 0, scope := 0, tag := 3, fin := false, entry := 0x8000, n := 1, off := 0, gens := [⟨0, 0, 1⟩], statVa := 0x2000,
    stat := page 0x2000 }
/-- The entry is live, and its request came by port 2. -/
def replying (live : Bool) : State :=
  ({ placedAt (copying []) 0x8000 (if live then [2] else []) with emits := [emit0] }).setMx 0
    { (copying []).mx 0 with origins := [(0, { port := 2, flow := 0, sess := 9 })] }

theorem witness_RequestsAndReplies_reply :
    (replying true).emits.find? (fun e => e.id == 6) = some emit0 ∧ (replying true).homeReady (emit0.stat.paOf emit0.statVa) = true ∧
      (replying true).slotOf ref0 = some (0, 0) ∧ (replying false).liveEntry 0 0x8000 = none ∧ (replying true).liveEntry 0 0x8000 = some 0 ∧
      AMap.find ((replying true).mx 0).origins 0 = some { port := 2, flow := 0, sess := 9 } ∧ (replying true).portDown.contains 2 = false ∧
      (replying true).spOwned emit0.ref emit0.gens 0 1 = some [0] ∧
      (replying false).frameSealed (emit0.stat.paOf emit0.statVa / 4096) = false ∧ ((replying false).part 0).dlog = false ∧
      (replying true).statusReady emit0 = true ∧ (replying true).replySlot emit0 = true ∧ (replying false).statusReady emit0 = true ∧
      (replying false).replySlot emit0 = true := by decide +kernel

def desc0 : KvDesc :=
  { arena := 0, layer := 0, flags := 0, slot := 0, nsqm1 := 0, pos := 192, count := 0, data := 0, aux := 0, mask := BitVec.ofNat 64 (2 ^ 63), h0 := 0,
    nhm1 := 0, mkind := 0, subop := 0, win := 0, nq := 0, ltop := 0 }
def kv0 : KvCmd :=
  { id := 2, ref := ref0, op := 0x33, d := desc0, tag := 3, rq := 0, ns := false, cls := 0, scope := 0, seqs := [], img := 0, nt := 0, pbase := 0, doch := 0,
    pages := [], thr := 0, gens := [], query := none, resume := none, waiting := [], started := false, mgen := 0, record := 0 }
def query0 : Query :=
  { arena := 0, layer := 0, ord := false, split := false, out32 := false, h0 := 0, nh := 1, mkind := 0, win := 0,
    rows := [{ slot := 0, pq := 0, ds := 0, npos := 1 }], q := [List.replicate 64 0],
    pages := [{ slot := 0, page := 0, kind := .loc, mask := 1, left := [0] }], states := [none], flags := 0, tierMet := 0 }
def kving (l : List KvCmd) (x : Arena) : State :=
  { withArena (onStream .ld) x with kvs := l, ready := UnitId.chiplet :: (onStream .ld).ready }

/-- KV.DROP of the last position of the slot's page, of one beyond MAXPOS, and in a shared page; a free block; a query; a page coming in. -/
theorem witness_KvCommandsPerform :
    (kving [kv0] arena0).kv 2 = some kv0 ∧ (kving [kv0] arena0).kvReady kv0 = true ∧
      (kving [kv0] arena0).hasTurn 4 0 (kving [kv0] arena0).kvParts = true ∧ kv0.started = false ∧
      (kving [kv0] arena0).arenas.find 0 = some arena0 ∧ ({ kving [kv0] arena0 with arenas := [] } : State).arenas.find 0 = none ∧
      (∀ i, i < 64 → desc0.mask.getLsbD i = true → desc0.pos + i < arena0.maxpos ∧ (arena0.kindOf 0 (desc0.pos + i)).isShared = false) ∧
      arena0.maxpos ≤ 193 + 63 ∧
      (({ arena0 with pages := [(0, { Page.reset with kind := .shared 0 })] } : Arena).kindOf 0 255).isShared = true ∧
      (kving [kv0] arena0).slotOf kv0.ref = some (0, 0) ∧ kvOkStatus 0 = true ∧
      (({ arena0 with sbref := [(0, (0, true))] } : Arena).sbref.find 0).isSome = true ∧
      ({ arena0 with sbref := [(0, (0, true))] } : Arena).refs 0 = 0 ∧ (∀ k ∈ [kv0], k.query = none) ∧
      query0.takeable (0 / max 1 query0.units) (0 % max 1 query0.units) = true ∧ query0.pages[0]?.isSome = true ∧
      (kving [{ kv0 with started := true, query := some query0 }] arena0).hasTurn 10 0
        (kving [{ kv0 with started := true, query := some query0 }] arena0).engineParts = true ∧
      (({ arena0 with pages := [(0, { Page.reset with kind := .tier cxlBase, pagingIn := true })] } : Arena).page 0 0).pagingIn = true := by
  decide +kernel

/-- The rows of the query's page can be read, or one of their blocks is bad. -/
theorem witness_KvCommandsPerform_read :
    (query0.spans arena0 0 0).any (kving [] arena0).recBad = false ∧ (query0.spans arena0 0 0).isEmpty = false ∧
      (query0.spans arena0 0 0).any ({ kving [] arena0 with attnBad := List.range 4096 } : State).recBad = true := by decide +kernel

/-- Every CXL port is ready, and a page of slot 0 comes in. -/
def pagingIn0 : State :=
  { kving [] { arena0 with pages := [(0, { Page.reset with kind := .tier cxlBase, pagingIn := true })] } with
    ready := [.cxlPort 0, .cxlPort 1, .cxlPort 2, .cxlPort 3] }

theorem cxlReady {s : State} (h : s.ready = [.cxlPort 0, .cxlPort 1, .cxlPort 2, .cxlPort 3]) (pa : Nat) (c : isCxl pa = true) :
    s.homeReady pa = true := by
  have hh : hbmEnd = 736000000000 := rfl
  have hb : cxlBase = 0x100000000000 := rfl
  have he : cxlEnd = 0x200000000000 := rfl
  have h4 : flashBase = 0x040000000000 := rfl
  have h5 : flashEnd ≤ cxlBase := by decide +kernel
  have c' := c
  simp only [isCxl, decide_eq_true_eq] at c'
  have f : isFlash pa = false := by simp only [isFlash, decide_eq_false_iff_not]; omega
  have b : ¬ pa < hbmEnd := by omega
  simp [State.homeReady, homeUnit, f, b, c, h]
  omega

theorem witness_KvCommandsPerform_tier :
    pagingIn0.paUp cxlBase (256 * arena0.recBytes) = true ∧ pagingIn0.hasTurn 9 (pagingIn0.tenantPart 0) pagingIn0.copyPathParts = true ∧
      (∀ k ∈ pagingIn0.kvs, k.started = false ∨ k.d.arena ≠ 0) := by
  have up : pagingIn0.paUp cxlBase (256 * arena0.recBytes) = true := by
    have f : isFlash cxlBase = false := by decide +kernel
    have c : ∀ i, i < (cxlBase + 256 * arena0.recBytes + 4095) / 4096 - cxlBase / 4096 → isCxl (4096 * (cxlBase / 4096 + i)) = true := by
      decide +kernel
    simp only [State.paUp, f, Bool.false_eq_true, if_false]
    exact List.all_eq_true.2 fun i hi => cxlReady rfl _ (c i (List.mem_range.1 hi))
  refine ⟨up, ?_, by decide⟩
  have e : pagingIn0.copyPathParts = [pagingIn0.tenantPart 0] := by
    simp only [State.copyPathParts, pagingIn0, kving, withArena, List.filter, List.any]
    simp only [pagingIn0, kving, withArena] at up
    rw [show (256 * ({ arena0 with pages := [(0, { Page.reset with kind := .tier cxlBase, pagingIn := true })] } : Arena).recBytes)
      = 256 * arena0.recBytes from rfl, up]
    rfl
  rw [e]
  decide +kernel

/-- A READY micro-context whose launch record has been read, with a request in its ring and the column at hand. -/
def readied : State :=
  (placedAt (mapped { onStream .sc with
      cores := [], ready := (List.range 10).map .hbm ++ (List.range 64).map (UnitId.column 0) }) 0x8000 [1]).setMx 0
    { Mx.reset with st := .ready, s1root := 0x12000, rbase := 0x8000, evaddr := 0x9000, lr := some placedLaunch, reserved := some (0, 0) }

theorem witness_DispatchAndReports :
    (onStream .sc).waitingOrder = [] ∧ (readied.setMx 0 { readied.mx 0 with reserved := none }).waitingOrder = [0] ∧
      (readied.mx 0).reserved = some (0, 0) ∧ readied.returnFirst 0 = false ∧ (readied.key (readied.mx 0).kslot).st ≠ 2 ∧ (readied.part (readied.mx 0).part).pausing = false ∧ (readied.mx 0).st = .ready ∧
      (readied.mx 0).team = none ∧ (readied.mx 0).lr = some placedLaunch ∧ readied.groupFits 0 placedLaunch (0, 0) = true ∧
      readied.holdsRequest 0 = true ∧ readied.bindOpen 0 placedLaunch = true := by decide +kernel

theorem witness_DispatchAndReports_up :
    ∃ t, (({ readied with parts := [(0, { active0 with cola := 1 })] } : State).setMx 0 { readied.mx 0 with reserved := none }).takeUp 0 = some t :=
  Option.isSome_iff_exists.1 (by decide +kernel)

/-- A bound micro-context with a deadline at the present cycle, and a launch of one layer, read at binding, whose order list is at 0x5000. -/
def budgeted (l : List (Option (Nat × Nat))) : State :=
  (placedAt (mapped (onStream .sc)) 0x5000 [0, 0x60, 0, 0, 0, 0, 0, 0, 0, 0x10, 0, 0, 0, 0, 0, 0]).setMx 0
    { (mapped (onStream .sc)).mx 0 with
      period := 1, deadline := 100000,
      team := some { lr := { placedLaunch with lorder := 0x5000, nlayers := 1, ckpt := true }, stack := 0, col := 0, outer := [], layers := l } }

theorem witness_DispatchAndReports_time :
    let s := budgeted []
    (s.mx 0).st ≠ .free ∧ (s.mx 0).edf = true ∧ (s.mx 0).deadline.toNat ≤ s.dclk.toNat ∧ (s.mx 0).rem = 0 ∧ (s.mx 0).overran = false ∧
      (s.mx 0).ranOut = false ∧ ((s.setMx 0 { s.mx 0 with ranOut := true }).mx 0).ranOut = true ∧ s.homeServes (s.mx 0).part = true := by decide +kernel

/-- A SAVED micro-context whose image stands in the stores of the group that it is bound to again. -/
theorem witness_DispatchAndReports_saved :
    let s := ((imaged .saved image0).setStream 0 0 Stream.reset).setMx 0 { (imaged .saved image0).mx 0 with reserved := some (0, 0) }
    let t : Team := { lr := placedLaunch, stack := 0, col := 0, outer := [], layers := [] }
    let u : State := { s with ready := s.ready ++ (List.range 64).map (UnitId.column 0), parts := [(0, { active0 with cola := 1 })] }
    (u.part (u.mx 0).part).pausing = false ∧ u.returnFirst 0 = false ∧ (u.key (u.mx 0).kslot).st ≠ 2 ∧ (u.mx 0).reserved = some (0, 0) ∧
      (u.mx 0).st = .saved ∧ (u.mx 0).team = some t ∧ u.groupFits 0 t.lr (0, 0) = true ∧ (u.mx 0).image = some image0 ∧ image0.inShutter = true := by
  decide +kernel

/-- The team has overrun, and micro-context 1 waits for its group. -/
def overrun0 : State :=
  ({ budgeted [] with parts := [(0, { active0 with cola := 1 })] }.setMx 0 { (budgeted []).mx 0 with overran := true, ranOut := true }).setMx 1
    { Mx.reset with st := .ready, lr := some placedLaunch }

theorem witness_DispatchAndReports_overrun :
    (overrun0.mx 0).st = .bound ∧ (overrun0.mx 0).edf = true ∧ (overrun0.mx 0).rem = 0 ∧ (overrun0.mx 0).overran = true ∧ (overrun0.mx 0).ending = none ∧
      overrun0.wantedByOther 0 = true ∧ overrun0.permitted 0 = some .ckpt := by decide +kernel

/-- An entry that cannot be read, one whose range does not translate, and one that does. -/
theorem witness_DispatchAndReports_cold :
    (budgeted []).layerList 0 { placedLaunch with lorder := 0x5000, nlayers := 1 } = [some (0x6000, 4096)] ∧
      (∀ l ∈ [[none], [some (0x40000000, 4096)], [some (0x6000, 4096)]], ∃ t, ((budgeted l).mx 0).team = some t ∧ ((budgeted l).mx 0).st = .bound ∧
        ((budgeted l).mx 0).ending = none ∧ t.mayFill ((budgeted l).mx 0).coldHigh ((budgeted l).mx 0).coldNext = true ∧
        t.layers.getD ((budgeted l).mx 0).coldNext none = l.getD 0 none) ∧
      (budgeted [some (0x40000000, 4096)]).layerPages 0 (4096 / 4096) 0x40000000 = none ∧
      ∃ ps, (budgeted [some (0x6000, 4096)]).layerPages 0 (4096 / 4096) 0x6000 = some ps ∧
        ∀ p ∈ ps, (budgeted [some (0x6000, 4096)]).layerWaits p = false := by
  refine ⟨by decide +kernel, ?_, by decide +kernel, ?_⟩
  · intro l hl
    refine ⟨_, rfl, rfl, rfl, ?_, rfl⟩
    revert l
    decide +kernel
  · have h : (((budgeted [some (0x6000, 4096)]).layerPages 0 (4096 / 4096) 0x6000).any fun ps =>
        ps.all fun p => !(budgeted [some (0x6000, 4096)]).layerWaits p) = true := by decide +kernel
    obtain ⟨ps, h1, h2⟩ := (Option.any_eq_true _ _).1 h
    exact ⟨ps, h1, fun p hp => by simpa using List.all_eq_true.1 h2 p hp⟩

def scrub0 : Scrub :=
  { id := 4, mx := 0, tenant := 0, cores := [0], slots := [(0, 1)], banks := [(0, 1)], shuts := [(0, 64)], cws := [0], mull := [], cache := false, start := 0, dest := some 1, allPanes := true }

/-- Table 18.10: a notice of system software sets bit 0, HKD, and leaves the others; one of another generation is discarded. -/
theorem test_notice :
    ((onHk.setMx 1 { Mx.reset with st := .idle, gen := 3, pebits := 2 }).raiseNotice 1 3).mx 1 =
        { Mx.reset with st := .idle, gen := 3, pebits := 3, pegen := 3 } ∧
      ((onHk.setMx 1 { Mx.reset with st := .idle, gen := 3 }).raiseNotice 1 2).mx 1 = { Mx.reset with st := .idle, gen := 3 } := by
  decide +kernel

theorem witness_ScrubsKeysAndEvents_notice :
    onHk.booted = true ∧ ({ onHk with agenda := [{ cycles := 2, move := .notice 1 3 }] } : State).sorted = [{ cycles := 2, move := .notice 1 3 }] ∧
      (onHk.mx 1).st = .free ∧ ((onHk.setMx 1 { Mx.reset with st := .idle, gen := 3 }).mx 1).st = .idle ∧
      (onHk.setMx 1 { Mx.reset with st := .idle, gen := 3 }).booted = true ∧
      ((onHk.setMx 1 { Mx.reset with st := .idle, gen := 3 }).mx 1).gen.toNat = 3 := by
  decide +kernel

theorem witness_ScrubsKeysAndEvents :
    ({ onHk with scrubs := [scrub0] } : State).scrubs.find? (fun c => c.id == 4) = some scrub0 ∧ scrub0.least ≤ onHk.dclk.toNat - scrub0.start ∧
      onHk.dclk.toNat - ({ scrub0 with start := 100000 } : Scrub).start < ({ scrub0 with start := 100000 } : Scrub).least ∧
      (∀ e ∈ (onHk.setKey 7 { KeySlot.reset with st := 2 }).llc, ¬ (e.2.retiring = true ∧ e.2.outgoing = 0)) ∧
      (onHk.setKey 7 { KeySlot.reset with st := 2 }).mxs = [] ∧ ((onHk.setKey 7 { KeySlot.reset with st := 2 }).key 7).st = 2 ∧
      ({ Hk.reset with ten := true } : Hk).phase = .waiting ∧ onHk.events = [] ∧ ({ onHk.hk with halted := true } : Hk).halted = true ∧
      ({ onHk with shutPend := [(24, ([], 1))] } : State).shutPend.find 24 = some ([], 1) ∧ onHk.ltb.toNat / 8192 < 1 ∧
      ¬ ({ onHk with ltb := 8192 } : State).ltb.toNat / 8192 < 1 ∧ AMap.sortedFrom 0 ({ onHk with shutPend := [(24, ([], 1))] } : State).shutPend = true := by
  decide +kernel

/-! Commands, installs, tiers, hardware events and accesses from outside -/

/-- An arena descriptor that passes (chapter 11, Table 11.2): one layer, one head of 64, one slot of 256 positions. -/
def arenaDesc : List Byte :=
  [0, 0, 0, 0, 0, 0, 0, 0x41, 1, 1, 0, 0, 0, 0, 0x80, 0x3F, 0, 0x40, 0x1C, 0x46, 0, 0, 0, 0] ++ leBytes 8 0 ++ leBytes 8 0x10000 ++ leBytes 4 0x100
    ++ leBytes 4 256 ++ leBytes 4 1 ++ leBytes 4 0 ++ leBytes 8 0 ++ leBytes 4 0 ++ List.replicate 60 0

theorem pickFree_first (u : Nat) : pickFree 4096 [] 1 u = some (u % 4096) := rfl

theorem witness_ManagementCommands_registry :
    (commanded onHk 2 [0]).running 0x02 = true ∧ ({ commanded onHk 2 [0] with segs := [(0, placedSegment .sc false)] } : State).segs.find
        ((commanded onHk 2 [0]).argA 0) = some (placedSegment .sc false) ∧ (∀ m ∈ (placedSegment .sc false).fetched, ((onHk).mx m).st.inUse = false) ∧
      (commanded onHk 3 [0, 0x3000]).running 0x03 = true ∧ (commanded onHk 3 [0, 0x3000]).paUnwritable 0x3000 32 = false ∧
      (commanded onHk 4 [0]).running 0x03 = false ∧
      (commanded onHk 1 [0, 0x3000, 4, 0x3000]).running 0x01 = true ∧ (commanded onHk 1 [0, 0x3000, 4, 0x3000]).segs = [] ∧
      segIllFormed (sectionOf ((commanded onHk 1 [0, 0x3000, 4, 0x3000]).argA 0 / 2 ^ 16 % 4)) 0x3000 4 = false ∧
      pickFree 4096 [] 1 (Config.freeValue 0).toNat = some ((Config.freeValue 0).toNat % 4096) ∧
      (commanded onHk 0x10 [4095, 0x3000]).running 0x10 = true ∧ (commanded onHk 0x10 [4095, 0x3000]).argA 0 < 4096 ∧
      (commanded onHk 0x10 [4095, 0x3000]).paFails 0x3000 128 = false ∧
      arenaFault ((placedAt (commanded onHk 0x10 [4095, 0x3000]) 0x3000 arenaDesc).peek 0x3000 128) = none ∧
      (commanded onHk 0x10 [4095, 0x3000]).arenas.find 4095 = none := by
  and_intros
  all_goals first | decide +kernel | exact pickFree_first _

theorem witness_ManagementCommands_pages :
    ((commanded (mapped (onStream .sc)) 1 [0, 0x3000, 4, 0x3000]).segPages 0 false (ceilDiv 4 4096) 0x3000).isSome = true := by decide +kernel

theorem witness_ManagementCommands_arena :
    (commanded (withArena onHk arena0) 0x11 [0]).running 0x11 = true ∧ (commanded (withArena onHk arena0) 0x11 [0]).arenaInUse arena0 = false ∧
      (commanded (withArena onHk arena0) 0x13 [0, 9]).running 0x13 = true ∧ arena0.docs.contains (9 : Word) = false ∧
      (commanded (withArena onHk { arena0 with docs := [9] }) 0x14 [0, 9]).running 0x14 = true ∧
      (commanded (withArena onHk arena0) 0x15 [0, 262144]).running 0x15 = true ∧ (commanded (withArena onHk arena0) 0x15 [0, 262144]).argA 1 = 262144 ∧
      arena0.inside 0 0 = true ∧ arena0.inside 1 0 = false ∧ arena0.pagePinned 0 0 = false ∧
      (commanded (withArena onHk arena0) 0x12 [0, cxlBase]).running 0x12 = true ∧ isCxl cxlBase = true ∧ cxlBase % 4096 = 0 ∧
      onHk.hasTurn 9 15 (15 :: onHk.copyPathParts) = true ∧
      ({ onHk with cxlPop := 1048576 } : State).populated cxlBase = true ∧
      ({ onHk with cxlPop := 1048576 } : State).populated (cxlBase + 256 * arena0.recBytes - 1) = true ∧
      (({ arena0 with pages := [(0, { Page.reset with kind := .empty })] } : Arena).page 0 0).kind ≠ .loc ∧
      (arena0.pageRecs 0 0).any (commanded (withArena onHk arena0) 0x12 [0, cxlBase]).recBad = false ∧
      (arena0.page 0 0).kind = .loc ∧ (commanded (withArena onHk arena0) 0x16 [0]).running 0x16 = true ∧ arena0.repair.find 0 = none ∧
      (∀ i, i < ceilDiv (256 * arena0.recBytes) 4096 → onHk.frameLocked (cxlBase / 4096 + i) = false) ∧
      ({ onHk with segs := [(0, { placedSegment .sc false with frames := [cxlBase / 4096] })] } : State).frameLocked (cxlBase / 4096 + 0) = true := by
  decide +kernel

theorem witness_SystemCommands_flow :
    AMap.get [] (commanded onHk 0x20 [16383, 5]).flows (flowBucket (commanded onHk 0x20 [16383, 5]).flowArg) = [] ∧
      (commanded onHk 0x20 [16383, 5]).running 0x20 = true ∧ (commanded onHk 0x20 [16383, 5]).argA 0 < 16384 ∧
      (commanded onHk 0x20 [16383, 5]).flowArg.toNat / 2 ^ 8 % 2 ^ 24 = 0 ∧ (commanded onHk 0x21 [0, 5]).running 0x21 = true ∧
      (∃ e ∈ AMap.get [] (AMap.put ([] : AMap (List (BitVec 320 × Nat))) 7 [((5 : BitVec 320), 0)]) 7, e.1 = 5) :=
  ⟨by decide +kernel, by decide +kernel, by decide +kernel, rfl, by decide +kernel, ⟨(5, 0), by decide, rfl⟩⟩

theorem witness_SystemCommands :
    (commanded onHk 0x30 [15, 0x3000]).running 0x30 = true ∧ (commanded onHk 0x30 [15, 0x3000]).paFails 0x3000 56 = false ∧
      partFault ((commanded onHk 0x30 [15, 0x3000]).peek 0x3000 56) = none ∧
      (commanded onHk 0x31 [24, 0x3000]).running 0x31 = true ∧
      (∀ i, i < 64 → fieldLe ((commanded onHk 0x31 [24, 0x3000]).peek 0x3000 256) (4 * i) 4 / 2 ^ 4 % 2 ^ 27 = 0) ∧
      (commanded onHk 0x32 [0, 0x3000]).running 0x32 = true ∧ (commanded onHk 0x40 [65535, 0x3000]).running 0x40 = true ∧
      (commanded onHk 0x41 [16383, 0x3000, 0x4000]).running 0x41 = true ∧ (commanded onHk 0x41 [16383, 0x3000, 0x4000]).paUnwritable 0x4000 192 = false ∧
      ({ commanded onHk 0 [] with aperture := { (commanded onHk 0 []).aperture with ran := true } } : State).aperture.busy = true ∧
      (commanded onHk 0x50 []).aperture.ran = false ∧ (commanded onHk 0x50 []).cmdArg 0 ∉ assignedCodes ∧ (onHk.part 15).dlog = false := by decide +kernel

/-- A partition that runs, and one that is paused. -/
def parted (c : Nat) (l : List Nat) (paused : Bool) : State := commanded { onHk with parts := [(0, { active0 with paused := paused })] } c l

theorem witness_SystemCommands_migration :
    (parted 0x33 [0] false).migPart = some 0 ∧ (parted 0x33 [0] false).running 0x33 = true ∧ ((parted 0x33 [0] false).part 0).pausing = false ∧
      (parted 0x34 [0] true).running 0x34 = true ∧ ((parted 0x34 [0] true).part 0).paused = true ∧ (parted 0x34 [0] true).mxsOf 0 = [] ∧
      ((parted 0x34 [0] true).part 0).heldMsgs = [] ∧ (parted 0x35 [0, 0x3000] true).running 0x35 = true ∧
      (parted 0x36 [0, 0x3000] false).running 0x36 = true := by decide +kernel

/-- INSTALL: a descriptor of zeros (its completion record in page 3 of the window's stream), one of a query and one of a release. -/
def installing (l : List Byte) : State := inSp (withA (onStream .ld) [(0, 0x2000)]) 0x2000 l
def installDesc (op : Byte) (len : Nat) : List Byte :=
  [op, 0, 0, 0] ++ leBytes 4 len ++ leBytes 8 (if op = 0 then 0x3000 else 0) ++ leBytes 8 0x3000 ++ List.replicate 40 0

def wseg0 : WSeg :=
  { scope := 0, key := 0, hash := 0, fpa := flashBase, lenu := 1, refs := 1, segw := 0, segrfr := 0, lost := [], checks := [] }

def checkedInstall (s : State) (p : List Byte → Bool) : Bool := match s.installCheck 0 with | .ok (l, _) => p l | .error _ => false

theorem check_install {s : State} {p : List Byte → Bool} (h : checkedInstall s p = true) : ∃ l cp, s.installCheck 0 = .ok (l, cp) ∧ p l = true := by
  unfold checkedInstall at h
  split at h
  · next l cp e => exact ⟨l, cp, e, h⟩
  · cases h

theorem witness_Installs :
    (∃ f, (withA (onStream .ld) [(0, 0x2001)]).installCheck 0 = .error f) ∧
      (∃ l cp, (installing (installDesc 3 0)).installCheck 0 = .ok (l, cp) ∧ (installFault l).isSome = true) ∧
      (∃ l cp, (installing (installDesc 1 0)).installCheck 0 = .ok (l, cp) ∧
        ((installFault l).isNone && fieldLe l 0 1 == 1 && fieldLe l 2 2 != 0xFFFF) = true) ∧
      (∃ l cp, (installing (installDesc 2 0)).installCheck 0 = .ok (l, cp) ∧ ((installFault l).isNone && fieldLe l 0 1 == 2) = true) ∧
      ({ installing [] with wsegs := [(0, wseg0)] } : State).segFor 0 0 = some wseg0 ∧ (installing []).segFor 0 0 = none :=
  ⟨error_of_check (by decide +kernel), check_install (by decide +kernel), check_install (by decide +kernel), check_install (by decide +kernel),
    by decide +kernel, by decide +kernel⟩

/-- An install of one extent from page 2, which shares segment 0; and the hash of 64 KiB of zeros is whatever SM3 gives. -/
def install0 : Install :=
  { id := 9, ref := ref0, cls := 0, scope := 0, tag := 3, iscope := 0, wake := false, lenu := 0, src := 0x2000, pages := [page 0x2000], cr := 0x3000,
    crPage := page 0x3000, hash := 0, share := some 0, wsn := 1, fpa := flashBase, readDone := false, data := [], bytes := 0, relocated := false,
    placed := [], abort := 0 }
def installed (i : Install) (w : WSeg) : State := { onStream .ld with installs := [i], wsegs := [(0, w)] }

theorem witness_Installs_end :
    (installed install0 wseg0).installs.find? (fun i => i.id == 9) = some install0 ∧ (installed install0 wseg0).sourceUp install0 = true ∧
      (∃ l, (installed install0 wseg0).installSource install0 = .ok l) ∧
      (installed { install0 with readDone := true, share := none, hash := 1 } wseg0).verifyFail = 0 ∧
      (installed { install0 with readDone := true, share := none, hash := 1 } wseg0).segWithHash 0 0 1 = none ∧
      (installed { install0 with readDone := true } wseg0).wsegs.find 0 = some wseg0 ∧
      (installed { install0 with readDone := true, share := none } wseg0).segWithHash 0 0 0 = some (0, wseg0) ∧ wseg0.lost = [] ∧
      (installed install0 wseg0).homeServes ((installed install0 wseg0).mx 0).part = true :=
  ⟨by decide +kernel, by decide +kernel, ok_of_check (by decide +kernel), by decide +kernel, by decide +kernel, by decide +kernel, by decide +kernel,
    rfl, by decide +kernel⟩

def Programmed.isOk : Programmed → Bool
  | .ok .. => true
  | _ => false

/-- Programming that succeeds, and that finds no spare block; the flash stacks are ready, and no refresh is due. -/
theorem witness_Installs_program :
    let s := installed { install0 with share := none } wseg0
    Programmed.isOk (s.programAll [] false [0, 1, 2, 3]) = true ∧
      Programmed.isOk ({ s with progFail := 1, sparesUsed := (List.range 4).map fun k => (blkSpare k, sparesPerStack) }.programAll [] false [0]) = false ∧
      ({ s with ready := (List.range 4).map .flash } : State).flashUp = true ∧ s.refreshFirst = false ∧
      ({ wseg0 with lost := [15] } : WSeg).lostKeys = [3] ∧ ({ s with verifyFail := 1 } : State).verifyFail ≠ 0 := by decide +kernel

theorem witness_Installs_new :
    (∃ l cp, (installing (installDesc 0 1)).installCheck 0 = .ok (l, cp) ∧ ((installFault l).isNone && fieldLe l 0 1 == 0) = true) ∧
      (∃ ps, ((onStream .ld).setCore 0 { core0 with tlb := [{ page 0x30000 with size := 65536, page1 := (0x30000, 65536), page2 := (0x30000, 65536) }] }).translateRows
        (some 0) 0 .read 0 extBytes [(0, 0x30000)] [] = .ok ps) ∧
      ({ onStream .ld with wsegs := [(0, { wseg0 with scope := 2 })] } : State).segWithHash 0 2 0 = some (0, { wseg0 with scope := 2 }) ∧
      (onStream .ld).segWithHash 0 2 0 = none ∧ (onStream .ld).devUseAfter extBytes ≤ 62259 ∧
      62259 < ({ onStream .ld with devw := 12000000000000000 } : State).devUseAfter extBytes ∧
      ({ onStream .ld with wsegs := [(0, { wseg0 with lenu := flashExtents })] } : State).reserve 1 = none := by
  refine ⟨check_install (by decide +kernel), ok_of_check (by decide +kernel), by decide +kernel, by decide +kernel, by decide +kernel,
    by decide +kernel, ?_⟩
  have h : ¬ (flashExtents + 0 + 1 ≤ flashExtents ∧ (1 : Nat) < 65535) := by omega
  simp only [State.reserve]
  split
  · rw [if_neg]
    intro hc
    have := hc.1
    simp [State.flashRanges, onStream, State.reset] at this
  · rfl

/-- A place for a segment of one extent: which one, free values say. -/
theorem witness_Installs_reserve : ∃ n fpa, (onStream .ld).reserve 1 = some (n, fpa) := by
  have e : (onStream .ld).flashRanges = [] := rfl
  have w : (onStream .ld).wsnUsed = [] := rfl
  have g : (onStream .ld).flashHeld = [] := by decide +kernel
  have r : ∀ u, u < regionExtents → fitFrom [] 1 3 u = some u := by
    intro u hu
    have : ¬ regionExtents < u + 1 := by omega
    simp [fitFrom, this]
  have h : (Config.freeValue ((onStream .ld).fresh + 1)).toNat % regionExtents < regionExtents := Nat.mod_lt _ (by decide +kernel)
  have p : ∀ u, pickFree 65535 [] 1 u = some (u % 65535) := fun _ => rfl
  have c : (0 : Nat) + 1 ≤ flashExtents := by decide +kernel
  simp only [State.reserve, e, w, g, List.append_nil, List.length_nil, Nat.mul_zero, Nat.zero_add, r _ h, p, List.map_nil, List.sum_nil]
  rw [if_pos ⟨c, by decide⟩]
  exact ⟨_, _, rfl⟩

/-- Two leaves of one partition: of a frame in HBM and of one in the CXL tier. -/
def leaves : State :=
  { placedAt (placedAt onHk 0x6000 [0x0F, 0x70]) 0x6008 (leBytes 8 (cxlBase + 15)) with
    parts := [(0, active0)], cxlPop := 1048576,
    ready := onHk.ready ++ [.cxlPort 0, .cxlPort 1, .cxlPort 2, .cxlPort 3] }

theorem witness_TiersAndFlash :
    (leaves.leafAt 0x6000).isSome = true ∧ ((leaves.leafAt 0x6000).map fun l => (l.1, l.2.1)) = some (0x7000, 4096) ∧
      ((leaves.leafAt 0x6008).map fun l => (l.1, l.2.1)) = some (cxlBase, 4096) ∧ leaves.exchange = none ∧ (leaves.part 0).active = true ∧
      0x7000 < hbmEnd ∧ isCxl cxlBase = true ∧ leaves.anyLocked 0x7000 4096 = false ∧ leaves.anyLocked cxlBase 4096 = false ∧
      leaves.leafAt 0x6010 = none ∧
      leaves.exchangeHeld { part := 0, leafA := 0x6000, leafB := 0x6008, frameA := 0x7000, frameB := cxlBase, size := 4096, ownerA := [0], ownerB := [0] } = false ∧
      replicas 0x6000 4096 = [0x6000] ∧ (0x6000 : Nat) + 8 ≤ 0x6008 ∧ 0x6008 ∈ replicas 0x6000 8192 ∧
      leaves.homeReady 0x7000 = true := by decide +kernel

theorem witness_TiersAndFlash_home : leaves.homeReady cxlBase = true := by
  have f : isFlash cxlBase = false := by decide +kernel
  have b : ¬ cxlBase < hbmEnd := by decide +kernel
  have c : isCxl cxlBase = true := by decide +kernel
  have r : leaves.ready = onHk.ready ++ [.cxlPort 0, .cxlPort 1, .cxlPort 2, .cxlPort 3] := rfl
  simp [State.homeReady, homeUnit, f, b, c, r]
  omega

def exchange0 : Exchange :=
  { part := 0, leafA := 0x6000, leafB := 0x6008, frameA := 0x7000, frameB := cxlBase, size := 4096, ownerA := [0], ownerB := [0] }

/-- Extent 0 of segment 0 in block 0 of stack 0, worn and read; block 1 is a worn free one. -/
def flashed (reads erases : Nat) (bad : List Nat) : State :=
  { onHk with
    wsegs := [(0, { wseg0 with checks := [(0, 7)] })], fmap := [(0, 0)], badBlks := bad,
    erase := [(0, { EraseBlk.reset with reads := reads, next := 1 }), (1, { EraseBlk.reset with erases := erases })],
    ready := (List.range 4).map .flash }

theorem witness_TiersAndFlash_flash :
    ((flashed 499999 0 []).eraseBlk 0 0).reads < 500000 ∧ 500000 ≤ ((flashed 500000 0 []).eraseBlk 0 0).reads ∧ (flashed 0 0 []).extentsIn 0 0 = [0] ∧
      (0, ({ EraseBlk.reset with next := 1 } : EraseBlk)) ∈ (flashed 0 201 []).usedBlks 0 ∧
      (1, ({ EraseBlk.reset with erases := 201 } : EraseBlk)) ∈ (flashed 0 201 []).usedBlks 0 ∧
      (flashed 0 200 []).wornUnevenly 0 = false ∧ (flashed 0 201 []).wornUnevenly 0 = true ∧
      (flashed 0 0 []).segOfExtent 0 = some (0, { wseg0 with checks := [(0, 7)] }) ∧ (flashed 0 0 []).flashUp = true ∧ (flashed 0 0 []).badOf 0 = [] ∧
      (flashed 0 0 []).staging.contains 0 = false ∧ (flashed 0 0 [flashBase / 64]).badOf 0 = [flashBase / 64] ∧
      ({ flashed 0 0 [] with ready := [] } : State).flashUp = false := by decide +kernel

/-- The data of extent 0 is whatever its segment's check value says. -/
theorem witness_TiersAndFlash_refetch (l : List Byte) (h : l = List.replicate 65536 0) :
    ({ flashed 0 0 [] with ready := [], wsegs := [(0, { wseg0 with checks := [(0, checkValue l)] })] } : State).segOfExtent 0 =
        some (0, { wseg0 with checks := [(0, checkValue l)] }) ∧
      AMap.find ({ wseg0 with checks := [(0, checkValue l)] } : WSeg).checks (0 - (wseg0.fpa - flashBase) / 65536) = some (checkValue l) ∧
      l.length = 65536 := by
  refine ⟨?_, ?_, by rw [h, List.length_replicate]⟩
  · simp [State.segOfExtent, State.wsegAt, wseg0, extBytes]
  · simp [AMap.find]

theorem witness_HardwareEvents :
    onHk.events.length < 1024 ∧ ({ onHk with retiring := [65] } : State).retiring.contains (64 * 1 + 1) = true ∧
      ({ onHk with retiring := [65] } : State).columnReleased 1 1 = true ∧ onHk.spareUsed 4 < 8 ∧
      ({ onHk with retiring := [65] } : State).nextSpare 1 = some 64 ∧
      ({ onHk with retiring := [65], badCols := (List.range 8).map (192 + ·) } : State).nextSpare 1 = none ∧
      ({ onHk with retiring := [65], badCols := (List.range 8).map (192 + ·) } : State).columnLosable 1 1 = true ∧
      ({ onHk with sparesUsed := [(4, 7)] } : State).spareUsed 4 = 7 ∧ onHk.spareUsed (4 * 63 + 2) = 0 ∧ unitExists (.hbm 9) = true ∧
      unitExists (.hbm 10) = false ∧ 7 * 2 ^ 13 / 2 ^ 13 % 8 = 7 ∧ onHk.periodicDone 0 = false ∧ (onHk.tier 0).level = 0 ∧
      0 < (({ onHk with tiers := [(0, { Tier.reset with level := 7 })] } : State).tier 0).level ∧
      ({ onHk with hk := { onHk.hk with phase := .ended } } : State).hk.phase = .ended := by decide +kernel

/-- The ring of thermal records in HBM, a spare row left and none, and a sensor that reads 3 °C below its threshold where that is 0. -/
theorem witness_HardwareEvents_ring :
    let s : State := { onHk with thermalRing := some (0x40000, 16) }
    s.paUnwritable (thermalSlot (0x40000, 16) s.thermals.length) 32 = false ∧ onHk.spareUsed (4 * 9 + 1) < 512 ∧
      (9, HbmPlace.row 7) ∉ onHk.hbmMap ∧ 512 ≤ ({ onHk with sparesUsed := [(37, 512)] } : State).spareUsed (4 * 9 + 1) ∧
      onHk.spareUsed (4 * (64 + 9)) < 1 ∧ ({ onHk with sparesUsed := [(292, 1)] } : State).spareUsed (4 * (64 + 9)) = 1 ∧
      onHk.mayStep 0 = true ∧ ({ onHk with tiers := [(0, { Tier.reset with lastStep := some 91809 })] } : State).mayStep 0 = false ∧
      ({ onHk with tiers := [(0, { Tier.reset with lastStep := some 91808 })] } : State).mayStep 0 = true := by decide +kernel

/-- Core 0, whose window of pane 0 is open. -/
def rowsAt (f : Core → Core) : State := ({ onStream .cm with dclk := 511 } : State).setCore 0 (f (({ onStream .cm with dclk := 511 } : State).core 0))

/-- A pane and a shutter store with a lost block, or with 15 or 16 corrected errors in a row; all the spare rows used; and a core that a thermal
record names. -/
theorem witness_LeavesAndSwings_rows :
    (∀ f ∈ [id, fun c => { c with cw := { c.cw with bad0 := [3] } }, fun c => { c with shutBad := [3] },
        fun c => { c with rowErrs := List.replicate 16 (0 == 1, 7, 0) }, fun c => { c with shutErrs := List.replicate 16 (7, 0) },
        fun c => { c with rowErrs := List.replicate 15 (0 == 1, 7, 0) }, fun c => { c with shutErrs := List.replicate 15 (7, 0) },
        fun c => { c with rows := (List.range 64).map fun r => (0 == 1, r) }],
      inWindow (0 == 1) ((rowsAt f).refreshTimer 0) = true ∧ (∀ e ∈ ((rowsAt f).core 0).streams, e.2.swing = none)) ∧
      ((rowsAt fun c => { c with cw := { c.cw with bad0 := [3] } }).core 0).cw.bad (0 == 1) = [3] ∧
      ((rowsAt fun c => { c with shutBad := [3] }).core 0).shutBad = [3] ∧ ((rowsAt id).core 0).shutRows = [] ∧ ((rowsAt id).core 0).rows = [] ∧
      ((rowsAt fun c => { c with rowErrs := List.replicate 16 (0 == 1, 7, 0) }).core 0).rowErrs = List.replicate 16 (0 == 1, 7, 0) ∧
      ((rowsAt fun c => { c with shutErrs := List.replicate 16 (7, 0) }).core 0).shutErrs = List.replicate 16 (7, 0) ∧
      (rowsAt id).dclk.toNat < 0 + 3600 * 800000000 ∧
      64 ≤ ((((rowsAt fun c => { c with rows := (List.range 64).map fun r => (0 == 1, r) }).core 0).rows.filter fun r => r.1 == (0 == 1)).map (·.2)).length ∧
      ((rowsAt fun c => { c with shutBad := [3] }).core 0).shutCarried.contains 3 = false ∧
      (((rowsAt fun c => { c with cw := { c.cw with bad0 := [3] } }).core 0).cw.carried (0 == 1)).contains 3 = false ∧
      inWindow (0 == 1) ((onStream .cm).refreshTimer 0) = false ∧ sensorCore (0 % 65536) = some 0 ∧ (onStream .cm).boundOn 0 = some 0 := by
  and_intros
  · simp only [List.forall_mem_cons, List.not_mem_nil, false_implies, implies_true, and_true]
    and_intros
    all_goals decide +kernel
  all_goals decide +kernel

/-- Staged extents of shares 0 and 3, and a slot of the system partition on a UALink port. -/
theorem witness_TiersAndFlash_share :
    let s : State := { flashed 0 0 [] with staging := [0], wsegs := [(0, { wseg0 with scope := 1, key := 3 })] }
    0 ∈ s.staging ∧ s.stageShare 0 ≠ s.stageShare 1 ∧
      (flashed 0 0 []).scaleOpen = true ∧
      ((flashed 0 0 []).wsegs.find? fun x => x.2.hash == 0 && decide (0 < x.2.lenu) && (x.2.scope == 2 || (x.2.scope == 0 && x.2.key == 0))) =
        some (0, { wseg0 with checks := [(0, 7)] }) ∧ ({ flashed 0 0 [] with peerDus := [1] } : State).peerDus ≠ [] := by decide +kernel

theorem witness_OutsideAccesses :
    onHk.hostOpen = true ∧ ({ onHk with shut := [] } : State).hostOpen = false ∧
    onHk.scaleOpen = true ∧ ({ onHk with shut := [] } : State).scaleOpen = false ∧
    onHk.homesReady (hbmEnd - 8) 8 = true ∧ onHk.rangeLocked (hbmEnd - 8) 8 = false ∧ onHk.badIn (hbmEnd - 8) 8 = none ∧
      hbmEnd - 8 + 8 ≤ hbmEnd ∧ hbmEnd < hbmEnd - 8 + 9 ∧ isCxl (hbmEnd - 8) = false := by decide +kernel

/-! Further clauses: each with a state of its own -/

/-- A terminal fault of a stream whose micro-context is FAULTED already. -/
theorem witness_FaultsAreRecorded_again :
    terminalCode 0x0E = true ∧ (((onStream .sc).setMx 0 { bound0 with st := .faulted }).mx
        ((onStream .sc).setMx 0 { bound0 with st := .faulted }).myMx).st = .faulted ∧
      ((onStream .sc).mx (onStream .sc).myMx).st ≠ .faulted ∧ ((onStream .sc).setMx 0 { bound0 with st := .faulted }).cur = .seq (seqOf .sc) := by
  decide +kernel

/-- CSEL of the housekeeping processor names core 0, which is enabled, or one that is not. -/
theorem witness_ControlRegisterReads_core :
    onHk.coreEnabled onHk.hk.csel.toNat = true ∧
      ({ onHk with hk := { onHk.hk with csel := 0x48 } } : State).coreEnabled 0x48 = false ∧
      ((0x000 : BitVec 15).toNat ∈ [0x000, 0x030, 0x031, 0x032, 0x033, 0x034, 0x038, 0x041, 0x042]) := by decide +kernel

/-- LAUNCH of a descriptor on page 2: bad, remote, local to micro-context 1, which is FREE, and local to 0. -/
def launching (l : List Byte) : State := withG (placedAt (onStream .sc) 0x2000 l) [(1, 0x2000)]
def launchDesc (l : List Byte) : List Byte := l ++ List.replicate (64 - l.length) 0

theorem witness_TensorsAndLaunches_launch :
    (∀ l ∈ [[1, 64], [0, 0, 1], [1], [0]], (launching l).scalarRead ((launching l).g 1).toNat 64 64 = .ok (launchDesc l)) ∧
      launchBad (launchDesc [1, 64]) = true ∧
      (launchBad (launchDesc [0, 0, 1]) = false ∧ bit (fieldLe (launchDesc [0, 0, 1]) 2 1) 0 = true ∧
        ((launching [0, 0, 1]).touchMine 0x2000 64).launchData 0 0 = .ok []) ∧
      (launchBad (launchDesc [1]) = false ∧ bit (fieldLe (launchDesc [1]) 2 1) 0 = false ∧
        (((launching [1]).touchMine 0x2000 64).mx (fieldLe (launchDesc [1]) 0 2)).st = .free) ∧
      launchBad (launchDesc [0]) = false ∧ (((launching [0]).touchMine 0x2000 64).mx 0).st ≠ .free ∧
      (((launching [0]).touchMine 0x2000 64).mx 0).st ≠ .faulted ∧
      (((launching [0]).touchMine 0x2000 64).mx 0).tenant =
        (((launching [0]).touchMine 0x2000 64).mx ((launching [0]).touchMine 0x2000 64).myMx).tenant ∧
      (((launching [0]).touchMine 0x2000 64).mx 0).part = (((launching [0]).touchMine 0x2000 64).mx ((launching [0]).touchMine 0x2000 64).myMx).part := by
  simp only [List.forall_mem_cons, List.not_mem_nil, false_implies, implies_true, and_true]
  and_intros
  all_goals decide +kernel

theorem witness_TensorsAndLaunches_data :
    ((launching [0]).touchMine 0x2000 64).launchData 0 0 = .ok [] ∧
      (∃ f, ((launching [0]).touchMine 0x2000 64).launchData 0x40000000 64 = .error f) ∧
      (∃ t, ((mapped (launching [0])).touchMine 0x2000 64).append 0 4 [] [0, 0, 0, 0] none = .ok t) ∧
      ((placedAt (mapped (launching [0])) 0x8000 [1]).touchMine 0x2000 64).append 0 4 [] [0, 0, 0, 0] none = .full ∧
      ((launching [0]).touchMine 0x2000 64).append 0 4 [] [0, 0, 0, 0] none = .fault :=
  ⟨by decide +kernel, error_of_check (by decide +kernel), append_of_check (by decide +kernel), full_of_check (by decide +kernel),
    fault_of_check (by decide +kernel)⟩

/-- MXSAVE `.free` of a micro-context that is SAVED, PAUSED, and PAUSED with its image exported. -/
theorem witness_MxsaveModes_free :
    ∀ x ∈ [{ Mx.reset with st := .saved }, { Mx.reset with st := .paused }, { Mx.reset with st := .paused, exported := true }],
      (onHk.setMx 0 x).saveMx 0 = 0 ∧ (onHk.setMx 0 x).mx 0 = x ∧ (onHk.setMx 0 x).cur = .hk ∧ ((onHk.setMx 0 x).g 0).toNat % 64 = 0 ∧
        (onHk.setMx 0 x).paUnwritable ((onHk.setMx 0 x).g 0).toNat 256 = false := by
  simp only [List.forall_mem_cons, List.not_mem_nil, false_implies, implies_true, and_true]
  and_intros
  all_goals decide +kernel

/-- The stream of core 0 with its CM sequencer before a header, with the lease or without it. -/
def waitingCm (h : Header) (f : Seqr → Seqr) (holder : Option Nat) : State :=
  withLease (withMe (onStream .cm) fun x =>
    { x with cm := f { seqAt with phase := .waiting, left := 0, hdr := h }, ld := Seqr.reset, sc := Seqr.reset, st := Seqr.reset })
    fun l => { l with holder := holder, start := 100000 }
/-- A header with LEASE, of four matrix words; and one with LEAVE 1. -/
def leased : Header := { header0 with lease := true, mcnt := 4 }
def leaving : Header := { header0 with leave := 1 }

/-- A block that has the lease or the leave it needs, and the choice of the sequencer. -/
theorem witness_BlockAdmissionAndEnds_granted :
    ∀ e ∈ [(leased, waitingCm leased id (some 0)), (leaving, waitingCm leaving (fun y => { y with leaveHeld := some 1 }) none)],
      e.2.mayLook (e.2.strm (seqOf .cm)) .cm = true ∧ (e.2.seqr (seqOf .cm)).reached = true ∧ (e.2.seqr (seqOf .cm)).hdr = e.1 ∧
      tokensOk (e.2.strm (seqOf .cm)) .cm e.1 = true ∧ tagsOk (e.2.strm (seqOf .cm)) e.1 = true ∧ e.2.barrierWait 0 0 e.1 = .ok ∧
      e.2.leaseOk 0 0 e.1 = true ∧ (e.1.leave = 0 ∨ (e.2.seqr (seqOf .cm)).leaveHeld = some e.1.leave) ∧
      (e.2.setSeqr (seqOf .cm) { e.2.seqr (seqOf .cm) with since := some ((e.2.seqr (seqOf .cm)).since.getD e.2.dclk.toNat) }).unitBusy 0 .cm = false ∧
      (e.2.setSeqr (seqOf .cm) { e.2.seqr (seqOf .cm) with since := some ((e.2.seqr (seqOf .cm)).since.getD e.2.dclk.toNat) }).pick 0 .cm = some 0 ∧
      (e.2.strm (seqOf .cm)).pendingOf (consumedTags (e.2.strm (seqOf .cm)) e.1) = none := by
  simp only [List.forall_mem_cons, List.not_mem_nil, false_implies, implies_true, and_true]
  and_intros
  all_goals first | exact .inl rfl | exact .inr rfl | decide +kernel

/-- A block whose lease another stream holds, and blocks that have not, or have, asked for their leave. -/
theorem witness_BlockAdmissionAndEnds_asked :
    ((waitingCm leased id (some 1)).needLease (seqOf .cm) leased).leaseOk 0 0 leased = false ∧
      (waitingCm leased id (some 1)).barrierWait 0 0 leased = .ok ∧ ((waitingCm leased id (some 1)).seqr (seqOf .cm)).hdr = leased ∧
      (waitingCm leaving id none).leaseOk 0 0 leaving = true ∧ leaving.leave ≠ 0 ∧
      ((waitingCm leaving id none).seqr (seqOf .cm)).leaveHeld ≠ some leaving.leave ∧
      (waitingCm leaving id none).barrierWait 0 0 leaving = .ok ∧
      ((waitingCm leaving (fun y => { y with leaveAsked := some 9 }) none).seqr (seqOf .cm)).leaveAsked.isSome = true ∧
      (waitingCm leaving (fun y => { y with leaveAsked := some 9 }) none).leaseOk 0 0 leaving = true := by decide +kernel

/-- A block that ends with a token to push: its accesses performed, or one outstanding, or an older push of the queue. -/
theorem witness_BlockAdmissionAndEnds_push :
    let s := withMe (onStream .sc) fun x => { x with sc := { seqAt with left := 0, pushP := 1 }, tq := [((pushQueues .sc).1, ⟨1, 1, 0⟩)] }
    (s.seqr (seqOf .sc)).pushP = 1 ∧ s.effectsDone (seqOf .sc) s.nextId = true ∧ (∀ p ∈ (s.strm (seqOf .sc)).pushes, p.queue ≠ (pushQueues .sc).1) ∧
      ({ s with reqs := [{ id := 0, ref := some ref0, mx := 0, op := .store 8 7, va := 0x2000, pa := 0x2000, ipa := 0x2000, enc := false, page := none,
                           io := false, cls := 0, scope := 0, acq := 0, rel := 0, win := [], dest := none, bw := none, performed := false, result := 0,
                           err := none, unit := none, merged := [], into := none, fwd := false }], nextId := 1 } : State).effectsDone (seqOf .sc) 1 = false ∧
      (∃ p ∈ (((withMe s fun x => { x with pushes := [⟨(pushQueues .sc).1, 1, true, .sc, 0⟩] }).strm (seqOf .sc)).pushes),
        p.queue = (pushQueues .sc).1) :=
  ⟨by decide +kernel, by decide +kernel, by decide +kernel, by decide +kernel, ⟨_, .head _, rfl⟩⟩

/-- A drain of an image of no pages beside its header, in one held page without ENC. -/
def draining : State :=
  (imaged .saved image0).setMx 0
    { (imaged .saved image0).mx 0 with drain := some { pages := [page 0x20000], kind := .ckpt, gen := 1, stamp := 0, bytes := 0, tgrp := 0 } }

theorem witness_SavesAndReturns_drain :
    (draining.mx 0).drain = some { pages := [page 0x20000], kind := .ckpt, gen := 1, stamp := 0, bytes := 0, tgrp := 0 } ∧
      draining.areaOpen 0 (heldSpans [page 0x20000] 0x20000 (0 + 4096)) = true ∧ (draining.mx 0).savea.toNat = 0x20000 ∧ 0x20000 % 4096 = 0 ∧
      ([page 0x20000].find? fun e => decide (e.va ≤ 0x20000 ∧ 0x20000 < e.va + e.size)) = some (page 0x20000) ∧ (page 0x20000).enc = false ∧
      (page 0x20000).paOf 0x20000 % 64 = 0 ∧ (draining.part (draining.mx 0).part).dlog = false ∧ draining.shutBad 0 = false ∧
      savedPage.areaOpen 0 (savedPage.vaSpans none 0 (savedPage.mx 0).savea.toNat 4096) = true := by decide +kernel

/-- A request for a micro-context of a paused partition; its append otherwise; and the place of a remote launch. -/
theorem witness_RequestsAndReplies_hold :
    let s : State := { onStream .sc with parts := [(0, { active0 with paused := true })] }
    s.portDown.contains 3 = false ∧ msgHdrBad hello = false ∧ s.msgTarget 0 hello = some 0 ∧ (s.mx 0).st ≠ .free ∧ (s.mx 0).st ≠ .faulted ∧
      (s.part (s.mx 0).part).paused = true ∧ (mapped (onStream .sc)).msgTarget 0 hello = some 0 ∧ (mapped (onStream .sc)).ringUp 0 = true ∧
      ((mapped (onStream .sc)).part ((mapped (onStream .sc)).mx 0).part).paused = false ∧ ((mapped (onStream .sc)).mx 0).st ≠ .free ∧
      ((mapped (onStream .sc)).mx 0).tenant.toNat = 0 ∧ ((mapped (onStream .sc)).mx 0).part = 0 ∧
      (mapped (onStream .sc)).scaleOpenFor ((mapped (onStream .sc)).mx 0).part = true ∧ 0 = fieldLe (List.replicate 64 (0 : Byte)) 0 2 % 16384 := by
  decide +kernel

/-- KV.DROP with ALL of a slot whose page is not pinned, and of one whose page is. -/
def dropAll : KvCmd := { kv0 with d := { desc0 with flags := 2 } }
theorem witness_KvCommandsPerform_all :
    (∀ x ∈ [arena0, { arena0 with pages := [(0, { Page.reset with kind := .loc, pins := 1 })] }],
      (kving [dropAll] x).kv 2 = some dropAll ∧ (kving [dropAll] x).kvReady dropAll = true ∧
        (kving [dropAll] x).hasTurn 4 0 (kving [dropAll] x).kvParts = true ∧ (kving [dropAll] x).arenas.find 0 = some x) ∧
      dropAll.d.flags.getLsbD 1 = true ∧ dropAll.started = false ∧ arena0.pinned 0 (arena0.slotPages 0) = false ∧
      ({ arena0 with pages := [(0, { Page.reset with kind := .loc, pins := 1 })] } : Arena).pinned 0
        (({ arena0 with pages := [(0, { Page.reset with kind := .loc, pins := 1 })] } : Arena).slotPages 0) = true := by
  simp only [List.forall_mem_cons, List.not_mem_nil, false_implies, implies_true, and_true]
  and_intros
  all_goals decide +kernel

/-- Where nothing waits and no resource has served yet, each partition's request has every turn. -/
theorem turn_of_quiet {s : State} (hr : s.reqs = []) (hc : s.copies = []) (ht : s.turns = []) (p : Nat) (hp : p < 16) (l : List Nat) :
    s.turnAt p l = true := by
  refine List.all_eq_true.2 fun k _ => ?_
  have w : s.waitingAt k = [] := by simp [State.waitingAt, State.copiesAt, hr, hc]
  have g : AMap.get 15 s.turns k = 15 := by rw [ht]; rfl
  simp only [State.hasTurn, State.nextTurn, w, g]
  revert p
  decide +kernel

/-- The turn of a fill at its home, a slot for a line of a way, and weak blocks of a pane and of a shutter store. -/
theorem witness_CachesAndScans_turns :
    (onStream .sc).turnAt ((onStream .sc).mx 0).part (rangeResources 0x2000 1) = true ∧ (cached true).wayServed (line0 true).way
        (dirtyResources ((cached true).llc.filter fun e => e.2.line e.1 == (line0 true).line 0x80)) = true ∧
      (((onStream .sc).core 0).cw.bad true).contains 3 = false ∧
      (16 * (2 * 0 + true.toNat) + 3, 3) ∈ ({ onStream .sc with weak := [(19, 3)] } : State).weak ∧
      ((onStream .sc).core 0).shutBad.contains 5 = false ∧ (16 * 0 + 4, 5) ∈ ({ onStream .sc with weak := [(4, 5)] } : State).weak := by decide +kernel

/-- Turns at the CXL ports for a page-in and a page-out, at the homes of a layer's pages, and at the flash stacks. -/
theorem witness_turns :
    pagingIn0.turnAt (pagingIn0.tenantPart arena0.tenant) (rangeResources cxlBase (256 * arena0.recBytes)) = true ∧
      (commanded (withArena onHk arena0) 0x12 [0, cxlBase]).turnAt 15 (rangeResources cxlBase (256 * arena0.recBytes)) = true ∧
      (budgeted [some (0x6000, 4096)]).turnAt ((budgeted [some (0x6000, 4096)]).mx 0).part
        (spanResources ((((budgeted [some (0x6000, 4096)]).layerPages 0 (4096 / 4096) 0x6000).getD []).map fun p => (p.pa, 4096))) = true ∧
      (budgeted [some (0x6000, 4096)]).homeServes ((budgeted [some (0x6000, 4096)]).mx 0).part = true ∧
      (flashed 0 0 []).turnAt ((flashed 0 0 []).stagePart 0) flashResources = true ∧ onHk.turnAt 15 flashResources = true ∧
      onHk.turnAt 15 (rangeResources (hbmEnd - 8) 8) = true ∧
      (cached true).turnAt ((cached true).tenantPart (line0 true).outgoing) (dirtyResources [(0x80, line0 true)]) = true :=
  ⟨turn_of_quiet rfl rfl rfl _ (by decide +kernel) _, turn_of_quiet rfl rfl rfl _ (by decide) _, turn_of_quiet rfl rfl rfl _ (by decide +kernel) _,
    by decide +kernel, turn_of_quiet rfl rfl rfl _ (by decide +kernel) _, turn_of_quiet rfl rfl rfl _ (by decide) _,
    turn_of_quiet rfl rfl rfl _ (by decide) _, turn_of_quiet rfl rfl rfl _ (by decide +kernel) _⟩

/-- The exchange engine reads the two leaves, and moves the frames. -/
theorem witness_TiersAndFlash_engine :
    leaves.engineOpen 0 [(0x6000, 8), (0x6008, 8)] = true ∧ leaves.engineOpen exchange0.part exchange0.spans = true := by
  have h : leaves.homeServes 0 = true := by decide +kernel
  have up : leaves.paUp cxlBase 4096 = true := by
    have f : isFlash cxlBase = false := by decide +kernel
    have n : (cxlBase + 4096 + 4095) / 4096 - cxlBase / 4096 = 1 := by decide +kernel
    have e : 4096 * (cxlBase / 4096 + 0) = cxlBase := by decide +kernel
    simp only [State.paUp, f, Bool.false_eq_true, if_false, n]
    rw [show List.range 1 = [0] from rfl, List.all_cons, e, witness_TiersAndFlash_home]
    rfl
  have k : exchange0.spans = [(0x7000, 4096), (cxlBase, 4096), (0x6000, 8), (0x6008, 8)] := by decide +kernel
  have t : ∀ l, leaves.turnAt 0 l = true := fun l => turn_of_quiet rfl rfl rfl _ (by decide) l
  have a : leaves.paUp 0x7000 4096 = true := by decide +kernel
  have b : leaves.paUp 0x6000 8 = true := by decide +kernel
  have d : leaves.paUp 0x6008 8 = true := by decide +kernel
  refine ⟨?_, ?_⟩
  · simp only [State.engineOpen, List.all_cons, List.all_nil, b, d, h, t, Bool.and_self]
  · rw [k, show exchange0.part = 0 from rfl]
    simp only [State.engineOpen, List.all_cons, List.all_nil, a, up, b, d, h, t, Bool.and_self]

/-- SEGREG of a page by its physical address, and by a virtual one whose walk waits for no home. -/
theorem witness_ManagementCommands_walks :
    bit ((commanded onHk 1 [2 ^ 20, 0x3000, 4, 0x3000]).argA 0) 20 = true ∧
      (∀ k, k < ceilDiv 4 4096 → (commanded (mapped (onStream .sc)) 1 [0, 0x3000, 4, 0x3000]).walkStalls none 0 (0x3000 + 4096 * k) = false) := by
  decide +kernel

/-- Every HBM stack, every CXL port and every flash stack is ready. -/
def allUp (s : State) : State :=
  { s with ready := (List.range 10).map .hbm ++ (List.range 4).map .cxlPort ++ (List.range 4).map .flash, stageBad := [], llcBad := [], badBlks := [],
           staging := [], llc := [], wsegs := [] }

theorem allUp_homeReady (s : State) (pa : Nat) (f : isFlash pa = false) : (allUp s).homeReady pa = true := by
  simp only [State.homeReady, f, Bool.false_eq_true, if_false]
  split
  · next u h =>
    have r : (allUp s).ready = (List.range 10).map .hbm ++ (List.range 4).map .cxlPort ++ (List.range 4).map .flash := rfl
    rw [r]
    simp only [homeUnit, f, Bool.false_eq_true, if_false] at h
    simp only [List.contains_eq_mem, List.mem_append, List.mem_map, List.mem_range, decide_eq_true_eq]
    split at h
    · obtain rfl := Option.some.inj h
      exact .inl (.inl ⟨_, Nat.mod_lt _ (by decide), rfl⟩)
    · split at h
      · obtain rfl := Option.some.inj h
        exact .inl (.inr ⟨_, Nat.mod_lt _ (by decide), rfl⟩)
      · cases h
  · rfl

/-- A migration image of any length at 0x3000 that ends below the flash region has its homes ready. -/
theorem witness_SystemCommands_image (n : Nat) (h : 0x3000 + n + 4095 ≤ flashBase) :
    (allUp (parted 0x35 [0, 0x3000] true)).paUp ((allUp (parted 0x35 [0, 0x3000] true)).argA 1) n = true ∧
      (allUp (parted 0x36 [0, 0x3000] false)).paUp ((allUp (parted 0x36 [0, 0x3000] false)).argA 1) n = true := by
  have a : (allUp (parted 0x35 [0, 0x3000] true)).argA 1 = 0x3000 := by decide +kernel
  have b : (allUp (parted 0x36 [0, 0x3000] false)).argA 1 = 0x3000 := by decide +kernel
  have f : isFlash 0x3000 = false := by decide +kernel
  have g : ∀ i, i < (0x3000 + n + 4095) / 4096 - 0x3000 / 4096 → isFlash (4096 * (0x3000 / 4096 + i)) = false := by
    intro i hi
    simp only [isFlash, decide_eq_false_iff_not]
    omega
  rw [a, b]
  simp only [State.paUp, f, Bool.false_eq_true, if_false]
  exact ⟨List.all_eq_true.2 fun i hi => allUp_homeReady _ _ (g i (List.mem_range.1 hi)),
    List.all_eq_true.2 fun i hi => allUp_homeReady _ _ (g i (List.mem_range.1 hi))⟩

theorem witness_SystemCommands_rounds :
    (allUp (parted 0x35 [0, 0x3000] true)).running 0x35 = true ∧ ((allUp (parted 0x35 [0, 0x3000] true)).part 0).paused = true ∧
      (allUp (parted 0x35 [0, 0x3000] true)).migPart = some 0 ∧ (allUp (parted 0x36 [0, 0x3000] false)).running 0x36 = true ∧
      fieldLe ((placedAt (commanded onHk 0x30 [0, 0x3000]) 0x3022 [1]).peek 0x3000 56) 0x22 2 = 1 := by decide +kernel

/-- An install whose record and source can be served: a sharing one, and one that programs; and a segment with LOST extents that may be rewritten. -/
theorem witness_Installs_open :
    (installed install0 wseg0).recordOpen install0 = true ∧ (installed install0 wseg0).sourceOpen install0 = true ∧
      ({ installed { install0 with share := none } wseg0 with ready := (List.range 10).map .hbm ++ (List.range 4).map .flash } : State).sourceOpen
        { install0 with share := none } = true ∧
      (installed install0 wseg0).rewriteWaits install0 wseg0 = false ∧
      ({ installed install0 { wseg0 with lost := [0] } with ready := (List.range 10).map .hbm ++ (List.range 4).map .flash } : State).rewriteWaits
        install0 { wseg0 with lost := [0] } = false ∧ install0.abort = 0 := by decide +kernel

theorem witness_TiersAndFlash_slots :
    leaves.frameLocked (0x6000 / 4096) = false ∧ leaves.frameLocked (0x6008 / 4096) = false ∧
      ({ flashed 0 0 [] with peerDus := [1], shut := [] } : State).scaleOpen = false ∧ ({ flashed 0 0 [] with peerDus := [1] } : State).scaleOpen = true ∧
      ({ flashed 0 0 [] with peerDus := [1], ready := [] } : State).flashUp = false := by decide +kernel

/-- The home of a thermal record's slot is ready; no record waits for a flash stack; every sensor that is asked reads cool where its threshold is 0. -/
theorem witness_HardwareEvents_homes :
    let s : State := { onHk with thermalRing := some (0x40000, 16) }
    (∀ h, homeUnit (thermalSlot (0x40000, 16) s.thermals.length) = some h → h ∈ s.ready) ∧ UnitId.flash 0 ∉ s.ready ∧
      (∀ r ∈ s.thermals, s.thermalHome r ≠ some (.flash 0)) ∧ onHk.installs = [] ∧ onHk.colOf 0 = some 0 := by
  refine ⟨?_, by decide +kernel, by decide +kernel, rfl, by decide +kernel⟩
  intro h e
  have : homeUnit (thermalSlot (0x40000, 16) ({ onHk with thermalRing := some (0x40000, 16) } : State).thermals.length) = some h := e
  revert this
  have d : ∃ k, k < 10 ∧ homeUnit (thermalSlot (0x40000, 16) ({ onHk with thermalRing := some (0x40000, 16) } : State).thermals.length) = some (.hbm k) := by
    decide +kernel
  obtain ⟨k, hk, e2⟩ := d
  rw [e2]
  intro e3
  obtain rfl := Option.some.inj e3
  exact List.mem_map.2 ⟨k, List.mem_range.2 hk, rfl⟩

/-! The whole machine -/

/-- A step that answers a next state: the device, not booted, boots when its firmware verifies; here, booted, with one move on its agenda. -/
def moving : State := { State.reset with booted := true, agenda := [{ cycles := 1, move := .event .sharedCounterSample }] }

theorem witness_StepKeepsMemoryCanonical : moving.memOk = true ∧ ∃ t, step moving = .next t := ⟨by decide +kernel, ⟨_, rfl⟩⟩

/-! Results the spec prints -/

/-- Chapter 04, "Worked conversion into TSB7": its inputs, FP32 words. -/
def tsbInputs : List XV :=
  (List.range 64).map fun i => decType 12 (if i = 0 then 0x40400000 else if i = 1 then 0xBE200000 else if i = 2 then 0x3C000000
    else if i = 32 then 0x3EC00000 else if i = 33 then 0x3C23D70A else 0)

/-- The printed block, and the element 0x55 of x[33] under RDT with DPH = 8. -/
theorem test_tsb7_conversion :
    blkBytes (encBlk 0x02 Rnd.rne 5 tsbInputs).1 =
        [0x02, 0x81, 0x05, 0x98, 0x90, 0x10, 0x08, 0x04, 0x02, 0x81, 0x40, 0x20, 0x10, 0x08, 0x04, 0x02,
         0x81, 0x40, 0x20, 0x10, 0x08, 0x04, 0x02, 0x81, 0x40, 0x20, 0x10, 0x08, 0x04, 0x02, 0x81, 0x38,
         0x18, 0x2A, 0x10, 0x08, 0x04, 0x02, 0x81, 0x40, 0x20, 0x10, 0x08, 0x04, 0x02, 0x81, 0x40, 0x20,
         0x10, 0x08, 0x04, 0x02, 0x81, 0x40, 0x20, 0x10, 0x08, 0x04, 0x02, 0x81, 0x00, 0x00, 0x00, 0x00] ∧
      (encBlk 0x02 Rnd.rne 5 tsbInputs).2.word = 0 ∧
      Blk.payload (encBlk 0x02 { mode := 4, dph := 8 } 5 tsbInputs).1 / 2 ^ (232 + 8 + 7) % 128 = 0x55 := by decide +kernel

/-- Chapter 05, "Worked K-group": the ACC48 element after it. -/
theorem test_worked_kgroup :
    accumulate 0x3F8000000000
        (blkGroup (BitVec.ofNat 512 (0x8002 + 2 ^ 16 * (0x05 + 2 ^ 8 * (0x0C + 2 ^ 7 * 0x74 + 2 ^ 14 * 0x1F)))) 0)
        (blkGroup (BitVec.ofNat 512 (0x7F01 + 2 ^ 16 * (0x02 + 2 ^ 8 * (3 + 2 ^ 3 * 5 + 2 ^ 6 * 7)))) 0) =
      (0xBEFD00000000, {}) := by decide +kernel

/-- Chapter 08, after R195: 2^-24 added to 1.0 ties to even, 2^-23 does not. -/
theorem test_red_add_rounds :
    (atomicNew 8 4 0x3F800000 0x33800000 0).1 = 0x3F800000 ∧ (atomicNew 8 4 0x3F800000 0x34000000 0).1 = 0x3F800001 ∧
      (atomicNew 8 4 0x33800000 0x33800000 0).1 = 0x34000000 := by decide +kernel

/-- Chapter 06, "choosing packing widths": the deltas, their group maxima and leading zeros, and the widths. -/
def deltas : State :=
  (onStream .cm).setV 2 (BitVec.ofNat 2048 (leNat ([3, 1, 4, 1, 5, 0, 2, 6, 40, 2, 300, 7, 0, 1, 3, 8].flatMap fun n => leBytes 4 n)))
def first3 (o : Host.Outcome State Fault Refusal) (r : BitVec 5) : List Nat :=
  match o with
  | .next t => (List.range 3).map fun e => (t.v r).toNat / 2 ^ (32 * e) % 2 ^ 32
  | _ => []
theorem test_packing_widths :
    decodeWord .cm 0x3900031000C002030000000000000000 = some (.vgred { formV with vd := 3, va := 2, ty := 6, sub := 2, gs := 3 }) ∧
      first3 (exec (.vgred { formV with vd := 3, va := 2, ty := 6, sub := 2, gs := 3 }) deltas) 3 = [6, 300, 0] ∧
      first3 (exec (.vclz { formV with vd := 4, va := 3, ty := 6 })
        ((onStream .cm).setV 3 (BitVec.ofNat 2048 (6 + 300 * 2 ^ 32)))) 4 = [29, 23, 32] := by decide +kernel

/-- Chapter 01: the identifier of core B.2.5.3. -/
theorem test_core_identifier : tierOf 0x032B = 4 + 2 := by decide

/-! The algorithms the spec names by their standards, with the standards' own examples (log 10) -/

/-- GB/T 32905: SM3 of "abc". -/
theorem test_sm3 : sm3 [0x61, 0x62, 0x63] = 0x66C7F0F462EEEDD9D1F2D46BDC10E4E24167C4875CF2F7A2297DA02B8F4BA8E0 := by decide +kernel

/-- GB/T 32907: SM4 of the key itself, and back. -/
theorem test_sm4 :
    sm4Enc 0x0123456789ABCDEFFEDCBA9876543210 0x0123456789ABCDEFFEDCBA9876543210 = 0x681EDF34D206965E86B3E94F536E4246 ∧
      sm4Dec 0x0123456789ABCDEFFEDCBA9876543210 0x681EDF34D206965E86B3E94F536E4246 = 0x0123456789ABCDEFFEDCBA9876543210 := by decide +kernel

/-- CRC-32C of "123456789". -/
theorem test_crc32c : crc32c [0x31, 0x32, 0x33, 0x34, 0x35, 0x36, 0x37, 0x38, 0x39] = 0xE3069283 := by decide +kernel

/-- RFC 8998, appendix A.1: SM4-GCM, its tag. -/
theorem test_sm4_gcm :
    gcmTag 0x0123456789ABCDEFFEDCBA9876543210 0x00001234567800000000ABCD (beBytes 20 0xFEEDFACEDEADBEEFFEEDFACEDEADBEEFABADDAD2)
        (beBytes 64 0x17F399F08C67D5EE19D0DC9969C4BB7D5FD46FD3756489069157B282BB200735D82710CA5C22F0CCFA7CBF93D496AC15A56834CBCF98C397B4024A2691233B8D) =
      0x83DE3541E4C2B58177E065A9BF7B62EC := by decide +kernel

end Sys2Proof.Tests
end

/-! PROOFS. The vector words on integers, and their reductions and scans (chapter 06). -/

namespace Sys2Proof.Machine

open Sys2Proof

/-! The end of a word that changes its stream (R39) -/

/-- Pop-before marks on the stream alone (`State.popBefore`). -/
def Stream.popMarks (x : Stream) (c : Section) (y : Sync) : Stream :=
  let d := x.seqr c
  let np := if y.pbp && decide (0 < d.popP) then 1 else 0
  let nn := if y.pbn && decide (0 < d.popN) then 1 else 0
  ((x.consume (popQueues c).1 np).consume (popQueues c).2 nn).setSeqr c { d with popP := d.popP - np, popN := d.popN - nn }

/-- Tokens produced at once, or later, on the stream alone (`State.push`). -/
def Stream.pushTokens (x : Stream) (ready : Bool) (before : Nat) (c : Section) (k n : Nat) : Stream :=
  if n = 0 then x
  else if ready && !(x.pushes.any fun p => p.queue == k) then x.produce k n
  else { x with pushes := x.pushes ++ [{ queue := k, n := n, settle := false, sec := c, before := before }] }

/-- Push-after marks on the stream alone (`State.pushAfter`). -/
def Stream.pushMarks (x : Stream) (ready : Bool) (before : Nat) (c : Section) (y : Sync) : Stream :=
  let d := x.seqr c
  let np := if y.pap && decide (0 < d.pushP) then 1 else 0
  let nn := if y.pan && decide (0 < d.pushN) then 1 else 0
  ((x.setSeqr c { d with pushP := d.pushP - np, pushN := d.pushN - nn }).pushTokens ready before c (pushQueues c).1 np).pushTokens
    ready before c (pushQueues c).2 nn

/-- All SYNC marks of a word of sequencer `q` on the stream alone, in the device of state `s`. -/
def Stream.syncMarks (x : Stream) (s : State) (q : SeqId) (y : Sync) : Stream :=
  (x.popMarks q.sec y).pushMarks (s.effectsDone q s.nextId) s.nextId q.sec y

theorem State.me_of_seq {s : State} {q : SeqId} (hc : s.cur = .seq q) : s.me = s.strm q := by simp [State.me, hc]

theorem State.setMe_of_seq {s : State} {q : SeqId} (hc : s.cur = .seq q) (x : Stream) : s.setMe x = s.setStrm q x := by
  simp [State.setMe, hc]

theorem State.cur_setStrm (s : State) (q : SeqId) (x : Stream) : (s.setStrm q x).cur = s.cur := rfl

theorem Stream.ref_setSeqr (x : Stream) (c : Section) (d : Seqr) : (x.setSeqr c d).ref = x.ref := by cases c <;> rfl

theorem Stream.ref_popMarks (x : Stream) (c : Section) (y : Sync) : (x.popMarks c y).ref = x.ref := Stream.ref_setSeqr ..

theorem Stream.ref_pushTokens (x : Stream) (r : Bool) (b : Nat) (c : Section) (k n : Nat) : (x.pushTokens r b c k n).ref = x.ref := by
  unfold Stream.pushTokens
  split
  · rfl
  · split <;> rfl

theorem State.effectsDone_setStrm (s : State) (q : SeqId) (x : Stream) (n : Nat) (h : x.ref = (s.strm q).ref) :
    (s.setStrm q x).effectsDone q n = s.effectsDone q n := by
  simp only [State.effectsDone, State.strm_setStrm, h]
  rfl

theorem State.push_setStrm (s : State) (q : SeqId) (x : Stream) (k n : Nat) (h : x.ref = (s.strm q).ref) :
    (s.setStrm q x).push q k n false = s.setStrm q (x.pushTokens (s.effectsDone q s.nextId) s.nextId q.sec k n) := by
  have hid : (s.setStrm q x).nextId = s.nextId := rfl
  simp only [State.push, Stream.pushTokens, State.strm_setStrm, hid, State.effectsDone_setStrm s q x _ h]
  split
  · rfl
  · split <;> simp

theorem State.popBefore_setStrm {s : State} {q : SeqId} (hc : s.cur = .seq q) (x : Stream) (y : Sync) :
    (s.setStrm q x).popBefore y = s.setStrm q (x.popMarks q.sec y) := by
  have h : (s.setStrm q x).cur = .seq q := hc
  simp [State.popBefore, Stream.popMarks, State.mySeq, State.here_of_seq _ _ h, State.me_of_seq h, State.setMe_of_seq h]

theorem State.pushAfter_setStrm {s : State} {q : SeqId} (hc : s.cur = .seq q) (x : Stream) (y : Sync) (href : x.ref = (s.strm q).ref) :
    (s.setStrm q x).pushAfter y = s.setStrm q (x.pushMarks (s.effectsDone q s.nextId) s.nextId q.sec y) := by
  have h : (s.setStrm q x).cur = .seq q := hc
  simp only [State.pushAfter, Stream.pushMarks, State.mySeq, State.setMySeq, State.here_of_seq _ _ h, State.me_of_seq h,
    State.setMe_of_seq h, State.strm_setStrm, State.setStrm_setStrm]
  rw [State.push_setStrm _ _ _ _ _ (by rw [Stream.ref_setSeqr, href]),
    State.push_setStrm _ _ _ _ _ (by rw [Stream.ref_pushTokens, Stream.ref_setSeqr, href])]

theorem State.sync_setStrm {s : State} {q : SeqId} (hc : s.cur = .seq q) (x : Stream) (y : Sync) (href : x.ref = (s.strm q).ref) :
    ((s.setStrm q x).popBefore y).pushAfter y = s.setStrm q (x.syncMarks s q y) := by
  rw [State.popBefore_setStrm hc, State.pushAfter_setStrm hc _ _ (by rw [Stream.ref_popMarks, href])]
  rfl

theorem State.strm_sync {s : State} {q : SeqId} (hc : s.cur = .seq q) (y : Sync) :
    ((s.popBefore y).pushAfter y).strm q = (s.strm q).syncMarks s q y := by
  have h : s.popBefore y = (s.setStrm q (s.strm q)).popBefore y := by
    rw [State.popBefore_setStrm hc]
    simp [State.popBefore, Stream.popMarks, State.mySeq, State.here_of_seq _ _ hc, State.me_of_seq hc, State.setMe_of_seq hc]
  rw [h, State.sync_setStrm hc _ _ rfl, State.strm_setStrm]

/-- `x` and `u` agree in what the SYNC marks of section `c` read. -/
def Stream.SyncEq (c : Section) (x u : Stream) : Prop := x.tq = u.tq ∧ x.pushes = u.pushes ∧ x.seqr c = u.seqr c

/-- `x` with the token queues, the pushes and the reservations of section `c` of `u`. -/
def Stream.withSync (x : Stream) (c : Section) (u : Stream) : Stream :=
  { x with tq := u.tq, pushes := u.pushes }.setSeqr c { x.seqr c with
    popP := (u.seqr c).popP, popN := (u.seqr c).popN, pushP := (u.seqr c).pushP, pushN := (u.seqr c).pushN }

/-- Between `x` and `u` only what SYNC marks of section `c` write has changed. -/
def Stream.OnlySync (c : Section) (x u : Stream) : Prop := u = x.withSync c u

theorem Stream.withSync_withSync (x u v : Stream) (c : Section) : (x.withSync c u).withSync c v = x.withSync c v := by cases c <;> rfl

theorem Stream.withSync_congr (x : Stream) {c : Section} {u v : Stream} (h : Stream.SyncEq c u v) : x.withSync c u = x.withSync c v := by
  obtain ⟨htq, hp, hd⟩ := h
  simp only [Stream.withSync, htq, hp, hd]

theorem Stream.pc_withSync (x u : Stream) (c : Section) : ((x.withSync c u).seqr c).pc = (x.seqr c).pc := by cases c <;> rfl

theorem Stream.left_withSync (x u : Stream) (c : Section) : ((x.withSync c u).seqr c).left = (x.seqr c).left := by cases c <;> rfl

theorem Stream.OnlySync.trans {c : Section} {x u v : Stream} (h : Stream.OnlySync c x u) (h' : Stream.OnlySync c u v) :
    Stream.OnlySync c x v :=
  Eq.trans h' (Eq.trans (congrArg (·.withSync c v) h) (x.withSync_withSync u v c))

theorem Stream.onlySync_popMarks (x : Stream) (c : Section) (y : Sync) : Stream.OnlySync c x (x.popMarks c y) := by
  cases c <;> rfl

theorem Stream.onlySync_pushTokens (x : Stream) (r : Bool) (b : Nat) (c : Section) (k n : Nat) :
    Stream.OnlySync c x (x.pushTokens r b c k n) := by
  unfold Stream.pushTokens
  split_ifs <;> cases c <;> rfl

theorem Stream.onlySync_setSeqr (x : Stream) (c : Section) (i j : Nat) :
    Stream.OnlySync c x (x.setSeqr c { x.seqr c with pushP := i, pushN := j }) := by
  cases c <;> rfl

theorem Stream.onlySync_syncMarks (x : Stream) (s : State) (q : SeqId) (y : Sync) : Stream.OnlySync q.sec x (x.syncMarks s q y) :=
  (x.onlySync_popMarks q.sec y).trans
    (((Stream.onlySync_setSeqr ..).trans (Stream.onlySync_pushTokens ..)).trans (Stream.onlySync_pushTokens ..))

theorem Stream.SyncEq.popMarks {x u : Stream} {c : Section} (h : Stream.SyncEq c x u) (y : Sync) :
    Stream.SyncEq c (x.popMarks c y) (u.popMarks c y) := by
  obtain ⟨htq, hp, hd⟩ := h
  unfold Stream.popMarks Stream.consume Stream.setTok Stream.tok
  rw [hd, htq]
  cases c <;> exact ⟨rfl, hp, rfl⟩

theorem Stream.SyncEq.setSeqr {x u : Stream} {c : Section} (h : Stream.SyncEq c x u) (d : Seqr) :
    Stream.SyncEq c (x.setSeqr c d) (u.setSeqr c d) := by
  obtain ⟨htq, hp, -⟩ := h
  cases c <;> exact ⟨htq, hp, rfl⟩

theorem Stream.SyncEq.pushTokens {x u : Stream} {c : Section} (h : Stream.SyncEq c x u) (r : Bool) (b k n : Nat) :
    Stream.SyncEq c (x.pushTokens r b c k n) (u.pushTokens r b c k n) := by
  obtain ⟨htq, hp, hd⟩ := h
  unfold Stream.pushTokens Stream.produce Stream.setTok Stream.tok Stream.SyncEq
  simp only [hp, htq]
  split_ifs
  · exact ⟨htq, hp, hd⟩
  all_goals exact ⟨rfl, rfl, by cases c <;> exact hd⟩

theorem Stream.SyncEq.syncMarks {x u : Stream} {q : SeqId} (h : Stream.SyncEq q.sec x u) (s : State) (y : Sync) :
    Stream.SyncEq q.sec (x.syncMarks s q y) (u.syncMarks s q y) := by
  have hpop := h.popMarks y
  unfold Stream.syncMarks Stream.pushMarks
  rw [hpop.2.2]
  exact ((hpop.setSeqr _).pushTokens ..).pushTokens ..

/-- A word that ends by writing its stream as `x`, which keeps the stream's place and what SYNC marks read, is done with that stream. -/
theorem WordDone.doneY_setMe {s : State} {q : SeqId} (hc : s.cur = .seq q) (y : Sync) {x : Stream} (href : x.ref = (s.strm q).ref)
    (h : Stream.SyncEq q.sec x (s.strm q)) : WordDone s ((s.setMe x).doneY y) y x := by
  have hs : x.syncMarks s q y = x.withSync q.sec ((s.strm q).syncMarks s q y) :=
    Eq.trans (x.onlySync_syncMarks s q y) (x.withSync_congr (h.syncMarks s y))
  have hcur : (s.setStrm q (x.syncMarks s q y)).cur = .seq q := hc
  have hpc : ((x.syncMarks s q y).seqr q.sec).pc + BitVec.ofNat 64 q.sec.wordBytes = s.fallThrough := by
    simp [hs, Stream.pc_withSync, h.2.2, State.fallThrough, State.pc, hc, State.here, State.seqr]
  have hleft : ((x.syncMarks s q y).seqr q.sec).left = (s.seqr q).left := by rw [hs, Stream.left_withSync, h.2.2, State.seqr]
  have ht : (s.setMe x).doneY y = s.setStrm q ((x.syncMarks s q y).setSeqr q.sec { (x.syncMarks s q y).seqr q.sec with
      pc := s.fallThrough, left := (s.seqr q).left - 1 }) := by
    rw [State.setMe_of_seq hc, State.doneY, State.sync_setStrm hc _ _ href, State.done, ← hpc, ← hleft]
    simp only [hcur, State.setSeqr, State.seqr, State.strm_setStrm, State.setStrm_setStrm]
  simp only [WordDone, hc]
  rw [ht]
  refine ⟨OnlyStream.setStrm .., SameMemory.setStrm .., _, rfl, ?_⟩
  rw [State.strm_setStrm, State.strm_sync hc, hs, Stream.withSync, Stream.setSeqr_setSeqr, Stream.seqr_setSeqr]

/-! Registers and flags at the end of a word -/

theorem Stream.setSeqr_v (x : Stream) (c : Section) (d : Seqr) : (x.setSeqr c d).v = x.v := by cases c <;> rfl

/-- What a done word leaves of its stream's registers and flags. -/
theorem WordDone.me_v_flags {s t : State} {q : SeqId} (hc : s.cur = .seq q) {y : Sync} {x : Stream} (h : WordDone s t y x) :
    t.cur = .seq q ∧ t.me.v = x.v ∧ t.me.flags = x.flags := by
  simp only [WordDone, hc] at h
  obtain ⟨⟨ht, -⟩, -, u, -, hx⟩ := h
  have hcur : t.cur = .seq q := by rw [ht]; exact hc
  rw [State.me_of_seq hcur, hx, Stream.setSeqr_v, Stream.setSeqr_flags]
  exact ⟨hcur, rfl, rfl⟩

theorem State.setV_orFlags_of_seq {s : State} {q : SeqId} (hc : s.cur = .seq q) (vd : BitVec 5) (r : VReg) (f : Flags) :
    (s.setV vd r).orFlags f =
      s.setMe { s.me with v := s.me.v.put vd.toNat r, flags := s.me.flags ||| f.word } := by
  have h : ∀ x, (s.setStrm q x).cur = .seq q := fun _ => hc
  simp only [State.orFlags, State.setV, State.setMe_of_seq hc, State.me_of_seq hc, State.me_of_seq (h _), State.setMe_of_seq (h _),
    State.strm_setStrm, State.setStrm_setStrm, Stream.orFlags]

/-- The end of a word that writes v[vd] whole and sets flags. -/
theorem RegisterDone.setV_orFlags {s : State} {q : SeqId} (hc : s.cur = .seq q) (y : Sync) (vd : BitVec 5) (r : VReg) (f : Flags) :
    RegisterDone s (((s.setV vd r).orFlags f).doneY y) y vd ∧ (((s.setV vd r).orFlags f).doneY y).v vd = r ∧
      (((s.setV vd r).orFlags f).doneY y).me.flags = s.me.flags ||| f.word := by
  rw [State.setV_orFlags_of_seq hc]
  have hdone : WordDone s ((s.setMe { s.me with v := s.me.v.put vd.toNat r, flags := s.me.flags ||| f.word }).doneY y) y _ :=
    WordDone.doneY_setMe hc y (by rw [State.me_of_seq hc]; rfl) (by rw [State.me_of_seq hc]; exact ⟨rfl, rfl, by cases q.sec <;> rfl⟩)
  obtain ⟨hcur, hv, hf⟩ := WordDone.me_v_flags hc hdone
  refine ⟨⟨?_, fun k hk => ?_⟩, ?_, hf⟩
  · rw [hv, hf]
    exact hdone
  · have : k.toNat ≠ vd.toNat := fun e => hk (BitVec.eq_of_toNat_eq e)
    rw [State.v, hv, AMap.get_put_ne _ _ _ this, State.v]
  · rw [State.v, hv, AMap.get_put_self]

/-! Elements of a register -/

/-- The number whose base-2^w digits are the elements of a list (`vput`). -/
def vnum (w : Nat) (l : List Nat) : Nat := l.foldr (fun e a => e % 2 ^ w + 2 ^ w * a) 0

theorem vnum_lt (w : Nat) (l : List Nat) : vnum w l < 2 ^ (w * l.length) := by
  induction l with
  | nil => simp [vnum]
  | cons e r ih =>
    have he : e % 2 ^ w < 2 ^ w := Nat.mod_lt _ (by positivity)
    have hr : vnum w r + 1 ≤ 2 ^ (w * r.length) := ih
    calc vnum w (e :: r) < 2 ^ w + 2 ^ w * vnum w r := Nat.add_lt_add_right he _
      _ = 2 ^ w * (vnum w r + 1) := by ring
      _ ≤ 2 ^ w * 2 ^ (w * r.length) := Nat.mul_le_mul_left _ hr
      _ = 2 ^ (w * (e :: r).length) := by rw [← pow_add, List.length_cons, Nat.mul_succ, Nat.add_comm]

theorem vnum_div_mod (w : Nat) (l : List Nat) (i : Nat) : vnum w l / 2 ^ (w * i) % 2 ^ w = l.getD i 0 % 2 ^ w := by
  induction l generalizing i with
  | nil => simp [vnum]
  | cons e r ih =>
    have hcons : vnum w (e :: r) = e % 2 ^ w + 2 ^ w * vnum w r := rfl
    cases i with
    | zero => simp [hcons]
    | succ i =>
      have hdiv : vnum w (e :: r) / 2 ^ w = vnum w r := by
        rw [hcons, Nat.add_mul_div_left _ _ (by positivity), Nat.div_eq_of_lt (Nat.mod_lt _ (by positivity)), Nat.zero_add]
      rw [Nat.mul_succ, Nat.add_comm, pow_add, ← Nat.div_div_eq_div_mul, hdiv, ih i, List.getD_cons_succ]

theorem toNat_ofNat_vnum {n w : Nat} {l : List Nat} (h : w * l.length ≤ n) : (BitVec.ofNat n (vnum w l)).toNat = vnum w l := by
  rw [BitVec.toNat_ofNat, Nat.mod_eq_of_lt (lt_of_lt_of_le (vnum_lt w l) (Nat.pow_le_pow_right two_pos h))]

/-- An element of a register put together from at most as many elements as it holds. -/
theorem vget_vput {w : Nat} {l : List Nat} (h : l.length ≤ 2048 / w) (i : Nat) : vget w (vput w l) i = l.getD i 0 % 2 ^ w := by
  have hlen : w * l.length ≤ 2048 := le_trans (Nat.mul_le_mul_left w h) (Nat.mul_div_le 2048 w)
  rw [vget, vput, ← vnum, toNat_ofNat_vnum hlen, vnum_div_mod]

theorem vget_lt (w : Nat) (x : VReg) (i : Nat) : vget w x i < 2 ^ w := Nat.mod_lt _ (by positivity)

/-! Flags -/

theorem Flags.getLsbD_word (f : Flags) (k : Nat) (hk : k < 7) :
    f.word.getLsbD k = [f.iv, f.ov, f.ui, f.sa, f.nb, f.dz, f.rm].getD k false := by
  obtain ⟨iv, ov, ui, sa, nb, dz, rm⟩ := f
  revert k
  revert iv ov ui sa nb dz rm
  decide

theorem Flags.word_or (a b : Flags) : (a.or b).word = a.word ||| b.word := by
  refine BitVec.eq_of_getLsbD_eq fun k hk => ?_
  rw [BitVec.getLsbD_or, Flags.getLsbD_word _ _ hk, Flags.getLsbD_word _ _ hk, Flags.getLsbD_word _ _ hk]
  interval_cases k <;> rfl

@[simp] theorem Flags.word_none : Flags.none.word = 0#7 := by decide

/-- Flags joined over a list: a flag is set when it was set before or one of the elements sets it. -/
theorem Flags.getLsbD_foldl_or {α : Type} (l : List (α × Flags)) (f : Flags) (k : Nat) :
    (l.foldl (fun f e => f.or e.2) f).word.getLsbD k = true ↔ f.word.getLsbD k = true ∨ ∃ e ∈ l, e.2.word.getLsbD k = true := by
  induction l generalizing f with
  | nil => simp
  | cons e r ih =>
    rw [List.foldl_cons, ih, Flags.word_or, BitVec.getLsbD_or]
    simp [or_assoc]

/-- The elements, each with its flags, that a masked write gives v[vd] (R119). -/
def State.maskedElems (s : State) (vd : BitVec 5) (me mz : Bool) (mk : BitVec 3) (w : Nat) (f : Nat → Nat × Flags) : List (Nat × Flags) :=
  (List.range (vcount w)).map fun i => if s.active me mk w i then f i else (if mz then 0 else vget w (s.v vd) i, Flags.none)

theorem State.vwrite_eq (s : State) (vd : BitVec 5) (me mz : Bool) (mk : BitVec 3) (w : Nat) (f : Nat → Nat × Flags) :
    s.vwrite vd me mz mk w f =
      (s.setV vd (vput w ((s.maskedElems vd me mz mk w f).map (·.1)))).orFlags (flagsOf (s.maskedElems vd me mz mk w f)) := rfl

theorem State.vget_maskedElems (s : State) (vd : BitVec 5) (me mz : Bool) (mk : BitVec 3) (w : Nat) (f : Nat → Nat × Flags) {i : Nat}
    (hi : i < 2048 / w) : vget w (vput w ((s.maskedElems vd me mz mk w f).map (·.1))) i =
      if s.active me mk w i then (f i).1 % 2 ^ w else if mz then 0 else vget w (s.v vd) i := by
  rw [vget_vput (by simp [State.maskedElems, vcount])]
  have hi' : i < vcount w := hi
  simp only [State.maskedElems, List.map_map, List.getD_eq_getElem?_getD, List.getElem?_map, List.getElem?_range hi', Option.map_some,
    Option.getD_some, Function.comp_apply]
  split_ifs
  · rfl
  · rfl
  · exact Nat.mod_eq_of_lt (vget_lt ..)

theorem State.flagsOf_maskedElems (s : State) (vd : BitVec 5) (me mz : Bool) (mk : BitVec 3) (w : Nat) (f : Nat → Nat × Flags) (k : Nat) :
    (flagsOf (s.maskedElems vd me mz mk w f)).word.getLsbD k = true ↔
      ∃ i, i < 2048 / w ∧ s.active me mk w i = true ∧ (f i).2.word.getLsbD k = true := by
  rw [flagsOf, Flags.getLsbD_foldl_or]
  simp only [State.maskedElems, vcount, Flags.word_none, BitVec.getLsbD_zero, Bool.false_eq_true, false_or, List.mem_map, List.mem_range,
    exists_exists_and_eq_and]
  refine exists_congr fun i => and_congr_right fun _ => ?_
  by_cases ha : s.active me mk w i = true <;> simp [ha]

/-- A word that writes v[vd] element by element under a mask (R119). -/
theorem VectorDone.vwrite {s : State} {q : SeqId} (hc : s.cur = .seq q) (y : Sync) (vd : BitVec 5) (me mz : Bool) (mk : BitVec 3) (w : Nat)
    (f : Nat → Nat × Flags) : VectorDone s ((s.vwrite vd me mz mk w f).doneY y) y vd me mz mk w f := by
  rw [State.vwrite_eq]
  obtain ⟨⟨hdone, hother⟩, hvd, hflags⟩ := RegisterDone.setV_orFlags hc y vd (vput w ((s.maskedElems vd me mz mk w f).map (·.1)))
    (flagsOf (s.maskedElems vd me mz mk w f))
  refine ⟨hdone, hother, fun i hi => ?_, fun k _ => ?_⟩
  · rw [hvd, State.vget_maskedElems _ _ _ _ _ _ _ hi]
  · rw [hflags, BitVec.getLsbD_or, Bool.or_eq_true, State.flagsOf_maskedElems]

/-! Elements that a word may give equally well -/

/-- Two results of an element of width `w` that leave the same bits and set the same flags. -/
def SameElem (w : Nat) (a b : Nat × Flags) : Prop := a.1 % 2 ^ w = b.1 % 2 ^ w ∧ a.2 = b.2

theorem VectorDone.congr {s t : State} {y : Sync} {vd : BitVec 5} {me mz : Bool} {mk : BitVec 3} {w : Nat} {f g : Nat → Nat × Flags}
    (h : VectorDone s t y vd me mz mk w f) (hfg : ∀ e, SameElem w (f e) (g e)) : VectorDone s t y vd me mz mk w g := by
  obtain ⟨hdone, hother, helem, hflags⟩ := h
  refine ⟨hdone, hother, fun i hi => ?_, fun k hk => ?_⟩
  · rw [helem i hi, (hfg i).1]
  · simp only [hflags k hk, (hfg _).2]

/-! Integer elements (R124) -/

theorem toNat_ofInt_eq (w : Nat) (v : Int) : (BitVec.ofInt w v).toNat = (v % 2 ^ w).toNat := by
  rw [BitVec.toNat_ofInt]
  norm_cast

theorem sx_emod (w x : Nat) : sx w x % 2 ^ w = (x : Int) % 2 ^ w := by
  unfold sx
  split_ifs
  · simp
  · push_cast
    simp

theorem intVal_emod (t x : Nat) : intVal t x % 2 ^ typeBits t = (x : Int) % 2 ^ typeBits t := by
  unfold intVal
  split_ifs
  · exact sx_emod ..
  · push_cast
    simp

/-- A whole number, and the same number as the exact value of an element. -/
theorem SameElem.of_natCast (x : FormV) {n m : Nat} (h : n % 2 ^ x.width = m % 2 ^ x.width) :
    SameElem x.width (n, {}) (elemOfInt x false m) := by
  have hm : ((m : Int) % 2 ^ x.width).toNat = m % 2 ^ x.width := by norm_cast
  exact ⟨by simp [elemOfInt, hm, h], rfl⟩

/-- A wrapped integer, and the integer as the exact value of an element. -/
theorem SameElem.of_ofInt (x : FormV) (v : Int) : SameElem x.width ((BitVec.ofInt x.width v).toNat, {}) (elemOfInt x false v) :=
  ⟨by rw [toNat_ofInt_eq]; rfl, rfl⟩

theorem intMin_le_intMax (t : Nat) : intMin t ≤ intMax t := by
  have h1 : (1 : Int) ≤ 2 ^ typeBits t := one_le_pow₀ (by decide)
  have h2 : (1 : Int) ≤ 2 ^ (typeBits t - 1) := one_le_pow₀ (by decide)
  unfold intMin intMax
  split_ifs <;> omega

/-- The wrap and the clamp of R124. -/
theorem SameElem.of_intPut (x : FormV) (sat : Bool) (v : Int) : SameElem x.width (intPut x.ty.toNat sat v) (elemOfInt x sat v) := by
  have hle := intMin_le_intMax x.ty.toNat
  have hput (v : Int) : (BitVec.ofInt (typeBits x.ty.toNat) v).toNat % 2 ^ x.width = (v % 2 ^ x.width).toNat % 2 ^ x.width :=
    (SameElem.of_ofInt x v).1
  unfold intPut elemOfInt SameElem
  cases sat with
  | false => exact ⟨hput v, rfl⟩
  | true =>
    simp only [if_true, Bool.true_and]
    split_ifs with hmax hmin
    · rw [min_eq_left hmax.le, max_eq_right hle]
      exact ⟨hput _, by simp [hmax]⟩
    · rw [min_eq_right (by omega), max_eq_left hmin.le]
      exact ⟨hput _, by simp [hmin]⟩
    · rw [min_eq_right (by omega), max_eq_right (by omega)]
      exact ⟨hput _, by simp [hmin, hmax]⟩

/-! The element-wise words on integers (Table 6.4, R131) -/

theorem sx_bounds (w x : Nat) : -(2 ^ w : Int) ≤ sx w x ∧ sx w x < 2 ^ w := by
  have h : ((x % 2 ^ w : Nat) : Int) < 2 ^ w := by exact_mod_cast Nat.mod_lt x (by positivity)
  unfold sx
  push_cast at h ⊢
  split_ifs <;> omega

/-- Division by a power of two at least as large as the number leaves its sign. -/
theorem ediv_two_pow_of_bounds {v : Int} {w b : Nat} (hv : -(2 ^ w : Int) ≤ v ∧ v < 2 ^ w) (hb : w ≤ b) :
    v / 2 ^ b = if v < 0 then -1 else 0 := by
  have hp : (2 : Int) ^ w ≤ 2 ^ b := pow_le_pow_right₀ (by decide) hb
  split_ifs with h
  · have h1 : -1 ≤ v / 2 ^ b := Int.le_ediv_of_mul_le (by positivity) (by omega)
    have h2 : v / 2 ^ b < 0 := Int.ediv_neg_of_neg_of_pos h (by positivity)
    omega
  · exact Int.ediv_eq_zero_of_lt (by omega) (by omega)

/-- A shift of a two's complement number by its width gives what every longer shift gives. -/
theorem sx_div_min (w x b : Nat) : sx w x / ((2 ^ Nat.min b w : Nat) : Int) = sx w x / 2 ^ b := by
  have hmin : Nat.min b w = min b w := rfl
  rw [hmin]
  push_cast
  rcases Nat.le_total b w with h | h
  · rw [Nat.min_eq_left h]
  · rw [Nat.min_eq_right h, ediv_two_pow_of_bounds (sx_bounds w x) le_rfl, ediv_two_pow_of_bounds (sx_bounds w x) h]

/-- The smaller or larger of two integer elements. -/
theorem SameElem.of_minMax (x : FormV) (hint : isIntType x.ty.toNat = true) (mx : Bool) (a b : Nat) :
    SameElem x.width (minMax x.ty.toNat mx a b)
      (elemOfInt x false (if mx then max (intVal x.ty.toNat a) (intVal x.ty.toNat b) else min (intVal x.ty.toNat a) (intVal x.ty.toNat b))) := by
  have hval (c : Nat) : SameElem x.width (c, {}) (elemOfInt x false (intVal x.ty.toNat c)) := by
    have h := SameElem.of_natCast x (rfl : c % 2 ^ x.width = c % 2 ^ x.width)
    simp only [elemOfInt, FormV.width, Bool.false_eq_true, if_false, intVal_emod] at h ⊢
    exact h
  rw [minMax, if_pos hint]
  by_cases hlt : intVal x.ty.toNat a < intVal x.ty.toNat b
  · rw [max_eq_right hlt.le, min_eq_left hlt.le]
    cases mx <;> simpa [hlt] using hval _
  · rw [max_eq_left (not_lt.1 hlt), min_eq_right (not_lt.1 hlt)]
    cases mx <;> simpa [hlt] using hval _

theorem SameElem.of_not (x : FormV) {a : Nat} (h : a < 2 ^ x.width) :
    SameElem x.width (2 ^ x.width - 1 - a, {}) (elemOfInt x false (2 ^ x.width - 1 - a)) := by
  have hcast : ((2 ^ x.width - 1 - a : Nat) : Int) = 2 ^ x.width - 1 - a := by
    rw [Nat.cast_sub (by omega), Nat.cast_sub Nat.one_le_two_pow]
    norm_cast
  rw [← hcast]
  exact SameElem.of_natCast x rfl

theorem shl_mod (w a b : Nat) : (if w ≤ b then 0 else a * 2 ^ b % 2 ^ w) % 2 ^ w = a * 2 ^ b % 2 ^ w := by
  split_ifs with h
  · rw [Nat.zero_mod, Nat.mod_eq_zero_of_dvd (dvd_mul_of_dvd_right (pow_dvd_pow 2 h) a)]
  · exact Nat.mod_mod ..

theorem shr_eq {w a : Nat} (b : Nat) (ha : a < 2 ^ w) : (if w ≤ b then 0 else a / 2 ^ b) = a / 2 ^ b := by
  split_ifs with h
  · exact (Nat.div_eq_of_lt (lt_of_lt_of_le ha (Nat.pow_le_pow_right two_pos h))).symm
  · rfl

theorem SameElem.of_clz (x : FormV) {a : Nat} (ha : a < 2 ^ x.width) :
    SameElem x.width (if a = 0 then x.width else x.width - 1 - a.log2, {})
      (elemOfInt x false (if a = 0 then x.width else x.width - 1 - (a.log2 : Int))) := by
  split_ifs with h
  · exact SameElem.of_natCast x rfl
  · have hlog : a.log2 < x.width := (Nat.log2_lt h).2 ha
    have hcast : ((x.width - 1 - a.log2 : Nat) : Int) = x.width - 1 - a.log2 := by omega
    rw [← hcast]
    exact SameElem.of_natCast x rfl

/-- The upper half of the exact product. -/
theorem SameElem.of_mulHi (x : FormV) (a b : Int) :
    SameElem x.width (intPut x.ty.toNat false (a * b / (2 ^ x.width : Nat))) (elemOfInt x false (a * b / 2 ^ x.width)) := by
  have h := SameElem.of_intPut x false (a * b / (2 ^ x.width : Nat))
  exact_mod_cast h

/-- R131: the element that operand b names, or zero. -/
theorem SameElem.of_perm (x : FormV) (r : VReg) (b : Nat) :
    SameElem x.width (if b < 2048 / x.width then vget x.width r b else 0, {})
      (elemOfInt x false (if b < 2048 / x.width then (vget x.width r b : Int) else 0)) := by
  split_ifs
  · exact .of_natCast x rfl
  · exact .of_natCast x rfl

theorem bit_eq_testBit (x k : Nat) : bit x k = x.testBit k := by
  rw [bit, Nat.testBit_eq_decide_div_mod_eq]
  rfl

/-- `i` writes v[VD] element by element with the exact results `f`, on which SAT acts when `m`. -/
def GivesExact (s : State) (i : Instr) (w : FormV) (m : Bool) (f : Nat → Int) : Prop :=
  ∃ g, exec i s = .next ((s.vwrite w.vd w.me w.mz w.mq w.width g).doneY w.y) ∧
    ∀ e, SameElem w.width (g e) (elemOfInt w (m && w.sat) (f e))

theorem exactElems_inj {x w : FormV} {n m : Bool} {g f : Nat → Int} (h : ∀ e, some (x, n, g e) = some (w, m, f e)) :
    x = w ∧ n = m ∧ g = f := by
  have h0 := h 0
  simp only [Option.some.injEq, Prod.mk.injEq] at h h0
  exact ⟨h0.1, h0.2.1, funext fun e => (h e).2.2⟩

theorem GivesExact.of_exactElems {s : State} {i : Instr} {x w : FormV} {n m : Bool} {g f : Nat → Int}
    (h : ∀ e, some (x, n, g e) = some (w, m, f e)) (hx : GivesExact s i x n g) : GivesExact s i w m f := by
  obtain ⟨rfl, rfl, rfl⟩ := exactElems_inj h
  exact hx

/-- Each word of Table 6.4 and R131 gives the exact results that `State.vectorExact` lists. -/
theorem givesExact_of_vectorExact (s : State) (i : Instr) (w : FormV) (m : Bool) (f : Nat → Int)
    (hf : ∀ e, s.vectorExact e i = some (w, m, f e))
    (hint : (i = .vadd w ∨ i = .vsub w ∨ i = .vmul w ∨ i = .vfma w ∨ i = .vmin w ∨ i = .vmax w) → isIntType w.ty.toNat = true) :
    GivesExact s i w m f := by
  cases i
  case vadd x | vsub x | vmul x | vfma x =>
    obtain ⟨rfl, rfl, rfl⟩ := exactElems_inj hf
    exact ⟨_, rfl, fun e => by simp only [hint (by simp), if_true]; exact .of_intPut ..⟩
  case vmin x =>
    obtain ⟨rfl, rfl, rfl⟩ := exactElems_inj hf
    exact ⟨_, rfl, fun e => .of_minMax x (hint (by simp)) false ..⟩
  case vmax x =>
    obtain ⟨rfl, rfl, rfl⟩ := exactElems_inj hf
    exact ⟨_, rfl, fun e => .of_minMax x (hint (by simp)) true ..⟩
  case vmulHi x => exact .of_exactElems hf ⟨_, rfl, fun e => .of_mulHi x ..⟩
  case vand x | vor x | vxor x | vbcast x => exact .of_exactElems hf ⟨_, rfl, fun e => .of_natCast x rfl⟩
  case vnot x => exact .of_exactElems hf ⟨_, rfl, fun e => .of_not x (vget_lt ..)⟩
  case vshl x => exact .of_exactElems hf ⟨_, rfl, fun e => .of_natCast x (shl_mod ..)⟩
  case vshr x => exact .of_exactElems hf ⟨_, rfl, fun e => .of_natCast x (congrArg (· % 2 ^ x.width) (shr_eq _ (vget_lt ..)))⟩
  case vsar x => exact .of_exactElems hf ⟨_, rfl, fun e => by simp only [← sx_div_min]; exact .of_ofInt x _⟩
  case vfshl x | vfshr x => exact .of_exactElems hf ⟨_, rfl, fun e => .of_natCast x (Nat.mod_mod ..)⟩
  case vclz x => exact .of_exactElems hf ⟨_, rfl, fun e => .of_clz x (vget_lt ..)⟩
  case vpopc x => exact .of_exactElems hf ⟨_, rfl, fun e => by simp only [bit_eq_testBit]; exact .of_natCast x rfl⟩
  case vmov x => exact .of_exactElems hf ⟨_, rfl, fun e => by simp only; split_ifs <;> exact .of_natCast x rfl⟩
  case vperm x => exact .of_exactElems hf ⟨_, rfl, fun e => .of_perm x ..⟩
  -- Every other word has no exact integer here.
  all_goals exact nomatch hf 0

/-- Settles O28: every word of the family is one masked write whose elements are the exact results, wrapped or clamped. -/
theorem vectorIntegerResults : Obligations.VectorIntegerResults := by
  intro s q i w m f hc hf hint
  obtain ⟨g, hexec, hg⟩ := givesExact_of_vectorExact s i w m f hf hint
  exact ⟨_, hexec, (VectorDone.vwrite hc ..).congr hg⟩

/-! Reductions and scans (R133 to R136) -/

/-- What a present or absent value adds to a sum. -/
def summand (x : Option Nat) : Nat := x.getD 0

theorem log2_vcount {w : Nat} (hw : w ∈ [8, 16, 32, 64]) : 2 ^ (vcount w).log2 = vcount w := by
  fin_cases hw <;> decide

theorem isInt_width {w : FormV} (h : isIntType w.ty.toNat = true) : w.width ∈ [8, 16, 32, 64] := by
  have h7 : w.ty.toNat ≤ 7 := of_decide_eq_true h
  unfold FormV.width
  interval_cases w.ty.toNat <;> decide

/-- The integer sum of two elements, wrapped. -/
theorem combineElem_add {t : Nat} (ht : isIntType t = true) (c : Rnd) (a b : Nat) :
    combineElem t 0 c a b = ((a + b) % 2 ^ typeBits t, {}) := by
  have hsum : (intVal t a + intVal t b) % 2 ^ typeBits t = ((a + b : Nat) : Int) % 2 ^ typeBits t := by
    push_cast
    exact Int.ModEq.add (intVal_emod t a) (intVal_emod t b)
  have hput : combineElem t 0 c a b = ((BitVec.ofInt (typeBits t) (intVal t a + intVal t b)).toNat, {}) := by
    simp [combineElem, ht, intPut]
  rw [hput, toNat_ofInt_eq, hsum]
  norm_cast

/-- An add node on integers gives the sum modulo 2^w and sets no flag. -/
theorem joinElem_add {t : Nat} (ht : isIntType t = true) (c : Rnd) (a b : Option Nat) :
    summand (joinElem t 0 c a b).1 ≡ summand a + summand b [MOD 2 ^ typeBits t] ∧ (joinElem t 0 c a b).2 = {} := by
  match a, b with
  | none, y => exact ⟨by rw [summand, summand, Option.getD_none, Nat.zero_add]; rfl, rfl⟩
  | some x, none => exact ⟨Nat.ModEq.refl _, rfl⟩
  | some x, some y =>
    simp only [joinElem, combineElem_add ht]
    exact ⟨Nat.mod_modEq .., trivial⟩

/-- The sum of the present values of a list. -/
def sumPresent (l : List (Option Nat)) : Nat := (l.map summand).sum

theorem sumPresent_take_succ {l : List (Option Nat)} {i : Nat} (h : i < l.length) :
    sumPresent (l.take (i + 1)) = sumPresent (l.take i) + summand l[i] := by
  rw [List.take_succ_eq_append_getElem h, sumPresent, List.map_append, List.sum_append]
  simp [sumPresent]

/-- A level of the tree halves the list and keeps its sum. -/
theorem treeLevel_add {t : Nat} (ht : isIntType t = true) (c : Rnd) (k : Nat) (l : List (Option Nat)) :
    sumPresent (treeLevel t 0 c k l).1 ≡ sumPresent l [MOD 2 ^ typeBits t] ∧ (treeLevel t 0 c k l).2 = {} := by
  fun_induction treeLevel t 0 c k l with
  | case1 k a b r x y ih =>
    obtain ⟨hsum, hflags⟩ := joinElem_add ht (c.at (k % (512 / typeBits t))) a b
    refine ⟨?_, ?_⟩
    · simp only [sumPresent, List.map_cons, List.sum_cons, ← Nat.add_assoc]
      exact hsum.add ih.1
    · rw [show x.2 = {} from hflags, show y.2 = {} from ih.2]
      rfl
  | case2 k l => exact ⟨Nat.ModEq.refl _, rfl⟩

theorem length_treeLevel (t : Nat) (op : BitVec 3) (c : Rnd) (k : Nat) (l : List (Option Nat)) {m : Nat} (h : l.length = 2 * m) :
    (treeLevel t op c k l).1.length = m := by
  induction m generalizing k l with
  | zero =>
    obtain rfl := List.length_eq_zero_iff.1 h
    rfl
  | succ m ih =>
    match l, h with
    | a :: b :: r, h =>
      simp only [treeLevel, List.length_cons, ih (k + 1) r (by simp at h; omega)]

/-- The tree of integer adds over 2^n values. -/
theorem tree_add {t : Nat} (ht : isIntType t = true) (c : Rnd) (n : Nat) (l : List (Option Nat)) (h : l.length = 2 ^ n) :
    summand (tree t 0 c n l).1 ≡ sumPresent l [MOD 2 ^ typeBits t] ∧ (tree t 0 c n l).2 = {} := by
  induction n generalizing l with
  | zero =>
    obtain ⟨x, rfl⟩ := List.length_eq_one_iff.1 h
    exact ⟨Nat.ModEq.refl _, rfl⟩
  | succ n ih =>
    obtain ⟨hsum, hflags⟩ := treeLevel_add ht c 0 l
    obtain ⟨hsum', hflags'⟩ := ih (treeLevel t 0 c 0 l).1 (length_treeLevel t 0 c 0 l (by rw [h, pow_succ']))
    refine ⟨hsum'.trans hsum, ?_⟩
    rw [tree]
    simp only [hflags, hflags']
    rfl

/-! Scans -/

theorem scan_succ (t : Nat) (op : BitVec 3) (c : Rnd) (k : Nat) (x : List (Option Nat)) :
    scan t op c (k + 1) x =
      ((scanPass t op c (2 ^ k) (scan t op c k x).1).1, (scan t op c k x).2.or (scanPass t op c (2 ^ k) (scan t op c k x).1).2) := by
  simp [scan, List.range_succ]

theorem length_scanPass (t : Nat) (op : BitVec 3) (c : Rnd) (d : Nat) (x : List (Option Nat)) : (scanPass t op c d x).1.length = x.length := by
  simp [scanPass]

theorem length_scan (t : Nat) (op : BitVec 3) (c : Rnd) (k : Nat) (x : List (Option Nat)) : (scan t op c k x).1.length = x.length := by
  induction k with
  | zero => rfl
  | succ k ih => rw [scan_succ, length_scanPass, ih]

/-- One pass of the scan, element by element. -/
theorem getD_scanPass (t : Nat) (op : BitVec 3) (c : Rnd) (d : Nat) (x : List (Option Nat)) {i : Nat} (hi : i < x.length) :
    (scanPass t op c d x).1.getD i none =
      if i < d then x.getD i none else (joinElem t op (c.at (i % (512 / typeBits t))) (x.getD (i - d) none) (x.getD i none)).1 := by
  simp only [scanPass, List.getD_eq_getElem?_getD, List.getElem?_map, List.getElem?_zipIdx, List.getElem?_eq_getElem hi, Option.map_some,
    Option.getD_some, Nat.zero_add]
  split_ifs <;> rfl

theorem foldl_or_none {α : Type} (l : List (α × Flags)) (h : ∀ e ∈ l, e.2 = {}) :
    l.foldl (fun f e => f.or e.2) Flags.none = Flags.none := by
  induction l with
  | nil => rfl
  | cons e r ih =>
    rw [List.foldl_cons, h e List.mem_cons_self]
    exact ih fun e he => h e (List.mem_cons_of_mem _ he)

theorem scanPass_add_flags {t : Nat} (ht : isIntType t = true) (c : Rnd) (d : Nat) (x : List (Option Nat)) : (scanPass t 0 c d x).2 = {} := by
  refine foldl_or_none _ fun e he => ?_
  obtain ⟨p, -, rfl⟩ := List.mem_map.1 he
  split_ifs
  · rfl
  · exact (joinElem_add ht _ _ _).2

/-- After `k` passes of integer adds element `i` is the sum of the 2^k source elements up to it, of fewer near the start. -/
theorem scan_add {t : Nat} (ht : isIntType t = true) (c : Rnd) (k : Nat) (x : List (Option Nat)) :
    (∀ i, i < x.length → summand ((scan t 0 c k x).1.getD i none) + sumPresent (x.take (i + 1 - 2 ^ k)) ≡
      sumPresent (x.take (i + 1)) [MOD 2 ^ typeBits t]) ∧ (scan t 0 c k x).2 = {} := by
  induction k with
  | zero =>
    refine ⟨fun i hi => ?_, rfl⟩
    have h : (scan t 0 c 0 x).1.getD i none = x[i] := by simp [scan, hi]
    rw [h, sumPresent_take_succ hi, Nat.add_comm]
    rfl
  | succ k ih =>
    obtain ⟨hsum, hflags⟩ := ih
    rw [scan_succ]
    refine ⟨fun i hi => ?_, by simp only [hflags, scanPass_add_flags ht]; rfl⟩
    have hpow : 2 ^ (k + 1) = 2 ^ k + 2 ^ k := by rw [pow_succ]; omega
    simp only [getD_scanPass t 0 c _ _ ((length_scan t 0 c k x).symm ▸ hi)]
    split_ifs with h
    · have h0 : i + 1 - 2 ^ (k + 1) = i + 1 - 2 ^ k := by omega
      rw [h0]
      exact hsum i hi
    · have hprev := hsum (i - 2 ^ k) (Nat.lt_of_le_of_lt (Nat.sub_le ..) hi)
      have h1 : i - 2 ^ k + 1 = i + 1 - 2 ^ k := by omega
      have h2 : i + 1 - 2 ^ k - 2 ^ k = i + 1 - 2 ^ (k + 1) := by omega
      rw [h1, h2] at hprev
      have hjoin := (joinElem_add ht (c.at (i % (512 / typeBits t))) ((scan t 0 c k x).1.getD (i - 2 ^ k) none)
        ((scan t 0 c k x).1.getD i none)).1
      refine (hjoin.add_right _).trans ?_
      rw [Nat.add_right_comm, Nat.add_comm]
      exact (hprev.add_left _).trans (hsum i hi)

/-! The words -/

theorem State.length_present (s : State) (w : FormV) : (s.present w).length = 2048 / w.width := by simp [State.present, vcount]

/-- The sum over a run of source elements is that of the active ones. -/
theorem State.sumPresent_active (s : State) (w : FormV) (l : List Nat) :
    sumPresent (l.map fun i => if s.active w.me w.mq w.width i then some (s.opA w i) else none) =
      ((l.filter (s.active w.me w.mq w.width)).map (s.opA w)).sum := by
  induction l with
  | nil => rfl
  | cons i r ih =>
    have hcons (x : Option Nat) (l) : sumPresent (x :: l) = summand x + sumPresent l := rfl
    rw [List.map_cons, hcons, ih, List.filter_cons]
    split_ifs
    · rw [List.map_cons, List.sum_cons]; rfl
    · exact Nat.zero_add _

theorem State.present_eq (s : State) (w : FormV) : s.present w = (List.range (2048 / w.width)).map fun i =>
    if s.active w.me w.mq w.width i then some (s.opA w i) else none := rfl

theorem State.take_present (s : State) (w : FormV) {i : Nat} (h : i ≤ 2048 / w.width) :
    (s.present w).take i = (List.range i).map fun i => if s.active w.me w.mq w.width i then some (s.opA w i) else none := by
  rw [s.present_eq, ← List.map_take, List.take_range, Nat.min_eq_left h]

/-- Group `e` of VGRED. -/
theorem State.group_present (s : State) (w : FormV) {n e : Nat} (h : e < 2048 / w.width / n) :
    ((s.present w).drop (n * e)).take n = ((List.range n).map (e * n + ·)).map
      fun i => if s.active w.me w.mq w.width i then some (s.opA w i) else none := by
  have hn : n * e + n ≤ 2048 / w.width := by
    rw [← Nat.mul_succ]
    exact (Nat.mul_le_mul_left n h).trans (Nat.mul_div_le ..)
  rw [s.present_eq, ← List.map_drop, ← List.map_take]
  congr 1
  refine List.ext_getElem ?_ fun i h1 h2 => ?_
  · simp; omega
  · simp [Nat.mul_comm]

/-! The words VRED, VGRED and VSCAN -/

/-- The tree of VRED over the whole register (R134). -/
def State.redTree (s : State) (w : FormV) : Option Nat × Flags :=
  tree w.ty.toNat w.sub (s.nodeRnd w) (2048 / w.width).log2 (s.present w)

/-- The tree of VGRED over group `e` (R135). -/
def State.groupTree (s : State) (w : FormV) (e : Nat) : Option Nat × Flags :=
  tree w.ty.toNat w.sub (s.nodeRnd w) w.gs.toNat (((s.present w).drop (2 ^ w.gs.toNat * e)).take (2 ^ w.gs.toNat))

/-- The results of the groups of VGRED, each with its flags (R135). -/
def State.groupResults (s : State) (w : FormV) : List (Nat × Flags) :=
  (List.range (2048 / w.width / 2 ^ w.gs.toNat)).map fun e => ((s.groupTree w e).1.getD (identElem w.ty.toNat w.sub), (s.groupTree w e).2)

/-- The passes of VSCAN over the whole register (R136). -/
def State.scanPasses (s : State) (w : FormV) : List (Option Nat) × Flags :=
  scan w.ty.toNat w.sub (s.nodeRnd w) (2048 / w.width).log2 (s.present w)

/-- The values of VSCAN, inclusive or exclusive, before absent ones are delivered as the identity (R136). -/
def State.scanResults (s : State) (w : FormV) : List (Option Nat) :=
  if w.gs.getLsbD 0 then none :: (s.scanPasses w).1.take (2048 / w.width - 1) else (s.scanPasses w).1

theorem vcount_pos {w : Nat} (hw : w ∈ [8, 16, 32, 64]) : 0 < 2048 / w := by fin_cases hw <;> decide

theorem State.getD_scanResults (s : State) (w : FormV) {e : Nat} (he : e < 2048 / w.width) :
    (s.scanResults w).getD e none =
      if w.gs.getLsbD 0 then (if e = 0 then none else (s.scanPasses w).1.getD (e - 1) none) else (s.scanPasses w).1.getD e none := by
  unfold State.scanResults
  split_ifs with hgs h0
  · rw [h0]
    rfl
  · obtain ⟨i, rfl⟩ := Nat.exists_eq_succ_of_ne_zero h0
    rw [List.getD_cons_succ, Nat.succ_sub_one, List.getD_eq_getElem?_getD, List.getElem?_take_of_lt (by omega), ← List.getD_eq_getElem?_getD]
  · rfl

theorem State.length_scanResults (s : State) {w : FormV} (hw : w.width ∈ [8, 16, 32, 64]) : (s.scanResults w).length = 2048 / w.width := by
  have hpos := vcount_pos hw
  have hlen : (s.scanPasses w).1.length = 2048 / w.width := by rw [State.scanPasses, length_scan, s.length_present]
  unfold State.scanResults
  split_ifs
  · rw [List.length_cons, List.length_take, hlen]
    omega
  · exact hlen

theorem vred_done {s : State} {q : SeqId} (hc : s.cur = .seq q) {w : FormV} (hw : w.width ∈ [8, 16, 32, 64]) :
    ∃ t : State, exec (.vred w) s = .next t ∧ RegisterDone s t w.y w.vd ∧
      vget w.width (t.v w.vd) 0 = (s.redTree w).1.getD (identElem w.ty.toNat w.sub) % 2 ^ w.width ∧
      (∀ e, 0 < e → e < 2048 / w.width → vget w.width (t.v w.vd) e = 0) ∧
      t.me.flags = s.me.flags ||| (s.redTree w).2.word := by
  obtain ⟨hdone, hvd, hflags⟩ := RegisterDone.setV_orFlags hc w.y w.vd
    (vput w.width [(s.redTree w).1.getD (identElem w.ty.toNat w.sub)]) (s.redTree w).2
  have helem (e : Nat) := (congrArg (vget w.width · e) hvd).trans (vget_vput (vcount_pos hw) e)
  refine ⟨_, rfl, hdone, helem 0, fun e he _ => (helem e).trans ?_, hflags⟩
  rw [List.getD_eq_default _ _ he, Nat.zero_mod]

theorem vgred_done {s : State} {q : SeqId} (hc : s.cur = .seq q) (w : FormV) :
    ∃ t : State, exec (.vgred w) s = .next t ∧ RegisterDone s t w.y w.vd ∧
      (∀ e, e < 2048 / w.width / 2 ^ w.gs.toNat →
        vget w.width (t.v w.vd) e = (s.groupTree w e).1.getD (identElem w.ty.toNat w.sub) % 2 ^ w.width) ∧
      (∀ e, 2048 / w.width / 2 ^ w.gs.toNat ≤ e → vget w.width (t.v w.vd) e = 0) ∧
      t.me.flags = s.me.flags ||| (flagsOf (s.groupResults w)).word := by
  obtain ⟨hdone, hvd, hflags⟩ := RegisterDone.setV_orFlags hc w.y w.vd (vput w.width ((s.groupResults w).map (·.1)))
    (flagsOf (s.groupResults w))
  have hlen : ((s.groupResults w).map (·.1)).length = 2048 / w.width / 2 ^ w.gs.toNat := by simp [State.groupResults]
  have helem (e : Nat) := (congrArg (vget w.width · e) hvd).trans (vget_vput (hlen ▸ Nat.div_le_self ..) e)
  refine ⟨_, rfl, hdone, fun e he => (helem e).trans ?_, fun e he => (helem e).trans ?_, hflags⟩
  · simp [State.groupResults, he]
  · rw [List.getD_eq_default _ _ (hlen ▸ he), Nat.zero_mod]

theorem vscan_done {s : State} {q : SeqId} (hc : s.cur = .seq q) {w : FormV} (hw : w.width ∈ [8, 16, 32, 64]) :
    ∃ t : State, exec (.vscan w) s = .next t ∧ RegisterDone s t w.y w.vd ∧
      (∀ e, e < 2048 / w.width →
        vget w.width (t.v w.vd) e = ((s.scanResults w).getD e none).getD (identElem w.ty.toNat w.sub) % 2 ^ w.width) ∧
      t.me.flags = s.me.flags ||| (s.scanPasses w).2.word := by
  obtain ⟨hdone, hvd, hflags⟩ := RegisterDone.setV_orFlags hc w.y w.vd
    (vput w.width ((s.scanResults w).map fun e => e.getD (identElem w.ty.toNat w.sub))) (s.scanPasses w).2
  have hlen := s.length_scanResults hw
  refine ⟨_, rfl, hdone, fun e he => ?_, hflags⟩
  refine ((congrArg (vget w.width · e) hvd).trans (vget_vput (by rw [List.length_map, hlen]) e)).trans ?_
  have he' : e < (s.scanResults w).length := hlen ▸ he
  simp [List.getD_eq_getElem?_getD, he']

/-! Integer sums -/

theorem flags_or_none (x : BitVec 7) : x ||| ({} : Flags).word = x := by
  rw [show ({} : Flags).word = 0#7 from Flags.word_none, BitVec.or_zero]

/-- The identity of the sum is zero: an absent result counts as nothing. -/
theorem getD_identElem_add (t : Nat) (x : Option Nat) : x.getD (identElem t 0) = summand x := rfl

section
variable {s : State} {q : SeqId} {w : FormV} {t : State} (hc : s.cur = .seq q) (ht : isIntType w.ty.toNat = true) (hsub : w.sub = 0)
include ht hsub

theorem State.redTree_add : (s.redTree w).2 = {} ∧ summand (s.redTree w).1 % 2 ^ w.width =
    (((List.range (2048 / w.width)).filter (s.active w.me w.mq w.width)).map (s.opA w)).sum % 2 ^ w.width := by
  have hlen : (s.present w).length = 2 ^ (2048 / w.width).log2 := by
    rw [s.length_present]
    exact (log2_vcount (isInt_width ht)).symm
  obtain ⟨hsum, hnone⟩ := tree_add ht (s.nodeRnd w) _ _ hlen
  rw [State.redTree, hsub, ← s.sumPresent_active]
  exact ⟨hnone, hsum⟩

theorem State.groupTree_add {e : Nat} (he : e < 2048 / w.width / 2 ^ w.gs.toNat) :
    (s.groupTree w e).2 = {} ∧ summand (s.groupTree w e).1 % 2 ^ w.width =
      ((((List.range (2 ^ w.gs.toNat)).map (e * 2 ^ w.gs.toNat + ·)).filter (s.active w.me w.mq w.width)).map (s.opA w)).sum %
        2 ^ w.width := by
  obtain ⟨hsum, hnone⟩ := tree_add ht (s.nodeRnd w) w.gs.toNat (((s.present w).drop (2 ^ w.gs.toNat * e)).take (2 ^ w.gs.toNat))
    (by rw [s.group_present w he]; simp)
  rw [State.groupTree, hsub, ← s.sumPresent_active, ← s.group_present w he]
  exact ⟨hnone, hsum⟩

theorem State.scanPasses_add : (s.scanPasses w).2 = {} ∧ ∀ e, e < 2048 / w.width →
    summand ((s.scanPasses w).1.getD e none) % 2 ^ w.width =
      (((List.range (e + 1)).filter (s.active w.me w.mq w.width)).map (s.opA w)).sum % 2 ^ w.width := by
  obtain ⟨hsum, hnone⟩ := scan_add ht (s.nodeRnd w) (2048 / w.width).log2 (s.present w)
  rw [State.scanPasses, hsub]
  refine ⟨hnone, fun e he => ?_⟩
  have hlog : 2 ^ (2048 / w.width).log2 = 2048 / w.width := log2_vcount (isInt_width ht)
  have hpast : e + 1 - 2 ^ (2048 / w.width).log2 = 0 := by omega
  have hprefix := hsum e (by rw [s.length_present]; exact he)
  rw [hpast, s.take_present w he, s.sumPresent_active] at hprefix
  exact hprefix

include hc

theorem vred_add (h : exec (.vred w) s = .next t) : t.me.flags = s.me.flags ∧ vget w.width (t.v w.vd) 0 =
    (((List.range (2048 / w.width)).filter (s.active w.me w.mq w.width)).map (s.opA w)).sum % 2 ^ w.width := by
  obtain ⟨t', hexec, -, hval, -, hflags⟩ := vred_done hc (isInt_width ht)
  obtain rfl := Host.Outcome.next.inj (h.symm.trans hexec)
  obtain ⟨hnone, hsum⟩ := State.redTree_add (s := s) ht hsub
  rw [hval, hflags, hnone, flags_or_none, hsub, getD_identElem_add, hsum]
  exact ⟨rfl, rfl⟩

theorem vgred_add (h : exec (.vgred w) s = .next t) : t.me.flags = s.me.flags ∧
    ∀ e, e < 2048 / w.width / 2 ^ w.gs.toNat → vget w.width (t.v w.vd) e =
      ((((List.range (2 ^ w.gs.toNat)).map (e * 2 ^ w.gs.toNat + ·)).filter (s.active w.me w.mq w.width)).map (s.opA w)).sum %
        2 ^ w.width := by
  obtain ⟨t', hexec, -, hval, -, hflags⟩ := vgred_done hc w
  obtain rfl := Host.Outcome.next.inj (h.symm.trans hexec)
  have hnone : flagsOf (s.groupResults w) = {} := foldl_or_none _ fun r hr => by
    obtain ⟨e, he, rfl⟩ := List.mem_map.1 hr
    exact (State.groupTree_add ht hsub (List.mem_range.1 he)).1
  refine ⟨by rw [hflags, hnone, flags_or_none], fun e he => ?_⟩
  rw [hval e he, hsub, getD_identElem_add, (State.groupTree_add ht hsub he).2]

theorem vscan_add (h : exec (.vscan w) s = .next t) : t.me.flags = s.me.flags ∧
    ∀ e, e < 2048 / w.width → vget w.width (t.v w.vd) e =
      (((List.range (if w.gs.getLsbD 0 then e else e + 1)).filter (s.active w.me w.mq w.width)).map (s.opA w)).sum % 2 ^ w.width := by
  obtain ⟨t', hexec, -, hval, hflags⟩ := vscan_done hc (isInt_width ht)
  obtain rfl := Host.Outcome.next.inj (h.symm.trans hexec)
  obtain ⟨hnone, hsum⟩ := State.scanPasses_add (s := s) ht hsub
  refine ⟨by rw [hflags, hnone, flags_or_none], fun e he => ?_⟩
  rw [hval e he, s.getD_scanResults w he, hsub, getD_identElem_add]
  split_ifs with hgs h0
  · rw [h0]
    rfl
  · obtain ⟨i, rfl⟩ := Nat.exists_eq_succ_of_ne_zero h0
    exact hsum i (by omega)
  · exact hsum e he

end

/-- Settles O32: each word writes the register of its results whole, and a tree node or a scan node of integer adds keeps the sum
modulo 2^w. -/
theorem reductionsAndSums : Obligations.ReductionsAndSums := by
  refine ⟨fun s q w n hc hw hn => ?_, fun s q w hc ht hsub =>
    ⟨fun t h => vred_add hc ht hsub h, fun t h _ => vgred_add hc ht hsub h, fun t h => vscan_add hc ht hsub h⟩⟩
  subst hn
  obtain ⟨t, hexec, hdone, hval, hzero, -⟩ := vgred_done hc w
  obtain ⟨t', hexec', hdone', hval', -⟩ := vscan_done hc hw
  refine ⟨vred_done hc hw, ⟨t, hexec, hdone, hval, fun e he _ => hzero e he⟩, t', hexec', hdone', fun e he => ?_⟩
  rw [hval' e he, s.getD_scanResults w he]
  split_ifs <;> rfl

end Sys2Proof.Machine

/-! PROOFS. The SC integer words and the words that write a predicate (R205 to R208, Table 9.2). -/

namespace Sys2Proof.Machine

open Sys2Proof

/-! What the end of a word and a write of a predicate leave -/

theorem State.flags_done (s : State) : s.done.me.flags = s.me.flags := by
  unfold State.done
  cases hc : s.cur with
  | hk => simp [State.me, hc]
  | seq q => simp [State.me, hc, State.setSeqr, Stream.setSeqr_flags]

theorem State.events_done (s : State) : s.done.events = s.events := by
  unfold State.done
  cases s.cur <;> rfl

theorem State.g_setP (s : State) (k : BitVec 3) (v : Bool) (r : BitVec 5) : (s.setP k v).g r = s.g r := by
  unfold State.setP State.g
  cases hc : s.cur with
  | hk => simp
  | seq q => simp [hc]

theorem State.flags_setP (s : State) (k : BitVec 3) (v : Bool) : (s.setP k v).me.flags = s.me.flags := by
  unfold State.setP
  cases hc : s.cur with
  | hk => simp [State.me, hc]
  | seq q => simp [State.me, hc]

theorem State.events_setP (s : State) (k : BitVec 3) (v : Bool) : (s.setP k v).events = s.events := by
  unfold State.setP
  cases s.cur <;> rfl

/-! Sums, products and shifts of words as integers modulo 2^64 -/

theorem add_eq_ofInt (a b : Word) : a + b = BitVec.ofInt 64 (a.toInt + b.toInt) := by
  rw [BitVec.ofInt_add, BitVec.ofInt_toInt, BitVec.ofInt_toInt]

theorem add_signExtend_eq (a : Word) (i : BitVec 15) : a + i.signExtend 64 = BitVec.ofInt 64 (a.toInt + i.toInt) := by
  rw [BitVec.ofInt_add, BitVec.ofInt_toInt, BitVec.signExtend]

theorem mul_eq_ofInt (a b : Word) : a * b = BitVec.ofInt 64 (a.toInt * b.toInt) := by
  rw [BitVec.ofInt_mul, BitVec.ofInt_toInt, BitVec.ofInt_toInt]

theorem mul_add_eq (a b c : Word) : a * b + c = BitVec.ofInt 64 (a.toInt * b.toInt + c.toInt) := by
  rw [BitVec.ofInt_add, ← mul_eq_ofInt, BitVec.ofInt_toInt]

theorem sub_eq_ofInt (a b : Word) : a - b = BitVec.ofInt 64 (a.toInt - b.toInt) := by
  rw [sub_eq_add_neg a.toInt, BitVec.ofInt_add, BitVec.ofInt_neg, BitVec.ofInt_toInt, BitVec.ofInt_toInt, BitVec.sub_eq_add_neg]

theorem ofInt_toNat (a : Word) : a = BitVec.ofInt 64 a.toNat := by simp

/-- A left shift of a word multiplies any integer that the word stands for. -/
theorem shiftLeft_ofInt (x : Int) (n : Nat) : BitVec.ofInt 64 x <<< n = BitVec.ofInt 64 (x * 2 ^ n) := by
  rw [BitVec.ofInt_mul, BitVec.shiftLeft_eq_mul_twoPow]
  congr 1
  apply BitVec.eq_of_toNat_eq
  rw [toNat_ofInt_eq, BitVec.toNat_twoPow]
  norm_cast

theorem add_shiftLeft_eq (a b : Word) (n : Nat) : a + b <<< n = BitVec.ofInt 64 (a.toInt + b.toInt * 2 ^ n) := by
  rw [BitVec.ofInt_add, ← shiftLeft_ofInt, BitVec.ofInt_toInt, BitVec.ofInt_toInt]

theorem shiftLeft_eq_ofInt_toNat (a : Word) (n : Nat) : a <<< n = BitVec.ofInt 64 (a.toNat * 2 ^ n) := by
  rw [← shiftLeft_ofInt, ← ofInt_toNat]

theorem shiftRight_eq_ofInt (a : Word) (n : Nat) : a >>> n = BitVec.ofInt 64 (a.toNat / 2 ^ n : Nat) := by
  apply BitVec.eq_of_toNat_eq
  rw [BitVec.ofInt_natCast, BitVec.toNat_ofNat, BitVec.toNat_ushiftRight, Nat.shiftRight_eq_div_pow,
    Nat.mod_eq_of_lt (lt_of_le_of_lt (Nat.div_le_self ..) a.isLt)]

theorem shlWord_eq (a : Word) (n : Nat) : shlWord a n = BitVec.ofInt 64 (a.toNat * 2 ^ n) := by
  rw [← shiftLeft_eq_ofInt_toNat, shlWord]
  split_ifs with h
  · exact (BitVec.shiftLeft_eq_zero h).symm
  · rfl

theorem shrWord_eq (a : Word) (n : Nat) : shrWord a n = BitVec.ofInt 64 (a.toNat / 2 ^ n : Nat) := by
  rw [← shiftRight_eq_ofInt, shrWord]
  split_ifs with h
  · exact (BitVec.ushiftRight_eq_zero h).symm
  · rfl

/-- A shift by 64 gives the copies of the sign that every longer shift gives. -/
theorem sarWord_eq (a : Word) (n : Nat) : sarWord a n = BitVec.ofInt 64 (a.toInt / 2 ^ n) := by
  have hmin : a.toInt / 2 ^ min n 64 = a.toInt / 2 ^ n := by
    rcases Nat.le_total n 64 with h | h
    · rw [min_eq_left h]
    · have hb : -(2 ^ 64 : Int) ≤ a.toInt ∧ a.toInt < 2 ^ 64 := by
        have h1 := a.le_toInt
        have h2 := a.toInt_lt
        omega
      rw [min_eq_right h, ediv_two_pow_of_bounds hb le_rfl, ediv_two_pow_of_bounds hb h]
  rw [sarWord, BitVec.sshiftRight_eq, Int.shiftRight_eq_div_pow]
  push_cast
  rw [hmin]

/-- The two parts of a rotation share no bit, so that their union is their sum. -/
theorem rotateLeft_eq_add (a : Word) {n : Nat} (hn : n < 64) : a.rotateLeft n = a <<< n + a >>> (64 - n) := by
  rw [BitVec.rotateLeft_def, Nat.mod_eq_of_lt hn, BitVec.add_eq_or_of_and_eq_zero]
  ext k hk
  simp only [BitVec.getElem_and, BitVec.getElem_shiftLeft, BitVec.getElem_ushiftRight, BitVec.getElem_zero]
  by_cases h : k < n
  · simp [h]
  · rw [BitVec.getLsbD_of_ge _ _ (by omega), Bool.and_false]

theorem rotateLeft_eq_ofInt (a : Word) {n : Nat} (hn : n < 64) :
    a.rotateLeft n = BitVec.ofInt 64 (a.toNat * 2 ^ n + (a.toNat / 2 ^ (64 - n) : Nat)) := by
  rw [rotateLeft_eq_add a hn, BitVec.ofInt_add, shiftLeft_eq_ofInt_toNat, shiftRight_eq_ofInt]

theorem rolWord_eq (a : Word) (n : Nat) :
    rolWord a n = BitVec.ofInt 64 (a.toNat * 2 ^ (n % 64) + (a.toNat / 2 ^ (64 - n % 64) : Nat)) :=
  rotateLeft_eq_ofInt a (Nat.mod_lt n (by decide))

theorem rolWord_imm_eq (a : Word) (n : BitVec 6) :
    rolWord a n.toNat = BitVec.ofInt 64 (a.toNat * 2 ^ n.toNat + (a.toNat / 2 ^ (64 - n.toNat) : Nat)) := by
  rw [rolWord_eq, Nat.mod_eq_of_lt n.isLt]

/-! Quotients and remainders -/

theorem divWord_eq (u : Bool) (a b : Word) :
    divWord u a b = BitVec.ofInt 64 (if b = 0 then 2 ^ 64 - 1 else if u then (a.toNat / b.toNat : Nat) else a.toInt.tdiv b.toInt) := by
  unfold divWord
  split_ifs
  · decide
  · exact (BitVec.ofInt_natCast ..).symm
  · rfl

theorem remWord_eq (u : Bool) (a b : Word) :
    remWord u a b = BitVec.ofInt 64 (if b = 0 then a.toInt else if u then (a.toNat % b.toNat : Nat) else a.toInt.tmod b.toInt) := by
  unfold remWord
  split_ifs
  · exact BitVec.ofInt_toInt.symm
  · exact (BitVec.ofInt_natCast ..).symm
  · rfl

/-! Counts of bits -/

theorem clzWord_eq (a : Word) :
    BitVec.ofNat 64 (clzNat 64 a.toNat) = BitVec.ofInt 64 (if a = 0 then 64 else 63 - (a.toNat.log2 : Int)) := by
  by_cases h : a = 0
  · subst h
    decide
  · have h0 : a.toNat ≠ 0 := fun e => h (BitVec.eq_of_toNat_eq e)
    have hlog : a.toNat.log2 < 64 := (Nat.log2_lt h0).2 a.isLt
    have hcast : ((64 - 1 - a.toNat.log2 : Nat) : Int) = 63 - a.toNat.log2 := by omega
    rw [clzNat, if_neg h0, if_neg h, ← hcast, BitVec.ofInt_natCast]

theorem bit_toNat (a : Word) : bit a.toNat = a.getLsbD := funext (bit_eq_testBit a.toNat)

theorem ctzWord_eq (a : Word) :
    BitVec.ofNat 64 (ctzNat 64 a.toNat) = BitVec.ofInt 64 (((List.range 64).find? fun k => a.getLsbD k).getD 64 : Nat) := by
  rw [ctzNat, bit_toNat, BitVec.ofInt_natCast]

theorem foldl_add_eq_countP {α : Type} (p : α → Bool) (l : List α) (m : Nat) :
    l.foldl (fun n k => n + if p k then 1 else 0) m = m + l.countP p := by
  induction l generalizing m with
  | nil => rfl
  | cons x xs ih => rw [List.foldl_cons, ih, List.countP_cons, Nat.add_assoc, Nat.add_comm (ite ..)]

theorem popcWord_eq (a : Word) :
    BitVec.ofNat 64 (popcNat 64 a.toNat) = BitVec.ofInt 64 ((List.range 64).countP fun k => a.getLsbD k : Nat) := by
  rw [popcNat, foldl_add_eq_countP, Nat.zero_add, bit_toNat, BitVec.ofInt_natCast]

/-! One of two words -/

theorem sel_eq_ofInt (a b : Word) (p neg : Bool) :
    (if xor p neg then a else b) = BitVec.ofInt 64 (if p ≠ neg then a.toInt else b.toInt) := by
  simp only [Bool.xor_iff_ne, ← apply_ite, BitVec.ofInt_toInt]

theorem min_toInt_eq (a b : Word) : (if b.slt a then b else a) = BitVec.ofInt 64 (min a.toInt b.toInt) := by
  rw [min_comm, min_def_lt, ← apply_ite, BitVec.ofInt_toInt]
  simp only [BitVec.slt_iff_toInt_lt]

theorem max_toInt_eq (a b : Word) : (if a.slt b then b else a) = BitVec.ofInt 64 (max a.toInt b.toInt) := by
  rw [max_def_lt, ← apply_ite, BitVec.ofInt_toInt]
  simp only [BitVec.slt_iff_toInt_lt]

theorem min_toNat_eq (a b : Word) : (if b.ult a then b else a) = BitVec.ofInt 64 (min a.toNat b.toNat : Nat) := by
  rw [min_comm, min_def_lt, ← apply_ite, ← ofInt_toNat]
  simp only [BitVec.ult_iff_toNat_lt]

theorem max_toNat_eq (a b : Word) : (if a.ult b then b else a) = BitVec.ofInt 64 (max a.toNat b.toNat : Nat) := by
  rw [max_def_lt, ← apply_ite, ← ofInt_toNat]
  simp only [BitVec.ult_iff_toNat_lt]

/-! Extensions -/

/-- The balanced residue is the two's complement reading of the low bits. -/
theorem sx_eq_bmod (w x : Nat) : sx (w + 1) x = (x : Int).bmod (2 ^ (w + 1)) := by
  have hp : 2 ^ (w + 1) = 2 * 2 ^ w := pow_succ' ..
  rw [sx, Int.bmod_def, Nat.add_sub_cancel]
  norm_cast
  split_ifs <;> omega

theorem sextWord_eq (a : Word) (n : Nat) : sextWord a (n + 1) = BitVec.ofInt 64 ((a.toNat : Int).bmod (2 ^ (n + 1))) := by
  rw [sextWord, wordOfInt, sx_eq_bmod]

/-! The words -/

/-- A word that writes `v` to g[d] delivers the integer that `v` stands for. -/
theorem exec_of_wr {s : State} {i : Instr} {d e : BitVec 5} {v : Word} {x y : Int} (h : some (d, x) = some (e, y))
    (hv : v = BitVec.ofInt 64 x) (hexec : exec i s = s.wr d v) : exec i s = s.wr e (BitVec.ofInt 64 y) := by
  obtain ⟨rfl, rfl⟩ := Prod.mk.inj (Option.some.inj h)
  rw [hexec, hv]

/-- MULH of the three kinds that exist. -/
theorem exec_mulh_of_exactResult {s : State} {d e a b : BitVec 5} {k : BitVec 2} {x : Int} (h : s.exactResult (.mulh e a b k) = some (d, x)) :
    exec (.mulh e a b k) s = s.wr d (BitVec.ofInt 64 x) := by
  rw [State.exactResult] at h
  split_ifs at h with h0 h1 h2
  · subst h0
    exact exec_of_wr h rfl rfl
  · subst h1
    exact exec_of_wr h (BitVec.ofInt_natCast ..).symm rfl
  · subst h2
    exact exec_of_wr h rfl rfl

/-- Each integer word writes its exact result modulo 2^64 and is done. -/
theorem exec_of_exactResult {s : State} {i : Instr} {d : BitVec 5} {x : Int} (h : s.exactResult i = some (d, x)) :
    exec i s = s.wr d (BitVec.ofInt 64 x) := by
  cases i
  case add => exact exec_of_wr h (add_eq_ofInt ..) rfl
  case addi => exact exec_of_wr h (add_signExtend_eq ..) rfl
  case sub => exact exec_of_wr h (sub_eq_ofInt ..) rfl
  case mul => exact exec_of_wr h (mul_eq_ofInt ..) rfl
  case mulh => exact exec_mulh_of_exactResult h
  case div => exact exec_of_wr h (divWord_eq ..) rfl
  case rem => exact exec_of_wr h (remWord_eq ..) rfl
  case and | or | xor | andn => exact exec_of_wr h (ofInt_toNat _) rfl
  case shl | shlImm => exact exec_of_wr h (shlWord_eq ..) rfl
  case shr | shrImm => exact exec_of_wr h (shrWord_eq ..) rfl
  case sar | sarImm => exact exec_of_wr h (sarWord_eq ..) rfl
  case rol => exact exec_of_wr h (rolWord_eq ..) rfl
  case rolImm => exact exec_of_wr h (rolWord_imm_eq ..) rfl
  case fshl | fshlImm | fshr | fshrImm | zext => exact exec_of_wr h (BitVec.ofInt_natCast ..).symm rfl
  case clz => exact exec_of_wr h (clzWord_eq _) rfl
  case ctz => exact exec_of_wr h (ctzWord_eq _) rfl
  case popc => exact exec_of_wr h (popcWord_eq _) rfl
  case min => exact exec_of_wr h (min_toInt_eq ..) rfl
  case max => exact exec_of_wr h (max_toInt_eq ..) rfl
  case minu => exact exec_of_wr h (min_toNat_eq ..) rfl
  case maxu => exact exec_of_wr h (max_toNat_eq ..) rfl
  case sext => exact exec_of_wr h (sextWord_eq ..) rfl
  case lui => exact exec_of_wr h (shiftLeft_ofInt ..) rfl
  case mov => exact exec_of_wr h BitVec.ofInt_toInt.symm rfl
  case movFromPred => exact exec_of_wr h (by split_ifs <;> rfl) rfl
  case sel => exact exec_of_wr h (sel_eq_ofInt ..) rfl
  case addx => exact exec_of_wr h (add_shiftLeft_eq ..) rfl
  case madd => exact exec_of_wr h (mul_add_eq ..) rfl
  -- No other word has an exact integer result.
  all_goals exact nomatch h

/-- A predicate word writes one predicate and is done. -/
theorem exec_of_exactPredicate {s : State} {i : Instr} {k : BitVec 3} {c : Prop} (h : s.exactPredicate i = some (k, c)) :
    ∃ v, exec i s = s.wrP k v := by
  cases i
  case cmp p a b cc =>
    have hk : p = k := by
      rw [State.exactPredicate] at h
      split at h
      case h_7 => exact nomatch h
      all_goals exact congrArg Prod.fst (Option.some.inj h)
    subst hk
    exact ⟨_, rfl⟩
  case movToPred p a =>
    have hk : p = k := congrArg Prod.fst (Option.some.inj h)
    subst hk
    exact ⟨_, rfl⟩
  -- No other word writes a predicate alone.
  all_goals exact nomatch h

/-- Settles O5: each integer word is one write of its exact result modulo 2^64, and each predicate word one write of a predicate. -/
theorem scalarResultsExact : Obligations.ScalarResultsExact := by
  refine ⟨fun s i d x h => ?_, fun s i k c h => ?_⟩
  · obtain ⟨hflags, hevents⟩ := s.flags_setG_done d (BitVec.ofInt 64 x)
    refine ⟨_, exec_of_exactResult h, ?_, .setG_done .., hflags, hevents⟩
    rw [State.g_done, State.g_setG, if_pos rfl]
  · obtain ⟨v, hexec⟩ := exec_of_exactPredicate h
    exact ⟨_, hexec, fun r => by rw [State.g_done, State.g_setP], by rw [State.flags_done, State.flags_setP],
      by rw [State.events_done, State.events_setP]⟩

end Sys2Proof.Machine
